-- ==== Sys2Proof/Word.lean ====
section
/-!
DEFINITION. The word types of the DVS instruction set and their plainest arithmetic.
-/

namespace Sys2Proof

/-- One byte of memory. -/
abbrev Byte := BitVec 8
/-- One lane of a vector register (R45). -/
abbrev W32 := BitVec 32
/-- One scalar register, CSR or address (R48). -/
abbrev W64 := BitVec 64
/-- An instruction word, its unused upper bits zero (R304). -/
abbrev Word128 := BitVec 128
/-- A set of lanes of one group, bit l for lane l (R29). -/
abbrev Mask := BitVec 256

/-- The bytes of a number, `n` of them, least significant first (R304: little-endian). -/
def bytesOfNat : Nat → Nat → List Byte
  | 0, _ => []
  | n + 1, w => BitVec.ofNat 8 w :: bytesOfNat n (w / 256)

/-- The number that little-endian bytes spell. -/
def natOfBytes : List Byte → Nat
  | [] => 0
  | b :: bs => b.toNat + 256 * natOfBytes bs

/-- A natural number read as a two's-complement integer of `w` bits. -/
def toSigned (w n : Nat) : Int :=
  let m := n % 2 ^ w
  if 2 * m < 2 ^ w then (m : Int) else (m : Int) - (2 ^ w : Nat)

/-- An integer reduced modulo 2^w. -/
def ofInt (w : Nat) (x : Int) : Nat := (x % ((2 ^ w : Nat) : Int)).toNat

end Sys2Proof
end

