-- ==== Sys2Proof/Syntax.lean ====
section
/-!
DEFINITION. The syntax of the module's steps: one constructor of `Instr` for each row of the opcode table. An
instruction word carries its fields (R305), already split; a whole-machine step (an event of the table) carries what
the environment or the firmware chooses for it.
-/

namespace Sys2Proof

/-- Word length (R304). -/
inductive Len where | w64 | w96 | w128
deriving DecidableEq, Repr

/-- Bytes of a word (R304). -/
def Len.bytes : Len → Nat
  | .w64 => 8
  | .w96 => 12
  | .w128 => 16

/-- Rounding modes (R82, R305). -/
inductive RM where | rne | rz | ru | rd
deriving DecidableEq, Repr

/-- Format tags 0 to 10 (R49). -/
inductive Tag where | raw | i32 | n32 | f32 | bf16 | f16 | i8 | n8 | bp8 | bpb | name
deriving DecidableEq, Repr

def Tag.code : Tag → BitVec 4
  | .raw => 0 | .i32 => 1 | .n32 => 2 | .f32 => 3 | .bf16 => 4 | .f16 => 5 | .i8 => 6 | .n8 => 7
  | .bp8 => 8 | .bpb => 9 | .name => 10

/-- The HOLD field (R56). -/
inductive Hold where | none | a | b | c
deriving DecidableEq, Repr

/-- The 128 operand codes (R309). -/
inductive Opd where
  | v (n : Fin 64) | s (n : Fin 32) | t (n : Fin 16) | a (n : Fin 8)
  | lane | group | team | lcore | nlane | spread | imm | zero
deriving DecidableEq, Repr

def Opd.code : Opd → BitVec 7
  | .v n => BitVec.ofNat 7 n.val
  | .s n => BitVec.ofNat 7 (0x40 + n.val)
  | .t n => BitVec.ofNat 7 (0x60 + n.val)
  | .a n => BitVec.ofNat 7 (0x70 + n.val)
  | .lane => 0x78 | .group => 0x79 | .team => 0x7A | .lcore => 0x7B | .nlane => 0x7C | .spread => 0x7D
  | .imm => 0x7E | .zero => 0x7F

/-- The fields of an instruction word (R305). In a 64- or 96-bit word POL is 0x7F and EXT 0, and in a 64-bit word
IMM32 is 0: the word has no such bits. An operand field that an entry declares an immediate holds its code. -/
structure Fields where
  ext : BitVec 25
  pol : Opd
  imm : BitVec 32
  x : BitVec 3
  sat : Bool
  rm : RM
  fmt : Tag
  hold : Hold
  btC : Bool
  btB : Bool
  btA : Bool
  c : Opd
  b : Opd
  a : Opd
  d : Opd
  rk : Bool
  uni : Bool
  pn : Bool
  pg : Fin 8
  len : Len
deriving DecidableEq, Repr

/-- A partition-table entry as firmware writes it (R283), with the virtual-die table (R105) as physical dies. -/
structure PartEntry where
  state : Nat
  alloc0 : Bool
  quartets : List Nat
  quota : Nat
  share : Nat
  queues : Nat
  ways : Nat
  pool : Nat
  ctxMib : Nat
  dies : List Nat
  root1 : Nat
  root2 : Nat
  bitmap : Nat
  service : Nat
  /-- Virtual addresses of the queues' control blocks, which firmware creates with the partition (R241). -/
  ctl : List Nat := []
deriving DecidableEq, Repr

/-- Register writes of the host's boot window (R12) and of state that only firmware writes. -/
inductive RegWrite where
  /-- HADDR (R12). -/
  | haddr (v : BitVec 64)
  /-- HLEN (R12). -/
  | hlen (v : BitVec 32)
  /-- An ASSIGNED tile in no binding entry is returned to FREE (R141). -/
  | tileFree (die plot tile : Nat)
  /-- A FREE tile that firmware names for a retired tile of a plot without a spare (R142). -/
  | spareTile (die plot tile : Nat)
  /-- A host window of a partition (R301). -/
  | window (p w : Nat) (base len : Nat) (rd wr : Bool)
  /-- The provider salt (R187). -/
  | salt (bytes : List (BitVec 8))
  /-- The provider pool's size in MiB (R186). -/
  | pool (mib : Nat)
  /-- A partition's default pool split (R42, R243). -/
  | split (p : Nat) (b0 b1 b2 : BitVec 8)
  /-- A launch of the device's own, started by the management core (R314): a record at a partition's VA. -/
  | ownLaunch (p : Nat) (va : Nat)
  /-- Firmware begins a fresh load of an incomplete image (R144). -/
  | freshImage (root : Nat)
  /-- A store of the management core to device physical memory that it owns (R164). -/
  | memory (pa : Nat) (bytes : List (BitVec 8))
  /-- The device physical addresses of the shard request ring and inbox (R143). -/
  | shardRing (pa : Nat)
  /-- The reverse table's entry of a physical page: owner and intermediate page (R293). -/
  | reverse (page : Nat) (owner : Option (Nat × Nat))
  /-- A physical page that firmware grants to the host, or takes back (R300). -/
  | hostGrant (page : Nat) (on : Bool)
  /-- Physical pages of this module exported to a partition of a remote module (R302). -/
  | domainExport (modno part page count : Nat)
  /-- Domain pages that remote firmware exports to a partition of this module (R302). -/
  | domainImport (p page count : Nat)
  /-- An L2 line leaves its set (R174). -/
  | l2Evict (pa : Nat)
  /-- The host stores in its own memory (R223). -/
  | hostStore (a : Nat) (bytes : List (BitVec 8))
  /-- A store of another module at a domain address outside this module (R219). -/
  | domainStore (a : Nat) (bytes : List (BitVec 8))
  /-- A failing die is removed from every virtual-die table (R292). -/
  | dieRemoved (die : Nat)
  /-- Firmware learns that a partition's export has been restored on another module (R295). -/
  | exportDone (p : Nat)
  /-- The k-th export object of another module is placed in a host buffer (R297). -/
  | hostExport (addr k : Nat)
  /-- Transfers of command buffers over port H fail, or work again (R12). -/
  | portFails (on : Bool)
  /-- Power fails while LOADING entry `m` is being published as `n`, with commit marks on the given dies (R15). -/
  | powerFailing (n m : Nat) (done : List Nat)
  /-- Probe requests of the coming warm calibration with failed attempts (R129, R133): binding, transposed, probe, 256-lane
  start, and how many attempts of the two. -/
  | probeFails (l : List (Nat × Bool × Nat × Nat × Nat))
deriving DecidableEq, Repr

/-- What firmware gives a restore (R289, R297): physical pages, and link slots by die, direction and number. -/
structure RestorePlace where
  pages : List Nat
  slots : List (Nat × Bool × Nat) := []
deriving DecidableEq, Repr

/-- Where firmware binds one team (R251, R252): a physical core, and for each group its slot and WBASE in KiB. -/
structure TeamPlace where
  core : Nat
  slots : List (Nat × Nat)
  spBase : Nat
deriving DecidableEq, Repr

/-- A read that may fail twice (R177). -/
inductive ReadRef where
  /-- One element of a load or ATOM. -/
  | access (id elem : Nat)
  /-- The next chunk of a copy or COUT. -/
  | copy (id : Nat)
  /-- A source line of one stripe of a RED, at a virtual address. -/
  | red (id stripe va : Nat)
  /-- The destination of a drain: for R177 the line of a memory add-on-store. -/
  | drain (q id : Nat)
  /-- The destination of the next chunk of a copy, over a link or a host window (R301, R302). -/
  | copyWrite (id : Nat)
  /-- A line that fails, or is mended, for readers that read at an issue. -/
  | line (pa : Nat) (bad : Bool)
  /-- A domain line whose link fails, or is mended, for readers that read at an issue (R271, R302). -/
  | domLine (a : Nat) (bad : Bool)
  /-- The flag store of a RED (R184, R302). -/
  | redFlag (id : Nat)
  /-- The capture record of a layer operation (R117, R302). -/
  | capture (id : Nat)
  /-- A read whose reread succeeded (R271). -/
  | cured
deriving DecidableEq, Repr

/-- One step of the module: an instruction word, or a whole-machine step. -/
inductive Instr where
  /-- R13: power comes up. -/
  | powerUp
  /-- R13: the module is reset. -/
  | moduleReset
  /-- R13, R137: power is lost; only the dies' non-volatile areas survive. -/
  | powerLoss
  /-- R12, R13: the host writes HCMD code 0x01. -/
  | loadfw
  /-- R13: a controller's self-test ends, passed or not; a passing die replays its journals (R139). -/
  | laurelSelfTestDone (die : Nat) (ok : Bool)
  /-- R133, R16: warm calibration of every restored binding, then READY with a module number (R302). -/
  | warmCalibration (modno : Nat)
  /-- R17: the host writes HCMD code 0x02. -/
  | attest
  /-- R11: one estimate of the current governor. -/
  | governorEstimate (exceeds : Bool)
  /-- R42: the management core writes a core's pool split. -/
  | bndWrite (core : Nat) (b0 b1 b2 : BitVec 8)
  /-- R126: firmware writes a binding's Topiary setting. -/
  | topiarySettingWrite (n : Nat) (v : BitVec 32)
  /-- R119: firmware writes one link slot's owner. -/
  | linkSlotTableWrite (port : Nat) (response : Bool) (slot : Nat) (owner : BitVec 8)
  /-- R12, R141, R301: a write of a boot-window or firmware-owned register. -/
  | registerWrite (r : RegWrite)
  /-- R283, R284, R289: firmware writes a partition-table entry. -/
  | partitionWrite (p : Nat) (e : PartEntry)
  /-- R285: firmware moves a failing page and rewrites its stage-2 leaf. -/
  | pageRetirement (p : Nat) (leaf oldPage newPage : Nat)
  /-- R262, R266: firmware services a stage-2 record by a leaf write, or declines it. -/
  | stage2FaultService (core rec : Nat) (leaf : Option (Nat × BitVec 64))
  /-- R26, R27, R35: a rod's next occupied position takes its turn. -/
  | groupTurn (core rod : Nat)
  /-- R273: a group takes a requested PREEMPT at its turn. -/
  | preemptDelivery (gid : Nat)
  /-- R274: 20,000 ticks after the request with M still 1. -/
  | preemptGraceExpiry (gid : Nat)
  /-- R276: a budget has run out. -/
  | forcedSave (gid : Nat)
  /-- R276, R281: a save's waits are over and the context is stored. -/
  | contextSaveComplete (gid : Nat)
  /-- R272, R249: firmware vacates cores of its choice. -/
  | spatialPreemption (p launch : Nat) (cores : List Nat)
  /-- R400, R209: one element of a load is performed and delivered; evicted: no L1 copy was left to hit. -/
  | loadDelivery (id elem : Nat) (evicted : Bool)
  /-- R238: an old value lands. -/
  | atomReturnDelivery (id elem : Nat)
  /-- R208: one element of a store is applied at its place. -/
  | storePerformed (id elem : Nat)
  /-- R171: copies of a line whose leases have ended are dropped. -/
  | leaseExpiry (line : Nat)
  /-- R177: a read fails for the second time. -/
  | uncorrectableRead (r : ReadRef)
  /-- R223, R300: one CXL.mem access. -/
  | hostMemAccess (write : Bool) (pa : Nat) (bytes : List (BitVec 8))
  /-- R219, R302: a store of a remote module's partition reaches this module's home. -/
  | domainAccessRemote (who : Nat × Nat) (pa va : Nat) (bytes : List (BitVec 8))
  /-- R302, R271: a link CRC failure of a domain access, or a failed host transaction (R301); `denied`: the home of a
  domain store refuses it (R295). -/
  | scaleupCrcFailure (r : ReadRef) (denied second : Bool)
  /-- R302: a remote module leaves. -/
  | moduleLeavesDomain (modno : Nat)
  /-- R64: the σ of a symbolic producer lands. -/
  | arrival (id : Nat)
  /-- R63: the σ of a direct-mode producer lands. -/
  | directModeDelivery (id : Nat)
  /-- R119: a request link slot begins and carries the owner's oldest request. -/
  | linkSlotStart (port : Nat) (slot : Nat)
  /-- R109, R120: one tile product of a request ends and its codes are summed. -/
  | plotTileProduct (id tile : Nat)
  /-- R113: an attempt reaches its deadline incomplete. -/
  | layrDeadlineExpiry (id : Nat)
  /-- R113: a packet of an attempt fails the link CRC. -/
  | arrayCrcFailure (id : Nat)
  /-- R113: a plot back-end reports a fault on a tile of an attempt. -/
  | plotFault (id : Nat)
  /-- R115: the shadow unit computes a request's codes. -/
  | shadowCompute (id : Nat)
  /-- R127: a due epoch begins. -/
  | epochDue (n : Nat)
  /-- R128, R129: probe k of an epoch is driven, or, once its requests have ended, measured. -/
  | probeMeasurement (n k : Nat) (ended : Bool)
  /-- R125, R130, R132: the fits are written and the bank is swapped. -/
  | topiarySwap (n : Nat)
  /-- R135 step 2. -/
  | rowProgramStart (id : Nat)
  /-- R135 steps 3 and 4: within tolerance after at most 64 rounds, or not. -/
  | programVerify (id : Nat) (ok : Bool)
  /-- R135 steps 5 and 6. -/
  | relaxationDwellEnd (id : Nat) (ok : Bool)
  /-- R143, R144, R206: the entry of an inbox slot is taken: of the shard inbox, or of partition p's service area. -/
  | shardDelivery (p : Option Nat) (slot : Nat)
  /-- R144: a shard request has waited 2^30 ticks. -/
  | shardTimeout (name : Nat)
  /-- R195: one pending drop of a freed twig's child. -/
  | pruning
  /-- R196, R198: the next item of an asynchronous thicket operation. -/
  | thicketItem (id : Nat)
  /-- R216: a thicket operation retires. -/
  | thicketOpRetire (id : Nat)
  /-- R179: the next chunk of a copy, or its completion. -/
  | copyChunk (id : Nat)
  /-- R184: one stripe of a RED at its port reducer. -/
  | redStripe (id stripe : Nat)
  /-- R184 step 5. -/
  | redFlagStore (id : Nat)
  /-- R184 step 6, R216. -/
  | redCompletion (id : Nat)
  /-- R238, R176: one element of an ATOM is applied at its place. -/
  | atomAtReducer (id elem : Nat)
  /-- R154: a free beam core takes the highest-ranked pass. -/
  | passGrant (q : Nat)
  /-- R153: the running pass ends. -/
  | passCompletion (q : Nat)
  /-- R159: a drain is applied. -/
  | drainLanding (q id : Nat)
  /-- R162: the management core resets a hung engine. -/
  | engineHang (q : Nat)
  /-- R242, R245: the record at HEAD is read, validated and queued or refused. -/
  | launchConsume (p q : Nat)
  /-- R252, R253, R282: the teams of the spread that starts at team `first` are bound. -/
  | teamBind (lid first : Nat) (places : List TeamPlace)
  /-- R248: a launch completes, or a killed one is reported. -/
  | launchCompletion (lid : Nat)
  /-- R234 row 5. -/
  | trellisTimeRow (core : Nat)
  /-- R287, R280: the service request KILL at the ring's head. -/
  | kill (p : Nat)
  /-- R287, R272: the service request PREEMPT, with firmware's choice of cores. -/
  | servicePreempt (p : Nat) (cores : List Nat)
  /-- R287: the service request QRESET. -/
  | qreset (p : Nat)
  /-- R287, R279: the service request WATCH. -/
  | serviceWatch (p : Nat)
  /-- R290: the service request FLR, a function-level reset. -/
  | flr (p : Nat)
  /-- R294: the service request EXPORT. -/
  | exportPart (p : Nat)
  /-- R294: the service request ROUND. -/
  | round (p : Nat)
  /-- R295, R296: the service request STOP. -/
  | stop (p : Nat)
  /-- R287: the service request RESUME. -/
  | resume (p : Nat)
  /-- R297, R289: the service request RESTORE, with firmware's choice of physical pages and of link slots. -/
  | restore (p : Nat) (place : RestorePlace)
  /-- NOP (R418). -/
  | nop (f : Fields)
  /-- NOP_SKIP (R316). -/
  | nopSkip (f : Fields)
  /-- MOV (R413). -/
  | mov (f : Fields)
  /-- MOVI (R414). -/
  | movi (f : Fields)
  /-- SEL (R431). -/
  | sel (f : Fields)
  /-- IADD (R388). -/
  | iadd (f : Fields)
  /-- ISUB (R388). -/
  | isub (f : Fields)
  /-- IMUL (R393). -/
  | imul (f : Fields)
  /-- IMULH (R393). -/
  | imulh (f : Fields)
  /-- IMAD (R391). -/
  | imad (f : Fields)
  /-- IMIN (R392). -/
  | imin (f : Fields)
  /-- IMAX (R392). -/
  | imax (f : Fields)
  /-- IABS (R387). -/
  | iabs (f : Fields)
  /-- INEG (R387). -/
  | ineg (f : Fields)
  /-- ICMP_EQ (R389). -/
  | icmpEq (f : Fields)
  /-- ICMP_NE (R389). -/
  | icmpNe (f : Fields)
  /-- ICMP_LT (R389). -/
  | icmpLt (f : Fields)
  /-- ICMP_LE (R389). -/
  | icmpLe (f : Fields)
  /-- ICMP_GT (R389). -/
  | icmpGt (f : Fields)
  /-- ICMP_GE (R389). -/
  | icmpGe (f : Fields)
  /-- AND (R331). -/
  | and (f : Fields)
  /-- ANDN (R331). -/
  | andn (f : Fields)
  /-- OR (R331). -/
  | or (f : Fields)
  /-- XOR (R331). -/
  | xor (f : Fields)
  /-- NOT (R331). -/
  | not (f : Fields)
  /-- SHL (R432). -/
  | shl (f : Fields)
  /-- SHR (R432). -/
  | shr (f : Fields)
  /-- SAR (R432). -/
  | sar (f : Fields)
  /-- CLZ (R347). -/
  | clz (f : Fields)
  /-- POPC (R347). -/
  | popc (f : Fields)
  /-- BFX (R337). -/
  | bfx (f : Fields)
  /-- BFI (R336). -/
  | bfi (f : Fields)
  /-- FADD (R371). -/
  | fadd (f : Fields)
  /-- FSUB (R371). -/
  | fsub (f : Fields)
  /-- FMUL (R371). -/
  | fmul (f : Fields)
  /-- FFMA (R378). -/
  | ffma (f : Fields)
  /-- FFMS (R378). -/
  | ffms (f : Fields)
  /-- FNMA (R378). -/
  | fnma (f : Fields)
  /-- FNMS (R378). -/
  | fnms (f : Fields)
  /-- FMIN (R379). -/
  | fmin (f : Fields)
  /-- FMAX (R379). -/
  | fmax (f : Fields)
  /-- FCMP_EQ (R373). -/
  | fcmpEq (f : Fields)
  /-- FCMP_NE (R373). -/
  | fcmpNe (f : Fields)
  /-- FCMP_LT (R373). -/
  | fcmpLt (f : Fields)
  /-- FCMP_LE (R373). -/
  | fcmpLe (f : Fields)
  /-- FCMP_GT (R373). -/
  | fcmpGt (f : Fields)
  /-- FCMP_GE (R373). -/
  | fcmpGe (f : Fields)
  /-- FCMP_UN (R373). -/
  | fcmpUn (f : Fields)
  /-- FRCP (R380). -/
  | frcp (f : Fields)
  /-- FRSQ (R381). -/
  | frsq (f : Fields)
  /-- FSQRT (R382). -/
  | fsqrt (f : Fields)
  /-- FEXP2 (R376). -/
  | fexp2 (f : Fields)
  /-- FLOG2 (R377). -/
  | flog2 (f : Fields)
  /-- FCLS (R372). -/
  | fcls (f : Fields)
  /-- CVT (R360). -/
  | cvt (f : Fields)
  /-- PACK (R420). -/
  | pack (f : Fields)
  /-- UNPK (R420). -/
  | unpk (f : Fields)
  /-- BPQ (R338). -/
  | bpq (f : Fields)
  /-- BPX (R339). -/
  | bpx (f : Fields)
  /-- QXCH (R422). -/
  | qxch (f : Fields)
  /-- QBCST (R422). -/
  | qbcst (f : Fields)
  /-- LSHF (R407). -/
  | lshf (f : Fields)
  /-- VOTE_ALL (R441). -/
  | voteAll (f : Fields)
  /-- VOTE_ANY (R441). -/
  | voteAny (f : Fields)
  /-- VOTE_BALLOT (R441). -/
  | voteBallot (f : Fields)
  /-- GRED_ADD (R385). -/
  | gredAdd (f : Fields)
  /-- GRED_MIN (R385). -/
  | gredMin (f : Fields)
  /-- GRED_MAX (R385). -/
  | gredMax (f : Fields)
  /-- GSCAN_ADD (R385). -/
  | gscanAdd (f : Fields)
  /-- GSCAN_MIN (R385). -/
  | gscanMin (f : Fields)
  /-- GSCAN_MAX (R385). -/
  | gscanMax (f : Fields)
  /-- BRA (R341). -/
  | bra (f : Fields)
  /-- BRX (R342). -/
  | brx (f : Fields)
  /-- CALL (R343). -/
  | call (f : Fields)
  /-- RET (R426). -/
  | ret (f : Fields)
  /-- EXIT (R369). -/
  | exit (f : Fields)
  /-- TRAP (R437). -/
  | trap (f : Fields)
  /-- SYSC (R437). -/
  | sysc (f : Fields)
  /-- ERET (R270). -/
  | eret (f : Fields)
  /-- CSRR (R355). -/
  | csrr (f : Fields)
  /-- CSRW (R355). -/
  | csrw (f : Fields)
  /-- TICK (R438). -/
  | tick (f : Fields)
  /-- SLEEP (R433). -/
  | sleep (f : Fields)
  /-- VDHOP (R440). -/
  | vdhop (f : Fields)
  /-- TLBI_VA (R439). -/
  | tlbiVa (f : Fields)
  /-- TLBI_IA (R439). -/
  | tlbiIa (f : Fields)
  /-- TLBI_ALL (R439). -/
  | tlbiAll (f : Fields)
  /-- CTXS (R357). -/
  | ctxs (f : Fields)
  /-- CTXR (R358). -/
  | ctxr (f : Fields)
  /-- LDV (R400). -/
  | ldv (f : Fields)
  /-- LDV_LATE (R401). -/
  | ldvLate (f : Fields)
  /-- STV (R434). -/
  | stv (f : Fields)
  /-- LDS (R400). -/
  | lds (f : Fields)
  /-- STS (R434). -/
  | sts (f : Fields)
  /-- LDP (R400). -/
  | ldp (f : Fields)
  /-- STP (R434). -/
  | stp (f : Fields)
  /-- LDT (R404). -/
  | ldt (f : Fields)
  /-- STT (R435). -/
  | stt (f : Fields)
  /-- PREF (R421). -/
  | pref (f : Fields)
  /-- ATOM_ADD (R237). -/
  | atomAdd (f : Fields)
  /-- ATOM_FADD (R237). -/
  | atomFadd (f : Fields)
  /-- ATOM_SMAX (R237). -/
  | atomSmax (f : Fields)
  /-- ATOM_SMIN (R237). -/
  | atomSmin (f : Fields)
  /-- ATOM_NMAX (R237). -/
  | atomNmax (f : Fields)
  /-- ATOM_NMIN (R237). -/
  | atomNmin (f : Fields)
  /-- ATOM_FMAX (R237). -/
  | atomFmax (f : Fields)
  /-- ATOM_FMIN (R237). -/
  | atomFmin (f : Fields)
  /-- ATOM_AND (R237). -/
  | atomAnd (f : Fields)
  /-- ATOM_OR (R237). -/
  | atomOr (f : Fields)
  /-- ATOM_XOR (R237). -/
  | atomXor (f : Fields)
  /-- ATOM_XCHG (R237). -/
  | atomXchg (f : Fields)
  /-- ATOM_CAS (R237). -/
  | atomCas (f : Fields)
  /-- CPY (R351). -/
  | cpy (f : Fields)
  /-- RED (R425). -/
  | red (f : Fields)
  /-- FENCE (R375). -/
  | fence (f : Fields)
  /-- FWAIT (R384). -/
  | fwait (f : Fields)
  /-- IFENCE (R390). -/
  | ifence (f : Fields)
  /-- WAITC_CP (R443). -/
  | waitcCp (f : Fields)
  /-- WAITC_RD (R443). -/
  | waitcRd (f : Fields)
  /-- WAITC_MP (R443). -/
  | waitcMp (f : Fields)
  /-- WAITC_AR (R443). -/
  | waitcAr (f : Fields)
  /-- WAITC_TH (R443). -/
  | waitcTh (f : Fields)
  /-- BARA (R231). -/
  | bara (f : Fields)
  /-- BARW (R231). -/
  | barw (f : Fields)
  /-- BART (R231). -/
  | bart (f : Fields)
  /-- QPUSH (R227). -/
  | qpush (f : Fields)
  /-- QPOP (R227). -/
  | qpop (f : Fields)
  /-- QTRY (R227). -/
  | qtry (f : Fields)
  /-- EVRT_ROUTE (R235). -/
  | evrtRoute (f : Fields)
  /-- EVRT_WAKE (R235). -/
  | evrtWake (f : Fields)
  /-- EVRT_SIG (R235). -/
  | evrtSig (f : Fields)
  /-- EVRT_RD (R235). -/
  | evrtRd (f : Fields)
  /-- MRSV (R147). -/
  | mrsv (f : Fields)
  /-- MREL (R148). -/
  | mrel (f : Fields)
  /-- MPASS (R152). -/
  | mpass (f : Fields)
  /-- MMA (R155). -/
  | mma (f : Fields)
  /-- MMAB (R155). -/
  | mmab (f : Fields)
  /-- MZRO (R417). -/
  | mzro (f : Fields)
  /-- MLDB (R411). -/
  | mldb (f : Fields)
  /-- MDRN (R410). -/
  | mdrn (f : Fields)
  /-- MDRN_SP (R410). -/
  | mdrnSp (f : Fields)
  /-- MDRN_MEM (R410). -/
  | mdrnMem (f : Fields)
  /-- MSTAT (R417). -/
  | mstat (f : Fields)
  /-- LAYR (R394). -/
  | layr (f : Fields)
  /-- LAYRT (R394). -/
  | layrt (f : Fields)
  /-- LCAP_OFF (R116). -/
  | lcapOff (f : Fields)
  /-- LCAP_CAP (R116). -/
  | lcapCap (f : Fields)
  /-- LCAP_REP (R118). -/
  | lcapRep (f : Fields)
  /-- LCAP_STAT (R116). -/
  | lcapStat (f : Fields)
  /-- LPRB (R406). -/
  | lprb (f : Fields)
  /-- LPRBT (R406). -/
  | lprbt (f : Fields)
  /-- ABND_LOAD (R329). -/
  | abndLoad (f : Fields)
  /-- ABND_PUB (R329). -/
  | abndPub (f : Fields)
  /-- ABND_RET (R329). -/
  | abndRet (f : Fields)
  /-- ESPL (R365). -/
  | espl (f : Fields)
  /-- ASTAT (R332). -/
  | astat (f : Fields)
  /-- CNAM (R348). -/
  | cnam (f : Fields)
  /-- CLOA (R346). -/
  | cloa (f : Fields)
  /-- CTWG (R356). -/
  | ctwg (f : Fields)
  /-- CGET (R345). -/
  | cget (f : Fields)
  /-- COUT (R349). -/
  | cout (f : Fields)
  /-- CREF (R353). -/
  | cref (f : Fields)
  /-- RPIN (R199). -/
  | rpin (f : Fields)
  /-- RUNP (R194). -/
  | runp (f : Fields)
  /-- RSWP (R200). -/
  | rswp (f : Fields)
  /-- RKST (R72). -/
  | rkst (f : Fields)
  /-- RKST_ALL (R72). -/
  | rkstAll (f : Fields)
  /-- RKQ (R73). -/
  | rkq (f : Fields)
  /-- R406: the codes of an LPRB return. -/
  | lprbResultLanding (id : Nat)
  /-- R12: HCMD is written with an unknown code or reserved bits. -/
  | hcmdUnknownCode (code : BitVec 32)
  /-- R287: the service request at the head has an unknown opcode or a reserved byte set. -/
  | serviceUnknownOpcode (p : Nat)
deriving DecidableEq, Repr

end Sys2Proof
end

