-- ==== Sys2Proof/Machine/State.lean ====
section
/-!
DEFINITION. The state of the module as plain data: every piece of architectural state the spec names, the operations
in flight, and the five fields of the model's own (agenda, issue, rotor, free, nextId). Sparse tables and memories are
lists of key and value, keys strictly rising, with no entry equal to the default.
-/

namespace Sys2Proof.Machine

/-- A sparse table. -/
abbrev Tbl (α : Type) := List (Nat × α)

/-- A byte memory: strictly rising addresses, no zero byte listed; an unlisted byte reads as 0. -/
abbrev Mem := List Host.Cell

/-- State of a vector register (R51): F; E; P bound to a slot. -/
inductive RegSt where | full | empty | pend (slot : Nat)
deriving DecidableEq, Repr

/-- The base record or a live split entry (R29); the base has key 15. `jpc` and `parent` have no meaning for the base. -/
structure Sub where
  mask : Mask := 0
  pc : W64 := 0
  jpc : W64 := 0
  parent : Nat := 15
deriving DecidableEq, Repr

/-- A parked lane (R29). -/
structure Park where
  pc : W64
  owner : Nat
deriving DecidableEq, Repr

/-- A symbol slot (R61). -/
structure Slot where
  busy : Bool := false
  arr : Bool := false
  fail : Bool := false
  anv : Bool := false
  tf : Bool := false
  cause : Bool := false
  holders : Nat := 0
  epoch : BitVec 32 := 0
deriving DecidableEq, Repr

/-- The capture log of a group (R116): mode 0 off, 1 capture, 2 replay. -/
structure CapLog where
  mode : Nat := 0
  mis : Bool := false
  ovf : Bool := false
  index : Nat := 0
  base : W64 := 0
  cap : Nat := 0
  pol : W32 := 0
deriving DecidableEq, Repr

/-- Counter classes (R58, R216). -/
inductive Cls where | cp | rd | mp | ar | th
deriving DecidableEq, Repr

/-- An imprecise fault that waits for its delivery point (R182, R184, R201, R397, R153). -/
structure Fault1 where
  cls : Cls
  cause : Nat
  tval : W64
  w : Bool
  op : Nat
deriving DecidableEq, Repr

/-- Where the value of an access lands: in the window, through the `Prod` of the access's number; a scalar; nowhere. -/
inductive Dest where | win | scal (n : Nat) | none
deriving DecidableEq, Repr

/-- A producer that still owes window bytes to its group (R51, R53): the range its destination covers, the tag it
lands with, the byte and granule ranges that later instructions of the group have written meanwhile, and, for a result
already in the window that only time holds back, the tick at which it lands (R385). -/
structure Prod where
  start : Nat
  len : Nat
  tag : Tag
  skip : List (Nat × Nat) := []
  skipTags : List (Nat × Nat) := []
  due : Option Nat := none
deriving DecidableEq, Repr

/-- A held MEMUE (R402, R238): the destination that stays E or unavailable (a `Prod`'s number, or a scalar), the lowest
failing address, and the FENCE kinds that deliver it. -/
structure Memue where
  /-- The access that failed. -/
  id : Nat := 0
  prod : Option Nat
  scal : Option Nat
  addr : W64
  kindL : Bool
  kindS : Bool
  /-- The home has refused the store (R295): PROT in place of MEMUE. -/
  denied : Bool := false
deriving DecidableEq, Repr

/-- Why a group does not run although resident (R262, R266). -/
inductive Hang where
  | no
  /-- Member of a coalescer record of its core. -/
  | member (rec : Nat)
  /-- Waiting for firmware at a stage-2 record. -/
  | stage2 (rec : Nat)
  /-- Its trap found every record of its core OPEN. -/
  | full
deriving DecidableEq, Repr

/-- A handler entry not yet returned from (R268, R270): the coalescer record that it leads, by core and number, and the
cause and page of its trap. `skip`: the instruction it interrupted before its first issue was to ignore WATCH hits (R268). -/
structure HEntry where
  led : Option (Nat × Nat) := none
  cause : Nat
  page : Nat
  skip : Bool := false
deriving DecidableEq, Repr

/-- A pre-emption of a group (R273, R274): not requested, requested at a tick, served since a tick. -/
inductive Pre where | no | asked (t : Nat) | served (t : Nat)
deriving DecidableEq, Repr

/-- A save in progress (R275, R276): the KiB kept of the window, and whether firmware forced it. -/
structure Saving where
  keep : W64
  forced : Bool
deriving DecidableEq, Repr

/-- The CSRs of a group (R58), TSF being the team's, and what stands behind them. -/
structure Csrs where
  fmode : BitVec 4 := 0
  wh : Nat := 0
  cp : Nat := 0
  rd : Nat := 0
  mp : Nat := 0
  ar : Nat := 0
  th : Nat := 0
  tview : BitVec 16 := 0
  aview : BitVec 16 := 0
  lpol : W64 := 0
  hbase : W64 := 0
  tcause : W64 := 0
  tepc : W64 := 0
  tval : W64 := 0
  m : Bool := false
  pend : Bool := false
  wskip : Bool := false
  budget : Nat := 0
  /-- LEFT of a served PREEMPT as the save of the group found it (R281, R282). -/
  left : Nat := 0
  watch : Tbl W64 := []
deriving DecidableEq, Repr

/-- Who a group is: launch, team and placement (R19 to R21, R251). -/
structure Ident where
  lid : Nat := 0
  tid : Nat := 0
  part : Nat := 0
  index : Nat := 0
  core : Nat := 0
  slot : Nat := 0
  team : Nat := 0
  lcores : Nat := 1
  spread : Nat := 1
  nreal : Nat := 0
  w : Nat := 1
  k : Nat := 0
deriving DecidableEq, Repr

/-- A resident or saved group. -/
structure Group where
  ident : Ident := {}
  subs : Tbl Sub := []
  parked : Tbl Park := []
  exited : Mask := 0
  lastSub : Option Nat := none
  win : Mem := []
  tags : Tbl Tag := []
  vst : Tbl RegSt := []
  /-- Producers still to land, by the number of their operation. -/
  prods : Tbl Prod := []
  /-- Vector registers written in this step (R57). -/
  wrote : List Nat := []
  s : Tbl W64 := []
  p : Tbl Mask := []
  slots : Tbl Slot := []
  csr : Csrs := {}
  seq : Nat := 0
  wake : BitVec 16 := 0
  cap : CapLog := {}
  handler : Option Nat := none
  /-- The lanes of the sub-groups that the handler's entry froze (R268). -/
  frozen : Mask := 0
  /-- Handler entries not yet returned from, the latest first (R270). -/
  entries : List HEntry := []
  faults : List Fault1 := []
  memues : List Memue := []
  engLost : Option Nat := none
  /-- Scalars whose LDS, or returning UNI ATOM, has not landed (R400): scalar and access. -/
  sbusy : List (Nat × Nat) := []
  hang : Hang := .no
  pre : Pre := .no
  saving : Option Saving := none
  sleep : Tbl Nat := []
  woken : List Nat := []
  /-- Sub-groups whose next issue ignores WATCH hits (R268, R270). -/
  wskipNow : List Nat := []
  /-- Sequences of completed passes that have not retired (R216). -/
  mpDone : List Nat := []
deriving DecidableEq, Repr

/-- A team (R19): its scratchpad, queue table, reference list and TSF. `spSize` is in bytes. -/
structure Team where
  lid : Nat := 0
  part : Nat := 0
  index : Nat := 0
  core : Nat := 0
  member : Nat := 0
  spread : Nat := 0
  tsf : BitVec 5 := 0
  spBase : Nat := 0
  spSize : Nat := 0
  sp : Mem := []
  queues : List Nat := []
  pins : List (Nat × Nat) := []
  holds : List (Nat × Nat × Nat) := []
  ended : Bool := false
  broken : Bool := false
  gids : List Nat := []
  saved : Bool := false
  reclaimed : Bool := false
  /-- Slots of its killed groups, released last of all (R280). -/
  slots : List Nat := []
  /-- Offsets in its allocation that instructions have named as queue headers and as barriers (R233). -/
  qobjs : List Nat := []
  bobjs : List Nat := []
deriving DecidableEq, Repr

/-- The fields of a launch record (R243), W and sizes as numbers. -/
structure LaunchRec where
  entry : W64 := 0
  passVa : W64 := 0
  teams : Nat := 1
  groups : Nat := 1
  lanes : Nat := 256
  w : Nat := 1
  k : Nat := 0
  spread : Nat := 1
  scratch : Nat := 0
  lcores : Nat := 0
  tview : W32 := 0
  aview : W32 := 0
  flags : W32 := 0
  policy : W32 := 0
  args : W64 := 0
  done : W64 := 0
  prio : W32 := 0
  id : Nat := 0
  waits : List Nat := []
  handler : W64 := 0
  budget : Nat := 0
  split : W32 := 0
  ranges : W64 := 0
  nranges : Nat := 0
  passLen : Nat := 0
deriving DecidableEq, Repr

/-- A write range of a team (R255). -/
structure Range where
  team : Nat
  va : Nat
  len : Nat
  shared : Bool
deriving DecidableEq, Repr

/-- A consumed launch (R244 to R248). `toStart`: teams not resident, with RST; `lcore` counts L as resolved. -/
structure Launch where
  part : Nat := 0
  queue : Nat := 0
  order : Nat := 0
  r : LaunchRec := {}
  ranges : List Range := []
  priv : Bool := false
  toStart : List (Nat × Bool) := []
  live : List Nat := []
  killed : Option Nat := none
  since : Option Nat := none
  vacating : List Nat := []
  /-- The teams that the request vacates (R272). -/
  leaving : List Nat := []
  /-- Wait-for IDs not yet satisfied, the latest T_w of those satisfied, and that one of them has failed (R247). -/
  waits : List Nat := []
  ready : Nat := 0
  refused : Bool := false
  maxWh : Nat := 0
  /-- Its entry in the partition's active-launch table, once a team has been bound (R251). -/
  lref : Option (BitVec 8) := none
deriving DecidableEq, Repr

/-- The one place at which an access is performed (R207). -/
inductive Place where
  /-- The home of private memory: a device physical address; ROOT and read-only pages are told apart (R172, R175). -/
  | pa (a : Nat) (root readOnly : Bool)
  /-- A domain address (R164). -/
  | dom (a : Nat)
  /-- A byte of a team's scratchpad. -/
  | sp (tid off : Nat)
  /-- A byte of the issuing partition's host window. -/
  | host (a : Nat)
deriving DecidableEq, Repr

/-- The twelve ATOM operations with CAS (R237). -/
inductive AtomOp where
  | add | fadd | smax | smin | nmax | nmin | fmax | fmin | and | or | xor | xchg | cas
deriving DecidableEq, Repr

/-- Kind of an issued access. -/
inductive AccKind where
  | load
  | late (slot : Nat) (epoch : BitVec 32)
  | store
  | atom (op : AtomOp) (ret : Bool)
deriving DecidableEq, Repr

/-- Progress of one element: issued, applied at its place with T_w and old value, or done; failed marks MEMUE. -/
inductive ElemSt where | issued | applied (tw : Nat) (old : W32) | done | failed
deriving DecidableEq, Repr

/-- One element of an access: a lane's word or a part of a row (R211). `off`: where its bytes go in the destination. -/
structure Elem where
  lane : Nat
  va : W64
  place : Place
  size : Nat
  data : Nat := 0
  cmp : W32 := 0
  off : Nat := 0
  st : ElemSt := .issued
  retried : Bool := false
deriving DecidableEq, Repr

/-- An access in flight (R207 to R214). -/
structure Access where
  gid : Nat
  tid : Nat
  seq : Nat
  kind : AccKind
  dest : Dest
  tag : Tag
  signed : Bool := false
  pol : W32
  core : Nat
  elems : List Elem
  /-- The lanes whose sub-group issued it (R212). -/
  mask : Mask := 0
  flags : BitVec 5 := 0
  tw : Nat := 0
  /-- A home has refused an element (R295). -/
  denied : Bool := false
deriving DecidableEq, Repr

/-- Progress of a copy. -/
inductive CpySt where | running | parked (cause : Nat) (tval : W64) (reported : Bool) | written | done
deriving DecidableEq, Repr

/-- Kind of one side of a copy (R178). -/
inductive Side where | virt | spad | host
deriving DecidableEq, Repr

/-- A copy (R178 to R182), or the copy-out of a COUT (R349): then `src` is unused and `obj` names the object. -/
structure Copy where
  gid : Nat
  tid : Nat
  part : Nat
  core : Nat
  engine : Nat
  seq : Nat
  sk : Side
  dk : Side
  src : Nat
  dst : Nat
  left : Nat
  bar : Option Nat := none
  gate : Option Nat := none
  since : Nat
  promise : Nat
  pol : W32
  tw : Nat := 0
  obj : Option (Nat × Nat) := none
  pos : Nat := 0
  /-- Bytes of the last chunk that its barrier has yet to count (R232). -/
  owed : Nat := 0
  st : CpySt := .running
  /-- The park record came from a save (R276, cause 0x18). -/
  saved : Bool := false
deriving DecidableEq, Repr

/-- A RED in flight (R183, R184). -/
structure Red where
  gid : Nat
  tid : Nat
  part : Nat
  seq : Nat
  op : Nat
  srcs : List Nat
  count : Nat
  dst : Nat
  flag : Option (Nat × Nat)
  pol : W32
  /-- The places that step 1 found (R184): of each source, of the destination, and of the flag word. -/
  places : List (List (Nat × Place × Nat)) := []
  dplaces : List (Nat × Place × Nat) := []
  fplaces : List (Nat × Place × Nat) := []
  checked : Bool := false
  stripes : List Nat := []
  lost : List Nat := []
  flags : BitVec 5 := 0
  tw : Nat := 0
  flagged : Bool := false
  done : Bool := false
  fault : Option Fault1 := none
deriving DecidableEq, Repr

/-- Asynchronous thicket operations (R198). -/
inductive ThKind where | cnam | cloa | ctwg | cget | cout
deriving DecidableEq, Repr

/-- A thicket operation in flight: `next` is the next item. A COUT's bytes are moved by its `Copy`. -/
structure ThOp where
  gid : Nat
  tid : Nat
  part : Nat
  seq : Nat
  kind : ThKind
  ns : Nat
  src : Nat
  dst : Nat
  n : Nat
  next : Nat := 0
  hits : Nat := 0
  done : Bool := false
  /-- The thicket unit that has it: its core's cluster's (R8, R9). -/
  unit : Nat := 0
deriving DecidableEq, Repr

/-- How a layer operation reaches its group: a symbol slot, direct mode with the lanes' coefficients, or an LPRB; or a
probe of an epoch, which belongs to no group (R128). -/
inductive ArrDest where
  | slot (k : Nat) (epoch : BitVec 32)
  | direct (vd : Nat) (a0 b0 : List W32)
  | probe (vd : Nat)
  | epoch
deriving DecidableEq, Repr

/-- The tile map entry of R103. -/
structure Tile where
  die : Nat
  plot : Nat
  tile : Nat
deriving DecidableEq, Repr

/-- A LAYR, LAYRT or LPRB in flight with its snapshot (R111, R113). `codes`: sums so far by tile position. -/
structure ArrOp where
  gid : Nat
  tid : Nat
  part : Nat
  lid : Nat
  seq : Nat
  trans : Bool
  dest : ArrDest
  bind : Nat
  gen : BitVec 32
  start : Nat
  j : Nat
  k : Int
  exps : List Nat
  tiles : List Tile
  root : Nat
  din : Nat
  dout : Nat
  input : List Int
  invalid : Bool
  shadow : Bool
  attempt : Nat := 1
  /-- Dies to which this attempt has been sent, with the order of its arrival there (R119, R120). -/
  sent : Tbl Nat := []
  deadline : Nat := 0
  /-- A packet of this attempt has been resent after a CRC failure (R271). -/
  crc : Bool := false
  codes : Tbl (List Int) := []
  sums : Option (List Int) := none
  failed : Bool := false
  /-- The capture record to write: INDEX, address and policy (R117); then the T_w of its stores. -/
  record : Option (Nat × W64 × W32) := none
  tw : Nat := 0
  cancelled : Bool := false
  /-- Its arrival has landed or been dropped; it has yet to retire (R216). -/
  landed : Bool := false
deriving DecidableEq, Repr

/-- A posted pass (R152). -/
structure Pass where
  gid : Nat
  tid : Nat
  entry : Nat
  prog : Nat
  args : List W64
  tview : BitVec 16
  aview : BitVec 16
  post : Nat
  gate : Option Nat
  seq : Nat
  /-- The posting group's identity, for its special codes and its view limits. -/
  ident : Ident := {}
deriving DecidableEq, Repr

/-- Destination of a drain (R158). -/
inductive DrainTo where
  | acc (start : Nat)
  | sp (tid off : Nat)
  | mem (va : Nat) (places : List (Nat × Place))
deriving DecidableEq, Repr

/-- A drain that has read its accumulator (R159): not landed, or landed with a T_w that its barrier waits for (R232). -/
structure Drain where
  id : Nat
  dest : DrainTo
  data : List Byte
  add : Bool
  bar : Option Nat
  landed : Option Nat := none
  /-- Flags of an add-on-store, which reach TSF when the drain completes (R159). -/
  flags : BitVec 5 := 0
deriving DecidableEq, Repr

/-- The pass a beam core runs (R150). -/
structure Run where
  pass : Pass
  pc : W64
  s : Tbl W64 := []
  p : BitVec 8 := 1
  stack : List W64 := []
  latch : Option (Nat × List Byte) := none
  start : Nat
  ended : Bool := false
  drains : List Drain := []
  tw : Nat := 0
deriving DecidableEq, Repr

/-- An accumulator with its sticky flag word (R146, R99). -/
structure Acc where
  data : Mem := []
  flags : BitVec 5 := 0
deriving DecidableEq, Repr

/-- A reservation entry (R146, R147). -/
structure Resv where
  tid : Nat
  lid : Nat
  prio : Nat
  nacc : Nat
  accs : Tbl Acc := []
deriving DecidableEq, Repr

/-- A B buffer (R146, R157); `owner` is the team whose reservation loaded it. -/
structure BBuf where
  owner : Option Nat := none
  data : Mem := []
deriving DecidableEq, Repr

/-- A matrix engine and its beam core (R146). -/
structure Engine where
  resvs : Tbl Resv := []
  bufs : Tbl BBuf := []
  queue : List Pass := []
  images : List (Nat × Nat × Mem) := []
  run : Option Run := none
  /-- Passes whose programs have ended and whose drains have yet to complete, while the beam core is free (R153, R154). -/
  ending : List Run := []
  idleSince : Nat := 0
deriving DecidableEq, Repr

/-- A coalescer record (R265). -/
structure CoRec where
  cause : Nat
  stage2 : Bool
  write : Bool
  fetch : Bool
  engine : Bool
  count : Nat
  page : Nat
  slots : List Nat
  pc : W64
  tick : Nat
  /-- Launches whose engine accesses wait under a stage-2 record (R262); for the management core's own, partitions. -/
  lids : List Nat := []
deriving DecidableEq, Repr

/-- A bind record of a slot table (R251), with the group resident in the slot and the window size of its launch.
`lref`: an entry of the partition's active-launch table. States: 0 FREE, 1 RUNNING, 2 STAGED. -/
structure Bind where
  team : Nat := 0
  lref : BitVec 8 := 0
  group : Nat := 0
  wbase : Nat := 0
  spbase : Nat := 0
  rst : Bool := false
  state : Nat := 0
  gid : Nat := 0
  w : Nat := 0
deriving DecidableEq, Repr

/-- A hold-latch entry (R56, R57): group, sub-group, vector register, further instructions served. -/
structure LatchE where
  gid : Nat
  sub : Nat
  reg : Nat
  left : Nat
deriving DecidableEq, Repr

/-- A core (R42, R26, R57, R234, R251, R265). -/
structure Core where
  bnd0 : BitVec 8 := 0x40
  bnd1 : BitVec 8 := 0x18
  bnd2 : BitVec 8 := 0x08
  binds : Tbl Bind := []
  rodPos : Tbl Nat := []
  latch : Tbl (List LatchE) := []
  route : Tbl (BitVec 16) := []
  recs : Tbl CoRec := []
  /-- Reports of imprecise faults that found every record OPEN (R266). -/
  owed : List CoRec := []
  fused : Bool := false
  /-- The tick at which each event line last fired (R235). -/
  fired : Tbl Nat := []
deriving DecidableEq, Repr

/-- An L1 copy or replica of a line (R171, R175): lease end and the bytes granted; its eviction class (R170: 0 STREAM,
1 NORMAL, 2 KEEP), and the add-on-stores to its tile since the grant (R160). -/
structure LineCopy where
  core : Nat
  part : Nat
  line : Nat
  until_ : Nat
  bytes : List Byte
  replica : Bool
  lid : Nat
  cls : Nat := 1
  olds : Nat := 0
deriving DecidableEq, Repr

/-- A TLB entry (R263), shared by every core: partition, page base and size, intermediate base, final base (device
physical, or domain when remote), the W and X bits of both stages, ROOT and NS. -/
structure TlbE where
  part : Nat
  va : Nat
  size : Nat
  ia : Nat
  final : Nat
  remote : Bool
  w1 : Bool
  w2 : Bool
  x1 : Bool
  x2 : Bool
  root : Bool
  ns : Nat
deriving DecidableEq, Repr

/-- A binding-table entry (R102). States: 0 FREE, 1 LOADING, 2 PUBLISHED, 3 RETIRING. -/
structure BindE where
  state : Nat := 0
  j : Nat := 0
  gen : BitVec 32 := 0
  root : Nat := 0
  din : Nat := 0
  dout : Nat := 0
  grant : BitVec 32 := 0
  cgen : BitVec 32 := 0
  fwd : Nat := 0
  tra : Nat := 0
  colE : Nat := 0
  rowE : Nat := 0
  map : Nat := 0
  period : Nat := 0
  dies : BitVec 16 := 0
deriving DecidableEq, Repr

/-- A Topiary setting (R126). -/
structure TopSet where
  on : Bool := true
  nprb : Nat := 8
deriving DecidableEq, Repr

/-- A calibration snapshot (R132): generation, base, n, gains and offsets, and the ideals y of each column and row. -/
structure Snap where
  bind : Nat
  gen : BitVec 32
  cgen : BitVec 32
  base : BitVec 32
  n : Nat
  fwd : List (W32 × W32)
  tra : List (W32 × W32)
  yF : List (List W32)
  yT : List (List W32)
deriving DecidableEq, Repr

/-- A binding record in a die's non-volatile area (R15). -/
structure NvRec where
  bind : Nat
  entry : BindE
  tiles : List Tile
  colE : List Nat
  rowE : List Nat
  committed : Bool
  retired : Bool
deriving DecidableEq, Repr

/-- A journal record (R136). -/
structure JRec where
  seq : Nat
  tile : Nat
  row : Nat
  state : Nat
  leaf0 : Nat
  leaf1 : Nat
  /-- Byte 15 of the slot. -/
  pad : Nat := 0
deriving DecidableEq, Repr

/-- A tile of a die (R100, R138, R141): programmed rows as weights, committed rows. -/
structure TileSt where
  wear : Nat := 0
  state : Nat := 0
  rows : Tbl (List Byte) := []
  committed : List Nat := []
deriving DecidableEq, Repr

/-- A tile product that holds a seat of its plot until a tick (R100, R120): operation and tile position, and whether its
attempt still wants it. -/
structure Product where
  plot : Nat
  op : Nat
  tile : Nat
  till : Nat
  live : Bool := true
deriving DecidableEq, Repr

/-- A Laurel die: its non-volatile area (R9, R15, R132, R136) and its link slot tables (R119). -/
structure Die where
  recs : List NvRec := []
  snaps : List Snap := []
  tiles : Tbl TileSt := []
  journal : Tbl (List JRec) := []
  reqOwner : Tbl (BitVec 8) := []
  rspOwner : Tbl (BitVec 8) := []
  /-- The owner each plot served last (R120), and the products in its seats. -/
  seats : Tbl Nat := []
  running : List Product := []
  /-- Slots that probes used in a partition's place: the frame of the last one, and their number in it (R119, R131). -/
  lent : Tbl (Nat × Nat) := []
  /-- Rows that replay reset and that await their leaves: tile position, row and leaf names (R14, R139). -/
  resupply : List (Nat × Nat × Nat × Nat × Nat) := []
deriving DecidableEq, Repr

/-- An epoch in progress (R127 to R130): measured and ideal values by probe. -/
structure Epoch where
  bind : Nat
  gen : BitVec 32
  base : BitVec 32
  n : Nat
  sigF : List (List W32) := []
  sigT : List (List W32) := []
  yF : List (List W32) := []
  yT : List (List W32) := []
deriving DecidableEq, Repr

/-- An Espalier row request (R135). `word`: the completion word's VA and the issuing partition, for an ESPL. Leaf names
of 0 are still to be read from the image (R142). -/
structure RowReq where
  die : Nat
  plot : Nat
  tile : Nat
  row : Nat
  leaf0 : Nat
  leaf1 : Nat
  word : Option (Nat × Nat)
  phase : Nat := 0
  attempt : Nat := 1
  dwell : Nat := 0
  /-- Both leaves have been sent to the die (R135). -/
  sent : Bool := false
  weights : List Byte := []
deriving DecidableEq, Repr

/-- A shard request awaiting delivery (R143): for the image load, or for a RESTORE of a partition. -/
structure Shard where
  name : Nat
  attempt : Nat
  tick : Nat
  part : Option Nat
deriving DecidableEq, Repr

/-- A stored thicket object (R186, R193): key of its pool's namespace, name, kind, content and count. -/
structure Obj where
  space : Nat
  name : Nat
  twig : Bool
  bytes : List Byte
  count : Nat
deriving DecidableEq, Repr

/-- A memory-side watch entry (R279) with its range as it was translated, in pieces of VA, device physical address and
length, and its pending hit: agent, module, VA. -/
structure WatchE where
  va : Nat
  len : Nat
  mask : BitVec 8
  on : Bool
  lid : Nat
  team : Nat
  spans : List (Nat × Nat × Nat) := []
  hit : Option (Nat × Nat × Nat) := none
deriving DecidableEq, Repr

/-- A host window (R301). -/
structure Window where
  base : Nat := 0
  len : Nat := 0
  rd : Bool := false
  wr : Bool := false
deriving DecidableEq, Repr

/-- A write held by STOP (R295): from the host or a remote module. -/
structure Held where
  pa : Nat
  bytes : List Byte
  modno : Option Nat
  va : Nat
deriving DecidableEq, Repr

/-- A saved context (R281), keyed by partition, launch ID, team and group (none: the team's). -/
structure Saved where
  part : Nat
  launch : Nat
  team : Nat
  group : Option Nat
  g : Option Group := none
  t : Option Team := none
  resv : Option Resv := none
  bufs : Tbl BBuf := []
  copies : List Copy := []
  /-- The image that the save wrote, or that CTXR installed (R358). -/
  image : List Byte := []
deriving DecidableEq, Repr

/-- The map of one intermediate page in an export (R296). -/
structure MapE where
  ia : Nat
  big : Bool
  w : Bool
  x : Bool
  remote : Option Nat
deriving DecidableEq, Repr

/-- A binding as an export lists it (R296). -/
structure ExpBind where
  bind : Nat
  root : Nat
  din : Nat
  dout : Nat
  j : Nat
  exps : Nat
deriving DecidableEq, Repr

/-- An export object in a host buffer (R296), as structured data. -/
structure Export where
  addr : Nat := 0
  len : Nat := 0
  part : Nat := 0
  /-- Format version (R297). -/
  version : Nat := 1
  final : Bool := false
  pages : List (Nat × List Byte) := []
  quota : Nat := 0
  pool : Nat := 0
  ctxMib : Nat := 0
  share : Nat := 0
  ways : Nat := 0
  alloc0 : Bool := false
  salts : List Nat := []
  providerHash : Nat := 0
  root1 : Nat := 0
  maps : List MapE := []
  launches : List Launch := []
  contexts : List Saved := []
  history : List (Nat × Nat × Nat) := []
  ctl : List Nat := []
  /-- The control block of each queue, and its unconsumed records. -/
  queues : List (List Byte) := []
  records : List (List (List Byte)) := []
  binds : List ExpBind := []
  /-- Names with namespace and level, a leaf's being 0 (R462). -/
  names : List (Nat × Nat × Nat) := []
  /-- The ROOT pages that have read as zero since they were mapped so (R192). -/
  roots : List Nat := []
deriving DecidableEq, Repr, Inhabited

/-- A partition (R283, R286, R288) with everything the management core keeps for it. -/
structure Part where
  e : PartEntry := ⟨0, false, [], 0, 0, 0, 0, 0, 0, [], 0, 0, 0, 0, []⟩
  qfault : BitVec 16 := 0
  rounds : Nat := 0
  ready : Bool := false
  split : BitVec 8 × BitVec 8 × BitVec 8 := (0x40, 0x18, 0x08)
  salts : List Nat := []
  windows : Tbl Window := []
  watch : Tbl WatchE := []
  /-- Completed launches: ID, status and the T_w of the completion word (R247, R248). -/
  history : List (Nat × Nat × Nat) := []
  /-- Completion words that wait for firmware at stage 2 (R245): address, word, and what the history
  does: 0 nothing, 1 takes it, 2 takes it and resolves waits on it. -/
  words : List (Nat × W64 × Nat) := []
  /-- A record read at HEAD whose write-range table waits at stage 2, by queue (R242, R245). -/
  taken : Tbl (List Byte) := []
  exportAt : Option (Nat × Nat) := none
  stopping : Bool := false
  /-- The export buffer was too small for the last request (R287, 0x04). -/
  small : Bool := false
  held : List Held := []
  refuse : Bool := false
  lostWords : Nat := 0
  collisions : Nat := 0
  asked : List Nat := []
  restoring : Option Export := none
  fetched : List (Nat × List Byte) := []
  tries : Tbl Nat := []
  vacate : Option Nat := none
  killing : Option Nat := none
deriving DecidableEq, Repr

/-- A registered wait: pop, push or barrier wait of a sub-group at an object's place, with `value` BARW's phase (R229,
R231); or MREL's, until no pass of its team is queued or running (R416). -/
inductive WaitKind where | pop | push | barw | mrel
deriving DecidableEq, Repr

structure Waiter where
  gid : Nat
  sub : Nat
  kind : WaitKind
  tid : Nat
  off : Nat
  va : W64
  value : W64
  dst : Nat
  len : Nat
  /-- Its object has been broken (R233): the instruction traps at its next turn. -/
  broken : Bool := false
deriving DecidableEq, Repr

/-- Module-wide state: the boot window (R12), time, the governor (R11), attestation (R17) and firmware's counters. -/
structure Module where
  stage : Nat := 0
  busy : Bool := false
  errc : BitVec 8 := 0
  dieok : BitVec 16 := 0
  hcmd : BitVec 32 := 0
  haddr : W64 := 0
  hlen : BitVec 32 := 0
  ftime : Nat := 0
  clockStep : Nat := 0
  modno : Nat := 0
  imageHash : Nat := 0
  laurelHash : Nat := 0
  enabled : BitVec 16 := 0
  tested : BitVec 16 := 0
  throttle : Nat := 0
  /-- The tick of the governor's last estimate (R11). -/
  governed : Option Nat := none
  arrayFaults : Tbl Nat := []
  calib : Nat := 0
  memFaults : Nat := 0
  /-- First CRC failures of array packets (R271). -/
  linkFaults : Nat := 0
  journalFaults : Nat := 0
  collisions : Nat := 0
  poolFull : Nat := 0
  lostWords : List (Nat × Nat × Nat × Nat) := []
  droppedMemue : Nat := 0
  droppedFaults : Tbl Nat := []
  refusedBinds : Nat := 0
  noSpare : Nat := 0
  tileFaults : Tbl Nat := []
  providerSalt : Nat := 0
  providerPool : Nat := 0
  shardRing : Nat := 0
  shardHead : Nat := 0
  /-- Failed deliveries of shards (R144, R145). -/
  shardFails : Nat := 0
  /-- Leaf names given up after three deliveries, each with an image root that is incomplete for it, or 0 where no image was
  known (R144). -/
  incomplete : List (Nat × Nat) := []
  left : List Nat := []
  /-- Dies that firmware has removed from every virtual-die table until a later bring-up (R292). -/
  removed : BitVec 16 := 0
  /-- What the environment has in store (the model's own, log 1): port H fails the transfers of command buffers (R12), power
  fails in the midst of a publication (R15), and probe attempts of the coming warm calibration fail (R129). -/
  portFails : Bool := false
  torn : Option (Nat × Nat × List Nat) := none
  probeFails : List (Nat × Bool × Nat × Nat × Nat) := []
  /-- For each die, the FREE tile that firmware names for the next tile that retires there in a plot without a spare
(R142). -/
  named : Tbl Tile := []
  retiredPages : List Nat := []
  /-- Physical pages granted to the host (R300). -/
  granted : List Nat := []
  /-- Pages exported to partitions of remote modules: module, partition, first page, count (R302). -/
  exportsTo : List (Nat × Nat × Nat × Nat) := []
  /-- Domain pages exported to this module's partitions: partition, first page, count (R302). -/
  imports : List (Nat × Nat × Nat) := []
deriving DecidableEq, Repr

/-- Who is issuing in this step: a sub-group of a group, or a beam core. -/
inductive Who where | group (gid sub : Nat) | beam (q : Nat)
deriving DecidableEq, Repr

/-- The issue in progress: who, and the sub-groups still to be tried in this turn, in the order of R35. -/
structure Issue where
  who : Who
  rest : List Nat := []
deriving DecidableEq, Repr

/-- A move of the environment: let time pass, then an event, or an instruction of a beam core. -/
inductive Move where
  | event (dt : Nat) (i : Instr)
  | beam (dt : Nat) (q : Nat)
deriving DecidableEq, Repr

/-- The whole machine. -/
structure State where
  m : Module := {}
  cores : Tbl Core := []
  engines : Tbl Engine := []
  parts : Tbl Part := []
  launches : Tbl Launch := []
  teams : Tbl Team := []
  groups : Tbl Group := []
  accesses : Tbl Access := []
  copies : Tbl Copy := []
  reds : Tbl Red := []
  thops : Tbl ThOp := []
  arrops : Tbl ArrOp := []
  waiters : List Waiter := []
  mem : Mem := []
  hostMem : Mem := []
  domainMem : Mem := []
  /-- Latest lease end recorded for a line at its home (R174). -/
  leases : Tbl Nat := []
  /-- The lease bound of an L2 set (R174), by slice and set. -/
  setBounds : Tbl Nat := []
  /-- Lines of device memory whose reads fail, reread and all (R177). -/
  badLines : List Nat := []
  /-- Lines of the domain whose link fails, resend and all (R271, R302). -/
  badLinks : List Nat := []
  copies1 : List LineCopy := []
  tlb : List TlbE := []
  /-- ROOT pages, by partition and intermediate page, that have read as zero since they were mapped so (R192). -/
  rootPages : List (Nat × Nat) := []
  /-- Instruction bytes a core fetched since its last IFENCE (R221): core and 4-byte unit of device memory. -/
  fetched : List (Nat × Nat × Nat) := []
  binds : Tbl BindE := []
  topset : Tbl TopSet := []
  /-- When a binding's next epoch falls due (R127). -/
  due : Tbl Nat := []
  epochs : List Epoch := []
  dies : Tbl Die := []
  rowReqs : Tbl RowReq := []
  shards : List Shard := []
  objs : List Obj := []
  /-- Freed twigs whose children still lose a reference (R195): space and children. -/
  prunes : List (Nat × List Nat) := []
  /-- Replaced generations with operations in flight, whose tiles are still treated as RETIRING (R329): binding, generation
and the tiles of its map. -/
  oldTiles : List (Nat × BitVec 32 × List Tile) := []
  contexts : List Saved := []
  /-- The model's own record of what saves spelled (log 14): each body that was written, with its context, oldest first. -/
  bodies : List (List Byte × Saved) := []
  exports : List Export := []
  /-- The reverse table (R293): page of LPDDR6 to owner and intermediate page. -/
  reverse : Tbl (Nat × Nat) := []
  agenda : List Move := []
  issue : Option Issue := none
  rotor : Nat := 0
  free : Nat := 0
  nextId : Nat := 1
deriving DecidableEq, Repr

/-- Stops of the model. -/
inductive Fault where
  /-- Raised by exec of an instruction word when no group or beam core is issuing. Safe: `step` never does so, it
  runs a word only for an issuing sub-group or beam core. -/
  | noIssuer
deriving DecidableEq, Repr

/-- Refusals of the model. -/
inductive Refusal where
  /-- Raised by exec for an instruction that has no meaning yet. Safe: the machine stops. -/
  | notModelled (mnemonic : String)
deriving DecidableEq, Repr

/-- The module right after power-up or module reset (R13): stage WAITIMG, every table at the reset the spec gives it,
nothing in memory; spare tiles are SPARE (R141), which the accessor of a tile gives as its default. -/
def State.reset : State := {}

end Sys2Proof.Machine
end

