-- ==== Sys2Proof/Config.lean ====
section
/-!
DEFINITION. What one implementation fixes and the free values: opaque constants without a body. A free value applied to
the state's counter `free` is fresh at each use; nothing can be proved about its value (notes/assumptions).
-/

namespace Sys2Proof.Config

/-- A delivered ADC code (R109): an analogue approximation, clamped by its user to -2047..2047. FREE (DESIGN CHOICE, log 10). -/
opaque adcCode : Nat → Int
/-- The L2 set of a line within its slice (R174). The manual does not say how a slice is indexed. FREE (DESIGN CHOICE, log 8). -/
opaque l2Set : Nat → Nat
/-- The ticks from a domain store's application here to its T_w, T′ + 32 (R219): what the remote home makes of it. FREE
(DESIGN CHOICE, log 49). -/
opaque remoteWait : Nat → Nat
/-- Whether a fetch uses bytes fetched before the last IFENCE (R221). FREE (DESIGN CHOICE, log 11). -/
opaque usesFetched : Nat → Bool
/-- A random salt (R187), 256 bits. FREE (DESIGN CHOICE, log 12). -/
opaque randomSalt : Nat → Nat
/-- What the boot ROM finds in a firmware image (R13): 0 valid, 1 signature invalid, 2 security version below the
minimum, 3 malformed. The manual gives no image format or key. FREE (DESIGN CHOICE, log 13). -/
opaque imageVerdict : List Byte → Nat
/-- Start and length, in the image, of the Laurel controller section (R13, R17). FREE (DESIGN CHOICE, log 13). -/
opaque laurelSection : List Byte → Nat × Nat
/-- The ECDSA P-384 signature r ‖ s of a report (R17), 768 bits: keys and nonce are the device's own. FREE (DESIGN CHOICE, log 13). -/
opaque signature : Nat → List Byte → Nat
/-- SHA-384 of the device identity public key (R17). FREE (DESIGN CHOICE, log 13). -/
opaque identityHash : Nat
/-- The fused minimum security version (R13, R17). FREE (DESIGN CHOICE, log 13). -/
opaque minVersion : BitVec 32
/-- The context that a body spells (R358): the device writes a body in an order of its own, which only CTXR reads.
FREE (DESIGN CHOICE, log 14). -/
opaque contextOf : List Byte → Option Machine.Saved
/-- The body that the device writes for a context (R358, R281). FREE (DESIGN CHOICE, log 14). -/
opaque contextBody : Machine.Saved → List Byte
/-- An export object of another module (R296), which the provider places in a host buffer. FREE (DESIGN CHOICE, log 80). -/
opaque foreignExport : Nat → Machine.Export
/-- The expected tag that a FMTTAG's TVAL names for an index operand, where RAW, I32 and N32 all pass (R267, R313, R407,
R422). FREE (DESIGN CHOICE, log 15). -/
opaque indexExpected : BitVec 4
/-- A byte of the window of a group that has ended, which a pass of it still reads (R370 releases the slot at once; the
manual does not say what the tiles then hold). FREE (DESIGN CHOICE, log 16). -/
opaque staleByte : Nat → Byte

end Sys2Proof.Config
end

