-- ==== Sys2Proof/WellFormed.lean ====
section
/-!
DEFINITION. Which field values an instruction admits at decode, apart from those that depend on the view settings, the
issuing core or the group's privilege: R306 to R313, R315, R316 and the encoding tables of the reference entries.
Every other value traps ILLOP at decode.
-/

namespace Sys2Proof

namespace Opd

def isV : Opd → Bool | .v _ => true | _ => false
def isS : Opd → Bool | .s _ => true | _ => false
def isT : Opd → Bool | .t _ => true | _ => false
def isA : Opd → Bool | .a _ => true | _ => false
/-- LANE, GROUP, TEAM, LCORE, NLANE, SPREAD (R21). -/
def isSpecial : Opd → Bool
  | .lane | .group | .team | .lcore | .nlane | .spread => true
  | _ => false
def isImm (o : Opd) : Bool := o == .imm
def isZero (o : Opd) : Bool := o == .zero
/-- A register source: a vector, tile, accumulator, scalar or special code (R52). -/
def isReg (o : Opd) : Bool := !o.isImm && !o.isZero
/-- A vector register whose number is a multiple of `k`. -/
def isVMul (k : Nat) : Opd → Bool | .v n => n.val % k == 0 | _ => false
/-- A scalar s0 to s`hi`. -/
def isSUpTo (hi : Nat) : Opd → Bool | .s n => n.val ≤ hi | _ => false
/-- The code as an immediate of at most `hi` (R311). -/
def immLe (hi : Nat) (o : Opd) : Bool := o.code.toNat ≤ hi

end Opd

namespace Fields

/-- HOLD names no field, or one of the instruction's sources that holds a register (R56). -/
def holdOk (f : Fields) (sa sb sc : Bool) : Bool :=
  match f.hold with
  | .none => true
  | .a => sa && f.a.isReg
  | .b => sb && f.b.isReg
  | .c => sc && f.c.isReg

/-- A BT bit only for a source that holds a register (R52). -/
def btOk (f : Fields) (sa sb sc : Bool) : Bool :=
  (!f.btA || (sa && f.a.isReg)) && (!f.btB || (sb && f.b.isReg)) && (!f.btC || (sc && f.c.isReg))

def noHoldBt (f : Fields) : Bool := f.hold == .none && !f.btA && !f.btB && !f.btC
def unpred (f : Fields) : Bool := f.pg == 0 && !f.pn
def noRmSat (f : Fields) : Bool := f.rm == .rne && !f.sat
/-- A policy operand: a scalar code, or 0x7F for LPOL (R169). -/
def polOk (f : Fields) : Bool := f.pol.isS || f.pol.isZero

/-- A source of class A: tiles and accumulators never, vectors not under UNI (R48, R308, R326). -/
def srcOk (f : Fields) : Opd → Bool
  | .v _ => !f.uni
  | .t _ | .a _ => false
  | _ => true

/-- A destination of class A (R326): a vector or ZERO, under UNI a scalar or ZERO. -/
def dstOk (f : Fields) : Opd → Bool
  | .v _ => !f.uni
  | .s _ => f.uni
  | .zero => true
  | _ => false

/-- Class A and U lengths and unused fields (R306, R310, R315). `sa`, `sb`, `sc`: the fields that are sources;
`ci`: C holds an immediate. -/
def lenA (f : Fields) (sa sb sc : Bool) (ci : Bool := false) : Bool :=
  let useImm := (sa && f.a.isImm) || (sb && f.b.isImm) || (sc && f.c.isImm)
  (match f.len with
   | .w64 => !useImm && f.imm == 0
   | .w96 => useImm
   | .w128 => false)
  && f.ext == 0 && f.pol.isZero && (sa || f.a.isZero) && (sb || f.b.isZero) && (sc || ci || f.c.isZero)
  && f.holdOk sa sb sc && f.btOk sa sb sc

/-- A class A word over ordinary sources, with what its entry allows of FMT, RM, SAT and RK. -/
def classA (f : Fields) (fmts : List Tag) (sa sb sc : Bool) (rm sat rk : Bool := false) : Bool :=
  f.lenA sa sb sc && fmts.contains f.fmt && (!sa || f.srcOk f.a) && (!sb || f.srcOk f.b) && (!sc || f.srcOk f.c)
  && (rm || f.rm == .rne) && (sat || !f.sat) && (rk || !f.rk) && f.x == 0

/-- Class A with a destination register. -/
def classAD (f : Fields) (fmts : List Tag) (sa sb sc : Bool) (rm sat rk : Bool := false) : Bool :=
  f.classA fmts sa sb sc rm sat rk && f.dstOk f.d

/-- Integer lanes (R386): under UNI only FMT 1 and 2. -/
def intA (f : Fields) (fmts : List Tag) (sa sb sc sat : Bool) : Bool :=
  f.classAD fmts sa sb sc (sat := sat) && (!f.uni || f.fmt == .i32 || f.fmt == .n32)

/-- Floating lanes (R362): under UNI only FMT 3. -/
def floatA (f : Fields) (fmts : List Tag) (sa sb sc rm rk : Bool) : Bool :=
  f.classAD fmts sa sb sc (rm := rm) (rk := rk) && (!f.uni || f.fmt == .f32)

/-- Class U: uniform, unpredicated, FMT 0. -/
def classU (f : Fields) (sa sb : Bool) (ci : Bool := false) : Bool :=
  f.lenA sa sb false ci && f.uni && f.unpred && f.noRmSat && f.fmt == .raw && !f.rk && f.x == 0

/-- The queue, barrier and trellis words (R228). -/
def classQ (f : Fields) : Bool :=
  f.len == .w64 && f.imm == 0 && f.ext == 0 && f.pol.isZero && f.uni && f.unpred && f.noRmSat && f.fmt == .raw
  && !f.rk && f.x == 0 && f.noHoldBt

/-- Class J: 96 bits, no source operand (R310). -/
def classJ (f : Fields) : Bool :=
  f.len == .w96 && f.ext == 0 && f.pol.isZero && f.noRmSat && !f.rk && f.noHoldBt

/-- Class E words that are uniform and unpredicated, with no HOLD or BT. -/
def classE (f : Fields) : Bool :=
  f.len == .w128 && f.uni && f.unpred && f.noRmSat && !f.rk && f.noHoldBt

def eUsual (f : Fields) : Bool := f.classE && f.fmt == .raw

/-- EXT bits [hi:lo] as a number. -/
def extN (f : Fields) (lo n : Nat) : Nat := (f.ext.extractLsb' lo n).toNat
def immN (f : Fields) (lo n : Nat) : Nat := (f.imm.extractLsb' lo n).toNat
/-- X[61], X[62], X[63]. -/
def x61 (f : Fields) : Bool := f.x.getLsbD 0
def x62 (f : Fields) : Bool := f.x.getLsbD 1
def x63 (f : Fields) : Bool := f.x.getLsbD 2

/-- The 7-bit operand code in EXT[6:0] of a memory word (R313). -/
def idxCode (f : Fields) : Nat := f.extN 0 7

/-- The memory operand form (R313): base in A and index in EXT[6:0]; under UNI scalars, LANE or none (R308). -/
def memOk (f : Fields) : Bool :=
  (match f.a with | .v _ => !f.uni | .s _ => true | .zero => true | _ => false)
  && (let k := f.idxCode
      (k < 0x40 && !f.uni) || (0x40 ≤ k && k < 0x60) || k == 0x78 || k == 0x7F)
  && f.polOk

/-- The common memory word (R398), without SIZE, data and destination. -/
def classM (f : Fields) (sb sc : Bool) : Bool :=
  f.len == .w128 && f.memOk && f.noRmSat && f.holdOk true sb sc && f.btOk true sb sc

/-- A data source of a store: scalar, special code, ZERO, or a vector where lanes have one (R398). -/
def dataOk (f : Fields) (o : Opd) : Bool :=
  match o with
  | .v _ => !f.uni
  | .s _ | .zero => true
  | o => o.isSpecial

def anyTag : List Tag := [.raw, .i32, .n32, .f32, .bf16, .f16, .i8, .n8, .bp8, .bpb, .name]

/-- LDV, STV, LDP, STP (R398). -/
def lanesM (f : Fields) (sb : Bool) : Bool :=
  f.classM sb false && f.extN 10 15 == 0 && f.x == 0 && !f.uni && f.c.isZero
/-- LDS, STS (R398). -/
def scalarM (f : Fields) (sb : Bool) : Bool :=
  f.classM sb false && f.extN 12 13 == 0 && f.x == 0 && f.uni && f.unpred && !f.rk && f.c.isZero
  && [Tag.raw, .i32, .n32].contains f.fmt
/-- LDT, STT (R398, R404): `o` is the tile or accumulator. -/
def tileM (f : Fields) (o : Opd) : Bool :=
  f.classM (o == f.b && !f.b.isZero) true && f.extN 10 15 == 0 && f.x == 0 && !f.uni && f.unpred && !f.rk
  && !f.a.isV && (0x40 ≤ f.idxCode && f.idxCode < 0x60 || f.idxCode == 0x7F)
  && (f.c.isS || (f.c.isZero))
  && (match o with
      | .t _ => f.fmt == .bf16 || f.fmt == .f16 || (f.fmt == .bpb && f.c.isZero)
      | .a _ => f.fmt == .f32
      | _ => false)

/-- ATOM (R237, R333), with the FMT values its operation accepts. -/
def atom (f : Fields) (fmts : List Tag) (cas : Bool := false) : Bool :=
  f.classM true cas && f.extN 10 15 == 0 && !f.x62 && !f.x63 && !f.rk && fmts.contains f.fmt && f.dataOk f.b
  && (if cas then f.dataOk f.c else f.c.isZero)
  && (if f.x61 then f.d.isZero else if f.uni then f.d.isS else f.d.isV)

/-- Elements per lane of a format tag (R81). -/
def elems : Tag → Nat
  | .bf16 | .f16 => 2
  | .i8 | .n8 | .bp8 => 4
  | _ => 1

/-- The tag whose code is an immediate C (R359). -/
def tagOfCode (n : Nat) : Option Tag := anyTag[n]?

/-- CVT (R359). -/
def cvt (f : Fields) : Bool :=
  let k := (f.x.extractLsb' 0 2).toNat
  match tagOfCode f.c.code.toNat with
  | none => false
  | some ct =>
    let ok := fun (t : Tag) => t != .raw && t != .bpb && t != .name
    let s := elems ct
    let r := elems f.fmt
    f.lenA true (s < r) false (ci := true) && ok ct && ok f.fmt && f.srcOk f.a && (!(s < r) || f.srcOk f.b) && f.dstOk f.d
    && !f.x63 && !f.rk && (f.fmt != .bp8 || f.rm == .rne)
    && (if s = r then k == 0 else k * min s r < max s r)
    && (!(f.hold == .b || f.btB) || f.b.isV)

/-- An even vector register. -/
def evenV (o : Opd) : Bool := match o with | .v n => n.val % 2 == 0 | _ => false

/-- MOV's three forms (R413). RK = 1 stands on its pair form alone: D and A even vectors, FMT 0 or 3; elsewhere it is a value
that no form defines (R306), though R65 speaks of RK on MOV with other formats. (DEDUCED, log 76) -/
def mov (f : Fields) : Bool :=
  let copy := f.lenA true false false && !f.uni && f.unpred && f.fmt == .raw && !f.rk && f.noRmSat && f.x == 0
  match f.d, f.a with
  | .t _, .t _ => copy
  | .a _, .a _ => copy
  | d, a => f.classAD anyTag true false false (rk := true) && (!f.rk || ((f.fmt == .raw || f.fmt == .f32) && evenV d && evenV a))

/-- LAYR, LAYRT, LPRB, LPRBT (R106, R405). -/
def layer (f : Fields) : Bool :=
  f.len == .w128 && f.ext == 0 && f.pol.isZero && !f.x63 && f.noRmSat && f.noHoldBt && f.c.isZero
  && ((f.b.isImm) || (f.b.isS && f.immN 8 24 == 0)) && f.a.isS && !f.rk && !f.uni && f.unpred

/-- Beam-core words (R408). -/
def beam (f : Fields) : Bool := f.classE && f.imm == 0 && f.c.isZero && f.b.isZero

/-- MDRN's barrier field (R409). -/
def mdrnBar (f : Fields) : Bool :=
  let off := f.extN 7 16
  f.extN 23 2 == 0 && off != 0xFFFF && (f.ext.getLsbD 6 || off == 0) && !f.x63

/-- The thicket words' common fields (R344). -/
def thicket (f : Fields) : Bool := f.eUsual && f.extN 2 23 == 0 && f.imm == 0 && f.polOk
/-- CNAM, CLOA, CGET (R344): C the immediate n, 1 to 64, or a scalar. -/
def thicketN (f : Fields) : Bool :=
  f.thicket && f.pol.isZero && !f.x61 && !f.x62 && f.d.isZero && f.a.isS && f.b.isS
  && (if f.x63 then f.c.isS else 1 ≤ f.c.code.toNat && f.c.code.toNat ≤ 64)

/-- The CSR numbers of R58, and the writable ones among them. -/
def csrs : List Nat := [0, 1, 2, 3, 4, 5, 6, 8, 9, 0xA, 0xB, 0xC, 0xD] ++ [0x10, 0x11, 0x12, 0x13, 0x14, 0x15, 0x16, 0x17, 0x20]
def csrsRw : List Nat := [0, 1, 4, 5, 6, 8, 0xA, 0xC] ++ [0x10, 0x11, 0x12, 0x13, 0x14, 0x15, 0x16, 0x17]

end Fields

open Fields

def i12 : List Tag := [.i32, .n32]
def i1267 : List Tag := [.i32, .n32, .i8, .n8]
def f345 : List Tag := [.f32, .bf16, .f16]
def t0123 : List Tag := [.raw, .i32, .n32, .f32]

def wfIcmp (f : Fields) : Bool :=
  f.lenA true true false && i1267.contains f.fmt && f.srcOk f.a && f.srcOk f.b && f.noRmSat && !f.rk && f.d.immLe 7
  && !f.x63 && (f.fmt == .i8 || f.fmt == .n8 || f.x == 0) && (!f.uni || f.fmt == .i32 || f.fmt == .n32)
def wfFcmp (f : Fields) : Bool :=
  f.lenA true true false && f345.contains f.fmt && f.srcOk f.a && f.srcOk f.b && f.noRmSat && !f.rk && f.d.immLe 7
  && !f.x63 && !f.x62 && (f.fmt != .f32 || f.x == 0) && (!f.uni || f.fmt == .f32)
def wfQuad (f : Fields) : Bool :=
  f.classAD anyTag true true false && !f.uni && f.a.isV && !f.b.isZero
def wfVote (f : Fields) (dOk : Bool) : Bool :=
  f.lenA false false false (ci := true) && !f.uni && f.fmt == .raw && f.noRmSat && !f.rk && f.x == 0 && f.c.immLe 7 && dOk
def wfGred (f : Fields) (scan : Bool) : Bool :=
  f.classA [.i32, .n32, .f32] true false false && !f.uni && (f.d.isV || (f.d.isS && !scan))
def wfWaitc (f : Fields) : Bool := f.classU true false && f.d.isZero && (f.a.isZero || f.a.isS || f.a.isImm)
def wfTlbi (f : Fields) (all : Bool) : Bool :=
  f.eUsual && f.pol.isZero && f.imm == 0 && f.x == 0 && f.c.isZero && f.b.isS && (if all then f.a.isZero else f.a.isS) && f.d.isZero
def wfAbnd (f : Fields) : Bool :=
  f.eUsual && f.ext == 0 && f.pol.isZero && f.immN 16 16 == 0 && f.c.isZero && f.b.isZero && f.d.isS
def wfMma (f : Fields) : Bool :=
  f.beam && f.extN 10 15 == 0 && f.fmt == .raw && f.a.isT && f.d.isZero && !f.x62 && !f.x63 && f.pol.isZero
def wfMdrnTo (f : Fields) : Bool :=
  f.beam && f.mdrnBar && f.a.isS && f.d.isZero && (f.fmt == .f32 || ((f.fmt == .bf16 || f.fmt == .bpb) && !f.x61))
def wfLcap (f : Fields) : Bool := f.eUsual && f.ext == 0 && f.imm == 0 && f.x == 0 && f.c.isZero

/-- The static decode checks of each instruction word; every whole-machine step is well-formed syntax. -/
def Instr.wf : Instr → Bool
  | .nop f | .nopSkip f =>
    f.lenA false false false && !f.uni && f.unpred && f.fmt == .raw && f.noRmSat && !f.rk && f.x == 0 && f.d.isZero
  | .mov f => f.mov
  | .movi f => f.classJ && f.x == 0 && f.a.isZero && f.b.isZero && f.c.isZero && (if f.uni then f.d.isS else f.d.isV)
  | .sel f =>
    f.lenA true true false (ci := true) && f.srcOk f.a && f.srcOk f.b && f.dstOk f.d && f.c.immLe 7 && f.noRmSat && !f.rk
    && f.x == 0
  | .iadd f | .isub f => f.intA i1267 true true false true
  | .imul f => f.intA i12 true true false true
  | .imulh f => f.intA i12 true true false false
  | .imad f => f.intA i12 true true true true
  | .imin f | .imax f => f.intA i12 true true false false
  | .iabs f | .ineg f => f.intA [.i32, .i8] true false false true
  | .icmpEq f | .icmpNe f | .icmpLt f | .icmpLe f | .icmpGt f | .icmpGe f => wfIcmp f
  | .and f | .andn f | .or f | .xor f => f.classAD [.raw, .i32, .n32] true true false
  | .not f => f.classAD [.raw, .i32, .n32] true false false
  | .shl f | .shr f | .sar f => f.classAD i12 true true false
  | .clz f | .popc f => f.classAD i12 true false false
  | .bfx f | .bfi f => f.classAD i12 true true true
  | .fadd f | .fsub f | .fmul f => f.floatA f345 true true false true true
  | .ffma f | .ffms f | .fnma f | .fnms f => f.floatA f345 true true true true true
  | .fmin f | .fmax f => f.floatA f345 true true false false false
  | .fcmpEq f | .fcmpNe f | .fcmpLt f | .fcmpLe f | .fcmpGt f | .fcmpGe f | .fcmpUn f => wfFcmp f
  | .frcp f | .frsq f | .fsqrt f | .fexp2 f | .flog2 f => f.floatA [.f32] true false false true false
  | .fcls f => f.floatA f345 true false false false false
  | .cvt f => f.cvt
  | .pack f =>
    f.classA [.bf16, .f16, .i8, .n8, .bp8] true false false (rm := true) (sat := true) && !f.uni && f.d.isV
    && f.a.isVMul (elems f.fmt) && (f.fmt != .bp8 || f.rm == .rne)
  | .unpk f =>
    f.classA [.bf16, .f16, .i8, .n8, .bp8] true false false && !f.uni && f.a.isV && f.d.isVMul (elems f.fmt)
  | .bpq f =>
    f.lenA true false false && !f.uni && f.unpred && f.noRmSat && !f.rk && f.x == 0 && f.hold == .none && f.d.isT
    && ((f.fmt == .f32 && f.a.isA) || (f.fmt == .bf16 && f.a.isVMul 2))
  | .bpx f =>
    f.lenA true false false && !f.uni && f.unpred && !f.sat && !f.rk && f.x == 0 && f.a.isT
    && ((f.fmt == .f32 && f.d.isA) || ((f.fmt == .bf16 || f.fmt == .f16) && f.d.isVMul 2))
  | .qxch f | .qbcst f => wfQuad f
  | .lshf f => wfQuad f && f.d.isV
  | .voteAll f | .voteAny f => wfVote f (f.d.immLe 7)
  | .voteBallot f => wfVote f (f.d.isSUpTo 28)
  | .gredAdd f | .gredMin f | .gredMax f => wfGred f false
  | .gscanAdd f | .gscanMin f | .gscanMax f => wfGred f true
  | .bra f => f.classJ && f.fmt == .raw && f.immN 0 2 == 0 && f.a.isZero && f.d.isZero
  | .brx f =>
    f.lenA true true false (ci := true) && f.fmt == .raw && f.noRmSat && !f.rk && f.d.isZero && (f.b.isS || f.b.isZero)
    && (match f.a with | .v _ => !f.uni | .s _ => true | .imm => true | _ => false)
    && (f.hold == .none || f.hold == .a)
  | .call f =>
    f.classJ && f.fmt == .raw && f.x == 0 && f.unpred && f.immN 0 2 == 0 && f.a.isZero && f.b.isZero && f.c.isZero
    && (if f.uni then f.d.isS || f.d.isZero else f.d.isVMul 2)
  | .ret f =>
    f.lenA true false false && f.fmt == .raw && f.noRmSat && !f.rk && f.x == 0 && f.d.isZero
    && (if f.uni then f.a.isS || f.a.isZero else f.a.isVMul 2)
  | .exit f => f.lenA false false false && f.fmt == .raw && f.noRmSat && !f.rk && f.x == 0 && f.d.isZero
  | .trap f | .sysc f =>
    f.classJ && f.fmt == .raw && f.x == 0 && f.a.isZero && f.b.isZero && f.c.isZero && f.d.isZero
  | .eret f | .ifence f => f.classU false false && f.d.isZero
  | .csrr f => f.classU false false (ci := true) && f.d.isS && csrs.contains f.c.code.toNat
  | .csrw f =>
    f.classU true false (ci := true) && f.d.isZero && csrsRw.contains f.c.code.toNat && (f.a.isS || f.a.isImm || f.a.isZero)
  | .tick f => f.classU false false && f.d.isS
  | .sleep f | .fwait f => f.classU true false && f.a.isS && f.d.isZero
  | .vdhop f => f.classU true true && f.d.isS && (f.a.isS || f.a.isImm) && (f.b.isS || f.b.isImm)
  | .tlbiVa f => wfTlbi f false && f.ext == 0
  | .tlbiIa f => wfTlbi f false && f.ext == 1
  | .tlbiAll f => wfTlbi f true && f.ext == 2
  | .ctxs f => f.classU true false && f.a.isS && f.d.isZero
  | .ctxr f => f.classU true true && f.a.isS && f.b.isS && f.d.isS
  | .ldv f => f.lanesM false && f.b.isZero && f.d.isV && !(f.fmt == .f32 && f.rk)
  | .ldvLate f => f.lanesM false && f.b.isZero && f.d.isVMul 2 && f.fmt == .f32 && f.rk
  | .stv f => f.lanesM true && f.dataOk f.b && f.d.isZero && !f.rk
  | .lds f => f.scalarM false && f.b.isZero && f.d.isS
  | .sts f => f.scalarM true && f.dataOk f.b && f.d.isZero
  | .ldp f => f.lanesM false && f.b.isZero && f.d.isVMul 2 && !f.rk
  | .stp f => f.lanesM true && f.b.isVMul 2 && f.d.isZero && !f.rk
  | .ldt f => f.tileM f.d && f.b.isZero
  | .stt f => f.tileM f.b && f.d.isZero
  | .pref f =>
    f.classM false false && f.extN 9 16 == 0 && f.x == 0 && f.fmt == .raw && !f.rk && f.b.isZero && f.c.isZero && f.d.isZero
    && f.noHoldBt
  | .atomAdd f => f.atom i12
  | .atomFadd f | .atomFmax f | .atomFmin f => f.atom [.f32]
  | .atomSmax f | .atomSmin f => f.atom [.i32]
  | .atomNmax f | .atomNmin f => f.atom [.n32]
  | .atomAnd f | .atomOr f | .atomXor f | .atomXchg f => f.atom t0123
  | .atomCas f => f.atom t0123 (cas := true)
  | .cpy f =>
    f.eUsual && f.polOk && f.imm == 0 && !f.x61 && !f.x62 && f.a.isS && f.b.isS && f.c.isS && f.d.isS
    && f.extN 0 2 != 3 && f.extN 2 2 != 3 && (f.ext.getLsbD 4 || f.extN 5 16 == 0) && f.extN 5 16 != 0xFFFF
    && (f.x63 || f.extN 21 4 == 0)
  | .red f => f.eUsual && f.ext == 0 && f.polOk && f.imm == 0 && f.x == 0 && f.c.isZero && f.b.isZero && f.a.isS && f.d.isZero
  | .fence f => f.classU false false (ci := true) && f.d.isS
  | .waitcCp f | .waitcRd f | .waitcMp f | .waitcAr f | .waitcTh f => wfWaitc f
  | .bara f => f.classQ && (f.d.isS || f.d.isZero) && f.a.isS && (f.b.isS || f.b.isZero) && f.c.isZero
  | .barw f => f.classQ && f.d.isZero && f.a.isS && f.b.isS && f.c.isZero
  | .bart f => f.classQ && f.d.immLe 7 && f.a.isS && f.b.isS && f.c.isZero
  | .qpush f => f.classQ && f.d.isZero && f.a.isS && f.b.isS && f.c.isZero
  | .qpop f => f.classQ && f.d.isS && f.a.isS && f.b.isZero && f.c.isZero
  | .qtry f => f.classQ && f.d.isS && f.a.isS && f.b.isZero && f.c.immLe 7
  | .evrtRoute f => f.classQ && f.d.isZero && f.a.isZero && f.b.isS && f.c.immLe 15
  | .evrtWake f => f.classQ && f.d.isZero && f.a.isZero && f.b.isS && f.c.isZero
  | .evrtSig f => f.classQ && f.d.isZero && f.a.isZero && f.b.isZero && f.c.immLe 15
  | .evrtRd f => f.classQ && f.d.isS && f.a.isZero && f.b.isZero && f.c.immLe 15
  | .mrsv f =>
    f.eUsual && f.ext == 0 && f.pol.isZero && !f.x61 && f.d.immLe 7 && f.a.isZero && f.immN 16 16 == 0
    && (if f.x63 then f.b.isZero else f.b.isS && f.immN 0 8 == 0)
    && (if f.x62 then f.c.isZero else f.c.isS && f.immN 8 8 == 0)
  | .mrel f =>
    f.eUsual && f.ext == 0 && f.pol.isZero && f.imm == 0 && f.x == 0 && f.a.isZero && f.b.isZero && f.c.isZero && f.d.isZero
  | .mpass f =>
    f.eUsual && f.pol.isZero && f.immN 8 24 == 0 && f.a.isSUpTo 28 && f.b.isZero && f.c.isZero && f.d.isZero && !f.x61
    && !f.x62 && f.extN 4 21 == 0 && (f.x63 || f.extN 0 4 == 0)
  | .mma f | .mmab f => wfMma f
  | .mzro f => f.beam && f.extN 6 19 == 0 && f.fmt == .raw && f.a.isZero && f.d.isZero && f.x == 0 && f.pol.isZero
  | .mldb f =>
    f.beam && f.extN 0 6 == 0 && f.extN 10 15 == 0 && (f.fmt == .bf16 || f.fmt == .bpb) && f.a.isS && f.d.isZero && f.x == 0
    && f.pol.isZero
  | .mdrn f =>
    f.beam && f.extN 6 19 == 0 && f.fmt == .f32 && f.a.isZero && f.d.isA && !f.x61 && !f.x63 && f.pol.isZero
  | .mdrnSp f => wfMdrnTo f && f.pol.isZero
  | .mdrnMem f => wfMdrnTo f && f.polOk
  | .mstat f => f.beam && f.extN 6 19 == 0 && f.fmt == .raw && f.a.isZero && f.d.isS && f.x == 0 && f.pol.isZero
  | .layr f | .layrt f => f.layer && f.fmt == .bf16 && f.d.isVMul 2
  | .lprb f | .lprbt f => f.layer && f.fmt == .i8 && !f.x62 && f.d.isV
  | .lcapOff f => wfLcap f && f.pol.isZero && f.a.isZero && f.b.isZero && f.d.isZero
  | .lcapCap f | .lcapRep f => wfLcap f && f.polOk && f.a.isS && f.b.isS && f.d.isZero
  | .lcapStat f => wfLcap f && f.pol.isZero && f.a.isZero && f.b.isZero && f.d.isS
  | .abndLoad f => wfAbnd f && f.x == 0 && f.immN 8 8 == 0 && f.a.isS
  | .abndPub f => wfAbnd f && f.x == 1 && f.a.isZero
  | .abndRet f => wfAbnd f && f.x == 2 && f.immN 8 8 == 0 && f.a.isZero
  | .espl f => f.eUsual && f.ext == 0 && f.pol.isZero && f.imm == 0 && f.x == 0 && f.c.isZero && f.b.isZero && f.a.isS && f.d.isZero
  | .astat f =>
    f.eUsual && f.ext == 0 && f.pol.isZero && f.immN 8 24 == 0 && f.x == 0 && f.c.isZero && f.b.isZero && f.a.isZero
    && f.d.isSUpTo 30
  | .cnam f | .cloa f | .cget f => f.thicketN
  | .ctwg f => f.thicket && f.pol.isZero && f.x == 0 && f.c.isZero && f.b.isS && f.a.isS && f.d.isZero
  | .cout f => f.thicket && f.x == 0 && f.c.isZero && f.b.isS && f.a.isS && f.d.isZero
  | .cref f => f.thicket && f.pol.isZero && f.x == 0 && f.c.isZero && f.b.isZero && f.a.isSUpTo 29 && f.d.isS
  | .rpin f =>
    f.eUsual && f.ext == 0 && f.pol.isZero && f.imm == 0 && f.x == 0 && f.c.isZero && f.b.isZero && f.a.isS && f.d.isSUpTo 28
  | .runp f =>
    f.thicket && f.pol.isZero && f.x == 0 && f.c.isZero && f.b.isZero && f.a.isSUpTo 29 && f.d.isZero
  | .rswp f =>
    f.eUsual && f.ext == 0 && f.pol.isZero && f.imm == 0 && f.x == 0 && f.c.isSUpTo 29 && f.b.isS && f.a.isS && f.d.isS
  | .rkst f =>
    f.len == .w64 && f.imm == 0 && f.ext == 0 && f.pol.isZero && f.x == 0 && f.noRmSat && f.fmt == .f32 && f.hold == .none
    && !f.btB && !f.btC && f.c.isZero && f.b.isZero && f.a.isVMul 2 && f.d.isZero && !f.rk && !f.uni && f.unpred
  | .rkstAll f =>
    f.len == .w64 && f.imm == 0 && f.ext == 0 && f.pol.isZero && f.x == 0 && f.noRmSat && f.fmt == .f32 && f.noHoldBt
    && f.c.isZero && f.b.isZero && f.a.isZero && f.d.isZero && !f.rk && !f.uni && f.unpred
  | .rkq f =>
    f.len == .w64 && f.imm == 0 && f.ext == 0 && f.pol.isZero && f.x == 0 && f.noRmSat && f.fmt == .raw && f.noHoldBt
    && f.c.immLe 7 && f.b.isZero && f.a.isZero && f.d.isS && !f.rk && f.uni && f.unpred
  | .powerUp | .moduleReset | .powerLoss | .loadfw | .laurelSelfTestDone _ _ | .warmCalibration _ | .attest
  | .governorEstimate _ | .bndWrite _ _ _ _ | .topiarySettingWrite _ _ | .linkSlotTableWrite _ _ _ _
  | .registerWrite _ | .partitionWrite _ _ | .pageRetirement _ _ _ _ | .stage2FaultService _ _ _
  | .groupTurn _ _ | .preemptDelivery _ | .preemptGraceExpiry _ | .forcedSave _ | .contextSaveComplete _
  | .spatialPreemption _ _ _ | .loadDelivery _ _ _ | .atomReturnDelivery _ _ | .storePerformed _ _
  | .leaseExpiry _ | .uncorrectableRead _ | .hostMemAccess _ _ _ | .domainAccessRemote _ _ _ _
  | .scaleupCrcFailure _ _ _ | .moduleLeavesDomain _ | .arrival _ | .directModeDelivery _ | .linkSlotStart _ _
  | .plotTileProduct _ _ | .layrDeadlineExpiry _ | .arrayCrcFailure _ | .plotFault _ | .shadowCompute _
  | .epochDue _ | .probeMeasurement _ _ _ | .topiarySwap _ | .rowProgramStart _ | .programVerify _ _
  | .relaxationDwellEnd _ _ | .shardDelivery _ _ | .shardTimeout _ | .pruning | .thicketItem _
  | .thicketOpRetire _ | .copyChunk _ | .redStripe _ _ | .redFlagStore _ | .redCompletion _
  | .atomAtReducer _ _ | .passGrant _ | .passCompletion _ | .drainLanding _ _ | .engineHang _
  | .launchConsume _ _ | .teamBind _ _ _ | .launchCompletion _ | .trellisTimeRow _ | .kill _
  | .servicePreempt _ _ | .qreset _ | .serviceWatch _ | .flr _ | .exportPart _ | .round _ | .stop _ | .resume _
  | .restore _ _ | .lprbResultLanding _ | .hcmdUnknownCode _ | .serviceUnknownOpcode _ => true

end Sys2Proof
end

