-- ==== Sys2Proof/Decode.lean ====
section
/-!
DEFINITION. The decoder and the encoder of instruction words (R304, R305, R316, R317): total on any bytes, refusing by
name; then the encoder, written from the same tables.
-/

namespace Sys2Proof

/-- Why bytes are no instruction (R304, R317). All but `short` trap ILLOP. -/
inductive Refused where
  /-- LEN = 11. -/
  | badLen
  /-- OPC or FN not in the opcode map. -/
  | unassigned
  /-- A field value that the class or the entry does not admit. -/
  | badField
  /-- Fewer bytes than LEN says. -/
  | short
deriving DecidableEq, Repr

def RM.code : RM → BitVec 2
  | .rne => 0 | .rz => 1 | .ru => 2 | .rd => 3

def RM.ofCode (c : BitVec 2) : RM :=
  match c.toNat with
  | 0 => .rne | 1 => .rz | 2 => .ru | _ => .rd

def Hold.code : Hold → BitVec 2
  | .none => 0 | .a => 1 | .b => 2 | .c => 3

def Hold.ofCode (c : BitVec 2) : Hold :=
  match c.toNat with
  | 0 => .none | 1 => .a | 2 => .b | _ => .c

def Len.code : Len → BitVec 2
  | .w64 => 0 | .w96 => 1 | .w128 => 2

def Len.ofCode (c : BitVec 2) : Option Len :=
  match c.toNat with
  | 0 => some .w64 | 1 => some .w96 | 2 => some .w128 | _ => none

/-- FMT 11 to 15 name no format (R49). -/
def Tag.ofCode (c : BitVec 4) : Option Tag := Fields.anyTag[c.toNat]?

/-- The operand of a 7-bit code (R309). -/
def Opd.ofCode (c : BitVec 7) : Opd :=
  let n := c.toNat
  if h : n < 64 then .v ⟨n, h⟩
  else if h : n - 64 < 32 then .s ⟨n - 64, h⟩
  else if h : n - 96 < 16 then .t ⟨n - 96, h⟩
  else if h : n - 112 < 8 then .a ⟨n - 112, h⟩
  else match n with
    | 0x78 => .lane | 0x79 => .group | 0x7A => .team | 0x7B => .lcore | 0x7C => .nlane | 0x7D => .spread
    | 0x7E => .imm | _ => .zero

/-- OPC and FN of a word's low bits (R305). -/
def opcOf (w : Word128) : Nat := (w.extractLsb' 2 8).toNat
def fnOf (w : Word128) : Nat := (w.extractLsb' 10 5).toNat

/-- The fields of a word whose LEN and FMT are codes the spec defines (R305). -/
def unpack (w : Word128) : Option Fields := do
  let len ← Len.ofCode (w.extractLsb' 0 2)
  let fmt ← Tag.ofCode (w.extractLsb' 54 4)
  return {
    ext := if len = .w128 then w.extractLsb' 103 25 else 0
    pol := if len = .w128 then Opd.ofCode (w.extractLsb' 96 7) else .zero
    imm := if len = .w64 then 0 else w.extractLsb' 64 32
    x := w.extractLsb' 61 3
    sat := w.getLsbD 60
    rm := RM.ofCode (w.extractLsb' 58 2)
    fmt := fmt
    hold := Hold.ofCode (w.extractLsb' 52 2)
    btC := w.getLsbD 51
    btB := w.getLsbD 50
    btA := w.getLsbD 49
    c := Opd.ofCode (w.extractLsb' 42 7)
    b := Opd.ofCode (w.extractLsb' 35 7)
    a := Opd.ofCode (w.extractLsb' 28 7)
    d := Opd.ofCode (w.extractLsb' 21 7)
    rk := w.getLsbD 20
    uni := w.getLsbD 19
    pn := w.getLsbD 18
    pg := ⟨(w.extractLsb' 15 3).toNat, by omega⟩
    len := len }

/-- OPC and FN of an instruction word's constructor (R316), with its fields; `none` for a whole-machine step. -/
def Instr.word? : Instr → Option (Nat × Nat × Fields)
  | .nop f => some (0x00, 0, f)
  | .nopSkip f => some (0x00, 1, f)
  | .mov f => some (0x01, 0, f)
  | .movi f => some (0x02, 0, f)
  | .sel f => some (0x03, 0, f)
  | .iadd f => some (0x04, 0, f)
  | .isub f => some (0x04, 1, f)
  | .imul f => some (0x05, 0, f)
  | .imulh f => some (0x05, 1, f)
  | .imad f => some (0x06, 0, f)
  | .imin f => some (0x07, 0, f)
  | .imax f => some (0x07, 1, f)
  | .iabs f => some (0x08, 0, f)
  | .ineg f => some (0x08, 1, f)
  | .icmpEq f => some (0x09, 0, f)
  | .icmpNe f => some (0x09, 1, f)
  | .icmpLt f => some (0x09, 2, f)
  | .icmpLe f => some (0x09, 3, f)
  | .icmpGt f => some (0x09, 4, f)
  | .icmpGe f => some (0x09, 5, f)
  | .and f => some (0x0A, 0, f)
  | .andn f => some (0x0A, 1, f)
  | .or f => some (0x0A, 2, f)
  | .xor f => some (0x0A, 3, f)
  | .not f => some (0x0A, 4, f)
  | .shl f => some (0x0B, 0, f)
  | .shr f => some (0x0B, 1, f)
  | .sar f => some (0x0B, 2, f)
  | .clz f => some (0x0C, 0, f)
  | .popc f => some (0x0C, 1, f)
  | .bfx f => some (0x0D, 0, f)
  | .bfi f => some (0x0E, 0, f)
  | .fadd f => some (0x20, 0, f)
  | .fsub f => some (0x20, 1, f)
  | .fmul f => some (0x20, 2, f)
  | .ffma f => some (0x21, 0, f)
  | .ffms f => some (0x21, 1, f)
  | .fnma f => some (0x21, 2, f)
  | .fnms f => some (0x21, 3, f)
  | .fmin f => some (0x22, 0, f)
  | .fmax f => some (0x22, 1, f)
  | .fcmpEq f => some (0x23, 0, f)
  | .fcmpNe f => some (0x23, 1, f)
  | .fcmpLt f => some (0x23, 2, f)
  | .fcmpLe f => some (0x23, 3, f)
  | .fcmpGt f => some (0x23, 4, f)
  | .fcmpGe f => some (0x23, 5, f)
  | .fcmpUn f => some (0x23, 6, f)
  | .frcp f => some (0x24, 0, f)
  | .frsq f => some (0x24, 1, f)
  | .fsqrt f => some (0x24, 2, f)
  | .fexp2 f => some (0x25, 0, f)
  | .flog2 f => some (0x25, 1, f)
  | .fcls f => some (0x26, 0, f)
  | .cvt f => some (0x40, 0, f)
  | .pack f => some (0x41, 0, f)
  | .unpk f => some (0x41, 1, f)
  | .bpq f => some (0x42, 0, f)
  | .bpx f => some (0x43, 0, f)
  | .qxch f => some (0x50, 0, f)
  | .qbcst f => some (0x51, 0, f)
  | .lshf f => some (0x52, 0, f)
  | .voteAll f => some (0x53, 0, f)
  | .voteAny f => some (0x53, 1, f)
  | .voteBallot f => some (0x53, 2, f)
  | .gredAdd f => some (0x54, 0, f)
  | .gredMin f => some (0x54, 1, f)
  | .gredMax f => some (0x54, 2, f)
  | .gscanAdd f => some (0x54, 4, f)
  | .gscanMin f => some (0x54, 5, f)
  | .gscanMax f => some (0x54, 6, f)
  | .bra f => some (0x60, 0, f)
  | .brx f => some (0x61, 0, f)
  | .call f => some (0x62, 0, f)
  | .ret f => some (0x63, 0, f)
  | .exit f => some (0x64, 0, f)
  | .trap f => some (0x65, 0, f)
  | .sysc f => some (0x67, 0, f)
  | .eret f => some (0x66, 0, f)
  | .csrr f => some (0x68, 0, f)
  | .csrw f => some (0x68, 1, f)
  | .tick f => some (0x69, 0, f)
  | .sleep f => some (0x6A, 0, f)
  | .vdhop f => some (0x6B, 0, f)
  | .tlbiVa f => some (0x6C, 0, f)
  | .tlbiIa f => some (0x6C, 0, f)
  | .tlbiAll f => some (0x6C, 0, f)
  | .ctxs f => some (0x6D, 0, f)
  | .ctxr f => some (0x6D, 1, f)
  | .ldv f => some (0x80, 0, f)
  | .ldvLate f => some (0x80, 0, f)
  | .stv f => some (0x81, 0, f)
  | .lds f => some (0x82, 0, f)
  | .sts f => some (0x83, 0, f)
  | .ldp f => some (0x84, 0, f)
  | .stp f => some (0x85, 0, f)
  | .ldt f => some (0x86, 0, f)
  | .stt f => some (0x87, 0, f)
  | .pref f => some (0x88, 0, f)
  | .atomAdd f => some (0x89, 0, f)
  | .atomFadd f => some (0x89, 1, f)
  | .atomSmax f => some (0x89, 2, f)
  | .atomSmin f => some (0x89, 3, f)
  | .atomNmax f => some (0x89, 4, f)
  | .atomNmin f => some (0x89, 5, f)
  | .atomFmax f => some (0x89, 6, f)
  | .atomFmin f => some (0x89, 7, f)
  | .atomAnd f => some (0x89, 8, f)
  | .atomOr f => some (0x89, 9, f)
  | .atomXor f => some (0x89, 10, f)
  | .atomXchg f => some (0x89, 11, f)
  | .atomCas f => some (0x89, 12, f)
  | .cpy f => some (0x8A, 0, f)
  | .red f => some (0x8B, 0, f)
  | .fence f => some (0xA0, 0, f)
  | .fwait f => some (0xA1, 0, f)
  | .ifence f => some (0xA2, 0, f)
  | .waitcCp f => some (0xA3, 0, f)
  | .waitcRd f => some (0xA3, 1, f)
  | .waitcMp f => some (0xA3, 2, f)
  | .waitcAr f => some (0xA3, 3, f)
  | .waitcTh f => some (0xA3, 4, f)
  | .bara f => some (0xA4, 0, f)
  | .barw f => some (0xA4, 1, f)
  | .bart f => some (0xA4, 2, f)
  | .qpush f => some (0xA5, 0, f)
  | .qpop f => some (0xA5, 1, f)
  | .qtry f => some (0xA5, 2, f)
  | .evrtRoute f => some (0xA6, 0, f)
  | .evrtWake f => some (0xA6, 1, f)
  | .evrtSig f => some (0xA6, 2, f)
  | .evrtRd f => some (0xA6, 3, f)
  | .mrsv f => some (0xB0, 0, f)
  | .mrel f => some (0xB0, 1, f)
  | .mpass f => some (0xB1, 0, f)
  | .mma f => some (0xB2, 0, f)
  | .mmab f => some (0xB3, 0, f)
  | .mzro f => some (0xB4, 0, f)
  | .mldb f => some (0xB5, 0, f)
  | .mdrn f => some (0xB6, 0, f)
  | .mdrnSp f => some (0xB6, 1, f)
  | .mdrnMem f => some (0xB6, 2, f)
  | .mstat f => some (0xB7, 0, f)
  | .layr f => some (0xC0, 0, f)
  | .layrt f => some (0xC0, 1, f)
  | .lcapOff f => some (0xC1, 0, f)
  | .lcapCap f => some (0xC1, 1, f)
  | .lcapRep f => some (0xC1, 2, f)
  | .lcapStat f => some (0xC1, 3, f)
  | .lprb f => some (0xC2, 0, f)
  | .lprbt f => some (0xC2, 1, f)
  | .abndLoad f => some (0xC3, 0, f)
  | .abndPub f => some (0xC3, 0, f)
  | .abndRet f => some (0xC3, 0, f)
  | .espl f => some (0xC4, 0, f)
  | .astat f => some (0xC5, 0, f)
  | .cnam f => some (0xD0, 0, f)
  | .cloa f => some (0xD1, 0, f)
  | .ctwg f => some (0xD2, 0, f)
  | .cget f => some (0xD3, 0, f)
  | .cout f => some (0xD6, 0, f)
  | .cref f => some (0xD7, 0, f)
  | .rpin f => some (0xD4, 0, f)
  | .runp f => some (0xD4, 1, f)
  | .rswp f => some (0xD5, 0, f)
  | .rkst f => some (0xE0, 0, f)
  | .rkstAll f => some (0xE0, 1, f)
  | .rkq f => some (0xE1, 0, f)
  | .powerUp => none
  | .moduleReset => none
  | .powerLoss => none
  | .loadfw => none
  | .laurelSelfTestDone _ _ => none
  | .warmCalibration _ => none
  | .attest => none
  | .governorEstimate _ => none
  | .bndWrite _ _ _ _ => none
  | .topiarySettingWrite _ _ => none
  | .linkSlotTableWrite _ _ _ _ => none
  | .registerWrite _ => none
  | .partitionWrite _ _ => none
  | .pageRetirement _ _ _ _ => none
  | .stage2FaultService _ _ _ => none
  | .groupTurn _ _ => none
  | .preemptDelivery _ => none
  | .preemptGraceExpiry _ => none
  | .forcedSave _ => none
  | .contextSaveComplete _ => none
  | .spatialPreemption _ _ _ => none
  | .loadDelivery _ _ _ => none
  | .atomReturnDelivery _ _ => none
  | .storePerformed _ _ => none
  | .leaseExpiry _ => none
  | .uncorrectableRead _ => none
  | .hostMemAccess _ _ _ => none
  | .domainAccessRemote _ _ _ _ => none
  | .scaleupCrcFailure _ _ _ => none
  | .moduleLeavesDomain _ => none
  | .arrival _ => none
  | .directModeDelivery _ => none
  | .linkSlotStart _ _ => none
  | .plotTileProduct _ _ => none
  | .layrDeadlineExpiry _ => none
  | .arrayCrcFailure _ => none
  | .plotFault _ => none
  | .shadowCompute _ => none
  | .epochDue _ => none
  | .probeMeasurement _ _ _ => none
  | .topiarySwap _ => none
  | .rowProgramStart _ => none
  | .programVerify _ _ => none
  | .relaxationDwellEnd _ _ => none
  | .shardDelivery _ _ => none
  | .shardTimeout _ => none
  | .pruning => none
  | .thicketItem _ => none
  | .thicketOpRetire _ => none
  | .copyChunk _ => none
  | .redStripe _ _ => none
  | .redFlagStore _ => none
  | .redCompletion _ => none
  | .atomAtReducer _ _ => none
  | .passGrant _ => none
  | .passCompletion _ => none
  | .drainLanding _ _ => none
  | .engineHang _ => none
  | .launchConsume _ _ => none
  | .teamBind _ _ _ => none
  | .launchCompletion _ => none
  | .trellisTimeRow _ => none
  | .kill _ => none
  | .servicePreempt _ _ => none
  | .qreset _ => none
  | .serviceWatch _ => none
  | .flr _ => none
  | .exportPart _ => none
  | .round _ => none
  | .stop _ => none
  | .resume _ => none
  | .restore _ _ => none
  | .lprbResultLanding _ => none
  | .hcmdUnknownCode _ => none
  | .serviceUnknownOpcode _ => none

/-- The constructor that the opcode map gives an OPC and FN (R316); ABND, TLBI and the late LDV are told apart by
X, EXT and FMT with RK (R328, R439, R401). `none`: not in the map (R317). -/
def Instr.ofWord (opc fn : Nat) (f : Fields) : Option Instr :=
  match opc, fn with
  | 0x00, 0 => some (.nop f)
  | 0x00, 1 => some (.nopSkip f)
  | 0x01, 0 => some (.mov f)
  | 0x02, 0 => some (.movi f)
  | 0x03, 0 => some (.sel f)
  | 0x04, 0 => some (.iadd f)
  | 0x04, 1 => some (.isub f)
  | 0x05, 0 => some (.imul f)
  | 0x05, 1 => some (.imulh f)
  | 0x06, 0 => some (.imad f)
  | 0x07, 0 => some (.imin f)
  | 0x07, 1 => some (.imax f)
  | 0x08, 0 => some (.iabs f)
  | 0x08, 1 => some (.ineg f)
  | 0x09, 0 => some (.icmpEq f)
  | 0x09, 1 => some (.icmpNe f)
  | 0x09, 2 => some (.icmpLt f)
  | 0x09, 3 => some (.icmpLe f)
  | 0x09, 4 => some (.icmpGt f)
  | 0x09, 5 => some (.icmpGe f)
  | 0x0A, 0 => some (.and f)
  | 0x0A, 1 => some (.andn f)
  | 0x0A, 2 => some (.or f)
  | 0x0A, 3 => some (.xor f)
  | 0x0A, 4 => some (.not f)
  | 0x0B, 0 => some (.shl f)
  | 0x0B, 1 => some (.shr f)
  | 0x0B, 2 => some (.sar f)
  | 0x0C, 0 => some (.clz f)
  | 0x0C, 1 => some (.popc f)
  | 0x0D, 0 => some (.bfx f)
  | 0x0E, 0 => some (.bfi f)
  | 0x20, 0 => some (.fadd f)
  | 0x20, 1 => some (.fsub f)
  | 0x20, 2 => some (.fmul f)
  | 0x21, 0 => some (.ffma f)
  | 0x21, 1 => some (.ffms f)
  | 0x21, 2 => some (.fnma f)
  | 0x21, 3 => some (.fnms f)
  | 0x22, 0 => some (.fmin f)
  | 0x22, 1 => some (.fmax f)
  | 0x23, 0 => some (.fcmpEq f)
  | 0x23, 1 => some (.fcmpNe f)
  | 0x23, 2 => some (.fcmpLt f)
  | 0x23, 3 => some (.fcmpLe f)
  | 0x23, 4 => some (.fcmpGt f)
  | 0x23, 5 => some (.fcmpGe f)
  | 0x23, 6 => some (.fcmpUn f)
  | 0x24, 0 => some (.frcp f)
  | 0x24, 1 => some (.frsq f)
  | 0x24, 2 => some (.fsqrt f)
  | 0x25, 0 => some (.fexp2 f)
  | 0x25, 1 => some (.flog2 f)
  | 0x26, 0 => some (.fcls f)
  | 0x40, 0 => some (.cvt f)
  | 0x41, 0 => some (.pack f)
  | 0x41, 1 => some (.unpk f)
  | 0x42, 0 => some (.bpq f)
  | 0x43, 0 => some (.bpx f)
  | 0x50, 0 => some (.qxch f)
  | 0x51, 0 => some (.qbcst f)
  | 0x52, 0 => some (.lshf f)
  | 0x53, 0 => some (.voteAll f)
  | 0x53, 1 => some (.voteAny f)
  | 0x53, 2 => some (.voteBallot f)
  | 0x54, 0 => some (.gredAdd f)
  | 0x54, 1 => some (.gredMin f)
  | 0x54, 2 => some (.gredMax f)
  | 0x54, 4 => some (.gscanAdd f)
  | 0x54, 5 => some (.gscanMin f)
  | 0x54, 6 => some (.gscanMax f)
  | 0x60, 0 => some (.bra f)
  | 0x61, 0 => some (.brx f)
  | 0x62, 0 => some (.call f)
  | 0x63, 0 => some (.ret f)
  | 0x64, 0 => some (.exit f)
  | 0x65, 0 => some (.trap f)
  | 0x67, 0 => some (.sysc f)
  | 0x66, 0 => some (.eret f)
  | 0x68, 0 => some (.csrr f)
  | 0x68, 1 => some (.csrw f)
  | 0x69, 0 => some (.tick f)
  | 0x6A, 0 => some (.sleep f)
  | 0x6B, 0 => some (.vdhop f)
  | 0x6D, 0 => some (.ctxs f)
  | 0x6D, 1 => some (.ctxr f)
  | 0x81, 0 => some (.stv f)
  | 0x82, 0 => some (.lds f)
  | 0x83, 0 => some (.sts f)
  | 0x84, 0 => some (.ldp f)
  | 0x85, 0 => some (.stp f)
  | 0x86, 0 => some (.ldt f)
  | 0x87, 0 => some (.stt f)
  | 0x88, 0 => some (.pref f)
  | 0x89, 0 => some (.atomAdd f)
  | 0x89, 1 => some (.atomFadd f)
  | 0x89, 2 => some (.atomSmax f)
  | 0x89, 3 => some (.atomSmin f)
  | 0x89, 4 => some (.atomNmax f)
  | 0x89, 5 => some (.atomNmin f)
  | 0x89, 6 => some (.atomFmax f)
  | 0x89, 7 => some (.atomFmin f)
  | 0x89, 8 => some (.atomAnd f)
  | 0x89, 9 => some (.atomOr f)
  | 0x89, 10 => some (.atomXor f)
  | 0x89, 11 => some (.atomXchg f)
  | 0x89, 12 => some (.atomCas f)
  | 0x8A, 0 => some (.cpy f)
  | 0x8B, 0 => some (.red f)
  | 0xA0, 0 => some (.fence f)
  | 0xA1, 0 => some (.fwait f)
  | 0xA2, 0 => some (.ifence f)
  | 0xA3, 0 => some (.waitcCp f)
  | 0xA3, 1 => some (.waitcRd f)
  | 0xA3, 2 => some (.waitcMp f)
  | 0xA3, 3 => some (.waitcAr f)
  | 0xA3, 4 => some (.waitcTh f)
  | 0xA4, 0 => some (.bara f)
  | 0xA4, 1 => some (.barw f)
  | 0xA4, 2 => some (.bart f)
  | 0xA5, 0 => some (.qpush f)
  | 0xA5, 1 => some (.qpop f)
  | 0xA5, 2 => some (.qtry f)
  | 0xA6, 0 => some (.evrtRoute f)
  | 0xA6, 1 => some (.evrtWake f)
  | 0xA6, 2 => some (.evrtSig f)
  | 0xA6, 3 => some (.evrtRd f)
  | 0xB0, 0 => some (.mrsv f)
  | 0xB0, 1 => some (.mrel f)
  | 0xB1, 0 => some (.mpass f)
  | 0xB2, 0 => some (.mma f)
  | 0xB3, 0 => some (.mmab f)
  | 0xB4, 0 => some (.mzro f)
  | 0xB5, 0 => some (.mldb f)
  | 0xB6, 0 => some (.mdrn f)
  | 0xB6, 1 => some (.mdrnSp f)
  | 0xB6, 2 => some (.mdrnMem f)
  | 0xB7, 0 => some (.mstat f)
  | 0xC0, 0 => some (.layr f)
  | 0xC0, 1 => some (.layrt f)
  | 0xC1, 0 => some (.lcapOff f)
  | 0xC1, 1 => some (.lcapCap f)
  | 0xC1, 2 => some (.lcapRep f)
  | 0xC1, 3 => some (.lcapStat f)
  | 0xC2, 0 => some (.lprb f)
  | 0xC2, 1 => some (.lprbt f)
  | 0xC4, 0 => some (.espl f)
  | 0xC5, 0 => some (.astat f)
  | 0xD0, 0 => some (.cnam f)
  | 0xD1, 0 => some (.cloa f)
  | 0xD2, 0 => some (.ctwg f)
  | 0xD3, 0 => some (.cget f)
  | 0xD6, 0 => some (.cout f)
  | 0xD7, 0 => some (.cref f)
  | 0xD4, 0 => some (.rpin f)
  | 0xD4, 1 => some (.runp f)
  | 0xD5, 0 => some (.rswp f)
  | 0xE0, 0 => some (.rkst f)
  | 0xE0, 1 => some (.rkstAll f)
  | 0xE1, 0 => some (.rkq f)
  | 0x80, 0 => if f.fmt = .f32 && f.rk then some (.ldvLate f) else some (.ldv f)
  | 0x6C, 0 => if f.ext = 0 then some (.tlbiVa f) else if f.ext = 1 then some (.tlbiIa f)
      else if f.ext = 2 then some (.tlbiAll f) else none
  | 0xC3, 0 => if f.x = 0 then some (.abndLoad f) else if f.x = 1 then some (.abndPub f)
      else if f.x = 2 then some (.abndRet f) else none
  | _, _ => none

/-- Whether the opcode map lists an OPC and FN (R317 step 2). -/
def assigned (opc fn : Nat) : Bool :=
  match opc with
  | 0x00 => fn < 2
  | 0x01 => fn < 1
  | 0x02 => fn < 1
  | 0x03 => fn < 1
  | 0x04 => fn < 2
  | 0x05 => fn < 2
  | 0x06 => fn < 1
  | 0x07 => fn < 2
  | 0x08 => fn < 2
  | 0x09 => fn < 6
  | 0x0A => fn < 5
  | 0x0B => fn < 3
  | 0x0C => fn < 2
  | 0x0D => fn < 1
  | 0x0E => fn < 1
  | 0x20 => fn < 3
  | 0x21 => fn < 4
  | 0x22 => fn < 2
  | 0x23 => fn < 7
  | 0x24 => fn < 3
  | 0x25 => fn < 2
  | 0x26 => fn < 1
  | 0x40 => fn < 1
  | 0x41 => fn < 2
  | 0x42 => fn < 1
  | 0x43 => fn < 1
  | 0x50 => fn < 1
  | 0x51 => fn < 1
  | 0x52 => fn < 1
  | 0x53 => fn < 3
  | 0x54 => fn = 0 || fn = 1 || fn = 2 || fn = 4 || fn = 5 || fn = 6
  | 0x60 => fn < 1
  | 0x61 => fn < 1
  | 0x62 => fn < 1
  | 0x63 => fn < 1
  | 0x64 => fn < 1
  | 0x65 => fn < 1
  | 0x66 => fn < 1
  | 0x67 => fn < 1
  | 0x68 => fn < 2
  | 0x69 => fn < 1
  | 0x6A => fn < 1
  | 0x6B => fn < 1
  | 0x6C => fn < 1
  | 0x6D => fn < 2
  | 0x80 => fn < 1
  | 0x81 => fn < 1
  | 0x82 => fn < 1
  | 0x83 => fn < 1
  | 0x84 => fn < 1
  | 0x85 => fn < 1
  | 0x86 => fn < 1
  | 0x87 => fn < 1
  | 0x88 => fn < 1
  | 0x89 => fn < 13
  | 0x8A => fn < 1
  | 0x8B => fn < 1
  | 0xA0 => fn < 1
  | 0xA1 => fn < 1
  | 0xA2 => fn < 1
  | 0xA3 => fn < 5
  | 0xA4 => fn < 3
  | 0xA5 => fn < 3
  | 0xA6 => fn < 4
  | 0xB0 => fn < 2
  | 0xB1 => fn < 1
  | 0xB2 => fn < 1
  | 0xB3 => fn < 1
  | 0xB4 => fn < 1
  | 0xB5 => fn < 1
  | 0xB6 => fn < 3
  | 0xB7 => fn < 1
  | 0xC0 => fn < 2
  | 0xC1 => fn < 4
  | 0xC2 => fn < 2
  | 0xC3 => fn < 1
  | 0xC4 => fn < 1
  | 0xC5 => fn < 1
  | 0xD0 => fn < 1
  | 0xD1 => fn < 1
  | 0xD2 => fn < 1
  | 0xD3 => fn < 1
  | 0xD4 => fn < 2
  | 0xD5 => fn < 1
  | 0xD6 => fn < 1
  | 0xD7 => fn < 1
  | 0xE0 => fn < 2
  | 0xE1 => fn < 1
  | _ => false

/-- The instruction of a word (R317): LEN, then OPC and FN, then the fields. -/
def decodeWord (w : Word128) : Except Refused Instr :=
  if w.extractLsb' 0 2 = 3#2 then .error .badLen
  else if !assigned (opcOf w) (fnOf w) then .error .unassigned
  else match unpack w with
    | none => .error .badField
    | some f =>
      match Instr.ofWord (opcOf w) (fnOf w) f with
      | none => .error .badField
      | some i => if i.wf then .ok i else .error .badField

/-- Bytes a word occupies, by its first byte's LEN; none when LEN = 11 (R304). -/
def wordBytes (b0 : Byte) : Option Nat := (Len.ofCode (b0.extractLsb' 0 2)).map Len.bytes

/-- Decodes the word at the head of little-endian bytes (R304). -/
def decode : List Byte → Except Refused Instr
  | [] => .error .short
  | b0 :: bs =>
    match wordBytes b0 with
    | none => .error .badLen
    | some n =>
      if (b0 :: bs).length < n then .error .short
      else decodeWord (BitVec.ofNat 128 (natOfBytes ((b0 :: bs).take n)))

/-- The word of an OPC, FN and fields (R305); only the bits of its length. -/
def pack (opc fn : Nat) (f : Fields) : Word128 :=
  let low : BitVec 64 :=
    f.x ++ BitVec.ofBool f.sat ++ f.rm.code ++ f.fmt.code ++ f.hold.code ++ BitVec.ofBool f.btC ++ BitVec.ofBool f.btB
      ++ BitVec.ofBool f.btA ++ f.c.code ++ f.b.code ++ f.a.code ++ f.d.code ++ BitVec.ofBool f.rk ++ BitVec.ofBool f.uni
      ++ BitVec.ofBool f.pn ++ BitVec.ofNat 3 f.pg.val ++ BitVec.ofNat 5 fn ++ BitVec.ofNat 8 opc ++ f.len.code
  let high : BitVec 64 :=
    match f.len with
    | .w64 => 0
    | .w96 => (0 : BitVec 32) ++ f.imm
    | .w128 => f.ext ++ f.pol.code ++ f.imm
  high ++ low

/-- The word of an instruction; a whole-machine step has none. -/
def encodeWord (i : Instr) : Option Word128 := i.word?.map fun (opc, fn, f) => pack opc fn f

/-- Bytes of an instruction's word (R304), 0 for a whole-machine step. -/
def Instr.bytes (i : Instr) : Nat :=
  match i.word? with
  | some (_, _, f) => f.len.bytes
  | none => 0

/-- The bytes of an instruction's word in memory order (R304). -/
def encode (i : Instr) : List Byte :=
  match encodeWord i with
  | some w => bytesOfNat i.bytes w.toNat
  | none => []

/-- Bits [63:0] of an instruction's word, the TVAL of ILLOP (R267). -/
def Instr.low64 (i : Instr) : W64 := ((encodeWord i).getD 0).extractLsb' 0 64

/-- The instruction the decoder reads from bits numbered as the opcode table numbers them: a word is little-endian and
its first byte holds bits 7..0 (R304), so the bytes of `w` are the bytes in memory; what lies above `nbits` is zero. -/
def decodeTableWord (nbits w : Nat) : Option Instr :=
  match decode (bytesOfNat 16 (w % 2 ^ nbits)) with
  | .ok i => some i
  | .error _ => none

end Sys2Proof
end

