-- ==== Sys2Proof/Machine/Memory.lean ====
section
/-!
DEFINITION. Sparse tables and byte memories: reading, writing, the canonical form, and wider accesses, built here once
so that byte order is decided once (R1: little-endian).
-/

namespace Sys2Proof.Machine

namespace Tbl

/-- The entry of key `k`, if any. -/
def look {α : Type} (t : List (Nat × α)) (k : Nat) : Option α :=
  match t with
  | [] => none
  | (a, x) :: t => if a = k then some x else look t k

/-- The table without key `k`. -/
def del {α : Type} (t : List (Nat × α)) (k : Nat) : List (Nat × α) :=
  match t with
  | [] => []
  | (a, x) :: t => if a = k then del t k else (a, x) :: del t k

/-- Inserts before the first larger key. -/
def ins {α : Type} (t : List (Nat × α)) (k : Nat) (v : α) : List (Nat × α) :=
  match t with
  | [] => [(k, v)]
  | (a, x) :: t => if k < a then (k, v) :: (a, x) :: t else (a, x) :: ins t k v

/-- Sets key `k`. -/
def set {α : Type} (t : List (Nat × α)) (k : Nat) (v : α) : List (Nat × α) := ins (del t k) k v

/-- The entry of key `k`, the default if unlisted. -/
def get {α : Type} (d : α) (t : List (Nat × α)) (k : Nat) : α := (look t k).getD d

/-- Writes key `k`; the default is not listed. -/
def put {α : Type} [DecidableEq α] (d : α) (t : List (Nat × α)) (k : Nat) (v : α) : List (Nat × α) :=
  if v = d then del t k else set t k v

/-- Keys strictly rising. -/
def sorted {α : Type} (t : List (Nat × α)) : Bool :=
  match t with
  | [] => true
  | [_] => true
  | (a, _) :: (b, y) :: t => decide (a < b) && sorted ((b, y) :: t)

/-- Applies `f` to the entry of key `k`, if there is one. -/
def upd {α : Type} (t : List (Nat × α)) (k : Nat) (f : α → α) : List (Nat × α) :=
  match look t k with
  | none => t
  | some x => set t k (f x)

end Tbl

namespace Mem

/-- The byte at an address. (DESIGN CHOICE, log 3) -/
def read (m : Mem) (a : Nat) : Byte := Tbl.get 0 m a

/-- Writes one byte, keeping the canonical form. -/
def write (m : Mem) (a : Nat) (b : Byte) : Mem := Tbl.put 0 m a b

/-- The canonical form: addresses strictly rising, no zero byte listed. -/
abbrev wf (m : Mem) : Prop := Tbl.sorted m = true ∧ m.all (fun c => c.2 != 0) = true

/-- `n` bytes from an address upwards. -/
def bytes (m : Mem) (a : Nat) : Nat → List Byte
  | 0 => []
  | n + 1 => m.read a :: bytes m (a + 1) n

/-- The little-endian number in `n` bytes (R1). -/
def num (m : Mem) (a n : Nat) : Nat := natOfBytes (m.bytes a n)

/-- Stores bytes from an address upwards. -/
def store (m : Mem) (a : Nat) : List Byte → Mem
  | [] => m
  | b :: bs => store (m.write a b) (a + 1) bs

/-- Stores a number little-endian in `n` bytes (R1). -/
def putNum (m : Mem) (a n v : Nat) : Mem := m.store a (bytesOfNat n v)

/-- Words written over a base, one for each lane of a list. -/
def putLanes (m : Mem) (base : Nat) (ls : List Nat) (v : Nat → Nat) : Mem :=
  ls.foldl (fun (m : Mem) l => m.putNum (base + 4 * l) 4 (v l)) m

/-- Removes every byte of [a, a + n). -/
def clear (m : Mem) (a n : Nat) : Mem := m.filter fun c => decide (c.1 < a) || decide (a + n ≤ c.1)

/-- The bytes at or above `a` and below `a + n`, as a memory counted from 0. -/
def slice (m : Mem) (a n : Nat) : Mem :=
  (m.filter fun c => decide (a ≤ c.1) && decide (c.1 < a + n)).map fun c => (c.1 - a, c.2)

end Mem

/-- Two ranges of bytes meet. -/
def overlaps (a n b m : Nat) : Bool := decide (0 < n) && decide (0 < m) && decide (a < b + m) && decide (b < a + n)

/-- Bit `l` of a mask. -/
def mhas (m : Mask) (l : Nat) : Bool := m.getLsbD l

/-- The lanes of a mask, ascending. -/
def mlanes (m : Mask) : List Nat := (List.range 256).filter m.getLsbD

def msingle (l : Nat) : Mask := BitVec.ofNat 256 (2 ^ l)

/-- The mask of the lanes of a list. -/
def mof (ls : List Nat) : Mask := ls.foldl (fun m l => m ||| msingle l) 0

/-- The lowest lane of a nonempty mask. -/
def mlowest (m : Mask) : Option Nat := (List.range 256).find? m.getLsbD

/-- The mask of lanes 0 to n-1. -/
def mlow (n : Nat) : Mask := BitVec.ofNat 256 (2 ^ n - 1)

/-- Insertion before the first element that must not precede `x`. -/
def insertBy {α : Type} (le : α → α → Bool) (x : α) : List α → List α
  | [] => [x]
  | y :: ys => if le x y then x :: y :: ys else y :: insertBy le x ys

/-- The list sorted by `le`, stable. -/
def sortBy {α : Type} (le : α → α → Bool) (l : List α) : List α := l.foldr (insertBy le) []

/-- ⌈a / b⌉. -/
def ceilDiv (a b : Nat) : Nat := (a + b - 1) / b

end Sys2Proof.Machine
end

