-- ==== Sys2Proof/Machine/Operands.lean ====
section
/-!
DEFINITION. The registers of a group and every operand form: the window and its views (R43 to R47), tags (R49), register
states (R51 to R54), scalars, predicates and special codes (R48, R21), active and helper lanes (R22 to R25), and reading
a source (R308, R310, R326). Everything here is about one group alone.
-/

namespace Sys2Proof.Machine

def Tag.ofNat (n : Nat) : Tag := (Fields.anyTag[n]?).getD .raw

/-- Elements of TVIEW and AVIEW (R46). -/
def viewBase (v : BitVec 16) : Nat := (v.extractLsb' 0 6).toNat
def viewFmt (v : BitVec 16) : Nat := (v.extractLsb' 6 2).toNat
def viewStride (v : BitVec 16) : Nat := (v.extractLsb' 8 8).toNat

/-- Bytes of a tile register (R45). -/
def tileSize (tview : BitVec 16) : Nat := if viewFmt tview = 2 then 1152 else 2048

/-- Tag of tiles read through the view (R50). -/
def tileTag (tview : BitVec 16) : Tag :=
  match viewFmt tview with | 0 => .bf16 | 1 => .f16 | _ => .bpb

/-- Start and length in the window of a vector, tile or accumulator register, if R47 admits the reference. -/
def viewRange (tview aview : BitVec 16) (u : Nat) (o : Opd) : Option (Nat × Nat) :=
  let inU := fun (r : Nat × Nat) => if r.1 + r.2 ≤ u then some r else none
  match o with
  | .v n => inU (1024 * n.val, 1024)
  | .t n =>
    let sz := tileSize tview
    let step := if viewStride tview = 0 then sz else 128 * viewStride tview
    if viewFmt tview = 3 || step < sz then none else inU (1024 * viewBase tview + n.val * step, sz)
  | .a n =>
    let st := viewStride aview
    let step := if st = 0 then 4096 else 1024 * st
    if st = 1 || st = 2 || st = 3 then none else inU (1024 * viewBase aview + n.val * step, 4096)
  | _ => none

/-- The vector registers a window range overlaps (R51). -/
def regsOf (start len : Nat) : List Nat :=
  if len = 0 then [] else
    let lo := start / 1024
    let hi := (start + len - 1) / 1024
    (List.range (hi - lo + 1)).map (· + lo)

namespace Group

/-- Usable size U (R44). -/
def u (g : Group) : Nat := 1024 * (g.ident.w - g.ident.k)

def range (g : Group) (o : Opd) : Option (Nat × Nat) := viewRange g.csr.tview g.csr.aview g.u o

/-- A vector register of the window under R47, `n` of them from `r`. -/
def vecsOk (g : Group) (r n : Nat) : Bool := 1024 * (r + n) ≤ g.u && r + n ≤ 64

def lane (g : Group) (n l : Nat) : W32 := BitVec.ofNat 32 (g.win.num (1024 * n + 4 * l) 4)
def st (g : Group) (n : Nat) : RegSt := Tbl.get .full g.vst n
def setSt (g : Group) (n : Nat) (x : RegSt) : Group := { g with vst := Tbl.put .full g.vst n x }
def tagAt (g : Group) (granule : Nat) : Tag := Tbl.get .raw g.tags granule

/-- Granules of a range. -/
def granules (start len : Nat) : List Nat :=
  (List.range ((start + len + 127) / 128 - start / 128)).map (· + start / 128)

/-- Tags every granule of a range (R49). -/
def setTags (g : Group) (start len : Nat) (t : Tag) : Group :=
  { g with tags := (granules start len).foldl (fun ts k => Tbl.put .raw ts k t) g.tags }

def scal (g : Group) (n : Nat) : W64 := Tbl.get 0 g.s n

/-- Writes a scalar; data still on its way to it is dropped (R400: the later write stands). -/
def setScal (g : Group) (n : Nat) (x : W64) : Group :=
  { g with s := Tbl.put 0 g.s n x, sbusy := g.sbusy.filter (·.1 != n) }

/-- A predicate as a mask; p0 is all ones (R48). -/
def pred (g : Group) (k : Nat) : Mask := if k = 0 then BitVec.allOnes 256 else Tbl.get 0 g.p k

/-- Writes the lanes `m` of a predicate; a write to p0 is discarded (R48). -/
def setPred (g : Group) (k : Nat) (m val : Mask) : Group :=
  if k = 0 then g else { g with p := Tbl.put 0 g.p k ((g.pred k &&& ~~~m) ||| (val &&& m)) }

def slot (g : Group) (k : Nat) : Slot := Tbl.get {} g.slots k
def setSlot (g : Group) (k : Nat) (x : Slot) : Group := { g with slots := Tbl.put {} g.slots k x }

/-- A slot loses a holder and is freed with its last one (R54, R70). -/
def dropHolder (g : Group) (k : Nat) : Group :=
  let x := g.slot k
  g.setSlot k { x with holders := x.holders - 1, busy := x.busy && decide (1 < x.holders) }

def addHolder (g : Group) (k : Nat) : Group :=
  let x := g.slot k
  g.setSlot k { x with holders := x.holders + 1 }

/-- The even register of the pair of `n`. -/
def even (n : Nat) : Nat := n - n % 2

/-- The pending pairs, by even register, that a list of registers meets. -/
def pairsIn (g : Group) (rs : List Nat) : List Nat :=
  ((rs.map even).dedup).filter fun r => match g.st r with | .pend _ => true | _ => false

/-- A write discards the pending form of one pair (R54): both registers F, their granules RAW, one holder less. -/
def discardPair (g : Group) (r : Nat) : Group :=
  match g.st r with
  | .pend k => (((g.setSt r .full).setSt (r + 1) .full).setTags (1024 * r) 2048 .raw).dropHolder k
  | _ => g

/-- Discards every pending pair a window range meets (R54). -/
def discard (g : Group) (start len : Nat) : Group := (g.pairsIn (regsOf start len)).foldl discardPair g

/-- A write at issue: the bytes of `parts` and the granules of the range stand over what producers still owe (R53). -/
def noteWrite (g : Group) (start len : Nat) (parts : List (Nat × Nat)) : Group :=
  { g with
    prods := g.prods.map fun (id, p) =>
      if overlaps p.start p.len start len then
        (id, { p with skip := p.skip ++ parts, skipTags := p.skipTags ++ [(start, len)] })
      else (id, p)
    wrote := g.wrote ++ regsOf start len }

/-- Writes lanes of a vector register and tags it (R49, R53, R54). -/
def writeV (g : Group) (n : Nat) (vals : List (Nat × W32)) (t : Tag) : Group :=
  let g := (g.discard (1024 * n) 1024).noteWrite (1024 * n) 1024 (vals.map fun (l, _) => (1024 * n + 4 * l, 4))
  let g := { g with win := vals.foldl (fun (m : Mem) (c : Nat × W32) => m.putNum (1024 * n + 4 * c.1) 4 c.2.toNat) g.win }
  g.setTags (1024 * n) 1024 t

/-- Writes a whole range of the window and tags it. -/
def writeRange (g : Group) (start : Nat) (bs : List Byte) (t : Tag) : Group :=
  let g := (g.discard start bs.length).noteWrite start bs.length [(start, bs.length)]
  let g := { g with win := g.win.store start bs }
  g.setTags start bs.length t

/-- A producer is issued for a range: pending pairs there are discarded and the registers become E (R51, R54). -/
def markE (g : Group) (id start len : Nat) (t : Tag) : Group :=
  let g := g.discard start len
  let g := (regsOf start len).foldl (fun g r => g.setSt r .empty) g
  { g with prods := Tbl.set g.prods id { start := start, len := len, tag := t } }

/-- A producer's bytes stand over what the producers issued before it still owe (R53). -/
def overEarlier (g : Group) (id : Nat) (f : Prod → Prod) : Tbl Prod :=
  g.prods.map fun (k, p) => if k < id then (k, f p) else (k, p)

/-- A delivery of the producer `id` writes bytes at a window address, but for those written later (R53). -/
def deliver (g : Group) (id a : Nat) (bs : List Byte) : Group :=
  match Tbl.look g.prods id with
  | none => g
  | some p =>
    let keep := fun (x : Nat) => p.skip.any fun (b, n) => decide (b ≤ x) && decide (x < b + n)
    let cells := (bs.zipIdx).filter fun (_, i) => !keep (a + i)
    { g with
      prods := g.overEarlier id fun q => if overlaps q.start q.len a bs.length then { q with skip := q.skip ++ [(a, bs.length)] } else q
      win := cells.foldl (fun (m : Mem) (c : Byte × Nat) => m.write (a + c.2) c.1) g.win
      wrote := g.wrote ++ regsOf a bs.length }

/-- The last delivery of a producer has landed: granules not tagged later take its tag, and registers owed nothing more
become F (R51, R53). -/
def land (g : Group) (id : Nat) : Group :=
  match Tbl.look g.prods id with
  | none => g
  | some p =>
    let later := fun (k : Nat) => p.skipTags.any fun (b, n) => overlaps b n (128 * k) 128
    let ts := ((granules p.start p.len).filter fun k => !later k).foldl (fun ts k => Tbl.put .raw ts k p.tag) g.tags
    let rest := g.overEarlier id fun q =>
      if overlaps q.start q.len p.start p.len then { q with skipTags := q.skipTags ++ [(p.start, p.len)] } else q
    let prods := Tbl.del rest id
    let owed := fun (r : Nat) => prods.any fun (_, q) => overlaps q.start q.len (1024 * r) 1024
    let g := { g with tags := ts, prods := prods }
    (regsOf p.start p.len).foldl
      (fun g r => if owed r then g else match g.st r with | .empty => g.setSt r .full | _ => g) g

/-- The producers whose results only time holds back no longer (R385). -/
def dueProds (g : Group) (now : Nat) : Tbl Prod :=
  g.prods.filter fun (_, p) => match p.due with | some t => decide (t ≤ now) | none => false

/-- Results that only time held back land (R385); with them the latch entries on their registers end (R57). -/
def landDue (g : Group) (now : Nat) : Group :=
  (g.dueProds now).foldl
    (fun g (k, p) => let h := g.land k; { h with wrote := h.wrote ++ regsOf p.start p.len }) g

/-- Delivery of a MEMUE: the destination becomes F, the failed lanes keeping their bytes under the load's tag; its scalar
waits for that access no longer (R402). -/
def dropMemue (g : Group) (m : Memue) : Group :=
  let g := { g with memues := g.memues.erase m }
  let g := match m.prod with | some id => g.land id | none => g
  match m.scal with
  | some n => { g with sbusy := g.sbusy.filter (· != (n, m.id)) }
  | none => g

/-- Whether a range overlaps a register in state E, or P. -/
def anyE (g : Group) (start len : Nat) : Bool := (regsOf start len).any fun r => g.st r == .empty
def anyP (g : Group) (start len : Nat) : Bool := !(g.pairsIn (regsOf start len)).isEmpty

/-- The first granule of a range that holds neither RAW nor an expected tag (R50), and its tag. -/
def badTag (g : Group) (start len : Nat) (ok : Tag → Bool) : Option Tag :=
  ((granules start len).map g.tagAt).find? fun t => !(t == .raw || ok t)

/-- The sub-group record `x` (15 the base). -/
def sub (g : Group) (x : Nat) : Sub := Tbl.get {} g.subs x
def setSub (g : Group) (x : Nat) (y : Sub) : Group := { g with subs := Tbl.set g.subs x y }
def subPc (g : Group) (x : Nat) (pc : W64) : Group := g.setSub x { g.sub x with pc := pc }

/-- Lanes of a sub-group for which the instruction's predicate holds (R22). -/
def activeReal (g : Group) (x : Nat) (f : Fields) : Mask :=
  let p := g.pred f.pg.val
  (g.sub x).mask &&& (if f.pn then ~~~p else p)

/-- Helper lanes of the active quads (R20, R23). -/
def helpers (g : Group) (act : Mask) : List Nat :=
  let n := g.ident.nreal
  ((List.range ((4 - n % 4) % 4)).map (· + n)).filter fun l =>
    (List.range 4).any fun j => mhas act (l - l % 4 + j)

/-- UNI: whether the predicate holds on the sub-group's lowest-numbered active real lane (R25). -/
def uniOn (g : Group) (x : Nat) (f : Fields) : Bool :=
  match mlowest (g.sub x).mask with
  | none => false
  | some l => mhas (g.pred f.pg.val) l != f.pn

/-- A special code's value, apart from LANE (R21). -/
def special (g : Group) : Opd → Nat
  | .group => g.ident.index
  | .team => g.ident.team
  | .lcore => g.ident.team % g.ident.lcores
  | .nlane => g.ident.nreal
  | .spread => g.ident.team % g.ident.spread
  | _ => 0

/-- A source of a lane (R326). -/
def src (g : Group) (f : Fields) (o : Opd) (l : Nat) : W32 :=
  match o with
  | .v n => g.lane n.val l
  | .s n => (g.scal n.val).extractLsb' 0 32
  | .lane => BitVec.ofNat 32 l
  | .imm => f.imm
  | .zero => 0
  | o => BitVec.ofNat 32 (g.special o)

/-- A source under UNI (R308, R310): LANE is the sub-group's lowest-numbered active real lane. -/
def srcU (g : Group) (x : Nat) (f : Fields) (o : Opd) : W64 :=
  match o with
  | .s n => g.scal n.val
  | .lane => BitVec.ofNat 64 ((mlowest (g.sub x).mask).getD 0)
  | .imm => if f.fmt = .i32 then f.imm.signExtend 64 else f.imm.zeroExtend 64
  | o => BitVec.ofNat 64 (g.special o)

end Group

/-- A scalar of a beam core (R150). -/
def Run.scal (r : Run) (n : Nat) : W64 := Tbl.get 0 r.s n
def Run.setScal (r : Run) (n : Nat) (x : W64) : Run := { r with s := Tbl.put 0 r.s n x }

/-- A source of a beam instruction (R150): LANE reads 0, other special codes the posting group's values. -/
def Run.srcU (r : Run) (f : Fields) (o : Opd) : W64 :=
  match o with
  | .s n => r.scal n.val
  | .lane => 0
  | .imm => if f.fmt = .i32 then f.imm.signExtend 64 else f.imm.zeroExtend 64
  | o => BitVec.ofNat 64 (Group.special { ident := r.pass.ident } o)

/-- The predicate of a beam instruction (R150). -/
def Run.predOn (r : Run) (f : Fields) : Bool := (f.pg.val = 0 || r.p.getLsbD f.pg.val) != f.pn

def Run.setPred (r : Run) (k : Nat) (b : Bool) : Run :=
  if k = 0 then r else
    let bit := BitVec.ofNat 8 (2 ^ k)
    { r with p := if b then r.p ||| bit else r.p &&& ~~~bit }

end Sys2Proof.Machine
end

