-- ==== Sys2Proof/Machine/Ops.lean ====
section
/-!
DEFINITION. Named operations over the whole state: accessors, the hold latch (R56, R57), traps (R264 to R270) with the
ONE operation that takes an exception and the return from it, divergence (R29 to R35), and how one instruction of a
group or a beam core is carried out around its meaning.
-/

namespace Sys2Proof.Machine

namespace State

def group (s : State) (gid : Nat) : Group := Tbl.get {} s.groups gid
def team (s : State) (tid : Nat) : Team := Tbl.get {} s.teams tid
def launch (s : State) (lid : Nat) : Launch := Tbl.get {} s.launches lid
def core (s : State) (n : Nat) : Core := Tbl.get {} s.cores n
def engine (s : State) (q : Nat) : Engine := Tbl.get {} s.engines q
def part (s : State) (p : Nat) : Part := Tbl.get {} s.parts p
def bind (s : State) (n : Nat) : BindE := Tbl.get {} s.binds n
def die (s : State) (d : Nat) : Die := Tbl.get {} s.dies d

def setTeam (s : State) (tid : Nat) (t : Team) : State := { s with teams := Tbl.set s.teams tid t }
def setLaunch (s : State) (lid : Nat) (l : Launch) : State := { s with launches := Tbl.set s.launches lid l }
def setCore (s : State) (n : Nat) (c : Core) : State := { s with cores := Tbl.put {} s.cores n c }
def setEngine (s : State) (q : Nat) (e : Engine) : State := { s with engines := Tbl.put {} s.engines q e }
def setPart (s : State) (p : Nat) (x : Part) : State := { s with parts := Tbl.put {} s.parts p x }
def setBind (s : State) (n : Nat) (b : BindE) : State := { s with binds := Tbl.put {} s.binds n b }
def setDie (s : State) (d : Nat) (x : Die) : State := { s with dies := Tbl.put {} s.dies d x }
def setM (s : State) (m : Module) : State := { s with m := m }

/-- Writes a group back; latch entries on the registers it wrote in this step are invalidated (R57). -/
def setGroup (s : State) (gid : Nat) (g : Group) : State :=
  let s := { s with groups := Tbl.set s.groups gid { g with wrote := [] } }
  if g.wrote.isEmpty then s else
    let c := s.core g.ident.core
    let rod := g.ident.slot % 16
    let es := (Tbl.get [] c.latch rod).filter fun e => !(e.gid == gid && g.wrote.contains e.reg)
    s.setCore g.ident.core { c with latch := Tbl.put [] c.latch rod es }

/-- ORs flags into a team's TSF as one update (R59). -/
def orTsf (s : State) (tid : Nat) (fl : BitVec 5) : State :=
  if fl = 0 then s else
    match Tbl.look s.teams tid with
    | none => s
    | some t => s.setTeam tid { t with tsf := t.tsf ||| fl }

/-- A fresh number for an operation in flight. -/
def fresh (s : State) : Nat × State := (s.nextId, { s with nextId := s.nextId + 1 })

/-- The quartet of a core (R8: 24 quartets of 4 cores), and its cluster (24 cores). -/
def quartet (core : Nat) : Nat := core / 4
def cluster (core : Nat) : Nat := core / 24

/-- A launch runs in deterministic mode (R243 flags bit 0); its other flags. -/
def flag (s : State) (lid bit : Nat) : Bool := (s.launch lid).r.flags.getLsbD bit

end State

/-- What a trap delivers (R267, R268). `page`: the key page of a trap that may be merged (R266); `succ`: TEPC is the
successor; `stage2`: the fault goes to firmware (R262); `memue`: the held MEMUE that the entry delivers (R402). -/
structure Trap where
  cause : Nat
  tval : W64
  w : Bool := false
  fetch : Bool := false
  imp : Bool := false
  cls : Nat := 0
  agent : Nat := 0
  modno : Nat := 0
  page : Option Nat := none
  stage2 : Bool := false
  succ : Bool := false
  memue : Option Memue := none
deriving DecidableEq, Repr

/-- How an instruction fails to complete: its sub-group is not ready (R27), or it traps. The `With` forms carry the state
that stands (a registered wait, a delivered fault); the others leave the state as it was. -/
inductive Stop where
  | wait
  | waitWith (s : State)
  | trap (t : Trap)
  | trapWith (s : State) (t : Trap)

/-! Cause codes (R267). -/

namespace Cause
def illop := 0x01
def fetchx := 0x02
def priv := 0x03
def fmttag := 0x04
def align := 0x05
def emptyrd := 0x06
def pendrd := 0x07
def promise := 0x08
def pageflt := 0x09
def prot := 0x0A
def ownwr := 0x0B
def detop := 0x0C
def watch := 0x0D
def watchm := 0x0E
def barbrk := 0x0F
def qbrk := 0x10
def englost := 0x11
def arrtmo := 0x12
def canotf := 0x13
def cacoll := 0x14
def caprot := 0x15
def cafull := 0x16
def memue := 0x17
def preempt := 0x18
def sysc := 0x19
def trapi := 0x1A
end Cause

/-- A trap by cause and TVAL. -/
def trapOf {α : Type} (cause : Nat) (tval : W64) : Except Stop α := .error (.trap { cause := cause, tval := tval })

def trapN {α : Type} (cause tval : Nat) : Except Stop α := trapOf cause (BitVec.ofNat 64 tval)

/-- Traps unless the condition holds. -/
def guardT (ok : Bool) (cause : Nat) (tval : W64) : Except Stop Unit := if ok then .ok () else trapOf cause tval
def guardN (ok : Bool) (cause tval : Nat) : Except Stop Unit := if ok then .ok () else trapN cause tval
/-- Not ready unless the condition holds (R27). -/
def guardW (ok : Bool) : Except Stop Unit := if ok then .ok () else .error .wait

/-- The TCAUSE word of a trap (R268). -/
def Trap.word (t : Trap) : W64 :=
  let b := fun (x : Bool) (k : Nat) => if x then 2 ^ k else 0
  BitVec.ofNat 64 (t.cause + b t.w 8 + b t.fetch 9 + b t.imp 10 + t.cls * 2 ^ 11 + t.agent * 2 ^ 16 + t.modno * 2 ^ 24)

def Cls.code : Cls → Nat
  | .cp => 1 | .rd => 2 | .mp => 3 | .ar => 4 | .th => 5

/-- The 64 KiB page of an address (R265). -/
def page64 (a : Nat) : Nat := a - a % 65536

/-! ### Divergence -/

namespace Group

/-- Children and parked lanes of `c` pass to `x` (R32, R33). -/
def inherit (g : Group) (c x : Nat) : Group :=
  { g with
    subs := g.subs.map fun (k, y) => if k != 15 && y.parent == c then (k, { y with parent := x }) else (k, y)
    parked := g.parked.map fun (l, p) => if p.owner == c then (l, { p with owner := x }) else (l, p) }

/-- What is kept under the number of sub-group `k` passes to `x`, which has taken over its lanes (R32, R33); a handler's
sub-group runs all its lanes. (DEDUCED, log 30) -/
def rekey (g : Group) (k x : Nat) : Group :=
  { g with
    handler := if g.handler == some k then some x else g.handler
    frozen := if g.handler == some k || g.handler == some x then g.frozen &&& ~~~(g.sub x).mask else g.frozen
    wskipNow := g.wskipNow.map fun y => if y = k then x else y }

/-- A SLEEP of sub-group `k` goes on as one of `x`, which it becomes (R33). -/
def moveSleep (g : Group) (k x : Nat) : Group :=
  match Tbl.look g.sleep k with
  | none => g
  | some t => { g with sleep := Tbl.set (Tbl.del g.sleep k) x t, woken := g.woken.map fun y => if y = k then x else y }

/-- One fusion: the lowest live entry at its parent's PC is folded into the parent (R32). -/
def fuseOne (g : Group) : Option Group :=
  match g.subs.find? fun (k, y) => k != 15 && decide (y.pc = (g.sub y.parent).pc) with
  | none => none
  | some (k, y) =>
    let par := g.sub y.parent
    let g := { g with subs := Tbl.del g.subs k, sleep := Tbl.del g.sleep k, woken := g.woken.filter (· != k) }
    some (((g.setSub y.parent { par with mask := par.mask ||| y.mask }).rekey k y.parent).inherit k y.parent)

/-- Fusion until no entry qualifies; there are at most eight (R29). -/
def fuse (g : Group) : Nat → Group
  | 0 => g
  | n + 1 => match g.fuseOne with
    | none => g
    | some g => fuse g n

/-- Parked lanes whose PARKPC equals their owner's PC rejoin it (R32). -/
def unpark (g : Group) : Group :=
  let back := g.parked.filter fun (_, p) => decide (p.pc = (g.sub p.owner).pc)
  let g := back.foldl (fun g (l, p) =>
    let y := g.sub p.owner
    g.setSub p.owner { y with mask := y.mask ||| msingle l }) g
  { g with parked := g.parked.filter fun (l, _) => !(back.any fun (m, _) => m == l) }

/-- Fusion and unparking at the start of a turn (R32). -/
def startTurn (g : Group) : Group := (g.fuse 8).unpark

/-- A sub-group exists: a nonempty mask or a parked lane (R29). -/
def isSub (g : Group) (x : Nat) : Bool :=
  (Tbl.look g.subs x).isSome && ((g.sub x).mask != 0 || g.parked.any fun (_, p) => p.owner == x)

/-- Held at a join (R31): its second clause as it is worded, so that a child with JPC = 0, which R29 calls none, holds a parent
that stands at PC 0. (DEDUCED, log 30) -/
def held (g : Group) (x : Nat) : Bool :=
  let y := g.sub x
  (x != 15 && y.pc == y.jpc && y.jpc != 0 && (g.sub y.parent).pc != y.pc)
  || g.subs.any fun (k, c) => k != 15 && c.parent == x && c.jpc == y.pc && c.pc != y.pc

/-- The order of service after the sub-group that last issued (R35): base, then entries 0 to 7, cyclically. -/
def order (g : Group) : List Nat :=
  let all := 15 :: List.range 8
  match g.lastSub with
  | none => all
  | some x =>
    let i := if x = 15 then 1 else x + 2
    all.drop i ++ all.take i

/-- The child that takes the place of an empty sub-group without parked lanes (R33). -/
def heir (g : Group) (x : Nat) : Option Nat :=
  if (g.sub x).mask != 0 || g.parked.any fun (_, p) => p.owner == x then none
  else (g.subs.find? fun (k, c) => k != 15 && c.parent == x).map (·.1)

/-- A sub-group whose mask became empty is resolved (R33). `none` for the group: every lane has exited. -/
def resolveEmpty (g : Group) (x : Nat) : Option Group :=
  if (g.sub x).mask != 0 then some g else
    let mine := g.parked.filter fun (_, p) => p.owner == x
    match mine.map fun (_, p) => p.pc.toNat with
    | pc :: pcs =>
      let low := pcs.foldl min pc
      let ls := mine.filter fun (_, p) => p.pc.toNat == low
      let g := { g with parked := g.parked.filter fun (l, _) => !(ls.any fun (m, _) => m == l) }
      some (g.setSub x { g.sub x with mask := mof (ls.map (·.1)), pc := BitVec.ofNat 64 low })
    | [] =>
      match g.subs.find? fun (k, c) => k != 15 && c.parent == x with
      | some (k, c) =>
        let old := g.sub x
        let g := { g with subs := Tbl.del g.subs k }
        let g := g.setSub x { old with mask := c.mask, pc := c.pc, jpc := if x = 15 then old.jpc else c.jpc }
        some (((g.rekey k x).moveSleep k x).inherit k x)
      | none =>
        if x = 15 then
          if g.subs.all fun (k, _) => k == 15 then none else some g
        else some { g with subs := Tbl.del g.subs x }

/-- A divergent branch (R30): each real lane of `x` has its next PC; `jpc` is the join PC named, 0 for none. -/
def diverge (g : Group) (x : Nat) (next : List (Nat × W64)) (jpc : W64) : Group :=
  let targets := sortBy (fun a b => decide (a ≤ b)) (next.map fun (_, p) => p.toNat).dedup
  match targets with
  | [] => g
  | [p] => g.subPc x (BitVec.ofNat 64 p)
  | low :: others =>
    let lanesTo := fun (p : Nat) => (next.filter fun (_, q) => q.toNat == p).map (·.1)
    let y := g.sub x
    let g := g.setSub x { y with mask := mof (lanesTo low), pc := BitVec.ofNat 64 low }
    others.foldl (fun g p =>
      match (List.range 8).find? fun e => (Tbl.look g.subs e).isNone with
      | some e => g.setSub e ⟨mof (lanesTo p), BitVec.ofNat 64 p, jpc, x⟩
      | none => { g with
          parked := (lanesTo p).foldl (fun t l => Tbl.set t l ⟨BitVec.ofNat 64 p, x⟩) g.parked }) g

end Group

/-! ### Coalescer and handler entry -/

/-- A report of an engine's fault goes to the record with its key, else to the lowest free one; where there is none a
stage-2 access presents it again (R262), and an imprecise fault's report is owed (R266). (DEDUCED, log 25) -/
def Core.report (c : Core) (x : CoRec) : Core :=
  match c.recs.find? fun (_, r) => r.cause == x.cause && r.page == x.page && r.stage2 == x.stage2 && r.engine with
  | some (k, r) =>
    if x.stage2 && x.lids.all r.lids.contains then c
    else { c with recs := Tbl.set c.recs k { r with count := min 0xFFFF (r.count + x.count), lids := r.lids ++ x.lids } }
  | none =>
    match (List.range 32).find? fun k => (Tbl.look c.recs k).isNone with
    | some k => { c with recs := Tbl.set c.recs k x }
    | none => if x.stage2 then c else { c with owed := c.owed ++ [x] }

/-- Owed reports take the records that have become free (R266). -/
def Core.placeOwed (c : Core) : Core := c.owed.foldl Core.report { c with owed := [] }

/-- A coalescer record closes: its members, its firmware waiters and the groups that found no record free issue their
instructions again (R266). -/
def closeRec (s : State) (core r : Nat) : State :=
  let c := s.core core
  let s := s.setCore core (Core.placeOwed { c with recs := Tbl.del c.recs r })
  { s with groups := s.groups.map fun (k, g) =>
      if g.ident.core == core && (g.hang == .member r || g.hang == .stage2 r || g.hang == .full) then (k, { g with hang := .no })
      else (k, g) }

/-- Groups of a core whose trap found no record free present it again (R266). -/
def freeFull (s : State) (core : Nat) : State :=
  { s with groups := s.groups.map fun (k, g) => (k, if g.ident.core == core && g.hang == .full then { g with hang := .no } else g) }

/-- Records of imprecise faults on a core that no group has still to be told of, or still handles, and that no parked copy
waits on, close (R182, R266, R370). -/
def pruneEngineRecs (s : State) (core : Nat) : State :=
  let c := s.core core
  let fresh := fun (cause page : Nat) =>
    (s.groups.any fun (_, g) => g.ident.core == core &&
      ((g.faults.any fun x => x.cause == cause && page64 x.tval.toNat == page)
        || g.entries.any fun e => e.cause == cause && e.page == page))
    || s.copies.any fun (_, y) => y.core == core && match y.st with
      | .parked k tv _ => k == cause && page64 tv.toNat == page
      | _ => false
  let gone := fun (r : CoRec) => r.engine && !r.stage2 && !fresh r.cause r.page
  if c.recs.any fun (_, r) => gone r then
    freeFull (s.setCore core (Core.placeOwed { c with recs := c.recs.filter fun (_, r) => !gone r })) core
  else s

/-- Writes TCAUSE, TEPC and TVAL, sets M, and sends the sub-group to HBASE; the group's other sub-groups are frozen
until ERET, and no sub-group that the handler's own branches make (R268). The registers are untouched. `led`: the record of which the group becomes leader. A PREEMPT not yet
delivered is held, and PEND says so (R274). A PREEMPT found its instruction unissued: WATCH hits that it was to ignore it
still ignores after the return (R268, R270). -/
def enterHandler (s : State) (gid sub : Nat) (tepc : W64) (t : Trap) (led : Option (Nat × Nat)) : State :=
  let g := s.group gid
  let g := match t.memue with | some m => g.dropMemue m | none => g
  let held := match g.pre with | .asked _ => true | _ => false
  let c := { g.csr with tcause := t.word, tepc := tepc, tval := t.tval, m := true, pend := held }
  let others := (g.subs.filter (·.1 != sub)).foldl (fun m (_, y) => m ||| y.mask) 0
  let g := { g with csr := c, handler := some sub, frozen := others, lastSub := some sub, wskipNow := g.wskipNow.filter (· != sub)
                    entries := { led := led, cause := t.cause, page := page64 t.tval.toNat
                                 skip := t.cause == Cause.preempt && g.wskipNow.contains sub } :: g.entries }
  s.setGroup gid (g.subPc sub g.csr.hbase)

/-- The record of a trap that may be merged (R266): joined as a member, opened, or none free. -/
inductive Merge where | member (r : Nat) | opened (r : Nat) | full

def mergeRec (c : Core) (t : Trap) (page slot : Nat) (pc : W64) (now : Nat) : Merge × Core :=
  match c.recs.find? fun (_, r) => r.cause == t.cause && r.page == page && r.stage2 == t.stage2 && !r.engine with
  | some (k, r) =>
    let r := { r with count := min 0xFFFF (r.count + 1), slots := if r.slots.contains slot then r.slots else r.slots ++ [slot] }
    (.member k, { c with recs := Tbl.set c.recs k r })
  | none =>
    match (List.range 32).find? fun k => (Tbl.look c.recs k).isNone with
    | none => (.full, c)
    | some k =>
      (.opened k, { c with recs := Tbl.set c.recs k (CoRec.mk t.cause t.stage2 t.w t.fetch false 1 page [slot] pc now []) })

/-- An imprecise engine fault is reported under its own key (R266). A stage-2 fault is reported once, and its access
waits (R262). -/
def reportEngine (s : State) (core lid cause page : Nat) (w stage2 : Bool) : State :=
  s.setCore core ((s.core core).report
    (CoRec.mk cause stage2 w false true 1 page [] 0 s.m.ftime (if stage2 then [lid] else [])))

/-- Marks a launch killed with a cause (R269, R280): its groups issue nothing and write nothing from now on. What they
hold is reclaimed by `sweep`. (DEDUCED, log 43) -/
def killLaunch (s : State) (lid cause : Nat) : State :=
  match Tbl.look s.launches lid with
  | none => s
  | some l => if l.killed.isSome then s else s.setLaunch lid { l with killed := some cause }

/-- TAKING AN EXCEPTION, for every cause: the sub-group `sub` of group `gid` meets trap `t` at `pc`, its instruction
`len` bytes long. While M = 1 or HBASE = 0 every trap but PREEMPT kills the launch (R269); mergeable traps join or open a
coalescer record, and stage-2 faults leave the group waiting for firmware (R262, R266); all others, and a record's
leader, enter the handler (R268). -/
def takeTrap (s : State) (gid sub : Nat) (pc : W64) (len : Nat) (t : Trap) : State :=
  let g := s.group gid
  let tepc := if t.succ then pc + BitVec.ofNat 64 len else pc
  if !t.stage2 && t.cause != Cause.preempt && (g.csr.m || g.csr.hbase == 0) then killLaunch s g.ident.lid t.cause
  else match t.page with
    | none => enterHandler s gid sub tepc t none
    | some a =>
      let core := g.ident.core
      let (m, c) := mergeRec (s.core core) t (page64 a) g.ident.slot pc s.m.ftime
      match m with
      | .full => s.setGroup gid { g with hang := .full }
      | .member r => (s.setCore core c).setGroup gid { g with hang := if t.stage2 then .stage2 r else .member r }
      | .opened r =>
        let s := s.setCore core c
        if t.stage2 then s.setGroup gid { g with hang := .stage2 r }
        else enterHandler s gid sub tepc t (some (core, r))

/-- The fault of a parked copy, or of the copy-out of a COUT (R182, R349). -/
def Copy.parkFault (y : Copy) : Option Fault1 :=
  match y.st with
  | .parked cause tv _ => some
      { cls := if y.obj.isNone then .cp else .th, cause := cause, tval := tv, op := y.seq
        w := y.dk == .virt && decide (y.dst ≤ tv.toNat) && decide (tv.toNat < y.dst + y.left) }
  | _ => none

/-- RETURN FROM AN EXCEPTION (R270): PC := TEPC, M := 0, WSKIP applied and cleared, one that a PREEMPT found unused in force
again, the frozen sub-groups resume, the record led by the entry that ends closes, and parked copies of that entry's cause and
page resume (R182); one that has not reported its fault still does. (DEDUCED, log 28) -/
def returnTrap (s : State) (gid sub : Nat) : State :=
  let g := s.group gid
  let c := { g.csr with m := false, wskip := false, left := 0 }
  let skips := if (g.csr.wskip || g.entries.head?.any (·.skip)) && !g.wskipNow.contains sub then g.wskipNow ++ [sub] else g.wskipNow
  let g' := { g with csr := c, handler := none, frozen := 0, entries := g.entries.drop 1, wskipNow := skips, lastSub := some sub }
  let s := s.setGroup gid (g'.subPc sub g.csr.tepc)
  let s := match g.entries.head?.bind (·.led) with
    | some (core, r) => closeRec s core r
    | none => s
  let mine : Copy → Bool := fun y => match y.st with
    | .parked cause tv _ => y.gid == gid && (g.entries.head?.map fun e => (e.cause, e.page)) == some (cause, page64 tv.toNat)
    | _ => false
  let late := (s.copies.filter fun (_, y) => mine y).filterMap fun (_, y) => match y.st with
    | .parked _ _ false => y.parkFault
    | _ => none
  let s := { s with copies := s.copies.map fun (k, y) => if mine y then (k, { y with st := .running }) else (k, y) }
  let s := if late.isEmpty then s else s.setGroup gid { s.group gid with faults := (s.group gid).faults ++ late }
  pruneEngineRecs s g.ident.core

/-! ### Carrying out an instruction -/

/-- What a meaning knows of its issue. `who` names the engine for a beam core. -/
structure Ctx where
  i : Instr
  f : Fields
  gid : Nat
  sub : Nat
  pc : W64
deriving DecidableEq, Repr

def Ctx.len (c : Ctx) : Nat := c.f.len.bytes
/-- The group of a context. -/
def Ctx.g (c : Ctx) (s : State) : Group := s.group c.gid

/-- ILLOP with the word's bits [63:0] (R267). -/
def illop {α : Type} (c : Ctx) : Except Stop α := trapOf Cause.illop c.i.low64
def guardI (c : Ctx) (ok : Bool) : Except Stop Unit := if ok then .ok () else illop c

/-- The hold-latch entries of a rod after an issue of a sub-group (R56): an entry of its own lapses after two. A sub-group
that takes over the number of another takes over its entries. (DEDUCED, log 34) -/
def lapsed (gid sub : Nat) (es : List LatchE) : List LatchE :=
  (es.map fun e => if e.gid == gid && e.sub == sub then { e with left := e.left - 1 } else e).filter fun e => decide (0 < e.left)

/-- A core with the hold latch of one rod written. -/
def Core.setLatch (k : Core) (rod : Nat) (es : List LatchE) : Core := { k with latch := Tbl.put [] k.latch rod es }

/-- A wait that was served completes an issue of its sub-group (R56, R229). -/
def lapseLatch (s : State) (gid sub : Nat) : State :=
  let i := (s.group gid).ident
  let k := s.core i.core
  s.setCore i.core (k.setLatch (i.slot % 16) (lapsed gid sub (Tbl.get [] k.latch (i.slot % 16))))

/-- Lapse and setting of hold-latch entries at an issue (R56, R57). HOLD takes effect also where no quad is active; entries
that lapse at this issue are gone before the new one is counted; and entries stand by sub-group number, whatever becomes of
the sub-group. (DEDUCED, log 34) -/
def holdLatch (s : State) (c : Ctx) : State :=
  let g := c.g s
  let k := s.core g.ident.core
  let rod := g.ident.slot % 16
  let es := lapsed c.gid c.sub (Tbl.get [] k.latch rod)
  let o := match c.f.hold with | .none => Opd.zero | .a => c.f.a | .b => c.f.b | .c => c.f.c
  let es := match o with
    | .v n => if g.st n.val == .full then (es.drop (es.length - 2)) ++ [⟨c.gid, c.sub, n.val, 2⟩] else es
    | _ => es
  s.setCore g.ident.core (k.setLatch rod es)

/-- An instruction that did not complete has not issued: the latch of its rod stands as `s0` had it (R56). -/
def keepLatch (c : Ctx) (s0 s : State) : State :=
  let i := (c.g s0).ident
  s.setCore i.core ((s.core i.core).setLatch (i.slot % 16) (Tbl.get [] (s0.core i.core).latch (i.slot % 16)))

/-- A sub-group that cannot issue yields its turn to the next one of the order (R35), or the turn is blank.
(DEDUCED, log 30) -/
def notReady (s : State) : State :=
  match s.issue with
  | some ⟨.group gid _, x :: rest⟩ => { s with issue := some ⟨.group gid x, rest⟩ }
  | _ => { s with issue := none }

/-- The turn is over. -/
def endTurn (s : State) : State := { s with issue := none }

/-- The end of an instruction that completes: the sub-group has issued (R35), a WSKIP and a SLEEP that its group had for it
at its issue (`g0`) are used up, and its PC, unless the meaning set it, is at the next word. -/
def retire (c : Ctx) (jumped : Bool) (g0 : Group) (s : State) : State :=
  match Tbl.look s.groups c.gid with
  | none => endTurn s
  | some g =>
    let g := { g with
      lastSub := some c.sub
      wskipNow := if g0.wskipNow.contains c.sub then g.wskipNow.filter (· != c.sub) else g.wskipNow
      sleep := if (Tbl.look g0.sleep c.sub).isSome then Tbl.del g.sleep c.sub else g.sleep }
    endTurn (s.setGroup c.gid (if jumped then g else g.subPc c.sub (c.pc + BitVec.ofNat 64 c.len)))

/-- A trap of the instruction at `pc`, at its fetch or later. It has issued and counts for the hold latch (R56, R264), unless
its group is left not ready for want of a record (R266). (DEDUCED, log 34) -/
def trapIssue (s : State) (gid sub : Nat) (pc : W64) (len : Nat) (t : Trap) : State :=
  let u := takeTrap s gid sub pc len t
  endTurn (if (u.group gid).hang == .full then u else lapseLatch u gid sub)

/-- A trap of the instruction in issue. -/
def trapAt (c : Ctx) (s : State) (t : Trap) : State := trapIssue s c.gid c.sub c.pc c.len t

/-- The outcome of a group instruction: completion, a turn passed on, or a trap taken. `s0` is the state at issue.
(DEDUCED, log 54) -/
def settleGroup (c : Ctx) (jumped : Bool) (s0 : State) (r : Except Stop State) : State :=
  match r with
  | .ok s => retire c jumped (c.g s0) s
  | .error .wait => notReady s0
  | .error (.waitWith s) => notReady (keepLatch c s0 s)
  | .error (.trap t) => trapAt c s0 t
  | .error (.trapWith s t) => trapAt c (keepLatch c s0 s) t

/-- A fault of an operation whose group has ended is counted for its launch (R370). -/
def countDropped (s : State) (lid n : Nat) : State :=
  s.setM { s.m with droppedFaults := Tbl.put 0 s.m.droppedFaults lid (Tbl.get 0 s.m.droppedFaults lid + n) }

/-- An imprecise fault of an operation: the group's, or counted when the group has ended (R370). -/
def pushFault (s : State) (gid tid : Nat) (x : Fault1) : State :=
  match Tbl.look s.groups gid with
  | some g => s.setGroup gid { g with faults := g.faults ++ [x] }
  | none => countDropped s (s.team tid).lid 1

/-- The program of the running pass ends, and the beam core is free from now on (R153, R154, R162). -/
def Engine.endProgram (e : Engine) (now : Nat) : Engine :=
  { e with run := e.run.map fun r => { r with ended := true }, idleSince := now }

/-- A trap inside a pass ends the pass there, and its cause and TVAL wait for delivery to the posting group (R153). A
stage-2 fault is firmware's, and the beam core waits (R262). -/
def failPass (q : Nat) (t : Trap) (s : State) : State :=
  let e := s.engine q
  match e.run with
  | none => endTurn s
  | some r =>
    let core := r.pass.ident.core
    let page := page64 t.tval.toNat
    if t.stage2 then endTurn (reportEngine s core r.pass.ident.lid t.cause page t.w true)
    else
      let s := s.setEngine q (e.endProgram s.m.ftime)
      let s := if t.page.isSome then reportEngine s core r.pass.ident.lid t.cause page t.w false else s
      endTurn (pushFault s r.pass.gid r.pass.tid { cls := .mp, cause := t.cause, tval := t.tval, w := t.w, op := r.pass.seq })

/-- The end of a beam instruction that completes. -/
def retireBeam (q : Nat) (len : Nat) (jumped : Bool) (s : State) : State :=
  let e := s.engine q
  match e.run with
  | none => endTurn s
  | some r => endTurn (if jumped then s else s.setEngine q { e with run := some { r with pc := r.pc + BitVec.ofNat 64 len } })

/-- The outcome of a beam instruction. -/
def settleBeam (q len : Nat) (jumped : Bool) (s0 : State) (r : Except Stop State) : State :=
  match r with
  | .ok s => retireBeam q len jumped s
  | .error (.trap t) => failPass q t s0
  | .error (.trapWith s t) => failPass q t s
  | .error _ => endTurn s0

/-- Carries out a word: `grp` on a group core, `beam` on a beam core. -/
def issueBoth (i : Instr) (f : Fields) (jumped : Bool) (grp : Ctx → State → Except Stop State)
    (beam : Ctx → Nat → Run → State → Except Stop State) (s : State) : Host.Outcome State Fault Refusal :=
  match s.issue with
  | none => .fault .noIssuer
  | some ⟨.group gid sub, _⟩ =>
    let c : Ctx := ⟨i, f, gid, sub, ((s.group gid).sub sub).pc⟩
    .next (settleGroup c jumped s (grp c (holdLatch s c)))
  | some ⟨.beam q, _⟩ =>
    match (s.engine q).run with
    | none => .fault .noIssuer
    | some r =>
      let c : Ctx := ⟨i, f, r.pass.gid, 15, r.pc⟩
      .next (settleBeam q f.len.bytes jumped s (beam c q r s))

/-- An instruction that a beam core does not execute: ILLOP within the pass (R150). -/
def noBeam (c : Ctx) (_ : Nat) (_ : Run) (_ : State) : Except Stop State := illop c

/-- An M* word on a group core: ILLOP at decode (R150). -/
def noGroup (c : Ctx) (_ : State) : Except Stop State := illop c

/-- A word that only groups execute. -/
def issueGroup (i : Instr) (f : Fields) (grp : Ctx → State → Except Stop State) (s : State) :
    Host.Outcome State Fault Refusal := issueBoth i f false grp noBeam s

/-- PRIV in a group without privilege (R314): TVAL is OPC (R267). -/
def guardPriv (c : Ctx) (s : State) : Except Stop Unit :=
  let opc := match c.i.word? with | some (o, _, _) => o | none => 0
  guardN (s.launch (c.g s).ident.lid).priv Cause.priv opc

end Sys2Proof.Machine
end

