-- ==== Sys2Proof/Machine/Flags.lean ====
section
/-!
DEFINITION. The flag computations: the five sticky flags (R86), integer ranges and saturation (R87), the compare
relations (R373, R389) and the effective rounding mode (R82, R58).
-/

namespace Sys2Proof

/-- Integer formats (R87): whether signed, and the element's width. -/
def Tag.signed : Tag → Bool | .i32 | .i8 => true | _ => false
/-- Elements of a lane (R81). -/
def Tag.elems : Tag → Nat | .bf16 | .f16 => 2 | .i8 | .n8 | .bp8 => 4 | _ => 1
def Tag.width (t : Tag) : Nat := 32 / t.elems

namespace Machine

/-! The flags by bit (R86). -/

namespace Flag
def nv : BitVec 5 := 1
def of : BitVec 5 := 2
def uf : BitVec 5 := 4
def nx : BitVec 5 := 8
def sat : BitVec 5 := 16
end Flag

/-- A flag that is set when a condition holds. -/
def flagIf (b : Bool) (fl : BitVec 5) : BitVec 5 := if b then fl else 0

/-- The OR of a list of flag sets. -/
def orFlags (l : List (BitVec 5)) : BitVec 5 := l.foldl (· ||| ·) 0

/-- The bounds of an integer element of `w` bits (R87). -/
def intLo (signed : Bool) (w : Nat) : Int := if signed then -(2 ^ (w - 1) : Nat) else 0
def intHi (signed : Bool) (w : Nat) : Int := if signed then (2 ^ (w - 1) : Nat) - 1 else (2 ^ w : Nat) - 1

/-- An exact integer result brought into `w` bits: wrapped, or clamped with SAT (R87). -/
def narrow (sat signed : Bool) (w : Nat) (x : Int) : Nat × BitVec 5 :=
  if sat && decide (x < intLo signed w) then (ofInt w (intLo signed w), Flag.sat)
  else if sat && decide (intHi signed w < x) then (ofInt w (intHi signed w), Flag.sat)
  else (ofInt w x, 0)

/-- The integer an element's bits stand for. -/
def intOf (signed : Bool) (w n : Nat) : Int := if signed then toSigned w n else ((n % 2 ^ w : Nat) : Int)

/-- Relations of ICMP and FCMP. -/
inductive Cond where | eq | ne | lt | le | gt | ge | un
deriving DecidableEq, Repr

/-- An integer relation (R389). -/
def Cond.int (c : Cond) (x y : Int) : Bool :=
  match c with
  | .eq => decide (x = y) | .ne => decide (x ≠ y) | .lt => decide (x < y) | .le => decide (x ≤ y)
  | .gt => decide (y < x) | .ge => decide (y ≤ x) | .un => false

/-- Elements of a 32-bit lane, lowest first (R81). -/
def splitElems (t : Tag) (x : Nat) : List Nat := (List.range t.elems).map fun e => x / 2 ^ (e * t.width) % 2 ^ t.width
def joinElems (t : Tag) (l : List Nat) : Nat := (l.zipIdx).foldl (fun r (x, e) => r + x % 2 ^ t.width * 2 ^ (e * t.width)) 0

/-- The rounding mode in force (R82): an RM of 00 gives FMODE.DRM when FMODE.DYN = 1. -/
def effRm (fmode : BitVec 4) (rm : RM) : RM :=
  if rm == .rne && fmode.getLsbD 2 then
    match fmode.getLsbD 1, fmode.getLsbD 0 with
    | false, false => .rne | false, true => .rz | true, false => .ru | true, true => .rd
  else rm

/-- FMODE.FZ16 (R58). -/
def fz16 (fmode : BitVec 4) : Bool := fmode.getLsbD 3

end Machine

end Sys2Proof
end

