-- ==== Sys2Proof/Machine/Float.lean ====
section
/-!
DEFINITION. Floating-point arithmetic (R80 to R89): exact values, one rounding, and the fixed algorithms of the
reciprocal, root, exponential and logarithm (R376, R377, R380 to R382).
-/

namespace Sys2Proof

namespace Machine

/-- A binary interchange format (R80): exponent and fraction bits. -/
structure FFmt where
  eb : Nat
  fb : Nat
deriving DecidableEq, Repr

namespace FFmt
def f32 : FFmt := ⟨8, 23⟩
def bf16 : FFmt := ⟨8, 7⟩
def f16 : FFmt := ⟨5, 10⟩
def bias (F : FFmt) : Int := 2 ^ (F.eb - 1) - 1
def width (F : FFmt) : Nat := 1 + F.eb + F.fb
def expMax (F : FFmt) : Nat := 2 ^ F.eb - 1
def inf (F : FFmt) (neg : Bool) : Nat := (if neg then 2 ^ (F.eb + F.fb) else 0) + F.expMax * 2 ^ F.fb
/-- The default NaN (R84). -/
def dnan (F : FFmt) : Nat := F.inf false + 2 ^ (F.fb - 1)
def zero (F : FFmt) (neg : Bool) : Nat := if neg then 2 ^ (F.eb + F.fb) else 0
def maxFin (F : FFmt) (neg : Bool) : Nat := F.inf neg - 1
end FFmt

end Machine

/-- The floating format of a tag. -/
def Tag.ffmt : Tag → Machine.FFmt | .bf16 => .bf16 | .f16 => .f16 | _ => .f32

namespace Machine

/-- An exact value: a NaN (signalling, or the result of an invalid operation, when marked), an infinity, a signed zero,
or m × 2^e with m ≠ 0. -/
inductive FV where
  | nan (sig : Bool) | inf (neg : Bool) | zero (neg : Bool) | fin (m : Int) (e : Int)
deriving DecidableEq, Repr

/-- The value of an encoding (R80). -/
def FFmt.read (F : FFmt) (x : Nat) : FV :=
  let fr := x % 2 ^ F.fb
  let ex := x / 2 ^ F.fb % 2 ^ F.eb
  let neg := x / 2 ^ (F.eb + F.fb) % 2 == 1
  let sgn := fun (m : Nat) => if neg then -(m : Int) else (m : Int)
  if ex = F.expMax then (if fr = 0 then .inf neg else .nan (decide (fr < 2 ^ (F.fb - 1))))
  else if ex = 0 then (if fr = 0 then .zero neg else .fin (sgn fr) (1 - F.bias - F.fb))
  else .fin (sgn (fr + 2 ^ F.fb)) (ex - F.bias - F.fb)

/-- Whether a magnitude rounds away from zero: `half` compares the discarded part with one half. -/
def roundUp (rm : RM) (neg odd : Bool) (half : Ordering) (exact : Bool) : Bool :=
  match rm with
  | .rne => half == .gt || (half == .eq && odd)
  | .rz => false
  | .ru => !exact && !neg
  | .rd => !exact && neg

/-- |m| × 2^e at the unit 2^q: the rounded multiple, and whether it is exact. -/
def roundAt (rm : RM) (neg : Bool) (m : Nat) (e q : Int) : Nat × Bool :=
  if q ≤ e then (m * 2 ^ (e - q).toNat, true)
  else
    let d := (q - e).toNat
    let lo := m / 2 ^ d
    let r := m % 2 ^ d
    let exact := r == 0
    (lo + (if roundUp rm neg (lo % 2 == 1) (compare (2 * r) (2 ^ d)) exact then 1 else 0), exact)

/-- One rounding of m × 2^e, m ≠ 0, into a format, with its flags (R82, R83). -/
def FFmt.roundFin (F : FFmt) (rm : RM) (m e : Int) : Nat × BitVec 5 :=
  let neg := decide (m < 0)
  let a := m.natAbs
  let top : Int := (Nat.log2 a : Int) + e
  let emin : Int := 1 - F.bias
  let q : Int := max (top - F.fb) (emin - F.fb)
  let (r, exact) := roundAt rm neg a e q
  let sgn := F.zero neg
  let free := roundAt rm neg a e (top - F.fb)
  let tiny := decide (top < emin) && !(decide (top = emin - 1) && free.1 == 2 ^ (F.fb + 1))
  let fl := flagIf (!exact) Flag.nx ||| flagIf (tiny && !exact) Flag.uf
  let (r, q) := if r = 2 ^ (F.fb + 1) then (2 ^ F.fb, q + 1) else (r, q)
  if r < 2 ^ F.fb then (sgn + r, fl)
  else
    let ex := (q + F.fb + F.bias).toNat
    if ex < F.expMax then (sgn + ex * 2 ^ F.fb + (r - 2 ^ F.fb), fl)
    else
      let toInf := match rm with | .rne => true | .rz => false | .ru => !neg | .rd => neg
      (if toInf then F.inf neg else F.maxFin neg, Flag.of ||| Flag.nx)

/-- One rounding of an exact value (R82 to R85). -/
def FFmt.round (F : FFmt) (rm : RM) (v : FV) : Nat × BitVec 5 :=
  match v with
  | .nan sig => (F.dnan, flagIf sig Flag.nv)
  | .inf neg => (F.inf neg, 0)
  | .zero neg => (F.zero neg, 0)
  | .fin m e => F.roundFin rm m e

namespace FV

def isNan : FV → Bool | .nan _ => true | _ => false
def sig : FV → Bool | .nan s => s | _ => false
def isInf : FV → Bool | .inf _ => true | _ => false
def isZero : FV → Bool | .zero _ => true | _ => false
def neg : FV → Bool
  | .nan _ => false | .inf n => n | .zero n => n | .fin m _ => decide (m < 0)

/-- Exact negation of a value. -/
def negate : FV → FV
  | .nan s => .nan s | .inf n => .inf (!n) | .zero n => .zero (!n) | .fin m e => .fin (-m) e

def sgn (minus : Bool) (x : FV) : FV := if minus then x.negate else x

/-- An exact product (R84, R85). -/
def mul (x y : FV) : FV :=
  if x.isNan || y.isNan then .nan (x.sig || y.sig)
  else match x, y with
    | .fin m e, .fin n f => .fin (m * n) (e + f)
    | _, _ =>
      let s := x.neg != y.neg
      if x.isInf || y.isInf then (if x.isZero || y.isZero then .nan true else .inf s) else .zero s

/-- The sum of two finite terms m × 2^e. -/
def sumFin (zneg : Bool) (m e n f : Int) : FV :=
  let q := min e f
  let s := m * 2 ^ (e - q).toNat + n * 2 ^ (f - q).toNat
  if s = 0 then .zero zneg else .fin s q

/-- An exact sum; `rm` gives the sign of a zero (R84, R85). -/
def add (rm : RM) (x y : FV) : FV :=
  if x.isNan || y.isNan then .nan (x.sig || y.sig)
  else match x, y with
    | .inf a, .inf b => if a == b then .inf a else .nan true
    | .inf a, _ => .inf a
    | _, .inf b => .inf b
    | .zero a, .zero b => .zero (if a == b then a else rm == .rd)
    | .zero _, y => y
    | x, .zero _ => x
    | .fin m e, .fin n f => sumFin (rm == .rd) m e n f
    | x, _ => x

/-- x × y + z (R84: a signalling or invalid term makes the whole invalid). -/
def fma (rm : RM) (x y z : FV) : FV := add rm (mul x y) z

/-- Order of two values that are no NaN, −0 = +0. -/
def cmp (x y : FV) : Ordering :=
  let key : FV → Int × Int := fun v => match v with
    | .inf n => (if n then -1 else 1, 0) | _ => (0, 0)
  let (a, b) := ((key x).1, (key y).1)
  if a != b then compare a b
  else match x, y with
    | .fin m e, .fin n f =>
      let q := min e f
      compare (m * 2 ^ (e - q).toNat) (n * 2 ^ (f - q).toNat)
    | .fin m _, _ => if a != 0 then .eq else compare m 0
    | _, .fin n _ => if a != 0 then .eq else compare 0 n
    | _, _ => .eq

end FV

/-! ### Lane operations on encodings -/

namespace FFmt
variable (F : FFmt)

def add (rm : RM) (x y : Nat) : Nat × BitVec 5 := F.round rm (.add rm (F.read x) (F.read y))
def sub (rm : RM) (x y : Nat) : Nat × BitVec 5 := F.round rm (.add rm (F.read x) (F.read y).negate)
def mul (rm : RM) (x y : Nat) : Nat × BitVec 5 := F.round rm (.mul (F.read x) (F.read y))

/-- rm(±x·y ± z), one rounding (R378). -/
def fma (rm : RM) (mp mc : Bool) (x y z : Nat) : Nat × BitVec 5 :=
  F.round rm (.fma rm ((F.read x).sgn mp) (F.read y) ((F.read z).sgn mc))

/-- Minimum and maximum (R89): −0 below +0, one NaN ignored. -/
def minmax (mx : Bool) (x y : Nat) : Nat × BitVec 5 :=
  let a := F.read x
  let b := F.read y
  let fl := flagIf (a.sig || b.sig) Flag.nv
  let less := match FV.cmp a b with
    | .lt => true | .gt => false
    | .eq => a.neg && !b.neg
  let r := if a.isNan && b.isNan then F.dnan else if a.isNan then y else if b.isNan then x
    else if less != mx then x else y
  (r, fl)

/-- A relation (R373) and its NV flag. -/
def compare (c : Cond) (x y : Nat) : Bool × BitVec 5 :=
  let a := F.read x
  let b := F.read y
  let un := a.isNan || b.isNan
  let o := FV.cmp a b
  let bit := match c with
    | .eq => !un && o == .eq | .ne => un || o != .eq | .un => un
    | .lt => !un && o == .lt | .le => !un && o != .gt | .gt => !un && o == .gt | .ge => !un && o != .lt
  let ordered := match c with | .lt | .le | .gt | .ge => true | _ => false
  (bit, flagIf (a.sig || b.sig || (un && ordered)) Flag.nv)

/-- The class bit of a value (R372). -/
def cls (x : Nat) : Nat :=
  let sub := x / 2 ^ F.fb % 2 ^ F.eb == 0
  match F.read x with
  | .inf true => 0 | .zero true => 3 | .zero false => 4 | .inf false => 7
  | .nan sig => if sig then 8 else 9
  | .fin m _ => if m < 0 then (if sub then 2 else 1) else (if sub then 5 else 6)

end FFmt

/-! ### Square root, and the fixed algorithms -/

/-- One Newton step of the integer square root. -/
def isqrtGo (n : Nat) : Nat → Nat → Nat
  | 0, x => x
  | k + 1, x =>
    let y := (x + n / x) / 2
    if y < x then isqrtGo n k y else x

/-- Integer square root, rounded down. -/
def isqrt (n : Nat) : Nat := if n = 0 then 0 else isqrtGo n (n.log2 + 2) (2 ^ (n.log2 / 2 + 1))

/-- The value of FP32 bits. -/
def r32 (x : Nat) : FV := FFmt.f32.read x

/-- An exact value rounded to FP32 by RNE, as a value: the rne() of the algorithms. -/
def rne32 (v : FV) : FV := r32 (FFmt.f32.round .rne v).1

/-- 2^e times a value. -/
def FV.scale (v : FV) (k : Int) : FV := match v with | .fin m e => .fin m (e + k) | v => v

def fvInt (n : Int) : FV := if n = 0 then .zero false else .fin n 0

/-- Exponent and significand of m ≠ 0: |x| = (significand / 2^log) × 2^exponent with 1 ≤ significand / 2^log < 2. -/
def split1 (m e : Int) : Nat × Nat × Int := (m.natAbs, m.natAbs.log2, m.natAbs.log2 + e)

/-- FRCP (R380). -/
def frcp (rm : RM) (x : Nat) : Nat × BitVec 5 :=
  match r32 x with
  | .nan s => (FFmt.f32.dnan, flagIf s Flag.nv)
  | .zero n => (FFmt.f32.inf n, 0)
  | .inf n => (FFmt.f32.zero n, 0)
  | .fin m e =>
    let (a, lg, ex) := split1 m e
    let j := (a - 2 ^ lg) * 128 / 2 ^ lg
    let y0 : FV := .fin ((2 * 131072 + (257 + 2 * j)) / (2 * (257 + 2 * j)) : Nat) (-9)
    let mv : FV := .fin (-(a : Int)) (-lg)
    let one : FV := .fin 1 0
    let e1 := rne32 (.fma .rne mv y0 one)
    let y1 := rne32 (.fma .rne y0 e1 y0)
    let e2 := rne32 (.fma .rne mv y1 one)
    let v := (FV.fma .rne y1 e2 y1).scale (-ex)
    let (r, fl) := FFmt.f32.round rm v
    (if m < 0 then 2 ^ 31 + r else r, fl)

/-- FRSQ (R381). -/
def frsq (rm : RM) (x : Nat) : Nat × BitVec 5 :=
  match r32 x with
  | .nan s => (FFmt.f32.dnan, flagIf s Flag.nv)
  | .zero n => (FFmt.f32.inf n, 0)
  | .inf n => if n then (FFmt.f32.dnan, Flag.nv) else (0, 0)
  | .fin m e =>
    if m < 0 then (FFmt.f32.dnan, Flag.nv)
    else
      let (a, lg, ex) := split1 m e
      -- m = a / 2^lg, doubled when the exponent is odd
      let odd := ex % 2 != 0
      let a := if odd then 2 * a else a
      let ex := if odd then ex - 1 else ex
      let j := (a - 2 ^ lg) * 32 / 2 ^ lg
      let y0 : FV := .fin ((isqrt (4 * 4096 * 4096 / (65 + 2 * j)) + 1) / 2 : Nat) (-9)
      let mv : FV := .fin (-(a : Int)) (-lg)
      let one : FV := .fin 1 0
      let half : FV := .fin 1 (-1)
      let d := rne32 (.fma .rne mv (rne32 (.mul y0 y0)) one)
      let y1 := rne32 (.fma .rne (rne32 (.mul half y0)) d y0)
      let d := rne32 (.fma .rne mv (rne32 (.mul y1 y1)) one)
      FFmt.f32.round rm ((FV.add .rne y1 (.mul (.mul half y1) d)).scale (-(ex / 2)))

/-- FSQRT (R382): correctly rounded, with a sticky bit below the integer root. -/
def fsqrt (rm : RM) (x : Nat) : Nat × BitVec 5 :=
  match r32 x with
  | .nan s => (FFmt.f32.dnan, flagIf s Flag.nv)
  | .zero n => (FFmt.f32.zero n, 0)
  | .inf n => if n then (FFmt.f32.dnan, Flag.nv) else (FFmt.f32.inf false, 0)
  | .fin m e =>
    if m < 0 then (FFmt.f32.dnan, Flag.nv)
    else
      let k : Nat := if e % 2 = 0 then 64 else 65
      let n := m.toNat * 2 ^ k
      let q := isqrt n
      let st : Nat := if q * q = n then 0 else 1
      FFmt.f32.round rm (.fin (2 * q + st : Nat) ((e - k) / 2 - 1))

/-- Entry j of a packed table of FP32 words. -/
def tab32 (t j : Nat) : Nat := t / 2 ^ (32 * j) % 2 ^ 32

/-- T[j] = rne(2^(j/64)), j = 0..63 (R376). -/
def expT : Nat := 0x3FFD3E0C3FFA83B33FF7D0DF3FF5257D3FF281773FEFE4BA3FED4F303FEAC0C73FE8396A3FE5B9073FE33F893FE0CCDF3FDE60F53FDBFBB83FD99D163FD744FD3FD4F35B3FD2A81E3FD063343FCE248C3FCBEC153FC9B9BE3FC78D753FC5672A3FC346CD3FC12C4D3FBF179A3FBD08A43FBAFF5B3FB8FBAF3FB6FD923FB504F33FB311C43FB123F63FAF3B793FAD583F3FAB7A3A3FA9A15B3FA7CD943FA5FED73FA435163FA270433FA0B0513F9EF5323F9D3EDA3F9B8D3A3F99E0463F9837F03F96942D3F94F4F03F935A2B3F91C3D33F9031DC3F8EA43A3F8D1ADF3F8B95C23F8A14D53F88980F3F871F623F85AAC33F843A293F82CD873F8164D23F800000
/-- R[j] of R376, j = 0..95. -/
def logR : Nat := 0x3F2B1CBE3F2C02B03F2CEB103F2DD5E63F2EC33E3F2FB3223F30A59B3F319AB63F32927C3F338CFA3F348A3A3F358A483F368D313F3793013F389BC33F39A7863F3AB6563F3BC8413F3CDD533F3DF59D3F3F112B3F40300C3F4152503F4278063F43A13E3F44CE083F45FE743F4732943F486A793F49A6343F4AE5D83F4C29783F4D71273F4EBCF93F500D013F5161543F52BA083F5417333F5578E93F56DF443F584A5A3F59BA423F5B2F173F5CA8F13F5E27EB3F5FAC1F3F6135AA3F62C4A73F6459333F65F36D3F6793733F6939653F6AE5643F6C97913F6E500F3F700F013F71D48C3F73A0D53F7574043F774E403F792FB23F7B18853F7D08E53F8000003F8000003F81848E3F828CC03F8399303F84A9FA3F85BF373F86D9053F87F7813F891AC73F8A42F83F8B70343F8CA29C3F8DDA523F8F177A3F905A383F91A2B43F92F1143F9445813F95A0253F97012E3F9868C83F99D7233F9B4C703F9CC8E13F9E4CAD3F9FD80A3FA16B313FA3065E3FA4A9CF3FA655C43FA80A813FA9C84A
/-- L[j] of R376, j = 0..95. -/
def logL : Nat := 0x3F14C98F3F12DA8B3F10E8EA3F0EF4A93F0CFDBE3F0B04213F0907CF3F0708BB3F0506E23F0302383F00FAB93EFDE0B73EF9C62C3EF5A5C13EF17F6C3EED53123EE920A63EE4E8163EE0A9553EDC64453ED818DE3ED3C70A3ECF6EB43ECB0FC83EC6AA333EC23DE03EBDCABD3EB950B13EB4CFA83EB0478E3EABB84A3EA721C63EA283E93E9DDE9C3E9931CA3E947D5B3E8FC1313E8AFD323E86314D3E815D5D3E7902973E6F3A013E6560B33E5B767B3E517B1A3E476E5A3E3D4FF53E331FB53E28DD5C3E1E88A13E14214A3E09A70E3DFE33513DE8F1A83DD3888E3DBDF7743DA83DBF3D925ADE3D789C483D4C2DF83D1F69883CE49B303C89B1970000000000000000BC8B512EBCE91D95BD23D4F5BD537CEBBD81C3EFBD99FBE1BDB2671EBDCB0653BDE3DA8BBDFCE4A9BE0B12C9BE17CF19BE24A7C5BE319D42BE3EB027BE4BE0EABE593016BE669E35BE742BEABE80ECDEBE87D425BE8ECC18BE95D504BE9CEF46BEA41B2FBEAB5916BEB2A959BEBA0C56BEC1826CBEC90C02BED0A977

/-- FEXP2 (R376). An argument beyond ±300 is clamped there, where every mode gives the same result and flags. -/
def fexp2 (rm : RM) (x : Nat) : Nat × BitVec 5 :=
  match r32 x with
  | .nan s => (FFmt.f32.dnan, flagIf s Flag.nv)
  | .inf n => (if n then 0 else FFmt.f32.inf false, 0)
  | .zero _ => (0x3F800000, 0)
  | .fin m e =>
    -- floor(x) and the fraction x - floor(x) = fn / 2^k
    let k := (-e).toNat
    let num : Int := m * 2 ^ e.toNat
    let i := num / (2 ^ k : Nat)
    let fn := (num % (2 ^ k : Nat)).toNat
    let j := 64 * fn / 2 ^ k
    let rn := 64 * fn % 2 ^ k
    let r : FV := if rn = 0 then .zero false else .fin rn (-(k : Int) - 6)
    let u := rne32 (.fma .rne (r32 0x3D635847) r (r32 0x3E75FDF0))
    let u := rne32 (.fma .rne u r (r32 0x3F317218))
    let q := rne32 (.mul u r)
    let t := r32 (tab32 expT j)
    let i := max (-300) (min 300 i)
    let (y, fl) := FFmt.f32.round rm ((FV.add .rne t (.mul t q)).scale i)
    (y, fl ||| flagIf (fn != 0) Flag.nx)

/-- FLOG2 (R377). -/
def flog2 (rm : RM) (x : Nat) : Nat × BitVec 5 :=
  match r32 x with
  | .nan s => (FFmt.f32.dnan, flagIf s Flag.nv)
  | .zero _ => (FFmt.f32.inf true, 0)
  | .inf n => if n then (FFmt.f32.dnan, Flag.nv) else (FFmt.f32.inf false, 0)
  | .fin m e =>
    if m < 0 then (FFmt.f32.dnan, Flag.nv)
    else
      let (a, lg, ex) := split1 m e
      let big := decide (3 * 2 ^ lg ≤ 2 * a)
      -- m = a / 2^lg1
      let lg1 := if big then lg + 1 else lg
      let ex := if big then ex + 1 else ex
      let j := (4 * a - 3 * 2 ^ lg1) * 32 / 2 ^ lg1
      let z := rne32 (.fma .rne (.fin a (-lg1)) (r32 (tab32 logR j)) (.fin (-1) 0))
      let u := rne32 (.fma .rne (r32 0xBEB8AA3B) z (r32 0x3EF6384F))
      let u := rne32 (.fma .rne u z (r32 0xBF38AA3B))
      let u := rne32 (.fma .rne u z (r32 0x3FB8AA3B))
      let p := rne32 (.mul u z)
      let v := FV.add .rne (FV.add .rne (fvInt ex) (r32 (tab32 logL j))) p
      let (y, _) := FFmt.f32.round rm v
      (y, flagIf (a != 2 ^ lg) Flag.nx)

/-! ### Conversions (R88) -/

/-- A float rounded into a format of fewer bits, with SAT (R88). -/
def FFmt.narrowSat (F : FFmt) (rm : RM) (sat : Bool) (v : FV) : Nat × BitVec 5 :=
  let (r, fl) := F.round rm v
  if sat && !v.isInf && (r == F.inf false || r == F.inf true) then (F.maxFin v.neg, fl ||| Flag.sat) else (r, fl)

/-- A finite value rounded to an integer by a mode, and whether that is exact. -/
def roundInt (rm : RM) (m e : Int) : Int × Bool :=
  let (r, exact) := roundAt rm (decide (m < 0)) m.natAbs e 0
  (if m < 0 then -(r : Int) else r, exact)

/-- A float to an integer of `w` bits (R88). -/
def toInt (rm : RM) (sat signed : Bool) (w : Nat) (v : FV) : Nat × BitVec 5 :=
  let out := fun (neg : Bool) =>
    if sat then (ofInt w (if neg then intLo signed w else intHi signed w), Flag.sat)
    else (if signed then 2 ^ (w - 1) else 0, Flag.nv)
  match v with
  | .nan _ => (0, Flag.nv)
  | .inf neg => out neg
  | .zero _ => (0, 0)
  | .fin m e =>
    let (r, exact) := roundInt rm m e
    if r < intLo signed w then out true else if intHi signed w < r then out false
    else (ofInt w r, flagIf (!exact) Flag.nx)

end Machine

end Sys2Proof
end

