-- ==== Sys2Proof/Machine/Formats.lean ====
section
/-!
DEFINITION. Conversions of elements (R88, R360), BP8 (R90 to R92), BPB (R93 to R96), the dot rule (R97) and the pairwise
tree (R98).
-/

namespace Sys2Proof.Machine

/-! ### BP8 -/

def bp8E1 (q : Nat) : Nat := q / 16 % 8
def bp8E2 (q : Nat) : Nat := q % 8

/-- The integer weight w_int = 128 × value of a BP8 byte (R90, R91). -/
def bp8W (q : Nat) : Int :=
  let t := fun (s e : Nat) => if s = 1 then -((2 ^ (7 - e) : Nat) : Int) else ((2 ^ (7 - e) : Nat) : Int)
  t (q / 128 % 2) (bp8E1 q) + t (q / 8 % 2) (bp8E2 q)

/-- The exact value of a BP8 byte. -/
def bp8Val (q : Nat) : FV := if bp8W q = 0 then .zero false else .fin (bp8W q) (-7)

/-- The key of R92 as one number: distance, E1, E2, S1. `num` × 2^q is the value sought, q ≤ -7. -/
def bp8Key (num : Int) (q : Int) (b : Nat) : Nat :=
  (bp8W b * 2 ^ (-7 - q).toNat - num).natAbs * 128 + bp8E1 b * 16 + bp8E2 b * 2 + b / 128

/-- The byte of least key among 256 (R92). -/
def bp8Best (num q : Int) : Nat :=
  (List.range 256).foldl (fun best b => if bp8Key num q b < bp8Key num q best then b else best) 0

/-- The conversion of a real value to BP8 (R92). -/
def toBp8 (v : FV) : Nat × BitVec 5 :=
  match v with
  | .nan _ => (0x08, Flag.nv)
  | .inf neg => (if neg then 0x88 else 0x00, Flag.sat ||| Flag.nx)
  | .zero _ => (0x08, 0)
  | .fin m e =>
    let q := min e (-7)
    let num := m * 2 ^ (e - q).toNat
    let two : Int := 2 ^ (1 - q).toNat
    if num > two then (0x00, Flag.sat ||| Flag.nx)
    else if num < -two then (0x88, Flag.sat ||| Flag.nx)
    else
      let b := bp8Best num q
      (b, flagIf (decide (bp8W b * 2 ^ (-7 - q).toNat ≠ num)) Flag.nx)

/-! ### Conversions -/

/-- FMODE.FZ16 on a rounded FP16 result (R58): a subnormal becomes zero of its sign, with UF and NX. -/
def flush16 (on : Bool) (r : Nat × BitVec 5) : Nat × BitVec 5 :=
  if on && decide (r.1 % 0x8000 ≠ 0) && decide (r.1 % 0x8000 < 0x400) then (r.1 / 0x8000 * 0x8000, r.2 ||| Flag.uf ||| Flag.nx)
  else r

/-- A value, from another format, as an element of format `dst` (R88, R360). -/
def convVal (dst : Tag) (rm : RM) (fz sat : Bool) (v : FV) : Nat × BitVec 5 :=
  match dst with
  | .i32 => toInt rm sat true 32 v
  | .n32 => toInt rm sat false 32 v
  | .i8 => toInt rm sat true 8 v
  | .n8 => toInt rm sat false 8 v
  | .bp8 => toBp8 v
  | .f16 => flush16 fz (FFmt.f16.narrowSat rm sat v)
  | t => t.ffmt.narrowSat rm sat v

/-- conv() of R360 on one element. -/
def conv (src dst : Tag) (rm : RM) (fz sat : Bool) (x : Nat) : Nat × BitVec 5 :=
  match src with
  | .i32 | .n32 | .i8 | .n8 =>
    let n := intOf src.signed src.width x
    match dst with
    | .i32 | .n32 | .i8 | .n8 =>
      if src = dst then (x % 2 ^ dst.width, 0) else narrow sat dst.signed dst.width n
    | .bp8 => toBp8 (fvInt n)
    | .f16 => flush16 fz (FFmt.f16.round rm (fvInt n))
    | t => t.ffmt.round rm (fvInt n)
  | .bp8 => convVal dst rm fz sat (bp8Val x)
  | t =>
    let v := t.ffmt.read x
    if src = dst then (if v.sig then (t.ffmt.dnan, Flag.nv) else (x % 2 ^ dst.width, 0))
    else convVal dst rm fz sat v

/-! ### BPB -/

/-- An element of a BPB block (R93) from its BP8 byte, E8 and micro-exponent bit. -/
def bpbVal (byte e8 : Nat) (m : Bool) : FV :=
  if e8 = 255 then .nan false else if e8 = 0 then .zero false
  else (bp8Val byte).scale ((e8 : Int) - 127 - (if m then 1 else 0))

/-- Element (i, j) of a tile image (R94). -/
def bpbElem (img : List Byte) (i j : Nat) : FV :=
  let at' := fun (k : Nat) => ((img[k]?).getD 0).toNat
  let blk := 2 * i + j / 16
  bpbVal (at' (32 * i + j)) (at' (1024 + 2 * blk)) (at' (1025 + 2 * blk) / 2 ^ (j % 16 / 2) % 2 == 1)

/-- Whether |v| × 2^k is at most 1. -/
def leOne (v : FV) (k : Int) : Bool :=
  match v with
  | .fin m e => let x := e + k
    if 0 ≤ x then decide (m.natAbs * 2 ^ x.toNat ≤ 1) else decide (m.natAbs ≤ 2 ^ (-x).toNat)
  | .zero _ => true
  | _ => false

/-- ⌈log2 |v|⌉ of a nonzero finite value. -/
def ceilLog2 (v : FV) : Int :=
  match v with
  | .fin m e => (m.natAbs.log2 : Int) + e + (if 2 ^ m.natAbs.log2 = m.natAbs then 0 else 1)
  | _ => 0

/-- The larger magnitude's ⌈log2⌉ over a block's nonzero values, none if all are zero. ⌈log2⌉ is monotone, so this is
the ⌈log2⌉ of amax. -/
def ceilMax (xs : List FV) : Option Int :=
  xs.foldl (fun r v => if v.isZero then r else match r with
    | none => some (ceilLog2 v) | some a => some (max a (ceilLog2 v))) none

/-- One block quantised (R95): sixteen element bytes, E8, the micro byte and flags. -/
def bpqBlock (xs : List FV) : List Nat × Nat × Nat × BitVec 5 :=
  if xs.any fun v => v.isNan || v.isInf then (List.replicate 16 0x08, 0xFF, 0, Flag.nv)
  else match ceilMax xs with
    | none => (List.replicate 16 0x08, 0, 0, 0)
    | some c =>
      let e : Int := max 1 (min 254 (c + 126))
      let k := 127 - e
      let bits := (List.range 8).map fun p => leOne ((xs[2 * p]?).getD (.zero false)) k && leOne ((xs[2 * p + 1]?).getD (.zero false)) k
      let els := (xs.zipIdx).map fun (v, n) => toBp8 (v.scale (k + if (bits[n / 2]?).getD false then 1 else 0))
      let micro := (bits.zipIdx).foldl (fun r (b, p) => r + if b then 2 ^ p else 0) 0
      (els.map (·.1), e.toNat, micro, orFlags (els.map (·.2)))

/-- A 32 × 32 tile quantised to its 1152-byte image (R94, R95). -/
def bpqTile (x : Nat → Nat → FV) : List Byte × BitVec 5 :=
  let blocks := (List.range 64).map fun j => bpqBlock ((List.range 16).map fun n => x (j / 2) (16 * (j % 2) + n))
  let els := blocks.flatMap fun (e, _, _, _) => e.map (BitVec.ofNat 8)
  let ex := blocks.flatMap fun (_, e8, m, _) => [BitVec.ofNat 8 e8, BitVec.ofNat 8 m]
  (els ++ ex, orFlags (blocks.map fun (_, _, _, fl) => fl))

/-! ### The dot rule -/

/-- ⌊log2 |t|⌋ of a nonzero finite term. -/
def floorLog2 (v : FV) : Int := match v with | .fin m e => (m.natAbs.log2 : Int) + e | _ => 0

/-- t / 2^u truncated toward zero, and whether that is exact. -/
def truncAt (v : FV) (u : Int) : Int × Bool :=
  match v with
  | .fin m e =>
    if u ≤ e then (m * 2 ^ (e - u).toNat, true)
    else
      let d : Nat := 2 ^ (u - e).toNat
      let q := m.natAbs / d
      (if m < 0 then -(q : Int) else q, m.natAbs % d == 0)
  | _ => (0, true)

/-- The update of one output element (R97) from the accumulator's value and the products. -/
def dotRule (c : FV) (ps : List FV) : Nat × BitVec 5 :=
  let ts := c :: ps
  let pinf := ts.any fun t => t == .inf false
  let ninf := ts.any fun t => t == .inf true
  if (ts.any FV.isNan) || (pinf && ninf) then (FFmt.f32.dnan, Flag.nv)
  else if pinf || ninf then (FFmt.f32.inf ninf, 0)
  else
    let nz := ts.filter fun t => !t.isZero
    match nz with
    | [] => (FFmt.f32.zero (ts.all fun t => t == .zero true), 0)
    | t :: rest =>
      let u := rest.foldl (fun m t => max m (floorLog2 t)) (floorLog2 t) - 60
      let qs := nz.map fun t => truncAt t u
      let sum := qs.foldl (fun s q => s + q.1) (0 : Int)
      let lost := flagIf (qs.any fun q => !q.2) Flag.nx
      if sum = 0 then (0, lost)
      else let (r, fl) := FFmt.f32.roundFin .rne sum u; (r, fl ||| lost)

/-! ### The pairwise tree -/

/-- One level of the tree (R98). -/
def treeLevel {α : Type} (f : α → α → α) : List α → List α
  | a :: b :: l => f a b :: treeLevel f l
  | l => l

def treeGo {α : Type} (f : α → α → α) : Nat → List α → Option α
  | _, [] => none
  | _, [a] => some a
  | 0, _ => none
  | n + 1, l => treeGo f n (treeLevel f l)

/-- The pairwise tree over a list (R98); nothing for the empty list. -/
def tree {α : Type} (f : α → α → α) (l : List α) : Option α := treeGo f l.length l

/-- A combination of values that carry their flags. -/
def withFlags (f : Nat → Nat → Nat × BitVec 5) (x y : Nat × BitVec 5) : Nat × BitVec 5 :=
  let (r, fl) := f x.1 y.1
  (r, fl ||| x.2 ||| y.2)

end Sys2Proof.Machine
end

