-- ==== Sys2Proof/Machine/Translate.lean ====
section
/-!
DEFINITION. Addresses and places: two-stage translation (R260 to R263), scratchpad addresses (R166), policy operands
(R169), the deterministic-mode and watchpoint checks (R256, R278), and the performing of one access at its place with
its times (R207 to R210, R174, R175, R219, R279, R293).
-/

namespace Sys2Proof.Machine

def bitsN (x lo n : Nat) : Nat := x / 2 ^ lo % 2 ^ n
def bitN (x k : Nat) : Bool := x / 2 ^ k % 2 == 1

/-- How a translation fails (R262): at stage 1 the tenant sees it, at stage 2 it goes to firmware. -/
inductive XFault where | page | prot | page2 | prot2
deriving DecidableEq, Repr

/-- A stage-2 leaf that covers an intermediate address. -/
structure Leaf2 where
  base : Nat
  size : Nat
  final : Nat
  remote : Bool
  w : Bool
  x : Bool
deriving DecidableEq, Repr

/-- The stage-2 walk from level `l - 1` down (R260, R261). `none`: invalid or malformed. -/
def walk2 (m : Mem) (self ia : Nat) : Nat → Nat → Option Leaf2
  | 0, _ => none
  | l + 1, table =>
    let size := 2 ^ (16 + 9 * l)
    let e := m.num (table + 8 * (ia / size % 512)) 8
    let addr := bitsN e 16 36 * 65536
    if !bitN e 0 || bitsN e 62 2 != 0 || bitsN e 9 7 != 0 || bitsN e 4 3 != 0 then none
    else if bitN e 1 then
      let rem := bitN e 8
      let modno := bitsN e 52 10
      if 2 ≤ l || (l == 1 && bitsN e 16 9 != 0) then none
      else if rem && (bitsN e 46 6 != 0 || 640 ≤ modno || modno == self) then none
      else if !rem && 2 ^ 41 < addr + size then none
      else some ⟨ia - ia % size, size, if rem then modno * 2 ^ 46 + addr else addr, rem, bitN e 2, bitN e 3⟩
    else if l == 0 then none else walk2 m self ia l addr

/-- A stage-1 leaf that covers a virtual address. -/
structure Leaf1 where
  base : Nat
  size : Nat
  ia : Nat
  w : Bool
  x : Bool
  root : Bool
  ns : Nat

/-- The stage-1 walk: its table addresses are intermediate and translated by stage 2 (R260, R261). (DEDUCED, log 48) -/
def walk1 (m : Mem) (self root2 va : Nat) : Nat → Nat → Except XFault Leaf1
  | 0, _ => .error .page
  | l + 1, table =>
    match walk2 m self table 4 root2 with
    | none => .error .page2
    | some t =>
      if t.remote then .error .page else
      let size := 2 ^ (16 + 9 * l)
      let e := m.num (t.final + (table - t.base) + 8 * (va / size % 512)) 8
      let addr := bitsN e 16 36 * 65536
      if !bitN e 0 || bitsN e 62 2 != 0 || bitsN e 9 7 != 0 || bitN e 8 then .error .page
      else if bitN e 1 then
        if 2 ≤ l || (l == 1 && bitsN e 16 9 != 0) then .error .page
        else .ok ⟨va - va % size, size, addr, bitN e 2, bitN e 3, bitN e 4, bitsN e 5 2⟩
      else if l == 0 then .error .page else walk1 m self root2 va l addr

/-- The translation of a page, as a TLB entry (R263): both stages walked. The entry's page is the smaller of the two. ROOT = 1
with REM = 1 along a mapping makes the stage-1 entry the malformed one (DEDUCED, log 48), and no read of a table fails
(DESIGN CHOICE, log 89). -/
def walkPage (s : State) (part va : Nat) : Except XFault TlbE := do
  if 2 ^ 52 ≤ va then throw .page
  let e := (s.part part).e
  let l1 ← walk1 s.mem s.m.modno e.root2 va 4 e.root1
  let ia := l1.ia + (va - l1.base)
  match walk2 s.mem s.m.modno ia 4 e.root2 with
  | none => throw .page2
  | some l2 =>
    if l1.root && l2.remote then throw .page
    let size := min l1.size l2.size
    let base := va - va % size
    let iaB := ia - ia % size
    return ⟨part, base, size, iaB, l2.final + (iaB - l2.base), l2.remote, l1.w, l2.w, l1.x, l2.x, l1.root, l1.ns⟩

/-- The active dirty bitmap of a partition (R294): the first one in even rounds. Each has one bit for each 64 KiB of its
quota, from the address that its entry names (R293). -/
def Part.bitmap (x : Part) (active : Bool) : Nat :=
  x.e.bitmap + (if (x.rounds % 2 == 0) == active then 0 else 2048 * x.e.quota)

/-- During an export the home marks the written pages in the active dirty bitmap (R293). -/
def markPage (s : State) (page : Nat) : State :=
  match Tbl.look s.reverse page with
  | none => s
  | some (p, n) =>
    let x := s.part p
    if x.e.state == 3 || x.e.state == 4 then
      let a := x.bitmap true + n / 8
      { s with mem := s.mem.write a (s.mem.read a ||| BitVec.ofNat 8 (2 ^ (n % 8))) }
    else s

/-- Every page that a write of `n` bytes touches. -/
def markDirty (s : State) (pa n : Nat) : State :=
  (List.range ((pa + n + 65535) / 65536 - pa / 65536)).foldl (fun s i => markPage s (pa / 65536 + i)) s

/-- The ROOT pages that a translation maps for the first time read as zero (R192): each is cleared and recorded. (DEDUCED,
log 81) -/
def newRoots (s : State) (e : TlbE) : State :=
  let pages := if e.root then (List.range (e.size / 65536)).map (e.ia / 65536 + ·) else []
  (pages.filter fun n => !s.rootPages.contains (e.part, n)).foldl (fun s n =>
    let a := e.final + (65536 * n - e.ia)
    markDirty { s with mem := s.mem.clear a 65536, rootPages := s.rootPages ++ [(e.part, n)] } a 65536) s

/-- The entry for an address, from the TLB or by a walk that fills it (R263). -/
def tlbEntry (s : State) (part va : Nat) : Except XFault (State × TlbE) :=
  match s.tlb.find? fun e => e.part == part && decide (e.va ≤ va) && decide (va < e.va + e.size) with
  | some e => .ok (s, e)
  | none => match walkPage s part va with
    | .ok e => .ok (newRoots { s with tlb := s.tlb ++ [e] } e, e)
    | .error x => .error x

/-- The trap of a failed translation (R262, R266). -/
def xtrap (x : XFault) (va : Nat) (w fetch : Bool) : Trap :=
  let cause := match x with | .page | .page2 => Cause.pageflt | _ => Cause.prot
  let st2 := match x with | .page2 | .prot2 => true | _ => false
  { cause := cause, tval := BitVec.ofNat 64 va, w := w, fetch := fetch, page := some va, stage2 := st2 }

/-- A domain address that its module exports to a partition (R302). -/
def imported (s : State) (part a : Nat) : Bool :=
  s.m.imports.any fun (p, page, n) => p == part && decide (page ≤ a / 65536) && decide (a / 65536 < page + n)

/-- Translates one address for a read, a write or a fetch (R261, R262). (DEDUCED, log 9) -/
def translate (s : State) (part va : Nat) (w fetch : Bool) : Except Trap (State × TlbE) := do
  match tlbEntry s part va with
  | .error x => throw (xtrap x va w fetch)
  | .ok (s, e) =>
    if (w && !e.w1) || (fetch && !e.x1) then throw (xtrap .prot va w fetch)
    if (w && !e.w2) || (fetch && !e.x2) then throw (xtrap .prot2 va w fetch)
    if e.remote && !imported s part (e.final + (va - e.va)) then
      throw { cause := Cause.prot, tval := BitVec.ofNat 64 va, w := w, fetch := fetch }
    return (s, e)

/-- The place of a translated address (R207). -/
def TlbE.place (e : TlbE) (va : Nat) : Place :=
  let a := e.final + (va - e.va)
  if e.remote then .dom a else .pa a e.root (!e.w1 && !e.w2)

/-- Every page of a range translates, from `va` for `n` bytes; the lowest failing address traps (R165). -/
def translateRange (s : State) (part va n : Nat) (w : Bool) : Except Trap State :=
  let first := va - va % 65536
  let pages := ((List.range (ceilDiv (va + n - first) 65536)).map (fun i => max va (first + 65536 * i)))
  pages.foldl (fun r a => r.bind fun s => (translate s part a w false).map (·.1)) (.ok s)

/-- The pieces of a virtual range, each within one 64 KiB page (R165). -/
def pagePieces (va n : Nat) : List (Nat × Nat) :=
  let first := va - va % 65536
  (List.range (ceilDiv (va + n - first) 65536)).map fun i =>
    let a := max va (first + 65536 * i)
    (a, min (va + n) (first + 65536 * (i + 1)) - a)

/-- The module that a place lies on has left the domain (R302). -/
def goneAway (s : State) (p : Place) : Bool := match p with | .dom a => s.m.left.contains (a / 2 ^ 46) | _ => false

/-- The first of `n` bytes at a place that cannot be read, as an offset: it lies in a line whose reads fail (R177), in a
domain line whose link fails twice (R271), or on a module that has left (R302). -/
def badAt (s : State) (p : Place) (n : Nat) : Option Nat :=
  let first := fun (bad : List Nat) (a : Nat) =>
    match bad.filter fun l => overlaps l 128 a n with | [] => none | l :: ls => some ((ls.foldl min l) - a)
  match p with
  | .pa a _ _ => first s.badLines a
  | .dom a => if goneAway s p then some 0 else first s.badLinks a
  | _ => none

/-- MEMUE at a virtual address (R267). -/
def memueAt (va : Nat) (w : Bool) : Trap := { cause := Cause.memue, tval := BitVec.ofNat 64 va, w := w, page := some va }

/-- The bytes of a virtual range as they stand at their places, for a reader that needs them at once: each 64 KiB page
is translated on its own (R165), and a read that fails gives MEMUE (R177). -/
def readVirt (s : State) (part va n : Nat) : Except Trap (State × List Byte) :=
  (pagePieces va n).foldl (fun r (a, k) => r.bind fun (s, bs) =>
    (translate s part a false false).bind fun (s, e) =>
      match badAt s (e.place a) k with
      | some o => .error (memueAt (a + o) false)
      | none => .ok (s, bs ++ match e.place a with
        | .pa p _ _ => s.mem.bytes p k
        | .dom p => s.domainMem.bytes p k
        | _ => [])) (.ok (s, []))

/-! ### Scratchpad -/

/-- The team that is member `j` of the spread of a team (R166, R37). -/
def memberTeam (s : State) (tid j : Nat) : Option Nat :=
  let t := s.team tid
  let first := t.index - t.member
  (s.teams.find? fun (_, x) => x.lid == t.lid && x.index == first + j && x.member == j).map (·.1)

/-- Fields of a scratchpad address (R166): the team and the offset; `none` for a bad member or reserved bits. -/
def spTeam (s : State) (tid addr : Nat) : Option (Nat × Nat) :=
  let memb := bitsN addr 23 5
  let off := addr % 2 ^ 23
  if 2 ^ 28 ≤ addr then none
  else if memb == 31 then some (tid, off)
  else if (s.team tid).spread ≤ memb then none
  else (memberTeam s tid memb).map fun t => (t, off)

/-- A scratchpad range of `n` bytes: PROT with the address unless it lies in the named allocation (R166), which ends
when the team is reclaimed (R280). -/
def spad (s : State) (tid addr n : Nat) : Except Stop (Nat × Nat) :=
  match spTeam s tid addr with
  | some (t, off) => if off + n ≤ (s.team t).spSize && !(s.team t).reclaimed then .ok (t, off) else trapN Cause.prot addr
  | none => trapN Cause.prot addr

/-- A 64-bit scratchpad address: bits [63:32] zero (R313). -/
def spad64 (s : State) (tid : Nat) (addr : W64) (n : Nat) : Except Stop (Nat × Nat) :=
  if 2 ^ 32 ≤ addr.toNat then trapOf Cause.prot addr else spad s tid addr.toNat n

def spBytes (s : State) (tid off n : Nat) : List Byte := (s.team tid).sp.bytes off n
def spNum (s : State) (tid off n : Nat) : Nat := (s.team tid).sp.num off n
def spStore (s : State) (tid off : Nat) (bs : List Byte) : State :=
  let t := s.team tid
  s.setTeam tid { t with sp := t.sp.store off bs }
def spPut (s : State) (tid off n v : Nat) : State := spStore s tid off (bytesOfNat n v)

/-! ### Policy operands -/

/-- The policy operand a POL field selects (R169). -/
def policy (g : Group) (f : Fields) : W32 :=
  match f.pol with
  | .s n => (g.scal n.val).extractLsb' 0 32
  | _ => g.csr.lpol.extractLsb' 0 32
def polScope (p : W32) : Nat := (p.extractLsb' 20 3).toNat
def polLate (p : W32) : Bool := p.getLsbD 19
def polRepl (p : W32) : Bool := p.getLsbD 18
def polLease (p : W32) : Nat := (p.extractLsb' 16 2).toNat
/-- Reserved bits zero and SCOPE at most 4 (R169). -/
def polValid (p : W32) : Bool := p.extractLsb' 23 9 == 0 && polScope p ≤ 4
/-- Ticks of a lease class (R169). -/
def leaseTicks : Nat → Nat | 1 => 256 | 2 => 4096 | 3 => 65536 | _ => 0

/-! ### Deterministic mode and watchpoints -/

/-- Store-like accesses as R256 tells them apart. -/
inductive DetKind where | store | atomInt | atomFloat | atomRet | copy | red
deriving DecidableEq, Repr

/-- The first address of [a, e) that no range holds. -/
def firstOutside (rs : List Range) (e : Nat) : Nat → Nat → Option Nat
  | 0, a => if a < e then some a else none
  | n + 1, a =>
    if e ≤ a then none
    else match rs.find? fun r => decide (r.va ≤ a) && decide (a < r.va + r.len) with
      | none => some a
      | some r => firstOutside rs e n (r.va + r.len)

/-- Every one of `n` bytes lies in some range; one access may lie in several that abut (R256). -/
def coveredBy (rs : List Range) (va n : Nat) : Bool := (firstOutside rs (va + n) rs.length va).isNone

/-- The write ranges of a team (R255, R256). -/
def myRanges (s : State) (i : Ident) : List Range := (s.launch i.lid).ranges.filter (·.team == i.team)

/-- An access meets a shared range of its team (R256), whether or not a range of the team's own covers those bytes too. -/
def inShared (s : State) (i : Ident) (va n : Nat) : Bool :=
  (myRanges s i).any fun r => r.shared && overlaps va n r.va r.len

/-- OWNWR in a DET launch (R256): a byte outside the team's ranges, or a plain store or copy in a shared range. -/
def detOwn (s : State) (g : Group) (kind : DetKind) (va n : Nat) : Bool :=
  s.flag g.ident.lid 0 &&
    (!coveredBy (myRanges s g.ident) va n || (inShared s g.ident va n && (kind == .store || kind == .copy)))

/-- DETOP in a DET launch (R256): a float ATOM anywhere, a returning ATOM, XCHG or CAS in a shared range. -/
def detOpTrap (s : State) (g : Group) (kind : DetKind) (va n : Nat) : Bool :=
  s.flag g.ident.lid 0 && (kind == .atomFloat || (kind == .atomRet && inShared s g.ident va n))

/-- Both checks for one range of an engine operation. -/
def detCheck (s : State) (g : Group) (kind : DetKind) (va n : Nat) : Except Stop Unit :=
  guardN (!detOwn s g kind va n) Cause.ownwr va

/-- The lowest watched address that an access touches (R278). -/
def watchHit (g : Group) (va n : Nat) (w : Bool) : Option Nat :=
  let hits := g.csr.watch.filterMap fun (_, x) =>
    let size := 2 ^ ((x.extractLsb' 56 4).toNat + 3)
    let v := (x.extractLsb' 0 52).toNat
    let base := v - v % size
    if x.getLsbD 63 && x.getLsbD (if w then 62 else 61) && overlaps va n base size then some (max va base) else none
  hits.foldl (fun m a => match m with | none => some a | some b => some (min a b)) none

def watchCheck (g : Group) (sub va n : Nat) (r w : Bool) : Except Stop Unit :=
  if g.wskipNow.contains sub then .ok () else
    match (if r then watchHit g va n false else none), (if w then watchHit g va n true else none) with
    | some a, some b => trapN Cause.watch (min a b)
    | some a, none | none, some a => trapN Cause.watch a
    | none, none => .ok ()

/-! ### Performing an access -/

/-- The 128-byte line of a device physical address (R168). -/
def lineOf (a : Nat) : Nat := a - a % 128

/-- Bytes at a place. -/
def peek (s : State) (p : Place) (n : Nat) : List Byte :=
  match p with
  | .pa a _ _ => s.mem.bytes a n
  | .dom a => s.domainMem.bytes a n
  | .sp t off => spBytes s t off n
  | .host a => s.hostMem.bytes a n

/-- The VA of the first byte of a watch entry that a write of `n` bytes at a device physical address touches (R279). -/
def WatchE.touched (w : WatchE) (pa n : Nat) : Option Nat :=
  let hits := w.spans.filterMap fun (va, a, k) => if overlaps pa n a k then some (va + (max pa a - a)) else none
  match hits with | [] => none | x :: xs => some (xs.foldl min x)

/-- A write by an agent of R268 at its home marks the watch entries it touches (R279). -/
def markWatch (s : State) (agent modno : Nat) (p : Place) (n : Nat) : State :=
  match p with
  | .pa a _ _ =>
    if agent = 0 then s else
      let mark := fun (c : Nat × WatchE) =>
        let w := c.2
        match (if w.on && w.mask.getLsbD (agent - 1) && w.hit.isNone then w.touched a n else none) with
        | some va => (c.1, { w with hit := some (agent, modno, va) })
        | none => c
      { s with parts := s.parts.map fun (k, x) => (k, { x with watch := x.watch.map mark }) }
  | _ => s

/-- The memory port of an address, of 128, whose reducer performs what a stripe of 4 KiB there is due (R8, R176). -/
def portOf (pa : Nat) : Nat := bitsN pa 12 7

/-- The L2 slice of a line, and the key of its set (R174). -/
def sliceOf (a : Nat) : Nat := bitsN a 7 39 % 24
def setKey (line : Nat) : Nat := sliceOf line + 24 * Config.l2Set line

/-- The latest lease end recorded for a line: its own record or its set's bound (R174, R208). -/
def leaseEnd (s : State) (line : Nat) : Nat := max (Tbl.get 0 s.leases line) (Tbl.get 0 s.setBounds (setKey line))

/-- A line leaves its set, whose bound rises to the line's latest lease end (R174). -/
def l2Evict (s : State) (line : Nat) : State :=
  { s with leases := Tbl.del s.leases line, setBounds := Tbl.set s.setBounds (setKey line) (leaseEnd s line) }

/-- Applies bytes at a place at the present tick (A_w) and gives T_w (R208, R174, R219). A range at one home may span
lines: T_w is the latest of them. A remote home's T_w is a free value within what skew and lease allow. (DESIGN CHOICE,
log 49) -/
def applyStore (s : State) (p : Place) (bs : List Byte) : State × Nat :=
  let now := s.m.ftime
  match p with
  | .pa a root _ =>
    let lines := (List.range ((a + bs.length + 127) / 128 - a / 128)).map fun i => lineOf a + 128 * i
    let tw := if root then now else lines.foldl (fun t l => max t (leaseEnd s l)) now
    (markDirty { s with mem := s.mem.store a bs } a bs.length, tw)
  | .dom a => ({ s with domainMem := s.domainMem.store a bs, free := s.free + 1 }, now + Config.remoteWait s.free % 65601)
  | .sp t off => (spStore s t off bs, now)
  | .host a => ({ s with hostMem := s.hostMem.store a bs }, now)

/-- Partition cores of a cluster in ascending order (R173). (DEDUCED, log 53) -/
def clusterCores (s : State) (part cl : Nat) : List Nat :=
  (List.range 24).map (· + 24 * cl) |>.filter fun c => (s.part part).e.quartets.contains (c / 4)

/-- The line hash (R168). -/
def lineHash (pa : Nat) : Nat :=
  (bitsN pa 7 8 ^^^ bitsN pa 15 8 ^^^ bitsN pa 23 8 ^^^ bitsN pa 31 8 ^^^ bitsN pa 39 7)

/-- The core whose L1 serves a line for an issuing core (R173). -/
def l1Core (s : State) (part core line : Nat) : Nat :=
  if (s.core core).fused then
    let cs := clusterCores s part (State.cluster core)
    (cs[lineHash line % max 1 cs.length]?).getD core
  else core

/-- A copy or replica of a line that serves a core, whose L1 for the line is that of core `home` (R173, R175). -/
def LineCopy.servedTo (c : LineCopy) (core home line : Nat) : Bool :=
  c.line == line && (if c.replica then State.quartet c.core == State.quartet core else c.core == home)

/-- Lines that a core's pool region holds: BND2 in 64 KiB (R42, R171). -/
def l1Lines (s : State) (core : Nat) : Nat := 512 * (s.core core).bnd2.toNat

/-- The eviction class of a line under a policy operand (R170): 2 KEEP, 0 STREAM, 1 NORMAL. -/
def evictClass (pol : W32) (line : Nat) : Nat :=
  let h := lineHash line
  let t2 := (pol.extractLsb' 8 8).toNat
  if h < (pol.extractLsb' 0 8).toNat then 2 else if t2 ≠ 0 ∧ t2 ≤ h then 0 else 1

/-- The copy that leaves a full L1 (R170): one whose lease is over, else the least recently used STREAM, NORMAL or KEEP one.
The list of copies has them in the order of their last use. -/
def victim (now : Nat) (own : List LineCopy) : Option LineCopy :=
  let first := fun (p : LineCopy → Bool) => own.find? p
  (first fun c => decide (c.until_ ≤ now)).or ((first fun c => c.cls == 0).or ((first fun c => c.cls == 1).or own.head?))

/-- A new copy enters a core's L1, a victim leaving when the pool region is full (R170, R171). -/
def putCopy (s : State) (live : List LineCopy) (cp : LineCopy) : List LineCopy :=
  let room := l1Lines s cp.core
  if room = 0 then live
  else
    let own := live.filter fun (c : LineCopy) => c.core == cp.core && !c.replica
    let live := if own.length < room then live else match victim s.m.ftime own with | some c => live.erase c | none => live
    live ++ [cp]

/-- The unexpired copy that serves a load of a place by a core (R171, R175); a ROOT page and LEASE 0 have none (R192). -/
def copyAt (s : State) (part core : Nat) (pol : W32) (p : Place) : Option LineCopy :=
  match p with
  | .pa a root _ =>
    if root || polLease pol = 0 then none
    else s.copies1.find? fun c => c.servedTo core (l1Core s part core (lineOf a)) (lineOf a) && decide (s.m.ftime < c.until_)
  | _ => none

/-- A load of bytes within one line by a core (R171, R172, R175, R209, R210). A hit sets the copy's class again (R170). A
load performed at the home drops the copy and the replica that serve the core, or replaces them. `evicted`: the line's copy
had left the cache. -/
def loadAt (s : State) (part lid core : Nat) (pol : W32) (p : Place) (n : Nat) (evicted : Bool) : State × List Byte :=
  match p with
  | .pa a root readOnly =>
    let line := lineOf a
    let now := s.m.ftime
    let home := l1Core s part core line
    let cls := if root then 0 else polLease pol
    let mine := fun (c : LineCopy) => c.servedTo core home line
    let live := s.copies1.filter fun c => !(mine c && evicted)
    match (if cls = 0 then none else live.find? fun c => mine c && decide (now < c.until_)) with
    | some c =>
      ({ s with copies1 := live.erase c ++ [{ c with cls := evictClass pol line }] }, (c.bytes.drop (a - line)).take n)
    | none =>
      let kept := live.filter fun c => !mine c
      if cls = 0 then ({ s with copies1 := kept }, s.mem.bytes a n)
      else
        let endT := now + leaseTicks cls
        let bytes := s.mem.bytes line 128
        let cp : LineCopy := { core := home, part := part, line := line, until_ := endT, bytes := bytes, replica := false
                               lid := lid, cls := evictClass pol line }
        let rep : List LineCopy := if polRepl pol && readOnly then [{ cp with core := core, replica := true }] else []
        ({ s with copies1 := putCopy s kept cp ++ rep, leases := Tbl.set s.leases line (max endT (Tbl.get 0 s.leases line)) },
          s.mem.bytes a n)
  | p => (s, peek s p n)

/-- The lines that `n` bytes at a device physical address lie in: address and length of each piece. -/
def linePieces (a n : Nat) : List (Nat × Nat) :=
  (List.range ((a + n + 127) / 128 - a / 128)).map fun i =>
    let b := max a (lineOf a + 128 * i)
    (b, min (a + n) (lineOf a + 128 * (i + 1)) - b)

/-- The first of `n` bytes that a core's load at a place cannot read, as an offset: a copy in its L1 serves a line whose
reads fail (R171, R177). -/
def missAt (s : State) (part core : Nat) (pol : W32) (p : Place) (n : Nat) : Option Nat :=
  match p with
  | .pa a root ro => ((linePieces a n).find? fun (b, k) =>
      (badAt s (.pa b root ro) k).isSome && (copyAt s part core pol (.pa b root ro)).isNone).map fun (b, _) => b - a
  | p => badAt s p n

/-- A block that an instruction of a group reads at its issue (R183, R425): loads of the group, performed at their places
under its policy operand, with the checks of R169 and R302 and the effect of R210 on the core's L1. -/
def groupRead (s : State) (g : Group) (pol : W32) (va n : Nat) : Except Trap (State × List Byte) :=
  let i := g.ident
  (pagePieces va n).foldl (fun r (a, k) => r.bind fun (s, bs) =>
    (translate s i.part a false false).bind fun (s, e) =>
      if e.remote && polScope pol != 4 then .error { cause := Cause.prot, tval := BitVec.ofNat 64 a }
      else match missAt s i.part i.core pol (e.place a) k with
      | some o => .error (memueAt (a + o) false)
      | none => match e.place a with
        | .pa p root ro =>
          let (s, b) := (linePieces p k).foldl (fun (r : State × List Byte) (x : Nat × Nat) =>
            let (s, b) := loadAt r.1 i.part i.lid i.core pol (.pa x.1 root ro) x.2 false
            (s, r.2 ++ b)) (s, [])
          .ok (s, bs ++ b)
        | .dom p => .ok (s, bs ++ s.domainMem.bytes p k)
        | _ => .ok (s, bs)) (.ok (s, []))

/-- A store issued on a core, or a load performed for it, drops the copy of the line in its own L1 and the replica in its
quartet's slice (R171, R175, R210). -/
def dropOwnCopy (s : State) (part core : Nat) (p : Place) : State :=
  match p with
  | .pa a _ _ => { s with copies1 := s.copies1.filter fun c => !c.servedTo core (l1Core s part core (lineOf a)) (lineOf a) }
  | _ => s

/-- Raises a group's write horizon (R213); of a group that has ended, the horizon its launch remembers (R248). -/
def raiseWh (s : State) (gid tid tw : Nat) : State :=
  match Tbl.look s.groups gid with
  | some g => s.setGroup gid { g with csr := { g.csr with wh := max g.csr.wh tw } }
  | none =>
    let lid := (s.team tid).lid
    match Tbl.look s.launches lid with
    | none => s
    | some l => s.setLaunch lid { l with maxWh := max l.maxWh tw }

/-- Takes the next operation sequence value of a group (R214). -/
def nextSeq (s : State) (gid : Nat) : Nat × State :=
  let g := s.group gid
  (g.seq, s.setGroup gid { g with seq := (g.seq + 1) % 2 ^ 48 })

/-- Older by sequence (R375): (SEQ − its sequence) mod 2^48 lies in 1 to 2^47. -/
def olderSeq (tok seq : Nat) : Bool :=
  let d := (tok + 2 ^ 48 - seq % 2 ^ 48) % 2 ^ 48
  decide (1 ≤ d) && decide (d ≤ 2 ^ 47)

end Sys2Proof.Machine
end

