-- ==== Sys2Proof/Machine/Reckon.lean ====
section
/-!
DEFINITION. What every instruction does with its sources before it executes: the register checks of R47, tags (R50), held
MEMUEs (R402), states E and P (R52, R54), the settling of reckonings (R68, R69), and the affine operations (R65 to R67).
-/

namespace Sys2Proof.Machine

/-- One register source as an instruction reads it: the operand, how many consecutive vector registers, its BT bit, and
the tag it expects (none: no check, R50), or an index that accepts RAW, I32 and N32 (R313). -/
structure Use where
  o : Opd
  n : Nat := 1
  bt : Bool := false
  tag : Option Tag := none
  index : Bool := false
deriving DecidableEq, Repr

/-- The window range of an operand with its count; `some none` when it has no state; `none` when R47 fails. -/
def Group.useRange (g : Group) (o : Opd) (n : Nat) : Option (Option (Nat × Nat)) :=
  match o with
  | .v r => if g.vecsOk r.val n then some (some (1024 * r.val, 1024 * n)) else none
  | .t _ | .a _ => (g.range o).map some
  | _ => some none

/-- The window range of a source that R47 admits. -/
def Group.rangeOf (g : Group) (u : Use) : Nat × Nat :=
  match g.useRange u.o u.n with | some (some r) => r | _ => (0, 0)

/-- R47 for the sources and destinations of an instruction. (DEDUCED, log 24) -/
def checkRefs (c : Ctx) (g : Group) (uses : List Use) (dsts : List (Opd × Nat)) : Except Stop Unit :=
  guardI c ((uses.all fun u => (g.useRange u.o u.n).isSome) && dsts.all fun d => (g.useRange d.1 d.2).isSome)

/-- The tags a source shows: the odd half of a pending pair is read after the settle, tagged RAW (R68); a register in
state E only when it is read as it stands (`bt`). Of several bad granules the lowest is named, whatever lanes are active
(DESIGN CHOICE, log 86). -/
def Group.badUse (g : Group) (start len : Nat) (bt : Bool) (ok : Tag → Bool) : Option Tag :=
  let hid := fun (k : Nat) => match g.st (k / 8) with | .pend _ => k / 8 % 2 = 1 | .empty => !bt | .full => false
  (((Group.granules start len).filter fun k => !hid k).map g.tagAt).find? fun t => !(t == .raw || ok t)

/-- The tag check of one source (R50, R313): the trap it gives. A register in state E of a source that waits for it shows
no tag yet: its tag lands with its data (R400). -/
def Group.tagTrap (g : Group) (u : Use) : Option Nat :=
  let (a, n) := g.rangeOf u
  if n = 0 then none else
    let bad := if u.index then g.badUse a n u.bt fun t => t == .i32 || t == .n32
      else match u.tag with | none => none | some e => g.badUse a n u.bt (· == e)
    let want := if u.index then Config.indexExpected.toNat else match u.tag with | some e => e.code.toNat | none => 0
    bad.map fun t => t.code.toNat + 16 * want + 256 * u.o.code.toNat

/-- FMTTAG (R50, R267), which names the first source of the use list that fails. (DESIGN CHOICE, log 86) -/
def checkTags (g : Group) (uses : List Use) : Except Stop Unit :=
  match uses.filterMap g.tagTrap with
  | [] => .ok ()
  | v :: _ => trapN Cause.fmttag v

/-- The MEMUE held on a destination that a range, or a scalar, meets (R402). -/
def Group.heldOn (g : Group) (start len : Nat) : Option Memue :=
  g.memues.find? fun m => match m.prod with
    | some id => match Tbl.look g.prods id with
      | some p => overlaps p.start p.len start len
      | none => false
    | none => false

/-- The trap of a held MEMUE (R402, R238), or of a store that its home refused (R295); its delivery is part of the handler's
entry. -/
def memueStop (m : Memue) : Stop := .trap {
  cause := if m.denied then Cause.prot else Cause.memue, tval := m.addr, w := m.denied
  page := if m.denied then none else some m.addr.toNat, memue := some m }

/-- Sources in state E, and a MEMUE held on one of them. -/
def Group.emptyUses (g : Group) (uses : List Use) : List Use := uses.filter fun u => let r := g.rangeOf u; g.anyE r.1 r.2

/-- The buffer of a slot (R61): σ of a lane. -/
def Group.sigma (g : Group) (k l : Nat) : Nat := g.win.num (g.u + 1024 * k + 4 * l) 4

/-- The value and flags of a lane of pair `p` when it settles on slot `k` (R69): always RNE. -/
def Group.settleLane (g : Group) (p k l : Nat) : Nat × BitVec 5 :=
  FFmt.f32.fma .rne false false (g.lane (p + 1) l).toNat (g.sigma k l) (g.lane p l).toNat

/-- The group after pair `p` has settled on slot `k` (R69). -/
def Group.settled (g : Group) (p k : Nat) : Group :=
  let v := g.settleLane p k
  let h := (g.setSt p .full).setSt (p + 1) .full
  let h := (h.noteWrite (1024 * p) 2048 [(1024 * p, 1024)]).setTags (1024 * (p + 1)) 1024 .raw
  let h := { h with win := h.win.putLanes (1024 * p) (List.range 256) fun l => (v l).1 }
  (h.setTags (1024 * p) 1024 .f32).dropHolder k

/-- What keeps the pair at an even register from settling for good: a source with BT = 1 that has not arrived (R54), or a
failure that traps (R69). -/
def settleTrap (g : Group) (p : Nat) (bt : Bool) : Except Stop Unit :=
  match g.st p with
  | .pend k =>
    let x := g.slot k
    if !x.arr && bt then trapN Cause.pendrd p
    else if x.arr && x.fail && x.tf then trapN (if x.cause then Cause.memue else Cause.arrtmo) k
    else .ok ()
  | _ => .ok ()

/-- The traps of several settles, in their order. -/
def settleTraps (g : Group) : List (Nat × Bool) → Except Stop Unit
  | [] => .ok ()
  | (p, bt) :: ps => (settleTrap g p bt).bind fun _ => settleTraps g ps

/-- The settle of the pair at an even register (R69); `bt` is the settling source's BT bit. -/
def settlePair (gid p : Nat) (bt : Bool) (s : State) : Except Stop State :=
  let g := s.group gid
  match g.st p with
  | .pend k =>
    let x := g.slot k
    (settleTrap g p bt).bind fun _ =>
    if !x.arr then .error .wait
    else
      let fl := orFlags ((List.range 256).map fun l => (g.settleLane p k l).2) ||| flagIf (x.anv || x.fail) Flag.nv
      .ok ((s.setGroup gid (g.settled p k)).orTsf g.ident.tid fl)
  | _ => .ok s

/-- Settles pairs one after the other (R68). -/
def settleAll (gid : Nat) : List (Nat × Bool) → State → Except Stop State
  | [], s => .ok s
  | (p, bt) :: ps, s => (settlePair gid p bt s).bind (settleAll gid ps)

/-- The pairs that sources settle, in field order, each with the BT bit of the first field that reads it (R68). -/
def Group.settles (g : Group) (uses : List Use) : List (Nat × Bool) :=
  (uses.flatMap fun u => let r := g.rangeOf u; (g.pairsIn (regsOf r.1 r.2)).map fun p => (p, u.bt)).foldl
    (fun l x => if l.any (·.1 == x.1) then l else l ++ [x]) []

/-- Scalars among the sources that a load has not yet delivered (R400). -/
def busyScals (g : Group) (os : List Opd) : List Nat := os.filterMap fun o => match o with
  | .s n => if g.sbusy.any (·.1 == n.val) then some n.val else none
  | _ => none

/-- Whether a scalar is among some operands. -/
def scalIn (os : List Opd) (n : Nat) : Bool := os.any fun o => match o with | .s k => k.val == n | _ => false

/-- A MEMUE held on one of these scalars is delivered, though another instruction has written it since (R402). -/
def scalTraps (g : Group) (os : List Opd) : Except Stop Unit :=
  match g.memues.find? fun m => m.scal.any (scalIn os) with
  | some m => .error (memueStop m)
  | none => .ok ()

/-- A scalar source that a load has not yet delivered is not available (R27, R400); a MEMUE held on it is delivered (R402). -/
def scalReady (g : Group) (os : List Opd) : Except Stop Unit := do
  scalTraps g os
  guardW (busyScals g os).isEmpty

/-- The traps that sources give (R264), whatever else would keep the instruction waiting: a sub-group whose next instruction
would trap is ready (R27). A held MEMUE is delivered first (R402), then FMTTAG, then EMPTYRD for a source in E with
BT = 1 (DEDUCED, log 24); of several such sources EMPTYRD names the first of the use list (DESIGN CHOICE, log 86). -/
def sourceTraps (g : Group) (uses : List Use) : Except Stop Unit := do
  let es := g.emptyUses uses
  match es.filterMap fun u => let r := g.rangeOf u; g.heldOn r.1 r.2 with
  | m :: _ => throw (memueStop m)
  | [] =>
    scalTraps g (uses.map (·.o))
    checkTags g uses
    match es.filter (·.bt) with
    | u :: _ => trapN Cause.emptyrd u.o.code.toNat
    | [] => return ()

/-- A source in E with BT = 0, and a scalar still on its way, are waited for (R27). -/
def sourceWaits (g : Group) (uses : List Use) : Except Stop Unit := do
  guardW ((g.emptyUses uses).all (·.bt))
  guardW (busyScals g (uses.map (·.o))).isEmpty

/-- Sources that need no settle: their traps, then their waits. -/
def available (g : Group) (uses : List Use) : Except Stop Unit := do
  sourceTraps g uses
  sourceWaits g uses

/-- Sources made ready: the traps of their settles come before any wait, and pending pairs among them are settled, which
may wait (R54, R68). -/
def ready (c : Ctx) (uses : List Use) (s : State) : Except Stop State := do
  let g := c.g s
  sourceTraps g uses
  settleTraps g (g.settles uses)
  sourceWaits g uses
  settleAll c.gid (g.settles uses) s

/-- What would wait traps instead where checks that need none of what it waits for would trap: a sub-group whose next
instruction would trap is ready (R27). (DEDUCED, log 24) -/
def waitUnless {α : Type} (early : Except Stop Unit) (r : Except Stop α) : Except Stop α :=
  match r with
  | .error .wait => early.bind fun _ => .error .wait
  | r => r

/-- Checks that read some sources only, once these are ready. -/
def onceReady (c : Ctx) (uses : List Use) (s : State) (checks : State → Except Stop Unit) : Except Stop Unit :=
  match ready c uses s with
  | .ok s => checks s
  | .error _ => .ok ()

/-- Consecutive scalars from an operand. -/
def scalRun (o : Opd) (n : Nat) : List Opd :=
  match o with
  | .s k => (List.range n).filterMap fun i => if h : k.val + i < 32 then some (.s ⟨k.val + i, h⟩) else none
  | _ => []

/-- The lanes an instruction computes: its active real lanes and the helper lanes of active quads (R22, R23). -/
def laneSet (g : Group) (act : Mask) : List Nat := mlanes act ++ g.helpers act

/-! ### Affine operations -/

/-- Rows of R66, `pend` naming the field of the pending source, `two` both sources pending on one slot. -/
inductive Row where
  /-- P + k: (a, rm(b + k)); P − k; k − P. -/
  | addK | subK | ksub
  /-- P × k. -/
  | mulK
  /-- ±P·k ± c and ±x·y ± P. -/
  | fmaK (mp mc : Bool) | fmaP (mp mc : Bool)
  /-- P1 ± P2 on one slot. -/
  | addP | subP
  /-- MOV. -/
  | copy
deriving DecidableEq, Repr

/-- The sign of an FP32 word flipped (R66: exact, no flag). -/
def flip32 (x : Nat) : Nat := if x < 2 ^ 31 then x + 2 ^ 31 else x - 2 ^ 31

/-- New coefficients (a′, b′) and flags of a lane: `a b` the pending form, `a2 b2` the second one, `x y` the known values
in field order (R66). -/
def Row.lane (r : Row) (rm : RM) (a b a2 b2 x y : Nat) : Nat × Nat × BitVec 5 :=
  let F := FFmt.f32
  match r with
  | .addK => let p := F.add rm b x; (a, p.1, p.2)
  | .subK => let p := F.sub rm b x; (a, p.1, p.2)
  | .ksub => let p := F.sub rm x b; (flip32 a, p.1, p.2)
  | .mulK => let p := F.mul rm a x; let q := F.mul rm b x; (p.1, q.1, p.2 ||| q.2)
  | .fmaK mp mc =>
    let p := F.mul rm (if mp then flip32 a else a) x
    let q := F.fma rm mp mc b x y
    (p.1, q.1, p.2 ||| q.2)
  | .fmaP mp mc => let q := F.fma rm mp mc x y b; (if mc then flip32 a else a, q.1, q.2)
  | .addP => let p := F.add rm a a2; let q := F.add rm b b2; (p.1, q.1, p.2 ||| q.2)
  | .subP => let p := F.sub rm a a2; let q := F.sub rm b b2; (p.1, q.1, p.2 ||| q.2)
  | .copy => (a, b, 0)

/-- A pending source named by its even register: register and slot. -/
def Group.pendOf (g : Group) (o : Opd) : Option (Nat × Nat) :=
  match o with
  | .v n => match g.st n.val with
    | .pend k => if n.val % 2 = 0 then some (n.val, k) else none
    | _ => none
  | _ => none

/-- A pending source in a place that settles: the odd register of a pair. -/
def Group.oddPend (g : Group) (o : Opd) : Bool :=
  match o with
  | .v n => match g.st n.val with | .pend _ => n.val % 2 != 0 | _ => false
  | _ => false

/-- The lanes of an affine operation (R67): coefficients and flags by lane; lanes not computed copy the source's form. -/
def affineLanes (c : Ctx) (row : Row) (g : Group) (p p2 : Nat) (x y : Opd) (act : Mask) : Nat → Nat × Nat × BitVec 5 := fun l =>
  let a := (g.lane (p + 1) l).toNat
  let b := (g.lane p l).toNat
  if (laneSet g act).contains l then
    row.lane (effRm g.csr.fmode c.f.rm) a b (g.lane (p2 + 1) l).toNat (g.lane p2 l).toNat (g.src c.f x l).toNat (g.src c.f y l).toNat
  else (a, b, 0)

/-- The pair `d` takes coefficients in every lane and becomes P on slot `k`; `other` when it is no source of the operation:
then its own pending form is discarded, and the slot gains a holder (R67). A destination in state E becomes P at once, and
what its producer still owes it is dropped as after any later write (R53). (DESIGN CHOICE, log 76) -/
def Group.writePair (g : Group) (d k : Nat) (other : Bool) (rs : Nat → Nat × Nat × BitVec 5) : Group :=
  let g := if other then g.discard (1024 * d) 2048 else g
  let g := g.noteWrite (1024 * d) 2048 [(1024 * d, 2048)]
  let m := g.win.putLanes (1024 * (d + 1)) (List.range 256) fun l => (rs l).1
  let g := { g with win := m.putLanes (1024 * d) (List.range 256) fun l => (rs l).2.1 }
  let g := ((g.setTags (1024 * d) 2048 .f32).setSt d (.pend k)).setSt (d + 1) (.pend k)
  if other then g.addHolder k else g

/-- An affine operation in full (R67): p the pending pair on slot k, p2 the other pending pair. -/
def affine (c : Ctx) (row : Row) (d p k : Nat) (p2 : Nat) (x y : Opd) (act : Mask) (s : State) : State :=
  let g := c.g s
  let rs := affineLanes c row g p p2 x y act
  let fl := orFlags (((List.range 256).filter (mhas act)).map fun l => (rs l).2.2)
  (s.setGroup c.gid (g.writePair d k (d != p && d != p2) rs)).orTsf g.ident.tid fl

/-- Whether a destination is an even vector register whose pair lies below U (R65). -/
def Group.pairDst (g : Group) (o : Opd) : Option Nat :=
  match o with
  | .v n => if n.val % 2 = 0 && g.vecsOk n.val 2 then some n.val else none
  | _ => none

end Sys2Proof.Machine
end

