-- ==== Sys2Proof/Machine/Lane.lean ====
section
/-!
DEFINITION. The three ways a class A or class U word runs (R326): once per lane, once for a sub-group under UNI, and on a
beam core (R150); and the shared shapes of the integer, logical, floating and predicate-writing instructions.
-/

namespace Sys2Proof.Machine

/-- The tag a source is checked against (R50): none when FMT = 0. -/
def tagOf (f : Fields) : Option Tag := if f.fmt = .raw then none else some f.fmt

def useA (f : Fields) (t : Option Tag) : Use := { o := f.a, bt := f.btA, tag := t }
def useB (f : Fields) (t : Option Tag) : Use := { o := f.b, bt := f.btB, tag := t }
def useC (f : Fields) (t : Option Tag) : Use := { o := f.c, bt := f.btC, tag := t }

/-- The three sources of a class A word, checked against FMT. Unused fields hold ZERO and pass. -/
def usesABC (f : Fields) : List Use := [useA f (tagOf f), useB f (tagOf f), useC f (tagOf f)]

/-- Writes lane results to a destination (R49, R326): nothing to ZERO. -/
def writeLanes (g : Group) (d : Opd) (vals : List (Nat × W32)) (t : Tag) : Group :=
  match d with | .v n => g.writeV n.val vals t | _ => g

/-- A per-lane instruction: its sources, its result in a lane as a value with flags. Only active real lanes raise flags
(R23, R86). (DEDUCED, log 22) -/
def laneBody (c : Ctx) (uses : List Use) (t : Tag) (fn : Group → Nat → W32 × BitVec 5) (s : State) : Except Stop State := do
  checkRefs c (c.g s) uses [(c.f.d, 1)]
  let act := (c.g s).activeReal c.sub c.f
  if act = 0 then return s
  let s ← ready c uses s
  let g := c.g s
  let rs := (laneSet g act).map fun l => (l, fn g l)
  let fl := orFlags ((rs.filter fun r => mhas act r.1).map (·.2.2))
  return (s.setGroup c.gid (writeLanes g c.f.d (rs.map fun r => (r.1, r.2.1)) t)).orTsf g.ident.tid fl

/-- Writes a scalar destination of a UNI instruction. -/
def Group.putS (g : Group) (d : Opd) (x : W64) : Group := match d with | .s n => g.setScal n.val x | _ => g

/-- A UNI instruction: once, on scalars (R25). -/
def uniBody (c : Ctx) (fn : (Opd → W64) → W64 × BitVec 5) (s : State) : Except Stop State := do
  let g := c.g s
  if !g.uniOn c.sub c.f then return s
  scalReady g [c.f.a, c.f.b, c.f.c]
  let r := fn (g.srcU c.sub c.f)
  return (s.setGroup c.gid (g.putS c.f.d r.1)).orTsf g.ident.tid r.2

def State.setRun (s : State) (q : Nat) (r : Run) : State := s.setEngine q { s.engine q with run := some r }

/-- A scalar instruction of a beam core (R150): UNI = 1; only SAT reaches the posting team's TSF. -/
def beamBody (c : Ctx) (q : Nat) (r : Run) (fn : (Opd → W64) → W64 × BitVec 5) (s : State) : Except Stop State := do
  guardI c c.f.uni
  if !r.predOn c.f then return s
  let x := fn (r.srcU c.f)
  let r' := match c.f.d with | .s n => r.setScal n.val x.1 | _ => r
  return (s.setRun q r').orTsf r.pass.tid x.2

/-- A class A word that runs in all three ways. -/
def alu (i : Instr) (f : Fields) (lane : (Opd → W32) → W32 × BitVec 5) (uni : (Opd → W64) → W64 × BitVec 5) (s : State) :
    Host.Outcome State Fault Refusal :=
  issueBoth i f false
    (fun c s => if f.uni then uniBody c uni s else laneBody c (usesABC f) f.fmt (fun g l => lane fun o => g.src f o l) s)
    (fun c q r s => beamBody c q r uni s) s

/-! ### Integers -/

/-- An integer operation on each element of a lane (R386). `fn` takes the width and the exact operands. -/
def intLane (f : Fields) (fn : Nat → Int → Int → Int → Int) (x y z : W32) : W32 × BitVec 5 :=
  let t := f.fmt
  let ex := splitElems t x.toNat
  let ey := splitElems t y.toNat
  let ez := splitElems t z.toNat
  let rs := (List.range t.elems).map fun e =>
    let v := fun (l : List Nat) => intOf t.signed t.width ((l[e]?).getD 0)
    narrow f.sat t.signed t.width (fn t.width (v ex) (v ey) (v ez))
  (BitVec.ofNat 32 (joinElems t (rs.map (·.1))), orFlags (rs.map (·.2)))

/-- The same on 64-bit scalars (R386: I64 for FMT 1, N64 for FMT 2). -/
def intUni (f : Fields) (fn : Nat → Int → Int → Int → Int) (x y z : W64) : W64 × BitVec 5 :=
  let v := fun (n : W64) => intOf f.fmt.signed 64 n.toNat
  let r := narrow f.sat f.fmt.signed 64 (fn 64 (v x) (v y) (v z))
  (BitVec.ofNat 64 r.1, r.2)

/-- An integer instruction of the family of R386. -/
def aluInt (i : Instr) (f : Fields) (fn : Nat → Int → Int → Int → Int) (s : State) : Host.Outcome State Fault Refusal :=
  alu i f (fun rd => intLane f fn (rd f.a) (rd f.b) (rd f.c)) (fun rd => intUni f fn (rd f.a) (rd f.b) (rd f.c)) s

/-- An instruction on bits of either width; it sets no flag (R331, R337, R347, R432). -/
def aluBits (i : Instr) (f : Fields) (fn : (n : Nat) → BitVec n → BitVec n → BitVec n → BitVec n) (s : State) :
    Host.Outcome State Fault Refusal :=
  alu i f (fun rd => (fn 32 (rd f.a) (rd f.b) (rd f.c), 0)) (fun rd => (fn 64 (rd f.a) (rd f.b) (rd f.c), 0)) s

/-! ### Predicates -/

/-- A compare in lanes: inactive lanes keep their bits (R373). -/
def cmpLanes (c : Ctx) (fn : Group → Nat → Bool × BitVec 5) (s : State) : Except Stop State := do
  let uses := usesABC c.f
  checkRefs c (c.g s) uses []
  let act := (c.g s).activeReal c.sub c.f
  if act = 0 then return s
  let s ← ready c uses s
  let g := c.g s
  let rs := (laneSet g act).map fun l => (l, fn g l)
  let m := mof (rs.map (·.1))
  let v := mof ((rs.filter fun r => r.2.1).map (·.1))
  let fl := orFlags ((rs.filter fun r => mhas act r.1).map (·.2.2))
  return (s.setGroup c.gid (g.setPred (c.f.d.code.toNat % 8) m v)).orTsf g.ident.tid fl

/-- A compare under UNI: the bit goes to every lane of the sub-group's mask (R373). -/
def cmpUni (c : Ctx) (fn : (Opd → W64) → Bool × BitVec 5) (s : State) : Except Stop State := do
  let g := c.g s
  if !g.uniOn c.sub c.f then return s
  scalReady g [c.f.a, c.f.b]
  let r := fn (g.srcU c.sub c.f)
  let m := (g.sub c.sub).mask
  return (s.setGroup c.gid (g.setPred (c.f.d.code.toNat % 8) m (if r.1 then m else 0))).orTsf g.ident.tid r.2

/-- An integer compare (R389): the element X selects for FMT 6 and 7. -/
def icmp (cond : Cond) (i : Instr) (f : Fields) (s : State) : Host.Outcome State Fault Refusal :=
  let t := f.fmt
  let e := (f.x.extractLsb' 0 2).toNat
  let elem := fun (x : W32) => intOf t.signed t.width (((splitElems t x.toNat)[e]?).getD 0)
  let uni := fun (rd : Opd → W64) =>
    (cond.int (intOf t.signed 64 (rd f.a).toNat) (intOf t.signed 64 (rd f.b).toNat), (0 : BitVec 5))
  issueBoth i f false
    (fun c s => if f.uni then cmpUni c uni s
      else cmpLanes c (fun g l => (cond.int (elem (g.src f f.a l)) (elem (g.src f f.b l)), 0)) s)
    (fun c q r s => do
      guardI c f.uni
      if !r.predOn f then return s
      return s.setRun q (r.setPred (f.d.code.toNat % 8) (uni (r.srcU f)).1)) s

/-! ### Floating point -/

/-- A floating operation on each element of a lane (R362). -/
def floatLane (f : Fields) (rm : RM) (fn : FFmt → RM → Nat → Nat → Nat → Nat × BitVec 5) (x y z : W32) : W32 × BitVec 5 :=
  let t := f.fmt
  let ex := splitElems t x.toNat
  let ey := splitElems t y.toNat
  let ez := splitElems t z.toNat
  let rs := (List.range t.elems).map fun e =>
    let v := fun (l : List Nat) => (l[e]?).getD 0
    fn t.ffmt rm (v ex) (v ey) (v ez)
  (BitVec.ofNat 32 (joinElems t (rs.map (·.1))), orFlags (rs.map (·.2)))

/-- An ordinary floating instruction (R362); a beam core executes none (R150). -/
def floatBody (c : Ctx) (t : Tag) (fn : FFmt → RM → Nat → Nat → Nat → Nat × BitVec 5) (s : State) : Except Stop State :=
  let f := c.f
  let rm := effRm (c.g s).csr.fmode f.rm
  if f.uni then
    uniBody c (fun rd =>
      let lo := fun (o : Opd) => (rd o).toNat % 2 ^ 32
      let r := fn .f32 rm (lo f.a) (lo f.b) (lo f.c)
      (BitVec.ofNat 64 r.1, r.2)) s
  else laneBody c (usesABC f) t (fun g l => floatLane f rm fn (g.src f f.a l) (g.src f f.b l) (g.src f f.c l)) s

def aluFloat (i : Instr) (f : Fields) (fn : FFmt → RM → Nat → Nat → Nat → Nat × BitVec 5) (s : State) :
    Host.Outcome State Fault Refusal := issueGroup i f (fun c s => floatBody c f.fmt fn s) s

/-- What an instruction with RK = 1 takes as an affine operation (R66): row, pending pair and slot, second pair, and the
known sources x and y. -/
structure AffPlan where
  row : Row
  p : Nat
  k : Nat
  p2 : Nat
  x : Opd := .zero
  y : Opd := .zero
deriving DecidableEq, Repr

/-- R65 and R66 for FADD and FSUB. -/
def planAdd (g : Group) (sub : Bool) (f : Fields) : Option AffPlan :=
  match g.pendOf f.a, g.pendOf f.b with
  | some (p, k), none => some { row := if sub then .subK else .addK, p := p, k := k, p2 := p, x := f.b }
  | none, some (p, k) => some { row := if sub then .ksub else .addK, p := p, k := k, p2 := p, x := f.a }
  | some (p, k), some (q, j) => if k = j then some { row := if sub then .subP else .addP, p := p, k := k, p2 := q } else none
  | none, none => none

/-- FMUL. -/
def planMul (g : Group) (f : Fields) : Option AffPlan :=
  match g.pendOf f.a, g.pendOf f.b with
  | some (p, k), none => some { row := .mulK, p := p, k := k, p2 := p, x := f.b }
  | none, some (p, k) => some { row := .mulK, p := p, k := k, p2 := p, x := f.a }
  | _, _ => none

/-- The FFMA family. -/
def planFma (g : Group) (mp mc : Bool) (f : Fields) : Option AffPlan :=
  match g.pendOf f.a, g.pendOf f.b, g.pendOf f.c with
  | some (p, k), none, none => some { row := .fmaK mp mc, p := p, k := k, p2 := p, x := f.b, y := f.c }
  | none, some (p, k), none => some { row := .fmaK mp mc, p := p, k := k, p2 := p, x := f.a, y := f.c }
  | none, none, some (p, k) => some { row := .fmaP mp mc, p := p, k := k, p2 := p, x := f.a, y := f.b }
  | _, _, _ => none

/-- MOV. -/
def planMov (g : Group) (f : Fields) : Option AffPlan :=
  (g.pendOf f.a).map fun (p, k) => { row := .copy, p := p, k := k, p2 := p }

/-- An instruction with RK = 1: an affine operation where R65 holds, the ordinary instruction otherwise. -/
def reckoned (c : Ctx) (rk : Bool) (plan : Group → Option AffPlan) (ordinary : State → Except Stop State) (s : State) :
    Except Stop State :=
  let g := c.g s
  let f := c.f
  let odd := g.oddPend f.a || g.oddPend f.b || g.oddPend f.c
  match (if rk && !odd && !f.uni then plan g else none), g.pairDst f.d with
  | some pl, some d => do
    checkRefs c g (usesABC f) [(f.d, 2)]
    let act := g.activeReal c.sub f
    if act = 0 then return s
    available g (usesABC f)
    return affine c pl.row d pl.p pl.k pl.p2 pl.x pl.y act s
  | _, _ => ordinary s

/-- A floating instruction that RK = 1 with FMT 3 may turn into an affine operation (R65). -/
def aluReckon (i : Instr) (f : Fields) (plan : Group → Option AffPlan)
    (fn : FFmt → RM → Nat → Nat → Nat → Nat × BitVec 5) (s : State) : Host.Outcome State Fault Refusal :=
  issueGroup i f (fun c s => reckoned c (f.rk && f.fmt == .f32) plan (floatBody c f.fmt fn) s) s

/-- A floating compare (R373). -/
def fcmp (cond : Cond) (i : Instr) (f : Fields) (s : State) : Host.Outcome State Fault Refusal :=
  let t := f.fmt
  let e := (f.x.extractLsb' 0 1).toNat
  let elem := fun (x : W32) => ((splitElems t x.toNat)[e]?).getD 0
  issueGroup i f (fun c s =>
    if f.uni then cmpUni c (fun rd => FFmt.f32.compare cond ((rd f.a).toNat % 2 ^ 32) ((rd f.b).toNat % 2 ^ 32)) s
    else cmpLanes c (fun g l => t.ffmt.compare cond (elem (g.src f f.a l)) (elem (g.src f f.b l))) s) s

end Sys2Proof.Machine
end

