-- ==== Sys2Proof/Machine/Control.lean ====
section
/-!
DEFINITION. Control flow and the system words that need nothing beyond the group: BRA, BRX, CALL, RET, TRAP, SYSC, ERET,
CSRR, CSRW, TICK, VDHOP (opcodes 0x60 to 0x6B).
-/

namespace Sys2Proof.Machine

/-- Sets the PC of the issuing sub-group. -/
def jump (c : Ctx) (pc : W64) (s : State) : State := s.setGroup c.gid ((c.g s).subPc c.sub pc)

/-- The PC after the word. -/
def Ctx.next (c : Ctx) : W64 := c.pc + BitVec.ofNat 64 c.len

/-- Real lanes of the sub-group with their next PCs: `t` in the active lanes, the fall-through in the others (R30). -/
def lanePcs (c : Ctx) (g : Group) (t : Nat → W64) : List (Nat × W64) :=
  let act := g.activeReal c.sub c.f
  (mlanes (g.sub c.sub).mask).map fun l => (l, if mhas act l then t l else c.next)

/-- The join PC of BRA: PC + 4·J, J = X ‖ C ‖ B, a 17-bit count; 0 for none (R340). -/
def joinBra (c : Ctx) : W64 :=
  let j : BitVec 17 := c.f.x ++ c.f.c.code ++ c.f.b.code
  if j = 0 then 0 else c.pc + (j.signExtend 64 <<< 2)

/-- The join PC of BRX: J = X ‖ C, a 10-bit count (R342). -/
def joinBrx (c : Ctx) : W64 :=
  let j : BitVec 10 := c.f.x ++ c.f.c.code
  if j = 0 then 0 else c.pc + (j.signExtend 64 <<< 2)

/-- BRA (R340, R341). -/
def execBra (f : Fields) (s : State) : Host.Outcome State Fault Refusal :=
  issueBoth (.bra f) f true
    (fun c s =>
      let g := c.g s
      let t := c.pc + f.imm.signExtend 64
      if f.uni then .ok (jump c (if g.uniOn c.sub f then t else c.next) s)
      else .ok (s.setGroup c.gid (g.diverge c.sub (lanePcs c g fun _ => t) (joinBra c))))
    (fun c q r s => do
      guardI c f.uni
      return s.setRun q { r with pc := if r.predOn f then c.pc + f.imm.signExtend 64 else c.next }) s

/-- ALIGN for a branch target that is no multiple of 4 (R342, R426). -/
def guardPc (t : W64) : Except Stop Unit := guardT (t.extractLsb' 0 2 == 0) Cause.align t

/-- The lowest active lane's bad target (R342, R426). -/
def guardPcs (act : Mask) (t : Nat → W64) : Except Stop Unit :=
  match (mlanes act).find? fun l => (t l).extractLsb' 0 2 != 0 with
  | some l => trapOf Cause.align (t l)
  | none => .ok ()

/-- The offset of BRX as a 64-bit value in a lane (R342). -/
def brxOffset (g : Group) (f : Fields) (l : Nat) : W64 :=
  match f.a with
  | .v n => (g.lane n.val l).zeroExtend 64
  | .s n => g.scal n.val
  | _ => f.imm.zeroExtend 64

/-- BRX (R342). -/
def execBrx (f : Fields) (s : State) : Host.Outcome State Fault Refusal :=
  let base := fun (g : Group) => match f.b with | .s n => g.scal n.val | _ => 0
  issueBoth (.brx f) f true
    (fun c s => do
      let g := c.g s
      if f.uni then
        if !g.uniOn c.sub f then return jump c c.next s
        scalReady g [f.a, f.b]
        let t := base g + brxOffset g f 0
        guardPc t
        return jump c t s
      else
        checkRefs c g [useA f none] []
        let act := g.activeReal c.sub f
        let s ← if act = 0 then pure s else ready c [useA f none, useB f none] s
        let g := c.g s
        let t := fun (l : Nat) => base g + brxOffset g f l
        guardPcs act t
        return s.setGroup c.gid (g.diverge c.sub (lanePcs c g t) (joinBrx c)))
    (fun c q r s => do
      guardI c f.uni
      if !r.predOn f then return s.setRun q { r with pc := c.next }
      let t := r.srcU { f with fmt := .raw } f.b + r.srcU { f with fmt := .raw } f.a
      guardPc t
      return s.setRun q { r with pc := t }) s

/-- CALL (R343): the link goes to a vector pair or a scalar; a beam core also pushes it on its return stack, whatever D.
(DEDUCED, log 69) -/
def execCall (f : Fields) (s : State) : Host.Outcome State Fault Refusal :=
  issueBoth (.call f) f true
    (fun c s => do
      let g := c.g s
      let link := c.next
      let t := c.pc + f.imm.signExtend 64
      match f.d with
      | .v n =>
        checkRefs c g [] [(f.d, 2)]
        let ls := laneSet g (g.sub c.sub).mask
        let g := g.writeV n.val (ls.map fun l => (l, link.extractLsb' 0 32)) .n32
        let g := g.writeV (n.val + 1) (ls.map fun l => (l, link.extractLsb' 32 32)) .n32
        return jump c t (s.setGroup c.gid g)
      | .s n => return jump c t (s.setGroup c.gid (g.setScal n.val link))
      | _ => illop c)
    (fun c q r s => do
      guardI c f.uni
      let t := c.pc + f.imm.signExtend 64
      guardI c (decide (r.stack.length < 8))
      let r := match f.d with | .s n => r.setScal n.val c.next | _ => r
      return s.setRun q { r with pc := t, stack := c.next :: r.stack }) s

/-- RET (R426); on a beam core too it obeys its predicate (R150, R307). -/
def execRet (f : Fields) (s : State) : Host.Outcome State Fault Refusal :=
  issueBoth (.ret f) f true
    (fun c s => do
      let g := c.g s
      match f.a with
      | .s n =>
        if !g.uniOn c.sub f then return jump c c.next s
        scalReady g [f.a]
        guardPc (g.scal n.val)
        return jump c (g.scal n.val) s
      | .v n =>
        let uses : List Use := [{ o := f.a, n := 2, bt := f.btA }]
        checkRefs c g uses []
        let act := g.activeReal c.sub f
        let s ← if act = 0 then pure s else ready c uses s
        let g := c.g s
        let t := fun (l : Nat) => g.lane (n.val + 1) l ++ g.lane n.val l
        guardPcs act t
        return s.setGroup c.gid (g.diverge c.sub (lanePcs c g t) 0)
      | _ => illop c)
    (fun c q r s => do
      guardI c (f.uni && f.a == .zero)
      if !r.predOn f then return s.setRun q { r with pc := c.next }
      match r.stack with
      | [] => illop c
      | t :: rest => return s.setRun q { r with pc := t, stack := rest }) s

/-- SYSC and TRAP (R437): nothing unless a lane is active or the predicate holds. -/
def softTrap (i : Instr) (f : Fields) (cause : Nat) (s : State) : Host.Outcome State Fault Refusal :=
  issueGroup i f (fun c s =>
    let g := c.g s
    let on := if f.uni then g.uniOn c.sub f else g.activeReal c.sub f != 0
    if on then .error (.trap { cause := cause, tval := f.imm.zeroExtend 64, succ := true }) else .ok s) s

/-- TRAP (R437). -/
def execTrap (f : Fields) (s : State) : Host.Outcome State Fault Refusal := softTrap (.trap f) f Cause.trapi s
/-- SYSC (R437). -/
def execSysc (f : Fields) (s : State) : Host.Outcome State Fault Refusal := softTrap (.sysc f) f Cause.sysc s

/-- ERET (R270, R363). -/
def execEret (f : Fields) (s : State) : Host.Outcome State Fault Refusal :=
  issueBoth (.eret f) f true
    (fun c s => do
      guardI c (c.g s).csr.m
      return returnTrap s c.gid c.sub)
    noBeam s

/-! ### CSRs -/

/-- ECNT (R58). -/
def Csrs.ecnt (c : Csrs) : W64 :=
  BitVec.ofNat 64 (c.cp % 256 + c.rd % 256 * 2 ^ 8 + c.mp % 256 * 2 ^ 16 + c.ar % 256 * 2 ^ 24 + c.th % 256 * 2 ^ 32)

/-- LEFT (R273): it counts down while a PREEMPT is served; after a restore it reads as the save found it (R282). -/
def Group.leftNow (g : Group) (now : Nat) : Nat :=
  match g.pre with | .served t => g.csr.budget - (now - t) | _ => g.csr.left

/-- PBUDGET (R273). -/
def Group.pbudget (g : Group) (now : Nat) : W64 :=
  let left := g.leftNow now
  BitVec.ofNat 64 (left * 2 ^ 32 + g.csr.budget)

/-- TMASK (R268). -/
def Csrs.tmask (c : Csrs) : W64 := (BitVec.ofBool c.wskip ++ BitVec.ofBool c.pend ++ BitVec.ofBool c.m).zeroExtend 64

/-- SYMCFG (R58): W − K and K. -/
def Group.symcfg (g : Group) : W64 := BitVec.ofNat 64 ((g.ident.w - g.ident.k) * 2 ^ 8 + g.ident.k)

/-- The value of a CSR by number (R58). -/
def csrRead (s : State) (g : Group) (n : Nat) : W64 :=
  match n with
  | 0x000 => g.csr.fmode.zeroExtend 64
  | 0x001 => (s.team g.ident.tid).tsf.zeroExtend 64
  | 0x002 => BitVec.ofNat 64 g.csr.wh
  | 0x003 => g.csr.ecnt
  | 0x004 => g.csr.tview.zeroExtend 64
  | 0x005 => g.csr.aview.zeroExtend 64
  | 0x006 => g.csr.lpol
  | 0x008 => g.csr.hbase
  | 0x009 => g.csr.tcause
  | 0x00A => g.csr.tepc
  | 0x00B => g.csr.tval
  | 0x00C => g.csr.tmask
  | 0x00D => g.pbudget s.m.ftime
  | 0x020 => g.symcfg
  | n => Tbl.get 0 g.csr.watch (n - 0x10)

/-- Bits of a watchpoint that are not reserved (R278). -/
def watchBits : W64 := 0xEF0FFFFFFFFFFFFF

/-- The group's CSRs after a write (R355); TSF is the team's. -/
def csrWrite (c : Csrs) (n : Nat) (x : W64) : Csrs :=
  match n with
  | 0x000 => { c with fmode := x.extractLsb' 0 4 }
  | 0x004 => { c with tview := x.extractLsb' 0 16 }
  | 0x005 => { c with aview := x.extractLsb' 0 16 &&& 0xFF3F }
  | 0x006 => { c with lpol := x }
  | 0x008 => { c with hbase := x &&& ~~~3 }
  | 0x00A => { c with tepc := x &&& ~~~3 }
  | 0x00C => { c with m := x.getLsbD 0, wskip := x.getLsbD 2 }
  | n => if 0x10 ≤ n then { c with watch := Tbl.put 0 c.watch (n - 0x10) (x &&& watchBits) } else c

/-- CSRR (R354, R355). -/
def execCsrr (f : Fields) (s : State) : Host.Outcome State Fault Refusal :=
  issueGroup (.csrr f) f (fun c s =>
    let g := c.g s
    .ok (s.setGroup c.gid (g.putS f.d (csrRead s g f.c.code.toNat)))) s

/-- CSRW (R354, R355). -/
def execCsrw (f : Fields) (s : State) : Host.Outcome State Fault Refusal :=
  let n := f.c.code.toNat
  issueGroup (.csrw f) f (fun c s => do
    let g := c.g s
    scalReady g [f.a]
    let x := g.srcU c.sub f f.a
    guardI c (!(0x10 ≤ n && n ≤ 0x17 && decide (14 ≤ (x.extractLsb' 56 4).toNat)))
    if n = 0x001 then
      return s.setTeam g.ident.tid { s.team g.ident.tid with tsf := x.extractLsb' 0 5 }
    return s.setGroup c.gid { g with csr := csrWrite g.csr n x }) s

/-- TICK (R438). -/
def execTick (f : Fields) (s : State) : Host.Outcome State Fault Refusal :=
  issueBoth (.tick f) f false
    (fun c s => .ok (s.setGroup c.gid ((c.g s).putS f.d (BitVec.ofNat 64 s.m.ftime))))
    (fun _ q r s => .ok (match f.d with
      | .s n => s.setRun q (r.setScal n.val (BitVec.ofNat 64 s.m.ftime)) | _ => s)) s

/-- The physical die of a valid virtual-die entry (R105). -/
def vdie (s : State) (p v : Nat) : Option Nat :=
  match (s.part p).e.dies[v]? with
  | some d => if v < 16 && d < 16 then some d else none
  | none => none

/-- VDHOP (R440): ring distance of two virtual dies. -/
def execVdhop (f : Fields) (s : State) : Host.Outcome State Fault Refusal :=
  issueGroup (.vdhop f) f (fun c s => do
    let g := c.g s
    scalReady g [f.a, f.b]
    let u := (g.srcU c.sub f f.a).toNat
    let v := (g.srcU c.sub f f.b).toNat
    let r := match vdie s g.ident.part u, vdie s g.ident.part v with
      | some a, some b => let d := max a b - min a b; min d (16 - d)
      | _, _ => 0xFF
    return s.setGroup c.gid (g.putS f.d (BitVec.ofNat 64 r))) s

end Sys2Proof.Machine
end

