-- ==== Sys2Proof/Machine/Access.lean ====
section
/-!
DEFINITION. Issuing and performing memory accesses: addresses (R313), the issue checks (R399), accesses in flight with
the order of R212, their performing at a place (R207 to R211) and their landing (R400 to R402, R238).
-/

namespace Sys2Proof.Machine

/-! ### Addresses -/

/-- EXT fields of a memory word (R313, R398). -/
def memSp (f : Fields) : Bool := f.ext.getLsbD 9
def memScale (f : Fields) : Nat := 2 ^ f.extN 7 2
def memSize (f : Fields) : Nat := 2 ^ f.extN 10 2
def memIndex (f : Fields) : Opd := Opd.ofCode (f.ext.extractLsb' 0 7)

/-- The address of a lane (R313). -/
def memAddr (g : Group) (f : Fields) (l : Nat) : W64 :=
  let base : W64 := match f.a with | .v n => (g.lane n.val l).zeroExtend 64 | .s n => g.scal n.val | _ => 0
  let idx : W64 := match memIndex f with
    | .v n => (g.lane n.val l).signExtend 64 | .s n => g.scal n.val | .lane => BitVec.ofNat 64 l | _ => 0
  base + idx * BitVec.ofNat 64 (memScale f) + f.imm.signExtend 64

/-- The sources of the memory form: base and index, checked as indexes (R313). They stand here in the order in which they
settle: A, then INDEX, before B and C (R68 does not place INDEX). (DESIGN CHOICE, log 76) -/
def memUses (f : Fields) : List Use :=
  [{ o := f.a, bt := f.btA, index := true }, { o := memIndex f, index := true }]

/-- The policy operand must be valid (R169), which is judged with the decode faults, once its scalar is available. While it
is not, the traps of the sources come before the wait (R27). (DEDUCED, log 24) -/
def guardPolicy (c : Ctx) (g : Group) (uses : List Use) : Except Stop Unit := do
  scalTraps g [c.f.pol]
  if !(busyScals g [c.f.pol]).isEmpty then
    sourceTraps g uses
    settleTraps g (g.settles uses)
    throw .wait
  guardI c (polValid (policy g c.f))

/-! ### Issue checks -/

/-- One element that an instruction wants to access; `al` is the alignment its address needs (0: none). -/
structure Req where
  lane : Nat
  va : W64
  size : Nat
  al : Nat := 0
  data : Nat := 0
  cmp : W32 := 0
  off : Nat := 0
deriving DecidableEq, Repr

def Req.elem (r : Req) (p : Place) : Elem :=
  { lane := r.lane, va := r.va, place := p, size := r.size, data := r.data, cmp := r.cmp, off := r.off }

/-- Translates the elements one after the other: their places, or the trap of each that fails. -/
def placesOf (part : Nat) (w : Bool) (scope4 : Bool) : List Req → State → State × List (Req × Except Trap Place)
  | [], s => (s, [])
  | r :: rs, s =>
    let one : State × Except Trap Place := match translate s part r.va.toNat w false with
      | .error t => (s, .error t)
      | .ok (s, e) => match e.place r.va.toNat with
        | .dom a => (s, if scope4 then .ok (.dom a) else .error { cause := Cause.prot, tval := r.va, w := w })
        | p => (s, .ok p)
    let (s, l) := placesOf part w scope4 rs one.1
    (s, (r, one.2) :: l)

def failOf (x : Req × Except Trap Place) : Option Trap := match x.2 with | .error t => some t | .ok _ => none

/-- Places of elements in virtual memory, or the first trap of R264: PAGEFLT of the lowest lane, else PROT. -/
def placeVirt (s : State) (part : Nat) (w scope4 : Bool) (rs : List Req) : Except Stop (State × List Elem) :=
  let (s, l) := placesOf part w scope4 rs s
  let ts := l.filterMap failOf
  match ts.find? fun t => t.cause == Cause.pageflt with
  | some t => .error (.trap t)
  | none => match ts with
    | t :: _ => .error (.trap t)
    | [] => .ok (s, l.filterMap fun (r, x) => match x with | .ok p => some (r.elem p) | .error _ => none)

/-- Places of elements in scratchpad (R166, R313). -/
def placeSp (s : State) (tid : Nat) : List Req → Except Stop (List Elem)
  | [] => .ok []
  | r :: rs => do
    let (t, off) ← spad64 s tid r.va r.size
    let l ← placeSp s tid rs
    return r.elem (.sp t off) :: l

def Place.isRoot : Place → Bool | .pa _ r _ => r | _ => false

/-- The checks of a store-like access on elements of virtual memory: CAPROT, OWNWR, DETOP (R399, R256). -/
def guardStores (s : State) (g : Group) (kind : DetKind) (opcFn : Nat) (es : List Elem) : Except Stop Unit := do
  match es.find? fun e => e.place.isRoot with
  | some e => throw (.trap { cause := Cause.caprot, tval := e.va, w := true, page := some e.va.toNat })
  | none => pure ()
  match es.find? fun e => detOwn s g kind e.va.toNat e.size with
  | some e => throw (.trap { cause := Cause.ownwr, tval := e.va, w := true })
  | none => pure ()
  guardN (!(es.any fun e => detOpTrap s g kind e.va.toNat e.size)) Cause.detop opcFn

/-- WATCH, in lane order (R278). -/
def guardWatch (g : Group) (sub : Nat) (r w : Bool) : List Elem → Except Stop Unit
  | [] => .ok ()
  | e :: es => do watchCheck g sub e.va.toNat e.size r w; guardWatch g sub r w es

/-- The issue checks of R399 on the elements of an instruction, in the order of R264. A float ATOM to scratchpad traps nothing
in a DET launch, since R256 leaves scratchpad unchecked. (DEDUCED, log 88) -/
def resolve (c : Ctx) (s : State) (r w : Bool) (kind : DetKind) (opcFn : Nat) (reqs : List Req) :
    Except Stop (State × List Elem) := do
  let g := c.g s
  match reqs.find? fun q => q.al != 0 && q.va.toNat % q.al != 0 with
  | some q => trapOf Cause.align q.va
  | none => pure ()
  if memSp c.f then
    let es ← placeSp s g.ident.tid reqs
    return (s, es)
  let (s, es) ← placeVirt s g.ident.part w (polScope (policy g c.f) = 4) reqs
  if w then guardStores s g kind opcFn es
  guardWatch g c.sub r w es
  return (s, es)

/-! ### Accesses in flight -/

def Elem.open' (e : Elem) : Bool := e.st == .issued
def ElemSt.settled : ElemSt → Bool | .done | .failed => true | _ => false
def Access.finished (a : Access) : Bool := a.elems.all fun e => e.st.settled
def AccKind.storeLike : AccKind → Bool | .store | .atom _ _ => true | _ => false
def AccKind.loadLike : AccKind → Bool | .load | .late _ _ | .atom _ true => true | _ => false

/-- Store-like accesses whose T_w has passed, and every other finished access, need not be remembered (R215). -/
def pruneAccesses (s : State) : State :=
  { s with accesses := s.accesses.filter fun (_, a) =>
      !(a.finished && (!a.kind.storeLike || decide (a.tw ≤ s.m.ftime)) &&
        (match a.kind with | .late _ _ => false | _ => true)) }

/-- Records a new access; it takes the group's next sequence value (R214). -/
def addAccess (c : Ctx) (s : State) (kind : AccKind) (dest : Dest) (tag : Tag) (signed : Bool) (pol : W32)
    (es : List Elem) : Nat × State :=
  let s := pruneAccesses s
  let (id, s) := s.fresh
  let (seq, s) := nextSeq s c.gid
  let g := c.g s
  let a : Access := { gid := c.gid, tid := g.ident.tid, seq := seq, kind := kind, dest := dest, tag := tag, signed := signed,
                      pol := pol, core := g.ident.core, elems := es,
                      mask := (g.sub c.sub).mask }
  (id, { s with accesses := Tbl.set s.accesses id a })

/-- Two places meet in at least one byte. -/
def Place.meets (p : Place) (n : Nat) (q : Place) (m : Nat) : Bool :=
  match p, q with
  | .pa a _ _, .pa b _ _ => overlaps a n b m
  | .dom a, .dom b => overlaps a n b m
  | .sp t a, .sp u b => t == u && overlaps a n b m
  | .host a, .host b => overlaps a n b m
  | _, _ => false

/-- An element is still to be performed; the words of a late load are performed at its arrival (R220, R76). -/
def Access.waits (a : Access) (x : Elem) : Bool :=
  x.open' || (match a.kind with | .late _ _ => x.st == .done | _ => false)

/-- An element that must wait: an older access of the same lanes, or an earlier lane of the same store or ATOM, still has
an element to perform on one of its bytes, and one of the two is store-like (R212, R434, R238). (DEDUCED, log 70) -/
def heldBack (s : State) (id i : Nat) (a : Access) (e : Elem) : Bool :=
  (a.kind.storeLike && (a.elems.zipIdx).any fun (x, j) => decide (j < i) && x.open' && x.place.meets x.size e.place e.size)
  || s.accesses.any fun (k, b) => k != id && b.gid == a.gid && olderSeq a.seq b.seq
      && (a.mask &&& b.mask) != 0 && (a.kind.storeLike || b.kind.storeLike)
      && b.elems.any fun x => b.waits x && x.place.meets x.size e.place e.size

/-- The element an event names, if it may be performed. -/
def elemReady (s : State) (id i : Nat) : Option (Access × Elem) :=
  match Tbl.look s.accesses id with
  | none => none
  | some a => match a.elems[i]? with
    | none => none
    | some e => if e.open' && !heldBack s id i a e then some (a, e) else none

def setElem (a : Access) (i : Nat) (e : Elem) : Access := { a with elems := a.elems.set i e }
def State.setAccess (s : State) (id : Nat) (a : Access) : State := { s with accesses := Tbl.set s.accesses id a }

/-- A scalar load's value (R400): sign-extended for FMT 1. -/
def extendLoad (signed : Bool) (bs : List Byte) : W64 :=
  let n := natOfBytes bs
  if signed then BitVec.ofInt 64 (toSigned (8 * bs.length) n) else BitVec.ofNat 64 n

/-- One element's value goes to its destination (R400): of an 8-byte element, bytes 4 to 7 go to the next register. -/
def deliverTo (s : State) (id : Nat) (a : Access) (e : Elem) (bs : List Byte) : State :=
  match Tbl.look s.groups a.gid, a.dest with
  | some g, .win => s.setGroup a.gid ((g.deliver id e.off (bs.take 4)).deliver id (e.off + 1024) (bs.drop 4))
  | some g, .scal n =>
    if g.sbusy.contains (n, id) then s.setGroup a.gid (g.setScal n (extendLoad a.signed bs)) else s
  | _, _ => s

/-- The lowest failing address of an access. -/
def lowFail (a : Access) : W64 :=
  match (a.elems.filter fun e => e.st == .failed).map fun e => e.va.toNat with
  | [] => 0
  | x :: xs => BitVec.ofNat 64 (xs.foldl min x)

/-- The flags of an ATOM reach TSF when its last access has been performed (R238). The end of an access: the destination
lands, or, when a lane failed, a MEMUE is held (R402, R238). A late load waits for its arrival. -/
def settleAccess (id : Nat) (s : State) : State :=
  match Tbl.look s.accesses id with
  | none => s
  | some a =>
    if a.elems.any Elem.open' then s else
      let s := (s.setAccess id { a with flags := 0 }).orTsf a.tid a.flags
      if !a.finished then s else
      let bad := a.elems.any fun e => e.st == .failed
      match Tbl.look s.groups a.gid, a.kind with
      | some g, .load | some g, .atom _ true =>
        if !bad then match a.dest with | .win => s.setGroup a.gid (g.land id) | _ => s
        else
          let m : Memue := { id := id, prod := if a.dest = .win then some id else none
                             scal := match a.dest with | .scal n => some n | _ => none
                             addr := lowFail a, kindL := true, kindS := a.kind.storeLike, denied := a.denied }
          s.setGroup a.gid { g with memues := g.memues ++ [m] }
      | some g, .atom _ false | some g, .store =>
        if bad then s.setGroup a.gid { g with memues := g.memues ++
          [{ id := id, prod := none, scal := none, addr := lowFail a, kindL := false, kindS := true, denied := a.denied }] } else s
      | _, _ => s

/-- An access to an element fails for good: its read (R177, R402, R238), or the link to its module (R302, R271), for stores
too. Scratchpad raises no MEMUE. (DEDUCED, log 65) -/
def failElem (id i : Nat) (s : State) : State :=
  match elemReady s id i with
  | none => s
  | some (a, e) =>
    match a.kind, e.place with
    | _, .sp _ _ => s
    | .store, .pa _ _ _ | .store, .host _ => s
    | _, _ => settleAccess id (s.setAccess id (setElem a i { e with st := .failed }))

/-- One element of a load is performed and delivered (R209, R210, R400). A word of a late load has been read here; its
value is the one at its arrival (R220). -/
def performElem (id i : Nat) (evicted : Bool) (s : State) : State :=
  match elemReady s id i with
  | none => s
  | some (a, e) =>
    if a.kind.storeLike then s else if goneAway s e.place then failElem id i s else
      let t := s.team a.tid
      let (s, bs) := loadAt s t.part t.lid a.core a.pol e.place e.size evicted
      settleAccess id (deliverTo (s.setAccess id (setElem a i { e with st := .done })) id a e bs)

/-- The load of a tile or accumulator register (R404): its elements name no lane of their own. -/
def Access.isTile (a : Access) : Bool := a.kind == .load && a.dest == .win && decide (288 ≤ a.elems.length)

/-- The unexpired copy that a load of an element would hit (R171). -/
def copyFor (s : State) (a : Access) (e : Elem) : Option LineCopy := copyAt s (s.team a.tid).part a.core a.pol e.place

/-- Every element of a tile load has a copy, and the copies of each 4 KiB saw the same add-on-stores (R160). -/
def tileFromCopies (s : State) (id : Nat) (a : Access) : Bool :=
  let cs := a.elems.map (copyFor s a)
  (cs.zip (List.range a.elems.length)).all (fun (c, i) => c.isSome && (elemReady s id i).isSome)
    && cs.all fun c => cs.all fun d => match c, d with
      | some c, some d => c.line / 4096 != d.line / 4096 || c.olds == d.olds
      | _, _ => true

/-- LOAD_DELIVERY of an element (R209). A tile is read wholly before or wholly after an add-on-store (R160, R161, R211): from
its copies at once, where all are there and agree; otherwise a copy older than an update of its tile serves no element.
(DEDUCED, log 82) -/
def performLoad (id i : Nat) (evicted : Bool) (s : State) : State :=
  match Tbl.look s.accesses id with
  | none => s
  | some a =>
    if a.isTile && !evicted && (a.elems[i]?.bind (copyFor s a)).isSome then
      if a.elems.all Elem.open' && tileFromCopies s id a then
        (List.range a.elems.length).foldl (fun s i => performElem id i false s) s
      else performElem id i (match a.elems[i]?.bind (copyFor s a) with | some c => c.olds != 0 | none => false) s
    else performElem id i evicted s

/-- One element of a store is applied at its place (R208, R213). The core's own copy of the line, which a load of other
bytes may have brought back since the issue, is dropped again, so that a later load of the group reads the store (R436). -/
def performStore (id i : Nat) (s : State) : State :=
  match elemReady s id i with
  | none => s
  | some (a, e) =>
    if a.kind != .store then s else if goneAway s e.place then failElem id i s else
      let (s, tw) := applyStore (dropOwnCopy s (s.team a.tid).part a.core e.place) e.place (bytesOfNat e.size e.data)
      let s := s.setAccess id { setElem a i { e with st := .done } with tw := max a.tw tw }
      settleAccess id (raiseWh s a.gid a.tid tw)

/-- The new value of an ATOM (R237). -/
def AtomOp.apply (o : AtomOp) (old data cmp : Nat) : Nat × BitVec 5 :=
  let sg := toSigned 32
  match o with
  | .add => ((old + data) % 2 ^ 32, 0)
  | .fadd => FFmt.f32.add .rne old data
  | .smax => (if sg old < sg data then data else old, 0)
  | .smin => (if sg data < sg old then data else old, 0)
  | .nmax => (max old data, 0)
  | .nmin => (min old data, 0)
  | .fmax => FFmt.f32.minmax true old data
  | .fmin => FFmt.f32.minmax false old data
  | .and => (old &&& data, 0)
  | .or => (old ||| data, 0)
  | .xor => (old ^^^ data, 0)
  | .xchg => (data, 0)
  | .cas => (if old = cmp then data else old, 0)

/-- One element of an ATOM is applied at its place in one step (R238). -/
def performAtom (id i : Nat) (s : State) : State :=
  match elemReady s id i with
  | none => s
  | some (a, e) =>
    match a.kind with
    | .atom op ret =>
      if goneAway s e.place then failElem id i s else
      let old := natOfBytes (peek s e.place 4)
      let (new, fl) := op.apply old e.data e.cmp.toNat
      let (s, tw) := applyStore (dropOwnCopy s (s.team a.tid).part a.core e.place) e.place (bytesOfNat 4 new)
      let st : ElemSt := if ret then .applied tw (BitVec.ofNat 32 old) else .done
      let s := s.setAccess id { setElem a i { e with st := st } with tw := max a.tw tw, flags := a.flags ||| fl }
      settleAccess id (raiseWh s a.gid a.tid tw)
    | _ => s

/-- The old value of an applied element lands (R238). -/
def landAtom (id i : Nat) (s : State) : State :=
  match Tbl.look s.accesses id with
  | none => s
  | some a => match a.elems[i]? with
    | none => s
    | some e => match e.st with
      | .applied _ old =>
        let s := s.setAccess id (setElem a i { e with st := .done })
        settleAccess id (deliverTo s id a e (bytesOfNat 4 old.toNat))
      | _ => s

end Sys2Proof.Machine
end

