-- ==== Sys2Proof/Machine/Queue.lean ====
section
/-!
DEFINITION. Queues (R225 to R229), barriers (R230 to R232), their breakage (R233) and the event trellis (R234, R235), as
operations at the bank that holds the object.
-/

namespace Sys2Proof.Machine

/-! ### The trellis -/

/-- The passes of an engine whose programs run, or have ended with drains still to complete (R153, R154). -/
def Engine.runs (e : Engine) : List Run := e.run.toList ++ e.ending

/-- The engine has eligible passes to grant (R154, R162). -/
def Engine.eligible (e : Engine) : Bool := e.queue.any (·.gate.isNone)

/-- Gates of queued passes open; an engine that had nothing eligible until now counts its idle time from now on (R162). -/
def Engine.openPassGates (e : Engine) (now : Nat) (which : Pass → Bool) : Engine :=
  let e' := { e with queue := e.queue.map fun p => if which p then { p with gate := none } else p }
  { e' with idleSince := if e'.eligible && !e.eligible then now else e.idleSince }

/-- A row fires: every line of its ROUTE opens the gates that wait for it and ends the sleeps whose wake mask holds it
(R234, R235). -/
def fireRow (s : State) (core row : Nat) : State :=
  let lines := Tbl.get 0 (s.core core).route row
  if lines = 0 then s else
    let now := s.m.ftime
    let c := s.core core
    let s := s.setCore core { c with fired :=
      ((List.range 16).filter lines.getLsbD).foldl (fun t e => Tbl.set t e now) c.fired }
    let opens := fun (gate : Option Nat) (since : Nat) => match gate with
      | some e => lines.getLsbD e && decide (since < now)
      | none => false
    let q := State.quartet core
    let s := s.setEngine q ((s.engine q).openPassGates now fun p => p.ident.core == core && opens p.gate p.post)
    { s with
      copies := s.copies.map fun (k, y) =>
        if y.core == core && opens y.gate y.since then (k, { y with gate := none }) else (k, y)
      groups := s.groups.map fun (k, g) =>
        if g.ident.core == core && (g.wake &&& lines) != 0 then
          (k, { g with woken := g.woken ++ ((g.sleep.filter fun (_, t) => decide (t ≤ now)).map (·.1)).filter fun x => !g.woken.contains x })
        else (k, g) }

/-- A source row fires only for teams resident on the core (R234). -/
def fireFor (s : State) (tid row : Nat) : State :=
  let t := s.team tid
  if t.gids.isEmpty then s else fireRow s t.core row

/-! ### Objects -/

/-- The object a scratchpad address names (R226, R230), of `n` bytes in its header; a broken allocation traps `brk`
(R233). -/
def spObj (s : State) (tid addr n brk : Nat) : Except Stop (Nat × Nat) :=
  match spTeam s tid addr with
  | none => trapN Cause.prot addr
  | some (t, off) =>
    let x := s.team t
    if x.broken && decide (off < x.spSize) then trapN brk addr
    else if off + n ≤ x.spSize then .ok (t, off) else trapN Cause.prot addr

/-- A line of a wake mask fires at the present tick (R235). -/
def firedNow (s : State) (core : Nat) (mask : BitVec 16) : Bool :=
  (s.core core).fired.any fun (e, t) => mask.getLsbD e && t == s.m.ftime

/-- FTIME reaches a multiple of 65,536 ticks: row 5 fires on every core (R234). -/
def fireTime (s : State) : State := s.cores.foldl (fun s (n, _) => fireRow s n 5) s

/-- Bytes of the instruction that waits: MREL is a 128-bit word (R416), the others 64-bit ones (R228). -/
def WaitKind.bytes : WaitKind → Nat | .mrel => 16 | _ => 8

/-- A registered wait is over: its instruction is complete and has issued (R229, R56). -/
def wake (s : State) (w : Waiter) (f : Group → Group) : State :=
  let s := lapseLatch { s with waiters := s.waiters.erase w } w.gid w.sub
  match Tbl.look s.groups w.gid with
  | none => s
  | some g =>
    let g := f g
    s.setGroup w.gid (g.subPc w.sub ((g.sub w.sub).pc + BitVec.ofNat 64 w.kind.bytes))

/-- A sub-group waits at an object already. -/
def waiting (s : State) (gid sub : Nat) : Bool := s.waiters.any fun w => w.gid == gid && w.sub == sub

/-- The waits of a sub-group pass to the one whose place it takes (R33). -/
def moveWaits (s : State) (gid k x : Nat) : State :=
  { s with waiters := s.waiters.map fun w => if w.gid == gid && w.sub == k then { w with sub := x } else w }

/-- A wait whose object has been broken ends in its trap (R233). -/
def brokenWait (s : State) (gid sub cause : Nat) : Except Stop Unit :=
  match s.waiters.find? fun w => w.gid == gid && w.sub == sub && w.broken with
  | some w => .error (.trapWith { s with waiters := s.waiters.erase w } { cause := cause, tval := w.va })
  | none => .ok ()

/-- The sub-group of `h` that has taken the lanes of sub-group `k` of `g`, as it stood before a fusion (R32). -/
def Group.foldedInto (g h : Group) (k : Nat) : Option Nat :=
  if (Tbl.look h.subs k).isSome then some k
  else (h.subs.find? fun (_, y) => (y.mask &&& (g.sub k).mask) != 0).map (·.1)

/-- The wait of a sub-group that has been folded into another goes on as the other's, which stands at the same instruction
(R32, R229). (DEDUCED, log 30) -/
def foldWaits (s : State) (g : Group) (gid : Nat) : State :=
  let h := s.group gid
  { s with waiters := s.waiters.filterMap fun w =>
      if w.gid != gid then some w
      else (g.foldedInto h w.sub).bind fun k =>
        if k != w.sub && s.waiters.any (fun x => x.gid == gid && x.sub == k) then none else some { w with sub := k } }

/-! ### Queues -/

/-- A queue header (R225). -/
structure QHead where
  cap : Nat
  head : Nat
  tail : Nat
deriving DecidableEq, Repr

/-- The header as it stands, checked (R225, R226). -/
def qRead (s : State) (t off addr : Nat) : Except Stop QHead :=
  let n := fun (o k : Nat) => spNum s t (off + o) k
  let h : QHead := ⟨n 0 2, n 4 4, n 8 4⟩
  if n 2 1 = 2 then trapN Cause.qbrk addr
  else if n 2 1 != 1 || h.cap = 0 || decide (1024 < h.cap) || n 3 1 != 0 || n 12 4 != 0 || n 0x28 24 != 0
      || decide (h.cap < (h.tail + 2 ^ 32 - h.head) % 2 ^ 32) then trapN Cause.prot 0x601
  else if (s.team t).spSize < off + 64 + 9 * h.cap then trapN Cause.prot addr
  else .ok h

/-- QPUSH by spread member `j`: none when it must wait (R227). -/
def qPush (s : State) (t off : Nat) (h : QHead) (j : Nat) (x : W64) : Option State :=
  let allow := spNum s t (off + 0x10 + j) 1
  if allow = 0 || (h.tail + 2 ^ 32 - h.head) % 2 ^ 32 = h.cap then none
  else
    let n := h.tail % h.cap
    let s := spPut s t (off + 0x40 + 8 * n) 8 x.toNat
    let s := spPut s t (off + 0x40 + 8 * h.cap + n) 1 j
    let s := spPut s t (off + 0x10 + j) 1 (allow - 1)
    let s := spPut s t (off + 8) 4 ((h.tail + 1) % 2 ^ 32)
    some (if h.tail = h.head then fireFor s t 4 else s)

/-- QPOP: none when the queue is empty (R227). A sender byte that names no team of a spread raises no ALLOW. (DESIGN CHOICE,
log 86) -/
def qPop (s : State) (t off : Nat) (h : QHead) : Option (W64 × State) :=
  if h.tail = h.head then none
  else
    let n := h.head % h.cap
    let x := BitVec.ofNat 64 (spNum s t (off + 0x40 + 8 * n) 8)
    let j := spNum s t (off + 0x40 + 8 * h.cap + n) 1
    let s := if j < 24 then spPut s t (off + 0x10 + j) 1 (min 255 (spNum s t (off + 0x10 + j) 1 + 1)) else s
    some (x, spPut s t (off + 4) 4 ((h.head + 1) % 2 ^ 32))

/-- Serves one waiter of a queue, if it can proceed; a waiter that meets a malformed header issues its instruction
again. -/
def qServeOne (s : State) (w : Waiter) : Option State :=
  match qRead s w.tid w.off w.va.toNat with
  | .error _ => some { s with waiters := s.waiters.erase w }
  | .ok h =>
    match w.kind with
    | .pop => (qPop s w.tid w.off h).map fun (x, s) => wake s w fun g => g.setScal w.dst x
    | .push => (qPush s w.tid w.off h w.len w.value).map fun s => wake s w id
    | .barw | .mrel => none

/-- The first of a list of waiters that can proceed is served. -/
def qServeAny (s : State) : List Waiter → Option State
  | [] => none
  | w :: ws => match qServeOne s w with
    | some s => some s
    | none => qServeAny s ws

/-- Waiting pops in the order they registered, then the waiting pushes that can proceed, until none can (R229). -/
def qServe (t off : Nat) : Nat → State → State
  | 0, s => s
  | n + 1, s =>
    let mine := s.waiters.filter fun w => w.tid == t && w.off == off && !w.broken
    match qServeAny s ((mine.filter (·.kind == .pop)) ++ mine.filter (·.kind == .push)) with
    | some s => qServe t off n s
    | none => s

/-- Serving after a change of the queue. Each pass serves or drops one registered waiter. -/
def qServeAll (s : State) (t off : Nat) : State := qServe t off s.waiters.length s

/-! ### Barriers -/

/-- A barrier (R230). -/
structure Bar where
  exp : Nat
  arrv : Nat
  phase : Nat
  pend : Nat
deriving DecidableEq, Repr

/-- The barrier as it stands, checked (R230). -/
def barRead (s : State) (t off addr : Nat) : Except Stop Bar :=
  let n := fun (o k : Nat) => spNum s t (off + o) k
  let b : Bar := ⟨n 0 2, n 2 2, n 4 4, n 8 8⟩
  if n 0x10 1 = 1 then trapN Cause.barbrk addr
  else if b.exp = 0 || decide (1 < n 0x10 1) || n 0x11 15 != 0 || decide (b.exp < b.arrv) then trapN Cause.prot 0x612
  else .ok b

/-- An update of ARRV and PEND with its phase test; a new phase wakes its waiters and fires row 3 (R231, R234). `add` is
the change of PEND modulo 2^64. -/
def barUpdate (s : State) (t off : Nat) (b : Bar) (arr add : Nat) : State :=
  let arrv := b.arrv + arr
  let pend := (b.pend + add) % 2 ^ 64
  let done := arrv == b.exp && pend == 0
  let phase := if done then (b.phase + 1) % 2 ^ 32 else b.phase
  let s := spPut s t (off + 2) 2 (if done then 0 else arrv)
  let s := spPut s t (off + 4) 4 phase
  let s := spPut s t (off + 8) 8 pend
  if !done then s else
    let s := (s.waiters.filter fun w => w.kind == .barw && w.tid == t && w.off == off && !w.broken && w.value.toNat != phase).foldl
      (fun s w => wake s w id) s
    fireFor s t 3

/-- An instruction or a transfer has named a barrier, which breaks with its allocation (R233). -/
def noteBar (s : State) (t off : Nat) : State :=
  let x := s.team t
  if x.bobjs.contains off then s else s.setTeam t { x with bobjs := x.bobjs ++ [off] }

/-- A chunk or drain subtracts its bytes from the barrier it names (R232); a broken or malformed barrier stays as it is.
(DEDUCED, log 37) -/
def barBytes (s : State) (tid : Nat) (bar : Option Nat) (n : Nat) : State :=
  match bar with
  | none => s
  | some k =>
    let t := s.team tid
    if t.broken || decide (t.spSize < 32 * k + 32) then s
    else match barRead s tid (32 * k) 0 with
      | .ok b => barUpdate (noteBar s tid (32 * k)) tid (32 * k) b 0 (2 ^ 64 - n % 2 ^ 64)
      | .error _ => s

/-- The check of a named barrier (R232). -/
def barNamed (s : State) (tid : Nat) (bar : Option Nat) : Except Stop Unit :=
  match bar with
  | none => .ok ()
  | some k => guardN (decide (32 * k + 32 ≤ (s.team tid).spSize)) Cause.prot (32 * k)

/-- Offsets in the allocation of team `t` at which the queue table of a team names headers (R226). -/
def queuesIn (s : State) (tid t : Nat) : List Nat :=
  (s.team tid).queues.filterMap fun a => match spTeam s tid a with
    | some (x, off) => if x == t then some off else none
    | none => none

/-- A team's queue table is dropped with it: the queues in its spread's other allocations stay noted there (R226, R233). -/
def dropQueues (s : State) (tid : Nat) : State :=
  let s := s.teams.foldl (fun s (t, _) =>
    let offs := queuesIn s tid t
    if t == tid || offs.isEmpty then s
    else s.setTeam t { s.team t with qobjs := ((s.team t).qobjs ++ offs).dedup }) s
  s.setTeam tid { s.team tid with queues := [] }

/-- Barriers that transfers in flight of a team name, by offset (R232). -/
def barsInFlight (s : State) (tid : Nat) : List Nat :=
  (s.copies.filterMap fun (_, y) => if y.tid == tid then y.bar.map (32 * ·) else none)
    ++ s.engines.flatMap fun (_, e) => (e.runs.filter (·.pass.tid == tid)).flatMap fun r =>
      r.drains.filterMap fun d => d.bar.map (32 * ·)

/-- Queues and barriers of a team that ends are broken (R233): the headers in its allocation that queue tables, instructions,
transfers or registered waits have named are marked BROKEN, and every wait at its objects ends in a trap.
(DEDUCED, log 29) -/
def breakObjects (s : State) (tid : Nat) : State :=
  let mine := s.waiters.filter fun w => w.tid == tid && w.kind != .mrel
  let heads := (s.teams.flatMap fun (k, _) => queuesIn s k tid) ++ (s.team tid).qobjs
    ++ (mine.filter (·.kind != .barw)).map (·.off)
  let bars := (s.team tid).bobjs ++ barsInFlight s tid ++ (mine.filter (·.kind == .barw)).map (·.off)
  let s := (heads.dedup.filter fun off => (qRead s tid off 0).toBool).foldl (fun s off => spPut s tid (off + 2) 1 2) s
  let s := (bars.dedup.filter fun off => (barRead s tid off 0).toBool).foldl (fun s off => spPut s tid (off + 0x10) 1 1) s
  let s := s.setTeam tid { s.team tid with broken := true }
  { s with waiters := s.waiters.map fun w => if w.tid == tid && w.kind != .mrel then { w with broken := true } else w }

end Sys2Proof.Machine
end

