-- ==== Sys2Proof/Machine/Store.lean ====
section
/-!
DEFINITION. The thicket store: pools and namespaces (R186, R187), names (R188, R189), twigs and data bytes (R190, R191),
reference counts (R193 to R195), lookup-or-allocate (R197), and a team's reference list (R194).
-/

namespace Sys2Proof.Machine

/-- The index of namespace `ns` as partition `p` sees it (R187): 0 is the provider pool's. -/
def spaceOf (p ns : Nat) : Nat := if ns = 0 then 0 else 4 * p + ns

/-- The salt of a namespace, 32 bytes read little-endian (R187). -/
def saltOf (s : State) (p ns : Nat) : Nat :=
  if ns = 0 then s.m.providerSalt else ((s.part p).salts[ns - 1]?).getD 0

/-- The name with collision index 0 of a content (R188). -/
def nameOf (salt : Nat) (twig : Bool) (content : List Byte) : Nat :=
  Sha.sha384 (bytesOfNat 32 salt ++ [if twig then 0x54 else 0x4C] ++ content) / 2 ^ 196 * 16

def findObj (s : State) (space name : Nat) : Option Obj := s.objs.find? fun o => o.space == space && o.name == name

/-- Two indexes lie in one pool (R186). -/
def samePool (a b : Nat) : Bool := if a = 0 || b = 0 then a == b else a / 4 == b / 4

/-- Objects a pool holds at most (R186). -/
def poolCap (s : State) (space : Nat) : Nat :=
  (if space = 0 then s.m.providerPool else (s.part (space / 4)).e.pool) * 2 ^ 20 / 320

/-- Objects a pool stores; a freed twig counts until its pruning has completed (R195). -/
def poolUsed (s : State) (space : Nat) : Nat :=
  (s.objs.filter fun o => samePool o.space space).length + (s.prunes.filter fun p => samePool p.1 space).length

/-- Fields of a twig (R190). -/
def twigLevel (bs : List Byte) : Nat := ((bs[1]?).getD 0).toNat
def twigCount (bs : List Byte) : Nat := ((bs[2]?).getD 0).toNat
def twigTotal (bs : List Byte) : Nat := natOfBytes ((bs.drop 4).take 8)
def twigKids (bs : List Byte) : List Nat :=
  (List.range (min 10 (twigCount bs))).map fun i => natOfBytes ((bs.drop (16 + 24 * i)).take 24)

/-- Data bytes of an object (R191). -/
def Obj.size (o : Obj) : Nat := if o.twig then twigTotal o.bytes else 256

/-- The limits of R190 that the twig's own bytes show. -/
def twigForm (bs : List Byte) : Bool :=
  let n := twigCount bs
  let l := twigLevel bs
  (bs[0]?).getD 0 == 0x54 && decide (1 ≤ l) && decide (l ≤ 7) && decide (1 ≤ n) && decide (n ≤ 10)
    && decide (((bs[3]?).getD 0).toNat ≤ 10) && ((bs.drop 12).take 4).all (· == 0) && (bs.drop (16 + 24 * n)).all (· == 0)
    && (twigKids bs).all (· != 0)

/-- The limits of R190 that its children show, all of them stored. -/
def twigFits (s : State) (space : Nat) (bs : List Byte) : Bool :=
  let os := (twigKids bs).filterMap (findObj s space)
  let t := twigTotal bs
  (os.all fun o => if twigLevel bs = 1 then !o.twig else o.twig && decide (twigLevel o.bytes + 1 = twigLevel bs))
    && decide (1 ≤ t) && decide (t ≤ (os.map Obj.size).foldl (· + ·) 0)

/-- The data bytes of an object, by levels of twigs below it (R191). -/
def objData (s : State) (space : Nat) : Nat → Nat → Option (List Byte)
  | 0, _ => none
  | n + 1, name =>
    match findObj s space name with
    | none => none
    | some o =>
      if !o.twig then some o.bytes
      else
        ((twigKids o.bytes).foldl (fun acc k => acc.bind fun bs => (objData s space n k).map (bs ++ ·)) (some [])).map
          fun bs => bs.take (twigTotal o.bytes)

/-- The saturated count (R195). -/
def countMax : Nat := 0xFFFFFFFF

/-- One reference more on a stored object (R195). -/
def addRef (s : State) (space name : Nat) : State :=
  { s with objs := s.objs.map fun o =>
      if o.space == space && o.name == name then { o with count := min countMax (o.count + 1) } else o }

/-- One reference less (R195): at 0 the object is freed, and a freed twig's children wait for pruning. -/
def dropRef (s : State) (space name : Nat) : State :=
  match findObj s space name with
  | none => s
  | some o =>
    if o.count = countMax then s
    else if 1 < o.count then
      { s with objs := s.objs.map fun x => if x.space == space && x.name == name then { x with count := x.count - 1 } else x }
    else
      { s with
        objs := s.objs.filter fun x => !(x.space == space && x.name == name)
        prunes := if o.twig then s.prunes ++ [(space, twigKids o.bytes)] else s.prunes }

def dropRefs (space name : Nat) : Nat → State → State
  | 0, s => s
  | n + 1, s => dropRefs space name n (dropRef s space name)

/-- Counts a collision event (R197). -/
def countCollision (s : State) (space : Nat) : State :=
  if space = 0 then s.setM { s.m with collisions := s.m.collisions + 1 }
  else
    let x := s.part (space / 4)
    s.setPart (space / 4) { x with collisions := x.collisions + 1 }

/-- Lookup-or-allocate in one index step (R197). A new twig adds 1 to each child (R198). The error is a cause and TVAL;
CACOLL's TVAL is the caller's. -/
def lookAlloc (s : State) (space salt : Nat) (twig : Bool) (c : List Byte) : Except (Nat × Nat) (Bool × Nat × State) :=
  let h := nameOf salt twig c
  match (List.range 16).find? fun i =>
      match findObj s space (h + i) with | some o => o.twig == twig && o.bytes == c | none => false with
  | some i => .ok (true, h + i, s)
  | none =>
    match (List.range 16).find? fun i => (i != 0 || h != 0) && (findObj s space (h + i)).isNone with
    | none => .error (Cause.cacoll, 0)
    | some i =>
      if poolCap s space ≤ poolUsed s space then .error (Cause.cafull, 0)
      else
        let s := if twig then (twigKids c).foldl (fun s k => addRef s space k) s else s
        let s := if i = 0 then s else countCollision s space
        .ok (false, h + i, { s with objs := s.objs ++ [⟨space, h + i, twig, c, 0⟩] })

/-! ### Reference lists (R194) -/

/-- The team takes one hold; none when its list is full. A hold of a team that has ended is dropped with the rest (R203). The
references of a hold are counted without bound. (DESIGN CHOICE, log 84) -/
def addHold (s : State) (tid space name : Nat) : Option State :=
  let t := s.team tid
  if t.ended then some (dropRef (addRef s space name) space name)
  else match t.holds.find? fun (a, n, _) => a == space && n == name with
    | some _ =>
      some ((addRef s space name).setTeam tid { t with holds := t.holds.map fun (a, n, k) =>
        if a == space && n == name then (a, n, k + 1) else (a, n, k) })
    | none =>
      if 4096 ≤ t.holds.length then none
      else some ((addRef s space name).setTeam tid { t with holds := t.holds ++ [(space, name, 1)] })

/-- RUNP: a pin first, otherwise one unit of the hold (R194); none when the team has neither. -/
def releaseRef (s : State) (tid space name : Nat) : Option State :=
  let t := s.team tid
  if t.pins.contains (space, name) then
    some (dropRef (s.setTeam tid { t with pins := t.pins.erase (space, name) }) space name)
  else match t.holds.find? fun (a, n, _) => a == space && n == name with
    | none => none
    | some (_, _, k) =>
      let hs := if k ≤ 1 then t.holds.filter fun (a, n, _) => !(a == space && n == name)
        else t.holds.map fun (a, n, j) => if a == space && n == name then (a, n, j - 1) else (a, n, j)
      some (dropRef (s.setTeam tid { t with holds := hs }) space name)

/-- Every pin and hold of a team is dropped (R194, R280). -/
def dropList (s : State) (tid : Nat) : State :=
  let t := s.team tid
  let s := s.setTeam tid { t with pins := [], holds := [] }
  let s := t.pins.foldl (fun s (a, n) => dropRef s a n) s
  t.holds.foldl (fun s (a, n, k) => dropRefs a n k s) s

/-- PRUNING: one pending drop of a freed twig's child (R195). A twig's storage is free once its last child is dropped. -/
def pruneOne (s : State) : State :=
  match s.prunes with
  | [] => s
  | (space, ks) :: rest =>
    match ks with
    | [] => { s with prunes := rest }
    | [k] => dropRef { s with prunes := rest } space k
    | k :: ks => dropRef { s with prunes := (space, ks) :: rest } space k

end Sys2Proof.Machine
end

