-- ==== Sys2Proof/Machine/Lifecycle.lean ====
section
/-!
DEFINITION. How groups, teams and launches end: retirement of engine operations (R216), the end of a group (R370) and of a
team with its reclamation in the order of R280, killed launches, and EXIT (R369, R33, R34).
-/

namespace Sys2Proof.Machine

/-! ### Retirement (R216) -/

/-- The oldest completed operations of one owner leave a table, up to the first that has not completed; their number. -/
def retireTbl {α : Type} (mine done : α → Bool) : Tbl α → Bool → Tbl α × Nat
  | [], _ => ([], 0)
  | (k, x) :: t, open' =>
    if mine x then
      if done x && open' then let (t, n) := retireTbl mine done t true; (t, n + 1)
      else let (t, n) := retireTbl mine done t false; ((k, x) :: t, n)
    else let (t, n) := retireTbl mine done t open'; ((k, x) :: t, n)

/-- A class counter falls by `n` (R216). -/
def countDown (s : State) (gid : Nat) (cls : Cls) (n : Nat) : State :=
  match Tbl.look s.groups gid with
  | none => s
  | some g =>
    let c := g.csr
    let c := match cls with
      | .cp => { c with cp := c.cp - n } | .rd => { c with rd := c.rd - n } | .mp => { c with mp := c.mp - n }
      | .ar => { c with ar := c.ar - n } | .th => { c with th := c.th - n }
    s.setGroup gid { g with csr := c }

def Copy.isCopy (y : Copy) : Bool := y.obj.isNone

def retireCopies (s : State) (gid : Nat) : State :=
  let (t, n) := retireTbl (fun y : Copy => y.gid == gid && y.isCopy) (fun y => y.st == .done) s.copies true
  countDown { s with copies := t } gid .cp n
def retireReds (s : State) (gid : Nat) : State :=
  let (t, n) := retireTbl (fun y : Red => y.gid == gid) (fun y => y.done) s.reds true
  countDown { s with reds := t } gid .rd n
def retireThops (s : State) (gid : Nat) : State :=
  let (t, n) := retireTbl (fun y : ThOp => y.gid == gid) (fun y => y.done) s.thops true
  countDown { s with thops := t } gid .th n

/-- FENCE's AR kind names LAYR and LAYRT, which take a sequence value; an LPRB takes none (R214), though it counts on AR
(R406); a probe of an epoch is no instruction. -/
def ArrOp.counts (y : ArrOp) : Bool := match y.dest with | .probe _ | .epoch => false | _ => true

def retireArrops (s : State) (gid : Nat) : State :=
  let (t, n) := retireTbl (fun y : ArrOp => y.gid == gid) (fun y => y.landed) s.arrops true
  countDown { s with arrops := t } gid .ar n

/-- Passes of a group that have not completed, by sequence. -/
def openPasses (s : State) (gid : Nat) : List Nat :=
  s.engines.flatMap fun (_, e) =>
    ((e.queue ++ e.runs.map (·.pass)).filter (·.gid == gid)).map (·.seq)

/-- Completed passes retire once no older pass of the group is open (R216). -/
def retirePasses (s : State) (gid : Nat) : State :=
  match Tbl.look s.groups gid with
  | none => s
  | some g =>
    let opens := openPasses s gid
    let go := fun (q : Nat) => !opens.any fun o => olderSeq q o
    let n := (g.mpDone.filter go).length
    countDown (s.setGroup gid { g with mpDone := g.mpDone.filter fun q => !go q }) gid .mp n

/-! ### Reservations (R148, R161) -/

/-- The reservation entry of a team on its quartet's engine (R147). -/
def resvOf (s : State) (tid : Nat) : Option (Nat × Resv) :=
  (s.engine (State.quartet (s.team tid).core)).resvs.find? fun (_, r) => r.tid == tid

/-- Passes of a team on its quartet's engine. -/
def teamPasses (s : State) (tid : Nat) : Bool :=
  let e := s.engine (State.quartet (s.team tid).core)
  e.queue.any (·.tid == tid) || e.runs.any (·.pass.tid == tid)

/-- Frees a reservation: entry, accumulators, B buffers, and the image if no other reservation uses it (R148). -/
def freeResv (s : State) (tid : Nat) : State :=
  match resvOf s tid with
  | none => s
  | some (k, r) =>
    let q := State.quartet (s.team tid).core
    let e := s.engine q
    let resvs := Tbl.del e.resvs k
    let keep := resvs.any fun (_, x) => x.lid == r.lid
    s.setEngine q { e with
      resvs := resvs
      bufs := e.bufs.map fun (b, x) => if x.owner == some tid then (b, { x with owner := none }) else (b, x)
      images := if keep then e.images else e.images.filter fun (l, _, _) => l != r.lid }

/-! ### Ends -/

/-- Gates of a team's queued passes and unstarted copies open as if their lines had fired: when a save of one of its groups
begins and when its last resident group leaves (R236), and when the team ends, since its passes are to finish (R161) and no
line will fire for it. (DESIGN CHOICE, log 83) -/
def openGates (s : State) (tid : Nat) : State :=
  { s with
    engines := s.engines.map fun (k, e) => (k, e.openPassGates s.m.ftime (·.tid == tid))
    copies := s.copies.map fun (k, y) => if y.tid == tid then (k, { y with gate := none }) else (k, y) }

/-- ROUTE is reset when a core's last resident team leaves (R236). -/
def dropRoute (s : State) (core : Nat) : State :=
  if s.teams.any fun (_, t) => t.core == core && !t.gids.isEmpty then s
  else s.setCore core { s.core core with route := [] }

/-- Coalescer records that entries of a group lead close with the group (R266, R370). (DEDUCED, log 40) -/
def closeLed (s : State) (es : List HEntry) : State :=
  es.foldl (fun s e => match e.led with | some (core, r) => closeRec s core r | none => s) s

/-- A group leaves its slot: bind record FREE (R251, R252, R370), latch entries, registered waits and its bits in coalescer
records go. The slot of a killed group is kept until its team has been reclaimed (R280). -/
def leaveSlot (s : State) (gid : Nat) : State :=
  let g := s.group gid
  let n := g.ident.core
  let c := s.core n
  let killed := (s.launch g.ident.lid).killed.isSome
  let c := { c with
    binds := Tbl.upd c.binds g.ident.slot fun b => { b with state := if killed then b.state else 0, gid := 0 }
    latch := (c.latch.map fun (k, es) => (k, es.filter fun e => e.gid != gid)).filter fun (_, es) => !es.isEmpty
    recs := c.recs.map fun (k, r) => (k, { r with slots := r.slots.filter (· != g.ident.slot) }) }
  let s := { s.setCore n c with waiters := s.waiters.filter fun w => w.gid != gid }
  if killed then
    let t := s.team g.ident.tid
    s.setTeam g.ident.tid { t with slots := t.slots ++ [g.ident.slot] }
  else s

/-- The slots of a reclaimed team's killed groups are released (R280 step 7). -/
def freeSlotsOf (s : State) (tid : Nat) : State :=
  let t := s.team tid
  if t.slots.isEmpty then s else
    let c := s.core t.core
    let s := s.setCore t.core { c with
      binds := t.slots.foldl (fun (b : Tbl Bind) n => Tbl.upd b n fun (x : Bind) => { x with state := 0 }) c.binds }
    s.setTeam tid { t with slots := [] }

/-- Contexts of a team in its partition's context storage (R281). -/
def contextsOf (s : State) (part launch team : Nat) : List Saved :=
  s.contexts.filter fun c => c.part == part && c.launch == launch && c.team == team

/-- A saved context under its new partition: references of its own namespaces (R206) and the objects of its parked COUTs are
renamed, and the records of a core that its group led are that core's. -/
def Saved.moveTo (c : Saved) (p : Nat) : Saved :=
  let sp := fun (a : Nat) => if a = 0 then 0 else spaceOf p (a % 4)
  let team := fun (t : Team) =>
    { t with part := p, pins := t.pins.map fun (a, n) => (sp a, n), holds := t.holds.map fun (a, n, k) => (sp a, n, k) }
  let copy := fun (y : Copy) => { y with part := p, obj := y.obj.map fun (a, n) => (sp a, n) }
  { c with part := p, t := c.t.map team, copies := c.copies.map copy, g := c.g.map fun g => { g with entries := g.entries.map fun e => { e with led := none } } }

/-- The header of a context image (R358): the body's length and SHA-384 stand in it. -/
def imageHeader (c : Saved) (body : List Byte) : List Byte :=
  let id := match c.g with | some g => g.ident | none => {}
  let (kind, w, k, i) := match c.group with | some i => (1, id.w, id.k, i) | none => (2, 0, 0, 0)
  bytesOfNat 4 1 ++ bytesOfNat 1 kind ++ bytesOfNat 1 w ++ bytesOfNat 1 k ++ bytesOfNat 1 i ++ bytesOfNat 4 c.launch
    ++ bytesOfNat 4 c.team ++ bytesOfNat 8 body.length ++ bytesOfNat 8 0 ++ (bytesOfNat 48 (Sha.sha384 body)).reverse ++ bytesOfNat 16 0

/-- The most a context may occupy (R281). -/
def Saved.bound (c : Saved) : Nat :=
  match c.g, c.t with
  | some g, _ => 1024 * g.ident.w + 16384
  | none, some t => t.spSize + 65536
  | none, none => 0

/-- A context with the image that its save writes (R358): the header, and a body in the device's own order. (DESIGN CHOICE,
log 14) -/
def Saved.written (c : Saved) : Saved :=
  let body := (Config.contextBody c).take c.bound
  { c with image := imageHeader c body ++ body }

/-- A saved context enters its partition's context storage (R281), and what its body spells is on record for CTXR (R358). -/
def keepContext (s : State) (c : Saved) : State :=
  let c := c.written
  { s with contexts := s.contexts ++ [c], bodies := s.bodies ++ [(c.image.drop 96, c)] }

/-- A team is saved: its state of R281 with its reservation (R163), and it returns to its launch's start list (R272, R276). The
queues that it has named in its spread's other allocations stay noted there (R233). -/
def saveTeam (s : State) (tid : Nat) : State :=
  let t := s.team tid
  let l := s.launch t.lid
  let e := s.engine (State.quartet t.core)
  let bufs := e.bufs.filter fun (_, b) => b.owner == some tid
  let c : Saved := { part := t.part, launch := l.r.id, team := t.index, group := none, t := some { t with gids := [], saved := true }
                     resv := (resvOf s tid).map (·.2), bufs := bufs }
  let s := dropQueues (freeResv s tid) tid
  let s := keepContext { s with teams := Tbl.del s.teams tid } c
  let s := match Tbl.look s.launches t.lid with
    | some l => s.setLaunch t.lid { l with
        live := l.live.filter (· != tid), toStart := l.toStart ++ [(t.index, true)]
        since := if l.live.all (· == tid) then none else l.since }
    | none => s
  dropRoute s t.core

/-- A team none of whose groups is resident, with a group saved and no pass posted (R161, R163), is saved; not one of a
killed launch, which ends (R280). -/
def saveIdle (s : State) (tid : Nat) : State :=
  let t := s.team tid
  if t.gids.isEmpty && !t.ended && (s.launch t.lid).killed.isNone && !(contextsOf s t.part (s.launch t.lid).r.id t.index).isEmpty && !teamPasses s tid then saveTeam s tid
  else s

/-- The last resident group of a team has left, and some of its groups are saved: its gates open (R236), and it is saved once
its passes have finished (R161). -/
def leaveTeam (s : State) (tid : Nat) : State := saveIdle (openGates s tid) tid

/-- A watching team that has ended discards its pending hits (R279). -/
def dropHits (s : State) (tid : Nat) : State :=
  let t := s.team tid
  let id := (s.launch t.lid).r.id
  let x := s.part t.part
  s.setPart t.part { x with watch := x.watch.map fun (k, w) =>
    if w.lid == id && w.team == t.index then (k, { w with hit := none }) else (k, w) }

/-- The end of a team, steps 1 to 3 of R280 (R79, R194, R233); without a resident team its launch is resident no longer
(R249). Its other resources are reclaimed by `sweep`. -/
def endTeam (s : State) (tid : Nat) : State :=
  let s := dropHits s tid
  let s := s.setTeam tid { s.team tid with ended := true, gids := [] }
  let s := dropQueues (breakObjects (dropList (openGates s tid) tid) tid) tid
  let t := s.team tid
  let s := match Tbl.look s.launches t.lid with
    | some l => s.setLaunch t.lid { l with
        live := l.live.filter (· != tid), since := if l.live.all (· == tid) then none else l.since }
    | none => s
  dropRoute s t.core

/-- The end of a group (R34, R370): the records it leads close. A held MEMUE is dropped and counted (R402), and so are faults
not yet delivered; its write horizon stays with its launch (R248). The team ends with its last group, unless some of its
groups are saved. -/
def endGroup (s : State) (gid : Nat) : State :=
  match Tbl.look s.groups gid with
  | none => s
  | some g =>
    let lid := g.ident.lid
    let s := leaveSlot (closeLed s g.entries) gid
    let s := countDropped s lid g.faults.length
    let s := s.setM { s.m with droppedMemue := s.m.droppedMemue + g.memues.length }
    let s := match Tbl.look s.launches lid with
      | some l => s.setLaunch lid { l with maxWh := max l.maxWh g.csr.wh }
      | none => s
    let s := { s with groups := Tbl.del s.groups gid }
    let t := s.team g.ident.tid
    let gids := t.gids.filter (· != gid)
    let s := s.setTeam g.ident.tid { t with gids := gids }
    if !gids.isEmpty then s
    else if (contextsOf s t.part (s.launch lid).r.id t.index).isEmpty then endTeam s g.ident.tid
    else leaveTeam s g.ident.tid

/-- Passes finished: the reservation is freed (R280 step 4). Parked copies are discarded, those that waited behind them retire
(R216), and once no engine operation is left, the scratchpad is zeroed and freed, and the slots of killed groups are released
(steps 5 to 7). (DEDUCED, log 38) -/
def reclaim (s : State) (tid : Nat) : State :=
  let t := s.team tid
  if !t.ended || t.reclaimed then s else
    let parked := fun (y : Copy) => match y.st with | .parked _ _ _ => y.tid == tid | _ => false
    let gone := (s.copies.filter fun (_, y) => parked y).filterMap fun (_, y) => if y.isCopy then none else some y.seq
    let gids := ((s.copies.filter fun (_, y) => parked y).map (·.2.gid)).dedup
    let s := { s with
      copies := s.copies.filter fun (_, y) => !parked y
      thops := s.thops.filter fun (_, o) => !(o.tid == tid && o.kind == .cout && gone.contains o.seq) }
    let s := gids.foldl (fun s gid => retireThops (retireCopies s gid) gid) s
    if teamPasses s tid then s else
      let s := freeResv s tid
      if (s.copies.any fun (_, y) => y.tid == tid) || (s.reds.any fun (_, y) => y.tid == tid)
          || (s.thops.any fun (_, y) => y.tid == tid) then s
      else freeSlotsOf (s.setTeam tid { s.team tid with sp := [], reclaimed := true }) tid

/-- The saved contexts of a killed launch go, with the references of its teams (R280, R194). -/
def dropContexts (s : State) (l : Launch) : State :=
  let mine := fun (c : Saved) => c.part == l.part && c.launch == l.r.id
  let gone := s.contexts.filter mine
  let s := { s with contexts := s.contexts.filter fun c => !mine c }
  let s := gone.foldl (fun s c => match c.g with | some g => closeLed s g.entries | none => s) s
  gone.foldl (fun s c => match c.t with
    | some t => t.holds.foldl (fun s (a, n, k) => dropRefs a n k s) (t.pins.foldl (fun s (a, n) => dropRef s a n) s)
    | none => s) s

/-- Results that only time held back land in their groups (R385), and the latch entries on their registers end (R57). -/
def landResults (s : State) : State :=
  (s.groups.filter fun (_, g) => !(g.dueProds s.m.ftime).isEmpty).foldl (fun s (k, g) => s.setGroup k (g.landDue s.m.ftime)) s

/-- Killed launches (R280): their contexts go, their groups are gone at once, and teams none of whose groups was resident end
with them. -/
def sweepKilled (s : State) : State :=
  let dead := fun (s : State) (lid : Nat) => (s.launch lid).killed.isSome
  let s := (s.launches.filter fun (_, l) => l.killed.isSome).foldl (fun s (_, l) => dropContexts s l) s
  let s := (s.groups.filter fun (_, g) => dead s g.ident.lid).foldl (fun s (k, _) => endGroup s k) s
  (s.teams.filter fun (_, t) => dead s t.lid && t.gids.isEmpty && !t.ended).foldl (fun s (k, _) => endTeam s k) s

/-- Waiting MRELs of teams without a pass queued or running free their reservations (R148, R416). -/
def serveMrel (s : State) : State :=
  (s.waiters.filter fun w => w.kind == .mrel && !teamPasses s w.tid).foldl (fun s w => wake (freeResv s w.tid) w id) s

/-- Killed launches lose what is theirs (R280), waiting MRELs are served, ended teams are reclaimed as far as their
operations allow, teams whose groups have all left are saved once their passes have finished (R163), and records of imprecise
faults that nobody waits for close. -/
def sweep (s : State) : State :=
  let s := serveMrel (sweepKilled s)
  let s := (s.teams.filter fun (_, t) => t.ended && !t.reclaimed).foldl (fun s (k, _) => reclaim s k) s
  let s := (s.teams.filter fun (_, t) => t.gids.isEmpty && !t.ended).foldl (fun s (k, _) => saveIdle s k) s
  let s := landResults s
  (s.cores.filter fun (_, c) => c.recs.any fun (_, r) => r.engine && !r.stage2).foldl (fun s (k, _) => pruneEngineRecs s k) s

/-! ### EXIT -/

/-- Lanes leave a sub-group, which stands at `pc` if any lane is left (R34, R33). -/
def exitLanes (s : State) (gid sub : Nat) (act : Mask) (pc : W64) : State :=
  let g := s.group gid
  let y := g.sub sub
  let g := { g with exited := g.exited ||| act }
  let g := g.setSub sub { y with mask := y.mask &&& ~~~act, pc := pc }
  let s := match g.heir sub with | some k => moveWaits s gid k sub | none => s
  match g.resolveEmpty sub with
  | some g => s.setGroup gid { g with lastSub := some sub }
  | none => sweep (endGroup (s.setGroup gid g) gid)

/-- EXIT (R369); in a pass it obeys its predicate and ends the program (R150). (DEDUCED, log 23) -/
def execExit (f : Fields) (s : State) : Host.Outcome State Fault Refusal :=
  issueBoth (.exit f) f true
    (fun c s =>
      let g := c.g s
      let act := if f.uni then (if g.uniOn c.sub f then (g.sub c.sub).mask else 0) else g.activeReal c.sub f
      .ok (exitLanes s c.gid c.sub act (c.pc + BitVec.ofNat 64 c.len)))
    (fun c q r s =>
      .ok (if r.predOn f then s.setEngine q ((s.engine q).endProgram s.m.ftime)
        else s.setEngine q { s.engine q with run := some { r with pc := c.pc + BitVec.ofNat 64 c.len } })) s

end Sys2Proof.Machine
end

