-- ==== Sys2Proof/Machine/Engine.lean ====
section
/-!
DEFINITION. The copy engines and the reducers: CPY (R178 to R182, R350, R351), RED (R183, R184, R424, R425), the copy-out
of a COUT (R349), and the module steps that carry them out.
-/

namespace Sys2Proof.Machine

/-! ### Engine accesses -/

/-- The places of a virtual range for an engine, page by page: address, place and length (R165, R169, R192). -/
def engPlaces (s : State) (part : Nat) (w : Bool) (pol : W32) (va n : Nat) :
    Except Trap (State × List (Nat × Place × Nat)) :=
  (pagePieces va n).foldl (fun r (a, k) => r.bind fun (s, l) =>
    (translate s part a w false).bind fun (s, e) =>
      match e.place a with
      | .dom d =>
        if polScope pol = 4 && s.m.left.contains (d / 2 ^ 46) then
          .error { cause := Cause.memue, tval := BitVec.ofNat 64 a, w := w, page := some a }
        else if polScope pol = 4 then .ok (s, l ++ [(a, .dom d, k)])
        else .error { cause := Cause.prot, tval := BitVec.ofNat 64 a, w := w, page := some a }
      | p =>
        if w && p.isRoot then .error { cause := Cause.caprot, tval := BitVec.ofNat 64 a, w := true, page := some a }
        else .ok (s, l ++ [(a, p, k)])) (.ok (s, []))

/-- Bytes of a virtual range, read at their places (R207). -/
def engRead (s : State) (part : Nat) (pol : W32) (va n : Nat) : Except Trap (State × List Byte) :=
  (engPlaces s part false pol va n).map fun (s, l) => (s, l.flatMap fun (_, p, k) => peek s p k)

/-- The same for a reader at its issue, for which a line may fail (R177). (DEDUCED, log 73) -/
def issueRead (s : State) (part : Nat) (pol : W32) (va n : Nat) : Except Trap (State × List Byte) :=
  (engPlaces s part false pol va n).bind fun (s, l) =>
    match l.findSome? fun (a, p, k) => (badAt s p k).map (a + ·) with
    | some a => .error (memueAt a false)
    | none => .ok (s, l.flatMap fun (_, p, k) => peek s p k)

/-- Stores bytes at places already found: the latest T_w; `agent` is the writer of R268. -/
def engStore (s : State) (agent : Nat) (l : List (Nat × Place × Nat)) (bs : List Byte) : State × Nat :=
  let r := l.foldl (fun (r : State × Nat × List Byte) (x : Nat × Place × Nat) =>
    let (s, tw, bs) := r
    let (_, p, k) := x
    let (s, t) := applyStore s p (bs.take k)
    (markWatch s agent 0 p k, max tw t, bs.drop k)) (s, 0, bs)
  (r.1, r.2.1)

def engWrite (s : State) (part agent : Nat) (pol : W32) (va : Nat) (bs : List Byte) : Except Trap (State × Nat) :=
  (engPlaces s part true pol va bs.length).map fun (s, l) => engStore s agent l bs

/-- The coalescer hears of an engine fault (R182, R266). (DEDUCED, log 36) -/
def engReport (s : State) (core tid : Nat) (t : Trap) : State :=
  reportEngine s core (s.team tid).lid t.cause (page64 t.tval.toNat) t.w t.stage2

/-! ### CPY -/

def sideOf (n : Nat) : Side := match n with | 1 => .spad | 2 => .host | _ => .virt

def cpyBar (f : Fields) : Option Nat := if f.ext.getLsbD 4 then some (f.extN 5 16) else none
def cpyGate (f : Fields) : Option Nat := if f.x.getLsbD 2 then some (f.extN 21 4) else none

/-- A host-window range with the needed permission (R178, R301): its host address. -/
def hostRange (s : State) (part : Nat) (w : Bool) (a n : Nat) : Option Nat :=
  let x := Tbl.get {} (s.part part).windows (bitsN a 56 4)
  let off := a % 2 ^ 56
  if a < 2 ^ 60 && decide (0 < x.len) && decide (off + n ≤ x.len) && (if w then x.wr else x.rd) then some (x.base + off)
  else none

/-- A scratchpad side's place, when its address names a live allocation. -/
def spadPlace (s : State) (tid a : Nat) : Option (Nat × Nat) :=
  match spTeam s tid a with
  | some (t, off) => if (s.team t).reclaimed then none else some (t, off)
  | none => none

/-- Two sides of one kind overlap (R178); scratchpad addresses are compared where they point. -/
def sidesMeet (s : State) (tid : Nat) (sk dk : Side) (a b n : Nat) : Bool :=
  sk == dk && match sk with
    | .spad => overlaps a n b n || (match spadPlace s tid a, spadPlace s tid b with
        | some (t, x), some (u, y) => t == u && overlaps x n y n
        | _, _ => false)
    | _ => overlaps a n b n

/-- Bytes queued on an engine, of one partition or of all: those left of running CPYs; parked copies and a COUT's copy-out
are not counted. (DESIGN CHOICE, log 87) -/
def queuedBytes (s : State) (engine : Nat) (part : Option Nat) : Nat :=
  (s.copies.filter fun (_, y) => y.engine == engine && y.st == .running && y.isCopy &&
    (match part with | some p => y.part == p | none => true)).foldl (fun n (_, y) => n + y.left) 0

/-- The cluster engine with fewer queued bytes, or the lower-numbered (R178). -/
def pickEngine (s : State) (core : Nat) : Nat :=
  let e := 2 * State.cluster core
  if queuedBytes s (e + 1) none < queuedBytes s e none then e + 1 else e

/-- CPY (R178, R180, R350, R351). -/
def execCpy (f : Fields) (s : State) : Host.Outcome State Fault Refusal :=
  issueGroup (.cpy f) f (fun c s => do
    let g := c.g s
    let tid := g.ident.tid
    guardPolicy c g [{ o := f.a }, { o := f.b }, { o := f.c }]
    scalReady g [f.c]
    let sv := fun (o : Opd) => match o with | .s n => (g.scal n.val).toNat | _ => 0
    let (src, dst, n) := (sv f.a, sv f.b, sv f.c)
    let sk := sideOf (f.extN 0 2)
    let dk := sideOf (f.extN 2 2)
    guardN (decide (1 ≤ n) && decide (n ≤ 2 ^ 24)) Cause.prot 0x300
    scalReady g [f.a, f.b]
    guardN (!sidesMeet s tid sk dk src dst n) Cause.prot 0x301
    guardN ((sk != .host || (hostRange s g.ident.part false src n).isSome)
      && (dk != .host || (hostRange s g.ident.part true dst n).isSome)) Cause.prot 0x302
    if sk == .spad then let _ ← spad64 s tid (BitVec.ofNat 64 src) n
    if dk == .spad then let _ ← spad64 s tid (BitVec.ofNat 64 dst) n
    barNamed s tid (cpyBar f)
    if dk == .virt then detCheck s g .copy dst n
    guardW (decide (g.csr.cp < 255))
    let e := pickEngine s g.ident.core
    let bw := max 2 (128 * (s.part g.ident.part).e.share / 64)
    let promise := s.m.ftime + ceilDiv (queuedBytes s e (some g.ident.part) + n) bw + 2000
    let (seq, s) := nextSeq s c.gid
    let g := c.g s
    let (id, s) := s.fresh
    let y : Copy := { gid := c.gid, tid := tid, part := g.ident.part, core := g.ident.core, engine := e, seq := seq, sk := sk
                      dk := dk, src := src, dst := dst, left := n, bar := cpyBar f, gate := cpyGate f, since := s.m.ftime
                      promise := promise, pol := policy g f }
    let s := { s with copies := Tbl.set s.copies id y }
    let g := { g with csr := { g.csr with cp := g.csr.cp + 1 } }
    return s.setGroup c.gid (g.putS f.d (BitVec.ofNat 64 promise))) s

/-- Source bytes of a chunk: of a virtual, scratchpad or host side, or of the object a COUT copies out. -/
def chunkRead (s : State) (y : Copy) (n : Nat) : Except Trap (State × List Byte) :=
  match y.obj with
  | some (space, name) =>
    match objData s space 8 name with
    | some bs => .ok (s, (bs.drop y.pos).take n)
    | none => .error { cause := Cause.canotf, tval := 0 }
  | none =>
    match y.sk with
    | .virt => engRead s y.part y.pol y.src n
    | .spad => match spadPlace s y.tid y.src with
      | some (t, off) => .ok (s, spBytes s t off n)
      | none => .ok (s, List.replicate n 0)
    | .host => match hostRange s y.part false y.src n with
      | some a => .ok (s, s.hostMem.bytes a n)
      | none => .error { cause := Cause.prot, tval := BitVec.ofNat 64 y.src }

/-- Destination of a chunk: what it writes and its T_w. -/
def chunkWrite (s : State) (y : Copy) (bs : List Byte) : Except Trap (State × Nat) :=
  match y.dk with
  | .virt => engWrite s y.part (if y.obj.isSome then 6 else 1) y.pol y.dst bs
  | .spad => match spadPlace s y.tid y.dst with
    | some (t, off) => .ok (spStore s t off bs, s.m.ftime)
    | none => .ok (s, s.m.ftime)
  | .host => match hostRange s y.part true y.dst bs.length with
    | some a => .ok ({ s with hostMem := s.hostMem.store a bs }, s.m.ftime)
    | none => .error { cause := Cause.prot, tval := BitVec.ofNat 64 y.dst, w := true }

/-- The length of the next chunk: to the next multiple of 4096 of the destination address (R179). -/
def chunkLen (y : Copy) : Nat := min y.left (4096 - y.dst % 4096)

/-- The next chunk of a copy, source before destination (R179). -/
def chunk (s : State) (y : Copy) : Except Trap (State × Copy) :=
  let n := chunkLen y
  (chunkRead s y n).bind fun (s, bs) => (chunkWrite s y bs).map fun (s, tw) =>
    (s, { y with src := y.src + n, dst := y.dst + n, pos := y.pos + n, left := y.left - n, tw := max y.tw tw
                 owed := n, st := if y.left = n then .written else .running })

/-- The thicket operation whose copy-out this is (R349). -/
def coutDone (s : State) (y : Copy) : State :=
  let s := { s with thops := s.thops.map fun (k, o) =>
    if o.gid == y.gid && o.seq == y.seq then (k, { o with done := true }) else (k, o) }
  retireThops s y.gid

/-- The completion of a copy: WH rises, the copy-completion event fires, and it retires (R179, R213, R216). -/
def copyEnd (s : State) (id : Nat) (y : Copy) : State :=
  let s := raiseWh s y.gid y.tid y.tw
  if y.isCopy then
    let s := { s with copies := Tbl.set s.copies id { y with st := .done } }
    let s := retireCopies s y.gid
    if (s.team y.tid).gids.isEmpty then s else fireRow s y.core 0
  else coutDone { s with copies := Tbl.del s.copies id } y

/-- A fault of a chunk: a stage-2 fault waits for firmware (R262); an object freed under a COUT ends it (R349); any other
parks the copy (R182), and is counted where its group has ended (R370). -/
def copyFault (s : State) (id : Nat) (y : Copy) (t : Trap) : State :=
  if t.stage2 then engReport s y.core y.tid t
  else if t.cause = Cause.canotf then
    coutDone (pushFault { s with copies := Tbl.del s.copies id } y.gid y.tid
      { cls := .th, cause := t.cause, tval := t.tval, w := false, op := y.seq }) y
  else
    let s := engReport { s with copies := Tbl.set s.copies id { y with st := .parked t.cause t.tval false } } y.core y.tid t
    if (Tbl.look s.groups y.gid).isSome then s else countDropped s (s.team y.tid).lid 1

/-- COPY_CHUNK (R179): the next chunk, or the completion once FTIME has reached the copy's T_w. A copy of a group that is being
saved stops at its next chunk boundary (R276). -/
def execCopyChunk (id : Nat) (s : State) : Host.Outcome State Fault Refusal :=
  .next (match Tbl.look s.copies id with
    | none => s
    | some y =>
      -- a chunk is complete at its T_w; only then does its barrier count it, and only then does the next one start
      if decide (s.m.ftime < y.tw) then s else
      let n := y.owed
      let y := { y with owed := 0 }
      let s := if n = 0 then s else barBytes { s with copies := Tbl.set s.copies id y } y.tid y.bar n
      match y.st with
      | .running =>
        if y.gate.isSome || (s.group y.gid).saving.isSome then s
        else match chunk s y with
          | .ok (s, y) => { s with copies := Tbl.set s.copies id y }
          | .error t => sweep (copyFault s id y t)
      | .written => sweep (copyEnd s id y)
      | _ => s)

/-! ### RED -/

/-- Length of a RED's sources and destination in bytes (R183). -/
def redSrcLen (op count : Nat) : Nat := if op = 1 then 2 * count else 4 * count

/-- A store-like access of the group still to be performed at a place that a virtual range names, under whatever address: a
younger load of the group waits for it (R212, R425). -/
def storePending (s : State) (gid va n : Nat) : Bool :=
  (pagePieces va n).any fun (a, k) => match translate s (s.group gid).ident.part a false false with
    | .error _ => false
    | .ok (_, x) => s.accesses.any fun (_, b) => b.gid == gid && b.kind.storeLike &&
        b.elems.any fun e => e.open' && e.place.meets e.size (x.place a) k

/-- The checks of R183 on the fields of a block, in order of offset: the first bad offset. -/
def redBadField (b : List Byte) : Option Nat :=
  let n := fun (o k : Nat) => natOfBytes ((b.drop o).take k)
  if 3 < n 0 1 then some 0
  else if n 1 1 < 2 || 16 < n 1 1 then some 1
  else if 1 < n 2 2 then some 2
  else if n 4 4 = 0 || n 4 4 % 32 != 0 || 2 ^ 24 < n 4 4 then some 4
  else if (b.drop 0x28).any (· != 0) then some 0x28
  else none

/-- ALIGN for the lowest-ordered address of a list that is not a multiple (R183). -/
def guardAligns : List (Nat × Nat) → Except Stop Unit
  | [] => .ok ()
  | (a, n) :: l => do guardN (a % n == 0) Cause.align a; guardAligns l

/-- A block or list that the issuing group reads at issue; its faults are precise (R183). -/
def readBlock (s : State) (g : Group) (pol : W32) (va n : Nat) : Except Stop (State × List Byte) :=
  match groupRead s g pol va n with
  | .ok r => .ok r
  | .error t => .error (.trap t)

/-- RED (R183, R424, R425): the fields are checked, then the list is read, and then the alignments of the addresses are
checked. (DESIGN CHOICE, log 85) -/
def execRed (f : Fields) (s : State) : Host.Outcome State Fault Refusal :=
  issueGroup (.red f) f (fun c s => do
    let g := c.g s
    guardPolicy c g [{ o := f.a }]
    scalReady g [f.a]
    let va := match f.a with | .s n => (g.scal n.val).toNat | _ => 0
    guardN (va % 64 == 0) Cause.align va
    guardW (!storePending s c.gid va 64)
    let (s, b) ← readBlock s g (policy g f) va 64
    match redBadField b with
    | some o => trapN Cause.prot (0x400 + o)
    | none => pure ()
    let n := fun (o k : Nat) => natOfBytes ((b.drop o).take k)
    let (op, k, count, list, dst, flag) := (n 0 1, n 1 1, n 4 4, n 8 8, n 0x10 8, n 0x18 8)
    guardN (list % 8 == 0) Cause.align list
    guardW (!storePending s c.gid list (8 * k))
    let (s, l) ← readBlock s g (policy g f) list (8 * k)
    let srcs := (List.range k).map fun i => natOfBytes ((l.drop (8 * i)).take 8)
    guardAligns ([(flag, 8), (dst, 128)] ++ srcs.map fun a => (a, if op = 1 then 64 else 128))
    let sl := redSrcLen op count
    let dl := 4 * count
    let same := fun (a : Nat) => a == dst && sl == dl
    guardN (!(srcs.any fun a => overlaps a sl dst dl && !same a)) Cause.prot 0x401
    let wants := n 2 2 = 1
    guardN (!(wants && (overlaps flag 8 dst dl || srcs.any fun a => overlaps flag 8 a sl))) Cause.prot 0x401
    detCheck s g .red dst dl
    if wants then detCheck s g .red flag 8
    watchCheck g c.sub va 64 true false
    watchCheck g c.sub list (8 * k) true false
    guardW (decide (g.csr.rd < 255))
    let (seq, s) := nextSeq s c.gid
    let g := c.g s
    let (id, s) := s.fresh
    let y : Red := { gid := c.gid, tid := g.ident.tid, part := g.ident.part, seq := seq, op := op, srcs := srcs, count := count
                     dst := dst, flag := if wants then some (flag, n 0x20 8) else none, pol := policy g f }
    let s := { s with reds := Tbl.set s.reds id y }
    return s.setGroup c.gid { g with csr := { g.csr with rd := g.csr.rd + 1 } }) s

/-- The 4 KiB stripes of a destination: start and length of stripe `i` (R184). -/
def Red.stripe (y : Red) (i : Nat) : Option (Nat × Nat) :=
  let first := y.dst - y.dst % 4096
  let a := max y.dst (first + 4096 * i)
  let e := min (y.dst + 4 * y.count) (first + 4096 * (i + 1))
  if a < e then some (a, e - a) else none

def Red.stripeCount (y : Red) : Nat := ceilDiv (y.dst % 4096 + 4 * y.count) 4096

/-- Step 1 of R184: every source, destination and flag page is translated before any byte is written; the places found
stand for the whole operation. -/
def Red.check (y : Red) (s : State) : Except Trap (State × Red) := do
  let (s, srcs) ← y.srcs.foldl (fun (r : Except Trap (State × List (List (Nat × Place × Nat)))) a => r.bind fun (s, ls) =>
    (engPlaces s y.part false y.pol a (redSrcLen y.op y.count)).map fun (s, l) => (s, ls ++ [l])) (.ok (s, []))
  let (s, dst) ← engPlaces s y.part true y.pol y.dst (4 * y.count)
  let (s, flag) ← match y.flag with
    | some (a, _) => engPlaces s y.part true y.pol a 8
    | none => .ok (s, [])
  return (s, { y with checked := true, places := srcs, dplaces := dst, fplaces := flag })

/-- A place some bytes on. -/
def Place.shift (p : Place) (o : Nat) : Place :=
  match p with
  | .pa a r ro => .pa (a + o) r ro
  | .dom a => .dom (a + o)
  | .sp t off => .sp t (off + o)
  | .host a => .host (a + o)

/-- The part of translated pieces that covers `n` bytes from a virtual address. -/
def cutPlaces (l : List (Nat × Place × Nat)) (va n : Nat) : List (Nat × Place × Nat) :=
  l.filterMap fun (a, p, k) =>
    let lo := max a va
    let hi := min (a + k) (va + n)
    if lo < hi then some (lo, p.shift (lo - a), hi - lo) else none

/-- One element of a RED: the pairwise tree over its sources (R98, R184). -/
def redElem (op : Nat) (xs : List Nat) : Nat × BitVec 5 :=
  let f := match op with
    | 0 | 1 => withFlags (FFmt.f32.add .rne)
    | 2 => withFlags fun a b => ((a + b) % 2 ^ 32, 0)
    | _ => withFlags (FFmt.f32.minmax true)
  (tree f (xs.map fun x => (if op = 1 then x * 2 ^ 16 else x, (0 : BitVec 5)))).getD (0, 0)

/-- The bytes and flags of a stripe. -/
def Red.compute (y : Red) (s : State) (a n : Nat) : List Byte × BitVec 5 :=
  let w := if y.op = 1 then 2 else 4
  let first := (a - y.dst) / 4
  let rows := (y.srcs.zip y.places).map fun (v, l) =>
    (cutPlaces l (v + w * first) (w * (n / 4))).flatMap fun (x : Nat × Place × Nat) => peek s x.2.1 x.2.2
  let es := (List.range (n / 4)).map fun e => redElem y.op (rows.map fun bs => natOfBytes ((bs.drop (w * e)).take w))
  (es.flatMap fun e => bytesOfNat 4 e.1, orFlags (es.map (·.2)))

/-- A fault of step 1: nothing is written; the group is told at its next WAITC or FWAIT on RD (R184, R425). -/
def redFault (s : State) (id : Nat) (y : Red) (t : Trap) : State :=
  let core := (s.team y.tid).core
  if t.stage2 then engReport s core y.tid t
  else
    let s := pushFault (engReport s core y.tid t) y.gid y.tid { cls := .rd, cause := t.cause, tval := t.tval, w := t.w, op := y.seq }
    retireReds { s with reds := Tbl.set s.reds id { y with done := true } } y.gid

/-- A stripe that cannot be read or written is not written; the trap, with the address of the first failure, waits for the
completion (R184, R302). -/
def loseStripe (s : State) (id stripe : Nat) (y : Red) (t : Trap) : State :=
  let x : Fault1 := { cls := .rd, cause := t.cause, tval := t.tval, w := t.w, op := y.seq }
  let s := engReport s (s.team y.tid).core y.tid t
  { s with reds := Tbl.set s.reds id { y with lost := y.lost ++ [stripe], fault := some (y.fault.getD x) } }

/-- The pieces that a stripe of `n` destination bytes from `a` reads and writes. -/
def Red.pieces (y : Red) (a n : Nat) : List (Nat × Place × Nat) :=
  let w := if y.op = 1 then 2 else 4
  (y.srcs.zip y.places).flatMap (fun (v, l) => cutPlaces l (v + w * ((a - y.dst) / 4)) (w * (n / 4))) ++ cutPlaces y.dplaces a n

/-- RED_STRIPE (R184): step 1 if it is still to be made, then one stripe. -/
def execRedStripe (id stripe : Nat) (s : State) : Host.Outcome State Fault Refusal :=
  .next (match Tbl.look s.reds id with
    | none => s
    | some y =>
      if y.done || y.stripes.contains stripe || y.lost.contains stripe then s
      else match y.stripe stripe with
        | none => s
        | some (a, n) =>
          match (if y.checked then .ok (s, y) else y.check s) with
          | .error t => sweep (redFault s id y t)
          | .ok (s, y) =>
            match (y.pieces a n).find? fun (_, p, _) => goneAway s p with
            | some (v, _, _) => loseStripe s id stripe y (memueAt v false)
            | none =>
            let (bs, fl) := y.compute s a n
            let (s, tw) := engStore s 3 (cutPlaces y.dplaces a n) bs
            { s with reds := Tbl.set s.reds id { y with
                stripes := y.stripes ++ [stripe], flags := y.flags ||| fl, tw := max y.tw tw } })

/-- Every stripe has been written, or lost (R184). -/
def Red.swept (y : Red) : Bool := y.checked && (List.range y.stripeCount).all fun i => y.stripes.contains i || y.lost.contains i

/-- The flag word of a RED cannot be stored (R302, R295): the RED is over with the trap, its flag unwritten. -/
def loseFlag (s : State) (id : Nat) (y : Red) (t : Trap) : State :=
  let x : Fault1 := { cls := .rd, cause := t.cause, tval := t.tval, w := true, op := y.seq }
  let s := engReport s (s.team y.tid).core y.tid t
  { s with reds := Tbl.set s.reds id { y with flagged := true, fault := some (y.fault.getD x) } }

/-- The flag word of a RED is to be stored: every destination store has completed (R184 step 5). -/
def Red.flagDue (y : Red) (now : Nat) : Bool :=
  y.flag.isSome && !y.done && !y.flagged && y.swept && y.lost.isEmpty && decide (y.tw ≤ now)

/-- RED_FLAG_STORE (R184 step 5): one 8-byte store. -/
def execRedFlagStore (id : Nat) (s : State) : Host.Outcome State Fault Refusal :=
  .next (match Tbl.look s.reds id with
    | none => s
    | some y =>
      match y.flag with
      | some (_, v) =>
        if !y.flagDue s.m.ftime then s
        else if y.fplaces.any (fun x => goneAway s x.2.1) then loseFlag s id y (memueAt (match y.flag with | some (a, _) => a | none => 0) true)
        else
          let (s, tw) := engStore s 3 y.fplaces (bytesOfNat 8 v)
          { s with reds := Tbl.set s.reds id { y with flagged := true, tw := max y.tw tw } }
      | none => s)

/-- RED_COMPLETION (R184 step 6): flags reach TSF, WH rises, and the RED retires (R216). -/
def execRedCompletion (id : Nat) (s : State) : Host.Outcome State Fault Refusal :=
  .next (match Tbl.look s.reds id with
    | none => s
    | some y =>
      let wants := y.flag.isSome && y.lost.isEmpty
      if y.done || !y.swept || (wants && !y.flagged) || decide (s.m.ftime < y.tw) then s
      else
        let s := raiseWh (s.orTsf y.tid y.flags) y.gid y.tid y.tw
        let s := match y.fault with | some x => pushFault s y.gid y.tid x | none => s
        sweep (retireReds { s with reds := Tbl.set s.reds id { y with done := true } } y.gid))

end Sys2Proof.Machine
end

