-- ==== Sys2Proof/Machine/Leaves.lean ====
section
/-!
DEFINITION. The leaves of a partition's table trees (R260, R261), and what firmware keeps when it changes them: the
reverse table (R293), the quota and retired pages (R285), and root pages that read as zero when newly mapped (R192).
-/

namespace Sys2Proof.Machine

/-- The leaves of a partition's stage-2 tree: intermediate base, size and word (R260, R261). -/
def leaves2 (m : Mem) (self : Nat) : Nat → Nat → Nat → List (Nat × Leaf2)
  | 0, _, _ => []
  | l + 1, base, table =>
    let size := 2 ^ (16 + 9 * l)
    (List.range 512).flatMap fun i =>
      let e := m.num (table + 8 * i) 8
      if !bitN e 0 then []
      else if bitN e 1 then
        -- one step of the walk decides whether the leaf is well formed
        match walk2 m self (i * size) (l + 1) table with
        | some x => [(base + i * size, { x with base := base + i * size })]
        | none => []
      else if l = 0 then [] else leaves2 m self l (base + i * size) (bitsN e 16 36 * 65536)

def leavesOf (s : State) (p : Nat) : List (Nat × Leaf2) :=
  if (s.part p).e.root2 = 0 then [] else leaves2 s.mem s.m.modno 4 0 (s.part p).e.root2

/-- The physical pages a partition has mapped: intermediate page number and physical page (R293). -/
def localPages (s : State) (p : Nat) : List (Nat × Nat) :=
  ((leavesOf s p).filter fun (_, l) => !l.remote).flatMap fun (ia, l) =>
    (List.range (l.size / 65536)).map fun i => (ia / 65536 + i, l.final / 65536 + i)

/-- The ROOT leaves of a partition's stage-1 tree: intermediate address, size and namespace. -/
def roots1 (m : Mem) (self root2 : Nat) : Nat → Nat → List (Nat × Nat × Nat)
  | 0, _ => []
  | l + 1, table =>
    match walk2 m self table 4 root2 with
    | none => []
    | some t =>
      if t.remote then []
      else (List.range 512).flatMap fun i =>
        let e := m.num (t.final + (table - t.base) + 8 * i) 8
        let addr := bitsN e 16 36 * 65536
        if !bitN e 0 then []
        else if bitN e 1 then (if l ≤ 1 && bitN e 4 then [(addr, 2 ^ (16 + 9 * l), bitsN e 5 2)] else [])
        else if l = 0 then [] else roots1 m self root2 l addr

/-- The names in a partition's root slots, with their namespaces (R192); a ROOT page that nothing has reached yet reads as
zero. -/
def rootNamesOf (s : State) (p : Nat) : List (Nat × Nat) :=
  let e := (s.part p).e
  if e.root2 = 0 then []
  else (roots1 s.mem s.m.modno e.root2 4 e.root1).flatMap fun (ia, size, ns) =>
    (List.range (size / 32)).filterMap fun i =>
      match walk2 s.mem s.m.modno (ia + 32 * i) 4 e.root2 with
      | none => none
      | some l =>
        let name := s.mem.num (l.final + (ia + 32 * i - l.base)) 24
        if l.remote || name = 0 || !s.rootPages.contains (p, (ia + 32 * i) / 65536) then none else some (ns, name)

/-- The ROOT ranges of a partition's stage-1 tree: intermediate address, size and namespace. -/
def rootsOf1 (s : State) (p : Nat) : List (Nat × Nat × Nat) :=
  let e := (s.part p).e
  if e.root2 = 0 then [] else roots1 s.mem s.m.modno e.root2 4 e.root1

/-- The page `n` of a partition's intermediate addresses carries the ROOT attribute (R192). -/
def rootPage (s : State) (p n : Nat) : Bool :=
  (rootsOf1 s p).any fun (ia, size, _) => decide (ia < 65536 * n + 65536) && decide (65536 * n < ia + size)

/-- The pages of a partition that its tables no longer make ROOT pages leave the record (R192). -/
def keepRoots (s : State) (p : Nat) : State :=
  { s with rootPages := s.rootPages.filter fun x => x.1 != p || rootPage s p x.2 }

/-- Firmware keeps local leaves below the quota and off retired pages (R285, R293). -/
def leafLegal (s : State) (p ia : Nat) (l : Leaf2) : Bool :=
  l.remote || (decide (ia < 2 ^ 30 * (s.part p).e.quota)
    && !(s.m.retiredPages.any fun n => decide (l.final / 65536 ≤ n) && decide (n < (l.final + l.size) / 65536)))

/-- Firmware has changed a partition's tables between `s0` and `s`: every new stage-2 leaf is legal, the reverse table
follows (R293), and a newly mapped ROOT page, by either stage, reads as zero (R192). -/
def relink (s0 s : State) (p : Nat) : Option State :=
  let old := leavesOf s0 p
  if (leavesOf s p).all fun x => old.contains x || leafLegal s p x.1 x.2 then
    let was := localPages s0 p
    let now := localPages s p
    let new := now.filter fun x => !was.contains x
    let gone := fun (page : Nat) => (was.any fun x => x.2 == page) && !(now.any fun x => x.2 == page)
    let kept := s.reverse.filter fun (page, o) => !(o.1 == p && gone page)
    let fresh := now.filter fun x => rootPage s p x.1 && !(was.contains x && rootPage s0 p x.1)
    some (keepRoots { s with
      reverse := new.foldl (fun t (n, page) => Tbl.set t page (p, n)) kept
      mem := fresh.foldl (fun (m : Mem) (x : Nat × Nat) => m.clear (65536 * x.2) 65536) s.mem
      rootPages := (s.rootPages ++ fresh.map fun x => (p, x.1)).dedup } p)
  else none

/-- The same for every partition. -/
def relinkAll (s0 s : State) : Option State :=
  s.parts.foldl (fun r (p, _) => r.bind fun s => relink s0 s p) (some s)

end Sys2Proof.Machine
end

