-- ==== Sys2Proof/Machine/Sync.lean ====
section
/-!
DEFINITION. Queues, barriers, the trellis (opcodes 0xA4 to 0xA6), FENCE, FWAIT, IFENCE, WAITC (0xA0 to 0xA3) and SLEEP.
-/

namespace Sys2Proof.Machine

/-! ### Release -/

/-- A store-like access that has not returned its T_w, or whose T_w is still to come (R215, R227). -/
def Access.storeOpen (a : Access) (now : Nat) : Bool := a.kind.storeLike && ((a.elems.any Elem.open') || decide (now < a.tw))

/-- Every older store-like access has returned its T_w and FTIME has reached it (R227, R231). -/
def released (s : State) (gid : Nat) : Bool := !(s.accesses.any fun (_, a) => a.gid == gid && a.storeOpen s.m.ftime)

/-! ### Queues -/

/-- The address a queue or barrier instruction names: the scalar's low 32 bits (R228). -/
def objAddr (g : Group) (f : Fields) : Nat := match f.a with | .s n => (g.scal n.val).toNat % 2 ^ 32 | _ => 0

def scalOf (g : Group) (o : Opd) : W64 := match o with | .s n => g.scal n.val | _ => 0

/-- The checks of a queue instruction before its bank (R226): the object and its place. A 17th or a misaligned address traps
so before QBRK of its allocation (DESIGN CHOICE, log 86). -/
def queueAt (c : Ctx) (s : State) : Except Stop (Nat × Nat × Nat) := do
  let g := c.g s
  brokenWait s c.gid c.sub Cause.qbrk
  guardW (!waiting s c.gid c.sub)
  scalReady g [c.f.a]
  let addr := objAddr g c.f
  let qs := (s.team g.ident.tid).queues
  guardN (qs.contains addr || decide (qs.length < 16)) Cause.prot 0x600
  guardN (addr % 64 == 0) Cause.align addr
  let (t, off) ← spObj s g.ident.tid addr 64 Cause.qbrk
  return (addr, t, off)

/-- The header address enters the team's queue table (R226). -/
def noteQueue (s : State) (tid addr : Nat) : State :=
  let t := s.team tid
  if t.queues.contains addr then s else s.setTeam tid { t with queues := t.queues ++ [addr] }

/-- QPUSH (R227, R229, R423). -/
def execQpush (f : Fields) (s : State) : Host.Outcome State Fault Refusal :=
  issueGroup (.qpush f) f (fun c s => do
    let (addr, t, off) ← queueAt c s
    guardW (released s c.gid)
    let g := c.g s
    let h ← qRead s t off addr
    scalReady g [f.b]
    let s := noteQueue s g.ident.tid addr
    let j := (s.team g.ident.tid).member
    match qPush s t off h j (scalOf g f.b) with
    | some s => return qServeAll s t off
    | none => throw (.waitWith { s with waiters := s.waiters ++
        [⟨c.gid, c.sub, .push, t, off, BitVec.ofNat 64 addr, scalOf g f.b, 0, j, false⟩] })) s

/-- QPOP (R227, R229, R423). -/
def execQpop (f : Fields) (s : State) : Host.Outcome State Fault Refusal :=
  issueGroup (.qpop f) f (fun c s => do
    let (addr, t, off) ← queueAt c s
    let g := c.g s
    let h ← qRead s t off addr
    let s := noteQueue s g.ident.tid addr
    match qPop s t off h with
    | some (x, s) => return qServeAll (s.setGroup c.gid ((c.g s).putS f.d x)) t off
    | none => throw (.waitWith { s with waiters := s.waiters ++
        [⟨c.gid, c.sub, .pop, t, off, BitVec.ofNat 64 addr, 0, f.d.code.toNat - 0x40, 0, false⟩] })) s

/-- A predicate takes one bit in every lane (R335, R423). -/
def Group.allPred (g : Group) (k : Nat) (b : Bool) : Group :=
  g.setPred k (BitVec.allOnes 256) (if b then BitVec.allOnes 256 else 0)

/-- QTRY (R227, R423); in deterministic mode DETOP (R256). -/
def execQtry (f : Fields) (s : State) : Host.Outcome State Fault Refusal :=
  issueGroup (.qtry f) f (fun c s => do
    let g := c.g s
    let det := guardN (!s.flag g.ident.lid 0) Cause.detop (0xA5 + 2 * 2 ^ 8)
    let (addr, t, off) ← waitUnless det (queueAt c s)
    det
    let h ← qRead s t off addr
    let s := noteQueue s g.ident.tid addr
    let k := f.c.code.toNat
    match qPop s t off h with
    | some (x, s) => return qServeAll (s.setGroup c.gid (((c.g s).putS f.d x).allPred k true)) t off
    | none => return s.setGroup c.gid ((c.g s).allPred k false)) s

/-! ### Barriers -/

/-- The checks of a barrier instruction before its bank (R230, R335). A misaligned address traps so before BARBRK of its
allocation (DESIGN CHOICE, log 86). -/
def barrierAt (c : Ctx) (s : State) : Except Stop (Nat × Nat × Nat) := do
  let g := c.g s
  brokenWait s c.gid c.sub Cause.barbrk
  guardW (!waiting s c.gid c.sub)
  scalReady g [c.f.a]
  let addr := objAddr g c.f
  guardN (addr % 32 == 0) Cause.align addr
  let (t, off) ← spObj s g.ident.tid addr 32 Cause.barbrk
  return (addr, t, off)

/-- BARA (R231): s[d] takes PHASE before s[b] is read. -/
def execBara (f : Fields) (s : State) : Host.Outcome State Fault Refusal :=
  issueGroup (.bara f) f (fun c s => do
    let (addr, t, off) ← barrierAt c s
    guardW (released s c.gid)
    let b ← barRead s t off addr
    guardN (b.arrv != b.exp) Cause.prot 0x610
    scalReady (c.g s) [f.b]
    let s := noteBar s t off
    let g := c.g s
    let g := g.putS f.d (BitVec.ofNat 64 b.phase)
    return fireFor (barUpdate (s.setGroup c.gid g) t off b 1 (scalOf g f.b).toNat) t 2) s

/-- BARW (R231). -/
def execBarw (f : Fields) (s : State) : Host.Outcome State Fault Refusal :=
  issueGroup (.barw f) f (fun c s => do
    let (addr, t, off) ← barrierAt c s
    let b ← barRead s t off addr
    scalReady (c.g s) [f.b]
    let s := noteBar s t off
    let v := (scalOf (c.g s) f.b).toNat % 2 ^ 32
    if b.phase != v then return s
    throw (.waitWith { s with waiters := s.waiters ++
      [⟨c.gid, c.sub, .barw, t, off, BitVec.ofNat 64 addr, BitVec.ofNat 64 v, 0, 0, false⟩] })) s

/-- BART (R231, R335). -/
def execBart (f : Fields) (s : State) : Host.Outcome State Fault Refusal :=
  issueGroup (.bart f) f (fun c s => do
    let (addr, t, off) ← barrierAt c s
    let b ← barRead s t off addr
    scalReady (c.g s) [f.b]
    let s := noteBar s t off
    let g := c.g s
    return s.setGroup c.gid (g.allPred (f.d.code.toNat % 8) (b.phase != (scalOf g f.b).toNat % 2 ^ 32))) s

/-! ### The trellis -/

/-- EVRT.route (R235, R368). -/
def execEvrtRoute (f : Fields) (s : State) : Host.Outcome State Fault Refusal :=
  issueGroup (.evrtRoute f) f (fun c s => do
    let g := c.g s
    scalReady g [f.b]
    let k := s.core g.ident.core
    return s.setCore g.ident.core { k with route := Tbl.put 0 k.route f.c.code.toNat ((scalOf g f.b).extractLsb' 0 16) }) s

/-- EVRT.wake (R235). -/
def execEvrtWake (f : Fields) (s : State) : Host.Outcome State Fault Refusal :=
  issueGroup (.evrtWake f) f (fun c s => do
    let g := c.g s
    scalReady g [f.b]
    return s.setGroup c.gid { g with wake := (scalOf g f.b).extractLsb' 0 16 }) s

/-- EVRT.sig (R235): rows 0 to 5 are the hardware's, and naming one traps ILLOP. -/
def execEvrtSig (f : Fields) (s : State) : Host.Outcome State Fault Refusal :=
  issueGroup (.evrtSig f) f (fun c s => do
    let row := f.c.code.toNat
    guardI c (decide (6 ≤ row))
    return fireRow s (c.g s).ident.core row) s

/-- EVRT.rd (R235). -/
def execEvrtRd (f : Fields) (s : State) : Host.Outcome State Fault Refusal :=
  issueGroup (.evrtRd f) f (fun c s =>
    let g := c.g s
    .ok (s.setGroup c.gid (g.putS f.d ((Tbl.get 0 (s.core g.ident.core).route f.c.code.toNat).zeroExtend 64)))) s

/-- TRELLIS_TIME_ROW: FTIME is at a multiple of 65,536 ticks (R234 row 5). -/
def execTrellisTimeRow (core : Nat) (s : State) : Host.Outcome State Fault Refusal :=
  .next (if s.m.ftime % 65536 = 0 then fireRow s core 5 else s)

/-! ### Imprecise faults -/

/-- The trap of an imprecise fault (R268). -/
def Fault1.trap (x : Fault1) : Trap :=
  { cause := x.cause, tval := x.tval, w := x.w, imp := true, cls := x.cls.code }

/-- The older of two faults by operation sequence. (DEDUCED, log 26) -/
def olderFault (a b : Option Fault1) : Option Fault1 :=
  match a, b with
  | some x, some y => if olderSeq y.op x.op then a else b
  | some _, none => a
  | none, _ => b

/-- The oldest pending fault of some classes: of the group's list, or of a parked copy that has not reported it. -/
def oldestFault (s : State) (gid : Nat) (cs : List Cls) : Option Fault1 :=
  let here := ((s.group gid).faults.filter fun x => cs.contains x.cls).map some
  let parked := s.copies.filterMap fun (_, y) => match y.st with
    | .parked _ _ false => if y.gid == gid then (y.parkFault.filter fun x => cs.contains x.cls).map some else none
    | _ => none
  (here ++ parked).foldl olderFault none

/-- The fault is delivered: it leaves the group's list, or the copy has reported it. -/
def takeFault (s : State) (gid : Nat) (x : Fault1) : State :=
  let g := s.group gid
  if g.faults.contains x then s.setGroup gid { g with faults := g.faults.erase x }
  else { s with copies := s.copies.map fun (k, y) => match y.st with
    | .parked cause tv false =>
      if y.gid == gid && y.parkFault == some x then (k, { y with st := .parked cause tv true }) else (k, y)
    | _ => (k, y) }

/-- Delivers one pending fault of the classes. (DEDUCED, log 27) -/
def deliverFault (s : State) (gid : Nat) (cs : List Cls) : Except Stop Unit :=
  match oldestFault s gid cs with
  | some x => .error (.trapWith (takeFault s gid x) x.trap)
  | none => .ok ()

/-- A WATCHM hit of an entry that the group's team watches, in entry order (R279). -/
def deliverWatch (s : State) (gid : Nat) : Except Stop Unit :=
  let g := s.group gid
  let p := s.part g.ident.part
  let id := (s.launch g.ident.lid).r.id
  match p.watch.find? fun (_, w) => w.hit.isSome && w.lid == id && w.team == g.ident.team with
  | some (k, w) =>
    match w.hit with
    | some (agent, modno, va) =>
      let s := s.setPart g.ident.part { p with watch := Tbl.set p.watch k { w with hit := none } }
      .error (.trapWith s { cause := Cause.watchm, tval := BitVec.ofNat 64 va, imp := true, agent := agent, modno := modno })
    | none => .ok ()
  | none => .ok ()

/-! ### FENCE, FWAIT, IFENCE, WAITC -/

/-- FENCE (R214, R374, R375). -/
def execFence (f : Fields) (s : State) : Host.Outcome State Fault Refusal :=
  issueGroup (.fence f) f (fun c s =>
    let g := c.g s
    .ok (s.setGroup c.gid (g.putS f.d (BitVec.ofNat 64 (f.c.code.toNat % 128 * 2 ^ 48 + g.seq % 2 ^ 48))))) s

/-- An operation that a token's SEQ covers (R375): one whose SEQ is not below the present sequence covers every operation
issued so far (R215). (DEDUCED, log 71) -/
def covers (s : State) (gid tok seq : Nat) : Bool := decide ((s.group gid).seq ≤ tok) || olderSeq tok seq

/-- An older operation of a class has not retired (R215, R216). -/
def classOpen (s : State) (gid tok : Nat) (cls : Cls) : Bool :=
  let old := fun (seq : Nat) => covers s gid tok seq
  match cls with
  | .cp => s.copies.any fun (_, y) => y.gid == gid && y.isCopy && old y.seq
  | .rd => s.reds.any fun (_, y) => y.gid == gid && old y.seq
  | .th => s.thops.any fun (_, y) => y.gid == gid && old y.seq
  | .ar => s.arrops.any fun (_, y) => y.gid == gid && y.counts && old y.seq
  | .mp => (openPasses s gid).any old || (s.group gid).mpDone.any old

/-- An older load has not returned its value: a late one until it has arrived (R76, R215). -/
def loadsOpen (s : State) (gid tok : Nat) : Bool :=
  s.accesses.any fun (_, a) => a.gid == gid && covers s gid tok a.seq && a.kind.loadLike &&
    (!a.finished || (match a.kind with | .late _ _ => true | _ => false))

def storesOpen (s : State) (gid tok : Nat) : Bool :=
  s.accesses.any fun (_, a) => a.gid == gid && covers s gid tok a.seq && a.storeOpen s.m.ftime

/-- The classes a token names, by its bits 50 to 54 (R214). -/
def tokClasses (t : W64) : List Cls :=
  (if t.getLsbD 50 then [.cp] else []) ++ (if t.getLsbD 51 then [.rd] else []) ++ (if t.getLsbD 52 then [.mp] else [])
    ++ (if t.getLsbD 53 then [.ar] else []) ++ (if t.getLsbD 54 then [.th] else [])

/-- FWAIT (R215, R383, R384). -/
def execFwait (f : Fields) (s : State) : Host.Outcome State Fault Refusal :=
  issueGroup (.fwait f) f (fun c s => do
    let g := c.g s
    scalReady g [f.a]
    let t := scalOf g f.a
    guardT (t.extractLsb' 55 9 == 0) Cause.prot t
    let cs := tokClasses t
    deliverFault s c.gid (cs.filter fun x => x == .cp || x == .rd || x == .th)
    deliverFault s c.gid (cs.filter (· == .ar))
    match g.memues.find? fun m => (m.kindL && t.getLsbD 48) || (m.kindS && t.getLsbD 49) with
    | some m => throw (memueStop m)
    | none => pure ()
    deliverWatch s c.gid
    let q := t.toNat % 2 ^ 48
    guardW (!(t.getLsbD 48 && loadsOpen s c.gid q))
    guardW (!(t.getLsbD 49 && storesOpen s c.gid q))
    guardW (!cs.any (classOpen s c.gid q))
    return s) s

/-- IFENCE (R221, R390): the core's fetched instructions are discarded. -/
def execIfence (f : Fields) (s : State) : Host.Outcome State Fault Refusal :=
  issueGroup (.ifence f) f (fun c s =>
    .ok { s with fetched := s.fetched.filter fun (k, _, _) => k != (c.g s).ident.core }) s

def Csrs.count (c : Csrs) : Cls → Nat
  | .cp => c.cp | .rd => c.rd | .mp => c.mp | .ar => c.ar | .th => c.th

/-- The trap ENGLOST, whose pending flag clears at delivery (R162). (DEDUCED, log 25) -/
def deliverEngLost (s : State) (gid : Nat) : Except Stop Unit :=
  let g := s.group gid
  match g.engLost with
  | some n => .error (.trapWith (s.setGroup gid { g with engLost := none })
      { cause := Cause.englost, tval := BitVec.ofNat 64 n, imp := true, cls := 3 })
  | none => .ok ()

/-- WAITC (R442, R443): what is pending is delivered first, also while the operand is still being loaded. -/
def waitc (i : Instr) (f : Fields) (cls : Cls) (s : State) : Host.Outcome State Fault Refusal :=
  issueGroup i f (fun c s => do
    let g := c.g s
    scalTraps g [f.a]
    if cls == .mp then deliverEngLost s c.gid
    deliverFault s c.gid [cls]
    deliverWatch s c.gid
    scalReady g [f.a]
    let n := match f.a with | .s k => (g.scal k.val).toNat | .imm => f.imm.toNat | _ => 0
    guardW (decide (g.csr.count cls ≤ min n 255))
    return s) s

/-- WAITC CP (R443). -/
def execWaitcCp (f : Fields) (s : State) : Host.Outcome State Fault Refusal := waitc (.waitcCp f) f .cp s
/-- WAITC RD (R443). -/
def execWaitcRd (f : Fields) (s : State) : Host.Outcome State Fault Refusal := waitc (.waitcRd f) f .rd s
/-- WAITC MP (R443). -/
def execWaitcMp (f : Fields) (s : State) : Host.Outcome State Fault Refusal := waitc (.waitcMp f) f .mp s
/-- WAITC AR (R443). -/
def execWaitcAr (f : Fields) (s : State) : Host.Outcome State Fault Refusal := waitc (.waitcAr f) f .ar s
/-- WAITC TH (R443). -/
def execWaitcTh (f : Fields) (s : State) : Host.Outcome State Fault Refusal := waitc (.waitcTh f) f .th s

/-! ### SLEEP -/

/-- A copy has completed (R179). -/
def Copy.completed (y : Copy) (now : Nat) : Bool :=
  match y.st with | .done => true | .written => decide (y.tw ≤ now) | _ => false

/-- SLEEP (R181, R433); a line of the wake mask that fires in the tick of its first issue ends it (R235). -/
def execSleep (f : Fields) (s : State) : Host.Outcome State Fault Refusal :=
  issueGroup (.sleep f) f (fun c s => do
    let g := c.g s
    scalReady g [f.a]
    let now := s.m.ftime
    let woken := g.woken.contains c.sub || ((Tbl.look g.sleep c.sub).isNone && firedNow s g.ident.core g.wake)
    if !(decide ((scalOf g f.a).toNat ≤ now) || woken) then
      match Tbl.look g.sleep c.sub with
      | some _ => throw .wait
      | none => throw (.waitWith (s.setGroup c.gid { g with sleep := Tbl.set g.sleep c.sub now }))
    let s := s.setGroup c.gid { g with sleep := Tbl.del g.sleep c.sub, woken := g.woken.filter (· != c.sub) }
    let due := s.copies.filter fun (_, y) =>
      y.gid == c.gid && y.isCopy && decide (y.promise ≤ now) && !y.completed now
    match due.map fun (_, y) => y.promise with
    | [] => return s
    | p :: ps =>
      deliverFault s c.gid [.cp]
      throw (.trapWith s { cause := Cause.promise, tval := BitVec.ofNat 64 (ps.foldl min p), succ := true })) s

end Sys2Proof.Machine
end

