-- ==== Sys2Proof/Machine/Save.lean ====
section
/-!
DEFINITION. TLBI (R222, R439), pre-emption (R272 to R277) and saved contexts (R78, R163, R281, R282, R357, R358).
-/

namespace Sys2Proof.Machine

/-! ### TLBI -/

/-- A virtual element of the partition that is not yet performed, a late load's word until its arrival (R220), or a store
whose T_w is to come (R222). -/
def accessPending (s : State) (part : Nat) (near : Nat → Bool) : Bool :=
  s.accesses.any fun (_, a) => (s.team a.tid).part == part &&
    (a.elems.any fun e => near e.va.toNat && (match e.place with | .pa _ _ _ | .dom _ => true | _ => false) &&
      (a.waits e || decide (s.m.ftime < a.tw)))

/-- A chunk, RED, memory drain or capture record of the partition that is translated and not complete (R222). -/
def enginePending (s : State) (part : Nat) : Bool :=
  (s.copies.any fun (_, y) => y.part == part && decide (s.m.ftime < y.tw))
    || (s.reds.any fun (_, y) => y.part == part && y.checked && !y.done)
    || (s.arrops.any fun (_, o) => o.part == part && decide (s.m.ftime < o.tw))
    || s.engines.any fun (_, e) => e.runs.any fun r =>
      r.pass.ident.part == part && r.drains.any fun d => match d.dest with | .mem _ _ => true | _ => false

/-- The places of a watched range as the partition's tables stand (R279): its pieces that translate to private memory.
(DEDUCED, log 72) -/
def watchSpans (s : State) (part va n : Nat) : List (Nat × Nat × Nat) :=
  let first := va - va % 65536
  (List.range (ceilDiv (va + n - first) 65536)).filterMap fun i =>
    let a := max va (first + 65536 * i)
    match walkPage s part a with
    | .ok e => (match e.place a with
      | .pa p _ _ => some (a, p, min (va + n) (first + 65536 * (i + 1)) - a)
      | _ => none)
    | .error _ => none

/-- A partition's watch entries are translated again after a TLBI (R279). -/
def retranslate (s : State) (part : Nat) : State :=
  let x := s.part part
  if x.watch.isEmpty then s
  else s.setPart part { x with watch := x.watch.map fun (k, w) => (k, { w with spans := watchSpans s part w.va w.len }) }

/-- TLBI (R222, R439): entries are dropped at once, and the sub-group waits for what was translated under them.
(DEDUCED, log 42) -/
def tlbi (i : Instr) (f : Fields) (gone : Nat → TlbE → Bool) (near : Nat → Nat → Bool) (s : State) :
    Host.Outcome State Fault Refusal :=
  issueGroup i f (fun c s => do
    guardPriv c s
    let g := c.g s
    scalReady g [f.b]
    let p := (scalOf g f.b).toNat
    guardN (decide (p ≤ 23)) Cause.prot 0xA00
    scalReady g [f.a]
    let a := (scalOf g f.a).toNat
    let s := keepRoots { s with tlb := s.tlb.filter fun e => !(e.part == p && gone a e) } p
    if accessPending s p (near a) || enginePending s p then throw (.waitWith s)
    return retranslate s p) s

/-- Two addresses share a page of the larger size (R260), from which an entry of either may have been cut. -/
def samePage (a b : Nat) : Bool := a / 2 ^ 25 == b / 2 ^ 25

/-- TLBI.va (R439): the entries that cover the address, and those that the larger page about it may have given (R222). -/
def execTlbiVa (f : Fields) (s : State) : Host.Outcome State Fault Refusal :=
  tlbi (.tlbiVa f) f (fun a e => samePage a e.va) samePage s
/-- TLBI.ia (R439). -/
def execTlbiIa (f : Fields) (s : State) : Host.Outcome State Fault Refusal :=
  tlbi (.tlbiIa f) f (fun a e => samePage a e.ia) (fun _ _ => true) s
/-- TLBI.all (R439). -/
def execTlbiAll (f : Fields) (s : State) : Host.Outcome State Fault Refusal :=
  tlbi (.tlbiAll f) f (fun _ _ => true) (fun _ _ => true) s

/-! ### Requests -/

/-- A PREEMPT is requested of a group (R273, R274); one already asked or served absorbs it (R277). -/
def askPreempt (s : State) (gid : Nat) : State :=
  match Tbl.look s.groups gid with
  | none => s
  | some g =>
    if g.pre != .no || g.saving.isSome then s
    else s.setGroup gid { g with pre := .asked s.m.ftime, csr := { g.csr with pend := g.csr.m } }

/-- Every team of every spread with a member on one of the cores is vacated whole (R272). -/
def vacate (s : State) (lid : Nat) (cores : List Nat) : State :=
  let mine := s.teams.filter fun (_, t) => t.lid == lid && !t.gids.isEmpty
  let hit := (mine.filter fun (_, t) => cores.contains t.core).map fun (_, t) => t.index - t.member
  let gids := (mine.filter fun (_, t) => hit.contains (t.index - t.member)).flatMap fun (_, t) => t.gids
  let s := gids.foldl askPreempt s
  let new := (mine.filter fun (_, t) => hit.contains (t.index - t.member)).map (·.1)
  match Tbl.look s.launches lid with
  | some l =>
    let old := l.leaving.filter fun k => mine.any (·.1 == k)
    s.setLaunch lid { l with vacating := ((if old.isEmpty then [] else l.vacating) ++ cores).dedup, leaving := (old ++ new).dedup }
  | none => s

/-- Cores on which a launch has resident teams. -/
def coresOf (s : State) (lid : Nat) : List Nat :=
  ((s.teams.filter fun (_, t) => t.lid == lid && !t.gids.isEmpty).map fun (_, t) => t.core).dedup

/-- A PREEMPT is taken (R273): by the sub-group after the one that last issued, whatever its state; its wait is withdrawn.
HBASE = 0 sends it to address 0. -/
def deliverPreempt (s : State) (gid : Nat) (g : Group) : State :=
  let s := match g.hang with
    | .no | .full => s
    | .member r | .stage2 r =>
      let c := s.core g.ident.core
      s.setCore g.ident.core { c with recs := Tbl.upd c.recs r fun x => { x with slots := x.slots.filter (· != g.ident.slot) } }
  let old := g
  let g := { g.startTurn with hang := .no, pre := .served s.m.ftime }
  let sub := (g.order.find? g.isSub).getD 15
  let g := { g with sleep := Tbl.del g.sleep sub, woken := g.woken.filter (· != sub) }
  let s := foldWaits (s.setGroup gid g) old gid
  let s := { s with waiters := s.waiters.filter fun w => !(w.gid == gid && w.sub == sub) }
  enterHandler s gid sub (g.sub sub).pc { cause := Cause.preempt, tval := BitVec.ofNat 64 g.csr.budget } none

/-- PREEMPT_DELIVERY (R273): a requested PREEMPT at a turn with M = 0. -/
def execPreemptDelivery (gid : Nat) (s : State) : Host.Outcome State Fault Refusal :=
  .next (match Tbl.look s.groups gid with
    | none => s
    | some g => match g.pre with
      | .asked _ => if g.csr.m || g.saving.isSome then s else deliverPreempt s gid g
      | _ => s)

/-- A save begins (R275, R276): the group issues nothing further on this residency, and the gates of its team open (R236). -/
def beginSave (s : State) (gid : Nat) (keep : W64) (forced : Bool) : State :=
  let g := s.group gid
  let s := s.setGroup gid { g with saving := some ⟨keep, forced⟩, csr := { g.csr with pend := false } }
  openGates s g.ident.tid

/-- PREEMPT_GRACE_EXPIRY (R274): M still 1 when 20,000 ticks have passed since the request. -/
def execPreemptGraceExpiry (gid : Nat) (s : State) : Host.Outcome State Fault Refusal :=
  .next (match Tbl.look s.groups gid with
    | none => s
    | some g => match g.pre with
      | .asked t => if g.csr.m && g.saving.isNone && decide (t + 20000 ≤ s.m.ftime) then beginSave s gid (BitVec.allOnes 64) true else s
      | _ => s)

/-- FORCED_SAVE (R276): BUDGET ticks have passed since delivery without a CTXS. -/
def execForcedSave (gid : Nat) (s : State) : Host.Outcome State Fault Refusal :=
  .next (match Tbl.look s.groups gid with
    | none => s
    | some g => match g.pre with
      | .served t => if g.saving.isNone && decide (t + g.csr.budget ≤ s.m.ftime) then beginSave s gid (BitVec.allOnes 64) true else s
      | _ => s)

/-- A save is due that no instruction asked for: the grace of a masked group has run out (R274), or the budget of a served
PREEMPT (R276). -/
def Group.overdue (g : Group) (now : Nat) : Bool :=
  g.saving.isNone && match g.pre with
    | .asked t => g.csr.m && decide (t + 20000 ≤ now)
    | .served t => decide (t + g.csr.budget ≤ now)
    | .no => false

/-- CTXS (R275, R357). -/
def execCtxs (f : Fields) (s : State) : Host.Outcome State Fault Refusal :=
  issueGroup (.ctxs f) f (fun c s => do
    let g := c.g s
    guardN ((match g.pre with | .served _ => true | _ => false) && g.leftNow s.m.ftime != 0) Cause.prot 0x700
    scalReady g [f.a]
    return beginSave s c.gid (scalOf g f.a) false) s

/-! ### Saving -/

/-- The waits of a save are over (R78, R161, R213, R276): arrivals, passes, REDs and thicket operations (but for a parked
COUT), loads, direct-mode producers and results that only time holds back (R385), and FTIME ≥ WH; no copy of the group is inside
a chunk. A group of a killed launch is not saved (R277, R280). -/
def saveReady (s : State) (gid : Nat) : Bool :=
  let g := s.group gid
  let now := s.m.ftime
  let parked := fun (seq : Nat) => s.copies.any fun (_, y) => y.gid == gid && !y.isCopy && y.seq == seq &&
    (match y.st with | .parked _ _ _ => true | _ => false)
  (s.launch g.ident.lid).killed.isNone
    && (g.slots.all fun (_, x) => !x.busy || x.arr)
    && !(g.prods.any fun (_, p) => match p.due with | some t => decide (now < t) | none => false)
    && (openPasses s gid).isEmpty && g.mpDone.isEmpty
    && !(s.reds.any fun (_, y) => y.gid == gid)
    && !(s.thops.any fun (_, y) => y.gid == gid && !(y.kind == .cout && parked y.seq))
    && !(s.arrops.any fun (_, y) => y.gid == gid && !y.landed)
    && !(s.accesses.any fun (_, a) => a.gid == gid && (!a.finished || a.storeOpen now))
    && decide (g.csr.wh ≤ now)
    && !(s.copies.any fun (_, y) => y.gid == gid && (decide (now < y.tw) || y.st == .written || y.owed != 0))

/-- A KiB is saved whatever the mask says (R275): it holds a byte of a register in state E or P, or of an arrival buffer. -/
def keepKib (g : Group) (keep : W64) (i : Nat) : Bool :=
  keep.getLsbD i || decide (g.ident.w - g.ident.k ≤ i) || g.st i != .full

/-- The window as saved: unsaved KiB restore as zero bytes, tagged RAW and F (R275). -/
def savedWindow (g : Group) (keep : W64) : Group :=
  (List.range g.ident.w).foldl (fun g i =>
    if keepKib g keep i then g
    else { g.setTags (1024 * i) 1024 .raw with win := Mem.clear g.win (1024 * i) 1024 }) g

/-- The context of a group with the park records of its copies (R281) and those that have yet to retire behind a parked one
(R216); a copy still running is stopped and parked with cause 0x18 (R276). -/
def saveGroup (s : State) (gid : Nat) : State :=
  let g := (s.group gid).landDue s.m.ftime
  let l := s.launch g.ident.lid
  let keep := match g.saving with | some x => x.keep | none => BitVec.allOnes 64
  let copies := ((s.copies.filter fun (_, y) => y.gid == gid).map (·.2)).map fun y =>
    match y.st with
    | .running => { y with st := .parked Cause.preempt 0 true, saved := true }
    | _ => y
  let g' := { savedWindow g keep with wrote := [], saving := none, hang := .no, csr := { g.csr with left := g.leftNow s.m.ftime } }
  let c : Saved := { part := g.ident.part, launch := l.r.id, team := g.ident.team, group := some g.ident.index, g := some g', copies := copies }
  let s := leaveSlot s gid
  let s := keepContext { s with
    groups := Tbl.del s.groups gid
    copies := s.copies.filter fun (_, y) => y.gid != gid
    thops := s.thops.filter fun (_, o) => o.gid != gid
    accesses := s.accesses.filter fun (_, a) => a.gid != gid
    arrops := s.arrops.filter fun (_, o) => o.gid != gid } c
  let t := s.team g.ident.tid
  let gids := t.gids.filter (· != gid)
  let s := s.setTeam g.ident.tid { t with gids := gids }
  if gids.isEmpty then leaveTeam s g.ident.tid else s

/-- CONTEXT_SAVE_COMPLETE (R275, R276, R281). -/
def execContextSaveComplete (gid : Nat) (s : State) : Host.Outcome State Fault Refusal :=
  .next (match Tbl.look s.groups gid with
    | none => s
    | some g => if g.saving.isSome && saveReady s gid then saveGroup s gid else s)

/-! ### Restoring -/

/-- A group resumes from its context (R282): WH is set under R213; PEND and LEFT read as they were saved, and no PREEMPT is
being served. (DEDUCED, log 40) -/
def restoreGroup (s : State) (gid : Nat) (i : Ident) (g : Group) : State :=
  let g := { g with ident := i, pre := .no, csr := { g.csr with wh := s.m.ftime } }
  { s with groups := Tbl.set s.groups gid g }

/-- Its copies are queued again: one that a save parked resumes without a trap (R276); a parked COUT is in flight again. -/
def restoreCopies (s : State) (gid : Nat) (i : Ident) : List Copy → State
  | [] => s
  | y :: ys =>
    let st := if y.saved then CpySt.running else y.st
    let y := { y with gid := gid, tid := i.tid, part := i.part, core := i.core, engine := pickEngine s i.core, gate := none
                      st := st, saved := false, tw := 0 }
    let (id, s) := s.fresh
    let s := { s with copies := Tbl.set s.copies id y }
    let s := if y.isCopy then s
      else
        let (k, s) := s.fresh
        let o : ThOp := { gid := gid, tid := i.tid, part := i.part, seq := y.seq, kind := .cout, ns := 0, src := 0, dst := y.dst
                          n := y.pol.toNat, next := 1, unit := State.cluster i.core }
        { s with thops := Tbl.set s.thops k o }
    restoreCopies s gid i ys

/-- The target engine can grant the reservation as it was (R163): an entry, the accumulators, the image, the buffers. -/
def resvRoom (s : State) (core lid len : Nat) (c : Saved) : Bool :=
  match c.resv with
  | none => true
  | some r =>
    let e := s.engine (State.quartet core)
    let used := e.resvs.foldl (fun n (_, x) => n + x.nacc) 0
    let store := e.images.foldl (fun n (_, l, _) => n + l) 0
    decide (e.resvs.length < 16) && decide (used + r.nacc ≤ 64)
      && (e.images.any (fun (l, _, _) => l == lid) || (decide (e.images.length < 4) && decide (store + len ≤ 2 ^ 18)))
      && c.bufs.all fun (b, _) => (Tbl.get {} e.bufs b).owner.isNone

/-- The reservation is reinstated exactly (R163). The image is the launch's. -/
def restoreResv (s : State) (core tid lid : Nat) (image : Nat × Mem) (c : Saved) : State :=
  match c.resv with
  | none => s
  | some r =>
    let q := State.quartet core
    let e := s.engine q
    let entry := ((List.range 16).find? fun i => (Tbl.look e.resvs i).isNone).getD 0
    s.setEngine q { e with
      resvs := Tbl.set e.resvs entry { r with tid := tid, lid := lid }
      bufs := c.bufs.foldl (fun t (b, x) => Tbl.put {} t b { x with owner := some tid }) e.bufs
      images := if e.images.any (fun (l, _, _) => l == lid) then e.images else e.images ++ [(lid, image.1, image.2)] }

/-! ### CTXR -/

/-- An incomplete launch of a partition by its launch ID (R247). -/
def findLaunch (s : State) (p id : Nat) : Option Nat :=
  (s.launches.find? fun (_, l) => l.part == p && l.r.id == id).map (·.1)

/-- The most a context may occupy (R281). -/
def contextBound (s : State) (kind w p id : Nat) : Nat :=
  if kind = 1 then 1024 * w + 16384
  else match findLaunch s p id with
    | some l => 256 * (s.launch l).r.scratch + 65536
    | none => 2 ^ 24

/-- What a partition's context storage holds, each context counted at its bound (R281). -/
def contextUse (s : State) (p : Nat) : Nat :=
  (s.contexts.filter (·.part == p)).foldl (fun n c => n + c.bound) 0

/-- The header of an image is well formed (R358, check 1). -/
def ctxHeader (s : State) (p : Nat) (va : Nat) (h : List Byte) : Bool :=
  let n := fun (o k : Nat) => natOfBytes ((h.drop o).take k)
  let kind := n 4 1
  va % 128 == 0 && n 0 4 == 1 && (kind == 1 || kind == 2)
    && (if kind = 1 then decide (1 ≤ n 5 1) && decide (n 5 1 ≤ 64) && decide (n 6 1 ≤ 8) && decide (n 6 1 < n 5 1) && decide (n 7 1 ≤ 31)
        else n 5 3 == 0)
    && n 0x18 8 == 0 && n 0x50 16 == 0 && decide (n 0x10 8 ≤ contextBound s kind (n 5 1) p (n 8 4))

/-- A context is one of the kind and size that a header says (R358). -/
def headerFits (h : List Byte) (c : Saved) : Bool :=
  let n := fun (o : Nat) => natOfBytes ((h.drop o).take 1)
  match c.g with
  | some g => n 4 == 1 && g.ident.w == n 5 && g.ident.k == n 6
  | none => n 4 == 2 && c.t.isSome

/-- What a body spells under its header (R358, R281): the context whose save wrote it, else one of the device's order; none
where it spells none. (DESIGN CHOICE, log 14) -/
def bodyContext (s : State) (h body : List Byte) : Option Saved :=
  match s.bodies.reverse.find? fun x => x.1 == body && headerFits h x.2 with
  | some x => some x.2
  | none => (Config.contextOf body).filter (headerFits h)

/-- The code of CTXR and, for code 0, what is installed (R358). (DEDUCED, log 41) -/
def ctxCheck (s : State) (p va : Nat) (h body : List Byte) : Nat × Option Saved :=
  let n := fun (o k : Nat) => natOfBytes ((h.drop o).take k)
  let grp := if n 4 1 = 1 then some (n 7 1) else none
  if !ctxHeader s p va h then (1, none)
  else if Sha.sha384 body != Sha.beNat ((h.drop 0x20).take 48) then (2, none)
  else if (findLaunch s p (n 8 4)).isNone then (3, none)
  else if 2 ^ 20 * (s.part p).e.ctxMib < contextUse s p + contextBound s (n 4 1) (n 5 1) p (n 8 4) then (4, none)
  else if s.contexts.any fun c => c.part == p && c.launch == n 8 4 && c.team == n 0xC 4 && c.group == grp then (5, none)
  else match bodyContext s h body with
    | none => (1, none)
    | some c => (0, some { (if c.part = p then c else c.moveTo p) with part := p, launch := n 8 4, team := n 0xC 4, group := grp, image := h ++ body })

/-- A team with an installed context starts from it (R251, R358). -/
def markRst (s : State) (p id team : Nat) : State :=
  match findLaunch s p id with
  | none => s
  | some l => s.setLaunch l { s.launch l with
      toStart := (s.launch l).toStart.map fun (t, r) => if t == team then (t, true) else (t, r) }

/-- CTXR (R357, R358): the header, then a body of the length it names, are read in the issuing group's address space,
after its older stores to them (R212). -/
def execCtxr (f : Fields) (s : State) : Host.Outcome State Fault Refusal :=
  issueGroup (.ctxr f) f (fun c s => do
    guardPriv c s
    let g := c.g s
    scalReady g [f.a, f.b]
    let (va, p) := ((scalOf g f.a).toNat, (scalOf g f.b).toNat)
    guardW (!storePending s c.gid va 96)
    let (s, h) ← readBlock s g (policy g f) va 96
    let len := natOfBytes ((h.drop 0x10).take 8)
    let there := ctxHeader s p va h
    guardW (!(there && storePending s c.gid (va + 96) len))
    let (s, body) ← if there then readBlock s g (policy g f) (va + 96) len else pure (s, [])
    let (code, x) := ctxCheck s p va h body
    let s := match x with
      | some x => markRst { s with contexts := s.contexts ++ [x] } p x.launch x.team
      | none => s
    return s.setGroup c.gid ((c.g s).putS f.d (BitVec.ofNat 64 code))) s

end Sys2Proof.Machine
end

