-- ==== Sys2Proof/Machine/Consume.lean ====
section
/-!
DEFINITION. Launch queues (R241, R242), launch records and their validation (R243 to R245, R255), completion words and the
completion history (R244 to R247), and placement (R37).
-/

namespace Sys2Proof.Machine

/-! ### Placement (R37) -/

/-- The cores of a partition in ascending order. (DESIGN CHOICE, log 46) -/
def partCores (s : State) (p : Nat) : List Nat :=
  ((List.range 24).filter fun q => (s.part p).e.quartets.contains q).flatMap fun q => (List.range 4).map (4 * q + ·)

/-- The seats that some cores provide for spreads of `n` members: clusters ascending, each cut into runs of `n` cores. -/
def seatsOf (cores : List Nat) (n : Nat) : List (List Nat) :=
  (List.range 4).flatMap fun cl =>
    let cs := cores.filter fun c => State.cluster c == cl
    (List.range (cs.length / n)).map fun i => (cs.drop (i * n)).take n

/-- The core of team `t` under R37. -/
def homeCore (seats : List (List Nat)) (n l t : Nat) : Option Nat :=
  if seats.isEmpty then none
  else match seats[(t % l / n) % seats.length]? with
    | none => none
    | some seat => seat[t % l % n]?

/-! ### The management core's own accesses -/

/-- The key under which the core table keeps the management core's own stage-2 records. -/
def mgmtCore : Nat := 96

/-- A stage-2 fault of the management core goes to firmware (R242, R245, R262): a record that names the partition and, in
`slots`, the queue or 16 for a completion word. -/
def mgmtWait (s : State) (p what : Nat) (t : Trap) : State :=
  let c := s.core mgmtCore
  let page := page64 t.tval.toNat
  if c.recs.any fun (_, r) => r.page == page && r.cause == t.cause && r.lids == [p] && r.slots == [what] then s
  else
    let k := ((List.range (c.recs.length + 1)).find? fun k => (Tbl.look c.recs k).isNone).getD 0
    let r : CoRec := ⟨t.cause, true, t.w, false, false, 1, page, [what], 0, s.m.ftime, [p]⟩
    s.setCore mgmtCore { c with recs := Tbl.set c.recs k r }

/-- The partition status word (R288). -/
def Part.status (x : Part) : Nat :=
  x.e.state % 8 + (if x.ready then 2 ^ 8 else 0) + x.rounds % 256 * 2 ^ 24 + x.qfault.toNat * 2 ^ 32

/-- A change of what the status word shows reaches the service area (R286, R288). -/
def setStatus (s : State) (p : Nat) (x : Part) : State :=
  let s := s.setPart p x
  if x.e.service = 0 then s else { s with mem := s.mem.putNum (x.e.service + 8) 8 x.status }

/-- A queue is marked faulted (R242). -/
def faultQueue (s : State) (p q : Nat) : State :=
  let x := s.part p
  setStatus s p { x with qfault := x.qfault ||| BitVec.ofNat 16 (2 ^ q) }

/-- A read of the management core in a partition's private memory (R241): a domain address cannot be read. -/
def readPrivate (s : State) (p va n : Nat) : Except Trap (State × List Byte) :=
  match readVirt s p va n with
  | .error t => .error t
  | .ok (s, bs) =>
    let away := (pagePieces va n).any fun x => match translate s p x.1 false false with | .ok (_, e) => e.remote | .error _ => false
    if away then .error { cause := Cause.prot, tval := BitVec.ofNat 64 va } else .ok (s, bs)

/-- A read of the management core for a queue that fails (R242). -/
def queueUnread (s : State) (p q : Nat) (t : Trap) : State :=
  if t.stage2 then mgmtWait s p q t else faultQueue s p q

/-- The management core stores at a virtual address of a partition that it has read; in a ROOT page, which only RSWP writes,
it stores nothing (R192). -/
def mgmtStore (s : State) (p va : Nat) (bs : List Byte) : State :=
  match translate s p va false false with
  | .ok (s, e) => if (e.place va).isRoot then s else (applyStore s (e.place va) bs).1
  | .error _ => s

/-! ### Completion words and history -/

/-- A completion word (R244). -/
def doneWord (id status reason : Nat) : W64 := BitVec.ofNat 64 (id % 2 ^ 32 + status * 2 ^ 32 + reason * 2 ^ 40)

/-- The completion of an ID resolves the waits on it (R247). -/
def resolveWaits (s : State) (p id status tick : Nat) : State :=
  { s with launches := s.launches.map fun (k, l) =>
      if l.part == p && l.waits.contains id then
        (k, if status = 0 then { l with waits := l.waits.filter (· != id), ready := max l.ready tick } else { l with refused := true })
      else (k, l) }

/-- A completion enters the history, the last 4096, and resolves the waits on it (R247), unless `hist` is 0. -/
def enterHistory (s : State) (p : Nat) (w : W64) (hist tick : Nat) : State :=
  if hist = 0 then s else
    let id := (w.extractLsb' 0 32).toNat
    let status := (w.extractLsb' 32 8).toNat
    let x := s.part p
    let h := x.history ++ [(id, status, tick)]
    let s := s.setPart p { x with history := h.drop (h.length - 4096) }
    resolveWaits s p id status tick

/-- A completion word that cannot be stored is counted (R245). -/
def loseWord (s : State) (p : Nat) (w : W64) (hist : Nat) : State :=
  let x := s.part p
  enterHistory (s.setPart p { x with lostWords := x.lostWords + 1 }) p w hist s.m.ftime

/-- A store that cannot reach its place: a module that has left, or a domain line whose link fails twice (R302, R271). -/
def outOfReach (s : State) (p : Place) (n : Nat) : Bool := match p with | .dom _ => (badAt s p n).isSome | _ => false

/-- Stores a completion word, loses it, or waits for firmware (R245, R248); a ROOT page is not writable to it (R192), and a
module out of reach takes none (R302). (DEDUCED, log 65) -/
def storeWord (s : State) (p va : Nat) (w : W64) (hist : Nat) : State :=
  if va = 0 || va % 8 != 0 then loseWord s p w hist
  else match translate s p va true false with
    | .ok (s, e) =>
      if (e.place va).isRoot || outOfReach s (e.place va) 8 then loseWord s p w hist else
      let (s, tw) := applyStore s (e.place va) (bytesOfNat 8 w.toNat)
      enterHistory s p w hist tw
    | .error t =>
      if t.stage2 then
        let s := mgmtWait s p 16 t
        let x := s.part p
        s.setPart p { x with words := x.words ++ [(va, w, hist)] }
      else loseWord s p w hist

/-- Waiting completion words are tried again; on a page that firmware declined they are lost (R245). -/
def retryWords (s : State) (p : Nat) (declined : Option Nat) : State :=
  let x := s.part p
  x.words.foldl (fun s (va, w, hist) => if declined == some (page64 va) then loseWord s p w hist else storeWord s p va w hist)
    (s.setPart p { x with words := [] })

/-! ### Launch records -/

/-- The record of R243 in 128 bytes. -/
def LaunchRec.ofBytes (b : List Byte) : LaunchRec :=
  let n := fun (o k : Nat) => natOfBytes ((b.drop o).take k)
  let w := fun (o : Nat) => BitVec.ofNat 32 (n o 4)
  let x := fun (o : Nat) => BitVec.ofNat 64 (n o 8)
  { entry := x 0, passVa := x 8, teams := n 0x10 4, groups := n 0x14 2, lanes := n 0x16 2, w := n 0x18 2, k := n 0x1A 1
    spread := n 0x1B 1, scratch := n 0x1C 2, lcores := n 0x1E 2, tview := w 0x20, aview := w 0x24, flags := w 0x28
    policy := w 0x2C, args := x 0x30, done := x 0x38, prio := w 0x40, id := n 0x44 4
    waits := [n 0x48 4, n 0x4C 4, n 0x50 4, n 0x54 4], handler := x 0x58, budget := n 0x60 4, split := w 0x64
    ranges := x 0x68, nranges := n 0x70 4, passLen := n 0x74 4 }

def LaunchRec.det (r : LaunchRec) : Bool := r.flags.getLsbD 0

/-- A split request is legal (R42, R243). -/
def splitOk (x : W32) : Bool :=
  let b := fun (i : Nat) => (x.extractLsb' (8 * i) 8).toNat
  b 3 == 0 && (x == 0 || (decide (1 ≤ b 0) && decide (b 0 + b 1 + b 2 ≤ 96)))

/-- The split a launch runs under (R243, R250). -/
def LaunchRec.bnds (r : LaunchRec) (dflt : BitVec 8 × BitVec 8 × BitVec 8) : BitVec 8 × BitVec 8 × BitVec 8 :=
  if r.split == 0 || !splitOk r.split then dflt
  else (r.split.extractLsb' 0 8, r.split.extractLsb' 8 8, r.split.extractLsb' 16 8)

/-- IDs of a partition's incomplete launches; one whose completion word still waits to enter the history counts (R247). -/
def incomplete (s : State) (p : Nat) : List Nat :=
  ((s.launches.filter fun (_, l) => l.part == p).map fun (_, l) => l.r.id)
    ++ ((s.part p).words.filter fun (_, _, hist) => hist != 0).map fun (_, w, _) => (w.extractLsb' 0 32).toNat

/-- How a wait-for ID stands at validation (R247): satisfied at a tick, still to wait for, or a reason to refuse. -/
inductive WaitSt where | done (tick : Nat) | wait | refuse (reason : Nat)

def waitState (s : State) (p own id : Nat) : WaitSt :=
  if id = 0 then .done 0
  else if id = own then .refuse 9
  else if (incomplete s p).contains id then .wait
  else match (s.part p).history.reverse.find? fun h => h.1 == id with
    | some (_, 0, t) => .done t
    | some _ => .refuse 0xD
    | none => .refuse 9

/-- The first reason to refuse among the wait-for IDs; unresolved ones are checked by R247 only. -/
def waitRefusal (s : State) (p : Nat) (r : LaunchRec) : Option Nat :=
  (r.waits.filterMap fun id => match waitState s p r.id id with | .refuse n => some n | _ => none)[0]?

/-- The checks of R243 in offset order: each with its reason; the wait-for IDs stand between the last two parts. -/
def fieldChecks (s : State) (p : Nat) (r : LaunchRec) (b : List Byte) : List (Bool × Nat) :=
  let n := fun (o k : Nat) => natOfBytes ((b.drop o).take k)
  let cores := partCores s p
  let l := if r.lcores = 0 then cores.length else r.lcores
  let (_, b1, _) := r.bnds (s.part p).split
  let det := r.det
  [ (r.entry.toNat % 4 == 0, 1),
    (r.passVa.toNat % 128 == 0, 1),
    (decide (1 ≤ r.teams), 2),
    (decide (1 ≤ r.groups) && decide (r.groups ≤ 32), 2),
    (decide (256 * (r.groups - 1) < r.lanes) && decide (r.lanes ≤ 256 * r.groups), 2),
    (decide (1 ≤ r.w) && decide (r.w ≤ 64), 3),
    (decide (r.k ≤ 8) && decide (r.k < r.w), 3),
    (decide (1 ≤ r.spread) && decide (r.spread ≤ 24), 4),
    (decide (256 * r.scratch ≤ 65536 * b1.toNat), 5),
    (decide (l ≤ 8 * cores.length) && l % r.spread == 0 && !(seatsOf cores r.spread).isEmpty, 4),
    (r.tview.extractLsb' 16 16 == 0 && r.tview.extractLsb' 6 2 != 3, 6),
    (r.aview.extractLsb' 16 16 == 0 && r.aview.extractLsb' 6 2 == 0, 6),
    (r.flags.extractLsb' 4 28 == 0, 1),
    (polValid r.policy, 6),
    (r.done != 0 && r.done.toNat % 8 == 0, 1),
    (r.prio.extractLsb' 4 2 != 3 && r.prio.extractLsb' 6 26 == 0, 7),
    (r.id != 0 && !(incomplete s p).contains r.id, 8),
    ((waitRefusal s p r).isNone, (waitRefusal s p r).getD 9),
    (r.handler.toNat % 4 == 0, 1),
    (splitOk r.split, 0xA),
    (if det then r.ranges.toNat % 16 == 0 else r.ranges == 0, 0xB),
    (if det then decide (1 ≤ r.nranges) && decide (r.nranges ≤ 8) else r.nranges == 0, 0xB),
    (if r.passVa == 0 then r.passLen == 0
     else decide (1024 ≤ r.passLen) && decide (r.passLen ≤ 65536) && r.passLen % 4 == 0, 1),
    (n 0x78 8 == 0, 1) ]

def firstFail (l : List (Bool × Nat)) : Option Nat := (l.find? fun c => !c.1).map (·.2)

/-- The write ranges in a table (R255); none when an entry is malformed. -/
def rangesOf (r : LaunchRec) (b : List Byte) : Option (List Range) :=
  let rs := (List.range (r.teams * r.nranges)).map fun i =>
    let n := fun (o k : Nat) => natOfBytes ((b.drop (16 * i + o)).take k)
    ((⟨i / r.nranges, n 0 8, n 8 4, n 12 4 % 2 == 1⟩ : Range), n 8 4 != 0 && decide (n 12 4 ≤ 1))
  if rs.all (·.2) then some (rs.map (·.1)) else none

/-- A non-shared range of one team overlaps a range of another team (R255). -/
def rangesClash (rs : List Range) : Bool :=
  rs.any fun a => !a.shared && rs.any fun b => a.team != b.team && overlaps a.va a.len b.va b.len

/-- Check 0x0C (R243): the register region holds a team, and the scratchpad region its allocation. -/
def canReside (s : State) (p : Nat) (r : LaunchRec) : Bool :=
  let (b0, b1, _) := r.bnds (s.part p).split
  decide (r.groups * r.w ≤ 64 * b0.toNat) && decide (256 * r.scratch ≤ 65536 * b1.toNat)

/-- What validation finds (R245): a stage-2 fault waits for firmware. -/
inductive Verdict where | wait (t : Trap) | refuse (reason : Nat) | accept (rs : List Range)

/-- Validation (R245): the fields in offset order, the write-range table, then check 0x0C. -/
def validate (s : State) (p : Nat) (r : LaunchRec) (b : List Byte) : Verdict :=
  match firstFail (fieldChecks s p r b) with
  | some n => .refuse n
  | none =>
    let fit := fun (rs : List Range) => if canReside s p r then Verdict.accept rs else .refuse 0xC
    if !r.det then fit []
    else match readVirt s p r.ranges.toNat (16 * r.teams * r.nranges) with
      | .error t => if t.stage2 then .wait t else .refuse 0xB
      | .ok (_, b) => match rangesOf r b with
        | none => .refuse 0xB
        | some rs => if rangesClash rs then .refuse 0xB else fit rs

/-- A validated launch is queued (R246, R247): its start list is every team of the grid. -/
def addLaunch (s : State) (p q : Nat) (priv : Bool) (r : LaunchRec) (rs : List Range) : State :=
  let (lid, s) := s.fresh
  let st := r.waits.map fun id => (id, waitState s p r.id id)
  let waits := st.filterMap fun (id, x) => match x with | .wait => some id | _ => none
  let ready := st.foldl (fun t (_, x) => match x with | .done u => max t u | _ => t) 0
  let l : Launch := {
    part := p, queue := q, order := lid, ranges := rs, priv := priv, waits := waits, ready := ready
    r := { r with lcores := if r.lcores = 0 then (partCores s p).length else r.lcores }
    toStart := (List.range r.teams).map fun t => (t, false) }
  s.setLaunch lid l

/-- The record that has been read at the head of a queue and waits for its write-range table (R242, R245). -/
def keepRecord (s : State) (p q : Nat) (b : Option (List Byte)) : State :=
  let x := s.part p
  s.setPart p { x with taken := match b with | some b => Tbl.set x.taken q b | none => Tbl.del x.taken q }

/-- A refusal: `head` stores HEAD + 1 before the completion word (R242, R245). -/
def refuseRecord (s : State) (p : Nat) (head : State → State) (r : LaunchRec) (n : Nat) : State :=
  let hist := if n = 8 && r.id != 0 then 0 else 1
  storeWord (head s) p r.done.toNat (doneWord r.id 1 n) hist

/-- A record that has been read, once (R242), is validated; `head` stores HEAD + 1. (DEDUCED, log 44) -/
def consume (s : State) (p q : Nat) (priv : Bool) (head : State → State) (b : List Byte) : State :=
  let r := LaunchRec.ofBytes b
  match validate s p r b with
  | .wait t => mgmtWait (if priv then s else keepRecord s p q (some b)) p (if priv then 16 else q) t
  | .accept rs => addLaunch (head s) p q priv r rs
  | .refuse n => refuseRecord s p head r n

/-- What LAUNCH_CONSUME finds in a control block (R242): a fault of the queue, nothing to read, or a record's address with
HEAD. -/
inductive Block where | bad | empty | record (head at_ : Nat)

def blockOf (cb : List Byte) : Block :=
  let n := fun (o k : Nat) => natOfBytes ((cb.drop o).take k)
  let (tail, head, cap, ring) := (n 0 4, n 8 4, n 12 4, n 0x10 8)
  if n 4 4 != 0 || n 0x18 40 != 0 || ring % 128 != 0 || cap = 0 || 4096 < cap || cap &&& (cap - 1) != 0
      || cap < (tail + 2 ^ 32 - head) % 2 ^ 32 then .bad
  else if tail = head then .empty
  else .record head (ring + 128 * (head % cap))

/-- HEAD + 1 is stored, and the record is done with (R242). -/
def nextHead (p q va head : Nat) (s : State) : State :=
  let s := if (Tbl.look (s.part p).taken q).isSome then keepRecord s p q none else s
  mgmtStore s p (va + 8) (bytesOfNat 4 ((head + 1) % 2 ^ 32))

/-- The record at the head of a queue: the one kept, or read now. -/
def headRecord (s : State) (p q at_ : Nat) : Except Trap (State × List Byte) :=
  match Tbl.look (s.part p).taken q with
  | some b => .ok (s, b)
  | none => readPrivate s p at_ 128

/-- LAUNCH_CONSUME (R242, R245). -/
def execLaunchConsume (p q : Nat) (s : State) : Host.Outcome State Fault Refusal :=
  .next (
    let x := s.part p
    if !(x.e.state == 1 || x.e.state == 3) || !x.ready || x.e.queues ≤ q || x.qfault.getLsbD q then s
    else match x.e.ctl[q]? with
      | none => s
      | some va => match readPrivate s p va 64 with
        | .error t => queueUnread s p q t
        | .ok (s, cb) => match blockOf cb with
          | .bad => faultQueue s p q
          | .empty => s
          | .record head a => match headRecord s p q a with
            | .error t => queueUnread s p q t
            | .ok (s, b) => consume s p q false (nextHead p q va head) b)

/-- Firmware declines the page of a write-range table (R262): the table cannot be read, and the launch is refused (R243,
0x0B); any other page that the queue waits for makes it faulted (R242). (DEDUCED, log 44) -/
def declineQueue (s : State) (p q page : Nat) : State :=
  match Tbl.look (s.part p).taken q, (s.part p).e.ctl[q]? with
  | some b, some va =>
    let r := LaunchRec.ofBytes b
    let n := 16 * r.teams * r.nranges
    if (pagePieces r.ranges.toNat n).any fun x => page64 x.1 == page then
      match readPrivate s p va 64 with
      | .error t => queueUnread s p q t
      | .ok (s, cb) => match blockOf cb with
        | .record head _ => refuseRecord s p (nextHead p q va head) r 0xB
        | _ => faultQueue s p q
    else faultQueue s p q
  | _, _ => faultQueue s p q

/-! ### Completion -/

/-- Everything a launch started is over (R248, R280): its teams are reclaimed, and no operation of theirs is open. -/
def launchOver (s : State) (lid : Nat) : Bool :=
  let mine := fun (tid : Nat) => (s.team tid).lid == lid
  !(s.groups.any fun (_, g) => g.ident.lid == lid)
    && (s.teams.all fun (_, t) => t.lid != lid || (t.ended && t.reclaimed))
    && !(s.accesses.any fun (_, a) => mine a.tid && a.kind.storeLike && (!a.finished || decide (s.m.ftime < a.tw)))

/-- Its array operations have arrived or been dropped, and FTIME has reached its largest WH (R248). -/
def launchQuiet (s : State) (lid : Nat) (l : Launch) : Bool :=
  launchOver s lid && !(s.arrops.any fun (_, o) => o.lid == lid && !o.landed) && decide (l.maxWh ≤ s.m.ftime)

/-- Tombstones of a launch's teams that no operation names any more are dropped. -/
def dropTeams (s : State) (lid : Nat) : State :=
  let used := (s.accesses.map fun (_, a) => a.tid) ++ (s.copies.map fun (_, y) => y.tid)
  { s with teams := s.teams.filter fun (k, t) => t.lid != lid || used.contains k }

/-- A launch is over: its replicas are dropped (R175), and its completion word is stored (R244, R248). -/
def finishLaunch (s : State) (lid status reason : Nat) : State :=
  let l := s.launch lid
  let s := { s with
    copies1 := s.copies1.filter fun c => !(c.replica && c.lid == lid)
    launches := Tbl.del s.launches lid }
  storeWord (dropTeams s lid) l.part l.r.done.toNat (doneWord l.r.id status reason) 2

/-- LAUNCH_COMPLETION (R247, R248, R280): completed, killed and reclaimed, or refused because a launch it waits on ended
with STATUS 1 or 2. -/
def execLaunchCompletion (lid : Nat) (s : State) : Host.Outcome State Fault Refusal :=
  .next (
    let s := sweep s
    match Tbl.look s.launches lid with
    | none => s
    | some l => match l.killed with
      | some cause => if launchOver s lid then finishLaunch s lid 2 cause else s
      | none =>
        if l.refused then finishLaunch s lid 1 0xD
        else if l.toStart.isEmpty && l.live.isEmpty && launchQuiet s lid l then finishLaunch s lid 0 0
        else s)

end Sys2Proof.Machine
end

