-- ==== Sys2Proof/Machine/Schedule.lean ====
section
/-!
DEFINITION. Rank and eligibility (R246), pool splits (R42, R250), binding teams (R36 to R38, R251 to R253, R282), a group's
turn (R26, R32, R35), slice ends (R249, R272), stage-2 service (R262) and page retirement (R285).
-/

namespace Sys2Proof.Machine

/-! ### Rank -/

/-- The class of a launch in rank order: resident, standard, background (R246). -/
def Launch.classRank (l : Launch) : Nat :=
  match (l.r.prio.extractLsb' 4 2).toNat with | 1 => 0 | 0 => 1 | _ => 2
def Launch.isResident (l : Launch) : Bool := l.classRank == 0

/-- Rank as a list, compared from the left: class, priority, queue, consumption (R246). -/
def Launch.rank (l : Launch) : List Nat := [l.classRank, 15 - (l.r.prio.extractLsb' 0 4).toNat, l.queue, l.order]

def rankLt : List Nat → List Nat → Bool
  | a :: as, b :: bs => decide (a < b) || (a == b && rankLt as bs)
  | _, _ => false

/-- A launch may start teams (R246, R248): its wait-for launches have completed with STATUS 0. -/
def Launch.eligible (l : Launch) (now : Nat) : Bool :=
  l.killed.isNone && !l.refused && l.waits.isEmpty && decide (l.ready ≤ now)

/-- Cores still being vacated for a launch (R272): teams of the spreads that the request vacates are still resident. -/
def stillVacating (s : State) (lid : Nat) : List Nat :=
  let l := s.launch lid
  if s.teams.any fun (k, t) => t.lid == lid && !t.gids.isEmpty && l.leaving.contains k then l.vacating else []

/-- Cores a launch may use now: the partition's, without those being vacated (R255, R272). -/
def openCores (s : State) (lid : Nat) : List Nat :=
  let v := stillVacating s lid
  (partCores s (s.launch lid).part).filter fun c => !v.contains c

/-! ### Room on a core -/

/-- Slots that hold no group. -/
def freeSlots (s : State) (core : Nat) : List Nat :=
  (List.range 128).filter fun n => (Tbl.get {} (s.core core).binds n).state == 0

/-- Windows in use: start and length in KiB. -/
def windowsOf (s : State) (core : Nat) : List (Nat × Nat) :=
  ((s.core core).binds.filter fun (_, b) => b.state != 0).map fun (_, b) => (b.wbase, b.w)

/-- Scratchpad allocations in use: start and length in bytes. -/
def allocsOf (s : State) (core : Nat) : List (Nat × Nat) :=
  (s.teams.filter fun (_, t) => t.core == core && !t.reclaimed && decide (0 < t.spSize)).map fun (_, t) => (t.spBase, t.spSize)

/-- No group and no allocation is resident (R42, R250). -/
def coreEmpty (s : State) (core : Nat) : Bool := (windowsOf s core).isEmpty && (allocsOf s core).isEmpty

/-- The split of a core. -/
def Core.bnds (c : Core) : BitVec 8 × BitVec 8 × BitVec 8 := (c.bnd0, c.bnd1, c.bnd2)

/-- The split a launch runs under. -/
def launchBnds (s : State) (lid : Nat) : BitVec 8 × BitVec 8 × BitVec 8 :=
  (s.launch lid).r.bnds (s.part (s.launch lid).part).split

/-- How many blocks of `n` fit beside the ranges in use, which are sorted by start, from `a` up to `lim`. -/
def gapCount (n lim : Nat) : List (Nat × Nat) → Nat → Nat
  | [], a => if n = 0 then lim else (lim - a) / n
  | (b, k) :: rs, a => (if n = 0 then lim else (b - a) / n) + gapCount n lim rs (max a (b + k))

def fitCount (n lim : Nat) (used : List (Nat × Nat)) : Nat :=
  gapCount n lim (sortBy (fun a b => decide (a.1 ≤ b.1)) used) 0

/-! ### Pool splits and the L1 mode -/

/-- A legal write of a core's pool split (R42); it empties the core's L1. -/
def writeBnds (s : State) (core : Nat) (b0 b1 b2 : BitVec 8) : State :=
  if b0 = 0 || 96 < b0.toNat + b1.toNat + b2.toNat || !coreEmpty s core then s
  else { s.setCore core { s.core core with bnd0 := b0, bnd1 := b1, bnd2 := b2 } with
    copies1 := s.copies1.filter fun c => c.core != core }

/-- BND_WRITE (R42). -/
def execBndWrite (core : Nat) (b0 b1 b2 : BitVec 8) (s : State) : Host.Outcome State Fault Refusal :=
  .next (if 96 ≤ core then s else writeBnds s core b0 b1 b2)

/-- A core is given the split a launch needs (R250); none while it may not change. -/
def splitFor (s : State) (lid core : Nat) : Option State :=
  let b := launchBnds s lid
  if (s.core core).bnds == b then some s
  else if coreEmpty s core then some (writeBnds s core b.1 b.2.1 b.2.2) else none

/-- The L1 mode of a core's cluster for a launch (R173): it changes only with no resident team of another mode on the
partition's cores there, and the change drops every copy. -/
def fuseFor (s : State) (lid core : Nat) : Option State :=
  let want := s.flag lid 1
  let cs := clusterCores s (s.launch lid).part (State.cluster core)
  if (core :: cs).all fun c => (s.core c).fused == want then some s
  else if s.teams.any fun (_, t) => (core :: cs).contains t.core && !t.gids.isEmpty && s.flag t.lid 1 != want then none
  else some { (core :: cs).foldl (fun s c => s.setCore c { s.core c with fused := want }) s with
    copies1 := s.copies1.filter fun c => !(core :: cs).contains c.core }

/-! ### Eligible starts -/

/-- The groups a team binds: all of a fresh team, those with a saved context of a saved one (R251, R282). -/
def groupsToBind (s : State) (lid t : Nat) (rst : Bool) : List (Nat × Option Saved) :=
  let l := s.launch lid
  if rst then
    let cs := contextsOf s l.part l.r.id t
    (List.range 32).filterMap fun i => (cs.find? fun c => c.group == some i).map fun c => (i, some c)
  else (List.range l.r.groups).map fun i => (i, none)

/-- Team `t` of a launch waits to start from its saved context (R251). -/
def restarts (s : State) (lid t : Nat) : Bool := (s.launch lid).toStart.any fun x => x == (t, true)

/-- The reservation of a saved team could be granted again on a core's engine (R163). -/
def resvFor (s : State) (lid t core : Nat) : Bool :=
  let l := s.launch lid
  match (contextsOf s l.part l.r.id t).find? (·.group.isNone) with
  | some c => !restarts s lid t || resvRoom s core lid l.r.passLen c
  | none => true

/-- Team `t` of a launch would fit on a core (R246): slots and windows for the groups it binds, an allocation, the split
(R250), the L1 mode (R173), and its reservation (R163). -/
def wouldFit (s : State) (lid t core : Nat) : Bool :=
  let r := (s.launch lid).r
  let n := (groupsToBind s lid t (restarts s lid t)).length
  let (b0, b1, _) := launchBnds s lid
  ((s.core core).bnds == launchBnds s lid || coreEmpty s core)
    && (fuseFor s lid core).isSome
    && decide (n ≤ (freeSlots s core).length)
    && decide (n ≤ fitCount r.w (64 * b0.toNat) (windowsOf s core))
    && (r.scratch == 0 || decide (1 ≤ fitCount (256 * r.scratch) (65536 * b1.toNat) (allocsOf s core)))
    && resvFor s lid t core

/-- No team that goes before this one on its core has yet to start (R38). Outside deterministic mode only teams of one
logical core are known to share a core. -/
def inOrder (s : State) (lid : Nat) (members : List Nat) (t : Nat) : Bool :=
  let l := s.launch lid
  let seats := seatsOf (openCores s lid) l.r.spread
  let home := fun (x : Nat) => homeCore seats l.r.spread l.r.lcores x
  let lc := l.r.lcores
  !(l.toStart.any fun (x, _) => !members.contains x && (if l.r.det then home x == home t else x % lc == t % lc)
    && (decide (x % lc < t % lc) || (x % lc == t % lc && decide (x < t))))

/-- No team of a spread is still resident (R36): a saved spread starts whole. -/
def spreadGone (s : State) (lid k : Nat) : Bool :=
  !(s.teams.any fun (_, t) => t.lid == lid && !t.ended && t.index / (s.launch lid).r.spread == k)

/-- The teams of a launch that have yet to start, by spread, where the whole spread is there to start (R36, R38). -/
def startable (s : State) (lid : Nat) : List (List Nat) :=
  let l := s.launch lid
  let n := l.r.spread
  let all := l.toStart.map (·.1)
  ((all.map (· / n)).dedup.map fun k => sortBy (fun a b => decide (a ≤ b)) (all.filter fun t => t / n == k)).filter fun ts =>
    (ts.all fun t => spreadGone s lid (t / n)) && ts.all (inOrder s lid ts)

/-- The seats on which spreads of a launch wait to start: in deterministic mode those that R37 fixes, otherwise any
(R37, R39). -/
def waitSeats (s : State) (lid : Nat) (ts : List (List Nat)) : List (List Nat) :=
  let l := s.launch lid
  let n := l.r.spread
  let seats := seatsOf (openCores s lid) n
  if !l.r.det then (if ts.isEmpty then [] else seats)
  else seats.filter fun seat => ts.any fun t => match t with
    | [] => false
    | x :: _ => match homeCore seats n l.r.lcores x with | some c => seat.contains c | none => false

/-- Team `t` of a launch waits to start on a core. -/
def waitsOn (s : State) (lid t core : Nat) : Bool :=
  (s.launch lid).eligible s.m.ftime && (waitSeats s lid [[t]]).any (·.contains core)

/-- A spread of a launch could start now on one of its seats. (DEDUCED, log 45) -/
def canStart (s : State) (lid : Nat) : Bool :=
  (startable s lid).any fun ts => (waitSeats s lid [ts]).any fun seat => ts.all fun t =>
    match seat[t % (s.launch lid).r.spread]? with | some core => wouldFit s lid t core | none => false

/-- Rank forbids a launch to start on a core (R246). -/
def outranked (s : State) (lid core : Nat) : Bool :=
  let l := s.launch lid
  s.launches.any fun (k, x) => k != lid && x.part == l.part && x.toStart.any fun (t, _) => waitsOn s k t core &&
    ((rankLt x.rank l.rank && wouldFit s k t core) || (l.classRank == 2 && x.classRank != 2))

/-! ### Binding -/

/-- Real lanes of a group (R20). -/
def realLanes (r : LaunchRec) (g : Nat) : Nat := if g + 1 < r.groups then 256 else r.lanes - 256 * (r.groups - 1)

/-- A fresh group (R253). -/
def freshGroup (i : Ident) (r : LaunchRec) : Group :=
  let sv := fun (t : Tbl W64) (k : Nat) (x : W64) => Tbl.put 0 t k x
  { ident := i
    subs := [(15, { mask := mlow i.nreal, pc := r.entry })]
    s := sv (sv (sv (sv [] 0 r.args) 1 (BitVec.ofNat 64 i.team)) 2 (BitVec.ofNat 64 i.index)) 3 (BitVec.ofNat 64 r.teams)
    csr := { tview := r.tview.extractLsb' 0 16, aview := r.aview.extractLsb' 0 16, lpol := r.policy.zeroExtend 64
             hbase := r.handler, budget := if r.budget = 0 then 100000 else r.budget } }

/-- The windows of a place overlap none in use, nor one another, and lie in the register region (R252). -/
def windowsOk (s : State) (core w lim : Nat) (bases : List Nat) : Bool :=
  let used := windowsOf s core
  let ws := bases.map fun b => (b, w)
  (ws.all fun (b, n) => decide (b + n ≤ lim) && !(used.any fun (a, k) => overlaps a k b n))
    && (ws.zipIdx.all fun (x, i) => ws.zipIdx.all fun (y, j) => i == j || !overlaps x.1 x.2 y.1 y.2)

/-- The next slot that firmware fills (R252): the lowest free one on a least-occupied rod. -/
def nextSlot (used : List Nat) : Option Nat :=
  let load := fun (n : Nat) => (used.filter fun k => k % 16 == n % 16).length
  ((List.range 128).filter fun n => !used.contains n).foldl (fun b n => match b with
    | some k => if load n < load k then some n else b
    | none => some n) none

/-- The slots of `n` groups, one after another (R252). -/
def pickSlots : Nat → List Nat → List Nat
  | 0, _ => []
  | n + 1, used => match nextSlot used with
    | some k => k :: pickSlots n (used ++ [k])
    | none => []

/-- The slots are those of R252, and the allocation lies in the scratchpad region beside the others. -/
def placeOk (s : State) (lid : Nat) (n : Nat) (pl : TeamPlace) : Bool :=
  let r := (s.launch lid).r
  let (_, b1, _) := launchBnds s lid
  let slots := pl.slots.map (·.1)
  slots.length == n && slots == pickSlots n ((List.range 128).filter fun k => !(freeSlots s pl.core).contains k)
    && decide (256 * (pl.spBase + r.scratch) ≤ 65536 * b1.toNat)
    && !(allocsOf s pl.core).any fun (a, k) => overlaps a k (256 * pl.spBase) (256 * r.scratch)

/-- The pass image a saved reservation needs: present on the engine, or read from memory (R163). -/
def imageFor (s : State) (lid core : Nat) (c : Saved) : Option (Nat × Mem) :=
  let r := (s.launch lid).r
  if c.resv.isNone || (s.engine (State.quartet core)).images.any fun (l, _, _) => l == lid then some (0, [])
  else match readVirt s (s.launch lid).part r.passVa.toNat r.passLen with
    | .ok (_, bs) => some (r.passLen, Mem.store [] 0 bs)
    | .error _ => none

/-- The entry of the active-launch table that a launch holds, or takes (R251). -/
def launchRef (s : State) (lid : Nat) : Option (BitVec 8) :=
  let l := s.launch lid
  match l.lref with
  | some k => some k
  | none =>
    let used := s.launches.filterMap fun (_, x) => if x.part == l.part then x.lref else none
    ((List.range 256).find? fun k => !used.contains (BitVec.ofNat 8 k)).map (BitVec.ofNat 8)

/-- Stages one group in its slot (R252 step 1). -/
def bindGroup (lid tid t : Nat) (lref : BitVec 8) (pl : TeamPlace) (rst : Bool) (s : State) (x : (Nat × Option Saved) × Nat × Nat) : State :=
  let ((i, c), slot, wbase) := x
  let l := s.launch lid
  let (gid, s) := s.fresh
  let id : Ident := {
    lid := lid, tid := tid, part := l.part, index := i, core := pl.core, slot := slot, team := t, lcores := l.r.lcores
    spread := l.r.spread, nreal := realLanes l.r i, w := l.r.w, k := l.r.k }
  let s := match c with
    | some c => restoreCopies (restoreGroup s gid id (c.g.getD (freshGroup id l.r))) gid id c.copies
    | none => { s with groups := Tbl.set s.groups gid (freshGroup id l.r) }
  let k := s.core pl.core
  let b : Bind := { team := t, lref := lref, group := i, wbase := wbase, spbase := pl.spBase, rst := rst, state := 2, gid := gid, w := l.r.w }
  let s := s.setCore pl.core { k with binds := Tbl.set k.binds slot b }
  s.setTeam tid { s.team tid with gids := (s.team tid).gids ++ [gid] }

/-- The STAGED records of a launch's spread on a core start together (R252 step 3). -/
def startStaged (s : State) (core : Nat) : State :=
  let k := s.core core
  s.setCore core { k with binds := k.binds.map fun (n, b) => (n, if b.state = 2 then { b with state := 1 } else b) }

/-- Stages one team, its scratchpad zero or as saved (R252, R253, R282): none when its place, split, L1 mode or reservation
forbids it. -/
def bindTeam (lid : Nat) (s : State) (t : Nat) (rst : Bool) (pl : TeamPlace) : Option State := do
  let s ← splitFor s lid pl.core
  let s ← fuseFor s lid pl.core
  let l := s.launch lid
  let gs := groupsToBind s lid t rst
  if !placeOk s lid gs.length pl then none
  let lref ← launchRef s lid
  let (tid, s) := s.fresh
  let tc := if rst then (contextsOf s l.part l.r.id t).find? (·.group.isNone) else none
  let base : Team := (tc.bind (·.t)).getD {}
  let team : Team := { base with
    lid := lid, part := l.part, index := t, core := pl.core, member := t % l.r.spread, spread := l.r.spread
    spBase := 256 * pl.spBase, spSize := 256 * l.r.scratch, gids := [], saved := false }
  let s := s.setTeam tid team
  let s ← match tc with
    | none => some s
    | some c =>
      if !resvRoom s pl.core lid l.r.passLen c then none
      else (imageFor s lid pl.core c).map fun im => restoreResv s pl.core tid lid im c
  let s := (gs.zip pl.slots).foldl (bindGroup lid tid t lref pl rst) s
  let s := if rst then
      { s with contexts := s.contexts.filter fun c => !(c.part == l.part && c.launch == l.r.id && c.team == t) }
    else s
  return s.setLaunch lid { s.launch lid with
    toStart := l.toStart.filter fun (x, _) => x != t, live := l.live ++ [tid], lref := some lref
    since := some (l.since.getD s.m.ftime) }

/-- The seat of a spread (R37, R39): fixed in deterministic mode, any seat otherwise. -/
def seatOk (s : State) (lid : Nat) (ps : List ((Nat × Bool) × TeamPlace)) : Bool :=
  let r := (s.launch lid).r
  let seats := seatsOf (openCores s lid) r.spread
  if r.det then ps.all fun ((t, _), pl) => homeCore seats r.spread r.lcores t == some pl.core
  else seats.any fun seat => ps.all fun ((t, _), pl) => seat[t % r.spread]? == some pl.core

/-- Everything that must hold before the spread of `first` starts (R36 to R38, R246, R272). -/
def bindable (s : State) (lid first : Nat) (members : List (Nat × Bool)) (places : List TeamPlace) : Bool :=
  let l := s.launch lid
  let st := (s.part l.part).e.state
  (Tbl.look s.launches lid).isSome && (st == 1 || st == 3) && l.eligible s.m.ftime
    && first % l.r.spread == 0 && spreadGone s lid (first / l.r.spread) && !members.isEmpty && members.length == places.length
    && decide (places.map (·.core)).Nodup
    && places.all (fun pl => !outranked s lid pl.core)
    && seatOk s lid (members.zip places)
    && members.all fun (t, _) => inOrder s lid (members.map (·.1)) t

/-- TEAM_BIND (R36, R250 to R253, R282): every member of the spread is staged, then all start. Dispatch refuses a record whose window does not fit, and counts it (R252).
(DESIGN CHOICE, log 5) -/
def execTeamBind (lid first : Nat) (places : List TeamPlace) (s : State) : Host.Outcome State Fault Refusal :=
  .next (
    let s := sweep s
    let l := s.launch lid
    let members := sortBy (fun a b => decide (a.1 ≤ b.1)) (l.toStart.filter fun (t, _) => t / l.r.spread == first / l.r.spread)
    if !bindable s lid first members places then s
    else
      let (b0, _, _) := launchBnds s lid
      if !places.all fun pl => windowsOk s pl.core l.r.w (64 * b0.toNat) (pl.slots.map (·.2)) then
        s.setM { s.m with refusedBinds := s.m.refusedBinds + 1 }
      else match (members.zip places).foldl (fun (r : Option State) ((t, rst), pl) => r.bind fun s => bindTeam lid s t rst pl) (some s) with
        | some s => places.foldl (fun s pl => startStaged s pl.core) s
        | none => s)

/-! ### Turns -/

/-- The next occupied position of a rod after the one it stands at (R26). -/
def nextPos (c : Core) (rod : Nat) : Option (Nat × Bind) :=
  let start := Tbl.get 0 c.rodPos rod
  ((List.range 8).map fun i => (start + i) % 8).findSome? fun p =>
    let b := Tbl.get {} c.binds (16 * p + rod)
    if b.state = 1 then some (p, b) else none

/-- The sub-groups that may be tried in a turn, in order (R31, R35). Between a handler's entry and ERET those that the entry
froze issue nothing (R268). -/
def candidates (g : Group) : List Nat :=
  let all := g.order.filter fun x => g.isSub x && !g.held x
  match g.handler with
  | some h => if g.isSub h then all.filter fun x => x == h || (g.sub x).mask &&& g.frozen == 0 else all
  | none => all

/-- A group's turn: a save that is due (R274, R276), a PREEMPT (R273), blank, or the sub-groups it tries in turn. A trap that
found no record free is presented again once one is (R266). -/
def turn (s : State) (gid : Nat) : State :=
  match Tbl.look s.groups gid with
  | none => s
  | some g =>
    let asked := match g.pre with | .asked _ => !g.csr.m && g.saving.isNone | _ => false
    let stuck := match g.hang with | .no => false | .full => decide (32 ≤ (s.core g.ident.core).recs.length) | _ => true
    if g.overdue s.m.ftime then beginSave s gid (BitVec.allOnes 64) true
    else if asked then deliverPreempt s gid g
    else if g.saving.isSome || stuck then s
    else
      let old := g
      let g := { g.startTurn with hang := .no }
      let s := foldWaits (s.setGroup gid g) old gid
      match candidates g with
      | [] => s
      | x :: rest => { s with issue := some ⟨.group gid x, rest⟩ }

/-- GROUP_TURN (R26, R32, R35). -/
def execGroupTurn (core rod : Nat) (s : State) : Host.Outcome State Fault Refusal :=
  .next (
    let s := sweep s
    if 16 ≤ rod then s
    else match nextPos (s.core core) rod with
      | none => s
      | some (p, b) =>
        let c := s.core core
        turn (s.setCore core { c with rodPos := Tbl.put 0 c.rodPos rod ((p + 1) % 8) }) b.gid)

/-! ### Slice ends -/

/-- A launch's slice may end (R249): not resident class, a million ticks resident, a higher-ranked launch cannot start. -/
def sliceEnds (s : State) (lid : Nat) : Bool :=
  let l := s.launch lid
  !l.isResident && (match l.since with | some t => decide (t + 1000000 ≤ s.m.ftime) | none => false)
    && s.launches.any fun (k, x) => x.part == l.part && x.eligible s.m.ftime && rankLt x.rank l.rank
      && !x.toStart.isEmpty && !canStart s k

/-- SPATIAL_PREEMPTION (R249, R272): a slice end is a request for every core of the launch. -/
def execSpatialPreemption (p launch : Nat) (cores : List Nat) (s : State) : Host.Outcome State Fault Refusal :=
  .next (
    let s := sweep s
    match findLaunch s p launch with
    | none => s
    | some lid =>
      let mine := coresOf s lid
      if sliceEnds s lid && mine.all cores.contains && cores.all mine.contains then vacate s lid cores else s)

/-! ### Stage-2 service -/

/-- Firmware writes a stage-2 entry (R262), with TLBI, after which watched ranges are translated again (R279); none when it
must not. -/
def writeLeaf (s : State) (p pa : Nat) (v : W64) : Option State :=
  if pa % 8 != 0 || 2 ^ 41 < pa + 8 then none
  else (relink s { s with mem := s.mem.putNum pa 8 v.toNat, tlb := s.tlb.filter fun x => x.part != p } p).map (retranslate · p)

/-- The partition that owns a core. -/
def partOf (s : State) (core : Nat) : Option Nat :=
  (s.parts.find? fun (_, x) => x.e.quartets.contains (State.quartet core)).map (·.1)

/-- Firmware declines (R242, R245, R262): the launches that wait are killed with the trap's cause; a queue is marked
faulted, a completion word lost. -/
def declineRec (s : State) (core : Nat) (r : CoRec) : State :=
  if core = mgmtCore then
    match r.lids, r.slots with
    | [p], [q] => if q < 16 then declineQueue s p q r.page else retryWords s p (some r.page)
    | _, _ => s
  else
    let lids := r.lids ++ (r.slots.map fun n => (s.group (Tbl.get {} (s.core core).binds n).gid).ident.lid)
    lids.dedup.foldl (fun s l => killLaunch s l r.cause) s

/-- STAGE2_FAULT_SERVICE (R262, R266). -/
def execStage2FaultService (core rec : Nat) (leaf : Option (Nat × BitVec 64)) (s : State) :
    Host.Outcome State Fault Refusal :=
  .next (
    let s := sweep s
    match Tbl.look (s.core core).recs rec with
    | none => s
    | some r =>
      if !r.stage2 then s
      else match leaf with
        | none => sweep (closeRec (declineRec s core r) core rec)
        | some (pa, v) =>
          match (if core = mgmtCore then r.lids[0]? else partOf s core) with
          | none => s
          | some p => match writeLeaf s p pa v with
            | none => s
            | some s =>
              let s := closeRec s core rec
              if core = mgmtCore then retryWords s p none else s)

/-! ### Page retirement -/

/-- A physical address after pages have moved. -/
def movedTo (old new count pa : Nat) : Nat :=
  if 65536 * old ≤ pa ∧ pa < 65536 * (old + count) then pa - 65536 * old + 65536 * new else pa

/-- The pages from `old` move to spare pages from `new` (R285): contents, reverse entries, and what firmware has kept of
their addresses: writes held by STOP and pages granted to the host. -/
def movePages (s : State) (p old new count : Nat) : State :=
  let place := movedTo old new count
  let x := s.part p
  let mine := s.reverse.filter fun (k, _) => decide (old ≤ k) && decide (k < old + count)
  let kept := s.reverse.filter fun (k, _) => !(decide (old ≤ k) && decide (k < old + count))
  { s.setPart p { x with held := x.held.map fun h => { h with pa := place h.pa } } with
    mem := (s.mem.clear (65536 * new) (65536 * count)).store (65536 * new) (s.mem.bytes (65536 * old) (65536 * count))
    reverse := mine.foldl (fun t (k, o) => Tbl.set t (k - old + new) o) kept
    m := { s.m with granted := s.m.granted.map fun k => place (65536 * k) / 65536 } }

/-- PAGE_RETIREMENT (R285): the page moves to a spare page, its leaf is rewritten, and TLBI follows, which waits for the
accesses translated under the old leaf (R222) and translates watched ranges again (R279). The page of a 32 MiB leaf moves with
the leaf's other pages. A page that no leaf maps is only never mapped again. Pages are numbered by PA div 2^16. (DEDUCED,
log 81) -/
def execPageRetirement (p leaf oldPage newPage : Nat) (s : State) : Host.Outcome State Fault Refusal :=
  .next (
    let retire := fun (s : State) => s.setM { s.m with retiredPages := s.m.retiredPages ++ [oldPage] }
    if s.m.retiredPages.contains oldPage || 2 ^ 25 ≤ oldPage then s
    else match Tbl.look s.reverse oldPage with
      | none => retire s
      | some (q, n) =>
        if q != p || accessPending s p (fun _ => true) || enginePending s p then s
        else match walk2 s.mem s.m.modno (65536 * n) 4 (s.part p).e.root2 with
          | none => s
          | some l =>
            let (old, count) := (l.final / 65536, l.size / 65536)
            let word := s.mem.num leaf 8
            let spare := newPage % count == 0 && decide (newPage + count ≤ 2 ^ 25) && (List.range count).all fun i =>
              (Tbl.look s.reverse (newPage + i)).isNone && !s.m.retiredPages.contains (newPage + i)
            if l.remote || !spare || leaf % 8 != 0 || bitsN word 16 36 != old then s
            else
              let t := movePages s p old newPage count
              let t := { t with
                mem := t.mem.putNum leaf 8 (word - old * 65536 + newPage * 65536), tlb := t.tlb.filter fun x => x.part != p }
              match walk2 t.mem t.m.modno (65536 * n) 4 (t.part p).e.root2 with
              | some l' => if l'.final / 65536 = newPage then retranslate (retire t) p else s
              | none => s)

end Sys2Proof.Machine
end

