-- ==== Sys2Proof/Machine/Binding.lean ====
section
/-!
DEFINITION. Bindings (R101 to R105), tiles and their images (R109, R112, R465), the ideal and the delivered codes, image
shards (R143, R144), ABND and ASTAT (R328 to R330, R332), and the Topiary tables and settings (R124 to R126).
-/

namespace Sys2Proof.Machine

/-! ### Entries and tiles -/

def BindE.free (b : BindE) : Bool := b.state == 0
def BindE.loading (b : BindE) : Bool := b.state == 1
def BindE.published (b : BindE) : Bool := b.state == 2
def BindE.retiring (b : BindE) : Bool := b.state == 3

/-- The dies of a mask. -/
def diesOf (m : BitVec 16) : List Nat := (List.range 16).filter m.getLsbD

def dieReady (s : State) (d : Nat) : Bool := s.m.dieok.getLsbD d

/-- Tiles of an entry's map, row block by row block (R103). -/
def BindE.blocks (b : BindE) : Nat × Nat := (b.din / 512, b.dout / 512)

/-- A tile map entry (R103). -/
def Tile.ofWord (w : Nat) : Tile := ⟨bitsN w 28 4, bitsN w 20 8, bitsN w 9 11⟩
def Tile.word (t : Tile) : Nat := t.die * 2 ^ 28 + t.plot * 2 ^ 20 + t.tile * 2 ^ 9

/-- The word of row block `u` and column block `v`. -/
def mapWord (s : State) (b : BindE) (u v : Nat) : Nat := s.mem.num (b.map + 4 * (u * (b.dout / 512) + v)) 4

def mapWords (s : State) (b : BindE) : List Nat :=
  let (nu, nv) := b.blocks
  (List.range nu).flatMap fun u => (List.range nv).map fun v => mapWord s b u v

def tilesOf (s : State) (b : BindE) : List Tile := (mapWords s b).map Tile.ofWord

def colExps (s : State) (b : BindE) : List Nat := (s.mem.bytes b.colE b.dout).map (·.toNat)
def rowExps (s : State) (b : BindE) : List Nat := (s.mem.bytes b.rowE b.din).map (·.toNat)

/-- Ticks between epochs; a field of 0 stands for the default (R102, R127). (DESIGN CHOICE, log 79) -/
def BindE.ticks (b : BindE) : Nat := if b.period = 0 then 2 ^ 30 else b.period

/-- Tiles that a request of 256 lanes from `start` reads, block by block (R109, R112). -/
def useTiles (s : State) (b : BindE) (trans : Bool) (start : Nat) : List Tile :=
  let k := start / 512
  if trans then (List.range (b.dout / 512)).map fun v => Tile.ofWord (mapWord s b k v)
  else (List.range (b.din / 512)).map fun r => Tile.ofWord (mapWord s b r k)

/-- Exponents of its 256 lanes (R110, R112). -/
def useExps (s : State) (b : BindE) (trans : Bool) (start : Nat) : List Nat :=
  (s.mem.bytes ((if trans then b.rowE else b.colE) + start) 256).map (·.toNat)

/-- A tile's key in its die's table. -/
def tileKey (plot tile : Nat) : Nat := plot * 2048 + tile

/-- A tile's state: spare tiles start as SPARE (R141). -/
def Die.tile (d : Die) (plot tile : Nat) : TileSt := Tbl.get { state := if tile < 1024 then 0 else 3 } d.tiles (tileKey plot tile)
def Die.setTile (d : Die) (plot tile : Nat) (t : TileSt) : Die := { d with tiles := Tbl.set d.tiles (tileKey plot tile) t }

/-- Array operations that hold a binding's generations in use (R104). -/
def inFlight (s : State) (n : Nat) (gen : Option (BitVec 32)) : Bool :=
  s.arrops.any fun (_, o) => o.counts && !o.landed && o.bind == n && (match gen with | some g => o.gen == g | none => true)

/-- A retiring entry becomes FREE, and old generations are forgotten, once nothing is in flight (R104, R329). -/
def freeBinding (s : State) (n : Nat) : State :=
  let s := { s with oldTiles := s.oldTiles.filter fun (k, g, _) => k != n || inFlight s n (some g) }
  if (s.bind n).retiring && !inFlight s n none then s.setBind n {} else s

/-- A tile lies in a PUBLISHED or RETIRING map, other than entry `n`'s, or in one of an old generation (R121, R329). -/
def tileTaken (s : State) (but : Option Nat) (t : Tile) : Bool :=
  (s.binds.any fun (k, b) => some k != but && (b.published || b.retiring) && (tilesOf s b).contains t)
    || s.oldTiles.any fun (k, _, ts) => some k != but && ts.contains t

/-- A tile in some binding entry (R141), or of an old generation that still counts as a RETIRING entry (R329). -/
def tileBound (s : State) (t : Tile) : Bool :=
  (s.binds.any fun (_, b) => !b.free && (tilesOf s b).contains t) || s.oldTiles.any fun (_, _, ts) => ts.contains t

/-! ### Images (R465) -/

/-- The child of a twig that holds data byte `off`, and the offset in it; a missing sibling counts as full. -/
def kidAt (s : State) (full : Nat) : List Nat → Nat → Option (Nat × Nat)
  | [], _ => none
  | k :: ks, off =>
    let size := match findObj s 0 k with | some o => o.size | none => full
    if off < size then some (k, off) else kidAt s full ks (off - size)

/-- The name of the leaf that holds data byte `off` of an image, and the byte's offset in it. -/
def imageLeaf (s : State) : Nat → Nat → Nat → Option (Nat × Nat)
  | 0, _, _ => none
  | n + 1, name, off =>
    match findObj s 0 name with
    | none => none
    | some o =>
      if !o.twig then some (name, off)
      else if twigTotal o.bytes ≤ off then none
      else match kidAt s (256 * 10 ^ (twigLevel o.bytes - 1)) (twigKids o.bytes) off with
        | none => none
        | some (k, off) => if twigLevel o.bytes = 1 then some (k, off) else imageLeaf s n k off

/-- A byte of an image in namespace 0. -/
def imageByte (s : State) (root off : Nat) : Option Nat :=
  match imageLeaf s 8 root off with
  | none => none
  | some (k, i) => match findObj s 0 k with
    | none => none
    | some o => (o.bytes[i]?).map (·.toNat)

/-- The whole tree is stored (R465). -/
def imageWhole (s : State) (b : BindE) : Bool :=
  match objData s 0 8 b.root with | some bs => decide (b.din * b.dout ≤ bs.length) | none => false

/-- Leaves missing below stored twigs (R465). (DEDUCED, log 50) -/
def missingLeaves (s : State) : Nat → Nat → List Nat
  | 0, _ => []
  | n + 1, name =>
    match findObj s 0 name with
    | none => []
    | some o =>
      if !o.twig then []
      else if twigLevel o.bytes = 1 then (twigKids o.bytes).filter fun k => (findObj s 0 k).isNone
      else (twigKids o.bytes).flatMap fun k => missingLeaves s n k

/-! ### Image shards (R143) -/

/-- Writes a request entry into the shard ring; 2048 entries follow one another (DESIGN CHOICE, log 18). -/
def ringPut (s : State) (name attempt : Nat) : State :=
  if s.m.shardRing = 0 then s
  else
    let a := s.m.shardRing + 32 * (s.m.shardHead % 2048)
    let bs := bytesOfNat 24 name ++ bytesOfNat 8 attempt
    { s with mem := s.mem.store a bs, m := { s.m with shardHead := s.m.shardHead + 1 } }

/-- A leaf name has been given up for every image it is wanted for (R144); the name 0 names none. -/
def givenUp (s : State) (roots : List Nat) (name : Nat) : Bool := name != 0 && roots.all fun r => s.m.incomplete.contains (name, r)

/-- The image of a root is marked incomplete (R144). -/
def imageIncomplete (s : State) (root : Nat) : Bool := s.m.incomplete.any (·.2 == root)

/-- A leaf is asked for, unless it is asked for already (R143). -/
def askShard (part : Option Nat) (s : State) (name : Nat) : State :=
  if s.shards.any fun x => x.name == name && x.part == part then s
  else ringPut { s with shards := s.shards ++ [⟨name, 1, s.m.ftime, part⟩] } name 1

/-- The management core asks for every leaf a walk finds missing (R465), but for those given up for this image (R144). -/
def askMissing (s : State) (root : Nat) : State :=
  ((missingLeaves s 8 root).dedup.filter fun n => !givenUp s [root] n).foldl (askShard none) s

/-! ### Codes (R109 to R112) -/

/-- The integer weight of an image byte (R90). -/
def weightAt (s : State) (root din dout i c : Nat) : Option Int :=
  if din ≤ i then none else (imageByte s root (i * dout + c)).map bp8W

/-- A code from an exact product: clamp(rne(P / 2^j)) (R109). -/
def idealCode (j : Nat) (p : Int) : Int := max (-2047) (min 2047 (roundInt .rne p (-(j : Int))).1)

/-- Sum of a list of optional terms. -/
def sumOpt (l : List (Option Int)) : Option Int := l.foldl (fun a x => a.bind fun a => x.map (a + ·)) (some 0)

/-- The ideal code of block `t` for lane index `r`: column `r` forwards, row `r` transposed (R109, R112). -/
def idealAt (s : State) (root din dout j : Nat) (trans : Bool) (x : List Int) (t r : Nat) : Option Int :=
  (sumOpt ((List.range 512).map fun i =>
    let k := 512 * t + i
    let w := if trans then weightAt s root din dout r k else weightAt s root din dout k r
    w.map fun w => (x[k]?).getD 0 * w)).map (idealCode j)

/-- Delivered codes are free values within the ADC's range (R109, log 10). -/
def freeCodes (s : State) (n : Nat) : State × List Int :=
  ({ s with free := s.free + n }, (List.range n).map fun i => max (-2047) (min 2047 (Config.adcCode (s.free + i))))

/-- σ of a code sum (R110, R112, R129): one rounding, no flag. -/
def sigmaOf (sum : Int) (e : Int) : Nat := (FFmt.f32.round .rne (if sum = 0 then .zero false else .fin sum e)).1

/-- Counts a failed attempt for every die it involved (R113). -/
def countFaults (s : State) (dies : List Nat) : State :=
  s.setM { s.m with arrayFaults := dies.foldl (fun t d => Tbl.put 0 t d (Tbl.get 0 t d + 1)) s.m.arrayFaults }

/-! ### Topiary tables (R124) -/

/-- Where an entry of a bank lies. -/
def topAddr (b : BindE) (trans : Bool) (bank i : Nat) : Nat :=
  (if trans then b.tra else b.fwd) + bank * 8 * (if trans then b.din else b.dout) + 8 * i

/-- Gain and offset from the bank in use (R111, R124). -/
def topEntry (s : State) (b : BindE) (trans : Bool) (i : Nat) : W32 × W32 :=
  let a := topAddr b trans (b.cgen.toNat % 2) i
  (BitVec.ofNat 32 (s.mem.num a 4), BitVec.ofNat 32 (s.mem.num (a + 4) 4))

/-- Products of an attempt that has failed, or is cancelled, go on in their seats for no one. -/
def orphan (s : State) (id : Nat) : State :=
  { s with dies := s.dies.map fun (d, x) =>
      (d, { x with running := x.running.map fun p => if p.op == id then { p with live := false } else p }) }

/-- A probe of an epoch of a binding. -/
def ArrOp.probes (o : ArrOp) (n : Nat) : Bool := o.bind == n && (match o.dest with | .epoch => true | _ => false)

/-- An epoch of a binding is abandoned with its probes (R127). -/
def dropEpoch (s : State) (n : Nat) : State :=
  let s := (s.arrops.filter fun (_, o) => o.probes n).foldl (fun s (id, _) => orphan s id) s
  { s with epochs := s.epochs.filter fun e => e.bind != n, arrops := s.arrops.filter fun (_, o) => !o.probes n }

def setDue (s : State) (n : Nat) (t : Nat) : State := { s with due := Tbl.set s.due n t }

/-- TOPIARY_SETTING_WRITE (R126): NPRB of 0, 1 or above 64 is refused; clearing ON abandons an epoch (R127). -/
def execTopiarySettingWrite (n : Nat) (v : BitVec 32) (s : State) : Host.Outcome State Fault Refusal :=
  .next (
    let k := (v.extractLsb' 0 7).toNat
    if 256 ≤ n || k < 2 || 64 < k then s
    else
      let on := v.getLsbD 8
      let s := { s with topset := Tbl.put {} s.topset n ⟨on, k⟩ }
      if on then s else dropEpoch s n)

/-! ### ABND -/

/-- A candidate entry in 128 bytes (R102). -/
def BindE.ofBytes (b : List Byte) : BindE :=
  let n := fun (o k : Nat) => natOfBytes ((b.drop o).take k)
  { j := n 1 1, root := n 8 24, din := n 0x20 4, dout := n 0x24 4, grant := BitVec.ofNat 32 (n 0x28 4)
    cgen := BitVec.ofNat 32 (n 0x2C 4), fwd := n 0x30 8, tra := n 0x38 8, colE := n 0x40 8, rowE := n 0x48 8
    map := n 0x50 8, period := n 0x58 4, dies := BitVec.ofNat 16 (n 0x5C 2) }

/-- A shape of R101. -/
def shapeOk (din dout : Nat) : Bool :=
  din % 512 == 0 && decide (512 ≤ din) && decide (din ≤ 32768) && dout % 512 == 0 && decide (512 ≤ dout) && decide (dout ≤ 2 ^ 20)

/-- The candidate keeps R101 to R103: shape, shift, reserved bytes, exponents, and a map of tiles on the dies it spans. -/
def candidateOk (s : State) (b : List Byte) : Bool :=
  let n := fun (o k : Nat) => natOfBytes ((b.drop o).take k)
  let e := BindE.ofBytes b
  shapeOk e.din e.dout && decide (e.j ≤ 15) && n 2 2 == 0 && n 0x2B 1 == 0 && n 0x5E 34 == 0
    && ((colExps s e ++ rowExps s e).all fun x => decide (1 ≤ x) && decide (x ≤ 254))
    && ((mapWords s e).all fun w => w % 512 == 0 && decide ((Tile.ofWord w).tile ≤ 1055))
    && (List.range 16).all fun d => e.dies.getLsbD d == (tilesOf s e).any fun t => t.die == d

/-- A slot that holds a record: any other is free (R136). -/
def JRec.valid (a : JRec) : Bool := decide (1 ≤ a.state) && decide (a.state ≤ 4) && a.pad == 0

/-- A slot that is neither free nor a record is a journal fault (R136). -/
def JRec.faulty (a : JRec) : Bool := !a.valid && !(a.pad == 0 && (a.state == 0 || a.state == 0xFF))

/-- Every row of a tile is committed and has no later unfinished record (R140). -/
def tileTrusted (s : State) (t : Tile) : Bool :=
  let d := s.die t.die
  let x := d.tile t.plot t.tile
  let js := (Tbl.get [] d.journal t.plot).filter (·.valid)
  (List.range 512).all fun r => x.committed.contains r &&
    !(js.any fun a => a.tile == t.tile && a.row == r && (a.state == 1 || a.state == 2)
      && !(js.any fun b => b.tile == t.tile && b.row == r && decide (a.seq < b.seq)))

/-- The result code of ABND.pub (R329). (DEDUCED, log 51) -/
def pubCode (s : State) (n m : Nat) : Nat :=
  let x := s.bind m
  let y := s.bind n
  if !x.loading then 1
  else if n != m && !(y.free || y.published) then 1
  else if (tilesOf s x).any (tileTaken s (some n)) then 3
  else if !(tilesOf s x).all (tileTrusted s) then 4
  else if imageIncomplete s x.root then 5
  else if !(diesOf x.dies).all (dieReady s) then 6
  else 0

/-- The binding record of an entry (R15). -/
def recordOf (s : State) (n : Nat) (b : BindE) (committed : Bool) : NvRec :=
  { bind := n, entry := { b with fwd := 0, tra := 0, colE := 0, rowE := 0, map := 0 }, tiles := tilesOf s b
    colE := colExps s b, rowE := rowExps s b, committed := committed, retired := false }

/-- The binding record of an entry goes to every spanned die with its commit mark, in place of the older ones (R15). -/
def writeRecords (s : State) (n : Nat) : State :=
  let b := s.bind n
  (List.range 16).foldl (fun s d =>
    let x := s.die d
    let old := x.recs.filter fun r => r.bind != n
    s.setDie d { x with recs := if b.dies.getLsbD d then old ++ [recordOf s n b true] else old }) s

/-- Power fails while entry `m` is being published as `n` (R15): the record stands on every spanned die beside the older
ones, with commit marks on some. (DEDUCED, log 68) -/
def tornRecords (s : State) (n m : Nat) (done : List Nat) : State :=
  let y := s.bind n
  let b := { s.bind m with state := 2, gen := (if y.published then y.gen else 0) + 1 }
  if pubCode s n m != 0 then s
  else (diesOf b.dies).foldl (fun s d =>
    let x := s.die d
    s.setDie d { x with recs := x.recs ++ [recordOf s n b (done.contains d)] }) s

/-- A retire mark on every spanned die (R15). -/
def markRetired (s : State) (n : Nat) : State :=
  (diesOf (s.bind n).dies).foldl (fun s d =>
    let x := s.die d
    s.setDie d { x with recs := x.recs.map fun r => if r.bind == n then { r with retired := true } else r }) s

/-- Snapshots of generations of a binding that are gone (R16). -/
def dropSnaps (s : State) (n : Nat) (gone : BitVec 32 → Bool) : State :=
  { s with dies := s.dies.map fun (d, x) => (d, { x with snaps := x.snaps.filter fun y => !(y.bind == n && gone y.gen) }) }

/-- ABND.pub in one step (R104, R329): the tiles of the old generation count as a RETIRING entry's while operations on it
are in flight, whichever later generation drops them. -/
def publish (s : State) (n m : Nat) : State :=
  let x := s.bind m
  let y := s.bind n
  let g : BitVec 32 := if y.published then y.gen else 0
  let s := if y.published && inFlight s n (some g) then { s with oldTiles := s.oldTiles ++ [(n, g, tilesOf s y)] } else s
  let s := s.setBind n { x with state := 2, gen := g + 1 }
  let s := if n = m then s else s.setBind m {}
  let s := if y.published then s else dropSnaps s n fun _ => true
  setDue (dropEpoch (writeRecords s n) n) n s.m.ftime

/-- The scalar that a privileged form writes. -/
def putCode (c : Ctx) (n : Nat) (s : State) : State := s.setGroup c.gid ((c.g s).putS c.f.d (BitVec.ofNat 64 n))

def bindIndex (f : Fields) : Nat := (f.imm.extractLsb' 0 8).toNat

/-- ABND.load (R328, R329). -/
def execAbndLoad (f : Fields) (s : State) : Host.Outcome State Fault Refusal :=
  issueGroup (.abndLoad f) f (fun c s => do
    guardPriv c s
    let g := c.g s
    scalReady g [f.a]
    let va := match f.a with | .s k => (g.scal k.val).toNat | _ => 0
    guardN (va % 128 == 0) Cause.align va
    guardW (!storePending s c.gid va 128)
    let (s, b) ← readBlock s g (policy g f) va 128
    let n := bindIndex f
    let e := BindE.ofBytes b
    if !(s.bind n).free then return putCode c 1 s
    if !candidateOk s b then return putCode c 2 s
    if !decide (tilesOf s e).Nodup then return putCode c 3 s
    return putCode c 0 (s.setBind n { e with state := 1, gen := 0 })) s

/-- ABND.pub (R329). -/
def execAbndPub (f : Fields) (s : State) : Host.Outcome State Fault Refusal :=
  issueGroup (.abndPub f) f (fun c s => do
    guardPriv c s
    let n := bindIndex f
    let m := (f.imm.extractLsb' 8 8).toNat
    let code := pubCode s n m
    return putCode c code (if code = 0 then publish s n m else s)) s

/-- ABND.ret (R104, R329). -/
def execAbndRet (f : Fields) (s : State) : Host.Outcome State Fault Refusal :=
  issueGroup (.abndRet f) f (fun c s => do
    guardPriv c s
    let n := bindIndex f
    let b := s.bind n
    let s := if b.published then dropEpoch ({ (markRetired s n).setBind n { b with state := 3 } with due := Tbl.del s.due n }) n
      else if b.loading then s.setBind n {} else s
    return putCode c (if b.published || b.loading then 0 else 1) (freeBinding s n)) s

/-! ### ASTAT -/

/-- Whether a partition may use a binding (R105, R332). -/
def visible (s : State) (p : Nat) (b : BindE) : Bool :=
  b.published && b.grant.getLsbD p && (diesOf b.dies).all fun d => (s.part p).e.dies.contains d

/-- ASTAT (R332). -/
def execAstat (f : Fields) (s : State) : Host.Outcome State Fault Refusal :=
  issueGroup (.astat f) f (fun c s => do
    let g := c.g s
    let b := s.bind (bindIndex f)
    let v := visible s g.ident.part b
    let w := fun (hi lo : Nat) => if v then BitVec.ofNat 64 (hi * 2 ^ 32 + lo) else 0
    return match f.d with
      | .s n => s.setGroup c.gid ((g.setScal n.val (w b.dout b.din)).setScal (n.val + 1) (w b.cgen.toNat b.gen.toNat))
      | _ => s) s

end Sys2Proof.Machine
end

