-- ==== Sys2Proof/Machine/Mem.lean ====
section
/-!
DEFINITION. The load, store, prefetch and ATOM instructions (opcodes 0x80 to 0x89), and the module steps that perform
their elements.
-/

namespace Sys2Proof.Machine

/-- Marks the destination of a load: the registers become E (R51, R54); helper lanes take zero (R23). -/
def startWin (s : State) (gid id start len : Nat) (t : Tag) (zero : List Nat) : State :=
  let g := (s.group gid).markE id start len t
  s.setGroup gid { zero.foldl (fun g a => g.deliver id a [0, 0, 0, 0]) g with wrote := [] }

/-- Issues an ordinary load of `n` bytes a lane, 4 for LDV and 8 for LDP (R400). `s` has its sources ready. -/
def issueLanes (c : Ctx) (n d : Nat) (act : Mask) (s : State) : Except Stop State := do
  let g := c.g s
  let f := c.f
  let reqs := (mlanes act).map fun l =>
    ({ lane := l, va := memAddr g f l, size := n, al := n, off := 1024 * d + 4 * l } : Req)
  let (s, es) ← resolve c s true false .store 0 reqs
  let (id, s) := addAccess c s .load .win f.fmt false (policy g f) es
  let zero := (g.helpers act).flatMap fun l => (List.range (n / 4)).map fun w => 1024 * (d + w) + 4 * l
  return startWin s c.gid id (1024 * d) (256 * n) f.fmt zero

/-- An ordinary lane load: LDV, LDP (R400). -/
def laneLoad (c : Ctx) (n : Nat) (s : State) : Except Stop State := do
  let f := c.f
  let g := c.g s
  checkRefs c g (memUses f) [(f.d, n / 4)]
  let act := g.activeReal c.sub f
  if act = 0 then return s
  guardPolicy c g (memUses f)
  let s ← ready c (memUses f) s
  issueLanes c n f.d.code.toNat act s

/-- LDV (R398 to R400). -/
def execLdv (f : Fields) (s : State) : Host.Outcome State Fault Refusal :=
  issueGroup (.ldv f) f (fun c s => laneLoad c 4 s) s

/-- LDP (R398 to R400): bytes 0 to 3 of a lane go to v[d], bytes 4 to 7 to v[d+1]. -/
def execLdp (f : Fields) (s : State) : Host.Outcome State Fault Refusal :=
  issueGroup (.ldp f) f (fun c s => laneLoad c 8 s) s

/-- The lowest free symbol slot (R62). -/
def freeSlot (g : Group) : Option Nat := (List.range g.ident.k).find? fun k => !(g.slot k).busy

/-- A producer takes slot k and seeds the pair with b0 and a0 by lane (R62). -/
def seedPair (g : Group) (d k : Nat) (tf cause : Bool) (a0 b0 : Nat → W32) : Group :=
  let g := g.discard (1024 * d) 2048
  let x := g.slot k
  let g := g.setSlot k { busy := true, arr := false, fail := false, anv := false, tf := tf, cause := cause, holders := 1
                         epoch := x.epoch + 1 }
  let g := g.noteWrite (1024 * d) 2048 [(1024 * d, 2048)]
  let g := { g with win := (List.range 256).foldl (fun (m : Mem) l =>
    (m.putNum (1024 * d + 4 * l) 4 (b0 l).toNat).putNum (1024 * (d + 1) + 4 * l) 4 (a0 l).toNat) g.win }
  ((g.setTags (1024 * d) 2048 .f32).setSt d (.pend k)).setSt (d + 1) (.pend k)

/-- The late load (R401): a producer under R62, or an ordinary load into vd when no slot is free (R63). -/
def lateLoad (c : Ctx) (d : Nat) (act : Mask) (s : State) : Except Stop State := do
  let f := c.f
  let g := c.g s
  let open_ := g.anyE (1024 * d) 2048
  let s ← ready c (memUses f) s
  let g := c.g s
  let reqs := (mlanes act).map fun l => ({ lane := l, va := memAddr g f l, size := 4, al := 4 } : Req)
  match freeSlot g with
  | none =>
    waitUnless ((resolve c s true false .store 0 reqs).map fun _ => ()) (guardW (!open_))
    issueLanes c 4 d act s
  | some k =>
    let (s, es) ← resolve c s true false .store 0 reqs
    guardW (!open_)
    let ep := (g.slot k).epoch + 1
    let (_, s) := addAccess c s (.late k ep) .none .f32 false (policy g f) es
    return s.setGroup c.gid (seedPair (c.g s) d k true true (fun _ => 0x3F800000) (fun _ => 0))

/-- LDV.f32.rk (R60, R401): late only when the policy operand's LATE bit is set. -/
def execLdvLate (f : Fields) (s : State) : Host.Outcome State Fault Refusal :=
  issueGroup (.ldvLate f) f (fun c s => do
    let g := c.g s
    let late := (busyScals g [f.pol]).isEmpty && polLate (policy g f)
    checkRefs c g (memUses f) [(f.d, if late then 2 else 1)]
    let act := g.activeReal c.sub f
    if act = 0 then return s
    guardPolicy c g (memUses f)
    if late then lateLoad c f.d.code.toNat act s
    else
      let s ← ready c (memUses f) s
      issueLanes c 4 f.d.code.toNat act s) s

/-- LDS (R400): one scalar access. -/
def execLds (f : Fields) (s : State) : Host.Outcome State Fault Refusal :=
  issueGroup (.lds f) f (fun c s => do
    let g := c.g s
    guardPolicy c g (memUses f)
    scalReady g [f.a, memIndex f]
    let n := memSize f
    let va := memAddr g f ((mlowest (g.sub c.sub).mask).getD 0)
    let (s, es) ← resolve c s true false .store 0 [{ lane := 0, va := va, size := n, al := n }]
    let d := f.d.code.toNat - 0x40
    let (id, s) := addAccess c s .load (.scal d) f.fmt (f.fmt == .i32) (policy g f) es
    let g := c.g s
    return s.setGroup c.gid { g with sbusy := (g.sbusy.filter (·.1 != d)) ++ [(d, id)] }) s

/-- The address checks of a store-like access, whose data may be on their way (R27, R399). -/
def placesChecked (c : Ctx) (r : Bool) (kind : DetKind) (opcFn : Nat) (reqs : List Req) (s : State) : Except Stop Unit :=
  (resolve c s r true kind opcFn reqs).map fun _ => ()

/-- Issues a store: the data are sampled in the requests; the core's copies of the lines are dropped (R171, R434). -/
def issueStore (c : Ctx) (reqs : List Req) (s : State) : Except Stop State := do
  let g := c.g s
  let (s, es) ← resolve c s false true .store 0 reqs
  let (_, s) := addAccess c s .store .none .raw false (policy g c.f) es
  return es.foldl (fun s e => dropOwnCopy s g.ident.part g.ident.core e.place) s

/-- The data source of a store, `n` registers, checked against FMT (R434). -/
def dataUse (f : Fields) (n : Nat) : Use := { o := f.b, n := n, bt := f.btB, tag := tagOf f }

/-- STV and STP (R434). -/
def laneStore (c : Ctx) (n : Nat) (s : State) : Except Stop State := do
  let f := c.f
  let g := c.g s
  let uses := memUses f ++ [dataUse f (n / 4)]
  checkRefs c g uses []
  let act := g.activeReal c.sub f
  if act = 0 then return s
  guardPolicy c g uses
  let reqs := fun (g : Group) => (mlanes act).map fun l =>
    let data := if n = 8 then (g.lane (f.b.code.toNat + 1) l ++ g.lane f.b.code.toNat l).toNat else (g.src f f.b l).toNat
    ({ lane := l, va := memAddr g f l, size := n, al := n, data := data } : Req)
  let s ← waitUnless (onceReady c (memUses f) s fun s => placesChecked c false .store 0 (reqs (c.g s)) s) (ready c uses s)
  issueStore c (reqs (c.g s)) s

/-- STV (R434). -/
def execStv (f : Fields) (s : State) : Host.Outcome State Fault Refusal :=
  issueGroup (.stv f) f (fun c s => laneStore c 4 s) s
/-- STP (R434). -/
def execStp (f : Fields) (s : State) : Host.Outcome State Fault Refusal :=
  issueGroup (.stp f) f (fun c s => laneStore c 8 s) s

/-- STS (R434): once, from scalar operands. -/
def execSts (f : Fields) (s : State) : Host.Outcome State Fault Refusal :=
  issueGroup (.sts f) f (fun c s => do
    let g := c.g s
    guardPolicy c g (memUses f ++ [{ o := f.b }])
    scalReady g [f.a, memIndex f]
    let n := memSize f
    let va := memAddr g f ((mlowest (g.sub c.sub).mask).getD 0)
    let q : Req := { lane := 0, va := va, size := n, al := n, data := (g.srcU c.sub f f.b).toNat % 2 ^ (8 * n) }
    waitUnless (placesChecked c false .store 0 [q] s) (scalReady g [f.b])
    issueStore c [q] s) s

/-! ### Tiles -/

/-- The row size of a tile or accumulator register (R404). -/
def rowBytes (o : Opd) : Nat := match o with | .a _ => 128 | _ => 64

/-- The format its view requires of a register (R404). -/
def viewTag (g : Group) (o : Opd) : Tag := match o with | .a _ => .f32 | _ => tileTag g.csr.tview

/-- The 4-byte elements of a tile access (R404, R211), `start` the register's window offset. Alignment falls on the address. -/
def tileReqs (g : Group) (o : Opd) (start : Nat) (va : W64) (pitch : Nat) : List Req :=
  let rb := rowBytes o
  let words := if g.range o = some (start, 1152) then 288 else 32 * (rb / 4)
  (List.range words).map fun k =>
    let byte := if words = 288 then 4 * k else k / (rb / 4) * pitch + 4 * (k % (rb / 4))
    { lane := 0, va := va + BitVec.ofNat 64 byte, size := 4, al := if k = 0 then 64 else 0, off := start + 4 * k
      data := g.win.num (start + 4 * k) 4 }

/-- The pitch of a tile access, once its scalars are there (R404). -/
def tilePitch (c : Ctx) (o : Opd) (s : State) : Except Stop Nat := do
  let f := c.f
  let g := c.g s
  scalReady g [f.a, memIndex f, f.c]
  let rb := rowBytes o
  match f.c with
  | .s n =>
    let pitch := (g.scal n.val).toNat
    guardT (pitch % 64 == 0) Cause.align (g.scal n.val)
    guardN (decide (rb ≤ pitch) && decide (pitch ≤ 2 ^ 24)) Cause.prot 0x900
    return pitch
  | _ => return rb

/-- The checks LDT and STT share (R404) before their accesses: decode faults against the view, sources, and the pitch. While
the `data` of a STT are on their way, the checks of its addresses are made (`checks`, R27). -/
def tileChecks (c : Ctx) (o : Opd) (data : List Use) (checks : State → Nat → Except Stop Unit) (s : State) :
    Except Stop (State × Nat) := do
  let f := c.f
  let g := c.g s
  let uses := memUses f ++ data
  checkRefs c g uses [(o, 1)]
  guardI c (f.fmt == viewTag g o && !(f.fmt == .bpb && f.c.isS))
  guardPolicy c g (uses ++ [{ o := f.c }])
  scalTraps g [f.c]
  let early := onceReady c (memUses f) s fun s => (tilePitch c o s).bind fun p => checks s p
  let s ← waitUnless early (ready c uses s)
  let pitch ← tilePitch c o s
  return (s, pitch)

/-- LDT (R404). It loads the whole tile: no lane of it is a helper lane, though R23 lists LDT among the loads that deliver
zero to them. (DEDUCED, log 82) -/
def execLdt (f : Fields) (s : State) : Host.Outcome State Fault Refusal :=
  issueGroup (.ldt f) f (fun c s => do
    let (s, pitch) ← tileChecks c f.d [] (fun _ _ => .ok ()) s
    let g := c.g s
    match g.range f.d with
    | none => illop c
    | some (start, len) =>
      let (s, es) ← resolve c s true false .store 0 (tileReqs g f.d start (memAddr g f 0) pitch)
      let (id, s) := addAccess c s .load .win f.fmt false (policy g f) es
      return startWin s c.gid id start len f.fmt []) s

/-- STT (R435). -/
def execStt (f : Fields) (s : State) : Host.Outcome State Fault Refusal :=
  issueGroup (.stt f) f (fun c s => do
    let reqs := fun (s : State) (pitch : Nat) =>
      let g := c.g s
      (g.range f.b).map fun (start, _) => tileReqs g f.b start (memAddr g f 0) pitch
    let checks := fun (s : State) (pitch : Nat) => match reqs s pitch with
      | none => .ok ()
      | some l => placesChecked c false .store 0 l s
    let (s, pitch) ← tileChecks c f.b [{ o := f.b, bt := f.btB, tag := some f.fmt }] checks s
    match reqs s pitch with
    | none => illop c
    | some l => issueStore c l s) s

/-! ### PREF -/

/-- Whether a base or index, or the policy operand, may be read by PREF in a lane (R421): a vector register F whose granule of
that lane holds RAW or an index, a scalar that has been delivered. -/
def prefOk (g : Group) (o : Opd) (l : Nat) : Bool :=
  match o with
  | .v n => g.st n.val == .full && (let t := g.tagAt (8 * n.val + l / 32); t == .raw || t == .i32 || t == .n32)
  | .s n => !(g.sbusy.any (·.1 == n.val) || g.memues.any (·.scal == some n.val))
  | _ => true

/-- One address of a PREF: a readable private page of this module, not ROOT, is read at its home under the lease class,
whatever copy stands; anything else is dropped (R421). -/
def prefOne (g : Group) (pol : W32) (s : State) (va : W64) : State :=
  match translate s g.ident.part va.toNat false false with
  | .error _ => s
  | .ok (s, e) => match e.place va.toNat with
    | .pa a false ro => (loadAt s g.ident.part g.ident.lid g.ident.core pol (.pa a false ro) 1 true).1
    | _ => s

/-- PREF (R421); with no active lane it has no effect, and takes no sequence value (R24, R307; log 21). (DESIGN CHOICE,
log 8) -/
def execPref (f : Fields) (s : State) : Host.Outcome State Fault Refusal :=
  issueGroup (.pref f) f (fun c s => do
    let g := c.g s
    checkRefs c g [{ o := f.a }, { o := memIndex f }] []
    let ls := if f.uni then (if g.uniOn c.sub f then [(mlowest (g.sub c.sub).mask).getD 0] else [])
      else mlanes (g.activeReal c.sub f)
    if ls.isEmpty then return s
    let known := prefOk g f.pol 0
    guardI c (!known || polValid (policy g f))
    let (_, s) := nextSeq s c.gid
    let reads := ls.filter fun l => known && prefOk g f.a l && prefOk g (memIndex f) l
    return (reads.map (memAddr g f)).foldl (prefOne g (policy g f)) s) s

/-! ### ATOM -/

/-- Deterministic-mode kind of an ATOM (R256). -/
def atomKind (o : AtomOp) (ret : Bool) : DetKind :=
  match o with
  | .fadd | .fmax | .fmin => .atomFloat
  | .xchg | .cas => .atomRet
  | _ => if ret then .atomRet else .atomInt

/-- FN of an ATOM operation (R237). -/
def atomFn : AtomOp → Nat
  | .add => 0 | .fadd => 1 | .smax => 2 | .smin => 3 | .nmax => 4 | .nmin => 5 | .fmax => 6 | .fmin => 7
  | .and => 8 | .or => 9 | .xor => 10 | .xchg => 11 | .cas => 12

/-- ATOM (R237, R238, R333, R334). -/
def atom (i : Instr) (f : Fields) (o : AtomOp) (s : State) : Host.Outcome State Fault Refusal :=
  let ret := !f.x61
  issueGroup i f (fun c s => do
    let g := c.g s
    let cas := o == .cas
    let dataUses := if cas then [useB f (tagOf f), useC f (tagOf f)] else [useB f (tagOf f)]
    let uses := memUses f ++ dataUses
    checkRefs c g uses [(f.d, 1)]
    let opcFn := 0x89 + 2 ^ 8 * atomFn o
    if f.uni then
      if !g.uniOn c.sub f then return s
      guardPolicy c g uses
      scalReady g [f.a, memIndex f]
      let va := memAddr g f ((mlowest (g.sub c.sub).mask).getD 0)
      let v := fun (x : Opd) => (g.srcU c.sub f x).extractLsb' 0 32
      let q : Req := { lane := 0, va := va, size := 4, al := 4, data := (v f.b).toNat, cmp := if cas then v f.c else 0 }
      waitUnless (placesChecked c true (atomKind o ret) opcFn [q] s) (scalReady g (dataUses.map (·.o)))
      let (s, es) ← resolve c s true true (atomKind o ret) opcFn [q]
      match f.d with
      | .s n =>
        let (id, s) := addAccess c s (.atom o ret) (.scal n.val) .raw false (policy g f) es
        let g := c.g s
        return s.setGroup c.gid { g with sbusy := (g.sbusy.filter (·.1 != n.val)) ++ [(n.val, id)] }
      | _ => return (addAccess c s (.atom o ret) .none .raw false (policy g f) es).2
    else
      let act := g.activeReal c.sub f
      if act = 0 then return s
      guardPolicy c g uses
      let d := f.d.code.toNat
      let reqs := fun (g : Group) => (mlanes act).map fun l =>
        ({ lane := l, va := memAddr g f l, size := 4, al := 4, off := 1024 * d + 4 * l
           data := (g.src f f.b l).toNat, cmp := if cas then g.src f f.c l else 0 } : Req)
      let early := onceReady c (memUses f) s fun s => placesChecked c true (atomKind o ret) opcFn (reqs (c.g s)) s
      let s ← waitUnless early (ready c uses s)
      let g := c.g s
      let (s, es) ← resolve c s true true (atomKind o ret) opcFn (reqs g)
      match f.d with
      | .v n =>
        let (id, s) := addAccess c s (.atom o ret) .win f.fmt false (policy g f) es
        return startWin s c.gid id (1024 * n.val) 1024 f.fmt ((g.helpers act).map fun l => 1024 * n.val + 4 * l)
      | _ => return (addAccess c s (.atom o ret) .none .raw false (policy g f) es).2) s

/-- ATOM.add (R237), and the other operations below. -/
def execAtomAdd (f : Fields) (s : State) : Host.Outcome State Fault Refusal := atom (.atomAdd f) f .add s
/-- ATOM.fadd (R237). -/
def execAtomFadd (f : Fields) (s : State) : Host.Outcome State Fault Refusal := atom (.atomFadd f) f .fadd s
/-- ATOM.smax (R237). -/
def execAtomSmax (f : Fields) (s : State) : Host.Outcome State Fault Refusal := atom (.atomSmax f) f .smax s
/-- ATOM.smin (R237). -/
def execAtomSmin (f : Fields) (s : State) : Host.Outcome State Fault Refusal := atom (.atomSmin f) f .smin s
/-- ATOM.nmax (R237). -/
def execAtomNmax (f : Fields) (s : State) : Host.Outcome State Fault Refusal := atom (.atomNmax f) f .nmax s
/-- ATOM.nmin (R237). -/
def execAtomNmin (f : Fields) (s : State) : Host.Outcome State Fault Refusal := atom (.atomNmin f) f .nmin s
/-- ATOM.fmax (R237). -/
def execAtomFmax (f : Fields) (s : State) : Host.Outcome State Fault Refusal := atom (.atomFmax f) f .fmax s
/-- ATOM.fmin (R237). -/
def execAtomFmin (f : Fields) (s : State) : Host.Outcome State Fault Refusal := atom (.atomFmin f) f .fmin s
/-- ATOM.and (R237). -/
def execAtomAnd (f : Fields) (s : State) : Host.Outcome State Fault Refusal := atom (.atomAnd f) f .and s
/-- ATOM.or (R237). -/
def execAtomOr (f : Fields) (s : State) : Host.Outcome State Fault Refusal := atom (.atomOr f) f .or s
/-- ATOM.xor (R237). -/
def execAtomXor (f : Fields) (s : State) : Host.Outcome State Fault Refusal := atom (.atomXor f) f .xor s
/-- ATOM.xchg (R237). -/
def execAtomXchg (f : Fields) (s : State) : Host.Outcome State Fault Refusal := atom (.atomXchg f) f .xchg s
/-- ATOM.cas (R237). -/
def execAtomCas (f : Fields) (s : State) : Host.Outcome State Fault Refusal := atom (.atomCas f) f .cas s

/-! ### Module steps -/

/-- LOAD_DELIVERY (R400, R209). -/
def execLoadDelivery (id elem : Nat) (evicted : Bool) (s : State) : Host.Outcome State Fault Refusal :=
  .next (performLoad id elem evicted s)
/-- STORE_PERFORMED (R208). -/
def execStorePerformed (id elem : Nat) (s : State) : Host.Outcome State Fault Refusal := .next (performStore id elem s)
/-- ATOM_AT_REDUCER (R238, R176). -/
def execAtomAtReducer (id elem : Nat) (s : State) : Host.Outcome State Fault Refusal := .next (performAtom id elem s)
/-- ATOM_RETURN_DELIVERY (R238). -/
def execAtomReturnDelivery (id elem : Nat) (s : State) : Host.Outcome State Fault Refusal := .next (landAtom id elem s)

end Sys2Proof.Machine
end

