-- ==== Sys2Proof/Machine/Array.lean ====
section
/-!
DEFINITION. The layer instructions (R106 to R118, R394 to R397) and LPRB (R405, R406): issue, quantisation, capture and
replay, and the landing of their results and of late loads (R64).
-/

namespace Sys2Proof.Machine

/-! ### Issue -/

/-- The start of a layer word: an immediate in 256s, or a scalar's low 32 bits (R106). -/
def layerStart (g : Group) (f : Fields) : Nat :=
  match f.b with | .s n => (g.scal n.val).toNat % 2 ^ 32 | _ => 256 * (f.imm.extractLsb' 8 24).toNat

/-- What R107 fixes of an instruction that passes: the entry, its start, its direction, and where its input lies. -/
structure LayerUse where
  n : Nat
  b : BindE
  start : Nat
  trans : Bool
  tid : Nat
  off : Nat
deriving DecidableEq, Repr

/-- Elements of the input, and the length of the dimension that the start names. -/
def LayerUse.count (u : LayerUse) : Nat := if u.trans then u.b.dout else u.b.din
def LayerUse.span (u : LayerUse) : Nat := if u.trans then u.b.din else u.b.dout

/-- The checks of R107 after the first three, for an input of `size` bytes an element. An address whose reserved bits are not
zero, or whose member is none of the spread's, lies in no allocation and gives the table's code 6. (DESIGN CHOICE, log 86) -/
def layerChecks (c : Ctx) (s : State) (trans : Bool) (size : Nat) : Except Stop LayerUse := do
  let g := c.g s
  let n := bindIndex c.f
  let b := s.bind n
  let start := layerStart g c.f
  let va := (match c.f.a with | .s k => (g.scal k.val).toNat | _ => 0) % 2 ^ 32
  scalReady g [c.f.b]
  guardN (start % 256 == 0) Cause.align start
  guardN (decide (start < if trans then b.din else b.dout)) Cause.prot 4
  guardN (!trans || decide (b.dout ≤ 32768)) Cause.prot 5
  scalReady g [c.f.a]
  guardN (va % 64 == 0) Cause.align va
  match spad s g.ident.tid va (size * if trans then b.dout else b.din) with
  | .ok (t, off) => return ⟨n, b, start, trans, t, off⟩
  | .error _ => trapN Cause.prot 6

/-- An older store of the group to its input must be performed first (R395, R212). -/
def inputPending (s : State) (gid : Nat) (u : LayerUse) (n : Nat) : Bool :=
  s.accesses.any fun (_, a) => a.gid == gid && a.kind.storeLike &&
    a.elems.any fun e => e.open' && e.place.meets e.size (.sp u.tid u.off) n

/-- Tiles that a use reads (R109, R112), and the exponents of its lanes (R110, R112). -/
def LayerUse.tiles (u : LayerUse) (s : State) : List Tile := useTiles s u.b u.trans u.start
def LayerUse.exps (u : LayerUse) (s : State) : List Nat := useExps s u.b u.trans u.start

/-- The quantiser of R108 on BF16 words: k and the integers; none for an input that is not finite. -/
def quantise (xs : List Nat) : Option (Int × List Int) :=
  let top := (xs.map (· % 2 ^ 15)).foldl max 0
  if 0x7F80 ≤ top then none
  else match FFmt.bf16.read top with
    | .fin m e =>
      let lg := m.natAbs.log2
      let k : Int := lg + e - (if 64 * m.natAbs ≤ 127 * 2 ^ lg then 6 else 5)
      let q := fun (x : Nat) => match FFmt.bf16.read x with
        | .fin m e => max (-127) (min 127 (roundInt .rne m (e - k)).1)
        | _ => 0
      some (k, xs.map q)
    | _ => some (0, xs.map fun _ => 0)

/-- The record a replaying LAYR reads (R118): INDEX advances; the sums of a match, or a failure with MIS. A read that
faults fails it too, and is delivered imprecisely (R397). (DEDUCED, log 63) -/
def replay (c : Ctx) (s : State) (u : LayerUse) (op : Nat) : Except Stop (State × Option (List Int)) :=
  let g := c.g s
  let cap := g.cap
  let next := { cap with index := (cap.index + 1) % 2 ^ 32 }
  let put := fun (s : State) (x : CapLog) => s.setGroup c.gid { s.group c.gid with cap := x }
  if cap.cap ≤ cap.index then .ok (put s { next with mis := true }, none)
  else
    let a := (cap.base.toNat + 1040 * cap.index) % 2 ^ 64
    match issueRead s g.ident.part cap.pol a 1040 with
    | .error t =>
      if t.stage2 then .error (.trap t)
      else
        let s := engReport (put s { next with mis := true }) g.ident.core g.ident.tid t
        .ok (pushFault s c.gid g.ident.tid { cls := .ar, cause := t.cause, tval := BitVec.ofNat 64 a, w := false, op := op }, none)
    | .ok (s, bs) =>
      let n := fun (o k : Nat) => natOfBytes ((bs.drop o).take k)
      let same := n 4 1 == u.n && bitN (n 5 1) 0 == u.trans && n 8 4 == u.start
      if !same then .ok (put s { next with mis := true }, none)
      else if bitN (n 5 1) 1 then .ok (put s next, none)
      else .ok (put s next, some ((List.range 256).map fun l => toSigned 32 (n (16 + 4 * l) 4)))

/-- In capture mode a record is reserved at issue (R117): its INDEX, address and policy. -/
def reserveRecord (c : Ctx) (s : State) : State × Option (Nat × W64 × W32) :=
  let g := c.g s
  let cap := g.cap
  if cap.mode != 1 then (s, none)
  else if cap.cap ≤ cap.index then (s.setGroup c.gid { g with cap := { cap with ovf := true } }, none)
  else (s.setGroup c.gid { g with cap := { cap with index := (cap.index + 1) % 2 ^ 32 } },
        some (cap.index, cap.base + BitVec.ofNat 64 (1040 * cap.index), cap.pol))

/-- The deadline of a shadow attempt (R115), or none before the first send (R113). -/
def firstDeadline (s : State) (shadow : Bool) : Nat := if shadow then s.m.ftime + 12800000 else 0

/-- An operation with the snapshot of R111. -/
def LayerUse.op (u : LayerUse) (c : Ctx) (s : State) (seq : Nat) (dest : ArrDest) (k : Int) (input : List Int) (shadow : Bool) :
    ArrOp :=
  let g := c.g s
  { gid := c.gid, tid := g.ident.tid, part := g.ident.part, lid := g.ident.lid, seq := seq, trans := u.trans, dest := dest
    bind := u.n, gen := u.b.gen, start := u.start, j := u.b.j, k := k, exps := u.exps s, tiles := u.tiles s, root := u.b.root
    din := u.b.din, dout := u.b.dout, input := input, invalid := false, shadow := shadow, deadline := firstDeadline s shadow }

/-- AR rises by one (R114, R406). -/
def countAr (s : State) (gid : Nat) : State :=
  let g := s.group gid
  s.setGroup gid { g with csr := { g.csr with ar := g.csr.ar + 1 } }

/-- The pair of a layer instruction (R62, R63, R111): a slot and a seeded pair, or direct mode. -/
def seedLayer (c : Ctx) (s : State) (u : LayerUse) (id : Nat) : State × ArrDest :=
  let g := c.g s
  let d := c.f.d.code.toNat
  let top := (List.range 256).map fun l => topEntry s u.b u.trans (u.start + l)
  let a0 := top.map (·.1)
  let b0 := top.map (·.2)
  match freeSlot g with
  | some k =>
    let ep := (g.slot k).epoch + 1
    (s.setGroup c.gid (seedPair g d k c.f.x62 false (fun l => (a0[l]?).getD 0) (fun l => (b0[l]?).getD 0)), .slot k ep)
  | none =>
    let g := g.writeV (d + 1) (a0.zipIdx.map fun (x, l) => (l, x)) .raw
    (s.setGroup c.gid (g.markE id (1024 * d) 1024 .f32), .direct d a0 b0)

/-- LAYR and LAYRT (R394). A replayed record that is marked failed delivers the failure, whatever the input (R118).
(DESIGN CHOICE, log 77) -/
def layer (c : Ctx) (trans : Bool) (s : State) : Except Stop State := do
  let f := c.f
  let g := c.g s
  checkRefs c g [] [(f.d, 2)]
  let p := g.ident.part
  let b := s.bind (bindIndex f)
  guardN b.published Cause.prot 1
  guardN (b.grant.getLsbD p) Cause.prot 2
  guardN ((diesOf b.dies).all fun d => (s.part p).e.dies.contains d) Cause.prot 3
  let u ← layerChecks c s trans 2
  guardW (!g.anyE (1024 * f.d.code.toNat) 2048)
  guardW (decide (g.csr.ar < 255))
  guardW (!inputPending s c.gid u (2 * u.count))
  let words := (List.range u.count).map fun i => spNum s u.tid (u.off + 2 * i) 2
  let q := quantise words
  let (seq, s) := nextSeq s c.gid
  let (id, s) := s.fresh
  let (s, logged) ← if g.cap.mode = 2 then (replay c s u seq).map fun (s, l) => (s, some l) else .ok (s, none)
  let (s, dest) := seedLayer c s u id
  let (s, rec) := reserveRecord c (countAr s c.gid)
  let (k, xs) := q.getD (0, [])
  let o := u.op c s seq dest k xs (f.x61 || s.flag g.ident.lid 3)
  let o := { o with invalid := q.isNone, record := rec }
  let zeros := List.replicate 256 (0 : Int)
  let o := match logged with
    | some none => { o with failed := true, invalid := false }
    | some (some l) => { o with sums := some l }
    | none => if q.isNone || xs.all (· == 0) then { o with sums := some zeros } else o
  return { s with arrops := Tbl.set s.arrops id o }

/-- LAYR (R106, R394). -/
def execLayr (f : Fields) (s : State) : Host.Outcome State Fault Refusal :=
  issueGroup (.layr f) f (fun c s => layer c false s) s
/-- LAYRT (R112, R394). -/
def execLayrt (f : Fields) (s : State) : Host.Outcome State Fault Refusal :=
  issueGroup (.layrt f) f (fun c s => layer c true s) s

/-- LPRB and LPRBT (R405, R406): I8 codes, −128 driven as −127. (DEDUCED, log 52) -/
def probe (c : Ctx) (trans : Bool) (s : State) : Except Stop State := do
  let f := c.f
  let g := c.g s
  checkRefs c g [] [(f.d, 1)]
  guardPriv c s
  let b := s.bind (bindIndex f)
  guardN (b.published || b.loading) Cause.prot 1
  guardN ((diesOf b.dies).all (dieReady s)) Cause.prot 3
  let u ← layerChecks c s trans 1
  guardW (decide (g.csr.ar < 255))
  guardW (!inputPending s c.gid u u.count)
  let xs := (spBytes s u.tid u.off u.count).map fun x => max (-127) (toSigned 8 x.toNat)
  let (id, s) := s.fresh
  let d := f.d.code.toNat
  let s := s.setGroup c.gid ((c.g s).markE id (1024 * d) 1024 .i32)
  let o := u.op c s 0 (.probe d) 0 xs (f.x61 || s.flag g.ident.lid 3)
  return { countAr s c.gid with arrops := Tbl.set s.arrops id o }

/-- LPRB (R405, R406). -/
def execLprb (f : Fields) (s : State) : Host.Outcome State Fault Refusal :=
  issueGroup (.lprb f) f (fun c s => probe c false s) s
/-- LPRBT (R405, R406). -/
def execLprbt (f : Fields) (s : State) : Host.Outcome State Fault Refusal :=
  issueGroup (.lprbt f) f (fun c s => probe c true s) s

/-! ### LCAP (R116, R397) -/

/-- LCAP.cap and LCAP.rep. -/
def lcapOn (c : Ctx) (mode : Nat) (s : State) : Except Stop State := do
  let f := c.f
  let g := c.g s
  guardI c (s.flag g.ident.lid 2)
  guardPolicy c g [{ o := f.a }, { o := f.b }]
  let va := match f.a with | .s n => g.scal n.val | _ => 0
  let cap := match f.b with | .s n => (g.scal n.val).toNat | _ => 0
  scalReady g [f.a]
  guardT (va.toNat % 64 == 0) Cause.align va
  scalReady g [f.b]
  guardN (cap != 0) Cause.prot 0
  if mode = 1 && s.flag g.ident.lid 0 then
    let mine := (s.launch g.ident.lid).ranges.filter fun r => r.team == g.ident.team && !r.shared
    match firstOutside mine (va.toNat + 1040 * cap) mine.length va.toNat with
    | some a => trapN Cause.ownwr a
    | none => pure ()
  return s.setGroup c.gid { g with cap := { mode := mode, mis := false, ovf := false, index := 0, base := va, cap := cap, pol := policy g f } }

/-- LCAP.off (R116). -/
def execLcapOff (f : Fields) (s : State) : Host.Outcome State Fault Refusal :=
  issueGroup (.lcapOff f) f (fun c s =>
    let g := c.g s
    .ok (s.setGroup c.gid { g with cap := { g.cap with mode := 0 } })) s
/-- LCAP.cap (R116, R397). -/
def execLcapCap (f : Fields) (s : State) : Host.Outcome State Fault Refusal :=
  issueGroup (.lcapCap f) f (fun c s => lcapOn c 1 s) s
/-- LCAP.rep (R116, R118). -/
def execLcapRep (f : Fields) (s : State) : Host.Outcome State Fault Refusal :=
  issueGroup (.lcapRep f) f (fun c s => lcapOn c 2 s) s

/-- The log status word (R116). -/
def CapLog.word (x : CapLog) : W64 :=
  BitVec.ofNat 64 (x.index % 2 ^ 32 + (if x.ovf then 2 ^ 32 else 0) + (if x.mis then 2 ^ 33 else 0) + x.mode * 2 ^ 34)

/-- LCAP.stat (R116). -/
def execLcapStat (f : Fields) (s : State) : Host.Outcome State Fault Refusal :=
  issueGroup (.lcapStat f) f (fun c s =>
    let g := c.g s
    .ok (s.setGroup c.gid (g.putS f.d g.cap.word))) s

/-! ### Landing -/

def State.setArr (s : State) (id : Nat) (o : ArrOp) : State := { s with arrops := Tbl.set s.arrops id o }

/-- An operation whose result is known (R110, R113, R108), or wanted by no one (R290). -/
def ArrOp.known (o : ArrOp) : Bool := !o.landed && (o.failed || o.invalid || o.sums.isSome || o.cancelled)

/-- σ of a lane (R110, R112, R75, R108). -/
def ArrOp.sigma (o : ArrOp) (l : Nat) : Nat :=
  if o.failed || o.invalid then 0x7FC00000
  else sigmaOf (((o.sums.getD [])[l]?).getD 0) ((o.j : Int) + o.k - 7 + (o.exps[l]?).getD 0 - 127)

/-- A capture record (R117). -/
def ArrOp.recordBytes (o : ArrOp) (index : Nat) : List Byte :=
  let b := fun (x : Bool) (k : Nat) => if x then 2 ^ k else 0
  let zero := o.failed || o.invalid
  bytesOfNat 4 index ++ bytesOfNat 1 o.bind ++ bytesOfNat 1 (b o.trans 0 + b o.failed 1 + b o.invalid 2 + b o.shadow 3)
    ++ bytesOfNat 2 0 ++ bytesOfNat 4 o.start ++ bytesOfNat 4 o.gen.toNat
    ++ (List.range 256).flatMap fun l =>
      bytesOfNat 4 (BitVec.ofInt 32 (if zero then 0 else ((o.sums.getD [])[l]?).getD 0)).toNat

/-- Writes the record of an operation (R117, R397): the error is a stage-2 fault, which waits for firmware; any other
fault leaves the record unwritten and is delivered imprecisely. -/
def putRecord (s : State) (o : ArrOp) : Except Trap (State × ArrOp) :=
  match o.record with
  | none => .ok (s, o)
  | some (index, va, pol) =>
    match engWrite s o.part 0 pol va.toNat (o.recordBytes index) with
    | .ok (s, tw) => .ok (s, { o with record := none, tw := tw })
    | .error t =>
      let core := (s.team o.tid).core
      if t.stage2 then .error t
      else .ok (pushFault (engReport s core o.tid t) o.gid o.tid
        { cls := .ar, cause := t.cause, tval := va, w := true, op := o.seq }, { o with record := none })

/-- The record first, then the landing once its stores are complete (R117); the operation retires and its binding may
become FREE (R104, R114). `land` is what lands in the group. -/
def landArr (id : Nat) (o : ArrOp) (land : Group → Group × BitVec 5) (s : State) : State :=
  match putRecord s o with
  | .error t => engReport s (s.team o.tid).core o.tid t
  | .ok (s, o) =>
    if s.m.ftime < o.tw then s.setArr id o
    else
      let s := match Tbl.look s.groups o.gid with
        | some g => if o.cancelled then s else
            let (g, fl) := land g
            (s.setGroup o.gid g).orTsf o.tid fl
        | none => s
      freeBinding (retireArrops (s.setArr id { o with landed := true }) o.gid) o.bind

/-- A slot's arrival (R64, R75): dropped when stale. -/
def landSlot (k : Nat) (epoch : BitVec 32) (fail inv : Bool) (sig : Nat → Nat) (g : Group) : Group :=
  let x := g.slot k
  if !x.busy || x.epoch != epoch then g
  else
    let win := (List.range 256).foldl (fun (m : Mem) l => m.putNum (g.u + 1024 * k + 4 * l) 4 (sig l)) g.win
    { g with win := win }.setSlot k { x with arr := true, fail := x.fail || fail, anv := x.anv || inv }

/-- The words of a late load at its arrival, by lane: each is read then, at its place (R220). -/
def lateWords (a : Access) : List Elem → State → State × List (Nat × Nat)
  | [], s => (s, [])
  | e :: es, s =>
    let t := s.team a.tid
    let (s, bs) := loadAt s t.part t.lid a.core a.pol e.place e.size false
    let (s, ws) := lateWords a es s
    (s, (e.lane, natOfBytes bs) :: ws)

/-- The arrival of a late load, once every element has been reached or has failed (R401); a word on a module that has left by
now fails it (R302). -/
def arriveLoad (id : Nat) (a : Access) (k : Nat) (epoch : BitVec 32) (s : State) : State :=
  if !a.finished then s
  else
    let bad := a.elems.any fun e => e.st == .failed || goneAway s e.place
    let (s, ws) := if bad then (s, []) else lateWords a a.elems s
    let sig := fun (l : Nat) => if bad then 0x7FC00000 else match ws.find? (·.1 == l) with | some (_, w) => w | none => 0
    let s := { s with accesses := Tbl.del s.accesses id }
    match Tbl.look s.groups a.gid with
    | some g => s.setGroup a.gid (landSlot k epoch bad false sig g)
    | none => s

/-- ARRIVAL (R64). -/
def execArrival (id : Nat) (s : State) : Host.Outcome State Fault Refusal :=
  .next (match Tbl.look s.accesses id with
    | some a => match a.kind with
      | .late k epoch => arriveLoad id a k epoch s
      | _ => s
    | none => match Tbl.look s.arrops id with
      | none => s
      | some o => match o.dest with
        | .slot k epoch => if o.known then landArr id o (fun g => (landSlot k epoch o.failed o.invalid o.sigma g, 0)) s else s
        | _ => s)

/-- DIRECT_MODE_DELIVERY (R63): a failure, and an invalid input, deliver NaN and set NV. -/
def execDirectModeDelivery (id : Nat) (s : State) : Host.Outcome State Fault Refusal :=
  .next (match Tbl.look s.arrops id with
    | none => s
    | some o => match o.dest with
      | .direct d a0 b0 =>
        let one := fun (l : Nat) =>
          if o.failed then (0x7FC00000, Flag.nv)
          else FFmt.f32.fma .rne false false ((a0[l]?).getD 0).toNat (o.sigma l) ((b0[l]?).getD 0).toNat
        let land := fun (g : Group) =>
          let rs := (List.range 256).map fun l => (l, one l)
          let g := rs.foldl (fun g (l, x) => g.deliver id (1024 * d + 4 * l) (bytesOfNat 4 x.1)) g
          (g.land id, orFlags (rs.map (·.2.2)) ||| flagIf (o.failed || o.invalid) Flag.nv)
        if o.known then landArr id o land s else s
      | _ => s)

/-- LPRB_RESULT_LANDING (R406). -/
def execLprbResultLanding (id : Nat) (s : State) : Host.Outcome State Fault Refusal :=
  .next (match Tbl.look s.arrops id with
    | none => s
    | some o => match o.dest with
      | .probe d =>
        let one := fun (l : Nat) => if o.failed then 0x80000000 else (BitVec.ofInt 32 (((o.sums.getD [])[l]?).getD 0)).toNat
        let land := fun (g : Group) =>
          (((List.range 256).foldl (fun (g : Group) l => g.deliver id (1024 * d + 4 * l) (bytesOfNat 4 (one l))) g).land id, 0)
        if o.known then landArr id o land s else s
      | _ => s)

/-! ### Attempts (R113, R115, R119, R120) -/

/-- The owner whose slots and seats an operation uses (R119, R406). -/
def ArrOp.owner (o : ArrOp) : Nat := match o.dest with | .probe _ | .epoch => 30 | _ => o.part

/-- An attempt is under way: the result is not known. -/
def ArrOp.underway (o : ArrOp) : Bool := !o.landed && !o.known

/-- An attempt fails (R113): one resend, then the failure. Every die involved is counted, and a probe's attempt among the
calibration counters too (R129). -/
def failAttempt (s : State) (id : Nat) (o : ArrOp) : State :=
  let s := if o.shadow then s else countFaults s ((o.tiles.map (·.die)).dedup)
  let s := match o.dest with | .epoch => s.setM { s.m with calib := s.m.calib + 1 } | _ => s
  let s := orphan s id
  s.setArr id (if o.attempt = 1 then { o with attempt := 2, sent := [], codes := [], crc := false, deadline := firstDeadline s o.shadow }
    else { o with failed := true })

/-- The owner of a link slot (R119). -/
def slotOwner (t : Tbl (BitVec 8)) (slot : Nat) : Nat := (Tbl.get 31 t slot).toNat

/-- The tiles of an operation that still need a product on a plot, lowest position first, with the order in which the
request came to the die. -/
def ArrOp.wantsAt (o : ArrOp) (run : List Product) (id d plot : Nat) : Option (Nat × Nat) :=
  match Tbl.look o.sent d with
  | none => none
  | some k => ((List.range o.tiles.length).find? fun t => (match o.tiles[t]? with
    | some x => x.die == d && x.plot == plot && (Tbl.look o.codes t).isNone && !run.any fun p => p.op == id && p.tile == t && p.live
    | none => false)).map fun t => (k, t)

/-- A product that waits for a seat: its owner, its place in the order of arrival, its operation and tile. -/
structure SeatReq where
  owner : Nat
  order : Nat
  op : Nat
  tile : Nat

/-- The earlier of two requests. -/
def SeatReq.first (b : Option SeatReq) (x : SeatReq) : Option SeatReq :=
  match b with | some y => if x.order < y.order then some x else b | none => some x

/-- The next owner of R120 after the one a plot served last, with its waiting product that came first. -/
def nextSeat (s : State) (d plot : Nat) : Option SeatReq :=
  let x := s.die d
  let waits := s.arrops.filterMap fun (id, o) =>
    if o.underway && !o.shadow then (o.wantsAt x.running id d plot).map fun (k, t) => (⟨o.owner, k, id, t⟩ : SeatReq) else none
  let owners := List.range 24 ++ [30]
  let i := match Tbl.look x.seats plot with | some o => min (o + 1) 25 | none => 0
  ((owners.drop i ++ owners.take i).filterMap fun o => (waits.filter (·.owner == o)).foldl SeatReq.first none).head?

/-- A plot fills its three seats (R100, R120): each product takes 120 ticks. -/
def fillSeats (d plot : Nat) : Nat → State → State
  | 0, s => s
  | n + 1, s =>
    let x := s.die d
    if 3 ≤ (x.running.filter (·.plot == plot)).length then s
    else match nextSeat s d plot with
      | none => s
      | some r => fillSeats d plot n (s.setDie d { x with
          running := x.running ++ [⟨plot, r.op, r.tile, s.m.ftime + 120, true⟩], seats := Tbl.set x.seats plot r.owner })

/-- A product that runs for no one, and whose time is over. -/
def Product.over (p : Product) (now : Nat) : Bool := !p.live && decide (p.till ≤ now)

/-- Products that run for no one leave their seats when their time is over. -/
def freeSeats (s : State) (d : Nat) : State :=
  let x := s.die d
  s.setDie d { x with running := x.running.filter fun p => !p.over s.m.ftime }

/-- Some plots of a die, and those whose seats such products leave, fill their seats (R120). -/
def fillPlots (d : Nat) (plots : List Nat) (s : State) : State :=
  (plots ++ ((s.die d).running.filter (·.over s.m.ftime)).map (·.plot)).dedup.foldl (fun s p => fillSeats d p 3 s) (freeSeats s d)

/-- The codes of one tile for the 256 lanes (R109). -/
def sumCodes (o : ArrOp) : Option (List Int) :=
  if (List.range o.tiles.length).all fun t => (Tbl.look o.codes t).isSome then
    some ((List.range 256).map fun l => o.codes.foldl (fun a (_, cs) => a + (cs[l]?).getD 0) 0)
  else none

/-- The product of an operation's tile whose time is over, with its die. -/
def ripeProduct (s : State) (id tile : Nat) : Option (Nat × Product) :=
  s.dies.findSome? fun (d, x) => (x.running.find? fun p => p.op == id && p.tile == tile && decide (p.till ≤ s.m.ftime)).map fun p => (d, p)

/-- A response slot of the die's port can carry an operation's codes (R119): one of its owner, or, for a probe of an epoch,
a provider or unassigned one. (DESIGN CHOICE, log 79) -/
def replySlot (x : Die) (o : ArrOp) : Bool :=
  (List.range 256).any fun k =>
    let v := slotOwner x.rspOwner k
    v == o.owner || (v == 31 && match o.dest with | .epoch => true | _ => false)

/-- PLOT_TILE_PRODUCT (R109, R110, R120): the codes of one tile join the sum if the attempt still wants them, its deadline
has not passed and a response slot can carry them; the seat goes to the next owner. -/
def execPlotTileProduct (id tile : Nat) (s : State) : Host.Outcome State Fault Refusal :=
  .next (match ripeProduct s id tile with
    | none => s
    | some (d, p) =>
      let x := s.die d
      let s := s.setDie d { x with running := x.running.erase p }
      let s := match Tbl.look s.arrops id with
        | none => s
        | some o =>
          if p.live && o.underway && decide (s.m.ftime < o.deadline) && replySlot x o then
            let (s, cs) := freeCodes s 256
            let o := { o with codes := Tbl.set o.codes tile cs }
            s.setArr id { o with sums := sumCodes o }
          else s
      fillPlots d [p.plot] s)

/-- LAYR_DEADLINE_EXPIRY (R113, R115). -/
def execLayrDeadlineExpiry (id : Nat) (s : State) : Host.Outcome State Fault Refusal :=
  .next (match Tbl.look s.arrops id with
    | none => s
    | some o => if o.underway && o.deadline != 0 && decide (o.deadline ≤ s.m.ftime) then failAttempt s id o else s)

/-- What a failing packet or tile does to an attempt under way on the arrays (R113). (DEDUCED, log 64) -/
def arrayFailure (id : Nat) (s : State) (fails : ArrOp → State) : State :=
  match Tbl.look s.arrops id with
  | none => s
  | some o => if o.underway && !o.shadow && !o.sent.isEmpty then fails o else s

/-- ARRAY_CRC_FAILURE (R113, R271): an attempt's first CRC failure is counted and the packet resent; the second fails it.
(DEDUCED, log 64) -/
def execArrayCrcFailure (id : Nat) (s : State) : Host.Outcome State Fault Refusal :=
  .next (arrayFailure id s fun o =>
    if o.crc then failAttempt s id o
    else (s.setM { s.m with linkFaults := s.m.linkFaults + 1 }).setArr id { o with crc := true })
/-- PLOT_FAULT (R113). -/
def execPlotFault (id : Nat) (s : State) : Host.Outcome State Fault Refusal := .next (arrayFailure id s (failAttempt s id))

/-- The ideal sums of an operation (R109, R112, R115); none where an object is missing. -/
def ArrOp.ideals (o : ArrOp) (s : State) : Option (List Int) :=
  let rs := (List.range 256).map fun l =>
    sumOpt ((List.range o.tiles.length).map fun t => idealAt s o.root o.din o.dout o.j o.trans o.input t (o.start + l))
  if rs.all (·.isSome) then some (rs.map fun x => x.getD 0) else none

/-- SHADOW_COMPUTE (R115): the attempt fails at its deadline, or when an object is missing; then every missing leaf of the
image is asked for (R465; DESIGN CHOICE, log 77). -/
def execShadowCompute (id : Nat) (s : State) : Host.Outcome State Fault Refusal :=
  .next (match Tbl.look s.arrops id with
    | none => s
    | some o =>
      if !o.underway || !o.shadow then s
      else if o.deadline ≤ s.m.ftime then failAttempt s id o
      else match o.ideals s with
        | some l => s.setArr id { o with sums := some l }
        | none => failAttempt (askMissing s o.root) id o)

end Sys2Proof.Machine
end

