-- ==== Sys2Proof/Machine/Espalier.lean ====
section
/-!
DEFINITION. Espalier: ESPL (R364 to R367, R466), the steps of a row request with the journal and the spares (R134 to R142),
and the deliveries of image shards (R143, R144).
-/

namespace Sys2Proof.Machine

/-! ### The journal (R136 to R138) -/

/-- The slot of a record may be reused (R138): superseded by a later record of its row, a COMMIT whose bit is set, or an
ABORT. (DEDUCED, log 56) -/
def reusable (d : Die) (plot : Nat) (js : List JRec) (a : JRec) : Bool :=
  (js.any fun b => b.tile == a.tile && b.row == a.row && decide (a.seq < b.seq))
    || (a.state == 3 && (d.tile plot a.tile).committed.contains a.row) || a.state == 4

/-- The next sequence number of a plot (R136). -/
def nextRec (js : List JRec) : Nat := ((js.filter (·.valid)).map (·.seq)).foldl max 0 + 1

/-- Writes a record; none when no slot is free or reusable, and Espalier waits on the plot (R138). A slot that holds no
record is free (R136). -/
def writeRec (s : State) (q : RowReq) (state : Nat) : Option (State × Nat) :=
  let d := s.die q.die
  let js := Tbl.get [] d.journal q.plot
  let seq := nextRec js
  let a : JRec := ⟨seq, q.tile, q.row, state, q.leaf0, q.leaf1, 0⟩
  let put := fun (l : List JRec) => (s.setDie q.die { d with journal := Tbl.set d.journal q.plot (l ++ [a]) }, seq)
  if js.length < 8192 then some (put js)
  else match js.find? fun a => !a.valid || reusable d q.plot (js.filter (·.valid)) a with
    | some old => some (put (js.erase old))
    | none => none

/-- Changes a tile. -/
def onTile (s : State) (d plot tile : Nat) (f : TileSt → TileSt) : State :=
  let x := s.die d
  s.setDie d (x.setTile plot tile (f (x.tile plot tile)))

/-- A row is at zero conductance with its bit clear (R135). -/
def TileSt.zeroRow (t : TileSt) (row : Nat) : TileSt := { t with rows := Tbl.del t.rows row, committed := t.committed.filter (· != row) }

/-! ### Requests -/

/-- The completion word, stored with the partition's translation as it stands (R366, R466); a word that cannot be
stored is lost and counted. -/
def endRow (s : State) (id : Nat) (q : RowReq) (outcome seq : Nat) : State :=
  let s := { s with rowReqs := Tbl.del s.rowReqs id }
  match q.word with
  | none => s
  | some (va, p) =>
    let w := seq % 2 ^ 32 * 2 ^ 32 + q.tile * 2 ^ 8 + outcome
    match engWrite s p 0 0x00400000 va (bytesOfNat 8 w) with
    | .ok (s, _) => s
    | .error _ => s.setM { s.m with lostWords := s.m.lostWords ++ [(q.die, q.plot, q.tile, q.row)] }

def RowReq.sameTile (q r : RowReq) : Bool := q.die == r.die && q.plot == r.plot && q.tile == r.tile

/-- An older request of the same row is still in hand (R367). -/
def rowBlocked (s : State) (id : Nat) (q : RowReq) : Bool :=
  s.rowReqs.any fun (k, r) => decide (k < id) && q.sameTile r && r.row == q.row

def leafHere (s : State) (name : Nat) : Option (List Byte) := (findObj s 0 name).map (·.bytes)

/-- The places of a tile in the maps of LOADING entries (R134): each the entry and the tile's row and column block. -/
def loadingPlaces (s : State) (t : Tile) : List (Nat × Nat × Nat) :=
  (s.binds.filter fun (_, b) => b.loading).flatMap fun (n, b) =>
    ((List.range b.blocks.1).flatMap fun u => (List.range b.blocks.2).map fun v => (u, v)).filterMap fun (u, v) =>
      if Tile.ofWord (mapWord s b u v) = t then some (n, u, v) else none

/-- The place that gives a row its leaf names (R142): the first entry's. (DEDUCED, log 57) -/
def loadingPlace (s : State) (t : Tile) : Option (Nat × Nat × Nat) := (loadingPlaces s t).head?

/-- Roots of the images that a tile is being loaded for (R144); 0 where no LOADING entry names the tile. -/
def imageRoots (s : State) (t : Tile) : List Nat :=
  match (loadingPlaces s t).map fun (n, _, _) => (s.bind n).root with
  | [] => [0]
  | roots => roots

/-- A leaf that a row names has been given up for every image its tile is loaded for (R144). -/
def RowReq.givenUp (q : RowReq) (s : State) (name : Nat) : Bool := Machine.givenUp s (imageRoots s ⟨q.die, q.plot, q.tile⟩) name

/-- The missing leaves of a row are asked for (R135, R143). -/
def askRow (s : State) (q : RowReq) : State :=
  ([q.leaf0, q.leaf1].filter fun n => n != 0 && (leafHere s n).isNone && !q.givenUp s n).foldl (askShard none) s

/-- A request joins its die's queue, and its missing leaves are asked for. -/
def queueRow (s : State) (q : RowReq) : State :=
  let (id, s) := s.fresh
  askRow { s with rowReqs := Tbl.set s.rowReqs id q } q

/-- ESPL (R364, R365). -/
def execEspl (f : Fields) (s : State) : Host.Outcome State Fault Refusal :=
  issueGroup (.espl f) f (fun c s => do
    guardPriv c s
    let g := c.g s
    scalReady g [f.a]
    let va := match f.a with | .s k => (g.scal k.val).toNat | _ => 0
    guardN (va % 64 == 0) Cause.align va
    guardW (!storePending s c.gid va 64)
    let (s, b) ← readBlock s g (policy g f) va 64
    let n := fun (o k : Nat) => natOfBytes ((b.drop o).take k)
    let (d, plot, tile, row, done, l0, l1) := (n 0 1, n 2 2, n 4 2, n 6 2, n 8 8, n 0x10 24, n 0x28 24)
    guardN (n 1 1 == 0 && l0 != 0 && l1 != 0 && done % 8 == 0) Cause.prot 0x804
    guardN (decide (d < 16) && dieReady s d) Cause.prot 0x801
    guardN (decide (plot ≤ 255) && decide (tile ≤ 1055) && decide (row ≤ 511)) Cause.prot 0x802
    guardN (decide (((s.die d).tile plot tile).state ≤ 1)) Cause.prot 0x803
    guardN (!tileTaken s none ⟨d, plot, tile⟩) Cause.prot 0x800
    guardW (decide ((s.rowReqs.filter fun (_, q) => q.die == d).length < 1024))
    return queueRow s { die := d, plot := plot, tile := tile, row := row, leaf0 := l0, leaf1 := l1, word := some (done, g.ident.part) }) s

/-- The names of the leaves of a tile row from its image (R101, R142). -/
def rowLeaves (s : State) (b : BindE) (u v row : Nat) : Option (Nat × Nat) :=
  let off := (512 * u + row) * b.dout + 512 * v
  match imageLeaf s 8 b.root off, imageLeaf s 8 b.root (off + 256) with
  | some (x, _), some (y, _) => some (x, y)
  | _, _ => none

/-- A row request with the leaf names that its image gives (R142). -/
def RowReq.named (q : RowReq) (s : State) : RowReq :=
  if q.leaf0 != 0 then q
  else match loadingPlace s ⟨q.die, q.plot, q.tile⟩ with
    | none => q
    | some (n, u, v) => match rowLeaves s (s.bind n) u v q.row with
      | some (x, y) => { q with leaf0 := x, leaf1 := y }
      | none => q

/-- ROW_PROGRAM_START (R135 steps 1 and 2): before its leaves have been sent, a request whose leaves are given up ends
(R144), and others are asked for; then a tile that has entered a published or retiring map is refused (R145). -/
def execRowProgramStart (id : Nat) (s : State) : Host.Outcome State Fault Refusal :=
  .next (match Tbl.look s.rowReqs id with
    | none => s
    | some q =>
      if q.phase != 0 || rowBlocked s id q || !dieReady s q.die then s
      else if !q.sent then
        let q := q.named s
        let s := { s with rowReqs := Tbl.set s.rowReqs id q }
        if q.givenUp s q.leaf0 || q.givenUp s q.leaf1 then endRow s id q 4 0 else askRow s q
      else if tileTaken s none ⟨q.die, q.plot, q.tile⟩ then endRow s id q 3 0
      else match writeRec s q 1 with
        | none => s
        | some (s, _) =>
          let s := onTile s q.die q.plot q.tile fun t =>
            { t.zeroRow q.row with wear := min (2 ^ 32 - 1) (t.wear + 1), state := if t.state = 0 then 1 else t.state }
          { s with rowReqs := Tbl.set s.rowReqs id { q with phase := 1 } })

/-- Leaf names for the rows of a tile that moves (R142): for a LOADING entry every row, from its image, or 0 where the image
does not give them yet, to be read there later; otherwise the rows with records, from those. (DEDUCED, log 57) -/
def rowNames (s : State) (t : Tile) : List (Nat × Nat × Nat) :=
  match loadingPlace s t with
  | some (n, u, v) => (List.range 512).map fun r => (r, (rowLeaves s (s.bind n) u v r).getD (0, 0))
  | none =>
    let js := (Tbl.get [] (s.die t.die).journal t.plot).filter fun j => j.valid && j.tile == t.tile
    (List.range 512).filterMap fun r => ((js.filter (·.row == r)).getLast?).map fun j => (r, j.leaf0, j.leaf1)

/-- Firmware rewrites every LOADING map that names a tile (R142). -/
def rewriteMap (s : State) (old new : Tile) : State :=
  (loadingPlaces s old).foldl (fun s (n, u, v) =>
    let b := s.bind n
    { s with mem := s.mem.putNum (b.map + 4 * (u * (b.dout / 512) + v)) 4 new.word }) s

/-- The tile that takes a retired one's place (R142): the lowest spare of its plot, or else the FREE tile that firmware has
named on its die. -/
def spareFor (s : State) (t : Tile) : Option Tile :=
  let d := s.die t.die
  match (List.range 32).find? fun i => (d.tile t.plot (1024 + i)).state == 3 with
  | some i => some ⟨t.die, t.plot, 1024 + i⟩
  | none => (Tbl.look s.m.named t.die).filter fun n => n.die == t.die && (d.tile n.plot n.tile).state == 0 && !tileBound s n

/-- A tile's requests move to the tile that takes its place, and every other row is requested there again (R142). A spare
becomes ASSIGNED; a FREE tile does with its first row program (R141). -/
def moveRows (s : State) (t new : Tile) : State :=
  let mine := fun (q : RowReq) => q.die == t.die && q.plot == t.plot && q.tile == t.tile
  let names := (rowNames s t).filter fun (r, _) => !s.rowReqs.any fun (_, q) => mine q && q.row == r
  let s := onTile (rewriteMap s t new) new.die new.plot new.tile fun x => { x with state := if x.state = 3 then 1 else x.state }
  let move := fun (q : RowReq) => if mine q then { q with plot := new.plot, tile := new.tile, phase := 0, attempt := 1, dwell := 0 } else q
  let s := { s with rowReqs := s.rowReqs.map fun (k, q) => (k, move q), m := { s.m with named := s.m.named.filter (·.2 != new) } }
  names.foldl (fun s (r, x, y) =>
    queueRow s { die := new.die, plot := new.plot, tile := new.tile, row := r, leaf0 := x, leaf1 := y, word := none }) s

/-- Without a tile to move to, a tile's requests end, which the management core reports (R142). -/
def endRows (s : State) (t : Tile) (row seq : Nat) : State :=
  let mine := s.rowReqs.filter fun (_, q) => q.die == t.die && q.plot == t.plot && q.tile == t.tile
  let s := s.setM { s.m with noSpare := s.m.noSpare + 1 }
  let js := (Tbl.get [] (s.die t.die).journal t.plot).filter fun j => j.valid && j.tile == t.tile
  let last := fun (r : Nat) => ((js.filter (·.row == r)).map (·.seq)).foldl max 0
  let s := mine.foldl (fun s (_, q) => onTile s q.die q.plot q.tile (·.zeroRow q.row)) s
  mine.foldl (fun s (k, q) => endRow s k q 2 (if q.row = row then seq else last q.row)) s

/-- A tile is retired (R142). `seq` is the number of the failed row's ABORT. (DEDUCED, log 57) -/
def retireTile (s : State) (t : Tile) (row seq : Nat) : State :=
  let s := onTile s t.die t.plot t.tile fun x => { x with state := 2 }
  match spareFor s t with
  | some new => moveRows s t new
  | none => endRows s t row seq

/-- A row misses its tolerance (R135): reset, counted (R271) and tried once more from step 2; the second time ABORT, and the
tile is retired. -/
def failRow (s : State) (id : Nat) (q : RowReq) : State :=
  let zero := fun (s : State) => onTile s q.die q.plot q.tile (·.zeroRow q.row)
  if q.attempt = 1 then
    let k := 2 ^ 19 * q.die + tileKey q.plot q.tile
    let s := s.setM { s.m with tileFaults := Tbl.set s.m.tileFaults k (Tbl.get 0 s.m.tileFaults k + 1) }
    { zero s with rowReqs := Tbl.set s.rowReqs id { q with attempt := 2, phase := 0 } }
  else match writeRec (zero s) q 4 with
    | none => s
    | some (s, seq) => retireTile s ⟨q.die, q.plot, q.tile⟩ q.row seq

/-- PROGRAM_VERIFY (R135 steps 3 and 4). -/
def execProgramVerify (id : Nat) (ok : Bool) (s : State) : Host.Outcome State Fault Refusal :=
  .next (match Tbl.look s.rowReqs id with
    | none => s
    | some q =>
      if q.phase != 1 then s
      else if !ok then failRow s id q
      else match writeRec s q 2 with
        | none => s
        | some (s, _) =>
          let s := onTile s q.die q.plot q.tile fun t => { t with rows := Tbl.set t.rows q.row q.weights }
          { s with rowReqs := Tbl.set s.rowReqs id { q with phase := 2, dwell := s.m.ftime + 100000 } })

/-- RELAXATION_DWELL_END (R135 steps 5 and 6). -/
def execRelaxationDwellEnd (id : Nat) (ok : Bool) (s : State) : Host.Outcome State Fault Refusal :=
  .next (match Tbl.look s.rowReqs id with
    | none => s
    | some q =>
      if q.phase != 2 || decide (s.m.ftime < q.dwell) then s
      else if !ok then failRow s id q
      else match writeRec s q 3 with
        | none => s
        | some (s, seq) =>
          let s := onTile s q.die q.plot q.tile fun t => { t with committed := t.committed ++ [q.row] }
          endRow s id q 1 seq)

/-! ### Shards (R143, R144) -/

/-- Roots of bindings whose image lacks a leaf of this name. -/
def rootsOf (s : State) (name : Nat) : List Nat :=
  ((s.binds.map fun (_, b) => b.root).dedup).filter fun r => (missingLeaves s 8 r).contains name

/-- Roots that rows which name this leaf are requested for (R144). -/
def rowRootsOf (s : State) (name : Nat) : List Nat :=
  s.rowReqs.flatMap fun (_, q) => if q.leaf0 == name || q.leaf1 == name then imageRoots s ⟨q.die, q.plot, q.tile⟩ else []

/-- The third failed delivery of a leaf (R144): the images it was wanted for are incomplete, and the rows that wait for it
before they have been sent (R135) end. -/
def giveUpLeaf (s : State) (name : Nat) : State :=
  let roots := (rootsOf s name ++ rowRootsOf s name).dedup
  let new := (if roots.isEmpty then [0] else roots).map fun r => (name, r)
  let s := s.setM { s.m with incomplete := s.m.incomplete ++ new.filter fun x => !s.m.incomplete.contains x }
  (s.rowReqs.filter fun (_, q) => q.phase == 0 && !q.sent && (q.leaf0 == name || q.leaf1 == name)
      && ((leafHere s q.leaf0).isNone || (leafHere s q.leaf1).isNone)).foldl (fun s (k, q) => endRow s k q 4 0) s

/-- A failed delivery of a name (R144) is counted (R145); the name is asked for again, or given up after the third. -/
def shardFailed (s : State) (part : Option Nat) (name : Nat) : State :=
  let s := s.setM { s.m with shardFails := s.m.shardFails + 1 }
  match s.shards.find? fun x => x.name == name && x.part == part with
  | none => s
  | some x =>
    let rest := s.shards.filter (· != x)
    if x.attempt < 3 then
      ringPut { s with shards := rest ++ [{ x with attempt := x.attempt + 1, tick := s.m.ftime }] } name (x.attempt + 1)
    else
      let s := { s with shards := rest }
      match part with
      | none => giveUpLeaf s name
      | some p => s.setPart p { s.part p with tries := Tbl.set (s.part p).tries name 3 }

/-- Counts what kept a delivery from being stored (R144). -/
def countStore (s : State) (cause : Nat) : State :=
  s.setM (if cause = Cause.cafull then { s.m with poolFull := s.m.poolFull + 1 } else { s.m with collisions := s.m.collisions + 1 })

/-- An image shard (R144): accepted when its content has the claimed name; a rejected leaf is not kept. A delivery holds no
reference (R193). (DEDUCED, log 58) -/
def imageShard (s : State) (name : Nat) (content : List Byte) (clean : Bool) : State :=
  if !clean then shardFailed s none name
  else match lookAlloc s 0 s.m.providerSalt false content with
    | .error (cause, _) => shardFailed (countStore s cause) none name
    | .ok (hit, got, s) =>
      if got = name then { s with shards := s.shards.filter fun x => !(x.name == name && x.part.isNone) }
      else
        let keep := fun (o : Obj) => hit || !(o.space == 0 && o.name == got)
        shardFailed { s with objs := s.objs.filter keep } none name

/-- The salt of a namespace in an export (R187, R206). -/
def exportSalt (s : State) (e : Export) (ns : Nat) : Nat := if ns = 0 then s.m.providerSalt else (e.salts[ns - 1]?).getD 0

/-- The name that a content takes in a namespace by R197 beside the objects stored there. -/
def indexedName (s : State) (space salt : Nat) (twig : Bool) (c : List Byte) : Option Nat :=
  let h := nameOf salt twig c
  match (List.range 16).find? fun i =>
      match findObj s space (h + i) with | some o => o.twig == twig && o.bytes == c | none => false with
  | some i => some (h + i)
  | none => ((List.range 16).find? fun i => (i != 0 || h != 0) && (findObj s space (h + i)).isNone).map (h + ·)

/-- The objects that have arrived for a restore stand beside the stored ones, in no one's sight yet (R297). -/
def withFetched (s : State) (p : Nat) (e : Export) : State :=
  { s with objs := s.objs ++ (s.part p).fetched.filterMap fun (n, bs) =>
      (e.names.find? (·.1 == n)).map fun (_, ns, lv) => (⟨spaceOf p ns, n, lv != 0, bs, 0⟩ : Obj) }

/-- A shard for a RESTORE (R206, R297): kept when its name, recomputed with the kind listed and its collision index, is the
listed one (R144, R462). -/
def restoreShard (s : State) (p name : Nat) (content : List Byte) (clean : Bool) : State :=
  let x := s.part p
  let fits := match x.restoring with
    | some e => e.names.any fun (n, ns, lv) =>
        n == name && indexedName (withFetched s p e) (spaceOf p ns) (exportSalt s e ns) (lv != 0) content == some name
    | none => false
  if !clean || !fits then shardFailed s (some p) name
  else { s.setPart p { x with fetched := x.fetched ++ [(name, content)] } with
    shards := s.shards.filter fun y => !(y.name == name && y.part == some p) }

/-- Where an inbox slot lies (R143, R286): the shard inbox follows the request ring; a partition's lies in its service
area. (DESIGN CHOICE, log 18) -/
def inboxSlot (s : State) (p : Option Nat) (slot : Nat) : Option Nat :=
  match p with
  | none => if s.m.shardRing = 0 || 2048 ≤ slot then none else some (s.m.shardRing + 65536 + 288 * slot)
  | some p =>
    let a := (s.part p).e.service
    if a = 0 || 169 ≤ slot then none else some (a + 0x4100 + 288 * slot)

/-- SHARD_DELIVERY (R143, R144, R206): the entry is read from the inbox, where the host has written it. -/
def execShardDelivery (p : Option Nat) (slot : Nat) (s : State) : Host.Outcome State Fault Refusal :=
  .next (match inboxSlot s p slot with
    | none => s
    | some a =>
      let entry := s.mem.bytes a 288
      let name := natOfBytes (entry.take 24)
      let clean := ((entry.drop 24).take 8).all (· == 0)
      match p with
      | none => imageShard s name (entry.drop 32) clean
      | some p => restoreShard s p name (entry.drop 32) clean)

/-- SHARD_TIMEOUT (R144). -/
def execShardTimeout (name : Nat) (s : State) : Host.Outcome State Fault Refusal :=
  .next (match s.shards.find? fun x => x.name == name && decide (x.tick + 2 ^ 30 ≤ s.m.ftime) with
    | some x => shardFailed s x.part name
    | none => s)

end Sys2Proof.Machine
end

