-- ==== Sys2Proof/Machine/Matrix.lean ====
section
/-!
DEFINITION. Matrix engines: MRSV, MREL, MPASS on group cores, the M* instructions of passes on beam cores, and the steps of
the engines (opcodes 0xB0 to 0xB7; R146 to R162, R408 to R412, R415 to R417).
-/

namespace Sys2Proof.Machine

def engineOf (g : Group) : Nat := State.quartet g.ident.core

/-! ### MRSV, MREL -/

/-- Accumulators and entries free, and the launch's image present or fitting (R147). -/
def resvFits (e : Engine) (lid nacc len : Nat) : Bool :=
  let used := e.resvs.foldl (fun n (_, r) => n + r.nacc) 0
  let store := e.images.foldl (fun n (_, l, _) => n + l) 0
  decide (e.resvs.length < 16) && decide (used + nacc ≤ 64)
    && (e.images.any (fun (l, _, _) => l == lid) || (decide (e.images.length < 4) && decide (store + len ≤ 2 ^ 18)))

/-- MRSV (R147, R149, R416); in deterministic mode it waits until it can succeed (R257). -/
def execMrsv (f : Fields) (s : State) : Host.Outcome State Fault Refusal :=
  issueGroup (.mrsv f) f (fun c s => do
    let g := c.g s
    let nImm := f.x.getLsbD 2
    let pImm := f.x.getLsbD 1
    let nacc := if nImm then f.immN 0 8 else (scalOf g f.b).toNat
    let prio := if pImm then f.immN 8 8 else (scalOf g f.c).toNat
    scalReady g [if nImm then .zero else f.b]
    guardN (decide (1 ≤ nacc) && decide (nacc ≤ 64)) Cause.prot 0x100
    scalReady g [if pImm then .zero else f.c]
    guardN (decide (prio ≤ 15)) Cause.prot 0x101
    let lid := g.ident.lid
    let l := (s.launch lid).r
    guardN (l.passVa != 0) Cause.prot 0x102
    let q := engineOf g
    let e := s.engine q
    let held := (resvOf s g.ident.tid).isSome
    let k := f.d.code.toNat % 8
    if held || !resvFits e lid nacc l.passLen then
      guardW (held || !s.flag lid 0)
      return s.setGroup c.gid (g.allPred k false)
    let (s, images) ← if e.images.any fun (x, _, _) => x == lid then pure (s, e.images)
      else match readVirt s g.ident.part l.passVa.toNat l.passLen with
        | .error t => throw (.trap t)
        | .ok (s, bs) => pure (s, e.images ++ [(lid, l.passLen, Mem.store [] 0 bs)])
    let entry := ((List.range 16).find? fun i => (Tbl.look e.resvs i).isNone).getD 0
    let s := s.setEngine q { s.engine q with
      resvs := Tbl.set e.resvs entry { tid := g.ident.tid, lid := lid, prio := prio, nacc := nacc }, images := images }
    return s.setGroup c.gid ((c.g s).allPred k true)) s

/-- MREL (R148, R416): its wait is served at the first tick with no pass of the team queued or running. -/
def execMrel (f : Fields) (s : State) : Host.Outcome State Fault Refusal :=
  issueGroup (.mrel f) f (fun c s => do
    guardW (!waiting s c.gid c.sub)
    let tid := (c.g s).ident.tid
    if (resvOf s tid).isNone then return s
    if teamPasses s tid then
      throw (.waitWith { s with waiters := s.waiters ++ [⟨c.gid, c.sub, .mrel, tid, 0, 0, 0, 0, 0, false⟩] })
    return freeResv s tid) s

/-! ### MPASS -/

/-- Window ranges of t0 to t15 under a view, cut at U (R152). -/
def viewTiles (g : Group) : List (Nat × Nat) :=
  (List.range 16).filterMap fun n =>
    if h : n < 16 then
      match viewRange g.csr.tview 0 (2 ^ 32) (.t ⟨n, h⟩) with
      | some (a, len) => if a < g.u then some (a, min len (g.u - a)) else none
      | none => none
    else none

/-- The image of a launch in a beam store (R149). -/
def Engine.image (e : Engine) (lid : Nat) : Option (Nat × Mem) :=
  (e.images.find? fun (l, _, _) => l == lid).map fun (_, n, m) => (n, m)

/-- The byte offset of a pass program; none when it is absent (R149). -/
def progOffset (e : Engine) (lid p : Nat) : Option Nat :=
  match e.image lid with
  | none => none
  | some (len, m) =>
    let o := m.num (4 * p) 4
    if o % 4 != 0 || o < 1024 || len ≤ o then none else some o

/-- The beam core is free (R154): no program runs on it, though drains of passes it ran may still be to come. -/
def Engine.idle (e : Engine) : Bool := match e.run with | some r => r.ended | none => true

/-- MPASS (R152, R415); it also delivers ENGLOST and pass faults (R153, R162), and a MEMUE held on a tile that it would wait
for (R402). -/
def execMpass (f : Fields) (s : State) : Host.Outcome State Fault Refusal :=
  issueGroup (.mpass f) f (fun c s => do
    let g := c.g s
    scalTraps g (scalRun f.a 4)
    deliverEngLost s c.gid
    deliverFault s c.gid [.mp]
    let tid := g.ident.tid
    let q := engineOf g
    let p := f.immN 0 8
    match resvOf s tid with
    | none => trapN Cause.prot 1
    | some (entry, r) =>
      guardN (progOffset (s.engine q) r.lid p).isSome Cause.prot (0x200 + p)
      let tiles := viewTiles g
      let pairs := ((tiles.flatMap fun (a, n) => g.pairsIn (regsOf a n)).dedup).map fun x => (x, false)
      settleTraps g pairs
      match tiles.findSome? fun (a, n) => if g.anyE a n then g.heldOn a n else none with
      | some m => throw (memueStop m)
      | none => pure ()
      scalReady g (scalRun f.a 4)
      guardW (decide ((s.engine q).queue.length < 64) && decide (g.csr.mp < 255))
      guardW (!tiles.any fun (a, n) => g.anyE a n)
      let s ← settleAll c.gid pairs s
      let (seq, s) := nextSeq s c.gid
      let g := c.g s
      let e := s.engine q
      let args := (scalRun f.a 4).map (scalOf g)
      let gate := if f.x.getLsbD 2 then some (f.extN 0 4) else none
      let pass : Pass := { gid := c.gid, tid := tid, entry := entry, prog := p, args := args, tview := g.csr.tview
                           aview := g.csr.aview, post := s.m.ftime, gate := gate, seq := seq, ident := g.ident }
      let idle := if e.idle && !e.eligible then s.m.ftime else e.idleSince
      let s := s.setEngine q { e with queue := e.queue ++ [pass], idleSince := idle }
      return s.setGroup c.gid { g with csr := { g.csr with mp := g.csr.mp + 1 } }) s

/-! ### Passes -/

/-- The rank of a pass at a grant (R154). -/
def passRank (e : Engine) (now : Nat) (p : Pass) : Nat :=
  if p.post + 4096 ≤ now then 16 else (Tbl.get { tid := 0, lid := 0, prio := 0, nacc := 0 } e.resvs p.entry).prio

/-- A pass goes before another (R154): rank, post tick, entry; within an entry the earlier post. -/
def passBefore (e : Engine) (now : Nat) (a b : Pass) : Bool :=
  let (ra, rb) := (passRank e now a, passRank e now b)
  decide (rb < ra) || (ra == rb && (decide (a.post < b.post) || (a.post == b.post && decide (a.entry < b.entry))))

/-- The pass the arbiter takes. -/
def bestPass (e : Engine) (now : Nat) : Option Pass :=
  (e.queue.filter (·.gate.isNone)).foldl (fun m p => match m with
    | none => some p
    | some x => if passBefore e now p x then some p else m) none

/-- PASS_GRANT (R150, R154). -/
def execPassGrant (q : Nat) (s : State) : Host.Outcome State Fault Refusal :=
  .next (
    let e := s.engine q
    match e.idle, bestPass e s.m.ftime with
    | true, some p =>
      let lid := (s.team p.tid).lid
      let r : Run := { pass := p, pc := BitVec.ofNat 64 ((progOffset e lid p.prog).getD 0), start := s.m.ftime }
      let r := (p.args.zipIdx).foldl (fun r (x, i) => r.setScal i x) r
      s.setEngine q { e with queue := e.queue.erase p, run := some r, ending := e.ending ++ e.run.toList }
    | _, _ => s)

/-! ### Accumulators, buffers and tiles -/

def bField (f : Fields) : Nat := f.extN 6 4
def eField (f : Fields) : Nat := f.extN 0 6

/-- The reservation entry a running pass works with. -/
def Engine.resv (e : Engine) (r : Run) : Resv := Tbl.get { tid := 0, lid := 0, prio := 0, nacc := 0 } e.resvs r.pass.entry

def Engine.acc (e : Engine) (r : Run) (k : Nat) : Acc := Tbl.get {} (e.resv r).accs k

def setAcc (s : State) (q : Nat) (r : Run) (k : Nat) (a : Acc) : State :=
  let e := s.engine q
  let x := e.resv r
  s.setEngine q { e with resvs := Tbl.set e.resvs r.pass.entry { x with accs := Tbl.put {} x.accs k a } }

/-- ILLOP for an accumulator beyond nacc (R155, R408). -/
def guardAcc (c : Ctx) (s : State) (q : Nat) (r : Run) : Except Stop Unit :=
  guardI c (decide (eField c.f < ((s.engine q).resv r).nacc))

/-- The window range of tile `n` as a pass sees it (R47, R155). -/
def passTile (r : Run) (n : Nat) : Option (Nat × Nat) :=
  if h : n < 16 then viewRange r.pass.tview r.pass.aview (1024 * (r.pass.ident.w - r.pass.ident.k)) (.t ⟨n, h⟩) else none

/-- The bytes of a tile in the posting group's window, with its checks (R155, R412). Of a group that has ended the window
is gone, and what is read is a free value (log 16). -/
def tileRead (c : Ctx) (r : Run) (n : Nat) (tag : Tag) (s : State) : Except Stop (State × List Byte) := do
  match passTile r n with
  | none => illop c
  | some (a, len) =>
    match Tbl.look s.groups r.pass.gid with
    | none => return ({ s with free := s.free + len }, (List.range len).map fun i => Config.staleByte (s.free + i))
    | some g =>
      let g := g.landDue s.m.ftime
      let code := 0x60 + n
      let tv := fun (t : Tag) => t.code.toNat + 16 * tag.code.toNat + 256 * code
      guardN (!(g.anyE a len || g.anyP a len)) Cause.fmttag (tv (g.tagAt (a / 128)))
      match g.badTag a len (· == tag) with
      | some t => trapN Cause.fmttag (tv t)
      | none => return (s, g.win.bytes a len)

def tilesRead (c : Ctx) (r : Run) (tag : Tag) : List Nat → State → Except Stop (State × List Byte)
  | [], s => .ok (s, [])
  | n :: ns, s => do
    let (s, bs) ← tileRead c r n tag s
    let (s, l) ← tilesRead c r tag ns s
    return (s, bs ++ l)

/-- The A operand through the latch (R156): every tile it names lies in U before any is read (R47). -/
def latchRead (c : Ctx) (q : Nat) (r : Run) (tag : Tag) (k : Nat) (s : State) : Except Stop (State × List Byte) := do
  let t := match c.f.a with | .t n => n.val | _ => 0
  let mark := c.f.x.getLsbD 0
  match (if mark then none else r.latch.filter fun l => l.1 == t) with
  | some (_, bs) => return (s.setRun q { r with latch := none }, bs)
  | none =>
    let ts := (List.range k).map (t + ·)
    guardI c (ts.all fun n => (passTile r n).isSome)
    let (s, bs) ← tilesRead c r tag ts s
    return (if mark then s.setRun q { r with latch := some (t, bs) } else s, bs)

/-- B buffer bytes: zeros unless the pass's reservation owns the buffer (R157). (DEDUCED, log 33) -/
def bufRead (s : State) (q : Nat) (r : Run) (b n : Nat) : List Byte :=
  let x := Tbl.get {} (s.engine q).bufs b
  if x.owner == some r.pass.tid then x.data.bytes 0 n else List.replicate n 0

def elem2 (F : FFmt) (bs : List Byte) (off : Nat) : FV := F.read (natOfBytes ((bs.drop off).take 2))

/-- Updates every element of an accumulator by the dot rule (R97, R155). -/
def accUpdate (a : Acc) (k : Nat) (x : Nat → Nat → FV) (y : Nat → Nat → FV) : Acc :=
  (List.range 1024).foldl (fun acc p =>
    let (i, n) := (p / 32, p % 32)
    let off := 128 * i + 4 * n
    let old := FFmt.f32.read (a.data.num off 4)
    let r := dotRule old ((List.range k).map fun j => FV.mul (x i j) (y j n))
    { data := acc.data.putNum off 4 r.1, flags := acc.flags ||| r.2 }) a

/-- MMA (R155, R412). -/
def execMma (f : Fields) (s : State) : Host.Outcome State Fault Refusal :=
  issueBoth (.mma f) f false noGroup (fun c q r s => do
    guardAcc c s q r
    let tf := viewFmt r.pass.tview
    guardI c (tf != 2)
    let (s, bs) ← latchRead c q r (tileTag r.pass.tview) 1 s
    let bb := bufRead s q r (bField f) 2048
    let A := (tileTag r.pass.tview).ffmt
    let acc := accUpdate ((s.engine q).acc r (eField f)) 32 (fun i k => elem2 A bs (64 * i + 2 * k))
      (fun k n => elem2 .bf16 bb (64 * k + 2 * n))
    return setAcc s q r (eField f) acc) s

/-- MMAB (R155, R412). -/
def execMmab (f : Fields) (s : State) : Host.Outcome State Fault Refusal :=
  issueBoth (.mmab f) f false noGroup (fun c q r s => do
    guardAcc c s q r
    let t := match f.a with | .t n => n.val | _ => 0
    guardI c (viewFmt r.pass.tview == 2 && decide (t ≤ 12))
    let (s, bs) ← latchRead c q r .bpb 4 s
    let bb := bufRead s q r (bField f) 4608
    let img := fun (l : List Byte) (k : Nat) => (l.drop (1152 * (k / 32))).take 1152
    let acc := accUpdate ((s.engine q).acc r (eField f)) 128 (fun i k => bpbElem (img bs k) i (k % 32))
      (fun k n => bpbElem (img bb k) (k % 32) n)
    return setAcc s q r (eField f) acc) s

/-- MZRO (R157, R417). -/
def execMzro (f : Fields) (s : State) : Host.Outcome State Fault Refusal :=
  issueBoth (.mzro f) f false noGroup (fun c q r s => do
    guardAcc c s q r
    return setAcc s q r (eField f) {}) s

/-- MSTAT (R157, R417). -/
def execMstat (f : Fields) (s : State) : Host.Outcome State Fault Refusal :=
  issueBoth (.mstat f) f false noGroup (fun c q r s => do
    guardAcc c s q r
    let x := ((s.engine q).acc r (eField f)).flags.zeroExtend 64
    return match f.d with | .s n => s.setRun q (r.setScal n.val x) | _ => s) s

/-- A scratchpad range that a pass names: its address in a beam scalar. -/
def beamSpad (r : Run) (f : Fields) (n : Nat) (s : State) : Except Stop (Nat × Nat) :=
  match f.a with
  | .s k => spad64 s r.pass.tid (r.scal k.val) n
  | _ => .ok (0, 0)

def beamAddr (r : Run) (f : Fields) : Nat := match f.a with | .s k => (r.scal k.val).toNat | _ => 0

/-- The bytes that a drain updates, by place. -/
def Drain.spans (d : Drain) : List (Place × Nat) :=
  match d.dest with
  | .acc _ => []
  | .sp t off => [(.sp t off, d.data.length)]
  | .mem va places => places.map fun (v, p) => (p, min (va + d.data.length) (v - v % 65536 + 65536) - v)

/-- An earlier drain of the pass into some bytes has yet to land: the M* instructions of a pass take effect in program order
(R151). -/
def Run.drainAhead (r : Run) (before : Nat) (p : Place) (n : Nat) : Bool :=
  r.drains.any fun d => decide (d.id < before) && d.landed.isNone && d.spans.any fun (q, m) => q.meets m p n

/-- MLDB (R157, R411). -/
def execMldb (f : Fields) (s : State) : Host.Outcome State Fault Refusal :=
  issueBoth (.mldb f) f false noGroup (fun c q r s => do
    let n := if c.f.fmt == .bpb then 4608 else 2048
    let a := beamAddr r f
    guardN (a % 64 == 0) Cause.align a
    let (t, off) ← beamSpad r f n s
    guardN (State.quartet (s.team t).core == q) Cause.prot a
    guardW (!r.drainAhead s.nextId (.sp t off) n)
    let e := s.engine q
    let x := Tbl.get {} e.bufs (bField f)
    let x : BBuf := { owner := some r.pass.tid, data := x.data.store 0 (spBytes s t off n) }
    return s.setEngine q { e with bufs := Tbl.put {} e.bufs (bField f) x }) s

/-! ### Drains -/

def drainBar (f : Fields) : Option Nat := if f.ext.getLsbD 6 then some (f.extN 7 16) else none
def drainClr (f : Fields) : Bool := f.x.getLsbD 1
def drainAdd (f : Fields) : Bool := f.x.getLsbD 0

/-- The data of a drain in its format, with the conversion's flags (R158, R410). -/
def drainData (fmt : Tag) (a : Acc) : List Byte × BitVec 5 :=
  let w := fun (p : Nat) => a.data.num (4 * p) 4
  match fmt with
  | .bf16 =>
    let rs := (List.range 1024).map fun p => FFmt.bf16.round .rne (FFmt.f32.read (w p))
    (rs.flatMap fun r => bytesOfNat 2 r.1, orFlags (rs.map (·.2)))
  | .bpb => bpqTile fun i j => FFmt.f32.read (w (32 * i + j))
  | _ => (a.data.bytes 0 4096, 0)

/-- Executes a drain whose destination passed its checks: data read, flags to the accumulator's word and to TSF, CLR, and
the landing still to come (R158, R159, R410). -/
def drainGo (c : Ctx) (q : Nat) (r : Run) (dest : DrainTo) (id : Nat) (s : State) : State :=
  let a := (s.engine q).acc r (eField c.f)
  let (bs, fl) := drainData c.f.fmt a
  let a := { a with flags := a.flags ||| fl }
  let s := setAcc s q r (eField c.f) (if drainClr c.f then {} else a)
  let d : Drain := { id := id, dest := dest, data := bs, add := drainAdd c.f, bar := drainBar c.f }
  let r := match (s.engine q).run with | some r => r | none => r
  (s.setRun q { r with drains := r.drains ++ [d] }).orTsf r.pass.tid a.flags

def drainLen (fmt : Tag) : Nat := match fmt with | .bf16 => 2048 | .bpb => 1152 | _ => 4096
def drainAlign (f : Fields) : Nat := if drainAdd f then 4096 else 64

/-- MDRN into the accumulator view (R158, R159): the overlapped registers become E. A group that has ended takes nothing. -/
def execMdrn (f : Fields) (s : State) : Host.Outcome State Fault Refusal :=
  issueBoth (.mdrn f) f false noGroup (fun c q r s => do
    guardAcc c s q r
    match viewRange r.pass.tview r.pass.aview (1024 * (r.pass.ident.w - r.pass.ident.k)) f.d with
    | none => illop c
    | some (a, n) =>
      let (id, s) := s.fresh
      let s := match Tbl.look s.groups r.pass.gid with
        | some g => s.setGroup r.pass.gid (g.markE id a n .f32)
        | none => s
      return drainGo c q r (.acc a) id s) s

/-- MDRN.sp (R158, R410). -/
def execMdrnSp (f : Fields) (s : State) : Host.Outcome State Fault Refusal :=
  issueBoth (.mdrnSp f) f false noGroup (fun c q r s => do
    guardAcc c s q r
    let a := beamAddr r f
    guardN (a % drainAlign f == 0) Cause.align a
    let (t, off) ← beamSpad r f (drainLen f.fmt) s
    barNamed s r.pass.tid (drainBar f)
    let (id, s) := s.fresh
    return drainGo c q r (.sp t off) id s) s

/-- The policy operand of a beam word: a beam scalar, or the posting group's LPOL (R169). -/
def beamPolicy (s : State) (r : Run) (f : Fields) : W32 :=
  match f.pol with
  | .s n => (r.scal n.val).extractLsb' 0 32
  | _ => (s.group r.pass.gid).csr.lpol.extractLsb' 0 32

/-- A tile that a shared range of another team also covers (R256). -/
def otherShared (s : State) (i : Ident) (va n : Nat) : Bool :=
  (s.launch i.lid).ranges.any fun r => r.shared && r.team != i.team && overlaps va n r.va r.len

/-- The deterministic checks of a memory drain (R256): PROT outside the ranges, DETOP for a shared add-on-store. -/
def drainDet (s : State) (i : Ident) (f : Fields) (va n : Nat) : Except Stop Unit := do
  if s.flag i.lid 0 then
    guardN (coveredBy (myRanges s i) va n) Cause.prot va
    guardN (!(drainAdd f && otherShared s i va n)) Cause.detop (0xB6 + 2 * 2 ^ 8)

/-- MDRN.mem (R158, R159, R410). -/
def execMdrnMem (f : Fields) (s : State) : Host.Outcome State Fault Refusal :=
  issueBoth (.mdrnMem f) f false noGroup (fun c q r s => do
    let pol := beamPolicy s r f
    guardI c (polValid pol)
    guardAcc c s q r
    let a := beamAddr r f
    let n := drainLen f.fmt
    guardN (a % drainAlign f == 0) Cause.align a
    match engPlaces s r.pass.ident.part true pol a n with
    | .error t => throw (.trap t)
    | .ok (s, places) =>
      drainDet s r.pass.ident f a n
      barNamed s r.pass.tid (drainBar f)
      let (id, s) := s.fresh
      return drainGo c q r (.mem a (places.map fun (v, p, _) => (v, p))) id s) s

/-- Adds FP32 elements to those of a tile, one RNE addition each (R98, R159, R160). -/
def addTile (old new : List Byte) : List Byte × BitVec 5 :=
  let rs := (List.range (new.length / 4)).map fun i =>
    let w := fun (l : List Byte) => natOfBytes ((l.drop (4 * i)).take 4)
    FFmt.f32.add .rne (w old) (w new)
  (rs.flatMap fun r => bytesOfNat 4 r.1, orFlags (rs.map (·.2)))

/-- Copies of the lines of a tile are older by one add-on-store (R160). -/
def ageCopies (s : State) (ps : List (Place × Nat)) : State :=
  let hit := fun (line : Nat) => ps.any fun (p, n) => match p with | .pa a _ _ => overlaps line 128 a n | _ => false
  { s with copies1 := s.copies1.map fun c => if hit c.line then { c with olds := c.olds + 1 } else c }

/-- A drain is applied, wholly (R159, R160): the state, its T_w, and the flags of the additions. -/
def drainApply (s : State) (r : Run) (d : Drain) : State × Nat × BitVec 5 :=
  match d.dest with
  | .acc a => match Tbl.look s.groups r.pass.gid with
    | some g => (s.setGroup r.pass.gid ((g.deliver d.id a d.data).land d.id), s.m.ftime, 0)
    | none => (s, s.m.ftime, 0)
  | .sp t off =>
    if (s.team t).reclaimed then (s, s.m.ftime, 0)
    else
      let (bs, fl) := if d.add then addTile (spBytes s t off d.data.length) d.data else (d.data, 0)
      (spStore s t off bs, s.m.ftime, fl)
  | .mem va places =>
    let l := places.map fun (v, p) => (v, p, min (va + d.data.length) (v - v % 65536 + 65536) - v)
    let old := l.flatMap fun (_, p, k) => peek s p k
    let (bs, fl) := if d.add then addTile old d.data else (d.data, 0)
    let (s, tw) := engStore s (if d.add then 3 else 2) l bs
    (if d.add then ageCopies s d.spans else s, tw, fl)

/-- The pass of an engine that still has a drain in progress, and an update of it. -/
def Engine.runWith (e : Engine) (id : Nat) : Option Run := e.runs.find? fun r => r.drains.any (·.id == id)
def Engine.updRun (e : Engine) (id : Nat) (f : Run → Run) : Engine :=
  let g := fun (r : Run) => if r.drains.any (·.id == id) then f r else r
  { e with run := e.run.map g, ending := e.ending.map g }
def State.updRun (s : State) (q id : Nat) (f : Run → Run) : State := s.setEngine q ((s.engine q).updRun id f)

/-- A pass, and a drain of it in progress. -/
def Engine.drain (e : Engine) (id : Nat) : Option (Run × Drain) :=
  (e.runWith id).bind fun r => (r.drains.find? (·.id == id)).map fun d => (r, d)

def Run.dropDrain (r : Run) (id : Nat) : Run := { r with drains := r.drains.filter (·.id != id) }

/-- A landed drain whose T_w has come is complete: the flags of its additions reach TSF, and its barrier counts its bytes
(R159, R232). -/
def drainDone (s : State) (q id : Nat) : State :=
  match (s.engine q).drain id with
  | none => s
  | some (r, d) => match d.landed with
    | none => s
    | some tw =>
      if s.m.ftime < tw then s
      else barBytes ((s.updRun q id (·.dropDrain id)).orTsf r.pass.tid d.flags) r.pass.tid d.bar d.data.length

/-- A drain that cannot be applied (R159, R302, R295): nothing of it is, and its pass ends with the trap. -/
def loseDrain (s : State) (q id : Nat) (t : Trap) : State :=
  match (s.engine q).drain id with
  | none => s
  | some (r, _) =>
    let e := (s.engine q).updRun id fun r => { r.dropDrain id with ended := true }
    let s := s.setEngine q (if r.ended then e else { e with idleSince := s.m.ftime })
    let s := engReport s r.pass.ident.core r.pass.tid t
    pushFault s r.pass.gid r.pass.tid { cls := .mp, cause := t.cause, tval := t.tval, w := t.w, op := r.pass.seq }

/-- A tile load has read some of its elements, and others are still to come, where an add-on-store is to be applied: the
update waits, so that the load sees all of it or nothing (R160, R161, R211). -/
def tileMidway (s : State) (ps : List (Place × Nat)) : Bool :=
  s.accesses.any fun (_, a) => a.isTile && (a.elems.any Elem.open') && (a.elems.any fun e => e.st == .done)
    && ps.any fun (p, n) => a.elems.any fun e => e.place.meets e.size p n

/-- A drain is applied, and completes at its T_w. -/
def landNow (s : State) (q id : Nat) (r : Run) (d : Drain) : State :=
  let (s, tw, fl) := drainApply s r d
  s.updRun q id fun r => { r with tw := max r.tw tw
                                  drains := r.drains.map fun x => if x.id == id then { x with landed := some tw, flags := fl } else x }

/-- Lands one drain (R159), after the earlier ones of its pass into the same bytes (R151); of one whose module has left
nothing is applied (R302). -/
def drainLand (s : State) (q id : Nat) : State :=
  match (s.engine q).drain id with
  | none => s
  | some (r, d) =>
    if d.landed.isSome || d.spans.any (fun (p, n) => r.drainAhead id p n) || (d.add && tileMidway s d.spans) then s
    else match d.dest with
      | .mem va _ =>
        if d.spans.any fun x => goneAway s x.1 then loseDrain s q id (memueAt va true)
        else landNow s q id r d
      | _ => landNow s q id r d

/-- DRAIN_LANDING (R159): the drain is applied, and completes once FTIME has reached its T_w. -/
def execDrainLanding (q id : Nat) (s : State) : Host.Outcome State Fault Refusal :=
  .next (drainDone (drainLand s q id) q id)

/-- A pass is over (R153): its program has ended and every drain has completed. -/
def Run.finished (r : Run) (now : Nat) : Bool := r.ended && r.drains.isEmpty && decide (r.tw ≤ now)

/-- The completion of a pass that has left its engine (R153, R213, R216). -/
def finishPass (s : State) (r : Run) : State :=
  let p := r.pass
  let s := raiseWh s p.gid p.tid r.tw
  let s := match Tbl.look s.groups p.gid with
    | some g => s.setGroup p.gid { g with mpDone := g.mpDone ++ [p.seq] }
    | none => s
  let s := if (s.team p.tid).gids.isEmpty then s else fireRow s p.ident.core 1
  sweep (retirePasses s p.gid)

/-- PASS_COMPLETION (R153): of the pass that the beam core ran last, or of an earlier one whose drains took longer. -/
def execPassCompletion (q : Nat) (s : State) : Host.Outcome State Fault Refusal :=
  .next (
    let e := s.engine q
    match e.run.filter (·.finished s.m.ftime), e.ending.find? (·.finished s.m.ftime) with
    | some r, _ => finishPass (s.setEngine q { e with run := none }) r
    | none, some r => finishPass (s.setEngine q { e with ending := e.ending.erase r }) r
    | none, none => s)

/-! ### A hung engine (R162) -/

/-- A pass that has run for more than 10,000,000 ticks, or a free beam core with eligible passes for that long.
(DEDUCED, log 39) -/
def engineHung (e : Engine) (now : Nat) : Bool :=
  match e.run.filter (!·.ended) with
  | some r => decide (r.start + 10000000 < now)
  | none => e.eligible && decide (e.idleSince + 10000000 < now)

/-- A group whose passes were dropped: MP zero and ENGLOST pending (R162). -/
def losepasses (ps : List Pass) (s : State) (gid : Nat) : State :=
  match Tbl.look s.groups gid with
  | none => s
  | some g =>
    let n := (ps.filter (·.gid == gid)).length
    s.setGroup gid { g with csr := { g.csr with mp := 0 }, mpDone := [], engLost := some (n + g.engLost.getD 0) }

/-- ENGINE_HANG (R162): drains in progress are wholly applied, and the reset waits until they are complete (R232); passes
whose programs have ended complete, and everything else of the engine is lost. -/
def execEngineHang (q : Nat) (s : State) : Host.Outcome State Fault Refusal :=
  .next (
    let e := s.engine q
    if !engineHung e s.m.ftime then s
    else
      let ids := e.runs.flatMap fun r => r.drains.map (·.id)
      let s := ids.foldl (fun s id => drainDone (drainLand s q id) q id) s
      let e := s.engine q
      if e.runs.any fun r => !r.drains.isEmpty then s else
      let s := s.setEngine q { idleSince := s.m.ftime }
      let ps := e.queue ++ (e.runs.filter (!·.ended)).map (·.pass)
      let s := (e.runs.filter (·.ended)).foldl finishPass s
      sweep (((ps.map (·.gid)).dedup).foldl (losepasses ps) s))

end Sys2Proof.Machine
end

