-- ==== Sys2Proof/Machine/Outside.lean ====
section
/-!
DEFINITION. What the memories and the outside world do to the module: the end of leases (R171), reads that fail twice
(R177, R271), host accesses (R223, R295, R300) and the domain (R219, R302).
-/

namespace Sys2Proof.Machine

/-- LEASE_EXPIRY (R171): copies of a line whose leases have ended are dropped. -/
def execLeaseExpiry (line : Nat) (s : State) : Host.Outcome State Fault Refusal :=
  .next { s with copies1 := s.copies1.filter fun c => !(c.line == line && decide (c.until_ ≤ s.m.ftime)) }

/-! ### Failing reads -/

/-- The next chunk of a copy fails for good (R182): its source cannot be read (LPDDR6, thicket storage, a host window or
the link), or, with `w`, its host window or its remote destination cannot be written (R301, R302, R295). TVAL is the start of the
chunk in the failing side; of a COUT's source it is the offset in the object. (DESIGN CHOICE, log 85) -/
def copyUnread (s : State) (id : Nat) (w : Bool) (why : Nat → Bool → Trap) : State :=
  match Tbl.look s.copies id with
  | none => s
  | some y =>
    if y.st != .running || y.gate.isSome || decide (s.m.ftime < y.tw) then s
    else if w then (if y.dk == .spad then s else sweep (copyFault s id y (why y.dst true)))
    else if y.isCopy && y.sk == .spad then s
    else sweep (copyFault s id y (why y.src false))

/-- A source line of a RED is in a stripe. -/
def Red.covers (y : Red) (stripe va : Nat) : Bool :=
  match y.stripe stripe with
  | none => false
  | some (a, n) =>
    let w := if y.op = 1 then 2 else 4
    let line := va - va % 128
    y.srcs.any fun v => decide (v + w * ((a - y.dst) / 4) < line + 128) && decide (line < v + w * ((a - y.dst + n) / 4))

/-- A reducer cannot read a source line (R184). -/
def redUnread (s : State) (id stripe va : Nat) : State :=
  match Tbl.look s.reds id with
  | none => s
  | some y =>
    if y.done || y.stripes.contains stripe || y.lost.contains stripe || !y.covers stripe va then s
    else match (if y.checked then .ok (s, y) else y.check s) with
      | .error t => sweep (redFault s id y t)
      | .ok (s, y) => loseStripe s id stripe y (memueAt (va - va % 128) false)

/-- The reducer of a memory add-on-store drain cannot read the line (R159), or the link to a drain's remote destination
fails (R302), or its home refuses it (R295): nothing is applied, and the pass ends with the trap. -/
def drainUnread (s : State) (q id : Nat) (link : Bool) (why : Nat → Bool → Trap) : State :=
  match (s.engine q).drain id with
  | none => s
  | some (_, d) => match d.dest with
    | .mem va _ => if (!d.add && !link) || d.landed.isSome then s else loseDrain s q id (why va false)
    | _ => s

/-- The flag word of a RED that is to be stored cannot be (R302, R295). -/
def flagLost (s : State) (id : Nat) (why : Nat → Bool → Trap) : State :=
  match Tbl.look s.reds id with
  | some y => match y.flag with
    | some (a, _) => if y.flagDue s.m.ftime then loseFlag s id y (why a true) else s
    | none => s
  | none => s

/-- The capture record of an operation whose result is known, still to be written: its operation and address (R117). -/
def recordDue (s : State) (id : Nat) : Option (ArrOp × W64) :=
  (Tbl.look s.arrops id).bind fun o => if o.known then o.record.map fun x => (o, x.2.1) else none

/-- A capture record cannot be written (R302, R295): it stays unwritten, and the fault is imprecise (R397). -/
def recordLost (s : State) (id : Nat) (why : Nat → Bool → Trap) : State :=
  match recordDue s id with
  | some (o, va) =>
    let t := why va.toNat true
    pushFault (engReport (s.setArr id { o with record := none }) (s.team o.tid).core o.tid t) o.gid o.tid
      { cls := .ar, cause := t.cause, tval := va, w := true, op := o.seq }
  | none => s

/-- A read that cannot fail: of scratchpad, which raises no MEMUE, by an access element or as the source of a copy (DEDUCED,
log 65), or a load that an unexpired copy of its line serves (R171). -/
def sureRead (s : State) (r : ReadRef) : Bool :=
  match r with
  | .access id e => match elemReady s id e with
    | some (a, x) => (!a.kind.storeLike && (copyFor s a x).isSome) || match x.place with
      | .sp _ _ => true
      | _ => false
    | none => false
  | .copy id => match Tbl.look s.copies id with
    | some y => y.isCopy && y.sk == .spad
    | none => false
  | _ => false

/-- UNCORRECTABLE_READ (R177, R271): the first failure is counted; the second fails the read, unless the reread has
succeeded. A line that fails for whoever reads it at an issue (a root slot, a block, a pass image, a record, an
instruction) fails until it is mended. Scratchpad and a copy in the L1 never fail. (DEDUCED, logs 65, 73) -/
def execUncorrectableRead (r : ReadRef) (s : State) : Host.Outcome State Fault Refusal :=
  .next (if sureRead s r then s else
    let s := s.setM { s.m with memFaults := s.m.memFaults + 1 }
    match r with
    | .access id e => failElem id e s
    | .copy id => copyUnread s id false memueAt
    | .copyWrite _ => s
    | .red id stripe va => redUnread s id stripe va
    | .drain q id => drainUnread s q id false memueAt
    | .line pa bad =>
      let rest := s.badLines.filter (· != lineOf pa)
      { s with badLines := if bad then rest ++ [lineOf pa] else rest }
    | .domLine _ _ | .redFlag _ | .capture _ | .cured => s)

/-- A place in another module (R164). -/
def Place.away (p : Place) : Bool := match p with | .dom _ => true | _ => false

/-- The next byte of a copy's virtual side lies in another module. -/
def sideAway (s : State) (part va : Nat) (w : Bool) : Bool :=
  match translate s part va w false with | .ok (_, e) => (e.place va).away | .error _ => false

/-- Drain `id` of an engine that goes to another module. -/
def drainAway (s : State) (q id : Nat) : Bool :=
  match (s.engine q).drain id with
  | some (_, d) => d.spans.any fun x => x.1.away
  | none => false

/-- A place of a RED's flag word lies in another module. -/
def flagAway (s : State) (id : Nat) : Bool :=
  match Tbl.look s.reds id with
  | some y => y.flagDue s.m.ftime && y.fplaces.any fun x => x.2.1.away
  | none => false

/-- A capture record that is to be written lies in another module. -/
def recordAway (s : State) (id : Nat) : Bool :=
  match recordDue s id with
  | some (o, va) => sideAway s o.part va.toNat true
  | none => false

/-- HOST_WINDOW failures come with the same step as link failures (R301, R302): the place that a reference names is a host
window or lies in another module. -/
def byLink (s : State) (r : ReadRef) : Bool :=
  match r with
  | .access id e => match elemReady s id e with | some (_, x) => x.place.away | none => false
  | .copy id => match Tbl.look s.copies id with
    | some y => y.isCopy && (y.sk == .host || (y.sk == .virt && sideAway s y.part y.src false))
    | none => false
  | .copyWrite id => match Tbl.look s.copies id with
    | some y => y.dk == .host || (y.dk == .virt && sideAway s y.part y.dst true)
    | none => false
  | .red id stripe va => match Tbl.look s.reds id with
    | some y => match y.stripe stripe with
      | some (a, n) => (y.pieces a n).any fun (v, p, k) => p.away && decide (v ≤ va) && decide (va < v + k)
      | none => false
    | none => false
  | .drain q id => drainAway s q id
  | .domLine _ _ => true
  | .redFlag id => flagAway s id
  | .capture id => recordAway s id
  | .line _ _ | .cured => false

/-- The reference names a store whose place lies in another module (R295). -/
def domainStored (s : State) (r : ReadRef) : Bool :=
  match r with
  | .access id e => match elemReady s id e with | some (a, x) => a.kind.storeLike && x.place.away | none => false
  | .copyWrite id => match Tbl.look s.copies id with
    | some y => y.dk == .virt && sideAway s y.part y.dst true
    | none => false
  | .red id stripe _ => match Tbl.look s.reds id with
    | some y => match y.stripe stripe with
      | some (a, n) => (cutPlaces y.dplaces a n).any fun x => x.2.1.away
      | none => false
    | none => false
  | .drain q id => drainAway s q id
  | .redFlag id => flagAway s id
  | .capture id => recordAway s id
  | .copy _ | .line _ _ | .domLine _ _ | .cured => false

/-- A stripe of a checked RED that is still to be made is lost. -/
def stripeLost (s : State) (id stripe va : Nat) (why : Nat → Bool → Trap) : State :=
  match Tbl.look s.reds id with
  | some y => if y.done || y.stripes.contains stripe || y.lost.contains stripe || !y.checked then s else loseStripe s id stripe y (why va false)
  | none => s

/-- PROT at a virtual address whose home refuses a store (R295). -/
def deniedAt (va : Nat) (_ : Bool) : Trap := { cause := Cause.prot, tval := BitVec.ofNat 64 va, w := true }

/-- A domain store of this module is refused at its home (R295): nothing is stored, and the issuer traps PROT with its
virtual address, where MEMUE of a failed store would be delivered. (DEDUCED, log 74) -/
def denyStore (s : State) (r : ReadRef) : State :=
  match r with
  | .access id e => match Tbl.look s.accesses id with
    | some a => failElem id e (s.setAccess id { a with denied := true })
    | none => s
  | .copyWrite id => copyUnread s id true deniedAt
  | .red id stripe _ => match Tbl.look s.reds id with
    | some y => stripeLost s id stripe (match y.stripe stripe with | some (a, _) => a | none => y.dst) deniedAt
    | none => s
  | .drain q id => drainUnread s q id true deniedAt
  | .redFlag id => flagLost s id deniedAt
  | .capture id => recordLost s id deniedAt
  | .copy _ | .line _ _ | .domLine _ _ | .cured => s

/-! ### The host (R300) -/

/-- The owner of a physical page. -/
def ownerOf (s : State) (pa : Nat) : Option Nat := (Tbl.look s.reverse (pa / 65536)).map (·.1)

/-- Bytes of the shard rings: 2048 request entries of 32 bytes, then as many inbox entries of 288 bytes (R143).
(DESIGN CHOICE, log 18) -/
def shardBytes : Nat := 65536 + 2048 * 288

/-- A physical byte that firmware exposes to the host, within the 2 TiB that the host addresses: a granted page, a service
area, or the shard rings. (DEDUCED, log 66) -/
def exposed (s : State) (pa : Nat) : Bool :=
  decide (pa < 2 ^ 41) && (s.m.granted.contains (pa / 65536)
    || (s.parts.any fun (_, x) => x.e.service != 0 && decide (x.e.service ≤ pa) && decide (pa < x.e.service + 65536))
    || (s.m.shardRing != 0 && decide (s.m.shardRing ≤ pa) && decide (pa < s.m.shardRing + shardBytes)))

/-- A byte of a page that carries the ROOT attribute (R192). -/
def inRootPage (s : State) (pa : Nat) : Bool :=
  match Tbl.look s.reverse (pa / 65536) with | some (p, n) => rootPage s p n | none => false

/-- A write from outside is applied at its home (R223, R219); it writes no ROOT page, which only RSWP does (R192). -/
def outsideStore (s : State) (agent modno pa : Nat) (bs : List Byte) : State :=
  if inRootPage s pa || inRootPage s (pa + bs.length - 1) then s
  else markWatch (applyStore s (.pa pa false false) bs).1 agent modno (.pa pa false false) bs.length

/-- A write from outside that reaches a stopped partition's page is held, or refused once its export has completed
elsewhere (R295). -/
def holdOr (s : State) (modno : Option Nat) (pa va : Nat) (bs : List Byte) (go : State → State) : State :=
  match ownerOf s pa with
  | none => go s
  | some p =>
    let x := s.part p
    if x.e.state != 4 then go s
    else if x.refuse then s
    else s.setPart p { x with held := x.held ++ [⟨pa, bs, modno, va⟩] }

/-- HOST_MEM_ACCESS (R223, R300): a read changes nothing; an access to any address that firmware does not expose is
aborted. (DESIGN CHOICE, log 7) -/
def execHostMemAccess (write : Bool) (pa : Nat) (bytes : List (BitVec 8)) (s : State) : Host.Outcome State Fault Refusal :=
  .next (
    if s.m.stage != 6 || !write || !(List.range bytes.length).all fun i => exposed s (pa + i) then s
    else holdOr s none pa 0 bytes fun s => outsideStore s 5 0 pa bytes)

/-! ### The domain (R302) -/

/-- A physical range that firmware exports to `who`, a partition of a module. (DEDUCED, log 47) -/
def exported (s : State) (who : Nat × Nat) (pa n : Nat) : Bool :=
  s.m.exportsTo.any fun (m, p, page, k) =>
    (m, p) == who && decide (65536 * page ≤ pa) && decide (pa + n ≤ 65536 * (page + k))

/-- DOMAIN_ACCESS_REMOTE (R219, R295, R302): a store of a remote module's partition. -/
def execDomainAccessRemote (who : Nat × Nat) (pa va : Nat) (bytes : List (BitVec 8)) (s : State) : Host.Outcome State Fault Refusal :=
  .next (
    if !exported s who pa bytes.length then s
    else holdOr s (some who.1) pa va bytes fun s => outsideStore s 4 who.1 pa bytes)

/-- SCALEUP_CRC_FAILURE (R302, R271, R301): the first failure of a transfer over a scale-up link, or of a host
transaction, is counted and resent; the second fails the access. A domain line whose transfers fail for whoever reads it
at an issue fails until it is mended. The same step brings the refusal of a domain store
(R295). -/
def execScaleupCrcFailure (r : ReadRef) (denied second : Bool) (s : State) : Host.Outcome State Fault Refusal :=
  .next (
    if denied then (if domainStored s r then denyStore s r else s)
    else if !byLink s r then s
    else if !second then s.setM { s.m with memFaults := s.m.memFaults + 1 }
    else match r with
      | .access id e => failElem id e s
      | .copy id => copyUnread s id false memueAt
      | .copyWrite id => copyUnread s id true memueAt
      | .red id stripe va => stripeLost s id stripe va memueAt
      | .drain q id => drainUnread s q id true memueAt
      | .redFlag id => flagLost s id memueAt
      | .capture id => recordLost s id memueAt
      | .domLine a bad =>
        let rest := s.badLinks.filter (· != lineOf a)
        { s with badLinks := if bad then rest ++ [lineOf a] else rest }
      | .line _ _ | .cured => s)

/-- MODULE_LEAVES_DOMAIN (R302): from now on every access to the module fails. -/
def execModuleLeavesDomain (modno : Nat) (s : State) : Host.Outcome State Fault Refusal :=
  .next (if s.m.left.contains modno || 640 ≤ modno then s else s.setM { s.m with left := s.m.left ++ [modno] })

end Sys2Proof.Machine
end

