-- ==== Sys2Proof/Machine/Topiary.lean ====
section
/-!
DEFINITION. Topiary epochs (R127 to R132): probes as requests on the arrays, the fit, the swap and the snapshot.
-/

namespace Sys2Proof.Machine

/-- The base of an epoch's generator (R128). -/
def probeBase (cgen : BitVec 32) (n : Nat) : BitVec 32 := cgen * 0x9E3779B9 + BitVec.ofNat 32 n

/-- Code `r` of probe `i` (R128). -/
def probeCode (base : BitVec 32) (len i r : Nat) : Int :=
  let x := base + BitVec.ofNat 32 (i * len + r) * 0x9E3779B9
  let q := toSigned 8 (x.extractLsb' 24 8).toNat
  if q = -128 then -127 else q

def topSet (s : State) (n : Nat) : TopSet := Tbl.get {} s.topset n

/-- A binding whose epoch may start now (R127). -/
def epochReady (s : State) (n : Nat) : Bool :=
  let b := s.bind n
  b.published && (topSet s n).on && (match Tbl.look s.due n with | some t => decide (t ≤ s.m.ftime) | none => false)

/-- EPOCH_DUE (R127): one binding at a time, the lowest index first; without the whole image it waits, and the missing
leaves are asked for (R465). A binding that waits for its image does not hold back the others. An epoch is
late when it begins at a tick after its due tick. (DESIGN CHOICE, log 78) -/
def execEpochDue (n : Nat) (s : State) : Host.Outcome State Fault Refusal :=
  .next (
    if !epochReady s n || !s.epochs.isEmpty then s
    else
      let b := s.bind n
      if !imageWhole s b then askMissing s b.root
      else if s.due.any fun (k, _) => decide (k < n) && epochReady s k && imageWhole s (s.bind k) then s
      else
        let late := match Tbl.look s.due n with | some t => decide (t < s.m.ftime) | none => false
        let s := if late then s.setM { s.m with calib := s.m.calib + 1 } else s
        { s with epochs := [{ bind := n, gen := b.gen, base := probeBase b.cgen n, n := (topSet s n).nprb }] })

/-- Starts of the requests of a probe in one direction: 256 lanes each (R128). -/
def probeStarts (b : BindE) (trans : Bool) : List Nat := (List.range ((if trans then b.din else b.dout) / 256)).map (256 * ·)

/-- The inputs of a probe in one direction. -/
def probeInput (b : BindE) (base : BitVec 32) (trans : Bool) (i : Nat) : List Int :=
  let len := if trans then b.dout else b.din
  (List.range len).map (probeCode base len i)

/-- One request of a probe, for the arrays (R128, R129): it follows R113 as a LAYR does. (DESIGN CHOICE, log 79) -/
def probeOp (s : State) (e : Epoch) (trans : Bool) (i start : Nat) : ArrOp :=
  let b := s.bind e.bind
  { gid := 0, tid := 0, part := 30, lid := 0, seq := 0, trans := trans, dest := .epoch, bind := e.bind, gen := b.gen
    start := start, j := b.j, k := 0, exps := useExps s b trans start, tiles := useTiles s b trans start, root := b.root
    din := b.din, dout := b.dout, input := probeInput b e.base trans i, invalid := false, shadow := false }

/-- Probe `i` of an epoch is driven at every start, both ways. -/
def driveProbe (s : State) (e : Epoch) (i : Nat) : State :=
  let b := s.bind e.bind
  let all := (probeStarts b false).map (fun st => (false, st)) ++ (probeStarts b true).map fun st => (true, st)
  all.foldl (fun s (tr, st) =>
    let (id, s) := s.fresh
    { s with arrops := Tbl.set s.arrops id (probeOp s e tr i st) }) s

/-- Measured values of a probe in one direction, from its requests (R129): a failed one gives the default NaN. -/
def measured (s : State) (n : Nat) (trans : Bool) : List W32 :=
  (probeStarts (s.bind n) trans).flatMap fun st =>
    match s.arrops.find? fun (_, o) => o.probes n && o.trans == trans && o.start == st with
    | some (_, o) => (List.range 256).map fun l => BitVec.ofNat 32 (o.sigma l)
    | none => List.replicate 256 0x7FC00000

/-- σ or y of every lane index (R129), k = 0. -/
def probeSigmas (b : BindE) (exps : List Nat) (sums : List Int) : List W32 :=
  (sums.zip exps).map fun (v, e) => BitVec.ofNat 32 (sigmaOf v ((b.j : Int) - 7 + e - 127))

/-- Ideal values of a probe (R129); none where the image lacks an object (R127). -/
def probeIdeals (s : State) (b : BindE) (trans : Bool) (x : List Int) : Option (List W32) :=
  let (blocks, len) := if trans then (b.dout / 512, b.din) else (b.din / 512, b.dout)
  let sums := (List.range len).map fun r =>
    sumOpt ((List.range blocks).map fun t => idealAt s b.root b.din b.dout b.j trans x t r)
  if sums.all (·.isSome) then
    some (probeSigmas b (if trans then rowExps s b else colExps s b) (sums.map fun v => v.getD 0))
  else none

/-- PROBE_MEASUREMENT (R128, R129, R131), probes in order: the next probe is driven; once every request has ended, its
values are taken. Without the whole image the epoch waits (R127), and the missing leaves are asked for. -/
def execProbeMeasurement (n k : Nat) (ended : Bool) (s : State) : Host.Outcome State Fault Refusal :=
  .next (
    match s.epochs.find? fun e => e.bind == n with
    | none => s
    | some e =>
      let b := s.bind n
      let ops := s.arrops.filter fun (_, o) => o.probes n
      if k != e.sigF.length || e.n ≤ k || ops.isEmpty == ended then s
      else if !ended then (if imageWhole s b then driveProbe s e k else askMissing s b.root)
      else if ops.any fun (_, o) => !o.known then s
      else match probeIdeals s b false (probeInput b e.base false k), probeIdeals s b true (probeInput b e.base true k) with
        | some yF, some yT =>
          let e := { e with sigF := e.sigF ++ [measured s n false], sigT := e.sigT ++ [measured s n true]
                            yF := e.yF ++ [yF], yT := e.yT ++ [yT] }
          { s with epochs := [e], arrops := s.arrops.filter fun (_, o) => !o.probes n }
        | _, _ => askMissing s b.root)

/-- rne of an exact value, as a word (R130). -/
def rneW (v : FV) : Nat := (FFmt.f32.round .rne v).1

def fadd32 (x y : Nat) : Nat := rneW (.add .rne (r32 x) (r32 y))
def fsub32 (x y : Nat) : Nat := rneW (.add .rne (r32 x) (r32 y).negate)
def fmul32 (x y : Nat) : Nat := rneW (.mul (r32 x) (r32 y))
def ffma32 (x y z : Nat) : Nat := rneW (.fma .rne (r32 x) (r32 y) (r32 z))

/-- A quotient of two finite nonzero-divisor values rounded once to FP32: enough quotient bits with a sticky bit. -/
def fdiv32 (x y : Nat) : Nat :=
  match r32 x, r32 y with
  | .fin m e, .fin n f =>
    let a := m.natAbs * 2 ^ 64
    let q := a / n.natAbs
    let r : Int := (2 * q + (if a % n.natAbs = 0 then 0 else 1) : Nat)
    rneW (.fin (if decide (m < 0) == decide (n < 0) then r else -r) (e - f - 65))
  | .zero a, .fin n _ => FFmt.f32.zero (a != decide (n < 0))
  | a, b => rneW (if a.isNan || b.isNan then .nan false else .inf (a.neg != b.neg))

def finite32 (x : Nat) : Bool := !(r32 x).isNan && !(r32 x).isInf

/-- The fit of R130: new gain and offset, and whether the old values are kept. `full`: blend factor 1.0 (R133). -/
def fit (full : Bool) (sig y : List W32) (g o : Nat) : Nat × Nat × Bool :=
  let ps := (sig.zip y).map fun (a, b) => (a.toNat, b.toNat)
  let acc := ps.foldl (fun (t : Nat × Nat × Nat × Nat) (p : Nat × Nat) =>
    (fadd32 t.1 p.1, fadd32 t.2.1 p.2, ffma32 p.1 p.1 t.2.2.1, ffma32 p.1 p.2 t.2.2.2)) (0, 0, 0, 0)
  let (sm, sy, smm, smy) := acc
  let nf := rneW (fvInt ps.length)
  let num := fsub32 (fmul32 nf smy) (fmul32 sm sy)
  let den := fsub32 (fmul32 nf smm) (fmul32 sm sm)
  if (r32 den).isZero || !(finite32 num && finite32 den) then (g, o, true)
  else
    let gf := fdiv32 num den
    let ofs := fdiv32 (fsub32 sy (fmul32 gf sm)) nf
    if !(finite32 gf && finite32 ofs) then (g, o, true)
    else if full then (gf, ofs, false)
    else (fadd32 g (fmul32 0x3E800000 (fsub32 gf g)), fadd32 o (fmul32 0x3E800000 (fsub32 ofs o)), false)

/-- Values of one lane index over the probes. -/
def column (rows : List (List W32)) (r : Nat) : List W32 := rows.map fun l => (l[r]?).getD 0

/-- The fitted table of one direction, with the number of entries kept (R130). -/
def fitTable (full : Bool) (old : List (W32 × W32)) (sig y : List (List W32)) : List (W32 × W32) × Nat :=
  let rs := old.zipIdx.map fun ((g, o), r) => fit full (column sig r) (column y r) g.toNat o.toNat
  (rs.map fun x => (BitVec.ofNat 32 x.1, BitVec.ofNat 32 x.2.1), (rs.filter (·.2.2)).length)

/-- The bank in use of one direction. -/
def bankOf (s : State) (b : BindE) (trans : Bool) : List (W32 × W32) :=
  (List.range (if trans then b.din else b.dout)).map (topEntry s b trans)

/-- Writes one bank of a table (R124). -/
def putBank (s : State) (b : BindE) (trans : Bool) (bank : Nat) (t : List (W32 × W32)) : State :=
  { s with mem := s.mem.store (topAddr b trans bank 0) (t.flatMap fun (g, o) => bytesOfNat 4 g.toNat ++ bytesOfNat 4 o.toNat) }

/-- A snapshot goes to every spanned die, in place of the binding's older one (R132). -/
def putSnap (s : State) (x : Snap) : State :=
  (diesOf (s.bind x.bind).dies).foldl (fun s d =>
    let y := s.die d
    s.setDie d { y with snaps := (y.snaps.filter fun z => z.bind != x.bind) ++ [x] }) s

/-- Fits the measured probes into the other bank, swaps, and writes the snapshot (R125, R130, R132). One counter holds every
event that calibration counts. (DESIGN CHOICE, log 78) -/
def swapTables (full : Bool) (s : State) (e : Epoch) : State :=
  let b := s.bind e.bind
  let (f, k1) := fitTable full (bankOf s b false) e.sigF e.yF
  let (t, k2) := fitTable full (bankOf s b true) e.sigT e.yT
  let bank := (b.cgen.toNat + 1) % 2
  let s := putBank (putBank s b false bank f) b true bank t
  let s := s.setBind e.bind { b with cgen := b.cgen + 1 }
  let s := s.setM { s.m with calib := s.m.calib + k1 + k2 }
  putSnap s { bind := e.bind, gen := b.gen, cgen := b.cgen + 1, base := e.base, n := e.n, fwd := f, tra := t, yF := e.yF, yT := e.yT }

/-- TOPIARY_SWAP (R125, R130, R132): the next epoch falls due one period later (R127). -/
def execTopiarySwap (n : Nat) (s : State) : Host.Outcome State Fault Refusal :=
  .next (
    match s.epochs.find? fun e => e.bind == n with
    | none => s
    | some e =>
      if e.sigF.length < e.n then s
      else
        let s := swapTables false s e
        setDue (dropEpoch s n) n (s.m.ftime + (s.bind n).ticks))

end Sys2Proof.Machine
end

