-- ==== Sys2Proof/Machine/Boot.lean ====
section
/-!
DEFINITION. The module as a whole: power and reset (R13), the boot window (R12), bring-up (R13 to R16, R133, R139),
attestation (R17, R18), the governor (R11), and the writes of registers that only the host or firmware makes.
-/

namespace Sys2Proof.Machine

/-! ### Power -/

/-- What a die keeps without power (R9, R15, R132, R136, R138, R141): records, snapshots, journals and tiles. -/
def Die.keep (d : Die) : Die := { recs := d.recs, snaps := d.snaps, tiles := d.tiles, journal := d.journal }

/-- The module with nothing but its dies' non-volatile areas; the host's memory, the rest of the domain and the model's
own fields are outside it. (DEDUCED, log 55) -/
def coldStart (s : State) : State :=
  { dies := s.dies.map fun (k, d) => (k, d.keep), hostMem := s.hostMem, domainMem := s.domainMem, exports := s.exports, bodies := s.bodies
    agenda := s.agenda, rotor := s.rotor, free := s.free, nextId := s.nextId }

/-- POWER_UP (R13). -/
def execPowerUp (s : State) : Host.Outcome State Fault Refusal := .next (coldStart s)
/-- MODULE_RESET (R13). -/
def execModuleReset (s : State) : Host.Outcome State Fault Refusal := .next (coldStart s)
/-- POWER_LOSS (R13, R15, R137): a publication in progress leaves its records behind. -/
def execPowerLoss (s : State) : Host.Outcome State Fault Refusal :=
  .next (coldStart (match s.m.torn with | some (n, m, done) => tornRecords s n m done | none => s))

/-! ### The boot window (R12) -/

/-- A command that fails (R12). -/
def refuseCmd (s : State) (errc : Nat) : State := s.setM { s.m with errc := BitVec.ofNat 8 errc }

/-- A command code reaches HCMD unless one is being carried out (R12). HCMD keeps all 32 bits that were written, reserved
ones too; while BUSY = 1 the answer is 0x05, also where the stage does not allow the command, for which R13 and R17 give
0x06. (DEDUCED, log 67; DESIGN CHOICE, log 75) -/
def takeCmd (s : State) (code : BitVec 32) (go : State → State) : State :=
  if s.m.busy then refuseCmd s 5 else go (s.setM { s.m with hcmd := code })

/-- The command's buffer in host memory. -/
def hostBuffer (s : State) : List Byte := s.hostMem.bytes s.m.haddr.toNat s.m.hlen.toNat

/-- LOADFW in WAITIMG or FAILED (R13): VERIFY, then MGMT, which zeroes LPDDR6, and the loading of the controllers. A buffer
that port H fails to transfer, or that passes 2^64, cannot be read (DESIGN CHOICE, log 75). -/
def bringUp (s : State) : State :=
  if s.m.portFails || 2 ^ 64 < s.m.haddr.toNat + s.m.hlen.toNat then (refuseCmd s 4).setM { s.m with stage := 15, errc := 4 }
  else
    let image := hostBuffer s
    match Config.imageVerdict image with
    | 0 =>
      let (a, n) := Config.laurelSection image
      { s with
        mem := [], leases := []
        m := { s.m with
          stage := 3, busy := true, errc := 0, tested := 0, enabled := 0, dieok := 0
          imageHash := Sha.sha384 image, laurelHash := Sha.sha384 ((image.drop a).take n) } }
    | n => s.setM { s.m with stage := 15, errc := BitVec.ofNat 8 (if n = 1 then 1 else if n = 2 then 2 else 3) }

/-- LOADFW (R12, R13). -/
def execLoadfw (s : State) : Host.Outcome State Fault Refusal :=
  .next (takeCmd s 1 fun s => if s.m.stage == 0 || s.m.stage == 15 then bringUp s else refuseCmd s 6)

/-- HCMD_UNKNOWN_CODE (R12): any code but LOADFW and ATTEST, or a nonzero reserved bit. -/
def execHcmdUnknownCode (v : BitVec 32) (s : State) : Host.Outcome State Fault Refusal :=
  .next (if v = 1 || v = 2 then s else takeCmd s v fun s => refuseCmd s 7)

/-! ### Replay (R139, R15) -/

/-- The highest-numbered record of each row of a journal. -/
def lastRecs (js : List JRec) : List JRec :=
  let js := js.filter (·.valid)
  js.filter fun a => !js.any fun b => b.tile == a.tile && b.row == a.row && decide (a.seq < b.seq)

/-- One row at replay (R139): a commit stands; an unfinished row is reset and waits for its leaves, unless its tile is
retired. -/
def replayRow (plot : Nat) (d : Die) (a : JRec) : Die :=
  let t := d.tile plot a.tile
  if a.state = 3 then
    if t.committed.contains a.row then d else d.setTile plot a.tile { t with committed := t.committed ++ [a.row] }
  else if a.state = 1 || a.state = 2 then
    let d := d.setTile plot a.tile (t.zeroRow a.row)
    if t.state = 2 then d else { d with resupply := d.resupply ++ [(plot, a.tile, a.row, a.leaf0, a.leaf1)] }
  else d

/-- A die replays its journals (R139). -/
def Die.replay (d : Die) : Die := d.journal.foldl (fun d (plot, js) => (lastRecs js).foldl (replayRow plot) d) d

/-- Slots of a die's journals that hold neither a record nor a free mark (R136). -/
def Die.faults (d : Die) : Nat := (d.journal.map fun (_, js) => (js.filter (·.faulty)).length).foldl (· + ·) 0

/-- Firmware's own place for a restored binding's arrays: the top 8 GiB of LPDDR6, 32 MiB for each binding (DESIGN CHOICE, log 19). -/
def bindBase (n : Nat) : Nat := 2 ^ 41 - 2 ^ 33 + n * 2 ^ 25

/-- The entry of a record with its arrays placed (R15): both banks filled with gain 1.0 and offset +0.0. -/
def placeBinding (s : State) (r : NvRec) : State :=
  let a := bindBase r.bind
  let b := { r.entry with state := 2, fwd := a, tra := a + 2 ^ 24, colE := a + 2 ^ 24 + 2 ^ 20, rowE := a + 2 ^ 24 + 2 ^ 21
                          map := a + 2 ^ 24 + 2 ^ 21 + 2 ^ 20 }
  let m := (s.mem.store b.colE (r.colE.map fun x => BitVec.ofNat 8 x)).store b.rowE (r.rowE.map fun x => BitVec.ofNat 8 x)
  let m := m.store b.map (r.tiles.flatMap fun t => bytesOfNat 4 t.word)
  let unit := bytesOfNat 4 0x3F800000 ++ bytesOfNat 4 0
  let m := (m.store b.fwd (List.replicate (2 * b.dout) unit).flatten).store b.tra (List.replicate (2 * b.din) unit).flatten
  ({ s with mem := m }).setBind r.bind b

/-- Records of a binding on the dies that are ready. -/
def recsOf (s : State) (n : Nat) : List (Nat × NvRec) :=
  (diesOf s.m.enabled).flatMap fun d => ((s.die d).recs.filter fun r => r.bind == n).map fun r => (d, r)

/-- Records of a binding are discarded, with the snapshots of their generations (R15, R16). -/
def dropRecs (s : State) (n : Nat) (gone : BindE → Bool) : State :=
  let gens := ((recsOf s n).filter fun (_, r) => gone r.entry).map fun (_, r) => r.entry.gen
  let s := { s with dies := s.dies.map fun (d, x) => (d, { x with recs := x.recs.filter fun r => !(r.bind == n && gone r.entry) }) }
  dropSnaps s n gens.contains

/-- The record of the latest generation among some. -/
def newest (rs : List NvRec) : Option NvRec :=
  rs.foldl (fun b r => match b with | some x => if x.entry.gen.toNat < r.entry.gen.toNat then some r else b | none => some r) none

/-- The latest generation is restored if it is committed on every die it spans; one committed on only some is discarded on
all of them, and the one before it is tried; with a spanned die not ready, nothing is (R15). -/
def restoreLatest (n : Nat) : Nat → State → State
  | 0, s => s
  | k + 1, s =>
    match newest ((recsOf s n).map (·.2)) with
    | none => s
    | some r =>
      let ds := diesOf r.entry.dies
      if !ds.all s.m.enabled.getLsbD then s
      else if ds.all fun d => (s.die d).recs.any fun x => x.bind == n && x.entry == r.entry && x.committed then
        placeBinding (dropRecs s n fun e => e != r.entry) r
      else restoreLatest n k (dropRecs s n fun e => e == r.entry)

/-- A binding is rebuilt from its records (R15): those of a generation with a retire mark are discarded first. -/
def restoreBinding (s : State) (n : Nat) : State :=
  let dead := ((recsOf s n).filter fun (_, r) => r.retired).map fun (_, r) => r.entry
  let s := if dead.isEmpty then s else dropRecs s n dead.contains
  restoreLatest n (recsOf s n).length s

/-- LAUREL_SELF_TEST_DONE (R13, R14, R139): a passing die replays; after the last die the binding table is rebuilt, and
CALIB begins. -/
def execLaurelSelfTestDone (die : Nat) (ok : Bool) (s : State) : Host.Outcome State Fault Refusal :=
  .next (
    if s.m.stage != 3 || 16 ≤ die || s.m.tested.getLsbD die then s
    else
      let bit := BitVec.ofNat 16 (2 ^ die)
      let m := { s.m with tested := s.m.tested ||| bit, enabled := if ok then s.m.enabled ||| bit else s.m.enabled }
      let s := s.setM m
      let s := if ok then (s.setDie die (s.die die).replay).setM { m with journalFaults := m.journalFaults + (s.die die).faults } else s
      if m.tested != BitVec.allOnes 16 then s
      else
        let s := (List.range 256).foldl restoreBinding s
        s.setM { s.m with stage := 5 })

/-! ### Warm calibration (R133, R16) -/

/-- The snapshot of a binding's generation on a spanned die. -/
def snapOf (s : State) (n : Nat) : Option Snap :=
  let b := s.bind n
  (diesOf b.dies).findSome? fun d => (s.die d).snaps.find? fun x => x.bind == n && x.gen == b.gen

/-- A probe request as a warm calibration meets it: binding, transposed, probe, start in units of 256 lanes, and how many of
its two attempts fail. -/
abbrev WarmFail := Nat × Bool × Nat × Nat × Nat

/-- Failed attempts of one request, each counted for every die involved and among the calibration counters (R129). -/
def countWarm (s : State) (dies : List Nat) : Nat → State
  | 0 => s
  | k + 1 =>
    let s := countFaults s dies
    countWarm (s.setM { s.m with calib := s.m.calib + 1 }) dies k

/-- The measured values of one request of a probe (R129, R133 step 2), by free codes. -/
def warmLanes (s : State) (fails : List WarmFail) (n : Nat) (trans : Bool) (i start : Nat) : State × List W32 :=
  let b := s.bind n
  let tiles := useTiles s b trans start
  let bad := match fails.find? fun (k, t, j, st, _) => k == n && t == trans && j == i && 256 * st == start with
    | some (_, _, _, _, c) => min c 2
    | none => 0
  let s := countWarm s (tiles.map (·.die)).dedup bad
  if bad = 2 then (s, List.replicate 256 0x7FC00000)
  else
    let (s, cs) := freeCodes s (256 * tiles.length)
    let sums := (List.range 256).map fun l => ((List.range tiles.length).map fun t => (cs[256 * t + l]?).getD 0).foldl (· + ·) 0
    (s, probeSigmas b (useExps s b trans start) sums)

/-- The measured values of one probe in one direction. -/
def warmProbe (fails : List WarmFail) (n : Nat) (trans : Bool) (i : Nat) : List Nat → State → State × List W32
  | [], s => (s, [])
  | st :: sts, s =>
    let (s, x) := warmLanes s fails n trans i st
    let (s, xs) := warmProbe fails n trans i sts s
    (s, x ++ xs)

/-- Those of every probe. -/
def measureAll (s : State) (fails : List WarmFail) (n : Nat) (trans : Bool) : List Nat → State × List (List W32)
  | [] => (s, [])
  | i :: is =>
    let (s, x) := warmProbe fails n trans i (probeStarts (s.bind n) trans) s
    let (s, xs) := measureAll s fails n trans is
    (s, x :: xs)

/-- Warm calibration of one restored binding; its next epoch falls due one period later, or at once without a snapshot. -/
def warmBinding (fails : List WarmFail) (s : State) (n : Nat) : State :=
  let b := s.bind n
  if !b.published then s
  else match snapOf s n with
    | none => setDue s n s.m.ftime
    | some x =>
      let bank := x.cgen.toNat % 2
      let s := putBank (putBank s b false bank x.fwd) b true bank x.tra
      let s := s.setBind n { b with cgen := x.cgen }
      let (s, f) := measureAll s fails n false (List.range x.n)
      let (s, t) := measureAll s fails n true (List.range x.n)
      let s := swapTables true s { bind := n, gen := b.gen, base := x.base, n := x.n, sigF := f, sigT := t, yF := x.yF, yT := x.yT }
      setDue s n (s.m.ftime + b.ticks)

/-- Rows that replay reset wait for their leaves as requests of firmware's own (R14, R139). -/
def resupplyDie (s : State) (d : Nat) : State :=
  let rs := (s.die d).resupply
  let s := s.setDie d { s.die d with resupply := [] }
  rs.foldl (fun s (plot, tile, row, l0, l1) =>
    queueRow s { die := d, plot := plot, tile := tile, row := row, leaf0 := l0, leaf1 := l1, word := none }) s

/-- WARM_CALIBRATION (R133, R16), then READY with the module's number (R13, R302). -/
def execWarmCalibration (modno : Nat) (s : State) : Host.Outcome State Fault Refusal :=
  .next (
    if s.m.stage != 5 || 640 ≤ modno then s
    else
      let s := (List.range 256).foldl (warmBinding s.m.probeFails) s
      let s := s.setM { s.m with stage := 6, busy := false, errc := 0, dieok := s.m.enabled, modno := modno }
      (diesOf s.m.dieok).foldl resupplyDie s)

/-! ### Attestation (R17, R18) -/

/-- Bytes of a number, most significant first. -/
def bigBytes (n x : Nat) : List Byte := (bytesOfNat n x).reverse

/-- The report before its signature (R17). -/
def report (s : State) (nonce : List Byte) : List Byte :=
  let bs := s.binds.filter fun (n, b) => b.published && decide (n < 256)
  let len := 0xE0 + 48 * bs.length + 96
  bytesOfNat 4 1 ++ bytesOfNat 4 len ++ nonce ++ bytesOfNat 8 s.m.ftime ++ bigBytes 48 Config.identityHash
    ++ bigBytes 48 s.m.imageHash ++ bigBytes 48 s.m.laurelHash ++ bytesOfNat 2 s.m.dieok.toNat ++ bytesOfNat 2 bs.length
    ++ bytesOfNat 4 Config.minVersion.toNat ++ bytesOfNat 8 0
    ++ bs.flatMap fun (n, b) =>
      bytesOfNat 2 n ++ bytesOfNat 2 0 ++ bytesOfNat 4 b.gen.toNat ++ bytesOfNat 24 b.root ++ bytesOfNat 4 b.din
        ++ bytesOfNat 4 b.dout ++ bytesOfNat 2 b.dies.toNat ++ bytesOfNat 6 0

/-- ATTEST (R17): in READY, with room for the signed report; then a buffer that cannot be read or written over port H, or
that passes 2^64, fails it, and nothing is written. (DESIGN CHOICE, log 75) -/
def execAttest (s : State) : Host.Outcome State Fault Refusal :=
  .next (takeCmd s 2 fun s =>
    if s.m.stage != 6 then refuseCmd s 6
    else
      let a := s.m.haddr.toNat
      let r := report s (s.hostMem.bytes a 48)
      let signed := r ++ bigBytes 96 (Config.signature s.free r)
      if s.m.hlen.toNat < 64 + signed.length then refuseCmd s 8
      else if s.m.portFails || 2 ^ 64 < a + 64 + signed.length then refuseCmd s 4
      else { s with free := s.free + 1, hostMem := s.hostMem.store (a + 64) signed, m := { s.m with errc := 0 } })

/-- GOVERNOR_ESTIMATE (R11), every 1000 ticks: the clock falls or rises by steps of 1/16; a fall is counted. One estimate
makes one step, and every estimate that does not exceed raises a lowered clock; it never falls below 1/16 of 2.0 GHz,
estimates come at the multiples of 1000, and the counter counts the steps down. (DESIGN CHOICE, log 75) -/
def execGovernorEstimate (exceeds : Bool) (s : State) : Host.Outcome State Fault Refusal :=
  .next (
    let m := s.m
    if m.ftime % 1000 != 0 || m.governed == some m.ftime then s
    else
      let m := { m with governed := some m.ftime }
      s.setM (if !exceeds then { m with clockStep := m.clockStep - 1 }
        else if m.clockStep < 15 then { m with clockStep := m.clockStep + 1, throttle := m.throttle + 1 } else m))

/-! ### Registers -/

/-- The management core starts a launch of the device's own from a record at a partition's VA (R314). -/
def ownLaunch (s : State) (p va : Nat) : State :=
  match readVirt s p va 128 with
  | .ok (s, b) => consume s p 16 true id b
  | .error t => if t.stage2 then mgmtWait s p 16 t else s

/-- A fresh load of an image (R144): it is no longer incomplete, and its leaves may be asked for again; so may those given up
where no image was known. -/
def freshImage (s : State) (root : Nat) : State :=
  s.setM { s.m with incomplete := s.m.incomplete.filter fun x => x.2 != root && x.2 != 0 }

/-- Firmware names a FREE tile in no entry for a tile of its die that will retire without a spare (R142). -/
def nameTile (s : State) (t : Tile) : State :=
  if t.die < 16 && t.plot ≤ 255 && t.tile ≤ 1055 && ((s.die t.die).tile t.plot t.tile).state == 0 && !tileBound s t then
    s.setM { s.m with named := Tbl.set s.m.named t.die t }
  else s

/-- A failing die is removed from every virtual-die table, and returns at a later bring-up (R292). -/
def removeDie (s : State) (d : Nat) : State :=
  { s.setM { s.m with removed := s.m.removed ||| BitVec.ofNat 16 (2 ^ d) } with
    parts := s.parts.map fun (k, x) => (k, { x with e := { x.e with dies := x.e.dies.filter (· != d) } }) }

/-- Firmware learns that an export has been restored elsewhere (R295): the writes held for the partition are refused. -/
def exportDone (s : State) (p : Nat) : State :=
  let x := s.part p
  if x.e.state = 4 && x.exportAt.isSome && !x.stopping then s.setPart p { x with refuse := true, held := [] } else s

/-- An export object is placed in a host buffer, in place of one that stood there. -/
def putExport (s : State) (e : Export) : State := { s with exports := (s.exports.filter fun x => x.addr != e.addr) ++ [e] }

/-- REGISTER_WRITE (R12, R42, R141, R143, R164, R186, R187, R292, R293, R295, R297, R300 to R302, R314). A store of the
management core that changes stage-2 tables keeps R285 and R293. -/
def execRegisterWrite (r : RegWrite) (s : State) : Host.Outcome State Fault Refusal :=
  let m := s.m
  .next (match r with
    | .haddr v => s.setM { m with haddr := v }
    | .hlen v => s.setM { m with hlen := v }
    | .tileFree die plot tile =>
      let t := (s.die die).tile plot tile
      if t.state = 1 && !tileBound s ⟨die, plot, tile⟩ then onTile s die plot tile fun t => { t with state := 0 } else s
    | .spareTile die plot tile => nameTile s ⟨die, plot, tile⟩
    | .window p w base len rd wr =>
      if 24 ≤ p || 16 ≤ w || base % 4096 != 0 || len % 4096 != 0 then s
      else s.setPart p { s.part p with windows := Tbl.put {} (s.part p).windows w ⟨base, len, rd, wr⟩ }
    | .salt bytes => if bytes.length = 32 then s.setM { m with providerSalt := natOfBytes bytes } else s
    | .pool mib => s.setM { m with providerPool := mib }
    | .split p b0 b1 b2 =>
      if 24 ≤ p || b0 = 0 || 96 < b0.toNat + b1.toNat + b2.toNat then s else s.setPart p { s.part p with split := (b0, b1, b2) }
    | .ownLaunch p va => if (s.part p).e.state == 1 && (s.part p).ready then ownLaunch s p va else s
    | .freshImage root => freshImage s root
    | .memory pa bytes =>
      if (List.range bytes.length).all fun i => decide (pa + i < 2 ^ 41) && (Tbl.look s.reverse ((pa + i) / 65536)).isNone then
        (relinkAll s (applyStore s (.pa pa false false) bytes).1).getD s
      else s
    | .shardRing pa => s.setM { m with shardRing := pa }
    | .reverse page owner =>
      if 2 ^ 25 ≤ page || m.retiredPages.contains page then s
      else { s with reverse := match owner with | some o => Tbl.set s.reverse page o | none => Tbl.del s.reverse page }
    | .hostGrant page on =>
      if 2 ^ 25 ≤ page then s else
      let rest := m.granted.filter (· != page)
      s.setM { m with granted := if on then rest ++ [page] else rest }
    | .domainExport modno part page count =>
      if 2 ^ 25 < page + count then s else
      let rest := m.exportsTo.filter fun (a, p, b, _) => !(a == modno && p == part && b == page)
      s.setM { m with exportsTo := if count = 0 then rest else rest ++ [(modno, part, page, count)] }
    | .domainImport p page count =>
      let rest := m.imports.filter fun (a, b, _) => !(a == p && b == page)
      s.setM { m with imports := if count = 0 then rest else rest ++ [(p, page, count)] }
    | .l2Evict pa => l2Evict s (lineOf pa)
    | .hostStore a bytes => { s with hostMem := s.hostMem.store a bytes }
    | .domainStore a bytes => if a / 2 ^ 46 = m.modno then s else { s with domainMem := s.domainMem.store a bytes }
    | .dieRemoved d => if d < 16 then removeDie s d else s
    | .exportDone p => exportDone s p
    | .portFails on => s.setM { m with portFails := on }
    | .powerFailing n k done => s.setM { m with torn := some (n, k, done) }
    | .probeFails l => s.setM { m with probeFails := l }
    | .hostExport addr k => putExport s { Config.foreignExport k with addr := addr })

end Sys2Proof.Machine
end

