-- ==== Sys2Proof/Machine/Convert.lean ====
section
/-!
DEFINITION. Conversions (opcodes 0x40 to 0x43): CVT, PACK, UNPK, BPQ, BPX.
-/

namespace Sys2Proof.Machine

/-- One lane of CVT (R360): `k` the sub-element, `bg` the background value. -/
def cvtWord (src dst : Tag) (k : Nat) (rm : RM) (fz sat : Bool) (x bg : Nat) : Nat × BitVec 5 :=
  let s := src.elems
  let r := dst.elems
  let xs := splitElems src x
  let cv := fun (e : Nat) => conv src dst rm fz sat ((xs[e]?).getD 0)
  if s < r then
    let old := splitElems dst bg
    let new := (List.range s).map fun e => cv e
    let res := (List.range r).map fun e =>
      if k * s ≤ e && e < k * s + s then ((new[e - k * s]?).getD (0, 0)).1 else (old[e]?).getD 0
    (joinElems dst res, orFlags (new.map (·.2)))
  else
    let new := (List.range r).map fun e => cv (if s = r then e else k * r + e)
    (joinElems dst (new.map (·.1)), orFlags (new.map (·.2)))

/-- CVT (R359, R360): C is the source tag's code. -/
def execCvt (f : Fields) (s : State) : Host.Outcome State Fault Refusal :=
  let src := ((Fields.tagOfCode f.c.code.toNat)).getD .raw
  let k := (f.x.extractLsb' 0 2).toNat
  let word := fun (g : Group) (x bg : Nat) =>
    cvtWord src f.fmt k (effRm g.csr.fmode f.rm) (fz16 g.csr.fmode) f.sat x bg
  issueGroup (.cvt f) f (fun c s =>
    if f.uni then
      let g := c.g s
      uniBody c (fun rd =>
        let r := word g ((rd f.a).toNat % 2 ^ 32) ((rd f.b).toNat % 2 ^ 32)
        (if f.fmt = .i32 then (BitVec.ofNat 32 r.1).signExtend 64 else BitVec.ofNat 64 r.1, r.2)) s
    else
      laneBody c [useA f (some src), useB f (some f.fmt)] f.fmt (fun g l =>
        let r := word g (g.src f f.a l).toNat (g.src f f.b l).toNat
        (BitVec.ofNat 32 r.1, r.2)) s) s

/-- The wide tag of PACK and UNPK (R419). -/
def wideTag : Tag → Tag | .i8 => .i32 | .n8 => .n32 | _ => .f32

def opNum (o : Opd) : Nat := o.code.toNat

/-- PACK (R419, R420). -/
def execPack (f : Fields) (s : State) : Host.Outcome State Fault Refusal :=
  let r := f.fmt.elems
  let w := wideTag f.fmt
  issueGroup (.pack f) f (fun c s =>
    laneBody c [{ o := f.a, n := r, bt := f.btA, tag := some w }] f.fmt (fun g l =>
      let els := (List.range r).map fun e =>
        conv w f.fmt (effRm g.csr.fmode f.rm) (fz16 g.csr.fmode) f.sat (g.lane (opNum f.a + e) l).toNat
      (BitVec.ofNat 32 (joinElems f.fmt (els.map (·.1))), orFlags (els.map (·.2)))) s) s

/-- UNPK (R419, R420): every source is read before any destination is written. -/
def execUnpk (f : Fields) (s : State) : Host.Outcome State Fault Refusal :=
  let r := f.fmt.elems
  let w := wideTag f.fmt
  issueGroup (.unpk f) f (fun c s => do
    let uses : List Use := [useA f (some f.fmt)]
    checkRefs c (c.g s) uses [(f.d, r)]
    let act := (c.g s).activeReal c.sub f
    if act = 0 then return s
    let s ← ready c uses s
    let g := c.g s
    let ls := laneSet g act
    let cols := (List.range r).map fun e => ls.map fun l =>
      (l, conv f.fmt w .rne false false (((splitElems f.fmt (g.lane (opNum f.a) l).toNat)[e]?).getD 0))
    let g' := (cols.zipIdx).foldl (fun g (vals, e) =>
      g.writeV (opNum f.d + e) (vals.map fun (l, v) => (l, BitVec.ofNat 32 v.1)) w) g
    let fl := orFlags ((cols.flatten.filter fun v => mhas act v.1).map fun v => v.2.2)
    return (s.setGroup c.gid g').orTsf g.ident.tid fl) s

/-- BPQ (R338): one tile quantised; the lane mask has no effect. -/
def execBpq (f : Fields) (s : State) : Host.Outcome State Fault Refusal :=
  issueGroup (.bpq f) f (fun c s => do
    let acc := f.fmt == .f32
    let uses : List Use := [{ o := f.a, n := if acc then 1 else 2, bt := f.btA, tag := some f.fmt }]
    guardI c (viewFmt (c.g s).csr.tview = 2)
    checkRefs c (c.g s) uses [(f.d, 1)]
    let s ← ready c uses s
    let g := c.g s
    match g.useRange f.a (if acc then 1 else 2), g.range f.d with
    | some (some (a, _)), some (d, _) =>
      let x := fun (i j : Nat) =>
        if acc then r32 (g.win.num (a + 128 * i + 4 * j) 4) else FFmt.bf16.read (g.win.num (a + 64 * i + 2 * j) 2)
      let (img, fl) := bpqTile x
      return (s.setGroup c.gid (g.writeRange d img .bpb)).orTsf g.ident.tid fl
    | _, _ => illop c) s

/-- The bytes of an expanded tile (R96, R339). -/
def bpxBytes (fmt : Tag) (rm : RM) (img : List Byte) : List Byte × BitVec 5 :=
  let n := if fmt = .f32 then 4 else 2
  let els := (List.range 1024).map fun k => fmt.ffmt.round rm (bpbElem img (k / 32) (k % 32))
  (els.flatMap fun e => bytesOfNat n e.1, orFlags (els.map (·.2)))

/-- BPX (R339). -/
def execBpx (f : Fields) (s : State) : Host.Outcome State Fault Refusal :=
  issueGroup (.bpx f) f (fun c s => do
    let uses : List Use := [useA f (some .bpb)]
    guardI c (viewFmt (c.g s).csr.tview = 2)
    let n := match f.d with | .v _ => 2 | _ => 1
    checkRefs c (c.g s) uses [(f.d, n)]
    let s ← ready c uses s
    let g := c.g s
    match g.range f.a, g.useRange f.d n with
    | some (a, _), some (some (d, _)) =>
      let (bs, fl) := bpxBytes f.fmt (effRm g.csr.fmode f.rm) (g.win.bytes a 1152)
      return (s.setGroup c.gid (g.writeRange d bs f.fmt)).orTsf g.ident.tid fl
    | _, _ => illop c) s

end Sys2Proof.Machine
end

