-- ==== Sys2Proof/Machine/Exchange.lean ====
section
/-!
DEFINITION. Lane exchanges, votes and reductions (opcodes 0x50 to 0x54).
-/

namespace Sys2Proof.Machine

/-- A source A read from another lane of the group, chosen by the index B (R407, R422). -/
def exchange (i : Instr) (f : Fields) (pick : Nat → Nat → Nat) (s : State) : Host.Outcome State Fault Refusal :=
  issueGroup i f (fun c s =>
    laneBody c [useA f (tagOf f), { o := f.b, bt := f.btB, index := true }] f.fmt
      (fun g l => (g.lane f.a.code.toNat (pick l (g.src f f.b l).toNat), 0)) s) s

/-- QXCH (R422). -/
def execQxch (f : Fields) (s : State) : Host.Outcome State Fault Refusal :=
  exchange (.qxch f) f (fun l j => l - l % 4 + (l % 4 ^^^ j % 4)) s
/-- QBCST (R422). -/
def execQbcst (f : Fields) (s : State) : Host.Outcome State Fault Refusal :=
  exchange (.qbcst f) f (fun l j => l - l % 4 + j % 4) s
/-- LSHF (R407). -/
def execLshf (f : Fields) (s : State) : Host.Outcome State Fault Refusal :=
  exchange (.lshf f) f (fun _ j => j % 256) s

/-- VOTE all and any (R441): the bit goes to the sub-group's lanes. With no active quad there is no effect (R24, R307).
(DEDUCED, log 21) -/
def vote (i : Instr) (f : Fields) (all : Bool) (s : State) : Host.Outcome State Fault Refusal :=
  issueGroup i f (fun c s =>
    let g := c.g s
    let act := g.activeReal c.sub f
    let p := g.pred (f.c.code.toNat % 8)
    let bit := if all then act &&& ~~~p == 0 else act &&& p != 0
    let m := (g.sub c.sub).mask
    if act = 0 then .ok s else .ok (s.setGroup c.gid (g.setPred (f.d.code.toNat % 8) m (if bit then m else 0)))) s

/-- VOTE.all (R441). -/
def execVoteAll (f : Fields) (s : State) : Host.Outcome State Fault Refusal := vote (.voteAll f) f true s
/-- VOTE.any (R441). -/
def execVoteAny (f : Fields) (s : State) : Host.Outcome State Fault Refusal := vote (.voteAny f) f false s

/-- VOTE.ballot (R441): four scalars of 64 lanes each; nothing with no active quad (R24, R307; log 21). -/
def execVoteBallot (f : Fields) (s : State) : Host.Outcome State Fault Refusal :=
  issueGroup (.voteBallot f) f (fun c s =>
    let g := c.g s
    let act := g.activeReal c.sub f
    let m := act &&& g.pred (f.c.code.toNat % 8)
    let n := f.d.code.toNat - 0x40
    if act = 0 then .ok s else .ok (s.setGroup c.gid ((List.range 4).foldl (fun g i => g.setScal (n + i) (m.extractLsb' (64 * i) 64)) g))) s

/-- Combinations of GRED and GSCAN (R385). -/
inductive RedOp where | add | min | max
deriving DecidableEq, Repr

/-- One combination with its flags (R98, R385). -/
def RedOp.comb (o : RedOp) (t : Tag) (x y : Nat) : Nat × BitVec 5 :=
  match o, t with
  | .add, .f32 => FFmt.f32.add .rne x y
  | .add, _ => ((x + y) % 2 ^ 32, 0)
  | .min, .f32 => FFmt.f32.minmax false x y
  | .max, .f32 => FFmt.f32.minmax true x y
  | .min, t => (if intOf t.signed 32 x ≤ intOf t.signed 32 y then x else y, 0)
  | .max, t => (if intOf t.signed 32 x ≤ intOf t.signed 32 y then y else x, 0)

/-- The pairwise tree over the values of lanes (R98). -/
def laneTree (o : RedOp) (f : Fields) (g : Group) (ls : List Nat) : Option (Nat × BitVec 5) :=
  tree (withFlags (o.comb f.fmt)) (ls.map fun l => ((g.src f f.a l).toNat, 0))

/-- A vector result that is E from issue until 24 cycles of a 2 GHz clock after the last quad's cycle (R28, R385): its bytes
stand in the window at once, where nothing reads them, and its registers and tags land at that tick, and with them the
write that ends a latch entry (R57). (DESIGN CHOICE, log 4) -/
def slowWrite (c : Ctx) (d : Nat) (act : Mask) (vals : List (Nat × W32)) (t : Tag) (s : State) : State :=
  let (id, s) := s.fresh
  let g := (c.g s).markE id (1024 * d) 1024 t
  let g := vals.foldl (fun g (l, x) => g.deliver id (1024 * d + 4 * l) (bytesOfNat 4 x.toNat)) g
  let quads := ((mlanes act).map (· / 4)).dedup.length
  let due := s.m.ftime + 12 + ceilDiv quads 2
  s.setGroup c.gid { g with wrote := [], prods := Tbl.upd g.prods id fun p => { p with due := some due } }

/-- GRED (R385). -/
def gred (i : Instr) (f : Fields) (o : RedOp) (s : State) : Host.Outcome State Fault Refusal :=
  issueGroup i f (fun c s => do
    let uses : List Use := [useA f (tagOf f)]
    checkRefs c (c.g s) uses [(f.d, 1)]
    let act := (c.g s).activeReal c.sub f
    if act = 0 then return s
    let s ← ready c uses s
    let g := c.g s
    let (r, fl) := (laneTree o f g (mlanes act)).getD (0, 0)
    let w : W32 := BitVec.ofNat 32 r
    let s := match f.d with
      | .s n => s.setGroup c.gid (g.setScal n.val (if f.fmt = Tag.i32 then w.signExtend 64 else w.zeroExtend 64))
      | .v n => slowWrite c n.val act ((laneSet g act).map fun l => (l, w)) f.fmt s
      | _ => s
    return s.orTsf g.ident.tid fl) s

/-- GSCAN (R385): an inclusive prefix; a helper lane takes the real lanes below it. -/
def gscan (i : Instr) (f : Fields) (o : RedOp) (s : State) : Host.Outcome State Fault Refusal :=
  issueGroup i f (fun c s => do
    let uses : List Use := [useA f (tagOf f)]
    checkRefs c (c.g s) uses [(f.d, 1)]
    let act := (c.g s).activeReal c.sub f
    if act = 0 then return s
    let s ← ready c uses s
    let g := c.g s
    let rs : List (Nat × Nat × BitVec 5) := (laneSet g act).map fun l => (l, (laneTree o f g ((mlanes act).filter (· ≤ l))).getD (0, 0))
    let fl := orFlags ((rs.filter fun r => mhas act r.1).map fun r => r.2.2)
    let s := match f.d with
      | .v n => slowWrite c n.val act (rs.map fun (x : Nat × Nat × BitVec 5) => (x.1, BitVec.ofNat 32 x.2.1)) f.fmt s
      | _ => s
    return s.orTsf g.ident.tid fl) s

/-- GRED.add (R385), and its minimum and maximum. -/
def execGredAdd (f : Fields) (s : State) : Host.Outcome State Fault Refusal := gred (.gredAdd f) f .add s
/-- GRED.min (R385). -/
def execGredMin (f : Fields) (s : State) : Host.Outcome State Fault Refusal := gred (.gredMin f) f .min s
/-- GRED.max (R385). -/
def execGredMax (f : Fields) (s : State) : Host.Outcome State Fault Refusal := gred (.gredMax f) f .max s
/-- GSCAN.add (R385), and its minimum and maximum. -/
def execGscanAdd (f : Fields) (s : State) : Host.Outcome State Fault Refusal := gscan (.gscanAdd f) f .add s
/-- GSCAN.min (R385). -/
def execGscanMin (f : Fields) (s : State) : Host.Outcome State Fault Refusal := gscan (.gscanMin f) f .min s
/-- GSCAN.max (R385). -/
def execGscanMax (f : Fields) (s : State) : Host.Outcome State Fault Refusal := gscan (.gscanMax f) f .max s

end Sys2Proof.Machine
end

