-- ==== Sys2Proof/Machine/FloatOps.lean ====
section
/-!
DEFINITION. The floating-point instructions (opcodes 0x20 to 0x26).
-/

namespace Sys2Proof.Machine

/-- FADD (R371). -/
def execFadd (f : Fields) (s : State) : Host.Outcome State Fault Refusal :=
  aluReckon (.fadd f) f (fun g => planAdd g false f) (fun F rm x y _ => F.add rm x y) s
/-- FSUB (R371). -/
def execFsub (f : Fields) (s : State) : Host.Outcome State Fault Refusal :=
  aluReckon (.fsub f) f (fun g => planAdd g true f) (fun F rm x y _ => F.sub rm x y) s
/-- FMUL (R371). -/
def execFmul (f : Fields) (s : State) : Host.Outcome State Fault Refusal :=
  aluReckon (.fmul f) f (fun g => planMul g f) (fun F rm x y _ => F.mul rm x y) s
/-- FFMA: a·b + c (R378). -/
def execFfma (f : Fields) (s : State) : Host.Outcome State Fault Refusal :=
  aluReckon (.ffma f) f (fun g => planFma g false false f) (fun F rm x y z => F.fma rm false false x y z) s
/-- FFMS: a·b − c (R378). -/
def execFfms (f : Fields) (s : State) : Host.Outcome State Fault Refusal :=
  aluReckon (.ffms f) f (fun g => planFma g false true f) (fun F rm x y z => F.fma rm false true x y z) s
/-- FNMA: −a·b + c (R378). -/
def execFnma (f : Fields) (s : State) : Host.Outcome State Fault Refusal :=
  aluReckon (.fnma f) f (fun g => planFma g true false f) (fun F rm x y z => F.fma rm true false x y z) s
/-- FNMS: −a·b − c (R378). -/
def execFnms (f : Fields) (s : State) : Host.Outcome State Fault Refusal :=
  aluReckon (.fnms f) f (fun g => planFma g true true f) (fun F rm x y z => F.fma rm true true x y z) s
/-- FMIN (R379). -/
def execFmin (f : Fields) (s : State) : Host.Outcome State Fault Refusal :=
  aluFloat (.fmin f) f (fun F _ x y _ => F.minmax false x y) s
/-- FMAX (R379). -/
def execFmax (f : Fields) (s : State) : Host.Outcome State Fault Refusal :=
  aluFloat (.fmax f) f (fun F _ x y _ => F.minmax true x y) s
/-- FCMP.eq (R373), and the other relations below. -/
def execFcmpEq (f : Fields) (s : State) : Host.Outcome State Fault Refusal := fcmp .eq (.fcmpEq f) f s
/-- FCMP.ne (R373). -/
def execFcmpNe (f : Fields) (s : State) : Host.Outcome State Fault Refusal := fcmp .ne (.fcmpNe f) f s
/-- FCMP.lt (R373). -/
def execFcmpLt (f : Fields) (s : State) : Host.Outcome State Fault Refusal := fcmp .lt (.fcmpLt f) f s
/-- FCMP.le (R373). -/
def execFcmpLe (f : Fields) (s : State) : Host.Outcome State Fault Refusal := fcmp .le (.fcmpLe f) f s
/-- FCMP.gt (R373). -/
def execFcmpGt (f : Fields) (s : State) : Host.Outcome State Fault Refusal := fcmp .gt (.fcmpGt f) f s
/-- FCMP.ge (R373). -/
def execFcmpGe (f : Fields) (s : State) : Host.Outcome State Fault Refusal := fcmp .ge (.fcmpGe f) f s
/-- FCMP.un (R373). -/
def execFcmpUn (f : Fields) (s : State) : Host.Outcome State Fault Refusal := fcmp .un (.fcmpUn f) f s
/-- FRCP (R380). -/
def execFrcp (f : Fields) (s : State) : Host.Outcome State Fault Refusal := aluFloat (.frcp f) f (fun _ rm x _ _ => frcp rm x) s
/-- FRSQ (R381). -/
def execFrsq (f : Fields) (s : State) : Host.Outcome State Fault Refusal := aluFloat (.frsq f) f (fun _ rm x _ _ => frsq rm x) s
/-- FSQRT (R382). -/
def execFsqrt (f : Fields) (s : State) : Host.Outcome State Fault Refusal :=
  aluFloat (.fsqrt f) f (fun _ rm x _ _ => fsqrt rm x) s
/-- FEXP2 (R376). -/
def execFexp2 (f : Fields) (s : State) : Host.Outcome State Fault Refusal :=
  aluFloat (.fexp2 f) f (fun _ rm x _ _ => fexp2 rm x) s
/-- FLOG2 (R377). -/
def execFlog2 (f : Fields) (s : State) : Host.Outcome State Fault Refusal :=
  aluFloat (.flog2 f) f (fun _ rm x _ _ => flog2 rm x) s
/-- FCLS (R372): tagged N32, no flag. -/
def execFcls (f : Fields) (s : State) : Host.Outcome State Fault Refusal :=
  issueGroup (.fcls f) f (fun c s => floatBody c .n32 (fun F _ x _ _ => (2 ^ F.cls x, 0)) s) s

end Sys2Proof.Machine
end

