-- ==== Sys2Proof/Machine/Int.lean ====
section
/-!
DEFINITION. NOP, moves and the integer, logical, shift and bit-field instructions (opcodes 0x00 to 0x0E).
-/

namespace Sys2Proof.Machine

/-- The next PC of NOP.skip (R316): the start of the next fetch block. -/
def skipPc (pc : W64) : W64 := BitVec.ofNat 64 ((pc.toNat / 32 + 1) * 32)

/-- NOP (R418). -/
def execNop (f : Fields) (s : State) : Host.Outcome State Fault Refusal :=
  issueBoth (.nop f) f false (fun _ s => .ok s) (fun _ _ _ s => .ok s) s

/-- NOP.skip (R316, R418). -/
def execNopSkip (f : Fields) (s : State) : Host.Outcome State Fault Refusal :=
  issueBoth (.nopSkip f) f true
    (fun c s => .ok (s.setGroup c.gid ((c.g s).subPc c.sub (skipPc c.pc))))
    (fun c q r s => .ok (s.setRun q { r with pc := skipPc c.pc })) s

/-- The whole-register copy of MOV (R413): the tags go with the bytes, granule by granule. -/
def movWhole (c : Ctx) (s : State) : Except Stop State := do
  let uses : List Use := [useA c.f none]
  checkRefs c (c.g s) uses [(c.f.d, 1)]
  let s ← ready c uses s
  let g := c.g s
  match g.range c.f.a, g.range c.f.d with
  | some (a, n), some (d, _) =>
    let bs := g.win.bytes a n
    let ts := (Group.granules a n).map g.tagAt
    let g := g.writeRange d bs .raw
    let g := { g with tags := (((Group.granules d n).zip ts)).foldl (fun m (k, t) => Tbl.put .raw m k t) g.tags }
    return s.setGroup c.gid g
  | _, _ => illop c

/-- MOV (R413): the lane and uniform forms, the pair move under RK, and the whole-register copy. -/
def execMov (f : Fields) (s : State) : Host.Outcome State Fault Refusal :=
  let lane := fun (c : Ctx) => laneBody c (usesABC f) f.fmt (fun g l => (g.src f f.a l, 0))
  issueBoth (.mov f) f false
    (fun c s => match f.d with
      | .t _ | .a _ => movWhole c s
      | _ => if f.uni then uniBody c (fun rd => (rd f.a, 0)) s
        else reckoned c f.rk (fun g => planMov g f) (lane c) s)
    (fun c q r s => match f.d with
      | .t _ | .a _ => illop c
      | _ => beamBody c q r (fun rd => (rd f.a, 0)) s) s

/-- MOVI (R414). -/
def execMovi (f : Fields) (s : State) : Host.Outcome State Fault Refusal :=
  alu (.movi f) f (fun _ => (f.imm, 0))
    (fun _ => (if f.fmt = .i32 then f.imm.signExtend 64 else f.imm.zeroExtend 64, 0)) s

/-- SEL (R431): C is the predicate's number. -/
def execSel (f : Fields) (s : State) : Host.Outcome State Fault Refusal :=
  let k := f.c.code.toNat % 8
  issueBoth (.sel f) f false
    (fun c s => if f.uni then
        let g := c.g s
        let b := match mlowest (g.sub c.sub).mask with | some l => mhas (g.pred k) l | none => false
        uniBody c (fun rd => (if b then rd f.a else rd f.b, 0)) s
      else laneBody c [useA f (tagOf f), useB f (tagOf f)] f.fmt
        (fun g l => (if mhas (g.pred k) l then g.src f f.a l else g.src f f.b l, 0)) s)
    (fun c q r s => beamBody c q r (fun rd => (if k = 0 || r.p.getLsbD k then rd f.a else rd f.b, 0)) s) s

/-- IADD (R388). -/
def execIadd (f : Fields) (s : State) : Host.Outcome State Fault Refusal := aluInt (.iadd f) f (fun _ x y _ => x + y) s
/-- ISUB (R388). -/
def execIsub (f : Fields) (s : State) : Host.Outcome State Fault Refusal := aluInt (.isub f) f (fun _ x y _ => x - y) s
/-- IMUL (R393). -/
def execImul (f : Fields) (s : State) : Host.Outcome State Fault Refusal := aluInt (.imul f) f (fun _ x y _ => x * y) s
/-- IMULH (R393): the upper half of the exact product. -/
def execImulh (f : Fields) (s : State) : Host.Outcome State Fault Refusal :=
  aluInt (.imulh f) f (fun w x y _ => x * y / 2 ^ w) s
/-- IMAD (R391). -/
def execImad (f : Fields) (s : State) : Host.Outcome State Fault Refusal := aluInt (.imad f) f (fun _ x y z => x * y + z) s
/-- IMIN (R392). -/
def execImin (f : Fields) (s : State) : Host.Outcome State Fault Refusal := aluInt (.imin f) f (fun _ x y _ => min x y) s
/-- IMAX (R392). -/
def execImax (f : Fields) (s : State) : Host.Outcome State Fault Refusal := aluInt (.imax f) f (fun _ x y _ => max x y) s
/-- IABS (R387). -/
def execIabs (f : Fields) (s : State) : Host.Outcome State Fault Refusal :=
  aluInt (.iabs f) f (fun _ x _ _ => if x < 0 then -x else x) s
/-- INEG (R387). -/
def execIneg (f : Fields) (s : State) : Host.Outcome State Fault Refusal := aluInt (.ineg f) f (fun _ x _ _ => -x) s

/-- ICMP (R389), one definition for each relation. -/
def execIcmpEq (f : Fields) (s : State) : Host.Outcome State Fault Refusal := icmp .eq (.icmpEq f) f s
/-- ICMP.ne (R389). -/
def execIcmpNe (f : Fields) (s : State) : Host.Outcome State Fault Refusal := icmp .ne (.icmpNe f) f s
/-- ICMP.lt (R389). -/
def execIcmpLt (f : Fields) (s : State) : Host.Outcome State Fault Refusal := icmp .lt (.icmpLt f) f s
/-- ICMP.le (R389). -/
def execIcmpLe (f : Fields) (s : State) : Host.Outcome State Fault Refusal := icmp .le (.icmpLe f) f s
/-- ICMP.gt (R389). -/
def execIcmpGt (f : Fields) (s : State) : Host.Outcome State Fault Refusal := icmp .gt (.icmpGt f) f s
/-- ICMP.ge (R389). -/
def execIcmpGe (f : Fields) (s : State) : Host.Outcome State Fault Refusal := icmp .ge (.icmpGe f) f s

/-- AND (R331). -/
def execAnd (f : Fields) (s : State) : Host.Outcome State Fault Refusal := aluBits (.and f) f (fun _ x y _ => x &&& y) s
/-- ANDN (R331). -/
def execAndn (f : Fields) (s : State) : Host.Outcome State Fault Refusal := aluBits (.andn f) f (fun _ x y _ => x &&& ~~~y) s
/-- OR (R331). -/
def execOr (f : Fields) (s : State) : Host.Outcome State Fault Refusal := aluBits (.or f) f (fun _ x y _ => x ||| y) s
/-- XOR (R331). -/
def execXor (f : Fields) (s : State) : Host.Outcome State Fault Refusal := aluBits (.xor f) f (fun _ x y _ => x ^^^ y) s
/-- NOT (R331). -/
def execNot (f : Fields) (s : State) : Host.Outcome State Fault Refusal := aluBits (.not f) f (fun _ x _ _ => ~~~x) s

/-- The count of a shift (R432). -/
def shiftCount {n : Nat} (y : BitVec n) : Nat := y.toNat % 256

/-- SHL (R432). -/
def execShl (f : Fields) (s : State) : Host.Outcome State Fault Refusal := aluBits (.shl f) f (fun _ x y _ => x <<< shiftCount y) s
/-- SHR (R432). -/
def execShr (f : Fields) (s : State) : Host.Outcome State Fault Refusal := aluBits (.shr f) f (fun _ x y _ => x >>> shiftCount y) s
/-- SAR (R432). -/
def execSar (f : Fields) (s : State) : Host.Outcome State Fault Refusal :=
  aluBits (.sar f) f (fun _ x y _ => x.sshiftRight (shiftCount y)) s

/-- Leading zero bits. -/
def clzOf (n : Nat) (x : Nat) : Nat := if x = 0 then n else n - 1 - x.log2
/-- One bits among the lowest `n`. -/
def popOf : Nat → Nat → Nat
  | 0, _ => 0
  | n + 1, x => x % 2 + popOf n (x / 2)

/-- CLZ (R347). -/
def execClz (f : Fields) (s : State) : Host.Outcome State Fault Refusal :=
  aluBits (.clz f) f (fun n x _ _ => BitVec.ofNat n (clzOf n x.toNat)) s
/-- POPC (R347). -/
def execPopc (f : Fields) (s : State) : Host.Outcome State Fault Refusal :=
  aluBits (.popc f) f (fun n x _ _ => BitVec.ofNat n (popOf n x.toNat)) s

/-- BFX (R337): sign-extending for FMT 1. -/
def execBfx (f : Fields) (s : State) : Host.Outcome State Fault Refusal :=
  aluBits (.bfx f) f (fun w x y z =>
    let p := y.toNat % 256
    let n := z.toNat % 256
    if n = 0 || w ≤ p then 0 else
      let n := min n (w - p)
      let v := x.toNat / 2 ^ p % 2 ^ n
      if f.fmt = .i32 then BitVec.ofInt w (toSigned n v) else BitVec.ofNat w v) s

/-- BFI (R336). -/
def execBfi (f : Fields) (s : State) : Host.Outcome State Fault Refusal :=
  aluBits (.bfi f) f (fun w x y z =>
    let p := y.toNat % 256
    let n := y.toNat / 256 % 256
    if n = 0 || w ≤ p then z else
      let n := min n (w - p)
      let m := BitVec.ofNat w ((2 ^ n - 1) * 2 ^ p)
      (z &&& ~~~m) ||| (BitVec.ofNat w (x.toNat % 2 ^ n * 2 ^ p))) s

end Sys2Proof.Machine
end

