-- ==== Sys2Proof/Machine/Link.lean ====
section
/-!
DEFINITION. The Laurel links (R119, R131, R134): what each request slot carries, and the slot tables.
-/

namespace Sys2Proof.Machine

/-- An operation has an attempt to send to a die. -/
def ArrOp.toSend (o : ArrOp) (port : Nat) : Bool :=
  o.underway && !o.shadow && (Tbl.look o.sent port).isNone && o.tiles.any fun t => t.die == port

/-- Slots of a partition that probes have used in the present frame (R119): frames follow one another from FTIME 0, 2048
ticks each. (DESIGN CHOICE, log 79) -/
def lentNow (s : State) (x : Die) (v : Nat) : Nat :=
  match Tbl.look x.lent v with | some (frame, n) => if frame = s.m.ftime / 2048 then n else 0 | none => 0

/-- A slot of owner `v` may carry an operation (R119, R131, R406): its owner's own; a probe of an epoch also in provider and
unassigned slots, and in a slot whose partition has nothing to send, in at most 5 of its slots in a frame. -/
def mayCarry (s : State) (port v : Nat) (o : ArrOp) : Bool :=
  match o.dest with
  | .epoch => v == 30 || v == 31 || (decide (v < 24) && decide (lentNow s (s.die port) v < 5)
      && !s.arrops.any fun (_, y) => y.owner == v && y.toSend port)
  | _ => o.owner == v

/-- The oldest operation that a slot carries. -/
def nextRequest (s : State) (port v : Nat) : Option (Nat × ArrOp) :=
  s.arrops.find? fun (_, o) => o.toSend port && mayCarry s port v o

/-- The oldest row request whose leaves a slot carries (R134, R135 step 1): both present by name. -/
def nextRow (s : State) (port v : Nat) : Option (Nat × RowReq × List Byte) :=
  if v != 30 && v != 31 then none
  else s.rowReqs.findSome? fun (id, q) =>
    if q.die != port || q.sent then none
    else
      let q := q.named s
      match leafHere s q.leaf0, leafHere s q.leaf1 with
      | some a, some b => some (id, q, a ++ b)
      | _, _ => none

/-- A slot lent to a probe is counted. -/
def lend (s : State) (port v : Nat) : State :=
  let x := s.die port
  if v < 24 then s.setDie port { x with lent := Tbl.set x.lent v (s.m.ftime / 2048, lentNow s x v + 1) } else s

/-- An attempt goes to a die; its first send starts its deadline (R113). -/
def sendRequest (s : State) (port v id : Nat) (o : ArrOp) : State :=
  let (k, s) := s.fresh
  let s := match o.dest with | .epoch => lend s port v | _ => s
  let o' := { o with sent := Tbl.set o.sent port k, deadline := if o.sent.isEmpty then s.m.ftime + 50000 else o.deadline }
  fillPlots port ((o.tiles.filter (·.die == port)).map (·.plot)).dedup (s.setArr id o')

/-- Both leaves of a row go to its die. -/
def sendRow (s : State) (id : Nat) (q : RowReq) (bs : List Byte) : State :=
  { s with rowReqs := Tbl.set s.rowReqs id { q with sent := true, weights := bs } }

/-- LINK_SLOT_START (R119, R131, R134): a slot carries the oldest request that may travel in it. -/
def execLinkSlotStart (port slot : Nat) (s : State) : Host.Outcome State Fault Refusal :=
  .next (
    let v := slotOwner (s.die port).reqOwner slot
    match nextRequest s port v, nextRow s port v with
    | some (id, o), none => sendRequest s port v id o
    | some (id, o), some (k, q, bs) => if id ≤ k then sendRequest s port v id o else sendRow s k q bs
    | none, some (k, q, bs) => sendRow s k q bs
    | none, none => s)

/-- LINK_SLOT_TABLE_WRITE (R119): a FREE entry owns no slot (R289). -/
def execLinkSlotTableWrite (port : Nat) (response : Bool) (slot : Nat) (owner : BitVec 8) (s : State) :
    Host.Outcome State Fault Refusal :=
  .next (
    let v := owner &&& 0x1F
    if 16 ≤ port || 256 ≤ slot || (24 ≤ v.toNat && v.toNat ≤ 29) || (v.toNat < 24 && (s.part v.toNat).e.state == 0) then s
    else
      let x := s.die port
      s.setDie port (if response then { x with rspOwner := Tbl.put 31 x.rspOwner slot v }
        else { x with reqOwner := Tbl.put 31 x.reqOwner slot v }))

end Sys2Proof.Machine
end

