-- ==== Sys2Proof/Machine/Settle.lean ====
section
/-!
DEFINITION. RKST, RKST.all and RKQ (opcodes 0xE0 and 0xE1; R72 to R74).
-/

namespace Sys2Proof.Machine

/-- RKST vd (R72). Of a register in state E it takes a held MEMUE as a read does, before it waits or traps EMPTYRD (R402).
(DESIGN CHOICE, log 76) -/
def execRkst (f : Fields) (s : State) : Host.Outcome State Fault Refusal :=
  issueGroup (.rkst f) f (fun c s => do
    let uses : List Use := [{ o := f.a, bt := f.btA }]
    checkRefs c (c.g s) uses []
    ready c uses s) s

/-- RKST.all (R72): every pending pair, in ascending register order; it waits until each can settle. -/
def execRkstAll (f : Fields) (s : State) : Host.Outcome State Fault Refusal :=
  issueGroup (.rkstAll f) f (fun c s =>
    settleAll c.gid (((c.g s).pairsIn (List.range 64)).map fun p => (p, false)) s) s

/-- The value of RKQ (R73); in deterministic mode ARR and FAIL read as zero (R257). -/
def rkqValue (g : Group) (det : Bool) (k : Nat) : W64 :=
  let bits := fun (p : Slot → Bool) => ((List.range 8).filter fun j => p (g.slot j)).foldl (fun n j => n + 2 ^ j) 0
  let h := if k < g.ident.k then (g.slot k).holders else 0
  BitVec.ofNat 64 (h % 64 * 2 ^ 24 + (if det then 0 else bits (·.fail) * 2 ^ 16 + bits (·.arr) * 2 ^ 8) + bits (·.busy))

/-- RKQ (R73). -/
def execRkq (f : Fields) (s : State) : Host.Outcome State Fault Refusal :=
  issueGroup (.rkq f) f (fun c s =>
    let g := c.g s
    .ok (s.setGroup c.gid (g.putS f.d (rkqValue g (s.flag g.ident.lid 0) f.c.code.toNat)))) s

end Sys2Proof.Machine
end

