-- ==== Sys2Proof/Machine/Tenants.lean ====
section
/-!
DEFINITION. Partitions as firmware writes them (R283, R284, R289, R105), the service ring (R286 to R288), function-level
reset (R290) and live migration (R293 to R298, R206, R460 to R462).
-/

namespace Sys2Proof.Machine

/-! ### The partition table -/

/-- The entry written as all zero (R289). -/
def emptyEntry : PartEntry := ⟨0, false, [], 0, 0, 0, 0, 0, 0, [], 0, 0, 0, 0, []⟩

/-- GiB of LPDDR6 that firmware has not reserved for itself: all but the 8 GiB of restored bindings (DESIGN CHOICE, log 19). -/
def tenantGib : Nat := 2040

/-- The control blocks that firmware creates with a partition (R241): one for each queue, aligned, none before it runs. -/
def ctlOk (e : PartEntry) : Bool :=
  if e.state = 1 then e.ctl.length == e.queues && e.ctl.all (· % 64 == 0) && decide e.ctl.Nodup else e.ctl.isEmpty

/-- The fields of an entry in their ranges (R283, R105, R186, R241, R281, R292). -/
def entryOk (s : State) (e : PartEntry) : Bool :=
  decide (e.state ≤ 1) && e.quartets.all (fun q => decide (q < 24)) && decide e.quartets.Nodup
    && decide (1 ≤ e.quota) && decide (e.quota ≤ 2048) && decide (1 ≤ e.share) && decide (e.share ≤ 64)
    && decide (1 ≤ e.queues) && decide (e.queues ≤ 16) && e.ways != 0 && decide (e.ways < 2 ^ 16)
    && decide (e.pool + e.ctxMib ≤ 1024 * e.quota)
    && decide e.dies.Nodup && e.dies.all (fun d => decide (d < 16) && dieReady s d && !s.m.removed.getLsbD d) && ctlOk e
    && (e.state == 1 || (e.root1 == 0 && e.root2 == 0 && e.bitmap == 0))

/-- The sums of R284 with the other entries: shares but those of a partition in RESETTING, and quotas with their dirty
bitmaps (2 × 2 KiB for each GiB). -/
def sumsOk (s : State) (p : Nat) (e : PartEntry) : Bool :=
  let es := e :: (s.parts.filter fun (k, x) => k != p && x.e != emptyEntry).map fun (_, x) => x.e
  decide (((es.filter (·.state != 2)).map (·.share)).foldl (· + ·) 0 ≤ 64)
    && decide ((es.map fun x => x.quota * (2 ^ 30 + 4096)).foldl (· + ·) 0 ≤ tenantGib * 2 ^ 30)
    && (es.drop 1).all fun x => x.quartets.all fun q => !e.quartets.contains q

/-- Groups of a partition that are resident. -/
def residents (s : State) (p : Nat) : Bool := s.groups.any fun (_, g) => g.ident.part == p

/-- The L1s of a cluster after a partition's cores there have changed (R173): a core that joins takes the mode of those it
joins, and every copy is dropped, since lines are sliced over another number of cores. -/
def joinL1 (p : Nat) (old s : State) (cl : Nat) : State :=
  let before := clusterCores old p cl
  let cs := clusterCores s p cl
  if before = cs then s
  else
    let mode := match before.filter cs.contains with | c :: _ => (s.core c).fused | [] => false
    { cs.foldl (fun s c => s.setCore c { s.core c with fused := mode }) s with
      copies1 := s.copies1.filter fun c => !(cs ++ before).contains c.core }

/-- The pool of a partition holds nothing (R186). -/
def clearPool (s : State) (p : Nat) : State :=
  let mine := fun (space : Nat) => space != 0 && space / 4 == p
  { s with objs := s.objs.filter fun o => !mine o.space, prunes := s.prunes.filter fun o => !mine o.1 }

/-- A partition is released: its pages, slots and pool are no one's, and its root slots hold no reference. (DEDUCED, log 62) -/
def releasePart (s : State) (p : Nat) : State :=
  let s := (rootNamesOf s p).foldl (fun s (ns, n) => dropRef s (spaceOf p ns) n) s
  let free := fun (t : Tbl (BitVec 8)) => t.filter fun (_, v) => v.toNat != p
  let s := clearPool { s with
    reverse := s.reverse.filter fun (_, o) => o.1 != p, tlb := s.tlb.filter fun t => t.part != p
    rootPages := s.rootPages.filter (·.1 != p)
    copies1 := s.copies1.filter fun c => c.part != p
    dies := s.dies.map fun (d, x) => (d, { x with reqOwner := free x.reqOwner, rspOwner := free x.rspOwner }) } p
  s.setPart p {}

/-- The tables that an entry names are firmware's (R285, R293): every stage-2 leaf is legal under it, the reverse table follows,
and watched ranges are translated again after the TLBI (R279). -/
def installTables (s0 s : State) (p : Nat) : Option State :=
  if (leavesOf s p).all fun x => leafLegal s p x.1 x.2 then (relink s0 s p).map (retranslate · p) else none

/-- Firmware writes an entry of one of its states (R283, R289): FREE to prepared, FREE or prepared to ACTIVE, ACTIVE or
prepared changed, or an entry without launches released. A new partition draws its salts (R187). The quota of an ACTIVE
partition does not rise, since its dirty bitmaps never grow (R293). (DEDUCED, log 62) -/
def writePart (s : State) (p : Nat) (e : PartEntry) : State :=
  let x := s.part p
  let old := x.e
  let idle := !residents s p && !s.launches.any fun (_, l) => l.part == p
  if e = emptyEntry then (if old.state ≤ 1 && idle then releasePart s p else s)
  else if !entryOk s e || !sumsOk s p e || 1 < old.state || (old.state = 1 && (e.state = 0 || old.quota < e.quota)) then s
  else if !(old.quartets.all e.quartets.contains) && residents s p then s
  else
    let u := if e.root1 = old.root1 && e.root2 = old.root2 then s else { s with tlb := s.tlb.filter fun t => t.part != p }
    let t := if old.state = 0 && e.state = 1 then
        let salts := (List.range 3).map fun i => Config.randomSalt (s.free + i) % 2 ^ 256
        setStatus (clearPool { u with free := s.free + 3 } p) p { x with e := e, salts := salts, ready := true }
      else setStatus u p { x with e := e }
    match installTables s t p with
    | some t => (List.range 4).foldl (joinL1 p s) t
    | none => s

/-- PARTITION_WRITE (R283, R284, R289). -/
def execPartitionWrite (p : Nat) (e : PartEntry) (s : State) : Host.Outcome State Fault Refusal :=
  .next (if 24 ≤ p || s.m.stage != 6 then s else writePart s p e)

/-! ### The service ring -/

/-- The request at the ring's head, with its number: none when the entry is not served or the ring is empty. -/
def svcHead (s : State) (p : Nat) : Option (Nat × List Byte) :=
  let e := (s.part p).e
  if e.service = 0 then none
  else
    let tail := s.mem.num e.service 4
    let head := s.mem.num (e.service + 4) 4
    if tail = head then none else some (head, s.mem.bytes (e.service + 0x100 + 64 * (head % 256)) 64)

/-- The result, then the done word, then HEAD (R286). -/
def svcDone (s : State) (p head result : Nat) : State :=
  let a := (s.part p).e.service
  let r := a + 0x100 + 64 * (head % 256)
  { s with mem := (s.mem.putNum (r + 0x38) 8 (result + 2 ^ 32)).putNum (a + 4) 4 ((head + 1) % 2 ^ 32) }

/-- A field of a request. -/
def reqNum (b : List Byte) (o k : Nat) : Nat := natOfBytes ((b.drop o).take k)

/-- The states in which an opcode is valid (R287, R289, R290). After result 0x04 EXPORT may name a larger buffer, and STOP
be repeated (DESIGN CHOICE, log 20). -/
def svcStates (small : Bool) (op : Nat) : List Nat :=
  match op with
  | 1 | 2 | 3 | 4 => [1, 3]
  | 5 => [1, 3, 4]
  | 6 => if small then [1, 3, 4] else [1]
  | 7 => [3]
  | 8 => if small then [3, 4] else [3]
  | 9 => [3, 4]
  | _ => [0]

/-- Serves the request at the head if its opcode is `op` (R286, R287). `going`: it is in progress already. The body
gives a state, and the result once the request is complete. -/
def serve (op p : Nat) (going : Part → Bool) (body : List Byte → State → State × Option Nat) (s : State) : State :=
  match svcHead s p with
  | none => s
  | some (head, b) =>
    let x := s.part p
    if reqNum b 0 1 != op then s
    else if !going x && x.e.state = 0 && op != 10 then svcDone s p head 2
    else if !going x && reqNum b 1 3 != 0 then svcDone s p head 1
    else if !going x && !(svcStates x.small op).contains x.e.state then svcDone s p head 2
    else match body b s with
      | (s, some result) => svcDone s p head result
      | (s, none) => s

/-- SERVICE_UNKNOWN_OPCODE (R287): a prepared entry answers 0x02 (R289). -/
def execServiceUnknownOpcode (p : Nat) (s : State) : Host.Outcome State Fault Refusal :=
  .next (match svcHead s p with
    | none => s
    | some (head, b) =>
      let op := reqNum b 0 1
      if 1 ≤ op && op ≤ 10 then s else svcDone s p head (if (s.part p).e.state = 0 then 2 else 1))

/-- KILL (R287, R280): done once the launch has stored its word. -/
def execKill (p : Nat) (s : State) : Host.Outcome State Fault Refusal :=
  .next (serve 1 p (·.killing.isSome) (fun b s =>
    match (s.part p).killing with
    | some lid =>
      let id := reqNum b 4 4
      if (Tbl.look s.launches lid).isSome || ((s.part p).words.any fun (_, w, _) => (w.extractLsb' 0 32).toNat == id) then (sweep s, none)
      else (s.setPart p { s.part p with killing := none }, some 0)
    | none => match findLaunch s p (reqNum b 4 4) with
      | none => (s, some 3)
      | some lid =>
        let s := sweep (killLaunch s lid 0x80)
        (s.setPart p { s.part p with killing := some lid }, none)) s)

/-- PREEMPT (R287, R272): `cores` is firmware's choice among the cores on which the launch has resident teams; done when
they are vacated. -/
def execServicePreempt (p : Nat) (cores : List Nat) (s : State) : Host.Outcome State Fault Refusal :=
  .next (serve 2 p (·.vacate.isSome) (fun b s =>
    match (s.part p).vacate with
    | some lid =>
      if (Tbl.look s.launches lid).isSome && !(stillVacating s lid).isEmpty then (s, none)
      else (s.setPart p { s.part p with vacate := none }, some 0)
    | none => match findLaunch s p (reqNum b 4 4) with
      | none => (s, some 3)
      | some lid =>
        let n := reqNum b 8 8
        let mine := coresOf s lid
        if n = 0 then (s, some 3)
        else if !decide cores.Nodup || !cores.all mine.contains || cores.length != min n mine.length then (s, none)
        else
          let s := vacate s lid cores
          (s.setPart p { s.part p with vacate := some lid }, none)) s)

/-- QRESET (R287): HEAD := TAIL in the control block, and the fault bit cleared. (DEDUCED, log 61) -/
def execQreset (p : Nat) (s : State) : Host.Outcome State Fault Refusal :=
  .next (serve 3 p (fun _ => false) (fun b s =>
    let q := reqNum b 8 8
    let x := s.part p
    match (if q < x.e.queues then x.e.ctl[q]? else none) with
    | none => (s, some 3)
    | some va => match readPrivate s p va 64 with
      | .error t => if t.stage2 then (mgmtWait s p 16 t, none) else (s, some 3)
      | .ok (s, cb) =>
        let s := mgmtStore (keepRecord s p q none) p (va + 8) (cb.take 4)
        let x := s.part p
        (setStatus s p { x with qfault := x.qfault &&& ~~~(BitVec.ofNat 16 (2 ^ q)) }, some 0)) s)

/-- WATCH (R287, R279): the entry is written, and its range translated. -/
def execServiceWatch (p : Nat) (s : State) : Host.Outcome State Fault Refusal :=
  .next (serve 4 p (fun _ => false) (fun b s =>
    let k := reqNum b 8 8
    let w := b.drop 0x18
    let n := reqNum w
    let ok := decide (k < 16) && n 0 8 % 128 == 0 && n 8 4 % 128 == 0 && decide (128 ≤ n 8 4) && decide (n 8 4 ≤ 2 ^ 24)
      && decide (n 0xC 1 < 64) && decide (n 0xD 1 < 2)
    if n 0xE 2 != 0 || n 0x18 8 != 0 then (s, some 1)
    else if !ok then (s, some 3)
    else
      let x := s.part p
      let e : WatchE := ⟨n 0 8, n 8 4, BitVec.ofNat 8 (n 0xC 1), n 0xD 1 == 1, n 0x10 4, n 0x14 4, watchSpans s p (n 0 8) (n 8 4), none⟩
      (s.setPart p { x with watch := Tbl.set x.watch k e }, some 0)) s)

/-! ### The end of an export -/

/-- Held writes are applied in arrival order (R295). -/
def applyHeld (s : State) (p : Nat) : State :=
  let x := s.part p
  x.held.foldl (fun s h => match h.modno with
    | none => outsideStore s 5 0 h.pa h.bytes
    | some m => outsideStore s 4 m h.pa h.bytes) (s.setPart p { x with held := [] })

/-- The end of an export as by RESUME (R287, R295): the partition is ACTIVE, nothing is marked any more. -/
def endExport (s : State) (p : Nat) : State :=
  let x := s.part p
  let s := s.setPart p { x with e := { x.e with state := 1 }, exportAt := none, stopping := false, small := false, rounds := 0 }
  let s := applyHeld s p
  setStatus s p (s.part p)

/-- RESUME (R287): not once the export has been restored elsewhere. -/
def execResume (p : Nat) (s : State) : Host.Outcome State Fault Refusal :=
  .next (serve 9 p (fun _ => false) (fun _ s =>
    if (s.part p).refuse || (s.part p).exportAt.isNone then (s, some 2) else (endExport s p, some 0)) s)

/-! ### Function-level reset (R290) -/

/-- A partition's layer operations are cancelled in every die (R290 step 2): their products go on for no one. -/
def cancelArrops (s : State) (p : Nat) : State :=
  let mine := s.arrops.filter fun (_, o) => o.part == p
  let s := mine.foldl (fun s (id, _) => orphan s id) s
  { s with arrops := s.arrops.map fun (k, o) => (k, if o.part == p then { o with cancelled := true, record := none } else o) }

/-- Steps 1 to 5. An export still open ends first; of one that has completed elsewhere the held writes are refused (R295).
(DEDUCED, log 60) -/
def flrBegin (s : State) (p : Nat) : State :=
  let x := s.part p
  let s := if x.exportAt.isSome && !x.refuse then endExport s p else s
  let x := s.part p
  let s := setStatus s p { x with e := { x.e with state := 2 }, ready := false, watch := [], vacate := none, killing := none
                                  held := [], exportAt := none, stopping := false, small := false }
  let s := cancelArrops { s with tlb := s.tlb.filter fun t => t.part != p } p
  let s := (s.launches.filter fun (_, l) => l.part == p).foldl (fun s (k, _) => killLaunch s k 0x80) s
  let gone := s.copies.filter fun (_, y) => y.part == p && decide (y.tw ≤ s.m.ftime) && y.st != .done
  let couts := gone.filterMap fun (_, y) => if y.isCopy then none else some (y.gid, y.seq)
  sweep { s with
    copies := s.copies.filter fun (k, _) => !gone.any (·.1 == k)
    thops := s.thops.filter fun (_, o) => !couts.contains (o.gid, o.seq) }

/-- The control block of a queue, empty, with its ring kept (R290 step 7). -/
def emptyBlock (cb : List Byte) : List Byte := List.replicate 12 0 ++ (cb.drop 12).take 12 ++ List.replicate 40 0

/-- Steps 6 and 7: every page of the partition is zeroed with its pool, its contexts and its dirty bitmaps, the references of
its root slots are dropped, and its control blocks are rewritten empty. -/
def flrEnd (s : State) (p : Nat) : State :=
  let x := s.part p
  let blocks := x.e.ctl.filterMap fun va => match translate s p va false false with
    | .ok (_, e) => (match e.place va with | .pa a _ _ => some (a, emptyBlock (s.mem.bytes a 64)) | _ => none)
    | .error _ => none
  let s := (rootNamesOf s p).foldl (fun s (ns, n) => dropRef s (spaceOf p ns) n) s
  let pages := s.reverse.filter fun (_, o) => o.1 == p
  let m := pages.foldl (fun (m : Mem) (c : Nat × (Nat × Nat)) => m.clear (65536 * c.1) 65536) s.mem
  let m := if x.e.bitmap = 0 then m else m.clear x.e.bitmap (4096 * x.e.quota)
  let m := blocks.foldl (fun (m : Mem) (c : Nat × List Byte) => m.store c.1 c.2) m
  let s := clearPool { s with
    mem := m, tlb := s.tlb.filter fun t => t.part != p, rootPages := s.rootPages.filter (·.1 != p), copies1 := s.copies1.filter fun c => c.part != p
    contexts := s.contexts.filter fun c => c.part != p } p
  setStatus s p { e := { x.e with state := 1 }, ready := true, split := x.split, salts := x.salts, windows := x.windows
                  collisions := x.collisions, lostWords := x.lostWords }

/-- FLR (R290): done once every launch has been killed and every page zeroed. -/
def execFlr (p : Nat) (s : State) : Host.Outcome State Fault Refusal :=
  .next (serve 5 p (·.e.state == 2) (fun _ s =>
    if (s.part p).e.state != 2 then (flrBegin s p, none)
    else
      let s := sweep s
      if (s.launches.any fun (_, l) => l.part == p) || !(s.part p).words.isEmpty then (s, none)
      else (flrEnd s p, some 0)) s)

/-! ### Rounds (R294, R460) -/

def findExport (s : State) (addr : Nat) : Option Export := s.exports.find? fun e => e.addr == addr

/-- Bytes of the buffer that pages take: each with its intermediate address (DESIGN CHOICE, log 20). -/
def pagesSize (pages : List (Nat × List Byte)) : Nat := 65544 * pages.length

/-- Every bit of a partition's active bitmap is set (R294). -/
def markAll (s : State) (p : Nat) : State :=
  let x := s.part p
  { s with mem := s.mem.store (x.bitmap true) (List.replicate (2048 * x.e.quota) 0xFF) }

/-- Page `n` is marked in a dirty bitmap that lies at `a` (R293). -/
def marked (m : Mem) (a n : Nat) : Bool := (m.read (a + n / 8)).getLsbD (n % 8)

/-- The local pages of a partition that its active bitmap marks (R294). -/
def markedPages (s : State) (p : Nat) : List (Nat × Nat) :=
  (localPages s p).filter fun (n, _) => marked s.mem ((s.part p).bitmap true) n

/-- The old bitmap of a round keeps the marks of pages that are mapped (R460). -/
def keepMarks (x : Part) (pages : List (Nat × Nat)) (m : Mem) : Mem :=
  let a := x.bitmap true
  pages.foldl (fun (m : Mem) (c : Nat × Nat) => m.write (a + c.1 / 8) (m.read (a + c.1 / 8) ||| BitVec.ofNat 8 (2 ^ (c.1 % 8))))
    (m.clear a (2048 * x.e.quota))

/-- A round (R294): the bitmaps are exchanged, the new one zero, every mapped page that the old one marks is copied, the mark
of an unmapped one is cleared (R460), and ROUND rises; none when the buffer cannot hold the pages, whose marks then stand
(DESIGN CHOICE, log 20). -/
def copyRound (s : State) (p : Nat) : Option State :=
  let x := s.part p
  match x.exportAt with
  | none => none
  | some (addr, len) =>
    match findExport s addr with
    | none => none
    | some ex =>
      let now := markedPages s p
      let pages := (ex.pages.filter fun (n, _) => !now.any (·.1 == n)) ++ now.map fun (n, pg) => (n, s.mem.bytes (65536 * pg) 65536)
      if len < pagesSize pages then none
      else
        let s := { s with mem := (keepMarks x now s.mem).clear (x.bitmap false) (2048 * x.e.quota) }
        some (setStatus (putExport s { ex with pages := pages }) p { x with rounds := (x.rounds + 1) % 256 })

/-- A round as a request makes it: result 0x04 leaves the export going on (R287). -/
def roundDone (s : State) (p : Nat) : State × Option Nat :=
  match copyRound s p with
  | some s => (s.setPart p { s.part p with small := (s.part p).e.state == 4 }, some 0)
  | none => (s.setPart p { s.part p with small := true }, some 4)

/-- EXPORT (R294): every bit is set, and one round is made, into a new buffer where one was too small (R287). -/
def execExportPart (p : Nat) (s : State) : Host.Outcome State Fault Refusal :=
  .next (serve 6 p (fun _ => false) (fun b s =>
    let (addr, len) := (reqNum b 8 8, reqNum b 16 8)
    let x := s.part p
    let s := putExport s { addr := addr, len := len, part := p }
    let x' := if x.e.state = 1 then { x with e := { x.e with state := 3 }, rounds := 0, refuse := false } else x
    roundDone (markAll (setStatus s p { x' with exportAt := some (addr, len) }) p) p) s)

/-- ROUND (R294). -/
def execRound (p : Nat) (s : State) : Host.Outcome State Fault Refusal :=
  .next (serve 7 p (fun _ => false) (fun _ s => roundDone s p) s)

/-! ### STOP (R295, R296) -/

/-- SHA-384 of a binding's exponent arrays (R296). -/
def expHash (s : State) (b : BindE) : Nat := Sha.sha384 (s.mem.bytes b.colE b.dout ++ s.mem.bytes b.rowE b.din)

/-- The level of an object (R190, R462): a leaf's is 0. -/
def Obj.level (o : Obj) : Nat := if o.twig then twigLevel o.bytes else 0

/-- The names reachable from a name, itself first: twigs to their children (R296), each with its namespace and level. -/
def reach (s : State) (p ns : Nat) : Nat → Nat → List (Nat × Nat × Nat)
  | 0, _ => []
  | n + 1, name =>
    match findObj s (spaceOf p ns) name with
    | none => []
    | some o => (name, ns, o.level) :: if o.twig then (twigKids o.bytes).flatMap (reach s p ns n) else []

/-- Names held by root slots, pins and holds of a stopped partition. -/
def heldNames (s : State) (p : Nat) : List (Nat × Nat) :=
  let ns := fun (space : Nat) => if space = 0 then 0 else space % 4
  rootNamesOf s p ++ (s.contexts.filter (·.part == p)).flatMap fun c => match c.t with
    | some t => (t.pins.map fun (a, n) => (ns a, n)) ++ t.holds.map fun (a, n, _) => (ns a, n)
    | none => []

/-- The records of a queue that have not been consumed (R242, R296), from its control block. -/
def unconsumed (read : Nat → Nat → List Byte) (cb : List Byte) : List (List Byte) :=
  let n := fun (o k : Nat) => natOfBytes ((cb.drop o).take k)
  let count := (n 0 4 + 2 ^ 32 - n 8 4) % 2 ^ 32
  if n 12 4 < count then [] else (List.range count).map fun i => read (n 0x10 8 + 128 * ((n 8 4 + i) % n 12 4)) 128

/-- The final transfer (R296). -/
def finalTransfer (s : State) (p : Nat) (ex : Export) : Export :=
  let x := s.part p
  let launches := (s.launches.filter fun (_, l) => l.part == p).map (·.2)
  let read := fun (va n : Nat) => match readPrivate s p va n with | .ok (_, b) => b | .error _ => []
  { ex with
    final := true, quota := x.e.quota, pool := x.e.pool, ctxMib := x.e.ctxMib, share := x.e.share
    ways := ((List.range 16).filter (bitN x.e.ways)).length, alloc0 := x.e.alloc0, salts := x.salts
    providerHash := Sha.sha384 (bytesOfNat 32 s.m.providerSalt), root1 := x.e.root1
    maps := (leavesOf s p).map fun (ia, l) => ⟨ia, l.size != 65536, l.w, l.x, if l.remote then some l.final else none⟩
    launches := launches, contexts := s.contexts.filter (·.part == p), history := x.history, ctl := x.e.ctl
    queues := x.e.ctl.map fun va => read va 64, records := x.e.ctl.map fun va => unconsumed read (read va 64)
    binds := (s.binds.filter fun (_, b) => b.published && b.grant.getLsbD p).map fun (n, b) =>
      ⟨n, b.root, b.din, b.dout, b.j, expHash s b⟩
    names := ((heldNames s p).flatMap fun (ns, n) => reach s p ns 8 n).dedup
    roots := (s.rootPages.filter (·.1 == p)).map (·.2) }

/-- Nothing of a stopping partition runs any more: every team is saved or over, and no launch is about to complete. -/
def stopped (s : State) (p : Nat) : Bool :=
  !residents s p && (s.part p).words.isEmpty
    && s.launches.all fun (_, l) => l.part != p || (l.live.isEmpty && !l.toStart.isEmpty && l.killed.isNone)

/-- STOP (R295, R296): every resident team is pre-empted; after the last save, the final round and the final transfer. -/
def execStop (p : Nat) (s : State) : Host.Outcome State Fault Refusal :=
  .next (serve 8 p (·.stopping) (fun _ s =>
    let x := s.part p
    if !x.stopping then
      let s := setStatus s p { x with e := { x.e with state := 4 }, stopping := true }
      ((s.launches.filter fun (_, l) => l.part == p).foldl (fun s (k, _) => vacate s k (coresOf s k)) s, none)
    else
      let s := sweep s
      if !stopped s p then (s, none)
      else
        let fin := fun (s : State) (small : Bool) => s.setPart p { s.part p with stopping := false, small := small }
        match copyRound s p with
        | none => (fin s true, some 4)
        | some s => match (s.part p).exportAt.bind fun a => findExport s a.1 with
          | none => (fin s true, some 4)
          | some ex => (fin (putExport s (finalTransfer s p ex)) false, some 0)) s)

/-! ### RESTORE (R297, R206, R462) -/

/-- A name in a namespace is held here already (R206). -/
def holdsName (s : State) (p : Nat) (x : Nat × Nat × Nat) : Bool := (findObj s (spaceOf p x.2.1) x.1).isSome

/-- A listed local page is aligned and lies below the quota of its partition (R260, R293). -/
def MapE.fits (e : MapE) (quota : Nat) : Bool :=
  let size := if e.big then 2 ^ 25 else 65536
  e.ia % size == 0 && (e.remote.isSome || decide (e.ia + size ≤ 2 ^ 30 * quota))

/-- An export is well formed, of format version 1 and complete in `len` bytes (R297). (DESIGN CHOICE, log 20) -/
def Export.ok (ex : Export) (len : Nat) : Bool :=
  ex.final && ex.version == 1 && ex.salts.length == 3 && decide (pagesSize ex.pages ≤ len) && decide (ex.pages.map (·.1)).Nodup
    && ex.pages.all (fun x => x.2.length == 65536) && ex.ctl.all (· % 64 == 0) && ex.maps.all (·.fits ex.quota)
    && ex.contexts.all fun c => (match c.g with | some g => decide g.win.wf | none => true)
      && (match c.t with | some t => decide t.sp.wf | none => true)

/-- The engines of a partition's quartets can grant the saved reservations, all together (R163, R297). -/
def resvsFit (s : State) (cores : List Nat) (ex : Export) : Bool :=
  (ex.contexts.foldl (fun (o : Option State) c => o.bind fun s =>
    if c.resv.isNone then some s
    else do
      let i ← ex.launches.findIdx? fun l => l.r.id == c.launch
      let l ← ex.launches[i]?
      let core ← homeCore (seatsOf cores l.r.spread) l.r.spread l.r.lcores c.team
      if resvRoom s core (s.nextId + i) l.r.passLen c then
        some (restoreResv s core (s.nextId + c.team) (s.nextId + i) (l.r.passLen, []) c)
      else none) (some s)).isSome

/-- Checks 0x10 to 0x17 (R297): the code of the first that fails. -/
def restoreCheck (s : State) (p len : Nat) (ex : Export) : Option Nat :=
  let e := (s.part p).e
  let cores := partCores s p
  let mine := fun (b : ExpBind) => s.bind b.bind
  let bindOk := fun (b : ExpBind) =>
    let x := mine b
    x.published && x.grant.getLsbD p && x.root == b.root && x.din == b.din && x.dout == b.dout && x.j == b.j && expHash s x == b.exps
  ([ (ex.ok len, 0x10),
     (ex.providerHash == Sha.sha384 (bytesOfNat 32 s.m.providerSalt), 0x11),
     (decide (ex.quota ≤ e.quota) && decide (ex.pool ≤ e.pool) && decide (ex.ctxMib ≤ e.ctxMib), 0x12),
     (ex.launches.all fun l => decide (l.r.lcores ≤ 8 * cores.length), 0x13),
     (ex.launches.all fun l => !(seatsOf cores l.r.spread).isEmpty, 0x14),
     (ex.binds.all bindOk, 0x15),
     (ex.binds.all fun b => (diesOf (mine b).dies).all e.dies.contains, 0x16),
     (resvsFit s cores ex, 0x17) ].find? fun c => !c.1).map (·.2)

/-- Checks 0x19 and 0x1A: the pools hold every missing object, and no group is resident. (DEDUCED, log 59) -/
def restoreCheck2 (s : State) (p : Nat) (ex : Export) : Option Nat :=
  let miss := ex.names.filter fun x => !holdsName s p x
  let own := (miss.filter fun x => x.2.1 != 0).length
  let shared := (miss.filter fun x => x.2.1 == 0).length
  let busy := s.groups.any fun (_, g) => (partCores s p).contains g.ident.core
  if poolCap s (4 * p + 1) < poolUsed s (4 * p + 1) + own || (shared != 0 && poolCap s 0 < poolUsed s 0 + shared) then some 0x19
  else if busy then some 0x1A else none

/-- Pages that firmware may take for a restore: distinct, mapped nowhere and not retired. -/
def pagesFree (s : State) (pages : List Nat) : Bool :=
  decide pages.Nodup && pages.all fun n => decide (n < 2 ^ 25) && (Tbl.look s.reverse n).isNone && !s.m.retiredPages.contains n

/-- Sets a stage-2 leaf, taking a page for each table that is missing on the way (R260): memory and pages left. -/
def setLeaf2 (ia word level : Nat) : Nat → Nat → Mem → List Nat → Option (Mem × List Nat)
  | 0, _, _, _ => none
  | l + 1, table, m, pages =>
    let a := table + 8 * (ia / 2 ^ (16 + 9 * l) % 512)
    if l = level then some (m.putNum a 8 word, pages)
    else
      let e := m.num a 8
      if bitN e 0 then setLeaf2 ia word level l (bitsN e 16 36 * 65536) m pages
      else match pages with
        | [] => none
        | n :: rest => setLeaf2 ia word level l (65536 * n) ((m.clear (65536 * n) 65536).putNum a 8 (65536 * n + 1)) rest

/-- The word of a stage-2 leaf (R261). -/
def leafWord (e : MapE) (page : Nat) : Nat :=
  let b := fun (x : Bool) (k : Nat) => if x then 2 ^ k else 0
  3 + b e.w 2 + b e.x 3 + (match e.remote with
    | some a => 2 ^ 8 + a % 2 ^ 46 / 65536 * 65536 + a / 2 ^ 46 * 2 ^ 52
    | none => 65536 * page)

/-- Maps the listed pages (R297 steps 1 and 2): a 32 MiB leaf takes an aligned run of 512 pages, named by its first. -/
def mapAll (p root : Nat) : List MapE → Mem → Tbl (Nat × Nat) → List Nat → Option (Mem × Tbl (Nat × Nat) × List Nat)
  | [], m, rev, pages => some (m, rev, pages)
  | e :: es, m, rev, pages =>
    let level := if e.big then 1 else 0
    let count := if e.big then 512 else 1
    let taken : Option (Nat × List Nat) := match e.remote, pages with
      | some _, ps => some (0, ps)
      | none, n :: _ => if n % count = 0 && (List.range count).all fun i => pages.contains (n + i) then
          some (n, pages.filter fun x => !(decide (n ≤ x) && decide (x < n + count))) else none
      | none, [] => none
    match taken with
    | none => none
    | some (n, pages) =>
      match setLeaf2 e.ia (leafWord e n) level 4 root m pages with
      | none => none
      | some (m, pages) =>
        let rev := if e.remote.isSome then rev
          else (List.range count).foldl (fun t i => Tbl.set t (n + i) (p, e.ia / 65536 + i)) rev
        mapAll p root es m rev pages

/-- References taken `k` times. -/
def addRefs (space name : Nat) : Nat → State → State
  | 0, s => s
  | k + 1, s => addRefs space name k (addRef s space name)

/-- The objects that arrived are installed in ascending level (R462), each of a higher collision index counted (R197), a
twig counting on its children; then root slots, pins and holds count (R206). -/
def installObjs (s : State) (p : Nat) (ex : Export) : State :=
  let names := sortBy (fun a b => decide (a.2.2 ≤ b.2.2)) (ex.names.filter fun x => !holdsName s p x)
  let new := names.filterMap fun (n, ns, lv) =>
    (((s.part p).fetched.find? fun f => f.1 == n)).map fun f => (⟨spaceOf p ns, n, lv != 0, f.2, 0⟩ : Obj)
  let s := { s with objs := s.objs ++ new }
  let s := new.foldl (fun s o => if o.name % 16 = 0 then s else countCollision s o.space) s
  let s := new.foldl (fun s o => if o.twig then (twigKids o.bytes).foldl (fun s k => addRef s o.space k) s else s) s
  let s := (rootNamesOf s p).foldl (fun s (ns, n) => addRef s (spaceOf p ns) n) s
  (ex.contexts.map fun (c : Saved) => c.moveTo p).foldl (fun s c => match c.t with
    | some t => t.holds.foldl (fun s (a, n, k) => addRefs a n k s) (t.pins.foldl (fun s (a, n) => addRef s a n) s)
    | none => s) s

/-- A source on this module whose export has been restored has lost it (R295, R296). -/
def closeSource (s : State) (ex : Export) (p : Nat) : State :=
  let x := s.part ex.part
  if ex.part != p && x.e.state == 4 && (x.exportAt.map (·.1)) == some ex.addr then
    s.setPart ex.part { x with refuse := true, held := [] }
  else s

/-- A partition's launches under new numbers. -/
def installLaunches (p : Nat) : List Launch → State → State
  | [], s => s
  | l :: ls, s =>
    let (lid, s) := s.fresh
    installLaunches p ls (s.setLaunch lid { l with
      part := p, order := lid, live := [], since := none, vacating := [], leaving := [], lref := none
      toStart := l.toStart.map fun (t, r) => (t, r || (s.contexts.any fun c => c.part == p && c.launch == l.r.id && c.team == t)) })

/-- The slot of a link in a direction becomes a partition's (R119, R289). -/
def giveSlot (p : Nat) (s : State) (x : Nat × Bool × Nat) : State :=
  let (port, response, slot) := x
  let d := s.die port
  let v := BitVec.ofNat 8 p
  s.setDie port (if response then { d with rspOwner := Tbl.put 31 d.rspOwner slot v }
    else { d with reqOwner := Tbl.put 31 d.reqOwner slot v })

/-- Slots that firmware may assign to a restored partition: no partition's. -/
def slotsFree (s : State) (slots : List (Nat × Bool × Nat)) : Bool :=
  slots.all fun (port, response, slot) => decide (port < 16) && decide (slot < 256)
    && decide (24 ≤ slotOwner (if response then (s.die port).rspOwner else (s.die port).reqOwner) slot)

/-- The contents of restored pages: those of the export, zero for a page that it does not hold (R297 step 4). -/
def fillPages (s : State) (p : Nat) (ex : Export) : State :=
  { s with mem := (localPages s p).foldl (fun (m : Mem) (n, pg) =>
      let m := m.clear (65536 * pg) 65536
      match ex.pages.find? (·.1 == n) with | some (_, bs) => m.store (65536 * pg) bs | none => m) s.mem }

/-- Installs a restore (R297): `pages` are firmware's choice: the root of stage 2, the run of pages for the dirty bitmaps,
then pages for the listed leaves and for tables; `slots` are the link slots assigned to the entry. None when they do not do. -/
def installRestore (s : State) (p : Nat) (ex : Export) (pages : List Nat) (slots : List (Nat × Bool × Nat)) : Option State :=
  let x := s.part p
  let k := ceilDiv (4096 * x.e.quota) 65536
  match pages with
  | root :: bits :: rest =>
    if !pagesFree s pages || !slotsFree s slots || (bits :: rest).take k != (List.range k).map (bits + ·) then none
    else match mapAll p (65536 * root) ex.maps (s.mem.clear (65536 * root) 65536) s.reverse ((bits :: rest).drop k) with
      | none => none
      | some (m, rev, _) =>
        let e := { x.e with state := 1, root1 := ex.root1, root2 := 65536 * root, bitmap := 65536 * bits, ctl := ex.ctl }
        let s := { s with
          mem := m, reverse := rev, tlb := s.tlb.filter fun t => t.part != p
          rootPages := (s.rootPages.filter fun (c : Nat × Nat) => c.1 != p) ++ ex.roots.map fun n => (p, n)
          contexts := s.contexts ++ ex.contexts.map fun (c : Saved) => c.moveTo p
          bodies := s.bodies ++ ex.contexts.map fun (c : Saved) => (c.image.drop 96, c) }
        let s := fillPages (s.setPart p { x with e := e, salts := ex.salts, history := ex.history }) p ex
        let s := slots.foldl (giveSlot p) (closeSource (installLaunches p ex.launches (installObjs s p ex)) ex p)
        some (setStatus s p { s.part p with ready := true, rounds := 0, restoring := none, fetched := [], tries := [], asked := [] })
  | _ => none

/-- A restore is refused (R289, R297): the entry is FREE again, its prepared fields stand. -/
def refuseRestore (s : State) (p code : Nat) : State × Option Nat :=
  let x := s.part p
  let s := { s with shards := s.shards.filter fun y => y.part != some p }
  (setStatus s p { x with e := { x.e with state := 0 }, restoring := none, fetched := [], tries := [], asked := [] }, some code)

/-- Every child of a twig that has arrived is held here or has arrived (R462). -/
def kidsHere (s : State) (p : Nat) (ex : Export) : Bool :=
  ex.names.all fun (n, ns, lv) => lv == 0 || match (s.part p).fetched.find? fun f => f.1 == n with
    | some f => (twigKids f.2).all fun k => (findObj s (spaceOf p ns) k).isSome
        || ex.names.any fun x => x.1 == k && x.2.1 == ns && (s.part p).fetched.any fun f => f.1 == k
    | none => true

/-- The next act of a restore that has passed 0x17: what is missing is asked for, then check 0x18 and the rest. An export that
leaves out a child of a twig it names is not well formed (DESIGN CHOICE, log 80). -/
def restoreGo (s : State) (p : Nat) (ex : Export) (pages : List Nat) (slots : List (Nat × Bool × Nat)) : State × Option Nat :=
  let x := s.part p
  let miss := (ex.names.filter fun n => !holdsName s p n && !x.fetched.any fun f => f.1 == n.1).map (·.1)
  if miss.any fun n => (Tbl.look x.tries n).isSome then refuseRestore s p 0x18
  else if !miss.isEmpty then (miss.dedup.foldl (askShard (some p)) s, none)
  else if !kidsHere s p ex then refuseRestore s p 0x10
  else match restoreCheck2 s p ex with
    | some code => refuseRestore s p code
    | none => match installRestore s p ex pages slots with
      | some s => (s, some 0)
      | none => (s, none)

/-- RESTORE (R287, R289, R297), in as many events as its deliveries take. -/
def execRestore (p : Nat) (place : RestorePlace) (s : State) : Host.Outcome State Fault Refusal :=
  .next (serve 10 p (·.restoring.isSome) (fun b s =>
    let x := s.part p
    match x.restoring with
    | some ex => restoreGo s p ex place.pages place.slots
    | none => match findExport s (reqNum b 8 8) with
      | none => (s, some 0x10)
      | some ex => match restoreCheck s p (reqNum b 16 8) ex with
        | some code => (s, some code)
        | none => restoreGo (setStatus s p { x with e := { x.e with state := 5 }, restoring := some ex }) p ex place.pages place.slots) s)

end Sys2Proof.Machine
end

