-- ==== Sys2Proof/Machine/Thicket.lean ====
section
/-!
DEFINITION. The thicket instructions (opcodes 0xD0 to 0xD7; R198 to R202, R344 to R349, R353, R356, R427 to R430) and the
steps of the thicket units.
-/

namespace Sys2Proof.Machine

/-- The namespace of a thicket word (R344, R427). -/
def thNs (f : Fields) : Nat := f.extN 0 2

/-- The address a scalar operand holds. -/
def addrOf (g : Group) (o : Opd) : Nat := (scalOf g o).toNat

/-- A name in three consecutive scalars (R189). -/
def nameIn (g : Group) (o : Opd) : Nat :=
  match o with
  | .s n => (g.scal n.val).toNat + 2 ^ 64 * (g.scal (n.val + 1)).toNat + 2 ^ 128 * (g.scal (n.val + 2)).toNat
  | _ => 0

/-! ### Issue of the asynchronous operations -/

/-- Puts a thicket operation in flight: TH rises by one and the group's next sequence value is taken (R214, R344). -/
def issueTh (c : Ctx) (kind : ThKind) (src dst n : Nat) (s : State) : Except Stop State := do
  guardW (decide ((c.g s).csr.th < 255))
  let (seq, s) := nextSeq s c.gid
  let (id, s) := s.fresh
  let g := c.g s
  let o : ThOp := { gid := c.gid, tid := g.ident.tid, part := g.ident.part, seq := seq, kind := kind, ns := thNs c.f
                    src := src, dst := dst, n := n, unit := State.cluster g.ident.core }
  let s := { s with thops := Tbl.set s.thops id o }
  return s.setGroup c.gid { g with csr := { g.csr with th := g.csr.th + 1 } }

/-- PROT 0x502: allocation in namespace 0 without ALLOC0 (R187, R201). -/
def guardAlloc (c : Ctx) (s : State) : Except Stop Unit :=
  guardN (thNs c.f != 0 || (s.part (c.g s).ident.part).e.alloc0) Cause.prot 0x502

/-- The item count n, immediate or scalar: PROT 0x505 outside 1 to 64 (R201, R344). -/
def thCount (c : Ctx) (g : Group) : Except Stop Nat := do
  let n := if c.f.x.getLsbD 2 then addrOf g c.f.c else c.f.c.code.toNat
  guardN (decide (1 ≤ n) && decide (n ≤ 64)) Cause.prot 0x505
  return n

/-- Two scratchpad ranges meet, as addresses or where they point. -/
def spMeets (s : State) (tid a n b m : Nat) : Bool :=
  overlaps a n b m || (match spadPlace s tid a, spadPlace s tid b with
    | some (t, x), some (u, y) => t == u && overlaps x n y m
    | _, _ => false)

/-- Alignment and range of a scratchpad operand (R166, R201). -/
def spOperands (s : State) (tid : Nat) (l : List (Nat × Nat × Nat)) : Except Stop Unit := do
  guardAligns (l.map fun (a, al, _) => (a, al))
  l.foldl (fun r (a, _, n) => r.bind fun _ => (spad64 s tid (BitVec.ofNat 64 a) n).map fun _ => ()) (.ok ())

/-- CNAM, CLOA and CGET at issue (R198, R344 to R346, R348). -/
def thBatch (i : Instr) (f : Fields) (kind : ThKind) (s : State) : Host.Outcome State Fault Refusal :=
  issueGroup i f (fun c s => do
    let g := c.g s
    let tid := g.ident.tid
    if kind == .cloa then guardAlloc c s
    scalReady g [if f.x.getLsbD 2 then f.c else .zero]
    let n ← thCount c g
    scalReady g [f.a, f.b]
    let sa := addrOf g f.a
    let sd := addrOf g f.b
    match kind with
    | .cget => spOperands s tid [(sa, 8, 24 * n), (sd, 64, 256 * n)]
    | .cloa =>
      guardN (!spMeets s tid sa (256 * n) sd (24 * n + 8)) Cause.prot 0x506
      spOperands s tid [(sa, 64, 256 * n), (sd, 8, 24 * n + 8)]
    | _ => spOperands s tid [(sa, 64, 256 * n), (sd, 8, 24 * n)]
    issueTh c kind sa sd n s) s

/-- CNAM (R348). -/
def execCnam (f : Fields) (s : State) : Host.Outcome State Fault Refusal := thBatch (.cnam f) f .cnam s
/-- CLOA (R346). -/
def execCloa (f : Fields) (s : State) : Host.Outcome State Fault Refusal := thBatch (.cloa f) f .cloa s
/-- CGET (R345). -/
def execCget (f : Fields) (s : State) : Host.Outcome State Fault Refusal := thBatch (.cget f) f .cget s

/-- CTWG (R356). -/
def execCtwg (f : Fields) (s : State) : Host.Outcome State Fault Refusal :=
  issueGroup (.ctwg f) f (fun c s => do
    let g := c.g s
    guardAlloc c s
    scalReady g [f.a, f.b]
    let (sa, sd) := (addrOf g f.a, addrOf g f.b)
    spOperands s g.ident.tid [(sa, 64, 256), (sd, 8, 32)]
    issueTh c .ctwg sa sd 1 s) s

/-- COUT (R349). In deterministic mode the destination is checked over the size of the object that the name in scratchpad
names at issue (R256), and again where an older operation changes that name. -/
def execCout (f : Fields) (s : State) : Host.Outcome State Fault Refusal :=
  issueGroup (.cout f) f (fun c s => do
    let g := c.g s
    guardPolicy c g [{ o := f.a }, { o := f.b }]
    scalReady g [f.a, f.b]
    let (sa, va) := (addrOf g f.a, addrOf g f.b)
    guardAligns [(sa, 8), (va, 64)]
    let (t, off) ← spad64 s g.ident.tid (BitVec.ofNat 64 sa) 24
    let size := match findObj s (spaceOf g.ident.part (thNs f)) (spNum s t off 24) with | some o => o.size | none => 1
    detCheck s g .copy va size
    let pol := policy g f
    issueTh c .cout sa va pol.toNat s) s

/-! ### Their items (R196 to R198, R201, R202) -/

/-- A fault ends an operation where it stands (R201). -/
def thFault (s : State) (id : Nat) (o : ThOp) (cause tval : Nat) : State :=
  pushFault { s with thops := Tbl.set s.thops id { o with done := true } } o.gid o.tid
    { cls := .th, cause := cause, tval := BitVec.ofNat 64 tval, w := false, op := o.seq }

/-- Bytes of an operation's scratchpad input as they stand; none are left of a reclaimed allocation. -/
def thIn (s : State) (o : ThOp) (a n : Nat) : List Byte :=
  match spadPlace s o.tid a with
  | some (t, off) => spBytes s t off n
  | none => List.replicate n 0

def thOut (s : State) (o : ThOp) (a : Nat) (bs : List Byte) : State :=
  match spadPlace s o.tid a with
  | some (t, off) => spStore s t off bs
  | none => s

/-- The next item of an operation has been done. -/
def thStep (s : State) (id : Nat) (o : ThOp) : State :=
  let o := { o with next := o.next + 1 }
  { s with thops := Tbl.set s.thops id { o with done := o.next == o.n } }

/-- Lookup-or-allocate with the team's hold: a hold beyond the list's limit stores and takes nothing (R194, R197). -/
def storeHeld (s : State) (o : ThOp) (twig : Bool) (content : List Byte) : Except (Nat × Nat) (Bool × Nat × State) :=
  let space := spaceOf o.part o.ns
  (lookAlloc s space (saltOf s o.part o.ns) twig content).bind fun (hit, name, s) =>
    match addHold s o.tid space name with
    | some s => .ok (hit, name, s)
    | none => .error (Cause.cafull, 1)

/-- One item of a CLOA (R346): after the last, the bitmap; at a fault, zeros for this name and every later one (R201).
(DEDUCED, log 31) -/
def cloaItem (s : State) (id : Nat) (o : ThOp) : State :=
  let j := o.next
  match storeHeld s o false (thIn s o (o.src + 256 * j) 256) with
  | .ok (hit, name, s) =>
    let o := { o with hits := if hit then o.hits + 2 ^ j else o.hits }
    let s := thOut s o (o.dst + 24 * j) (bytesOfNat 24 name)
    let s := if j + 1 = o.n then thOut s o (o.dst + 24 * o.n) (bytesOfNat 8 o.hits) else s
    thStep s id o
  | .error (cause, t) =>
    thFault (thOut s o (o.dst + 24 * j) (List.replicate (24 * (o.n - j)) 0)) id o cause (if cause = Cause.cacoll then j else t)

/-- The single item of a CTWG (R356): malformed 0x504, a missing child its index, otherwise stored or hit. A twig that breaks
several limits of R190 meets those its own bytes show first, then a missing child, then what its children show.
(DESIGN CHOICE, log 84) -/
def ctwgItem (s : State) (id : Nat) (o : ThOp) : State :=
  let space := spaceOf o.part o.ns
  let tw := thIn s o o.src 256
  if !twigForm tw then thFault s id o Cause.prot 0x504
  else match (twigKids tw).zipIdx.find? fun (k, _) => (findObj s space k).isNone with
    | some (_, i) => thFault s id o Cause.canotf i
    | none =>
      if !twigFits s space tw then thFault s id o Cause.prot 0x504
      else match storeHeld s o true tw with
        | .ok (hit, name, s) => thStep (thOut s o o.dst (bytesOfNat 24 name ++ bytesOfNat 8 (if hit then 1 else 0))) id o
        | .error (cause, t) => thFault s id o cause t

/-- A COUT finds its object and starts its copy-out, whose last chunk completes it (R349). (DEDUCED, log 35) -/
def coutItem (s : State) (id : Nat) (o : ThOp) : State :=
  let space := spaceOf o.part o.ns
  let name := natOfBytes (thIn s o o.src 24)
  let team := s.team o.tid
  let g : Group := { ident := { lid := team.lid, team := team.index } }
  match findObj s space name with
  | none => thFault s id o Cause.canotf 0
  | some x =>
    if detOwn s g .copy o.dst x.size then thFault s id o Cause.ownwr o.dst else
    let core := (s.team o.tid).core
    let (k, s) := s.fresh
    let y : Copy := { gid := o.gid, tid := o.tid, part := o.part, core := core, engine := pickEngine s core, seq := o.seq
                      sk := .spad, dk := .virt, src := 0, dst := o.dst, left := x.size, since := s.m.ftime, promise := 0
                      pol := BitVec.ofNat 32 o.n, obj := some (space, name) }
    { s with copies := Tbl.set s.copies k y, thops := Tbl.set s.thops id { o with next := o.next + 1 } }

/-- An operation may run its next item: every older one of the group has completed (R198), and a COUT starts once. -/
def thReady (s : State) (id : Nat) (o : ThOp) : Bool :=
  !o.done && !(s.thops.any fun (k, x) => decide (k < id) && x.gid == o.gid && !x.done) && (o.kind != .cout || o.next == 0)

/-- THICKET_ITEM (R196, R198). A CGET's read of pool storage does not fail: R201 names MEMUE for COUT alone.
(DESIGN CHOICE, log 84) -/
def execThicketItem (id : Nat) (s : State) : Host.Outcome State Fault Refusal :=
  .next (match Tbl.look s.thops id with
    | none => s
    | some o =>
      if !thReady s id o then s
      else
        let j := o.next
        match o.kind with
        | .cnam => thStep (thOut s o (o.dst + 24 * j)
            (bytesOfNat 24 (nameOf (saltOf s o.part o.ns) false (thIn s o (o.src + 256 * j) 256)))) id o
        | .cloa => cloaItem s id o
        | .ctwg => ctwgItem s id o
        | .cget =>
          match findObj s (spaceOf o.part o.ns) (natOfBytes (thIn s o (o.src + 24 * j) 24)) with
          | some x => thStep (thOut s o (o.dst + 256 * j) x.bytes) id o
          | none => thFault s id o Cause.canotf j
        | .cout => coutItem s id o)

/-- THICKET_OP_RETIRE (R216). -/
def execThicketOpRetire (id : Nat) (s : State) : Host.Outcome State Fault Refusal :=
  .next (match Tbl.look s.thops id with
    | none => s
    | some o => sweep (retireThops s o.gid))

/-- PRUNING (R195). -/
def execPruning (s : State) : Host.Outcome State Fault Refusal := .next (pruneOne s)

/-! ### Synchronous instructions -/

/-- The root slot that an address names (R428, R430): ALIGN, translation, 0x501, 0x500, MEMUE (R177). Its physical address and
namespace. -/
def slotAt (s : State) (part va : Nat) (w : Bool) : Except Stop (State × Nat × Nat) := do
  guardN (va % 32 == 0) Cause.align va
  match translate s part va w false with
  | .error t => throw (.trap t)
  | .ok (s, e) => match e.place va with
    | .pa a root _ =>
      guardN root Cause.prot 0x500
      if (badAt s (e.place va) 32).isSome then throw (.trap (memueAt va false))
      return (s, a, e.ns)
    | _ => trapN Cause.prot 0x501

/-- Writes the bits of a number to consecutive scalars. -/
def putScalars (g : Group) (o : Opd) (n x : Nat) : Group :=
  match o with
  | .s k => (List.range n).foldl (fun g i => g.setScal (k.val + i) (BitVec.ofNat 64 (x / 2 ^ (64 * i)))) g
  | _ => g

/-- RPIN (R199, R427, R428). -/
def execRpin (f : Fields) (s : State) : Host.Outcome State Fault Refusal :=
  issueGroup (.rpin f) f (fun c s => do
    let g := c.g s
    let tid := g.ident.tid
    scalReady g [f.a]
    let (s, pa, ns) ← slotAt s g.ident.part (addrOf g f.a) false
    let slot := s.mem.num pa 32
    let name := slot % 2 ^ 192
    let t := s.team tid
    guardN (name == 0 || decide (t.pins.length < 64)) Cause.cafull 2
    let (_, s) := nextSeq s c.gid
    let space := spaceOf g.ident.part ns
    let s := if name = 0 then s
      else (addRef s space name).setTeam tid { t with pins := t.pins ++ [(space, name)] }
    return s.setGroup c.gid (putScalars (c.g s) f.d 4 slot)) s

/-- RUNP (R194, R427, R428). -/
def execRunp (f : Fields) (s : State) : Host.Outcome State Fault Refusal :=
  issueGroup (.runp f) f (fun c s => do
    let g := c.g s
    scalReady g (scalRun f.a 3)
    let name := nameIn g f.a
    guardN (name != 0) Cause.prot 0x503
    match releaseRef s g.ident.tid (spaceOf g.ident.part (thNs f)) name with
    | some s => return s
    | none => trapN Cause.prot 0x503) s

/-- Every older store-like access and engine operation of the group has completed (R200, R217): copies, REDs, thicket
operations, passes, LAYRs and LAYRTs with their capture records. -/
def allReleased (s : State) (gid : Nat) : Bool :=
  released s gid
    && !(s.copies.any fun (_, y) => y.gid == gid && !y.completed s.m.ftime)
    && !(s.reds.any fun (_, y) => y.gid == gid && !y.done)
    && !(s.thops.any fun (_, y) => y.gid == gid && !y.done)
    && (openPasses s gid).isEmpty
    && !(s.arrops.any fun (_, y) => y.gid == gid && y.counts && !y.landed)

/-- RSWP (R200, R429, R430): sd takes the version before sb is compared with it, so that with D = B it always swaps. The new
name is read as it stood at issue (DEDUCED, log 32); one that equals the old leaves its count alone. -/
def execRswp (f : Fields) (s : State) : Host.Outcome State Fault Refusal :=
  issueGroup (.rswp f) f (fun c s => do
    let g := c.g s
    scalReady g [f.a]
    let va := addrOf g f.a
    let (s, pa, ns) ← slotAt s g.ident.part va true
    detCheck s g .store va 32
    scalReady g (f.b :: scalRun f.c 3)
    guardW (allReleased s c.gid)
    let slot := s.mem.num pa 32
    let old := slot % 2 ^ 192
    let v := slot / 2 ^ 192
    let new := nameIn g f.c
    let space := spaceOf g.ident.part ns
    let swap := f.d == f.b || v == (scalOf g f.b).toNat
    guardN (!(swap && new != 0 && (findObj s space new).isNone)) Cause.canotf 0
    let (_, s) := nextSeq s c.gid
    let s := s.setGroup c.gid ((c.g s).putS f.d (BitVec.ofNat 64 v))
    if !swap then return s
    let s := if new = 0 || new = old then s else addRef s space new
    let (s, tw) := applyStore s (.pa pa true false) (bytesOfNat 32 (new + (v + 1) % 2 ^ 64 * 2 ^ 192))
    let s := if old = 0 || new = old then s else dropRef s space old
    return raiseWh s c.gid g.ident.tid tw) s

/-- CREF (R353). (DEDUCED, log 32) -/
def execCref (f : Fields) (s : State) : Host.Outcome State Fault Refusal :=
  issueGroup (.cref f) f (fun c s => do
    let g := c.g s
    scalReady g (scalRun f.a 3)
    let (_, s) := nextSeq s c.gid
    let n := match findObj s (spaceOf g.ident.part (thNs f)) (nameIn g f.a) with | some o => o.count | none => 0
    return s.setGroup c.gid ((c.g s).putS f.d (BitVec.ofNat 64 n))) s

end Sys2Proof.Machine
end

