-- ==== Sys2Proof/Machine/Dispatch.lean ====
section
/-!
DEFINITION. The meaning of every constructor of `Instr`, one arm each.
-/

namespace Sys2Proof.Machine

def exec (i : Instr) (s : State) : Host.Outcome State Fault Refusal :=
  match i with
  | .powerUp => Sys2Proof.Machine.execPowerUp s
  | .moduleReset => Sys2Proof.Machine.execModuleReset s
  | .powerLoss => Sys2Proof.Machine.execPowerLoss s
  | .loadfw => Sys2Proof.Machine.execLoadfw s
  | .laurelSelfTestDone die ok => Sys2Proof.Machine.execLaurelSelfTestDone die ok s
  | .warmCalibration modno => Sys2Proof.Machine.execWarmCalibration modno s
  | .attest => Sys2Proof.Machine.execAttest s
  | .governorEstimate exceeds => Sys2Proof.Machine.execGovernorEstimate exceeds s
  | .bndWrite core b0 b1 b2 => Sys2Proof.Machine.execBndWrite core b0 b1 b2 s
  | .topiarySettingWrite n v => Sys2Proof.Machine.execTopiarySettingWrite n v s
  | .linkSlotTableWrite port response slot owner => Sys2Proof.Machine.execLinkSlotTableWrite port response slot owner s
  | .registerWrite r => Sys2Proof.Machine.execRegisterWrite r s
  | .partitionWrite p e => Sys2Proof.Machine.execPartitionWrite p e s
  | .pageRetirement p leaf oldPage newPage => Sys2Proof.Machine.execPageRetirement p leaf oldPage newPage s
  | .stage2FaultService core rec leaf => Sys2Proof.Machine.execStage2FaultService core rec leaf s
  | .groupTurn core rod => Sys2Proof.Machine.execGroupTurn core rod s
  | .preemptDelivery gid => Sys2Proof.Machine.execPreemptDelivery gid s
  | .preemptGraceExpiry gid => Sys2Proof.Machine.execPreemptGraceExpiry gid s
  | .forcedSave gid => Sys2Proof.Machine.execForcedSave gid s
  | .contextSaveComplete gid => Sys2Proof.Machine.execContextSaveComplete gid s
  | .spatialPreemption p launch cores => Sys2Proof.Machine.execSpatialPreemption p launch cores s
  | .loadDelivery id elem evicted => Sys2Proof.Machine.execLoadDelivery id elem evicted s
  | .atomReturnDelivery id elem => Sys2Proof.Machine.execAtomReturnDelivery id elem s
  | .storePerformed id elem => Sys2Proof.Machine.execStorePerformed id elem s
  | .leaseExpiry line => Sys2Proof.Machine.execLeaseExpiry line s
  | .uncorrectableRead r => Sys2Proof.Machine.execUncorrectableRead r s
  | .hostMemAccess write pa bytes => Sys2Proof.Machine.execHostMemAccess write pa bytes s
  | .domainAccessRemote who pa va bytes => Sys2Proof.Machine.execDomainAccessRemote who pa va bytes s
  | .scaleupCrcFailure r denied second => Sys2Proof.Machine.execScaleupCrcFailure r denied second s
  | .moduleLeavesDomain modno => Sys2Proof.Machine.execModuleLeavesDomain modno s
  | .arrival id => Sys2Proof.Machine.execArrival id s
  | .directModeDelivery id => Sys2Proof.Machine.execDirectModeDelivery id s
  | .linkSlotStart port slot => Sys2Proof.Machine.execLinkSlotStart port slot s
  | .plotTileProduct id tile => Sys2Proof.Machine.execPlotTileProduct id tile s
  | .layrDeadlineExpiry id => Sys2Proof.Machine.execLayrDeadlineExpiry id s
  | .arrayCrcFailure id => Sys2Proof.Machine.execArrayCrcFailure id s
  | .plotFault id => Sys2Proof.Machine.execPlotFault id s
  | .shadowCompute id => Sys2Proof.Machine.execShadowCompute id s
  | .epochDue n => Sys2Proof.Machine.execEpochDue n s
  | .probeMeasurement n k ended => Sys2Proof.Machine.execProbeMeasurement n k ended s
  | .topiarySwap n => Sys2Proof.Machine.execTopiarySwap n s
  | .rowProgramStart id => Sys2Proof.Machine.execRowProgramStart id s
  | .programVerify id ok => Sys2Proof.Machine.execProgramVerify id ok s
  | .relaxationDwellEnd id ok => Sys2Proof.Machine.execRelaxationDwellEnd id ok s
  | .shardDelivery p slot => Sys2Proof.Machine.execShardDelivery p slot s
  | .shardTimeout name => Sys2Proof.Machine.execShardTimeout name s
  | .pruning => Sys2Proof.Machine.execPruning s
  | .thicketItem id => Sys2Proof.Machine.execThicketItem id s
  | .thicketOpRetire id => Sys2Proof.Machine.execThicketOpRetire id s
  | .copyChunk id => Sys2Proof.Machine.execCopyChunk id s
  | .redStripe id stripe => Sys2Proof.Machine.execRedStripe id stripe s
  | .redFlagStore id => Sys2Proof.Machine.execRedFlagStore id s
  | .redCompletion id => Sys2Proof.Machine.execRedCompletion id s
  | .atomAtReducer id elem => Sys2Proof.Machine.execAtomAtReducer id elem s
  | .passGrant q => Sys2Proof.Machine.execPassGrant q s
  | .passCompletion q => Sys2Proof.Machine.execPassCompletion q s
  | .drainLanding q id => Sys2Proof.Machine.execDrainLanding q id s
  | .engineHang q => Sys2Proof.Machine.execEngineHang q s
  | .launchConsume p q => Sys2Proof.Machine.execLaunchConsume p q s
  | .teamBind lid first places => Sys2Proof.Machine.execTeamBind lid first places s
  | .launchCompletion lid => Sys2Proof.Machine.execLaunchCompletion lid s
  | .trellisTimeRow core => Sys2Proof.Machine.execTrellisTimeRow core s
  | .kill p => Sys2Proof.Machine.execKill p s
  | .servicePreempt p cores => Sys2Proof.Machine.execServicePreempt p cores s
  | .qreset p => Sys2Proof.Machine.execQreset p s
  | .serviceWatch p => Sys2Proof.Machine.execServiceWatch p s
  | .flr p => Sys2Proof.Machine.execFlr p s
  | .exportPart p => Sys2Proof.Machine.execExportPart p s
  | .round p => Sys2Proof.Machine.execRound p s
  | .stop p => Sys2Proof.Machine.execStop p s
  | .resume p => Sys2Proof.Machine.execResume p s
  | .restore p place => Sys2Proof.Machine.execRestore p place s
  | .nop f => Sys2Proof.Machine.execNop f s
  | .nopSkip f => Sys2Proof.Machine.execNopSkip f s
  | .mov f => Sys2Proof.Machine.execMov f s
  | .movi f => Sys2Proof.Machine.execMovi f s
  | .sel f => Sys2Proof.Machine.execSel f s
  | .iadd f => Sys2Proof.Machine.execIadd f s
  | .isub f => Sys2Proof.Machine.execIsub f s
  | .imul f => Sys2Proof.Machine.execImul f s
  | .imulh f => Sys2Proof.Machine.execImulh f s
  | .imad f => Sys2Proof.Machine.execImad f s
  | .imin f => Sys2Proof.Machine.execImin f s
  | .imax f => Sys2Proof.Machine.execImax f s
  | .iabs f => Sys2Proof.Machine.execIabs f s
  | .ineg f => Sys2Proof.Machine.execIneg f s
  | .icmpEq f => Sys2Proof.Machine.execIcmpEq f s
  | .icmpNe f => Sys2Proof.Machine.execIcmpNe f s
  | .icmpLt f => Sys2Proof.Machine.execIcmpLt f s
  | .icmpLe f => Sys2Proof.Machine.execIcmpLe f s
  | .icmpGt f => Sys2Proof.Machine.execIcmpGt f s
  | .icmpGe f => Sys2Proof.Machine.execIcmpGe f s
  | .and f => Sys2Proof.Machine.execAnd f s
  | .andn f => Sys2Proof.Machine.execAndn f s
  | .or f => Sys2Proof.Machine.execOr f s
  | .xor f => Sys2Proof.Machine.execXor f s
  | .not f => Sys2Proof.Machine.execNot f s
  | .shl f => Sys2Proof.Machine.execShl f s
  | .shr f => Sys2Proof.Machine.execShr f s
  | .sar f => Sys2Proof.Machine.execSar f s
  | .clz f => Sys2Proof.Machine.execClz f s
  | .popc f => Sys2Proof.Machine.execPopc f s
  | .bfx f => Sys2Proof.Machine.execBfx f s
  | .bfi f => Sys2Proof.Machine.execBfi f s
  | .fadd f => Sys2Proof.Machine.execFadd f s
  | .fsub f => Sys2Proof.Machine.execFsub f s
  | .fmul f => Sys2Proof.Machine.execFmul f s
  | .ffma f => Sys2Proof.Machine.execFfma f s
  | .ffms f => Sys2Proof.Machine.execFfms f s
  | .fnma f => Sys2Proof.Machine.execFnma f s
  | .fnms f => Sys2Proof.Machine.execFnms f s
  | .fmin f => Sys2Proof.Machine.execFmin f s
  | .fmax f => Sys2Proof.Machine.execFmax f s
  | .fcmpEq f => Sys2Proof.Machine.execFcmpEq f s
  | .fcmpNe f => Sys2Proof.Machine.execFcmpNe f s
  | .fcmpLt f => Sys2Proof.Machine.execFcmpLt f s
  | .fcmpLe f => Sys2Proof.Machine.execFcmpLe f s
  | .fcmpGt f => Sys2Proof.Machine.execFcmpGt f s
  | .fcmpGe f => Sys2Proof.Machine.execFcmpGe f s
  | .fcmpUn f => Sys2Proof.Machine.execFcmpUn f s
  | .frcp f => Sys2Proof.Machine.execFrcp f s
  | .frsq f => Sys2Proof.Machine.execFrsq f s
  | .fsqrt f => Sys2Proof.Machine.execFsqrt f s
  | .fexp2 f => Sys2Proof.Machine.execFexp2 f s
  | .flog2 f => Sys2Proof.Machine.execFlog2 f s
  | .fcls f => Sys2Proof.Machine.execFcls f s
  | .cvt f => Sys2Proof.Machine.execCvt f s
  | .pack f => Sys2Proof.Machine.execPack f s
  | .unpk f => Sys2Proof.Machine.execUnpk f s
  | .bpq f => Sys2Proof.Machine.execBpq f s
  | .bpx f => Sys2Proof.Machine.execBpx f s
  | .qxch f => Sys2Proof.Machine.execQxch f s
  | .qbcst f => Sys2Proof.Machine.execQbcst f s
  | .lshf f => Sys2Proof.Machine.execLshf f s
  | .voteAll f => Sys2Proof.Machine.execVoteAll f s
  | .voteAny f => Sys2Proof.Machine.execVoteAny f s
  | .voteBallot f => Sys2Proof.Machine.execVoteBallot f s
  | .gredAdd f => Sys2Proof.Machine.execGredAdd f s
  | .gredMin f => Sys2Proof.Machine.execGredMin f s
  | .gredMax f => Sys2Proof.Machine.execGredMax f s
  | .gscanAdd f => Sys2Proof.Machine.execGscanAdd f s
  | .gscanMin f => Sys2Proof.Machine.execGscanMin f s
  | .gscanMax f => Sys2Proof.Machine.execGscanMax f s
  | .bra f => Sys2Proof.Machine.execBra f s
  | .brx f => Sys2Proof.Machine.execBrx f s
  | .call f => Sys2Proof.Machine.execCall f s
  | .ret f => Sys2Proof.Machine.execRet f s
  | .exit f => Sys2Proof.Machine.execExit f s
  | .trap f => Sys2Proof.Machine.execTrap f s
  | .sysc f => Sys2Proof.Machine.execSysc f s
  | .eret f => Sys2Proof.Machine.execEret f s
  | .csrr f => Sys2Proof.Machine.execCsrr f s
  | .csrw f => Sys2Proof.Machine.execCsrw f s
  | .tick f => Sys2Proof.Machine.execTick f s
  | .sleep f => Sys2Proof.Machine.execSleep f s
  | .vdhop f => Sys2Proof.Machine.execVdhop f s
  | .tlbiVa f => Sys2Proof.Machine.execTlbiVa f s
  | .tlbiIa f => Sys2Proof.Machine.execTlbiIa f s
  | .tlbiAll f => Sys2Proof.Machine.execTlbiAll f s
  | .ctxs f => Sys2Proof.Machine.execCtxs f s
  | .ctxr f => Sys2Proof.Machine.execCtxr f s
  | .ldv f => Sys2Proof.Machine.execLdv f s
  | .ldvLate f => Sys2Proof.Machine.execLdvLate f s
  | .stv f => Sys2Proof.Machine.execStv f s
  | .lds f => Sys2Proof.Machine.execLds f s
  | .sts f => Sys2Proof.Machine.execSts f s
  | .ldp f => Sys2Proof.Machine.execLdp f s
  | .stp f => Sys2Proof.Machine.execStp f s
  | .ldt f => Sys2Proof.Machine.execLdt f s
  | .stt f => Sys2Proof.Machine.execStt f s
  | .pref f => Sys2Proof.Machine.execPref f s
  | .atomAdd f => Sys2Proof.Machine.execAtomAdd f s
  | .atomFadd f => Sys2Proof.Machine.execAtomFadd f s
  | .atomSmax f => Sys2Proof.Machine.execAtomSmax f s
  | .atomSmin f => Sys2Proof.Machine.execAtomSmin f s
  | .atomNmax f => Sys2Proof.Machine.execAtomNmax f s
  | .atomNmin f => Sys2Proof.Machine.execAtomNmin f s
  | .atomFmax f => Sys2Proof.Machine.execAtomFmax f s
  | .atomFmin f => Sys2Proof.Machine.execAtomFmin f s
  | .atomAnd f => Sys2Proof.Machine.execAtomAnd f s
  | .atomOr f => Sys2Proof.Machine.execAtomOr f s
  | .atomXor f => Sys2Proof.Machine.execAtomXor f s
  | .atomXchg f => Sys2Proof.Machine.execAtomXchg f s
  | .atomCas f => Sys2Proof.Machine.execAtomCas f s
  | .cpy f => Sys2Proof.Machine.execCpy f s
  | .red f => Sys2Proof.Machine.execRed f s
  | .fence f => Sys2Proof.Machine.execFence f s
  | .fwait f => Sys2Proof.Machine.execFwait f s
  | .ifence f => Sys2Proof.Machine.execIfence f s
  | .waitcCp f => Sys2Proof.Machine.execWaitcCp f s
  | .waitcRd f => Sys2Proof.Machine.execWaitcRd f s
  | .waitcMp f => Sys2Proof.Machine.execWaitcMp f s
  | .waitcAr f => Sys2Proof.Machine.execWaitcAr f s
  | .waitcTh f => Sys2Proof.Machine.execWaitcTh f s
  | .bara f => Sys2Proof.Machine.execBara f s
  | .barw f => Sys2Proof.Machine.execBarw f s
  | .bart f => Sys2Proof.Machine.execBart f s
  | .qpush f => Sys2Proof.Machine.execQpush f s
  | .qpop f => Sys2Proof.Machine.execQpop f s
  | .qtry f => Sys2Proof.Machine.execQtry f s
  | .evrtRoute f => Sys2Proof.Machine.execEvrtRoute f s
  | .evrtWake f => Sys2Proof.Machine.execEvrtWake f s
  | .evrtSig f => Sys2Proof.Machine.execEvrtSig f s
  | .evrtRd f => Sys2Proof.Machine.execEvrtRd f s
  | .mrsv f => Sys2Proof.Machine.execMrsv f s
  | .mrel f => Sys2Proof.Machine.execMrel f s
  | .mpass f => Sys2Proof.Machine.execMpass f s
  | .mma f => Sys2Proof.Machine.execMma f s
  | .mmab f => Sys2Proof.Machine.execMmab f s
  | .mzro f => Sys2Proof.Machine.execMzro f s
  | .mldb f => Sys2Proof.Machine.execMldb f s
  | .mdrn f => Sys2Proof.Machine.execMdrn f s
  | .mdrnSp f => Sys2Proof.Machine.execMdrnSp f s
  | .mdrnMem f => Sys2Proof.Machine.execMdrnMem f s
  | .mstat f => Sys2Proof.Machine.execMstat f s
  | .layr f => Sys2Proof.Machine.execLayr f s
  | .layrt f => Sys2Proof.Machine.execLayrt f s
  | .lcapOff f => Sys2Proof.Machine.execLcapOff f s
  | .lcapCap f => Sys2Proof.Machine.execLcapCap f s
  | .lcapRep f => Sys2Proof.Machine.execLcapRep f s
  | .lcapStat f => Sys2Proof.Machine.execLcapStat f s
  | .lprb f => Sys2Proof.Machine.execLprb f s
  | .lprbt f => Sys2Proof.Machine.execLprbt f s
  | .abndLoad f => Sys2Proof.Machine.execAbndLoad f s
  | .abndPub f => Sys2Proof.Machine.execAbndPub f s
  | .abndRet f => Sys2Proof.Machine.execAbndRet f s
  | .espl f => Sys2Proof.Machine.execEspl f s
  | .astat f => Sys2Proof.Machine.execAstat f s
  | .cnam f => Sys2Proof.Machine.execCnam f s
  | .cloa f => Sys2Proof.Machine.execCloa f s
  | .ctwg f => Sys2Proof.Machine.execCtwg f s
  | .cget f => Sys2Proof.Machine.execCget f s
  | .cout f => Sys2Proof.Machine.execCout f s
  | .cref f => Sys2Proof.Machine.execCref f s
  | .rpin f => Sys2Proof.Machine.execRpin f s
  | .runp f => Sys2Proof.Machine.execRunp f s
  | .rswp f => Sys2Proof.Machine.execRswp f s
  | .rkst f => Sys2Proof.Machine.execRkst f s
  | .rkstAll f => Sys2Proof.Machine.execRkstAll f s
  | .rkq f => Sys2Proof.Machine.execRkq f s
  | .lprbResultLanding id => Sys2Proof.Machine.execLprbResultLanding id s
  | .hcmdUnknownCode code => Sys2Proof.Machine.execHcmdUnknownCode code s
  | .serviceUnknownOpcode p => Sys2Proof.Machine.execServiceUnknownOpcode p s

end Sys2Proof.Machine
end

