-- ==== Sys2Proof/Machine/Fetch.lean ====
section
/-!
DEFINITION. Fetching an instruction word (R221, R304): of a group, through translation and with the bytes a core may have
fetched before its last IFENCE; of a pass, from its image (R149, R150).
-/

namespace Sys2Proof.Machine

/-- The number of the 4-byte unit that holds a fetched byte, and what memory holds there now. Domain units are numbered
above all others. -/
def fetchUnit (s : State) (p : Place) : Nat × Nat :=
  match p with
  | .pa a _ _ => (a / 4, s.mem.num (a - a % 4) 4)
  | .dom a => (2 ^ 60 + a / 4, s.domainMem.num (a - a % 4) 4)
  | _ => (0, 0)

/-- One 4-byte unit as a core fetches it (R221): where the bytes fetched before differ from memory, either may come. -/
def fetchOne (s : State) (core : Nat) (p : Place) : State × Nat :=
  let (u, now) := fetchUnit s p
  match s.fetched.find? fun (c, v, _) => c == core && v == u with
  | none => ({ s with fetched := s.fetched ++ [(core, u, now)] }, now)
  | some (_, _, old) =>
    if old = now then (s, now)
    else if Config.usesFetched s.free then ({ s with free := s.free + 1 }, old)
    else
      let rest := s.fetched.filter fun (c, v, _) => !(c == core && v == u)
      ({ s with free := s.free + 1, fetched := rest ++ [(core, u, now)] }, now)

/-- Consecutive units, low first, as one number. -/
def fetchUnits (core : Nat) : Nat → Place → State → State × Nat
  | 0, _, s => (s, 0)
  | n + 1, p, s =>
    let (s, lo) := fetchOne s core p
    let p' : Place := match p with | .pa a r o => .pa (a + 4) r o | .dom a => .dom (a + 4) | p => p
    let (s, hi) := fetchUnits core n p' s
    (s, lo + 2 ^ 32 * hi)

/-- OPC and FN in a word's first 4 bytes, and its LEN (R305). -/
def headOf (w : Nat) : Nat × Nat × Option Nat :=
  (bitsN w 2 8, bitsN w 10 5, (Len.ofCode (BitVec.ofNat 2 w)).map Len.bytes)

/-- Privileged opcodes (R314, R316). -/
def privileged (opc fn : Nat) : Bool :=
  opc == 0x6C || (opc == 0x6D && fn == 1) || opc == 0xC2 || opc == 0xC3 || opc == 0xC4

/-- What the 4-byte rule of R304 gives for a word that would leave its fetch block: a trap always. -/
def crossTrap (head : Nat) (pc : W64) (priv beam : Bool) : Trap :=
  let (opc, fn, len) := headOf head
  if len.isNone || !assigned opc fn then { cause := Cause.illop, tval := BitVec.ofNat 64 (head % 2 ^ 32) }
  else if !beam && !priv && privileged opc fn then { cause := Cause.priv, tval := BitVec.ofNat 64 opc }
  else { cause := Cause.fetchx, tval := pc }

/-- Bytes from a PC to the end of its fetch block (R304). -/
def blockLeft (pc : W64) : Nat := 32 - pc.toNat % 32

/-- Decodes a whole word; a refusal is ILLOP with bits [63:0] (R267, R317). -/
def decodeFetched (w : Nat) : Except Trap Instr :=
  match decodeWord (BitVec.ofNat 128 w) with
  | .ok i => .ok i
  | .error _ => .error { cause := Cause.illop, tval := BitVec.ofNat 64 w }

/-- The instruction at the PC of a sub-group, or the trap its fetch and decoding take; a fetch that cannot be read gives
MEMUE (R177, R302). -/
def fetchGroup (s : State) (gid sub : Nat) : State × Except Trap Instr :=
  let g := s.group gid
  let pc := (g.sub sub).pc
  match translate s g.ident.part pc.toNat false true with
  | .error t => (s, .error t)
  | .ok (s, e) =>
    let p := e.place pc.toNat
    let core := g.ident.core
    if goneAway s p || (badAt s p 4).isSome then (s, .error { memueAt pc.toNat false with fetch := true })
    else
    let (s1, head) := fetchUnits core 1 p s
    let (_, _, len) := headOf head
    let need := len.getD 8
    if blockLeft pc < need then (s1, .error (crossTrap head pc (s.launch g.ident.lid).priv false))
    else
      let (s2, w) := fetchUnits core (need / 4) p s
      (s2, decodeFetched w)

/-- The instruction a pass stands at, or the trap of its fetch (R150): only bytes 1024 to length − 1 of the image. -/
def fetchBeam (s : State) (q : Nat) (r : Run) : Except Trap Instr :=
  let pc := r.pc.toNat
  let out : Trap := { cause := Cause.illop, tval := r.pc }
  match (s.engine q).image (s.team r.pass.tid).lid with
  | none => .error out
  | some (len, m) =>
    if pc < 1024 || len < pc + 4 then .error out
    else
      let head := m.num pc 4
      let (_, _, n) := headOf head
      let need := n.getD 8
      if blockLeft r.pc < need then .error (crossTrap head r.pc false true)
      else if len < pc + n.getD 4 then .error out
      else decodeFetched (m.num pc need)

/-- The end of a step whose fetch trapped. -/
def fetchTrap (s : State) (gid sub : Nat) (t : Trap) : State :=
  trapIssue s gid sub ((s.group gid).sub sub).pc 8 t

/-! ### The machine by itself -/

/-- Moves of one element of an access. -/
def elemMoves (id : Nat) (a : Access) : List Instr :=
  (List.range a.elems.length).filterMap fun i => match a.elems[i]? with
    | none => none
    | some e => match e.st, a.kind with
      | .issued, .load | .issued, .late _ _ => some (.loadDelivery id i false)
      | .issued, .store => some (.storePerformed id i)
      | .issued, .atom _ _ => some (.atomAtReducer id i)
      | .applied _ _, _ => some (.atomReturnDelivery id i)
      | _, _ => none

/-- Moves of an access: its elements, and the arrival of a late load. -/
def accessMoves (id : Nat) (a : Access) : List Instr :=
  elemMoves id a ++ (match a.kind with | .late _ _ => [.arrival id] | _ => [])

/-- Moves of an array operation (R63, R64, R113, R115, R406). -/
def arrMoves (id : Nat) (o : ArrOp) : List Instr :=
  if o.landed then [] else
    (match o.dest with
      | .slot _ _ => [.arrival id] | .direct _ _ _ => [.directModeDelivery id] | .probe _ => [.lprbResultLanding id]
      | .epoch => [])
      ++ (if o.shadow then [.shadowCompute id] else [])
      ++ [.layrDeadlineExpiry id]

/-- Moves of an engine: grant, completion, drains. -/
def engineMoves (q : Nat) (e : Engine) : List Move :=
  (if e.idle then (if e.queue.isEmpty then [] else [.event 1 (.passGrant q)]) else [.beam 1 q])
    ++ (if e.runs.any (·.ended) then [.event 1 (.passCompletion q)] else [])
    ++ (e.runs.flatMap (·.drains)).map fun d => .event 1 (.drainLanding q d.id)

/-- Moves of a group: the ends of a PREEMPT and of a save. -/
def groupMoves (gid : Nat) (g : Group) : List Instr :=
  (match g.pre with | .asked _ => [.preemptGraceExpiry gid] | .served _ => [.forcedSave gid] | .no => [])
    ++ (if g.saving.isSome then [.contextSaveComplete gid] else [])

/-- Slots of the links that have something to carry: the assigned ones, and an unassigned one (R119, R131, R134). -/
def linkMoves (s : State) : List Instr :=
  let ds := (s.arrops.flatMap (fun x => x.2.tiles.map (·.die)) ++ s.rowReqs.map (fun x => x.2.die)).dedup
  ds.flatMap fun d =>
    let x := s.die d
    (x.reqOwner.map (·.1) ++ ((List.range 256).find? fun k => slotOwner x.reqOwner k == 31).toList).map fun k => .linkSlotStart d k

/-- Everything the machine's own agents may do next, without a choice of firmware or the outside. -/
def ownMoves (s : State) : List Move :=
  let ev := fun (l : List Instr) => l.map fun i => Move.event 1 i
  (s.cores.flatMap fun (c, k) => ((k.binds.map fun (n, _) => n % 16).dedup).flatMap fun r =>
      ev [.groupTurn c r, .trellisTimeRow c])
    ++ (s.engines.flatMap fun (q, e) => engineMoves q e)
    ++ ev (s.groups.flatMap fun (k, g) => groupMoves k g)
    ++ ev (s.accesses.flatMap fun (k, a) => accessMoves k a)
    ++ ev (s.copies.map fun (k, _) => .copyChunk k)
    ++ ev (s.reds.flatMap fun (k, y) => (List.range (y.count + 1)).map (Instr.redStripe k ·) ++ [.redFlagStore k, .redCompletion k])
    ++ ev (s.thops.flatMap fun (k, _) => [.thicketItem k, .thicketOpRetire k])
    ++ (if s.prunes.isEmpty then [] else ev [.pruning])
    ++ ev (linkMoves s)
    ++ ev (s.dies.flatMap fun (_, x) => x.running.map fun p => .plotTileProduct p.op p.tile)
    ++ ev (s.arrops.flatMap fun (k, o) => arrMoves k o)
    ++ ev (s.parts.flatMap fun (p, x) => (List.range x.e.queues).map fun q => .launchConsume p q)
    ++ ev (s.launches.map fun (k, _) => .launchCompletion k)
    ++ ev (s.due.map fun (n, _) => .epochDue n)
    ++ ev (s.epochs.flatMap fun e => [.probeMeasurement e.bind e.sigF.length false, .probeMeasurement e.bind e.sigF.length true, .topiarySwap e.bind])
    ++ ev (s.rowReqs.map fun (k, _) => .rowProgramStart k)

/-- Left alone, the machine goes through its own moves in turn, one tick each. -/
def autonomous (s : State) : Option Move × State :=
  let ms := ownMoves s
  (ms[s.rotor % max 1 ms.length]?, { s with rotor := s.rotor + 1 })

/-- The next move of the machine when no issue is in progress: the environment's, or its own. -/
def nextMove (s : State) : Option Move × State :=
  match s.agenda with
  | m :: rest => (some m, { s with agenda := rest })
  | [] => autonomous s

/-- FTIME stands at a value: 64 bits (R3). -/
def State.setTime (s : State) (t : Nat) : State := s.setM { s.m with ftime := t % 2 ^ 64 }

/-- Time passes (DESIGN CHOICE, log 4); where it reaches a multiple of 65,536, row 5 fires at that tick (R234). -/
def State.wait (s : State) (dt : Nat) : State :=
  let t := s.m.ftime + dt
  let mark := t - t % 65536
  if s.m.ftime < mark then (fireTime (s.setTime mark)).setTime t else s.setTime t

/-! ### Placing a word -/

/-- Where `State.withFetchWord` puts the word. -/
def wordPc : Nat := 0x100000

/-- Page tables that map 32 MiB of a partition onto the same device addresses, writable and executable at both stages. -/
def identityTables (m : Mem) : Mem :=
  [(0x10000, 0x20001), (0x20000, 0x30001), (0x30000, 15), (0x40000, 0x50001), (0x50000, 0x60001), (0x60000, 15)].foldl
    (fun (m : Mem) (c : Nat × Nat) => m.putNum c.1 8 c.2) m

/-- The word is an M* instruction, which only a pass runs (R150). -/
def isMatrixWord (w : Nat) : Bool := decide (0xB2 ≤ bitsN w 2 8) && decide (bitsN w 2 8 ≤ 0xB7)

/-- The identity of the group that `State.withFetchWord` binds. -/
def wordIdent : Ident := { lid := 1, tid := 2, part := 0, nreal := 1, w := 64, k := 8 }

/-- The partition, launch, team and group that run one word (R251 to R253): partition 0, core 0, slot 0, one lane. -/
def wordBind (s : State) (w : Nat) : State :=
  let r : LaunchRec := { entry := BitVec.ofNat 64 wordPc, lanes := 1, w := 64, k := 8, lcores := 1, id := 1, passLen := 2048 }
  let part : Part := { s.part 0 with e := { (s.part 0).e with state := 1, quartets := [0], quota := 1, root1 := 0x40000, root2 := 0x10000 } }
  let s := s.setPart 0 part
  let s := s.setLaunch 1 { r := r, priv := true, live := [2] }
  let s := s.setTeam 2 { lid := 1, spread := 1, spSize := 65536, gids := [3] }
  let s := { s with groups := Tbl.set s.groups 3 (freshGroup wordIdent r) }
  let s := s.setCore 0 { s.core 0 with binds := Tbl.set (s.core 0).binds 0 { lref := 1, state := 1, gid := 3 } }
  { s with
    mem := (identityTables s.mem).store wordPc (bytesOfNat 16 w), nextId := max s.nextId 4, tlb := [], fetched := [] }

/-- A pass of that group stands at the word in its image. -/
def wordPass (s : State) (w : Nat) : State :=
  let pass : Pass := { gid := 3, tid := 2, entry := 0, prog := 0, args := [], tview := 0, aview := 0, post := 0, gate := none
                       seq := 0, ident := wordIdent }
  let run : Run := { pass := pass, pc := 1024, start := s.m.ftime }
  s.setEngine 0 { s.engine 0 with
    resvs := [(0, { tid := 2, lid := 1, prio := 0, nacc := 64 })]
    images := [(1, 2048, Mem.store [] 1024 (bytesOfNat 16 w))]
    run := some run }

/-- `s` with one word placed so that the next step runs it (DESIGN CHOICE, log 6). -/
def placeWord (s : State) (w : Nat) : State :=
  let s := wordBind s w
  if isMatrixWord w then { wordPass s w with issue := some ⟨.beam 0, []⟩ }
  else { s with issue := some ⟨.group 3 15, []⟩ }

end Sys2Proof.Machine
end

