-- ==== Sys2Proof/Machine/Step.lean ====
section
/-!
DEFINITION. One step of the module: the instruction of an issue in progress, or the next move of the environment or of the
machine's own agents.
-/

namespace Sys2Proof.Machine

/-- The word at the PC of the issuing sub-group is fetched, decoded and carried out; a fetch or decoding that traps takes
its trap. -/
def stepGroup (s : State) (gid sub : Nat) : Host.Outcome State Fault Refusal :=
  match Tbl.look s.groups gid with
  | none => .next (endTurn s)
  | some _ => match fetchGroup s gid sub with
    | (s, .error t) => .next (fetchTrap s gid sub t)
    | (s, .ok i) => exec i s

/-- The same for a beam core and its pass. -/
def stepBeam (s : State) (q : Nat) : Host.Outcome State Fault Refusal :=
  match (s.engine q).run with
  | none => .next (endTurn s)
  | some r =>
    if r.ended then .next (endTurn s)
    else match fetchBeam s q r with
      | .error t => .next (failPass q t s)
      | .ok i => exec i s

/-- The outcome of a move: time passes, then the event happens or the beam core issues. -/
def stepMove (s : State) : Option Move → Host.Outcome State Fault Refusal
  | none => .next (s.wait 1)
  | some (.event dt i) =>
    match i.word? with
    | some _ => .next (s.wait dt)
    | none => exec i (s.wait dt)
  | some (.beam dt q) => .next { s.wait dt with issue := some ⟨.beam q, []⟩ }

/-- One step. -/
def step (s : State) : Host.Outcome State Fault Refusal :=
  match s.issue with
  | some ⟨.group gid sub, _⟩ => stepGroup s gid sub
  | some ⟨.beam q, _⟩ => stepBeam s q
  | none => let (m, s) := nextMove s; stepMove s m

/-- The state with the instruction of a table word placed where the next step runs it. -/
def State.withFetchWord (s : State) (nbits w : Nat) : State := placeWord s (w % 2 ^ nbits)

end Sys2Proof.Machine
end

