-- ==== Sys2Proof/Safety.lean ====
section
/-!
DEFINITION. The terms in which claims are stated: what counts as a safe run, who is issuing, which operands can be read,
and what an instruction leaves unchanged.
-/

namespace Sys2Proof

open Machine

/-- A step that goes on. -/
def goesOn (s : State) : Prop := ∃ t, step s = .next t

/-- The byte memories of the module are in canonical form. -/
def memoriesWf (s : State) : Prop := s.mem.wf ∧ s.hostMem.wf ∧ s.domainMem.wf

namespace Claim

/-- Sub-group `sub` of the resident group `gid` is issuing. -/
def Issuing (s : State) (gid sub : Nat) : Prop :=
  (∃ rest, s.issue = some ⟨.group gid sub, rest⟩) ∧ (Tbl.look s.groups gid).isSome = true

/-- A beam core is issuing, with its pass. -/
def BeamIssuing (s : State) (q : Nat) (r : Run) : Prop :=
  (∃ rest, s.issue = some ⟨.beam q, rest⟩) ∧ (s.engine q).run = some r

/-- What the meaning of a word knows of its issue. -/
abbrev ctx (i : Instr) (f : Fields) (s : State) (gid sub : Nat) : Ctx := ⟨i, f, gid, sub, ((s.group gid).sub sub).pc⟩

/-- The PC after a word. -/
abbrev nextPc (f : Fields) (s : State) (gid sub : Nat) : W64 := ((s.group gid).sub sub).pc + BitVec.ofNat 64 f.len.bytes

/-- The register references of an instruction pass R47. -/
def RefsOk (g : Group) (uses : List Use) (dsts : List (Opd × Nat)) : Prop :=
  (∀ u ∈ uses, (g.useRange u.o u.n).isSome = true) ∧ ∀ d ∈ dsts, (g.useRange d.1 d.2).isSome = true

/-- The sources can be read; `s1` is the state after the settling of the pending ones (R68), the hold latch done. -/
def Readable (c : Ctx) (uses : List Use) (s s1 : State) : Prop := ready c uses (holdLatch s c) = .ok s1

/-- The scalars among some operands have been delivered, with no MEMUE held for a read of them (R400, R402). -/
def Delivered (g : Group) (os : List Opd) : Prop :=
  ∀ n, .s n ∈ os → (∀ b ∈ g.sbusy, b.1 ≠ n.val) ∧ ∀ m ∈ g.memues, m.scal ≠ some n.val

/-- Sources without anything to wait for, to settle or to trap on: every register of a range is F, with its pair's even
register, every granule holds RAW or an expected tag, every scalar has been delivered. -/
def Plain (g : Group) (uses : List Use) : Prop :=
  (∀ u ∈ uses, ∀ r ∈ regsOf (g.rangeOf u).1 (g.rangeOf u).2, g.st r = .full ∧ g.st (Group.even r) = .full)
  ∧ (∀ u ∈ uses, g.tagTrap u = none)
  ∧ Delivered g (uses.map (·.o))

/-- Nothing but groups, teams, hold latches and the turn differs. -/
def OnlyGroups (s t : State) : Prop :=
  t = { s with groups := t.groups, teams := t.teams, cores := t.cores, issue := none }
  ∧ ∀ n, { t.core n with latch := [] } = { s.core n with latch := [] }

/-- Every other group stays. -/
def OthersKept (s t : State) (gid : Nat) : Prop := ∀ k, k ≠ gid → t.group k = s.group k

/-- The flags `fl` have been ORed into one team's TSF, and no team differs otherwise (R59). -/
def Raised (s t : State) (tid : Nat) (fl : BitVec 5) : Prop :=
  ∀ k, Tbl.look t.teams k =
    if k = tid then (Tbl.look s.teams k).map fun x => { x with tsf := x.tsf ||| fl } else Tbl.look s.teams k

/-- Group `h` is `g` after sub-group `sub` has issued and stands at `pc`: window, tags, register states, slots and what
producers owe aside, only the turn's own records differ. -/
def Issued (g h : Group) (sub : Nat) (pc : W64) : Prop :=
  h = { g with
    win := h.win, tags := h.tags, vst := h.vst, slots := h.slots, prods := h.prods, wrote := []
    subs := Tbl.set g.subs sub { g.sub sub with pc := pc }
    lastSub := some sub, wskipNow := g.wskipNow.filter (· != sub), sleep := Tbl.del g.sleep sub }

/-- What a word of the group leaves alone that writes only the window and TSF. -/
def LaneFrame (s t : State) (gid sub : Nat) (pc : W64) (fl : BitVec 5) : Prop :=
  OnlyGroups s t ∧ OthersKept s t gid ∧ Raised s t (s.group gid).ident.tid fl ∧ Issued (s.group gid) (t.group gid) sub pc

/-- The word of a lane of vector register `n`, as bytes of the window. -/
def InLanes (n : Nat) (ls : List Nat) (a : Nat) : Prop := ∃ l ∈ ls, 1024 * n + 4 * l ≤ a ∧ a < 1024 * n + 4 * l + 4

/-- Lane results in a destination: the lanes `ls` of a vector register hold `v` under tag `t` (R49), all other bytes of the
window stay; unless a pending pair was in the destination (R54), so do all register states, slots and other tags. -/
def LanesWritten (g h : Group) (d : Opd) (ls : List Nat) (v : Nat → W32) (t : Tag) : Prop :=
  (∀ n, d = .v n → (∀ l ∈ ls, h.lane n.val l = v l) ∧ ∀ k ∈ Group.granules (1024 * n.val) 1024, h.tagAt k = t)
  ∧ (∀ a, (∀ n, d = .v n → ¬ InLanes n.val ls a) → h.win.read a = g.win.read a)
  ∧ ((∀ n, d = .v n → g.anyP (1024 * n.val) 1024 = false) → h.vst = g.vst ∧ h.slots = g.slots
      ∧ ∀ k, (∀ n, d = .v n → k ∉ Group.granules (1024 * n.val) 1024) → h.tagAt k = g.tagAt k)

/-- A group's registers all stay: only the turn's records and the PC differ. -/
def RegistersKept (g h : Group) : Prop :=
  h.win = g.win ∧ h.tags = g.tags ∧ h.vst = g.vst ∧ h.slots = g.slots ∧ h.prods = g.prods

/-- The flags that the active real lanes raise (R23, R86). -/
def laneFlags (act : Mask) (ls : List Nat) (fl : Nat → BitVec 5) : BitVec 5 := orFlags ((ls.filter (mhas act)).map fl)

/-- A word in lanes completes, in a group of which `when_` holds: in each lane computed the destination holds `v`'s value,
TSF gains the active lanes' flags, and nothing else changes. With no active lane, and sources with nothing to wait for,
nothing changes but the PC (R22, R24, R307). -/
def LaneWordIf (when_ : Group → Prop) (i : Instr) (f : Fields) (uses : List Use) (tag : Tag)
    (v : Group → Nat → W32 × BitVec 5) : Prop :=
  ∀ s gid sub, Issuing s gid sub → when_ (s.group gid) → RefsOk (s.group gid) uses [(f.d, 1)] →
    let act := (s.group gid).activeReal sub f
    (act = 0 → Plain (s.group gid) uses → ∃ t, exec i s = .next t ∧ LaneFrame s t gid sub (nextPc f s gid sub) 0
      ∧ RegistersKept (s.group gid) (t.group gid))
    ∧ ∀ s1, act ≠ 0 → Readable (ctx i f s gid sub) uses s s1 → ∃ t, exec i s = .next t
      ∧ LanesWritten (s1.group gid) (t.group gid) f.d (laneSet (s1.group gid) act) (fun l => (v (s1.group gid) l).1) tag
      ∧ LaneFrame s1 t gid sub (nextPc f s gid sub)
          (laneFlags act (laneSet (s1.group gid) act) fun l => (v (s1.group gid) l).2)

/-- A word in lanes, in every group. -/
abbrev LaneWord := LaneWordIf fun _ => True

/-- Group `h` is `g` after sub-group `sub` has issued, with scalar `d` set to `x` (nothing for ZERO). -/
def ScalarIssued (g h : Group) (d : Opd) (x : W64) (sub : Nat) (pc : W64) : Prop :=
  (∀ n, d = .s n → h.scal n.val = x) ∧ (∀ n : Nat, (∀ m, d = .s m → m.val ≠ n) → h.scal n = g.scal n)
  ∧ h = { g with
    s := h.s, sbusy := h.sbusy, wrote := [], subs := Tbl.set g.subs sub { g.sub sub with pc := pc }
    lastSub := some sub, wskipNow := g.wskipNow.filter (· != sub), sleep := Tbl.del g.sleep sub }

/-- A word that changed scalars, flags and the turn alone. -/
def ScalarFrame (s t : State) (gid : Nat) (fl : BitVec 5) : Prop :=
  OnlyGroups s t ∧ OthersKept s t gid ∧ Raised s t (s.group gid).ident.tid fl

/-- A word under UNI completes (R25): where the predicate holds on the lowest active real lane of the sub-group, the
scalar destination takes `v`'s value; otherwise only the PC moves. `reads` are the operands it waits for (R400), there in
either case. -/
def UniWord (i : Instr) (f : Fields) (reads : List Opd) (v : Group → Nat → (Opd → W64) → W64 × BitVec 5) : Prop :=
  ∀ s gid sub, Issuing s gid sub → Delivered (s.group gid) reads →
    ((s.group gid).uniOn sub f = false → ∃ t, exec i s = .next t ∧ ScalarFrame s t gid 0
      ∧ ScalarIssued (s.group gid) (t.group gid) .zero 0 sub (nextPc f s gid sub))
    ∧ ((s.group gid).uniOn sub f = true →
      let r := v (s.group gid) sub ((s.group gid).srcU sub f)
      ∃ t, exec i s = .next t ∧ ScalarFrame s t gid r.2
        ∧ ScalarIssued (s.group gid) (t.group gid) f.d r.1 sub (nextPc f s gid sub))

/-- Only one beam core's pass and one team's TSF differ. -/
def OnlyRun (s t : State) (q : Nat) (r : Run) (tid : Nat) (fl : BitVec 5) : Prop :=
  t = { s with engines := t.engines, teams := t.teams, issue := none } ∧ (t.engine q) = { s.engine q with run := some r }
  ∧ (∀ k, k ≠ q → t.engine k = s.engine k) ∧ Raised s t tid fl

/-- A word on a beam core completes (R150): the scalar destination takes `v`'s value where the predicate holds, and the
PC of the pass moves on. -/
def BeamWord (i : Instr) (f : Fields) (v : Run → (Opd → W64) → W64 × BitVec 5) : Prop :=
  ∀ s q r, BeamIssuing s q r →
    let pc := r.pc + BitVec.ofNat 64 f.len.bytes
    (r.predOn f = false → ∃ t, exec i s = .next t ∧ OnlyRun s t q { r with pc := pc } r.pass.tid 0)
    ∧ (r.predOn f = true → ∃ t, exec i s = .next t
      ∧ OnlyRun s t q { (match f.d with | .s n => r.setScal n.val (v r (r.srcU f)).1 | _ => r) with pc := pc } r.pass.tid
          (v r (r.srcU f)).2)

/-- Group `h` is `g` after sub-group `sub` has issued, with predicate `k` taking `v` in the lanes `ls` (R48: p0 never). -/
def PredIssued (g h : Group) (k : Nat) (ls : List Nat) (v : Nat → Bool) (sub : Nat) (pc : W64) : Prop :=
  (k ≠ 0 → ∀ l < 256, mhas (h.pred k) l = if l ∈ ls then v l else mhas (g.pred k) l)
  ∧ (∀ j, j ≠ k ∨ j = 0 → h.pred j = g.pred j)
  ∧ h = { g with
    p := h.p, wrote := [], subs := Tbl.set g.subs sub { g.sub sub with pc := pc }
    lastSub := some sub, wskipNow := g.wskipNow.filter (· != sub), sleep := Tbl.del g.sleep sub }

/-- A word in lanes that writes predicate `k` completes: the lanes computed take `v`'s bit. -/
def PredWord (i : Instr) (f : Fields) (k : Nat) (v : Group → Nat → Bool × BitVec 5) : Prop :=
  ∀ s gid sub s1, Issuing s gid sub → RefsOk (s.group gid) (usesABC f) [] → (s.group gid).activeReal sub f ≠ 0 →
    Readable (ctx i f s gid sub) (usesABC f) s s1 →
    let act := (s.group gid).activeReal sub f
    let ls := laneSet (s1.group gid) act
    ∃ t, exec i s = .next t ∧ OnlyGroups s1 t ∧ OthersKept s1 t gid
      ∧ Raised s1 t (s.group gid).ident.tid (laneFlags act ls fun l => (v (s1.group gid) l).2)
      ∧ PredIssued (s1.group gid) (t.group gid) k ls (fun l => (v (s1.group gid) l).1) sub (nextPc f s gid sub)

/-- The same under UNI: one bit, to every lane of the sub-group's mask (R373). -/
def PredUniWord (i : Instr) (f : Fields) (k : Nat) (v : (Opd → W64) → Bool × BitVec 5) : Prop :=
  ∀ s gid sub, Issuing s gid sub → (s.group gid).uniOn sub f = true →
    Delivered (s.group gid) [f.a, f.b] →
    let r := v ((s.group gid).srcU sub f)
    ∃ t, exec i s = .next t ∧ ScalarFrame s t gid r.2
      ∧ PredIssued (s.group gid) (t.group gid) k (mlanes ((s.group gid).sub sub).mask) (fun _ => r.1) sub (nextPc f s gid sub)

/-- An integer compare on a beam core: the pass's predicate takes the bit (R150), where the word's own predicate holds. -/
def PredBeamWord (i : Instr) (f : Fields) (k : Nat) (v : (Opd → W64) → Bool) : Prop :=
  ∀ s q r, BeamIssuing s q r → ∃ t, exec i s = .next t
    ∧ OnlyRun s t q { (if r.predOn f then r.setPred k (v (r.srcU f)) else r) with pc := r.pc + BitVec.ofNat 64 f.len.bytes }
        r.pass.tid 0

/-- A range of the window holds `bs`, its granules tagged `tag` (R49); every other byte stays. -/
def RangeWritten (g h : Group) (start : Nat) (bs : List Byte) (tag : Tag) : Prop :=
  h.win.bytes start bs.length = bs ∧ (∀ a, a < start ∨ start + bs.length ≤ a → h.win.read a = g.win.read a)
  ∧ ∀ k ∈ Group.granules start bs.length, h.tagAt k = tag

/-- An affine operation has written the pair `d` (R67): the lanes computed take `row`'s coefficients (a', b'), the others
copy pair `p`; `d` is P on slot `k`, tagged FP32, the active lanes' flags are raised, and no other byte changes. -/
def AffineDone (s t : State) (f : Fields) (gid sub p k d : Nat) (row : Nat → Nat × Nat × BitVec 5) : Prop :=
  let g := s.group gid
  let h := t.group gid
  let act := g.activeReal sub f
  let ls := laneSet g act
  LaneFrame s t gid sub (nextPc f s gid sub) (laneFlags act (List.range 256) fun l => (row l).2.2)
  ∧ (∀ l < 256, l ∈ ls → h.lane (d + 1) l = BitVec.ofNat 32 (row l).1 ∧ h.lane d l = BitVec.ofNat 32 (row l).2.1)
  ∧ (∀ l < 256, l ∉ ls → h.lane (d + 1) l = g.lane (p + 1) l ∧ h.lane d l = g.lane p l)
  ∧ h.st d = .pend k ∧ h.st (d + 1) = .pend k ∧ (∀ x ∈ Group.granules (1024 * d) 2048, h.tagAt x = .f32)
  ∧ ∀ a, a < 1024 * d ∨ 1024 * d + 2048 ≤ a → h.win.read a = g.win.read a

/-! ### Words that are not lane results -/

/-- Group `g` after a turn in which sub-group `sub` issued: its sleep is over and a WSKIP is used up. -/
def turnOver (g : Group) (sub : Nat) : Group :=
  { g with wrote := [], lastSub := some sub, wskipNow := g.wskipNow.filter (· != sub), sleep := Tbl.del g.sleep sub }

/-- The same with `sub` standing at `pc`. -/
def issuedAt (g : Group) (sub : Nat) (pc : W64) : Group := turnOver (g.setSub sub { g.sub sub with pc := pc }) sub

/-- `t` is `u` but for the hold latches (R57), which no register shows. -/
def LatchesAside (u t : State) : Prop :=
  t = { u with cores := t.cores } ∧ ∀ n, { t.core n with latch := [] } = { u.core n with latch := [] }

/-- `t` is `u` with the turn over and group `gid` being `h`. -/
def TurnOf (u t : State) (gid : Nat) (h : Group) : Prop :=
  t = { u with groups := t.groups, cores := t.cores, issue := none }
  ∧ (∀ n, { t.core n with latch := [] } = { u.core n with latch := [] }) ∧ OthersKept u t gid ∧ t.group gid = h

/-- `t` is `u` with the turn over, sub-group `sub` of `gid` having issued and standing at `pc`. -/
abbrev Turned (u t : State) (gid sub : Nat) (pc : W64) : Prop := TurnOf u t gid (issuedAt (u.group gid) sub pc)

/-- The word completes: `u` holds all of its effect, and its sub-group goes on at `pc`. -/
abbrev Does (i : Instr) (s : State) (gid sub : Nat) (pc : W64) (u : State) : Prop :=
  ∃ t, exec i s = .next t ∧ Turned u t gid sub pc

/-- The word traps in a state `u` of the machine. -/
abbrev Traps (i : Instr) (f : Fields) (s : State) (gid sub : Nat) (u : State) (x : Trap) : Prop :=
  ∃ t, exec i s = .next t ∧ LatchesAside (endTurn (takeTrap u gid sub ((s.group gid).sub sub).pc f.len.bytes x)) t

/-- A word by lane with no active real lane has no effect: its sub-group goes on, whatever its sources hold (R24, R307; that
it waits for none of them is log 22, DEDUCED). `refs` is what R47 asks of its register references. -/
def IdleByLane (i : Instr) (f : Fields) (refs : Group → Prop) : Prop :=
  ∀ s gid sub, Issuing s gid sub → refs (s.group gid) → (s.group gid).activeReal sub f = 0 →
    Does i s gid sub (nextPc f s gid sub) s

/-- The same under UNI, where the predicate does not hold (R25, R307; log 22). -/
def IdleUnderUni (i : Instr) (f : Fields) (refs : Group → Prop) : Prop :=
  ∀ s gid sub, Issuing s gid sub → refs (s.group gid) → (s.group gid).uniOn sub f = false →
    Does i s gid sub (nextPc f s gid sub) s

/-- The sub-group is not ready: the turn passes to the next sub-group of the order, or is blank (R27, R35). -/
abbrev Waits (i : Instr) (s u : State) : Prop := ∃ t, exec i s = .next t ∧ LatchesAside (notReady u) t

/-- The beam core completes the word, its pass then being `r'`. -/
abbrev BeamDoes (i : Instr) (s : State) (q : Nat) (r r' : Run) : Prop := ∃ t, exec i s = .next t ∧ OnlyRun s t q r' r.pass.tid 0

/-- A group with its scalar destination written; nothing for ZERO. -/
abbrev withS (s : State) (gid : Nat) (d : Opd) (x : W64) : State := s.setGroup gid ((s.group gid).putS d x)

/-- What a divergent branch of sub-group `x` with lanes `ls` and next PCs `next` leaves (R30). -/
def Diverged (g h : Group) (x : Nat) (ls : List Nat) (next : Nat → W64) (jpc : W64) : Prop :=
  let low := fun l => ∀ m ∈ ls, (next l).toNat ≤ (next m).toNat
  h = { g with subs := h.subs, parked := h.parked }
  ∧ (h.sub x).jpc = (g.sub x).jpc ∧ (h.sub x).parent = (g.sub x).parent
  ∧ (∀ l ∈ ls, low l → mhas (h.sub x).mask l = true ∧ (h.sub x).pc = next l)
  ∧ (∀ l ∈ ls, ¬ low l →
      (∃ e < 8, Tbl.look g.subs e = none ∧ mhas (h.sub e).mask l = true ∧ (h.sub e).pc = next l ∧ (h.sub e).jpc = jpc
        ∧ (h.sub e).parent = x)
      ∨ (Tbl.look h.parked l = some ⟨next l, x⟩ ∧ ∀ e < 8, (Tbl.look h.subs e).isSome = true))
  ∧ (∀ l < 256, mhas (h.sub x).mask l = true → l ∈ ls ∧ low l)
  ∧ (∀ e < 8, Tbl.look g.subs e = none → ∀ l < 256, mhas (h.sub e).mask l = true → l ∈ ls ∧ next l = (h.sub e).pc)
  ∧ (∀ e < 8, ∀ d < e, Tbl.look g.subs e = none → Tbl.look g.subs d = none → (Tbl.look h.subs e).isSome = true →
      (Tbl.look h.subs d).isSome = true ∧ (h.sub d).pc.toNat < (h.sub e).pc.toNat)
  ∧ (∀ k, k ≠ x → (Tbl.look g.subs k).isSome = true → Tbl.look h.subs k = Tbl.look g.subs k)
  ∧ ∀ l, l ∉ ls → Tbl.look h.parked l = Tbl.look g.parked l

/-- Nothing waits for delivery to the group at an FWAIT or WAITC of these classes: no imprecise fault (R384, R443), no
parked copy that has yet to report (R182), no WATCHM hit of its team (R279). -/
def NothingDue (s : State) (gid : Nat) (cs : List Cls) : Prop :=
  let g := s.group gid
  (∀ x ∈ g.faults, x.cls ∉ cs)
  ∧ (∀ c ∈ s.copies, c.2.gid = gid → ∀ cause tv, c.2.st = .parked cause tv false → (if c.2.obj = none then Cls.cp else Cls.th) ∉ cs)
  ∧ ∀ w ∈ (s.part g.ident.part).watch, w.2.hit = none ∨ w.2.lid ≠ (s.launch g.ident.lid).r.id ∨ w.2.team ≠ g.ident.team

/-- A scratchpad object of `n` bytes that a group may use: its address aligned, inside an allocation of its spread that is
not broken, and the sub-group not already waiting (R226, R230). -/
def ObjectAt (s : State) (gid sub : Nat) (f : Fields) (n addr t off : Nat) : Prop :=
  Delivered (s.group gid) [f.a, f.b] ∧ (∀ w ∈ s.waiters, ¬ (w.gid = gid ∧ w.sub = sub))
  ∧ addr = objAddr (s.group gid) f ∧ addr % n = 0
  ∧ spTeam s (s.group gid).ident.tid addr = some (t, off) ∧ (s.team t).broken = false ∧ off + n ≤ (s.team t).spSize

/-- A queue header that R225 and R226 admit, OPEN, with room for its address in the team's queue table. -/
def QueueAt (s : State) (gid sub : Nat) (f : Fields) (addr t off cap head tail : Nat) : Prop :=
  let g := s.group gid
  let n := spNum s t
  ObjectAt s gid sub f 64 addr t off ∧ (addr ∈ (s.team g.ident.tid).queues ∨ (s.team g.ident.tid).queues.length < 16)
  ∧ cap = n off 2 ∧ 1 ≤ cap ∧ cap ≤ 1024 ∧ n (off + 2) 1 = 1 ∧ n (off + 3) 1 = 0 ∧ n (off + 12) 4 = 0
  ∧ n (off + 0x28) 24 = 0 ∧ head = n (off + 4) 4 ∧ tail = n (off + 8) 4 ∧ (tail + 2 ^ 32 - head) % 2 ^ 32 ≤ cap
  ∧ off + 64 + 9 * cap ≤ (s.team t).spSize ∧ (s.team g.ident.tid).member < 24

/-- A barrier that R230 admits, OPEN. -/
def BarrierAt (s : State) (gid sub : Nat) (f : Fields) (addr t off : Nat) (b : Bar) : Prop :=
  let n := spNum s t
  ObjectAt s gid sub f 32 addr t off ∧ b = ⟨n off 2, n (off + 2) 2, n (off + 4) 4, n (off + 8) 8⟩
  ∧ b.exp ≠ 0 ∧ b.arrv ≤ b.exp ∧ n (off + 0x10) 1 = 0 ∧ n (off + 0x11) 15 = 0

/-- A scratchpad with another content. -/
abbrev withSp (s : State) (t : Nat) (sp : Mem) : State := s.setTeam t { s.team t with sp := sp }

/-- Memory `k` is `m` but for `n` bytes from each address of a list, where it holds the numbers given. -/
def Stored (m k : Mem) (parts : List (Nat × Nat × Nat)) : Prop :=
  (∀ p ∈ parts, k.num p.1 p.2.1 = p.2.2) ∧ ∀ a, (∀ p ∈ parts, a < p.1 ∨ p.1 + p.2.1 ≤ a) → k.read a = m.read a

/-- No sub-group waits at the object at `off` of a team's scratchpad. -/
def NoWaiters (s : State) (t off : Nat) : Prop := ∀ w ∈ s.waiters, ¬ (w.tid = t ∧ w.off = off)

/-- An access is in flight under the next number (R207), and its group has taken a sequence value for it (R214). -/
def AccessIssued (s t : State) (gid : Nat) (a : Access) : Prop :=
  t = { s with
    groups := t.groups, cores := t.cores, copies1 := t.copies1, nextId := s.nextId + 1, issue := none
    accesses := Tbl.set (pruneAccesses s).accesses s.nextId a }
  ∧ (∀ n, { t.core n with latch := [] } = { s.core n with latch := [] }) ∧ OthersKept s t gid

/-- What issuing a load leaves in its group: the destination is E and owed by the load, helper lanes hold zero, and no
other byte of the window changes (R23, R51). -/
def LoadMarked (g h : Group) (id start len : Nat) (t : Tag) (zero : List Nat) (sub : Nat) (pc : W64) : Prop :=
  (∀ r ∈ regsOf start len, h.st r = .empty) ∧ Tbl.look h.prods id = some { start := start, len := len, tag := t }
  ∧ (∀ a, h.win.read a = if ∃ z ∈ zero, z ≤ a ∧ a < z + 4 then 0 else g.win.read a)
  ∧ (g.anyP start len = false → (∀ r, r ∉ regsOf start len → h.st r = g.st r) ∧ h.slots = g.slots ∧ h.tags = g.tags)
  ∧ h = { turnOver g sub with
      seq := (g.seq + 1) % 2 ^ 48, subs := Tbl.set g.subs sub { g.sub sub with pc := pc }
      win := h.win, tags := h.tags, vst := h.vst, slots := h.slots, prods := h.prods }

/-- The group after an operation that took a sequence value and left every register alone. -/
abbrev nextSeqOf (g : Group) : Group := { g with seq := (g.seq + 1) % 2 ^ 48 }

/-- The access of a group that a word of sub-group `sub` issues. -/
abbrev accessOf (g : Group) (gid sub : Nat) (kind : AccKind) (dest : Dest) (t : Tag) (signed : Bool) (pol : W32) (es : List Elem) :
    Access :=
  { gid := gid, tid := g.ident.tid, seq := g.seq, kind := kind, dest := dest, tag := t, signed := signed, pol := pol
    core := g.ident.core, elems := es, mask := (g.sub sub).mask }

/-- Of the lines stored to, the copies in the L1 that serves the issuing core and the replicas of its quartet are gone, and
no other copy (R171, R175). -/
def OwnCopiesDropped (s t : State) (g : Group) (es : List Elem) : Prop :=
  ∀ c, c ∈ t.copies1 ↔ c ∈ s.copies1 ∧ ∀ e ∈ es, ∀ a root ro, e.place = .pa a root ro →
    ¬ (c.line = lineOf a ∧ (c.replica = true ∧ c.core / 4 = g.ident.core / 4
      ∨ c.replica = false ∧ c.core = l1Core s g.ident.part g.ident.core (lineOf a)))

/-- A vector result that lands `12 + ⌈quads / 2⌉` ticks after its issue has been computed (R28, R385): its registers are E,
owed by the producer `id`, its lanes stand in the window, and no other byte of the window changes. -/
def ResultOwed (g h : Group) (id now d : Nat) (act : Mask) (ls : List Nat) (v : Nat → W32) (t : Tag) : Prop :=
  (∀ l ∈ ls, h.lane d l = v l) ∧ (∀ a, ¬ InLanes d ls a → h.win.read a = g.win.read a) ∧ h.st d = .empty
  ∧ Tbl.look h.prods id = some
      { start := 1024 * d, len := 1024, tag := t, due := some (now + 12 + (((mlanes act).map (· / 4)).dedup.length + 1) / 2) }
  ∧ (g.anyP (1024 * d) 1024 = false → (∀ r, r ≠ d → h.st r = g.st r) ∧ h.slots = g.slots ∧ h.tags = g.tags)

/-- What a word leaves alone that starts one operation, `s.nextId`, of its group. -/
def OneStarted (s t : State) (gid sub : Nat) (pc : W64) (fl : BitVec 5) : Prop :=
  t = { s with groups := t.groups, teams := t.teams, cores := t.cores, nextId := s.nextId + 1, issue := none }
  ∧ (∀ n, { t.core n with latch := [] } = { s.core n with latch := [] }) ∧ OthersKept s t gid
  ∧ Raised s t (s.group gid).ident.tid fl ∧ Issued (s.group gid) (t.group gid) sub pc

/-- A policy operand that R169 admits and that is available. -/
def PolicyOk (g : Group) (f : Fields) : Prop := Delivered g [f.pol] ∧ polValid (policy g f) = true

/-- The helper words of `n` registers from `d` (R23). -/
def helperWords (g : Group) (act : Mask) (d n : Nat) : List Nat :=
  (g.helpers act).flatMap fun l => (List.range n).map fun w => 1024 * (d + w) + 4 * l

/-- Element `i` of an access may be performed (R212), and its place can be reached (R302). -/
def ElementReady (s : State) (id i : Nat) (a : Access) (e : Elem) : Prop :=
  Tbl.look s.accesses id = some a ∧ a.elems[i]? = some e ∧ e.st = .issued ∧ heldBack s id i a e = false
  ∧ ∀ d, e.place = .dom d → d / 2 ^ 46 ∉ s.m.left

/-- Memory `k` is `m` with `bs` stored at `a`. -/
def Written (m k : Mem) (a : Nat) (bs : List Byte) : Prop :=
  k.bytes a bs.length = bs ∧ ∀ x, x < a ∨ a + bs.length ≤ x → k.read x = m.read x

/-- `bs` stands at a device physical address, and no other byte of device memory differs, but for the bits by which a home
marks the written pages of a partition that is being exported (R293). -/
def WrittenHome (s t : State) (a : Nat) (bs : List Byte) : Prop :=
  ∃ m, Written s.mem m a bs ∧ t.mem = (markDirty { s with mem := m } a bs.length).mem
    ∧ ((∀ p, (s.part p).e.state ≠ 3 ∧ (s.part p).e.state ≠ 4) → t.mem = m)

/-- `bs` stands at a place, and no byte elsewhere, in any memory of the module or scratchpad, differs. -/
def PlaceWritten (s t : State) (p : Place) (bs : List Byte) : Prop :=
  (match p with | .pa a _ _ => WrittenHome s t a bs | _ => t.mem = s.mem)
  ∧ (match p with | .dom a => Written s.domainMem t.domainMem a bs | _ => t.domainMem = s.domainMem)
  ∧ (match p with | .host a => Written s.hostMem t.hostMem a bs | _ => t.hostMem = s.hostMem)
  ∧ ∀ k, match p with
    | .sp n off => if k = n then Written (s.team k).sp (t.team k).sp off bs else (t.team k).sp = (s.team k).sp
    | _ => (t.team k).sp = (s.team k).sp

/-- No byte of any memory or scratchpad differs. -/
def MemoriesSame (s t : State) : Prop :=
  t.mem = s.mem ∧ t.hostMem = s.hostMem ∧ t.domainMem = s.domainMem ∧ ∀ k, (t.team k).sp = (s.team k).sp

/-- The place of `n` bytes of an engine's virtual range that lies in one page, its translation known (R165). -/
def OnePage (s : State) (part : Nat) (w : Bool) (pol : W32) (va n : Nat) (p : Place) : Prop :=
  engPlaces s part w pol va n = .ok (s, [(va, p, n)])

/-- The place of `n` bytes of one side of a copy (R178). -/
def SideAt (s : State) (y : Copy) (k : Side) (w : Bool) (a n : Nat) (p : Place) : Prop :=
  match k with
  | .virt => OnePage s y.part w y.pol a n p
  | .spad => ∃ t off, spadPlace s y.tid a = some (t, off) ∧ p = .sp t off
  | .host => ∃ b, hostRange s y.part w a n = some b ∧ p = .host b

/-- No launch is killed, no team has ended or waits to be saved, and none waits at MREL, so that the end of an operation sweeps
nothing away and frees no reservation (R280, R163, R416); and no result lands and no record closes with it (R385, R266). -/
def NothingSwept (s : State) : Prop :=
  (∀ l ∈ s.launches, l.2.killed = none)
  ∧ (∀ x ∈ s.teams, x.2.ended = false
      ∧ (x.2.gids = [] → contextsOf s x.2.part (s.launch x.2.lid).r.id x.2.index = []))
  ∧ (∀ g ∈ s.groups, ∀ p ∈ g.2.prods, p.2.due.all (fun t => decide (s.m.ftime < t)) = true)
  ∧ (∀ c ∈ s.cores, ∀ r ∈ c.2.recs, r.2.engine = true → r.2.stage2 = true)
  ∧ ∀ w ∈ s.waiters, w.kind ≠ .mrel

/-- The group of an operation after a class counter of it has fallen by one and its horizon has risen (R213, R216). -/
def Retired (s t : State) (gid : Nat) (tw : Nat) (fall : Csrs → Csrs) : Prop :=
  (t.group gid).csr = fall { (s.group gid).csr with wh := max (s.group gid).csr.wh tw }

/-- A root slot that an instruction may use (R192, R428): aligned, its page ROOT on this module's memory. -/
def SlotAt (s : State) (part va : Nat) (w : Bool) (pa ns : Nat) : Prop :=
  va % 32 = 0 ∧ (∀ l ∈ s.badLines, overlaps l 128 pa 32 = false)
  ∧ ∃ e ro, translate s part va w false = .ok (s, e) ∧ e.place va = .pa pa true ro ∧ e.ns = ns

/-- An object with one reference more, saturating, every other as it stands (R195). -/
def Referenced (s t : State) (space name : Nat) : Prop :=
  t.objs.length = s.objs.length ∧ ∀ (i : Nat) (o : Obj), s.objs[i]? = some o → t.objs[i]? = some
    (if o.space = space ∧ o.name = name then { o with count := min 0xFFFFFFFF (o.count + 1) } else o)

/-- A thicket operation in flight under the next number, TH one higher and a sequence value taken (R198, R214). -/
abbrev thIssued (s : State) (gid : Nat) (o : ThOp) : State :=
  ({ s with nextId := s.nextId + 1, thops := Tbl.set s.thops s.nextId o }).setGroup gid
    { nextSeqOf (s.group gid) with csr := { (s.group gid).csr with th := (s.group gid).csr.th + 1 } }

/-- A range of scratchpad operands inside a live allocation (R166). -/
def InSpad (s : State) (tid a n : Nat) : Prop := ∃ x, spad64 s tid (BitVec.ofNat 64 a) n = .ok x

/-- The start that a layer word names (R106): an immediate in 256s, or a scalar's low 32 bits. -/
def startOf (g : Group) (f : Fields) : Nat :=
  match f.b with | .s n => (g.scal n.val).toNat % 2 ^ 32 | _ => 256 * (f.imm.extractLsb' 8 24).toNat

/-- The scratchpad address of a layer word's input (R395). -/
def inputOf (g : Group) (f : Fields) : Nat := (match f.a with | .s k => (g.scal k.val).toNat | _ => 0) % 2 ^ 32

/-- No store or ATOM of the group that has yet to be performed meets a range of a scratchpad (R212, R395). -/
def NoOlderStore (s : State) (gid t off n : Nat) : Prop :=
  ∀ c ∈ s.accesses, c.2.gid = gid → c.2.kind.storeLike = true → ∀ e ∈ c.2.elems, e.open' = true →
    e.place.meets e.size (.sp t off) n = false

/-- An array operation is in flight under the next number. -/
def ArrIssued (s t : State) (gid : Nat) (o : ArrOp) : Prop :=
  t = { s with groups := t.groups, cores := t.cores, nextId := s.nextId + 1, issue := none, arrops := Tbl.set s.arrops s.nextId o }
  ∧ (∀ n, { t.core n with latch := [] } = { s.core n with latch := [] }) ∧ OthersKept s t gid

/-- Group `h` is `g` after sub-group `sub` has issued and stands at `pc`: the window's own records aside, nothing differs. -/
def WindowIssued (g h : Group) (sub : Nat) (pc : W64) : Prop :=
  h = { issuedAt g sub pc with win := h.win, tags := h.tags, vst := h.vst, slots := h.slots, prods := h.prods }

/-- A producer has seeded pair `d` on slot `k` with `a0` and `b0` (R62): both registers P, tagged FP32, no other byte of the
window changed; where no pending pair was in the way, no other register state or slot either. -/
def PairSeeded (g h : Group) (d k : Nat) (a0 b0 : Nat → W32) (sub : Nat) (pc : W64) : Prop :=
  (∀ l < 256, h.lane (d + 1) l = a0 l ∧ h.lane d l = b0 l) ∧ h.st d = .pend k ∧ h.st (d + 1) = .pend k
  ∧ (∀ x ∈ Group.granules (1024 * d) 2048, h.tagAt x = .f32)
  ∧ (∀ a, a < 1024 * d ∨ 1024 * d + 2048 ≤ a → h.win.read a = g.win.read a)
  ∧ (g.anyP (1024 * d) 2048 = false → (∀ r, r ≠ d → r ≠ d + 1 → h.st r = g.st r) ∧ ∀ j, j ≠ k → h.slot j = g.slot j)
  ∧ WindowIssued g h sub pc

/-- A PREEMPT has entered the handler of a group (R268, R273): TEPC is the unissued instruction of the sub-group that takes
it, TVAL the budget, and no register differs. -/
def PreemptTaken (s t : State) (gid : Nat) : Prop :=
  let g := s.group gid
  let sub := (g.startTurn.order.find? g.startTurn.isSub).getD 15
  let h := t.group gid
  h.csr = { g.csr with tcause := 0x18, tepc := (g.startTurn.sub sub).pc, tval := BitVec.ofNat 64 g.csr.budget, m := true, pend := false }
  ∧ h.pre = .served s.m.ftime ∧ h.handler = some sub ∧ (h.sub sub).pc = g.csr.hbase ∧ h.hang = .no
  ∧ h.win = g.win ∧ h.tags = g.tags ∧ h.vst = g.vst ∧ h.s = g.s ∧ h.p = g.p ∧ h.slots = g.slots ∧ OthersKept s t gid

/-- The position whose turn a rod takes next: the first that is bound, from the one it stands at (R26). -/
def TurnAt (s : State) (core rod p : Nat) : Prop :=
  let c := s.core core
  let bound := fun (k : Nat) => (Tbl.get {} c.binds (16 * ((Tbl.get 0 c.rodPos rod + k) % 8) + rod)).state = 1
  ∃ i < 8, p = (Tbl.get 0 c.rodPos rod + i) % 8 ∧ bound i ∧ ∀ j < i, ¬ bound j

/-- A request of the service ring is at its head (R286): its number and bytes, with the opcode and reserved bytes given. -/
def Requested (s : State) (p op head : Nat) (b : List Byte) : Prop :=
  let a := (s.part p).e.service
  a ≠ 0 ∧ head = s.mem.num (a + 4) 4 ∧ s.mem.num a 4 ≠ head ∧ b = s.mem.bytes (a + 0x100 + 64 * (head % 256)) 64
  ∧ reqNum b 0 1 = op ∧ reqNum b 1 3 = 0

/-- The request at the head has its result and done word, and HEAD counts it (R286). -/
def Answered (t : State) (p head code : Nat) : Prop :=
  let a := (t.part p).e.service
  t.mem.num (a + 0x100 + 64 * (head % 256) + 0x38) 4 = code ∧ t.mem.num (a + 0x100 + 64 * (head % 256) + 0x3C) 4 = 1
  ∧ t.mem.num (a + 4) 4 = (head + 1) % 2 ^ 32

/-- `bs` stands at a place of a partition's memory, the bits of its dirty bitmap aside where the place is on this module. -/
def StoredAt (s t : State) (p : Place) (bs : List Byte) : Prop :=
  match p with | .pa a _ _ => WrittenHome s t a bs | _ => peek t p bs.length = bs

/-- A 64-bit word of a partition that the management core stores (R245): where its address leads, and what stands there; a
ROOT page (R192) and a module out of reach (R302) are not written. -/
def WordAt (s t : State) (p va : Nat) (w : W64) : Prop :=
  va ≠ 0 ∧ va % 8 = 0 ∧ ∀ e, translate s p va true false = .ok (s, e) → (e.place va).isRoot = false →
    outOfReach s (e.place va) 8 = false → StoredAt s t (e.place va) (bytesOfNat 8 w.toNat)

/-- No bit by which a home would mark a page of a partition that is being exported stands among `n` bytes (R293). -/
def Unmarked (s : State) (a n : Nat) : Prop :=
  ∀ page q k, Tbl.look s.reverse page = some (q, k) → (s.part q).e.state = 3 ∨ (s.part q).e.state = 4 →
    (s.part q).bitmap true + k / 8 < a ∨ a + n ≤ (s.part q).bitmap true + k / 8

end Claim

end Sys2Proof
end

