-- ==== Sys2Proof/Tables.lean ====
section
/-!
DEFINITION. The tables by which claims name instructions of one shape with what the manual says each computes, in its own
terms: bits, integers, relations.
-/

namespace Sys2Proof.Claim

open Machine

/-- Exact integer results (R387, R388, R391 to R393), by width and operands. -/
def integerOps : List ((Fields → Instr) × (Nat → Int → Int → Int → Int)) :=
  [(.iadd, fun _ x y _ => x + y), (.isub, fun _ x y _ => x - y), (.imul, fun _ x y _ => x * y),
    (.imulh, fun w x y _ => x * y / 2 ^ w), (.imad, fun _ x y z => x * y + z), (.imin, fun _ x y _ => min x y),
    (.imax, fun _ x y _ => max x y), (.iabs, fun _ x _ _ => |x|), (.ineg, fun _ x _ _ => -x)]

/-- The encoding of a class A instruction on integers or bits: OPC and FN, the formats, the number of sources, and whether SAT may be 1. -/
structure IntegerEncoding where
  word : Fields → Instr
  opc : Nat
  fn : Nat
  fmts : List Tag
  sources : Nat
  sat : Bool

/-- The encodings of R387, R388 and R391 to R393. -/
def integerEncodings : List IntegerEncoding :=
  [⟨.iadd, 0x04, 0, [.i32, .n32, .i8, .n8], 2, true⟩, ⟨.isub, 0x04, 1, [.i32, .n32, .i8, .n8], 2, true⟩,
    ⟨.imul, 0x05, 0, [.i32, .n32], 2, true⟩, ⟨.imulh, 0x05, 1, [.i32, .n32], 2, false⟩, ⟨.imad, 0x06, 0, [.i32, .n32], 3, true⟩,
    ⟨.imin, 0x07, 0, [.i32, .n32], 2, false⟩, ⟨.imax, 0x07, 1, [.i32, .n32], 2, false⟩, ⟨.iabs, 0x08, 0, [.i32, .i8], 1, true⟩,
    ⟨.ineg, 0x08, 1, [.i32, .i8], 1, true⟩]

/-- A value of `n` bits by its bits, lowest first. -/
def bitsOf (n : Nat) (p : Nat → Bool) : BitVec n := BitVec.ofFnLE fun i : Fin n => p i.val

/-- The field of BFX and BFI: its length within the width (R336, R337). -/
def fieldLen (w p n : Nat) : Nat := if p < w then min n (w - p) else 0

/-- Results by bits (R331, R336, R337, R347, R432), at either width. -/
def bitOps : List ((Fields → Instr) × (Fields → (n : Nat) → BitVec n → BitVec n → BitVec n → BitVec n)) :=
  [(.and, fun _ n x y _ => bitsOf n fun i => x.getLsbD i && y.getLsbD i),
    (.andn, fun _ n x y _ => bitsOf n fun i => x.getLsbD i && !y.getLsbD i),
    (.or, fun _ n x y _ => bitsOf n fun i => x.getLsbD i || y.getLsbD i),
    (.xor, fun _ n x y _ => bitsOf n fun i => x.getLsbD i != y.getLsbD i),
    (.not, fun _ n x _ _ => bitsOf n fun i => !x.getLsbD i),
    (.shl, fun _ n x y _ => BitVec.ofNat n (x.toNat * 2 ^ (y.toNat % 256))),
    (.shr, fun _ n x y _ => BitVec.ofNat n (x.toNat / 2 ^ (y.toNat % 256))),
    (.sar, fun _ n x y _ => BitVec.ofInt n (x.toInt / 2 ^ (y.toNat % 256))),
    (.clz, fun _ n x _ _ => BitVec.ofNat n (n - x.toNat.size)),
    (.popc, fun _ n x _ _ => BitVec.ofNat n ((List.range n).filter x.getLsbD).length),
    (.bfx, fun f n x y z => bitsOf n fun i =>
      let p := y.toNat % 256
      let m := fieldLen n p (z.toNat % 256)
      if i < m then x.getLsbD (p + i) else f.fmt == .i32 && decide (0 < m) && x.getLsbD (p + m - 1)),
    (.bfi, fun _ n x y z => bitsOf n fun i =>
      let p := y.toNat % 256
      let m := fieldLen n p (y.toNat / 256 % 256)
      if p ≤ i && i < p + m then x.getLsbD (i - p) else z.getLsbD i)]

/-- The encodings of R331, R336, R337, R347 and R432. -/
def bitEncodings : List IntegerEncoding :=
  [⟨.and, 0x0A, 0, [.raw, .i32, .n32], 2, false⟩, ⟨.andn, 0x0A, 1, [.raw, .i32, .n32], 2, false⟩,
    ⟨.or, 0x0A, 2, [.raw, .i32, .n32], 2, false⟩, ⟨.xor, 0x0A, 3, [.raw, .i32, .n32], 2, false⟩,
    ⟨.not, 0x0A, 4, [.raw, .i32, .n32], 1, false⟩, ⟨.shl, 0x0B, 0, [.i32, .n32], 2, false⟩,
    ⟨.shr, 0x0B, 1, [.i32, .n32], 2, false⟩, ⟨.sar, 0x0B, 2, [.i32, .n32], 2, false⟩, ⟨.clz, 0x0C, 0, [.i32, .n32], 1, false⟩,
    ⟨.popc, 0x0C, 1, [.i32, .n32], 1, false⟩, ⟨.bfx, 0x0D, 0, [.i32, .n32], 3, false⟩, ⟨.bfi, 0x0E, 0, [.i32, .n32], 3, false⟩]

/-- The relations of ICMP (R389). -/
def compareOps : List ((Fields → Instr) × (Int → Int → Bool)) :=
  [(.icmpEq, fun x y => decide (x = y)), (.icmpNe, fun x y => decide (x ≠ y)), (.icmpLt, fun x y => decide (x < y)),
    (.icmpLe, fun x y => decide (x ≤ y)), (.icmpGt, fun x y => decide (x > y)), (.icmpGe, fun x y => decide (x ≥ y))]

/-- Element `e` of a lane as the integer it stands for (R81, R87). -/
def elemInt (t : Tag) (x : W32) (e : Nat) : Int := intOf t.signed t.width (x.toNat / 2 ^ (e * t.width) % 2 ^ t.width)

/-- Results of the floating instructions by element (R371, R372, R376 to R382) and the tag of their result, none for FMT. -/
def floatOps : List ((Fields → Instr) × Option Tag × (FFmt → RM → Nat → Nat → Nat → Nat × BitVec 5)) :=
  [(.fadd, none, fun F rm x y _ => F.add rm x y), (.fsub, none, fun F rm x y _ => F.sub rm x y),
    (.fmul, none, fun F rm x y _ => F.mul rm x y), (.ffma, none, fun F rm x y z => F.fma rm false false x y z),
    (.ffms, none, fun F rm x y z => F.fma rm false true x y z), (.fnma, none, fun F rm x y z => F.fma rm true false x y z),
    (.fnms, none, fun F rm x y z => F.fma rm true true x y z), (.fmin, none, fun F _ x y _ => F.minmax false x y),
    (.fmax, none, fun F _ x y _ => F.minmax true x y), (.frcp, none, fun _ rm x _ _ => frcp rm x),
    (.frsq, none, fun _ rm x _ _ => frsq rm x), (.fsqrt, none, fun _ rm x _ _ => fsqrt rm x),
    (.fexp2, none, fun _ rm x _ _ => fexp2 rm x), (.flog2, none, fun _ rm x _ _ => flog2 rm x),
    (.fcls, some .n32, fun F _ x _ _ => (2 ^ F.cls x, 0))]

/-- The relations of FCMP (R373). -/
def floatCompareOps : List ((Fields → Instr) × Cond) :=
  [(.fcmpEq, .eq), (.fcmpNe, .ne), (.fcmpLt, .lt), (.fcmpLe, .le), (.fcmpGt, .gt), (.fcmpGe, .ge), (.fcmpUn, .un)]

/-- Rows of R66 with one pending source, the field that names it (0 for A, 1 for B, 2 for C), and (a', b') with the flags,
by rounding mode, coefficients a and b, and the known sources in field order. -/
def affineOps : List ((Fields → Instr) × Nat × (RM → Nat → Nat → Nat → Nat → Nat × Nat × BitVec 5)) :=
  let F := FFmt.f32
  let mul := fun (rm : RM) (a b x : Nat) => ((F.mul rm a x).1, (F.mul rm b x).1, (F.mul rm a x).2 ||| (F.mul rm b x).2)
  let fmaK := fun (m n : Bool) (rm : RM) (a b x y : Nat) =>
    let p := F.mul rm (if m then flip32 a else a) x
    let q := F.fma rm m n b x y
    (p.1, q.1, p.2 ||| q.2)
  let fmaP := fun (m n : Bool) (rm : RM) (a b x y : Nat) =>
    let q := F.fma rm m n x y b
    (if n then flip32 a else a, q.1, q.2)
  [(.fadd, 0, fun rm a b x _ => (a, (F.add rm b x).1, (F.add rm b x).2)),
    (.fadd, 1, fun rm a b x _ => (a, (F.add rm b x).1, (F.add rm b x).2)),
    (.fsub, 0, fun rm a b x _ => (a, (F.sub rm b x).1, (F.sub rm b x).2)),
    (.fsub, 1, fun rm a b x _ => (flip32 a, (F.sub rm x b).1, (F.sub rm x b).2)),
    (.fmul, 0, fun rm a b x _ => mul rm a b x), (.fmul, 1, fun rm a b x _ => mul rm a b x),
    (.ffma, 0, fmaK false false), (.ffma, 1, fmaK false false), (.ffma, 2, fmaP false false),
    (.ffms, 0, fmaK false true), (.ffms, 1, fmaK false true), (.ffms, 2, fmaP false true),
    (.fnma, 0, fmaK true false), (.fnma, 1, fmaK true false), (.fnma, 2, fmaP true false),
    (.fnms, 0, fmaK true true), (.fnms, 1, fmaK true true), (.fnms, 2, fmaP true true),
    (.mov, 0, fun _ a b _ _ => (a, b, 0))]

/-- Lane a lane exchange reads (R407, R422), by its own number and the index. -/
def exchangeOps : List ((Fields → Instr) × (Nat → Nat → Nat)) :=
  [(.qxch, fun l j => 4 * (l / 4) + (l % 4 ^^^ j % 4)), (.qbcst, fun l j => 4 * (l / 4) + j % 4), (.lshf, fun _ j => j % 256)]

/-- Reductions (R385): whether a prefix, and the combination. -/
def reduceOps : List ((Fields → Instr) × Bool × RedOp) :=
  [(.gredAdd, false, .add), (.gredMin, false, .min), (.gredMax, false, .max), (.gscanAdd, true, .add), (.gscanMin, true, .min),
    (.gscanMax, true, .max)]

/-- CSRs as CSRR reads them (R58, R268, R273), by number. -/
def csrReads : List (Nat × (State → Group → W64)) :=
  let byte := fun (n k : Nat) => n % 256 * 2 ^ k
  let flag := fun (b : Bool) (k : Nat) => if b then 2 ^ k else 0
  [(0x000, fun _ g => g.csr.fmode.zeroExtend 64), (0x001, fun s g => (s.team g.ident.tid).tsf.zeroExtend 64),
    (0x002, fun _ g => BitVec.ofNat 64 g.csr.wh),
    (0x003, fun _ g => BitVec.ofNat 64 (byte g.csr.cp 0 + byte g.csr.rd 8 + byte g.csr.mp 16 + byte g.csr.ar 24 + byte g.csr.th 32)),
    (0x004, fun _ g => g.csr.tview.zeroExtend 64), (0x005, fun _ g => g.csr.aview.zeroExtend 64), (0x006, fun _ g => g.csr.lpol),
    (0x008, fun _ g => g.csr.hbase), (0x009, fun _ g => g.csr.tcause), (0x00A, fun _ g => g.csr.tepc), (0x00B, fun _ g => g.csr.tval),
    (0x00C, fun _ g => BitVec.ofNat 64 (flag g.csr.m 0 + flag g.csr.pend 1 + flag g.csr.wskip 2)),
    (0x00D, fun s g => BitVec.ofNat 64
      ((match g.pre with | .served t => g.csr.budget - (s.m.ftime - t) | _ => g.csr.left) * 2 ^ 32 + g.csr.budget)),
    (0x020, fun _ g => BitVec.ofNat 64 ((g.ident.w - g.ident.k) * 2 ^ 8 + g.ident.k))]
    ++ (List.range 8).map fun i => (0x10 + i, fun _ g => Tbl.get 0 g.csr.watch i)

/-- What CSRW leaves in the group's CSRs (R355, R46, R278), by number. -/
def csrWrites : List (Nat × (Csrs → W64 → Csrs)) :=
  let low := fun (x : W64) (n : Nat) => BitVec.ofNat 64 (x.toNat - x.toNat % 2 ^ n)
  [(0x000, fun c x => { c with fmode := BitVec.ofNat 4 x.toNat }), (0x004, fun c x => { c with tview := BitVec.ofNat 16 x.toNat }),
    (0x005, fun c x => { c with aview := bitsOf 16 fun i => x.getLsbD i && decide (i ≠ 6) && decide (i ≠ 7) }),
    (0x006, fun c x => { c with lpol := x }), (0x008, fun c x => { c with hbase := low x 2 }),
    (0x00A, fun c x => { c with tepc := low x 2 }), (0x00C, fun c x => { c with m := x.getLsbD 0, wskip := x.getLsbD 2 })]
    ++ (List.range 8).map fun i => (0x10 + i, fun c x =>
      let w := bitsOf 64 fun b => x.getLsbD b && (decide (b < 52) || decide (56 ≤ b ∧ b ≤ 59) || decide (61 ≤ b))
      { c with watch := Tbl.put 0 c.watch i w })

/-- The five classes WAITC waits for (R443). -/
def waitOps : List ((Fields → Instr) × Cls) :=
  [(.waitcCp, .cp), (.waitcRd, .rd), (.waitcMp, .mp), (.waitcAr, .ar), (.waitcTh, .th)]

/-- The ATOM instructions with their operations and FN (R237). -/
def atomOps : List ((Fields → Instr) × AtomOp × Nat) :=
  [(.atomAdd, .add, 0), (.atomFadd, .fadd, 1), (.atomSmax, .smax, 2), (.atomSmin, .smin, 3), (.atomNmax, .nmax, 4),
    (.atomNmin, .nmin, 5), (.atomFmax, .fmax, 6), (.atomFmin, .fmin, 7), (.atomAnd, .and, 8), (.atomOr, .or, 9),
    (.atomXor, .xor, 10), (.atomXchg, .xchg, 11), (.atomCas, .cas, 12)]

/-- What an ATOM that does not round leaves at its place (R237), from the old word, the data and the comparand. -/
def atomResults : List (AtomOp × (W32 → W32 → W32 → W32)) :=
  [(.add, fun x d _ => x + d), (.smax, fun x d _ => if x.toInt < d.toInt then d else x),
    (.smin, fun x d _ => if d.toInt < x.toInt then d else x), (.nmax, fun x d _ => if x.toNat < d.toNat then d else x),
    (.nmin, fun x d _ => if d.toNat < x.toNat then d else x), (.and, fun x d _ => bitsOf 32 fun i => x.getLsbD i && d.getLsbD i),
    (.or, fun x d _ => bitsOf 32 fun i => x.getLsbD i || d.getLsbD i),
    (.xor, fun x d _ => bitsOf 32 fun i => x.getLsbD i != d.getLsbD i), (.xchg, fun _ d _ => d),
    (.cas, fun x d c => if x = c then d else x)]

/-- A 64-bit word whose every field holds its value for a field that is not used (R306). -/
def plainWord : Fields :=
  { ext := 0, pol := .zero, imm := 0, x := 0, sat := false, rm := .rne, fmt := .raw, hold := .none, btC := false, btB := false
    btA := false, c := .zero, b := .zero, a := .zero, d := .zero, rk := false, uni := false, pn := false, pg := 0, len := .w64 }

/-- The opcode map (R316): each OPC with the FN values its row lists. -/
def opcodeMap : List (Nat × List Nat) :=
  [(0x00, [0, 1]), (0x01, [0]), (0x02, [0]), (0x03, [0]), (0x04, [0, 1]), (0x05, [0, 1]), (0x06, [0]), (0x07, [0, 1]),
    (0x08, [0, 1]), (0x09, [0, 1, 2, 3, 4, 5]), (0x0A, [0, 1, 2, 3, 4]), (0x0B, [0, 1, 2]), (0x0C, [0, 1]), (0x0D, [0]),
    (0x0E, [0]), (0x20, [0, 1, 2]), (0x21, [0, 1, 2, 3]), (0x22, [0, 1]), (0x23, [0, 1, 2, 3, 4, 5, 6]), (0x24, [0, 1, 2]),
    (0x25, [0, 1]), (0x26, [0]), (0x40, [0]), (0x41, [0, 1]), (0x42, [0]), (0x43, [0]), (0x50, [0]), (0x51, [0]), (0x52, [0]),
    (0x53, [0, 1, 2]), (0x54, [0, 1, 2, 4, 5, 6])]
  ++ [(0x60, [0]), (0x61, [0]), (0x62, [0]), (0x63, [0]), (0x64, [0]), (0x65, [0]), (0x66, [0]), (0x67, [0]), (0x68, [0, 1]),
    (0x69, [0]), (0x6A, [0]), (0x6B, [0]), (0x6C, [0]), (0x6D, [0, 1]), (0x80, [0]), (0x81, [0]), (0x82, [0]), (0x83, [0]),
    (0x84, [0]), (0x85, [0]), (0x86, [0]), (0x87, [0]), (0x88, [0]), (0x89, List.range 13), (0x8A, [0]), (0x8B, [0]),
    (0xA0, [0]), (0xA1, [0]), (0xA2, [0]), (0xA3, [0, 1, 2, 3, 4]), (0xA4, [0, 1, 2]), (0xA5, [0, 1, 2]), (0xA6, [0, 1, 2, 3])]
  ++ [(0xB0, [0, 1]), (0xB1, [0]), (0xB2, [0]), (0xB3, [0]), (0xB4, [0]), (0xB5, [0]), (0xB6, [0, 1, 2]), (0xB7, [0]),
    (0xC0, [0, 1]), (0xC1, [0, 1, 2, 3]), (0xC2, [0, 1]), (0xC3, [0]), (0xC4, [0]), (0xC5, [0]), (0xD0, [0]), (0xD1, [0]),
    (0xD2, [0]), (0xD3, [0]), (0xD4, [0, 1]), (0xD5, [0]), (0xD6, [0]), (0xD7, [0]), (0xE0, [0, 1]), (0xE1, [0])]

/-- An OPC and FN that the opcode map lists. -/
def Listed (opc fn : Nat) : Prop := ∃ r ∈ opcodeMap, r.1 = opc ∧ fn ∈ r.2

end Sys2Proof.Claim
end

