-- ==== Sys2Proof/Certificates/Slice0/Obligations.lean ====
section
/-!
DEFINITION. The statements about the model, one definition each. A statement of several parts is the conjunction of the
parts, each of which stands before it as a definition of its own.
-/

open Sys2Proof Sys2Proof.Machine Sys2Proof.Claim

/-! ### Integers and bits -/

/-- R386, R81, R87: element `e` of an integer result is the exact result, wrapped modulo 2^w; with SAT = 1 a result
outside the format's range becomes the nearest bound. SAT is set exactly when some element was clamped, and no other
flag is. -/
def Sys2Proof.Claim.IntegerElements : Prop :=
  ∀ (f : Fields) (fn : Nat → Int → Int → Int → Int) (x y z : W32), f.fmt ∈ [Tag.i32, .n32, .i8, .n8] →
    let t := f.fmt
    let exact := fun e => fn t.width (elemInt t x e) (elemInt t y e) (elemInt t z e)
    let low := intLo t.signed t.width
    let high := intHi t.signed t.width
    (∀ e < t.elems, (elemInt t (intLane f fn x y z).1 e - exact e) % (2 ^ t.width : Nat) = 0
        ∨ f.sat = true ∧ (exact e < low ∧ elemInt t (intLane f fn x y z).1 e = low
          ∨ high < exact e ∧ elemInt t (intLane f fn x y z).1 e = high))
    ∧ (∀ e < t.elems, f.sat = true → elemInt t (intLane f fn x y z).1 e = max low (min high (exact e)))
    ∧ (intLane f fn x y z).2 = if f.sat = true ∧ ∃ e < t.elems, exact e < low ∨ high < exact e then Flag.sat else 0

/-- R386, R87 under UNI: the same on 64-bit scalars, signed for FMT 1 and natural for FMT 2. -/
def Sys2Proof.Claim.IntegerScalars : Prop :=
  ∀ (f : Fields) (fn : Nat → Int → Int → Int → Int) (x y z : W64), f.fmt = .i32 ∨ f.fmt = .n32 →
    let int := fun (v : W64) => if f.fmt = .i32 then v.toInt else (v.toNat : Int)
    let exact := fn 64 (int x) (int y) (int z)
    let low : Int := if f.fmt = .i32 then -(2 ^ 63) else 0
    let high : Int := if f.fmt = .i32 then 2 ^ 63 - 1 else 2 ^ 64 - 1
    let r := intUni f fn x y z
    (f.sat = false → (int r.1 - exact) % (2 ^ 64) = 0) ∧ (f.sat = true → int r.1 = max low (min high exact))
    ∧ r.2 = if f.sat = true ∧ (exact < low ∨ high < exact) then Flag.sat else 0

/-- R386 to R388, R391 to R393: the encodings of the integer instructions: OPC and FN, and the values of FMT, RM, SAT, RK, D,
B and C that decode (a destination is a vector register or ZERO, under UNI a scalar or ZERO). -/
def Sys2Proof.Claim.IntegerEncodings : Prop :=
  ∀ e ∈ integerEncodings, ∀ f : Fields,
    (∀ w, encodeWord (e.word f) = some w → w.toNat / 4 % 256 = e.opc ∧ w.toNat / 1024 % 32 = e.fn)
    ∧ ((e.word f).wf = true → f.fmt ∈ e.fmts ∧ (f.uni = true → f.fmt = .i32 ∨ f.fmt = .n32) ∧ f.rm = .rne ∧ f.rk = false
      ∧ (e.sat = false → f.sat = false) ∧ (e.sources < 2 → f.b = .zero) ∧ (e.sources < 3 → f.c = .zero)
      ∧ (f.d.isV = true ∧ f.uni = false ∨ f.d.isS = true ∧ f.uni = true ∨ f.d = .zero))

/-- R386 to R388, R391 to R393 with R25 and R150: IADD, ISUB, IMUL, IMULH, IMAD, IMIN, IMAX, IABS and INEG complete with
the exact result of their entry brought into the destination's elements (`Claim.IntegerElements`), in lanes, under
UNI on 64-bit scalars, and on a beam core; nothing else changes. -/
def Sys2Proof.Claim.IntegerArithmetic : Prop :=
  ∀ o ∈ integerOps, ∀ f : Fields,
    (f.uni = false → LaneWord (o.1 f) f (usesABC f) f.fmt fun g l =>
      intLane f o.2 (g.src f f.a l) (g.src f f.b l) (g.src f f.c l))
    ∧ (f.uni = true → UniWord (o.1 f) f [f.a, f.b, f.c] (fun _ _ rd => intUni f o.2 (rd f.a) (rd f.b) (rd f.c))
        ∧ BeamWord (o.1 f) f fun _ rd => intUni f o.2 (rd f.a) (rd f.b) (rd f.c))

/-- `IntegerElements` and `IntegerScalars` and `IntegerEncodings` and `IntegerArithmetic`, together. -/
def Obligations.IntegerWords : Prop := Claim.IntegerElements ∧ Claim.IntegerScalars ∧ Claim.IntegerEncodings ∧ Claim.IntegerArithmetic

/-- R331, R336, R337, R347, R432: the encodings of the logical, shift, count and bit-field instructions: OPC and FN, and the
values of FMT, RM, SAT, RK, D, B and C that decode (a destination is a vector register or ZERO, under UNI a scalar or ZERO). -/
def Sys2Proof.Claim.BitEncodings : Prop :=
  ∀ e ∈ bitEncodings, ∀ f : Fields,
    (∀ w, encodeWord (e.word f) = some w → w.toNat / 4 % 256 = e.opc ∧ w.toNat / 1024 % 32 = e.fn)
    ∧ ((e.word f).wf = true → f.fmt ∈ e.fmts ∧ f.rm = .rne ∧ f.rk = false ∧ f.sat = false
      ∧ (e.sources < 2 → f.b = .zero) ∧ (e.sources < 3 → f.c = .zero)
      ∧ (f.d.isV = true ∧ f.uni = false ∨ f.d.isS = true ∧ f.uni = true ∨ f.d = .zero))

/-- R331, R336, R337, R347, R432: the logical, shift, count and bit-field instructions complete with the bits of their
entries, in lanes, under UNI and on a beam core, and raise no flag. -/
def Sys2Proof.Claim.BitResults : Prop :=
  ∀ o ∈ bitOps, ∀ f : Fields,
    (f.uni = false → LaneWord (o.1 f) f (usesABC f) f.fmt fun g l =>
      (o.2 f 32 (g.src f f.a l) (g.src f f.b l) (g.src f f.c l), 0))
    ∧ (f.uni = true → UniWord (o.1 f) f [f.a, f.b, f.c] (fun _ _ rd => (o.2 f 64 (rd f.a) (rd f.b) (rd f.c), 0))
        ∧ BeamWord (o.1 f) f fun _ rd => (o.2 f 64 (rd f.a) (rd f.b) (rd f.c), 0))

/-- `BitEncodings` and `BitResults`, together. -/
def Obligations.BitOperations : Prop := Claim.BitEncodings ∧ Claim.BitResults

/-- R389, R373: ICMP compares element X of its sources, signed for FMT 1 and 6, natural for FMT 2 and 7; the predicate
takes the bit in the lanes computed, under UNI in every lane of the sub-group's mask; p0 keeps its ones; no flag is set.
With no active lane, and under UNI with a false predicate: `Claim.IdleWords`. -/
def Sys2Proof.Claim.IntegerCompare : Prop :=
  ∀ o ∈ compareOps, ∀ f : Fields,
    let k := f.d.code.toNat % 8
    let e := (f.x.extractLsb' 0 2).toNat
    let i64 := fun (x : W64) => if f.fmt.signed then x.toInt else (x.toNat : Int)
    (f.uni = false → e < f.fmt.elems → PredWord (o.1 f) f k fun g l =>
      (o.2 (elemInt f.fmt (g.src f f.a l) e) (elemInt f.fmt (g.src f f.b l) e), 0))
    ∧ (f.uni = true → PredUniWord (o.1 f) f k (fun rd => (o.2 (i64 (rd f.a)) (i64 (rd f.b)), 0))
        ∧ PredBeamWord (o.1 f) f k fun rd => o.2 (i64 (rd f.a)) (i64 (rd f.b)))

/-- R373: FCMP compares the element X[61] selects; the predicate takes the bit as ICMP's does, and NV is raised as the
rule says (`FFmt.compare`). With nothing active: `Claim.IdleWords`. -/
def Sys2Proof.Claim.FloatCompare : Prop :=
  ∀ o ∈ floatCompareOps, ∀ f : Fields,
    let k := f.d.code.toNat % 8
    let elem := fun (x : W32) => x.toNat / 2 ^ ((f.x.extractLsb' 0 1).toNat * f.fmt.width) % 2 ^ f.fmt.width
    (f.uni = false → (f.x.extractLsb' 0 1).toNat < f.fmt.elems → PredWord (o.1 f) f k fun g l =>
      f.fmt.ffmt.compare o.2 (elem (g.src f f.a l)) (elem (g.src f f.b l)))
    ∧ (f.uni = true → PredUniWord (o.1 f) f k fun rd =>
        FFmt.f32.compare o.2 ((rd f.a).toNat % 2 ^ 32) ((rd f.b).toNat % 2 ^ 32))

/-- `IntegerCompare` and `FloatCompare`, together. -/
def Obligations.Compares : Prop := Claim.IntegerCompare ∧ Claim.FloatCompare

/-- R413, R414, R431: MOV outside its pair move, MOVI and SEL complete in lanes, under UNI and on a beam core: a copy, the
immediate (sign-extended into a scalar for FMT 1), or A where the predicate C holds (under UNI: on the lowest active real
lane) and B elsewhere. -/
def Obligations.Moves : Prop :=
  ∀ f : Fields,
    let k := f.c.code.toNat % 8
    let imm64 := if f.fmt = .i32 then f.imm.signExtend 64 else f.imm.zeroExtend 64
    ((∀ n, f.d ≠ .t n) ∧ (∀ n, f.d ≠ .a n) →
      (f.uni = false → LaneWordIf (fun g => f.rk = false ∨ g.pendOf f.a = none) (.mov f) f (usesABC f) f.fmt
          fun g l => (g.src f f.a l, 0))
      ∧ (f.uni = true → UniWord (.mov f) f [f.a, f.b, f.c] (fun _ _ rd => (rd f.a, 0))
          ∧ BeamWord (.mov f) f fun _ rd => (rd f.a, 0)))
    ∧ (f.uni = false → LaneWord (.movi f) f (usesABC f) f.fmt fun _ _ => (f.imm, 0))
    ∧ (f.uni = true → UniWord (.movi f) f [f.a, f.b, f.c] (fun _ _ _ => (imm64, 0))
        ∧ BeamWord (.movi f) f fun _ _ => (imm64, 0))
    ∧ (f.uni = false → LaneWord (.sel f) f [useA f (tagOf f), useB f (tagOf f)] f.fmt fun g l =>
        (if mhas (g.pred k) l then g.src f f.a l else g.src f f.b l, 0))
    ∧ (f.uni = true → UniWord (.sel f) f [f.a, f.b, f.c] (fun g sub rd =>
          (if (mlowest (g.sub sub).mask).any (mhas (g.pred k)) then rd f.a else rd f.b, 0))
        ∧ BeamWord (.sel f) f fun r rd => (if k = 0 ∨ r.p.getLsbD k = true then rd f.a else rd f.b, 0))

/-! ### Floating point -/

/-- R362, R371, R372, R376 to R382: the floating instructions complete with the result of their entry in each element,
rounded by RM with FMODE (R82), every element's flags in one update of TSF (R59); under UNI on the low words of scalars,
zero-extended. A pending source with RK = 1 is `Obligations.AffineOperations`'s. -/
def Obligations.FloatArithmetic : Prop :=
  ∀ o ∈ floatOps, ∀ f : Fields,
    (f.uni = false → LaneWordIf
      (fun g => f.rk = false ∨ f.fmt ≠ .f32 ∨ ∀ x ∈ [f.a, f.b, f.c], g.pendOf x = none) (o.1 f) f (usesABC f)
      (o.2.1.getD f.fmt) fun g l =>
        floatLane f (effRm g.csr.fmode f.rm) o.2.2 (g.src f f.a l) (g.src f f.b l) (g.src f f.c l))
    ∧ (f.uni = true → UniWord (o.1 f) f [f.a, f.b, f.c] fun g _ rd =>
        let low := fun x => (rd x).toNat % 2 ^ 32
        let r := o.2.2 .f32 (effRm g.csr.fmode f.rm) (low f.a) (low f.b) (low f.c)
        (BitVec.ofNat 64 r.1, r.2))

/-- R65 to R67: with RK = 1 and a destination pair d below U, one pending pair p on slot k among the sources, named in the
row's field by its even register, gives d the row's coefficients; so do FADD and FSUB of two pairs on one slot. -/
def Obligations.AffineOperations : Prop :=
  ∀ (f : Fields) (s : State) (gid sub p k d : Nat), Issuing s gid sub → f.rk = true → f.uni = false →
    let g := s.group gid
    let rm := effRm g.csr.fmode f.rm
    let fields := [f.a, f.b, f.c]
    g.pairDst f.d = some d → RefsOk g (usesABC f) [(f.d, 2)] → available g (usesABC f) = .ok () → g.activeReal sub f ≠ 0 →
    (∀ o ∈ affineOps, f.fmt = .f32 ∨ o.1 f = .mov f → fields[o.2.1]?.bind g.pendOf = some (p, k) →
      (∀ i < 3, i ≠ o.2.1 → ∀ x, fields[i]? = some x → g.pendOf x = none ∧ g.oddPend x = false) →
      let rest := fields.eraseIdx o.2.1
      let known := fun i l => (g.src f ((rest[i]?).getD .zero) l).toNat
      ∃ t, exec (o.1 f) s = .next t ∧ AffineDone s t f gid sub p k d fun l =>
        o.2.2 rm (g.lane (p + 1) l).toNat (g.lane p l).toNat (known 0 l) (known 1 l))
    ∧ ∀ q, f.fmt = .f32 → g.pendOf f.a = some (p, k) → g.pendOf f.b = some (q, k) → g.oddPend f.c = false →
      let both := fun (op : RM → Nat → Nat → Nat × BitVec 5) (l : Nat) =>
        let x := op rm (g.lane (p + 1) l).toNat (g.lane (q + 1) l).toNat
        let y := op rm (g.lane p l).toNat (g.lane q l).toNat
        (x.1, y.1, x.2 ||| y.2)
      (∃ t, exec (.fadd f) s = .next t ∧ AffineDone s t f gid sub p k d (both FFmt.f32.add))
      ∧ ∃ t, exec (.fsub f) s = .next t ∧ AffineDone s t f gid sub p k d (both FFmt.f32.sub)

/-! ### Conversions, exchanges, votes, reductions -/

/-- R360, R420: CVT and PACK complete in lanes with the conversion of their entry, CVT under UNI on the low words. -/
def Sys2Proof.Claim.Conversions : Prop :=
  ∀ f : Fields,
    let src := (Fields.tagOfCode f.c.code.toNat).getD .raw
    let cvt := fun (g : Group) (x bg : Nat) =>
      cvtWord src f.fmt (f.x.extractLsb' 0 2).toNat (effRm g.csr.fmode f.rm) (fz16 g.csr.fmode) f.sat x bg
    (f.uni = false → LaneWord (.cvt f) f [useA f (some src), useB f (some f.fmt)] f.fmt fun g l =>
      let r := cvt g (g.src f f.a l).toNat (g.src f f.b l).toNat
      (BitVec.ofNat 32 r.1, r.2))
    ∧ (f.uni = true → UniWord (.cvt f) f [f.a, f.b, f.c] fun g _ rd =>
        let r := cvt g ((rd f.a).toNat % 2 ^ 32) ((rd f.b).toNat % 2 ^ 32)
        (if f.fmt = .i32 then (BitVec.ofNat 32 r.1).signExtend 64 else BitVec.ofNat 64 r.1, r.2))
    ∧ LaneWord (.pack f) f [{ o := f.a, n := f.fmt.elems, bt := f.btA, tag := some (wideTag f.fmt) }] f.fmt fun g l =>
        let els := (List.range f.fmt.elems).map fun e =>
          conv (wideTag f.fmt) f.fmt (effRm g.csr.fmode f.rm) (fz16 g.csr.fmode) f.sat (g.lane (opNum f.a + e) l).toNat
        (BitVec.ofNat 32 (joinElems f.fmt (els.map (·.1))), orFlags (els.map (·.2)))

/-- R420: UNPK completes: register D + e takes, in each lane computed, element e of A widened exactly, tagged W; the
source is read before any destination is written. With no active lane: `Claim.IdleWords`. -/
def Sys2Proof.Claim.Unpack : Prop :=
  ∀ (f : Fields) (s s1 : State) (gid sub : Nat) (d : Fin 64), Issuing s gid sub → f.d = .v d →
    RefsOk (s.group gid) [useA f (some f.fmt)] [(f.d, f.fmt.elems)] → (s.group gid).activeReal sub f ≠ 0 →
    Readable (ctx (.unpk f) f s gid sub) [useA f (some f.fmt)] s s1 →
    let act := (s.group gid).activeReal sub f
    let g := s1.group gid
    let ls := laneSet g act
    let wide := fun e l => conv f.fmt (wideTag f.fmt) .rne false false
      ((g.lane (opNum f.a) l).toNat / 2 ^ (e * f.fmt.width) % 2 ^ f.fmt.width)
    ∃ t fl, exec (.unpk f) s = .next t ∧ LaneFrame s1 t gid sub (nextPc f s gid sub) fl
      ∧ (∀ e < f.fmt.elems, (∀ l ∈ ls, (t.group gid).lane (d.val + e) l = BitVec.ofNat 32 (wide e l).1)
        ∧ ∀ k ∈ Group.granules (1024 * (d.val + e)) 1024, (t.group gid).tagAt k = wideTag f.fmt)
      ∧ (∀ b : Nat, fl.getLsbD b = true ↔ ∃ e < f.fmt.elems, ∃ l ∈ ls, mhas act l = true ∧ (wide e l).2.getLsbD b = true)
      ∧ ∀ a, (∀ e < f.fmt.elems, ¬ InLanes (d.val + e) ls a) → (t.group gid).win.read a = g.win.read a

/-- `Conversions` and `Unpack`, together. -/
def Obligations.FormatConversions : Prop := Claim.Conversions ∧ Claim.Unpack

/-- R338, R339, R413: BPQ, BPX and the whole-register MOV, none of them predicated, complete: the destination's range takes the whole image, read
before anything is written, under the result's tag (MOV: the source's tags), and no other byte of the window changes. -/
def Obligations.TileImages : Prop :=
  ∀ (f : Fields) (s s1 : State) (gid sub : Nat), Issuing s gid sub →
    let g := s1.group gid
    (viewFmt (s.group gid).csr.tview = 2 →
      let n := if f.fmt = .f32 then 1 else 2
      let uses : List Use := [{ o := f.a, n := n, bt := f.btA, tag := some f.fmt }]
      RefsOk (s.group gid) uses [(f.d, 1)] → Readable (ctx (.bpq f) f s gid sub) uses s s1 →
      ∀ a d x y, g.useRange f.a n = some (some (a, x)) → g.range f.d = some (d, y) →
        let elem := fun i j => if f.fmt = .f32 then r32 (g.win.num (a + 128 * i + 4 * j) 4)
          else FFmt.bf16.read (g.win.num (a + 64 * i + 2 * j) 2)
        ∃ t, exec (.bpq f) s = .next t ∧ RangeWritten g (t.group gid) d (bpqTile elem).1 .bpb
          ∧ LaneFrame s1 t gid sub (nextPc f s gid sub) (bpqTile elem).2)
    ∧ (viewFmt (s.group gid).csr.tview = 2 →
      let n := match f.d with | .v _ => 2 | _ => 1
      RefsOk (s.group gid) [useA f (some .bpb)] [(f.d, n)] → Readable (ctx (.bpx f) f s gid sub) [useA f (some .bpb)] s s1 →
      ∀ a d x y, g.range f.a = some (a, x) → g.useRange f.d n = some (some (d, y)) →
        let r := bpxBytes f.fmt (effRm g.csr.fmode f.rm) (g.win.bytes a 1152)
        ∃ t, exec (.bpx f) s = .next t ∧ RangeWritten g (t.group gid) d r.1 f.fmt
          ∧ LaneFrame s1 t gid sub (nextPc f s gid sub) r.2)
    ∧ ((∃ n, f.d = .t n) ∨ (∃ n, f.d = .a n) → RefsOk (s.group gid) [useA f none] [(f.d, 1)] →
      Readable (ctx (.mov f) f s gid sub) [useA f none] s s1 →
      ∀ a d n, g.range f.a = some (a, n) → g.range f.d = some (d, n) → a % 128 = 0 → d % 128 = 0 → n % 128 = 0 →
        ∃ t, exec (.mov f) s = .next t ∧ (t.group gid).win.bytes d n = g.win.bytes a n
          ∧ (∀ c, c < d ∨ d + n ≤ c → (t.group gid).win.read c = g.win.read c)
          ∧ (∀ i < n / 128, (t.group gid).tagAt (d / 128 + i) = g.tagAt (a / 128 + i))
          ∧ LaneFrame s1 t gid sub (nextPc f s gid sub) 0)

/-- R407, R422: QXCH, QBCST and LSHF complete: each lane takes A's word in the lane its index picks, active or not. -/
def Sys2Proof.Claim.LaneExchanges : Prop :=
  ∀ o ∈ exchangeOps, ∀ (f : Fields) (va : Fin 64), f.a = .v va →
    LaneWord (o.1 f) f [useA f (tagOf f), { o := f.b, bt := f.btB, index := true }] f.fmt fun g l =>
      (g.lane va.val (o.2 l (g.src f f.b l).toNat), 0)

/-- R441, R24: VOTE completes over the active real lanes: all and any give their bit to every lane of the sub-group's mask,
ballot writes the four words of the set where p[C] holds. With no active lane none has an effect: the model's choice
(log 21, DEDUCED: R24 against R441's words on the empty set). -/
def Sys2Proof.Claim.Votes : Prop :=
  ∀ (f : Fields) (s : State) (gid sub : Nat), Issuing s gid sub →
    let g := s.group gid
    let set := mlanes (g.activeReal sub f)
    let c := f.c.code.toNat % 8
    let mask := mlanes (g.sub sub).mask
    (set = [] → ∀ i ∈ [Instr.voteAll f, .voteAny f, .voteBallot f], Does i s gid sub (nextPc f s gid sub) s)
    ∧ (set ≠ [] → ∃ t, exec (.voteAll f) s = .next t ∧ ScalarFrame s t gid 0
      ∧ PredIssued g (t.group gid) (f.d.code.toNat % 8) mask (fun _ => set.all (mhas (g.pred c))) sub (nextPc f s gid sub))
    ∧ (set ≠ [] → ∃ t, exec (.voteAny f) s = .next t ∧ ScalarFrame s t gid 0
      ∧ PredIssued g (t.group gid) (f.d.code.toNat % 8) mask (fun _ => set.any (mhas (g.pred c))) sub (nextPc f s gid sub))
    ∧ ∀ n : Fin 32, f.d = .s n → set ≠ [] → ∃ t, exec (.voteBallot f) s = .next t ∧ ScalarFrame s t gid 0
      ∧ (∀ i < 4, ∀ l < 64, ((t.group gid).scal (n.val + i)).getLsbD l
          = (decide (64 * i + l ∈ set) && mhas (g.pred c) (64 * i + l)))
      ∧ (∀ m, m < n.val ∨ n.val + 4 ≤ m → (t.group gid).scal m = g.scal m)
      ∧ t.group gid = issuedAt { g with s := (t.group gid).s, sbusy := (t.group gid).sbusy } sub (nextPc f s gid sub)

/-- `LaneExchanges` and `Votes`, together. -/
def Obligations.Exchanges : Prop := Claim.LaneExchanges ∧ Claim.Votes

/-- R385, R98: GRED gives the pairwise tree over the active real lanes, ascending, to every lane computed, whose register is
E until the result has had its time, or to a scalar (sign-extended for FMT 1), GSCAN the tree over the lanes up to each. The
tick of `ResultOwed` (12 and half the active quads after the issue) is the model's choice (log 4, DESIGN CHOICE). With no
active lane: `Claim.IdleWords`. -/
def Obligations.Reductions : Prop :=
  ∀ o ∈ reduceOps, ∀ f : Fields,
    let uses : List Use := [useA f (tagOf f)]
    ((∀ n, f.d ≠ .s n) → ∀ s gid sub s1, Issuing s gid sub → RefsOk (s.group gid) uses [(f.d, 1)] →
      let act := (s.group gid).activeReal sub f
      act ≠ 0 → Readable (ctx (o.1 f) f s gid sub) uses s s1 →
        let g := s1.group gid
        let red := fun l => (laneTree o.2.2 f g (if o.2.1 then (mlanes act).filter (· ≤ l) else mlanes act)).getD (0, 0)
        let fl := laneFlags act (laneSet g act) fun l => (red l).2
        (∀ d : Fin 64, f.d = .v d → ∃ t, exec (o.1 f) s = .next t ∧ OneStarted s1 t gid sub (nextPc f s gid sub) fl
          ∧ ResultOwed g (t.group gid) s1.nextId s.m.ftime d.val act (laneSet g act) (fun l => BitVec.ofNat 32 (red l).1) f.fmt)
        ∧ ((∀ n, f.d ≠ .v n) → ∃ t, exec (o.1 f) s = .next t ∧ RegistersKept g (t.group gid)
          ∧ LaneFrame s1 t gid sub (nextPc f s gid sub) fl))
    ∧ (o.2.1 = false → ∀ n s gid sub s1, f.d = .s n → Issuing s gid sub → RefsOk (s.group gid) uses [(f.d, 1)] →
      let act := (s.group gid).activeReal sub f
      act ≠ 0 → Readable (ctx (o.1 f) f s gid sub) uses s s1 →
        let g := s1.group gid
        let red := (laneTree o.2.2 f g (mlanes act)).getD (0, 0)
        ∃ t, exec (o.1 f) s = .next t ∧ ScalarFrame s1 t gid red.2
          ∧ ScalarIssued g (t.group gid) f.d
              (if f.fmt = .i32 then (BitVec.ofNat 32 red.1).signExtend 64 else (BitVec.ofNat 32 red.1).zeroExtend 64) sub
              (nextPc f s gid sub))

/-! ### Control flow -/

/-- R306, R316, R418: the two words, which are all that decode with OPC 0x00. -/
def Sys2Proof.Claim.NopWords : Prop :=
  ∀ (f : Fields),
    ((Instr.nop f).wf = true → encodeWord (.nop f) = some 0x0001FFFFFFE00000)
    ∧ ((Instr.nopSkip f).wf = true → encodeWord (.nopSkip f) = some 0x0001FFFFFFE00400)
    ∧ ∀ (w : Word128) (i : Instr), w.toNat / 4 % 256 = 0 → decodeWord w = .ok i →
        (∃ g, i = .nop g ∧ w.toNat % 2 ^ 64 = 0x0001FFFFFFE00000) ∨ ∃ g, i = .nopSkip g ∧ w.toNat % 2 ^ 64 = 0x0001FFFFFFE00400

/-- R316, R418: NOP moves on to the next word, NOP.skip to the start of the next fetch block; nothing else changes, on a
group core and on a beam core. -/
def Sys2Proof.Claim.Nops : Prop :=
  ∀ (f : Fields) (s : State),
    (∀ gid sub, Issuing s gid sub → Does (.nop f) s gid sub (nextPc f s gid sub) s
      ∧ Does (.nopSkip f) s gid sub (BitVec.ofNat 64 ((((s.group gid).sub sub).pc.toNat / 32 + 1) * 32)) s)
    ∧ ∀ q r, BeamIssuing s q r → BeamDoes (.nop f) s q r { r with pc := r.pc + BitVec.ofNat 64 f.len.bytes }
      ∧ BeamDoes (.nopSkip f) s q r { r with pc := BitVec.ofNat 64 ((r.pc.toNat / 32 + 1) * 32) }

/-- R24, R25, R307: a predicated word by lane with no active real lane, or under UNI where its predicate does not hold, has no
effect but on the PC. That it does so without waiting for a source that is E, pending, or on its way to a scalar, or for its
policy operand, is the model's choice (log 22, DEDUCED: R24's no effect against R27 and R52 read literally). -/
def Sys2Proof.Claim.IdleWords : Prop :=
  ∀ f : Fields,
    let refs := fun (uses : List Use) (dsts : List (Opd × Nat)) (g : Group) => RefsOk g uses dsts
    let one := refs (usesABC f) [(f.d, 1)]
    let whole := (∃ n, f.d = .t n) ∨ ∃ n, f.d = .a n
    let word := refs [useA f none, useB f none] [(f.d, 1)]
    let lanes := [Instr.movi f] ++ integerOps.map (fun o => o.1 f) ++ bitOps.map (fun o => o.1 f) ++ floatOps.map fun o => o.1 f
    let compares := compareOps.map (fun o => o.1 f) ++ floatCompareOps.map fun o => o.1 f
    let atomRefs := fun (o : AtomOp) => refs (memUses f ++ if o = .cas then [useB f none, useC f none] else [useB f none]) [(f.d, 1)]
    (f.uni = false → (∀ i ∈ lanes, IdleByLane i f one) ∧ (∀ i ∈ compares, IdleByLane i f (refs (usesABC f) []))
      ∧ (¬ whole → IdleByLane (.mov f) f one) ∧ IdleByLane (.sel f) f word ∧ IdleByLane (.cvt f) f word
      ∧ ∀ o ∈ atomOps, IdleByLane (o.1 f) f (atomRefs o.2.1))
    ∧ (f.uni = true → (∀ i ∈ lanes ++ compares ++ [.sel f, .cvt f], IdleUnderUni i f fun _ => True)
      ∧ (¬ whole → IdleUnderUni (.mov f) f fun _ => True) ∧ ∀ o ∈ atomOps, IdleUnderUni (o.1 f) f (atomRefs o.2.1))
    ∧ IdleByLane (.pack f) f (refs [{ o := f.a, n := f.fmt.elems }] [(f.d, 1)])
    ∧ IdleByLane (.unpk f) f (refs [{ o := f.a }] [(f.d, f.fmt.elems)])
    ∧ (∀ o ∈ exchangeOps, IdleByLane (o.1 f) f word) ∧ (∀ o ∈ reduceOps, IdleByLane (o.1 f) f (refs [{ o := f.a }] [(f.d, 1)]))
    ∧ IdleByLane (.ldv f) f (refs (memUses f) [(f.d, 1)]) ∧ IdleByLane (.ldp f) f (refs (memUses f) [(f.d, 2)])
    ∧ IdleByLane (.ldvLate f) f (fun g => RefsOk g (memUses f)
        [(f.d, if (busyScals g [f.pol]).isEmpty = true ∧ polLate (policy g f) = true then 2 else 1)])
    ∧ IdleByLane (.stv f) f (refs (memUses f ++ [{ o := f.b }]) []) ∧ IdleByLane (.stp f) f (refs (memUses f ++ [{ o := f.b, n := 2 }]) [])

/-- `NopWords`, `Nops` and `IdleWords`, together. -/
def Obligations.NopsAndIdleWords : Prop := Claim.NopWords ∧ Claim.Nops ∧ Claim.IdleWords

/-- R341 to R343, R426: under UNI, BRA, BRX and RET go to their target where the predicate holds and to the next word
elsewhere, never splitting; a target that is no multiple of 4 traps ALIGN. CALL leaves the link in its scalar, or in every
lane of the mask of its vector pair and the helper lanes of their quads, tagged N32. That BRX and RET with a false predicate
do not wait for their scalars is the model's choice (log 22, DEDUCED). -/
def Sys2Proof.Claim.UniformBranches : Prop :=
  ∀ (f : Fields) (s : State) (gid sub : Nat), Issuing s gid sub →
    let g := s.group gid
    let pc := (g.sub sub).pc
    let next := nextPc f s gid sub
    let direct := pc + f.imm.signExtend 64
    let goes := fun (i : Instr) (t : W64) =>
      (t.toNat % 4 = 0 → Does i s gid sub t s)
      ∧ (t.toNat % 4 ≠ 0 → Traps i f s gid sub s { cause := 0x05, tval := t })
    (f.uni = true → Does (.bra f) s gid sub (if g.uniOn sub f then direct else next) s)
    ∧ (f.uni = true → g.uniOn sub f = false → Does (.brx f) s gid sub next s ∧ ∀ n, f.a = .s n → Does (.ret f) s gid sub next s)
    ∧ (f.uni = true → g.uniOn sub f = true → Delivered g [f.a, f.b] → ∀ base offset,
        (f.b = .zero ∧ base = 0 ∨ ∃ n, f.b = .s n ∧ base = g.scal n.val) →
        (f.a = .imm ∧ offset = f.imm.zeroExtend 64 ∨ ∃ n, f.a = .s n ∧ offset = g.scal n.val) → goes (.brx f) (base + offset))
    ∧ (g.uniOn sub f = true → ∀ n, f.a = .s n → Delivered g [f.a] → goes (.ret f) (g.scal n.val))
    ∧ (∀ n, f.d = .s n → Does (.call f) s gid sub direct (withS s gid f.d next))
    ∧ ∀ n : Fin 64, f.d = .v n → RefsOk g [] [(f.d, 2)] → ∃ t, exec (.call f) s = .next t
      ∧ LaneFrame s t gid sub direct 0
      ∧ (∀ l ∈ laneSet g (g.sub sub).mask, (t.group gid).lane n.val l = next.extractLsb' 0 32
          ∧ (t.group gid).lane (n.val + 1) l = next.extractLsb' 32 32)
      ∧ (∀ k ∈ Group.granules (1024 * n.val) 2048, (t.group gid).tagAt k = .n32)
      ∧ ∀ a, ¬ InLanes n.val (laneSet g (g.sub sub).mask) a → ¬ InLanes (n.val + 1) (laneSet g (g.sub sub).mask) a →
          (t.group gid).win.read a = g.win.read a

/-- R150, R341 to R343, R369, R426: BRA, BRX, CALL, RET and EXIT on a beam core, where UNI is 1. The return stack holds
eight links; EXIT ends the program and leaves the beam core free (R154). The model's choice are the EXIT of a pass that obeys
its predicate (log 23, DEDUCED: R369 against R307), and the CALL that pushes its link whatever D is, a scalar D taking it too
(log 69, DEDUCED). -/
def Sys2Proof.Claim.BeamBranches : Prop :=
  ∀ (f : Fields) (s : State) (q : Nat) (r : Run), BeamIssuing s q r → f.uni = true →
    let next := r.pc + BitVec.ofNat 64 f.len.bytes
    let direct := r.pc + f.imm.signExtend 64
    BeamDoes (.bra f) s q r { r with pc := if r.predOn f then direct else next }
    ∧ (r.predOn f = false → BeamDoes (.brx f) s q r { r with pc := next })
    ∧ (r.predOn f = true → ∀ base offset,
        (f.b = .zero ∧ base = 0 ∨ ∃ n, f.b = .s n ∧ base = r.scal n.val) →
        (f.a = .imm ∧ offset = f.imm.zeroExtend 64 ∨ ∃ n, f.a = .s n ∧ offset = r.scal n.val) → (base + offset).toNat % 4 = 0 →
        BeamDoes (.brx f) s q r { r with pc := base + offset })
    ∧ (f.d = .zero → r.stack.length < 8 → BeamDoes (.call f) s q r { r with pc := direct, stack := next :: r.stack })
    ∧ (∀ n : Fin 32, f.d = .s n → r.stack.length < 8 →
        BeamDoes (.call f) s q r { r.setScal n.val next with pc := direct, stack := next :: r.stack })
    ∧ (f.a = .zero → r.predOn f = true → ∀ t rest, r.stack = t :: rest →
        BeamDoes (.ret f) s q r { r with pc := t, stack := rest })
    ∧ (f.a = .zero → r.predOn f = false → BeamDoes (.ret f) s q r { r with pc := next })
    ∧ (r.predOn f = false → BeamDoes (.exit f) s q r { r with pc := next })
    ∧ (r.predOn f = true → ∃ t, exec (.exit f) s = .next t ∧ t = { s with engines := t.engines, issue := none }
      ∧ t.engine q = { s.engine q with run := some { r with ended := true }, idleSince := s.m.ftime }
      ∧ ∀ k, k ≠ q → t.engine k = s.engine k)

/-- `UniformBranches` and `BeamBranches`, together. -/
def Obligations.UniformControlFlow : Prop := Claim.UniformBranches ∧ Claim.BeamBranches

/-- R30: BRA, BRX and RET by lane send each active real lane to its target and the others to the next word. The lanes for
the lowest PC stay; the others move to the lowest free split entries in ascending order of their PCs, and are parked when
all eight are live. A target that is no multiple of 4 traps ALIGN with the lowest such lane's (R342, R426), and as a trapping
word writes nothing (R264), pairs that it settled to read its target are pending again: the model's choice (log 54, DEDUCED).
With no active lane BRX and RET read nothing (log 22, DEDUCED), and every lane goes to the next word. -/
def Sys2Proof.Claim.DivergentBranches : Prop :=
  ∀ (f : Fields) (s s1 : State) (gid sub : Nat), Issuing s gid sub → f.uni = false →
    let g := s1.group gid
    let act := (s.group gid).activeReal sub f
    let ls := mlanes ((s.group gid).sub sub).mask
    let pc := ((s.group gid).sub sub).pc
    let splits := fun (i : Instr) (t : Nat → W64) (join : W64) => ∃ u h, exec i s = .next u
      ∧ TurnOf s1 u gid (turnOver h sub) ∧ Diverged g h sub ls (fun l => if mhas act l then t l else nextPc f s gid sub) join
    let aligned := fun (i : Instr) (t : Nat → W64) (join : W64) =>
      ((∀ l ∈ mlanes act, (t l).toNat % 4 = 0) → splits i t join)
      ∧ ∀ l ∈ mlanes act, (t l).toNat % 4 ≠ 0 → (∀ m ∈ mlanes act, m < l → (t m).toNat % 4 = 0) →
          Traps i f s gid sub s { cause := 0x05, tval := t l }
    let joined := fun (j : Int) => if j = 0 then 0 else pc + BitVec.ofInt 64 (4 * j)
    (s1 = s → splits (.bra f) (fun _ => pc + f.imm.signExtend 64) (joined (f.x ++ f.c.code ++ f.b.code : BitVec 17).toInt))
    ∧ (s1 = s → act = 0 → (RefsOk g [useA f none] [] → splits (.brx f) (fun _ => 0) (joined (f.x ++ f.c.code : BitVec 10).toInt))
        ∧ ∀ n : Fin 64, f.a = .v n → RefsOk g [{ o := f.a, n := 2, bt := f.btA }] [] → splits (.ret f) (fun _ => 0) 0)
    ∧ (act ≠ 0 → RefsOk (s.group gid) [useA f none] [] → Readable (ctx (.brx f) f s gid sub) [useA f none, useB f none] s s1 →
        ∀ (base : W64) (offset : Nat → W64), (f.b = .zero ∧ base = 0 ∨ ∃ n, f.b = .s n ∧ base = g.scal n.val) →
          ((∃ n, f.a = .v n ∧ ∀ l, offset l = (g.lane n.val l).zeroExtend 64) ∨ (∃ n, f.a = .s n ∧ ∀ l, offset l = g.scal n.val)
            ∨ f.a = .imm ∧ ∀ l, offset l = f.imm.zeroExtend 64) →
          aligned (.brx f) (fun l => base + offset l) (joined (f.x ++ f.c.code : BitVec 10).toInt))
    ∧ ∀ n : Fin 64, f.a = .v n → act ≠ 0 → RefsOk (s.group gid) [{ o := f.a, n := 2, bt := f.btA }] [] →
        Readable (ctx (.ret f) f s gid sub) [{ o := f.a, n := 2, bt := f.btA }] s s1 →
        aligned (.ret f) (fun l => g.lane (n.val + 1) l ++ g.lane n.val l) 0

/-- R32: after the start of a turn no live entry stands at its parent's PC and no parked lane at its owner's, no lane is
lost, and each keeps its own PC, in a mask or parked, where entries have live parents above them and parked lanes live
owners (R29). -/
def Sys2Proof.Claim.Fusion : Prop :=
  ∀ g : Group, Tbl.sorted g.subs = true → Tbl.sorted g.parked = true → (∀ c ∈ g.subs, c.1 < 8 ∨ c.1 = 15) →
    (∀ c ∈ g.parked, c.1 < 256 ∧ (Tbl.look g.subs c.2.owner).isSome = true) →
    (∃ rank : Nat → Nat, ∀ c ∈ g.subs, c.1 ≠ 15 → (Tbl.look g.subs c.2.parent).isSome = true ∧ rank c.2.parent < rank c.1) →
    let h := g.startTurn
    (∀ c ∈ h.subs, c.1 ≠ 15 → c.2.pc ≠ (h.sub c.2.parent).pc)
    ∧ (∀ c ∈ h.parked, c.2.pc ≠ (h.sub c.2.owner).pc ∧ Tbl.look g.parked c.1 = some { c.2 with owner := (Tbl.get c.2 g.parked c.1).owner })
    ∧ (∀ l < 256, ((∃ c ∈ g.subs, mhas c.2.mask l = true) ∨ (Tbl.look g.parked l).isSome = true) ↔
        (∃ c ∈ h.subs, mhas c.2.mask l = true) ∨ (Tbl.look h.parked l).isSome = true)
    ∧ (∀ c ∈ g.subs, ∀ l < 256, mhas c.2.mask l = true → ∃ d ∈ h.subs, mhas d.2.mask l = true ∧ d.2.pc = c.2.pc)
    ∧ (∀ c ∈ g.parked, (∃ p, Tbl.look h.parked c.1 = some p ∧ p.pc = c.2.pc)
        ∨ ∃ d ∈ h.subs, mhas d.2.mask c.1 = true ∧ d.2.pc = c.2.pc)
    ∧ h = { g with
        subs := h.subs, parked := h.parked, handler := h.handler, frozen := h.frozen, wskipNow := h.wskipNow, sleep := h.sleep
        woken := h.woken }

/-- `DivergentBranches` and `Fusion`, together. -/
def Obligations.DivergenceAndFusion : Prop := Claim.DivergentBranches ∧ Claim.Fusion

/-- R33, R34, R369, R370: EXIT takes the active real lanes (under UNI the whole mask) out of the sub-group. Of one that it
empties, the parked lanes of the lowest PARKPC take its place; without parked lanes its lowest child does, whose waits,
children and parked lanes become its own; without either its entry is free. When the last lane of a group has left, the
group leaves its slot; its team ends with its last group, breaking its objects and dropping its list and its queue table. -/
def Obligations.Exits : Prop :=
  ∀ (f : Fields) (s : State) (gid sub : Nat), Issuing s gid sub →
    let g := s.group gid
    let y := g.sub sub
    let act := if f.uni then (if g.uniOn sub f then y.mask else 0) else g.activeReal sub f
    let left := y.mask &&& ~~~act
    let mine := fun (c : Nat × Park) => c ∈ g.parked ∧ c.2.owner = sub
    let child := fun (c : Nat × Sub) => c ∈ g.subs ∧ c.1 ≠ 15 ∧ c.1 ≠ sub ∧ c.2.parent = sub
    (left ≠ 0 → ∃ t, exec (.exit f) s = .next t
      ∧ TurnOf s t gid (turnOver { g with
          exited := g.exited ||| act
          subs := Tbl.set g.subs sub { y with mask := left, pc := nextPc f s gid sub } } sub))
    ∧ (left = 0 → Tbl.sorted g.parked = true → (∀ c ∈ g.parked, c.1 < 256) → ∀ c, mine c → (∀ d, mine d → c.2.pc.toNat ≤ d.2.pc.toNat) →
      ∃ t h, exec (.exit f) s = .next t ∧ TurnOf s t gid (turnOver h sub)
        ∧ h = { g with exited := g.exited ||| act, subs := h.subs, parked := h.parked }
        ∧ (∀ k, k ≠ sub → Tbl.look h.subs k = Tbl.look g.subs k)
        ∧ (∃ m, Tbl.look h.subs sub = some { y with mask := m, pc := c.2.pc }
          ∧ ∀ l < 256, mhas m l = true ↔ ∃ p, mine (l, p) ∧ p.pc = c.2.pc)
        ∧ ∀ d, d ∈ h.parked ↔ d ∈ g.parked ∧ ¬ (d.2.owner = sub ∧ d.2.pc = c.2.pc))
    ∧ (left = 0 → Tbl.sorted g.subs = true → (∀ c, ¬ mine c) → (sub = 15 ∨ y.parent ≠ sub) →
      ∀ k c, child (k, c) → (∀ d, child d → k ≤ d.1) → (sub = 15 ∨ y.parent ≠ k) → ∃ t h, exec (.exit f) s = .next t
        ∧ TurnOf (moveWaits s gid k sub) t gid h
        ∧ h = { g with
            exited := g.exited ||| act, lastSub := some sub, wrote := []
            subs := h.subs, parked := h.parked, handler := h.handler, frozen := h.frozen, wskipNow := h.wskipNow, sleep := h.sleep
            woken := h.woken }
        ∧ Tbl.look h.subs k = none
        ∧ Tbl.look h.subs sub = some { y with mask := c.mask, pc := c.pc, jpc := if sub = 15 then y.jpc else c.jpc }
        ∧ (∀ e, e ≠ k → e ≠ sub → Tbl.look h.subs e = (Tbl.look g.subs e).map fun z =>
            if e ≠ 15 ∧ z.parent = k then { z with parent := sub } else z)
        ∧ (∀ l, Tbl.look h.parked l = (Tbl.look g.parked l).map fun p => if p.owner = k then { p with owner := sub } else p)
        ∧ h.handler = (if g.handler = some k then some sub else g.handler)
        ∧ (Tbl.look g.sleep sub = none → Tbl.look h.sleep sub = Tbl.look g.sleep k))
    ∧ (left = 0 → sub ≠ 15 → (∀ c, ¬ mine c) → (∀ c, ¬ child c) → y.parent ≠ sub → ∃ t, exec (.exit f) s = .next t
      ∧ TurnOf s t gid (turnOver { g with exited := g.exited ||| act, subs := Tbl.del g.subs sub } sub))
    ∧ (left = 0 → sub = 15 → (∀ c ∈ g.subs, c.1 = 15) → g.parked = [] → (∀ e ∈ g.entries, e.led = none) →
      NothingSwept s → contextsOf s (s.team g.ident.tid).part (s.launch g.ident.lid).r.id (s.team g.ident.tid).index = [] →
      ∃ t, exec (.exit f) s = .next t ∧ t.issue = none ∧ Tbl.look t.groups gid = none ∧ OthersKept s t gid
        ∧ t.m = { s.m with
            droppedMemue := s.m.droppedMemue + g.memues.length
            droppedFaults := Tbl.put 0 s.m.droppedFaults g.ident.lid (Tbl.get 0 s.m.droppedFaults g.ident.lid + g.faults.length) }
        ∧ (∀ b, Tbl.look (s.core g.ident.core).binds g.ident.slot = some b →
            Tbl.look (t.core g.ident.core).binds g.ident.slot = some { b with state := 0, gid := 0 })
        ∧ (∀ w ∈ t.waiters, w.gid ≠ gid) ∧ t.mem = s.mem ∧ t.hostMem = s.hostMem ∧ t.domainMem = s.domainMem
        ∧ ((∃ k ∈ (s.team g.ident.tid).gids, k ≠ gid) → (t.team g.ident.tid).gids = (s.team g.ident.tid).gids.filter (· ≠ gid)
            ∧ (t.team g.ident.tid).ended = (s.team g.ident.tid).ended)
        ∧ ((∀ k ∈ (s.team g.ident.tid).gids, k = gid) → let x := t.team g.ident.tid
            x.ended = true ∧ x.broken = true ∧ x.gids = [] ∧ x.queues = [] ∧ x.pins = [] ∧ x.holds = []))

/-! ### Exceptions -/

/-- R268, R274: a trap that is not merged enters the handler: TCAUSE with its fields, TEPC (the successor for SYSC, TRAPI
and PROMISE, R267) and TVAL are written, M is set, the sub-group stands at HBASE, and no other register changes. -/
def Sys2Proof.Claim.TrapEntry : Prop :=
  ∀ (u : State) (gid sub : Nat) (pc : W64) (len : Nat) (x : Trap), (Tbl.look u.groups gid).isSome = true →
    let g := u.group gid
    x.page = none → x.memue = none → x.stage2 = false → (x.cause = 0x18 ∨ g.csr.m = false ∧ g.csr.hbase ≠ 0) →
    let t := takeTrap u gid sub pc len x
    let h := t.group gid
    LatchesAside { u with groups := t.groups } t ∧ OthersKept u t gid
    ∧ h.csr = { g.csr with
        tcause := h.csr.tcause, tepc := if x.succ then pc + BitVec.ofNat 64 len else pc, tval := x.tval, m := true
        pend := match g.pre with | .asked _ => true | _ => false }
    ∧ h = { g with
        csr := h.csr, handler := some sub, frozen := h.frozen, lastSub := some sub, wskipNow := g.wskipNow.filter (· != sub), wrote := []
        entries := ⟨none, x.cause, page64 x.tval.toNat, x.cause == 0x18 && g.wskipNow.contains sub⟩ :: g.entries
        subs := Tbl.set g.subs sub { g.sub sub with pc := g.csr.hbase } }
    ∧ (∀ l < 256, mhas h.frozen l = true ↔ ∃ c ∈ g.subs, c.1 ≠ sub ∧ mhas c.2.mask l = true)
    ∧ (x.cause < 256 → x.cls < 8 → x.agent < 256 → x.modno < 1024 →
        (h.csr.tcause.extractLsb' 0 8).toNat = x.cause ∧ h.csr.tcause.getLsbD 8 = x.w ∧ h.csr.tcause.getLsbD 9 = x.fetch
        ∧ h.csr.tcause.getLsbD 10 = x.imp ∧ (h.csr.tcause.extractLsb' 11 3).toNat = x.cls ∧ h.csr.tcause.extractLsb' 14 2 = 0
        ∧ (h.csr.tcause.extractLsb' 16 8).toNat = x.agent ∧ (h.csr.tcause.extractLsb' 24 10).toNat = x.modno
        ∧ h.csr.tcause.extractLsb' 34 30 = 0)

/-- R269: a trap other than PREEMPT, met while M = 1 or HBASE = 0, kills the launch with its cause, and nothing else changes
at once (R280). That a launch killed before keeps its cause, and that nothing else changes before the groups go, is the
model's choice (log 43, DEDUCED). -/
def Sys2Proof.Claim.TrapKills : Prop :=
  ∀ (u : State) (gid sub : Nat) (pc : W64) (len : Nat) (x : Trap), x.stage2 = false → x.cause ≠ 0x18 →
    let g := u.group gid
    (g.csr.m = true ∨ g.csr.hbase = 0) →
    let t := takeTrap u gid sub pc len x
    t = { u with launches := t.launches }
    ∧ ∀ k, Tbl.look t.launches k = if k = g.ident.lid
        then (Tbl.look u.launches k).map fun l => if l.killed.isSome then l else { l with killed := some x.cause }
        else Tbl.look u.launches k

/-- `TrapEntry` and `TrapKills`, together. -/
def Obligations.TrapEntries : Prop := Claim.TrapEntry ∧ Claim.TrapKills

/-- R266, R262: a trap with a page joins the record of its core whose key it has, opens the lowest free one as its leader,
or leaves its group not ready while all 32 are open. -/
def Obligations.TrapMerging : Prop :=
  ∀ (u : State) (gid sub : Nat) (pc : W64) (len a : Nat) (x : Trap), (Tbl.look u.groups gid).isSome = true →
    let g := u.group gid
    let n := g.ident.core
    let t := takeTrap u gid sub pc len x
    let key := fun (r : CoRec) => r.cause = x.cause ∧ r.page = a - a % 65536 ∧ r.stage2 = x.stage2 ∧ r.engine = false
    x.page = some a → (x.stage2 = true ∨ g.csr.m = false ∧ g.csr.hbase ≠ 0) → x.cause ≠ 0x18 → Tbl.sorted (u.core n).recs = true →
    (∀ k r, (k, r) ∈ (u.core n).recs → key r → (∀ j q, (j, q) ∈ (u.core n).recs → key q → j = k) →
      OthersKept u t gid ∧ t.group gid = { g with wrote := [], hang := if x.stage2 then .stage2 k else .member k }
      ∧ ∃ q, Tbl.look (t.core n).recs k = some q ∧ q.count = min 0xFFFF (r.count + 1) ∧ g.ident.slot ∈ q.slots
        ∧ q = { r with count := q.count, slots := q.slots })
    ∧ ((∀ c ∈ (u.core n).recs, ¬ key c.2) → ∀ k < 32, Tbl.look (u.core n).recs k = none →
      (∀ j < k, (Tbl.look (u.core n).recs j).isSome = true) →
      OthersKept u t gid
      ∧ Tbl.look (t.core n).recs k = some ⟨x.cause, x.stage2, x.w, x.fetch, false, 1, a - a % 65536, [g.ident.slot], pc, u.m.ftime, []⟩
      ∧ (x.stage2 = true → t.group gid = { g with wrote := [], hang := .stage2 k })
      ∧ (x.stage2 = false → (t.group gid).entries = ⟨some (n, k), x.cause, page64 x.tval.toNat, false⟩ :: g.entries
          ∧ (t.group gid).handler = some sub
          ∧ ((t.group gid).sub sub).pc = g.csr.hbase ∧ (t.group gid).csr.m = true ∧ (t.group gid).csr.tval = x.tval))
    ∧ ((∀ c ∈ (u.core n).recs, ¬ key c.2) → (∀ j < 32, (Tbl.look (u.core n).recs j).isSome = true) →
      LatchesAside { u with groups := t.groups } t ∧ OthersKept u t gid ∧ t.group gid = { g with wrote := [], hang := .full })

/-- R437, R267: SYSC and TRAP, where a lane is active (under UNI: where the predicate holds), trap with causes 0x19 and 0x1A,
TVAL their immediate and TEPC the successor; with HBASE set and M clear they enter the handler (`Claim.TrapEntry`).
Elsewhere nothing happens. -/
def Sys2Proof.Claim.SoftwareTraps : Prop :=
  ∀ (f : Fields) (s : State) (gid sub : Nat), Issuing s gid sub →
    let g := s.group gid
    let on := if f.uni then g.uniOn sub f = true else g.activeReal sub f ≠ 0
    ∀ o ∈ [(Instr.sysc f, 0x19), (Instr.trap f, 0x1A)],
      (¬ on → Does o.1 s gid sub (nextPc f s gid sub) s)
      ∧ (on → Traps o.1 f s gid sub s { cause := o.2, tval := f.imm.zeroExtend 64, succ := true })
      ∧ (on → g.csr.m = false → g.csr.hbase ≠ 0 → ∃ t, exec o.1 s = .next t ∧ t.issue = none ∧ OthersKept s t gid
          ∧ (t.group gid).csr.tcause = BitVec.ofNat 64 o.2 ∧ (t.group gid).csr.tepc = nextPc f s gid sub
          ∧ (t.group gid).csr.tval = f.imm.zeroExtend 64 ∧ (t.group gid).csr.m = true
          ∧ ((t.group gid).sub sub).pc = g.csr.hbase ∧ (t.group gid).win = g.win ∧ (t.group gid).s = g.s
          ∧ (t.group gid).p = g.p ∧ t.mem = s.mem)

/-- R270: ERET goes to TEPC, clears M, applies and clears WSKIP, lets the frozen sub-groups resume, closes the record that
the entry it ends leads, whose members issue again with the groups that found no record free, and resumes parked copies of
that entry's cause and page. With M = 0 it traps ILLOP. That it ends the latest of nested entries alone, with that entry's own
record, cause and page, and that a WSKIP which a PREEMPT found unused is in force again, is the model's choice (log 28,
DEDUCED); the clauses on records that stay leave cores with owed reports aside (log 25). -/
def Sys2Proof.Claim.ReturnFromTrap : Prop :=
  ∀ (f : Fields) (s : State) (gid sub : Nat), Issuing s gid sub →
    let g := s.group gid
    let n := g.ident.core
    let led := g.entries.head?.bind (·.led)
    let ends := g.entries.head?.map fun e => (e.cause, e.page)
    let precise := (∀ c ∈ (s.core n).recs, c.2.engine = true → c.2.stage2 = true) ∧ ∀ c, (s.core c).owed = []
    (g.csr.m = false → Traps (.eret f) f s gid sub s { cause := 0x01, tval := (Instr.eret f).low64 })
    ∧ (g.csr.m = true → sub ∉ g.wskipNow → g.hang = .no → ∃ t, exec (.eret f) s = .next t
      ∧ t = { s with groups := t.groups, cores := t.cores, copies := t.copies, issue := none }
      ∧ t.group gid = { g with
          csr := { g.csr with m := false, wskip := false, left := 0 }, handler := none, frozen := 0, entries := g.entries.drop 1
          wskipNow := if g.csr.wskip = true ∨ g.entries.head?.any (·.skip) = true then g.wskipNow ++ [sub] else g.wskipNow
          lastSub := some sub, wrote := [], sleep := Tbl.del g.sleep sub, faults := (t.group gid).faults
          subs := Tbl.set g.subs sub { g.sub sub with pc := g.csr.tepc } }
      ∧ (∀ k, k ≠ gid → t.group k = { s.group k with hang := (t.group k).hang })
      ∧ (∀ k c r, k ≠ gid → led = some (c, r) → (s.group k).ident.core = c →
          (s.group k).hang ∈ [.member r, .stage2 r, .full] → (t.group k).hang = .no)
      ∧ (∀ k, k ≠ gid → precise → (t.group k).hang ≠ (s.group k).hang → ∃ c r, led = some (c, r) ∧ (s.group k).ident.core = c
          ∧ (s.group k).hang ∈ [.member r, .stage2 r, .full])
      ∧ (∀ c r, led = some (c, r) → (s.core c).owed = [] → Tbl.look (t.core c).recs r = none)
      ∧ (∀ c j, led ≠ some (c, j) → precise → Tbl.look (t.core c).recs j = Tbl.look (s.core c).recs j)
      ∧ ((∀ c ∈ s.copies, ∀ cause tv b, c.2.st = .parked cause tv b → c.2.gid = gid → ends ≠ some (cause, page64 tv.toNat)) →
          t.copies = s.copies ∧ (t.group gid).faults = g.faults)
      ∧ ∀ k y cause tv, Tbl.look s.copies k = some y → y.st = .parked cause tv true → y.gid = gid →
          ends = some (cause, page64 tv.toNat) → Tbl.look t.copies k = some { y with st := .running })

/-- `SoftwareTraps` and `ReturnFromTrap`, together. -/
def Obligations.SystemCallsAndReturn : Prop := Claim.SoftwareTraps ∧ Claim.ReturnFromTrap

/-! ### Control registers, ticks, events -/

/-- R58, R354, R355: CSRR gives the register's value, and CSRW with a delivered source writes what R355 lays down, TSF for
the whole team at once, LPOL, HBASE, TMASK and the others for the group. -/
def Sys2Proof.Claim.ControlRegisters : Prop :=
  ∀ (f : Fields) (s : State) (gid sub : Nat), Issuing s gid sub →
    let g := s.group gid
    let x := g.srcU sub f f.a
    (∀ c ∈ csrReads, f.c.code.toNat = c.1 → Does (.csrr f) s gid sub (nextPc f s gid sub) (withS s gid f.d (c.2 s g)))
    ∧ (Delivered g [f.a] → (∀ c ∈ csrWrites, f.c.code.toNat = c.1 → (0x10 ≤ c.1 → x.toNat / 2 ^ 56 % 16 < 14) →
          Does (.csrw f) s gid sub (nextPc f s gid sub) (s.setGroup gid { g with csr := c.2 g.csr x }))
        ∧ (f.c.code.toNat = 0x001 → Does (.csrw f) s gid sub (nextPc f s gid sub)
            (s.setTeam g.ident.tid { s.team g.ident.tid with tsf := BitVec.ofNat 5 x.toNat }))
        ∧ (∀ i < 8, f.c.code.toNat = 0x10 + i → 14 ≤ x.toNat / 2 ^ 56 % 16 →
            Traps (.csrw f) f s gid sub s { cause := 0x01, tval := (Instr.csrw f).low64 }))

/-- R438, R440, R73, R257: TICK gives FTIME, on both kinds of core, VDHOP the ring distance of two valid virtual dies or
0xFF, RKQ the bits of the slots and the holders of slot k, ARR and FAIL reading as zero in deterministic mode. -/
def Sys2Proof.Claim.ScalarReads : Prop :=
  ∀ (f : Fields) (s : State),
    (∀ gid sub, Issuing s gid sub →
      let g := s.group gid
      let u := (g.srcU sub f f.a).toNat
      let v := (g.srcU sub f f.b).toNat
      let die := fun (x : Nat) => if x < 16 then ((s.part g.ident.part).e.dies[x]?).filter (· < 16) else none
      let bits := fun (p : Slot → Bool) (at_ : Nat) => ((List.range 8).map fun j => if p (g.slot j) then 2 ^ (at_ + j) else 0).sum
      let det := s.flag g.ident.lid 0
      let k := f.c.code.toNat
      Does (.tick f) s gid sub (nextPc f s gid sub) (withS s gid f.d (BitVec.ofNat 64 s.m.ftime))
      ∧ (Delivered g [f.a, f.b] → Does (.vdhop f) s gid sub (nextPc f s gid sub) (withS s gid f.d (match die u, die v with
          | some a, some b => BitVec.ofNat 64 (min (max a b - min a b) (16 - (max a b - min a b)))
          | _, _ => 0xFF)))
      ∧ Does (.rkq f) s gid sub (nextPc f s gid sub) (withS s gid f.d (BitVec.ofNat 64
          (bits (·.busy) 0 + (if det then 0 else bits (·.arr) 8 + bits (·.fail) 16)
            + (if k < g.ident.k then (g.slot k).holders % 64 * 2 ^ 24 else 0)))))
    ∧ ∀ q r n, BeamIssuing s q r → f.d = .s n → BeamDoes (.tick f) s q r
        { r.setScal n.val (BitVec.ofNat 64 s.m.ftime) with pc := r.pc + BitVec.ofNat 64 f.len.bytes }

/-- `ControlRegisters` and `ScalarReads`, together. -/
def Obligations.ScalarState : Prop := Claim.ControlRegisters ∧ Claim.ScalarReads

/-- R234 to R236, R368: EVRT.route sets a row's mask of lines, EVRT.rd reads it, EVRT.wake sets the group's wake mask, and
EVRT.sig fires a software row, rows 0 to 5 trapping ILLOP. A firing opens the gates of the copies and queued passes of
the core that wait for one of its lines since an earlier tick, and ends the sleeps of the groups whose mask holds one. -/
def Sys2Proof.Claim.Trellis : Prop :=
  ∀ (f : Fields) (s : State) (gid sub : Nat), Issuing s gid sub →
    let g := s.group gid
    let n := g.ident.core
    let row := f.c.code.toNat
    let x := match f.b with | .s k => g.scal k.val | _ => 0
    let lines := Tbl.get 0 (s.core n).route row
    (Delivered g [f.b] →
      Does (.evrtRoute f) s gid sub (nextPc f s gid sub)
          (s.setCore n { s.core n with route := Tbl.put 0 (s.core n).route row (BitVec.ofNat 16 x.toNat) })
      ∧ Does (.evrtWake f) s gid sub (nextPc f s gid sub) (s.setGroup gid { g with wake := BitVec.ofNat 16 x.toNat }))
    ∧ Does (.evrtRd f) s gid sub (nextPc f s gid sub) (withS s gid f.d (lines.zeroExtend 64))
    ∧ (row < 6 → Traps (.evrtSig f) f s gid sub s { cause := 0x01, tval := (Instr.evrtSig f).low64 })
    ∧ (6 ≤ row → Does (.evrtSig f) s gid sub (nextPc f s gid sub) (fireRow s n row))
    ∧ (∀ k y e, Tbl.look s.copies k = some y → y.gate = some e → Tbl.look (fireRow s n row).copies k =
        some { y with gate := if y.core = n ∧ lines.getLsbD e = true ∧ y.since < s.m.ftime then none else some e })
    ∧ (∀ (i : Nat) (p : Pass) (e : Nat), (s.engine (n / 4)).queue[i]? = some p → p.gate = some e → ((fireRow s n row).engine (n / 4)).queue[i]? =
        some { p with gate := if p.ident.core = n ∧ lines.getLsbD e = true ∧ p.post < s.m.ftime then none else some e })
    ∧ ∀ k h, Tbl.look s.groups k = some h → ∃ h', Tbl.look (fireRow s n row).groups k = some h' ∧ h' = { h with woken := h'.woken }
        ∧ ∀ b, b ∈ h'.woken ↔ b ∈ h.woken ∨ h.ident.core = n ∧ h.wake &&& lines ≠ 0 ∧ ∃ t ≤ s.m.ftime, (b, t) ∈ h.sleep

/-- R181, R235, R433: SLEEP completes once FTIME has reached its tick, or a line of the wake mask has fired since the tick of
its first turn, with no copy of the group overdue; with one overdue and no copy fault pending it traps PROMISE, TVAL the
earliest promise; until then the sub-group is not ready, its sleep recorded since the first turn. -/
def Sys2Proof.Claim.Sleeps : Prop :=
  ∀ (f : Fields) (s : State) (gid sub : Nat), Issuing s gid sub → Delivered (s.group gid) [f.a] →
    let g := s.group gid
    let x := match f.a with | .s k => (g.scal k.val).toNat | _ => 0
    let awake := x ≤ s.m.ftime ∨ sub ∈ g.woken
      ∨ Tbl.look g.sleep sub = none ∧ ∃ e ∈ (s.core g.ident.core).fired, g.wake.getLsbD e.1 = true ∧ e.2 = s.m.ftime
    let overdue := s.copies.filter fun c =>
      decide (c.2.gid = gid ∧ c.2.obj = none ∧ c.2.promise ≤ s.m.ftime ∧ c.2.st ≠ .done ∧ ¬ (c.2.st = .written ∧ c.2.tw ≤ s.m.ftime))
    let rested := s.setGroup gid { g with sleep := Tbl.del g.sleep sub, woken := g.woken.filter (· ≠ sub) }
    (awake → overdue = [] → Does (.sleep f) s gid sub (nextPc f s gid sub) rested)
    ∧ (∀ c ∈ overdue, awake → NothingDue s gid [.cp] → (∀ d ∈ overdue, c.2.promise ≤ d.2.promise) →
        Traps (.sleep f) f s gid sub rested { cause := 0x08, tval := BitVec.ofNat 64 c.2.promise, succ := true })
    ∧ (¬ awake → Waits (.sleep f) s (if (Tbl.look g.sleep sub).isSome then s
        else s.setGroup gid { g with sleep := Tbl.set g.sleep sub s.m.ftime }))

/-- `Trellis` and `Sleeps`, together. -/
def Obligations.EventsAndSleep : Prop := Claim.Trellis ∧ Claim.Sleeps

/-! ### Tokens and waits -/

/-- R214: FENCE writes the token of its kinds and the present sequence and waits for nothing. R221: IFENCE discards every
instruction its core has fetched. -/
def Sys2Proof.Claim.Fences : Prop :=
  ∀ (f : Fields) (s : State) (gid sub : Nat), Issuing s gid sub →
    let g := s.group gid
    Does (.fence f) s gid sub (nextPc f s gid sub)
        (withS s gid f.d (BitVec.ofNat 64 (f.c.code.toNat % 128 * 2 ^ 48 + g.seq % 2 ^ 48)))
    ∧ Does (.ifence f) s gid sub (nextPc f s gid sub)
        { s with fetched := s.fetched.filter fun x => decide (x.1 ≠ g.ident.core) }

/-- R215, R383, R384: FWAIT returns when nothing is due for delivery and every condition its token names holds for the
group's older operations; a token with a reserved bit traps PROT; a condition that does not hold leaves it not ready. -/
def Sys2Proof.Claim.TokenWaits : Prop :=
  ∀ (f : Fields) (s : State) (gid sub : Nat) (n : Fin 32), Issuing s gid sub → f.a = .s n → Delivered (s.group gid) [f.a] →
    let g := s.group gid
    let t := g.scal n.val
    let cs := (if t.getLsbD 50 then [Cls.cp] else []) ++ (if t.getLsbD 51 then [.rd] else []) ++ (if t.getLsbD 52 then [.mp] else [])
      ++ (if t.getLsbD 53 then [.ar] else []) ++ (if t.getLsbD 54 then [.th] else [])
    let due := cs.filter fun c => decide (c ≠ .mp)
    let old := fun (q : Nat) => g.seq ≤ t.toNat % 2 ^ 48 ∨ olderSeq (t.toNat % 2 ^ 48) q = true
    let mine := fun (a : Access) => a.gid = gid ∧ old a.seq
    let loadsDone := ∀ c ∈ s.accesses, mine c.2 → c.2.kind.loadLike = true → c.2.finished = true ∧ ∀ k e, c.2.kind ≠ .late k e
    let storesDone := ∀ c ∈ s.accesses, mine c.2 → c.2.kind.storeLike = true → c.2.tw ≤ s.m.ftime ∧ ∀ e ∈ c.2.elems, e.st ≠ .issued
    let retired : Cls → Prop := fun
      | .cp => ∀ c ∈ s.copies, c.2.gid = gid → c.2.obj = none → ¬ old c.2.seq
      | .rd => ∀ c ∈ s.reds, c.2.gid = gid → ¬ old c.2.seq
      | .mp => (∀ q ∈ openPasses s gid, ¬ old q) ∧ ∀ q ∈ g.mpDone, ¬ old q
      | .ar => ∀ c ∈ s.arrops, c.2.gid = gid → (∀ d, c.2.dest ≠ .probe d) → c.2.dest ≠ .epoch → ¬ old c.2.seq
      | .th => ∀ c ∈ s.thops, c.2.gid = gid → ¬ old c.2.seq
    let all := (t.getLsbD 48 = true → loadsDone) ∧ (t.getLsbD 49 = true → storesDone) ∧ ∀ c ∈ cs, retired c
    (t.toNat / 2 ^ 55 ≠ 0 → Traps (.fwait f) f s gid sub s { cause := 0x0A, tval := t })
    ∧ (t.toNat / 2 ^ 55 = 0 → NothingDue s gid due →
      (∀ m ∈ g.memues, ¬ (m.kindL = true ∧ t.getLsbD 48 = true) ∧ ¬ (m.kindS = true ∧ t.getLsbD 49 = true)) →
      (all → Does (.fwait f) s gid sub (nextPc f s gid sub) s) ∧ (¬ all → Waits (.fwait f) s s))

/-- R442, R443: WAITC completes when nothing of its class is due for delivery and the class counter is at most n; above n
it is not ready. A pending ENGLOST is delivered by class MP, once (R162), before any pass fault, and the one fault of a
class is delivered and leaves the group's list. ENGLOST's IMP = 1 and CLASS = 3 are the model's choice (log 25, DEDUCED). -/
def Sys2Proof.Claim.ClassWaits : Prop :=
  ∀ o ∈ waitOps, ∀ (f : Fields) (s : State) (gid sub : Nat), Issuing s gid sub → Delivered (s.group gid) [f.a] →
    let g := s.group gid
    let n := match f.a with | .s k => (g.scal k.val).toNat | .imm => f.imm.toNat | _ => 0
    let count := match o.2 with | .cp => g.csr.cp | .rd => g.csr.rd | .mp => g.csr.mp | .ar => g.csr.ar | .th => g.csr.th
    (NothingDue s gid [o.2] → (o.2 = .mp → g.engLost = none) →
      (count ≤ min n 255 → Does (o.1 f) s gid sub (nextPc f s gid sub) s) ∧ (min n 255 < count → Waits (o.1 f) s s))
    ∧ (∀ k, o.2 = .mp → g.engLost = some k → Traps (o.1 f) f s gid sub (s.setGroup gid { g with engLost := none })
        { cause := 0x11, tval := BitVec.ofNat 64 k, imp := true, cls := 3 })
    ∧ ∀ x rest, (o.2 = .mp → g.engLost = none) → g.faults = x :: rest → x.cls = o.2 → (∀ y ∈ rest, y.cls ≠ o.2) →
        (∀ c ∈ s.copies, c.2.gid = gid → ∀ cause tv, c.2.st ≠ .parked cause tv false) →
        Traps (o.1 f) f s gid sub (s.setGroup gid { g with faults := rest })
          { cause := x.cause, tval := x.tval, w := x.w, imp := true
            cls := match o.2 with | .cp => 1 | .rd => 2 | .mp => 3 | .ar => 4 | .th => 5 }

/-- `Fences` and `TokenWaits` and `ClassWaits`, together. -/
def Obligations.FencesAndWaits : Prop := Claim.Fences ∧ Claim.TokenWaits ∧ Claim.ClassWaits

/-! ### Barriers and queues -/

/-- R230, R231: BARA, once every older store has returned its T_w, gives PHASE and then counts one arrival and its bytes; with all
arrivals in and none pending the phase moves on. BARW passes when PHASE differs from its operand and otherwise registers
its wait; BART writes that comparison to every lane. An arrival beyond EXP traps PROT 0x610. The team keeps the barriers
it has used, which its end breaks (R233; the model's own record, log 29). -/
def Obligations.Barriers : Prop :=
  ∀ (f : Fields) (s : State) (gid sub addr t off : Nat) (b : Bar), Issuing s gid sub → BarrierAt s gid sub f addr t off b →
    let g := s.group gid
    let x := match f.b with | .s k => (g.scal k.val).toNat | _ => 0
    let pend := (b.pend + if f.d = f.b ∧ f.b ≠ .zero then b.phase else x) % 2 ^ 64
    let complete := b.arrv + 1 = b.exp ∧ pend = 0
    let s1 := if off ∈ (s.team t).bobjs then s else s.setTeam t { s.team t with bobjs := (s.team t).bobjs ++ [off] }
    let arrive := withS s1 gid f.d (BitVec.ofNat 64 b.phase)
    (released s gid = true → b.arrv < b.exp → ¬ complete → ∃ sp,
      Stored (s.team t).sp sp [(off + 2, 2, b.arrv + 1), (off + 4, 4, b.phase), (off + 8, 8, pend)]
      ∧ Does (.bara f) s gid sub (nextPc f s gid sub) (fireFor (withSp arrive t sp) t 2))
    ∧ (released s gid = true → b.arrv < b.exp → complete → NoWaiters s t off → ∃ sp,
      Stored (s.team t).sp sp [(off + 2, 2, 0), (off + 4, 4, (b.phase + 1) % 2 ^ 32), (off + 8, 8, 0)]
      ∧ Does (.bara f) s gid sub (nextPc f s gid sub) (fireFor (fireFor (withSp arrive t sp) t 3) t 2))
    ∧ (released s gid = true → b.arrv = b.exp → Traps (.bara f) f s gid sub s { cause := 0x0A, tval := 0x610 })
    ∧ (released s gid = false → Waits (.bara f) s s)
    ∧ (b.phase ≠ x % 2 ^ 32 → Does (.barw f) s gid sub (nextPc f s gid sub) s1)
    ∧ (b.phase = x % 2 ^ 32 → Waits (.barw f) s { s1 with waiters := s.waiters ++
        [⟨gid, sub, .barw, t, off, BitVec.ofNat 64 addr, BitVec.ofNat 64 (x % 2 ^ 32), 0, 0, false⟩] })
    ∧ Does (.bart f) s gid sub (nextPc f s gid sub) (s1.setGroup gid
        (g.setPred (f.d.code.toNat % 8) (BitVec.allOnes 256) (if b.phase ≠ x % 2 ^ 32 then BitVec.allOnes 256 else 0)))

/-- R225 to R229: a QPUSH that may proceed enters its word and its sender, takes one of its member's allowance and moves
TAIL; a QPOP takes the oldest word, gives the allowance back and moves HEAD; QTRY does the same without waiting and says in
a predicate whether it did. Without room, allowance or entries QPUSH and QPOP register their wait. -/
def Obligations.Queues : Prop :=
  ∀ (f : Fields) (s : State) (gid sub addr t off cap head tail : Nat), Issuing s gid sub →
    QueueAt s gid sub f addr t off cap head tail → NoWaiters s t off →
    let g := s.group gid
    let tid := g.ident.tid
    let j := (s.team tid).member
    let x := match f.b with | .s k => (g.scal k.val).toNat | _ => 0
    let s' := if addr ∈ (s.team tid).queues then s
      else s.setTeam tid { s.team tid with queues := (s.team tid).queues ++ [addr] }
    let n := spNum s t
    let entry := off + 0x40 + 8 * (head % cap)
    let sender := n (off + 0x40 + 8 * cap + head % cap) 1
    let value := n entry 8
    let popped := fun (sp : Mem) => Stored (s.team t).sp sp ((off + 4, 4, (head + 1) % 2 ^ 32) ::
      if sender < 24 then [(off + 0x10 + sender, 1, min 255 (n (off + 0x10 + sender) 1 + 1))] else [])
    let waits := fun (k : WaitKind) (v : Nat) (d m : Nat) => { s' with waiters := s'.waiters ++
      [⟨gid, sub, k, t, off, BitVec.ofNat 64 addr, BitVec.ofNat 64 v, d, m, false⟩] }
    (released s gid = true → n (off + 0x10 + j) 1 ≠ 0 → (tail + 2 ^ 32 - head) % 2 ^ 32 ≠ cap → ∃ sp,
      Stored (s.team t).sp sp [(off + 0x40 + 8 * (tail % cap), 8, x), (off + 0x40 + 8 * cap + tail % cap, 1, j),
        (off + 0x10 + j, 1, n (off + 0x10 + j) 1 - 1), (off + 8, 4, (tail + 1) % 2 ^ 32)]
      ∧ Does (.qpush f) s gid sub (nextPc f s gid sub)
          (if tail = head then fireFor (withSp s' t sp) t 4 else withSp s' t sp))
    ∧ (released s gid = true → n (off + 0x10 + j) 1 = 0 ∨ (tail + 2 ^ 32 - head) % 2 ^ 32 = cap →
        Waits (.qpush f) s (waits .push x 0 j))
    ∧ (released s gid = false → Waits (.qpush f) s s)
    ∧ (tail ≠ head → ∃ sp, popped sp
      ∧ Does (.qpop f) s gid sub (nextPc f s gid sub) (withS (withSp s' t sp) gid f.d (BitVec.ofNat 64 value)))
    ∧ (tail = head → Waits (.qpop f) s (waits .pop 0 (f.d.code.toNat - 0x40) 0))
    ∧ (s.flag g.ident.lid 0 = false → tail ≠ head → ∃ sp, popped sp
      ∧ Does (.qtry f) s gid sub (nextPc f s gid sub) ((withSp s' t sp).setGroup gid
          ((g.putS f.d (BitVec.ofNat 64 value)).setPred f.c.code.toNat (BitVec.allOnes 256) (BitVec.allOnes 256))))
    ∧ (s.flag g.ident.lid 0 = false → tail = head → Does (.qtry f) s gid sub (nextPc f s gid sub)
        (s'.setGroup gid (g.setPred f.c.code.toNat (BitVec.allOnes 256) 0)))
    ∧ (s.flag g.ident.lid 0 = true → Traps (.qtry f) f s gid sub s { cause := 0x0C, tval := 0x2A5 })

/-! ### Memory -/

/-- R264, R313, R399: the checks of a memory word on its elements: a misaligned address traps ALIGN, the lowest lane's; in
scratchpad each element lies in its allocation or PROT is trapped with its address; in virtual memory each is translated,
and passes when no page is ROOT under a store, the launch is not deterministic and no watchpoint is enabled. -/
def Sys2Proof.Claim.AccessChecks : Prop :=
  ∀ (c : Ctx) (s : State) (r w : Bool) (kind : DetKind) (opcFn : Nat) (reqs : List Req),
    let g := c.g s
    let bad := fun (q : Req) => q.al ≠ 0 ∧ q.va.toNat % q.al ≠ 0
    (∀ pre q post, reqs = pre ++ q :: post → (∀ p ∈ pre, ¬ bad p) → bad q →
      resolve c s r w kind opcFn reqs = .error (.trap { cause := 0x05, tval := q.va }))
    ∧ ((∀ q ∈ reqs, ¬ bad q) → memSp c.f = true →
      let inside := fun (q : Req) (t off : Nat) => q.va.toNat < 2 ^ 32 ∧ spTeam s g.ident.tid q.va.toNat = some (t, off)
        ∧ off + q.size ≤ (s.team t).spSize ∧ (s.team t).reclaimed = false
      (∀ at_ : Req → Nat × Nat, (∀ q ∈ reqs, inside q (at_ q).1 (at_ q).2) →
        resolve c s r w kind opcFn reqs = .ok (s, reqs.map fun q => q.elem (.sp (at_ q).1 (at_ q).2)))
      ∧ ∀ pre q post, reqs = pre ++ q :: post → (∀ p ∈ pre, ∃ t off, inside p t off) → (∀ t off, ¬ inside q t off) →
        resolve c s r w kind opcFn reqs = .error (.trap { cause := 0x0A, tval := q.va }))
    ∧ ((∀ q ∈ reqs, ¬ bad q) → memSp c.f = false → ∀ e : Req → TlbE,
      (∀ q ∈ reqs, translate s g.ident.part q.va.toNat w false = .ok (s, e q)) →
      (∀ q ∈ reqs, (e q).remote = true → polScope (policy g c.f) = 4) → (w = true → ∀ q ∈ reqs, (e q).remote = false → (e q).root = false) →
      s.flag g.ident.lid 0 = false → (∀ x ∈ g.csr.watch, x.2.getLsbD 63 = false) →
      resolve c s r w kind opcFn reqs = .ok (s, reqs.map fun q => q.elem ((e q).place q.va.toNat)))

/-- R421: PREF completes without a trap on its addresses; no register and no byte of memory changes. What copies it brings in
is the model's choice (log 8, DESIGN CHOICE), and so is that with no active lane nothing but the PC changes, no sequence
value being taken (log 21, DEDUCED: R24 against R421 and R214). -/
def Sys2Proof.Claim.Prefetch : Prop :=
  ∀ (f : Fields) (s : State) (gid sub : Nat), Issuing s gid sub → PolicyOk (s.group gid) f →
    RefsOk (s.group gid) [{ o := f.a }, { o := memIndex f }] [] →
    let on := if f.uni then (s.group gid).uniOn sub f = true else (s.group gid).activeReal sub f ≠ 0
    (¬ on → Does (.pref f) s gid sub (nextPc f s gid sub) s)
    ∧ (on → ∃ t, exec (.pref f) s = .next t
      ∧ t = { s with groups := t.groups, cores := t.cores, copies1 := t.copies1, leases := t.leases, tlb := t.tlb, issue := none }
      ∧ OthersKept s t gid ∧ t.group gid = issuedAt (nextSeqOf (s.group gid)) sub (nextPc f s gid sub))

/-- `AccessChecks` and `Prefetch`, together. -/
def Obligations.MemoryChecks : Prop := Claim.AccessChecks ∧ Claim.Prefetch

/-- R398 to R401, R434: LDV, LDP, STV and STP issue one element for each active real lane at base + index · scale +
displacement. A load leaves its destination E and zero in helper lanes; a store takes its data now, drops its core's copies
and replicas of the lines, and leaves every register alone. The late load takes the lowest free slot and seeds its pair with 1.0 and 0,
or is an ordinary load when none is free. With no active lane: `Claim.IdleWords`. -/
def Obligations.LaneAccesses : Prop :=
  ∀ (f : Fields) (s s1 s2 : State) (gid sub : Nat) (es : List Elem), Issuing s gid sub →
    let act := (s.group gid).activeReal sub f
    let g := s1.group gid
    let h := s2.group gid
    let pc := nextPc f s gid sub
    act ≠ 0 → PolicyOk (s.group gid) f →
    let load := fun (i : Instr) (n : Nat) (d : Fin 64) => f.d = .v d →
      resolve (ctx i f s gid sub) s1 true false .store 0 ((mlanes act).map fun l =>
        { lane := l, va := memAddr g f l, size := n, al := n, off := 1024 * d.val + 4 * l }) = .ok (s2, es) →
      ∃ t, exec i s = .next t
        ∧ AccessIssued s2 t gid (accessOf h gid sub .load .win f.fmt false (policy h f) es) ∧ t.copies1 = s2.copies1
        ∧ LoadMarked h (t.group gid) s2.nextId (1024 * d.val) (256 * n) f.fmt (helperWords g act d.val (n / 4)) sub pc
    let store := fun (i : Instr) (n : Nat) (data : Nat → Nat) =>
      resolve (ctx i f s gid sub) s1 false true .store 0 ((mlanes act).map fun l =>
        { lane := l, va := memAddr g f l, size := n, al := n, data := data l }) = .ok (s2, es) →
      ∃ t, exec i s = .next t
        ∧ AccessIssued s2 t gid (accessOf h gid sub .store .none .raw false (policy h f) es) ∧ OwnCopiesDropped s2 t h es
        ∧ t.group gid = issuedAt (nextSeqOf h) sub pc
    (RefsOk (s.group gid) (memUses f) [(f.d, 1)] → Readable (ctx (.ldv f) f s gid sub) (memUses f) s s1 →
        ∀ d, load (.ldv f) 4 d)
    ∧ (RefsOk (s.group gid) (memUses f) [(f.d, 2)] → Readable (ctx (.ldp f) f s gid sub) (memUses f) s s1 →
        ∀ d, load (.ldp f) 8 d)
    ∧ (RefsOk (s.group gid) (memUses f ++ [dataUse f 1]) [] → Readable (ctx (.stv f) f s gid sub) (memUses f ++ [dataUse f 1]) s s1 →
        store (.stv f) 4 fun l => (g.src f f.b l).toNat)
    ∧ (RefsOk (s.group gid) (memUses f ++ [dataUse f 2]) [] → Readable (ctx (.stp f) f s gid sub) (memUses f ++ [dataUse f 2]) s s1 →
        ∀ b : Fin 64, f.b = .v b → store (.stp f) 8 fun l => (g.lane b.val l).toNat + 2 ^ 32 * (g.lane (b.val + 1) l).toNat)
    ∧ (RefsOk (s.group gid) (memUses f) [(f.d, if polLate (policy (s.group gid) f) then 2 else 1)] →
        Readable (ctx (.ldvLate f) f s gid sub) (memUses f) s s1 → ∀ d : Fin 64, f.d = .v d →
        (polLate (policy (s.group gid) f) = false → load (.ldvLate f) 4 d)
        ∧ (polLate (policy (s.group gid) f) = true → (s.group gid).anyE (1024 * d.val) 2048 = true →
            resolve (ctx (.ldvLate f) f s gid sub) s1 true false .store 0 ((mlanes act).map fun l =>
              { lane := l, va := memAddr g f l, size := 4, al := 4 }) = .ok (s2, es) → Waits (.ldvLate f) s s)
        ∧ (polLate (policy (s.group gid) f) = true → (s.group gid).anyE (1024 * d.val) 2048 = false →
          ((∀ k < g.ident.k, (g.slot k).busy = true) → load (.ldvLate f) 4 d)
          ∧ ∀ k < g.ident.k, (g.slot k).busy = false → (∀ j < k, (g.slot j).busy = true) →
            resolve (ctx (.ldvLate f) f s gid sub) s1 true false .store 0 ((mlanes act).map fun l =>
              { lane := l, va := memAddr g f l, size := 4, al := 4 }) = .ok (s2, es) →
            ∃ t, exec (.ldvLate f) s = .next t
              ∧ AccessIssued s2 t gid (accessOf h gid sub (.late k ((h.slot k).epoch + 1)) .none .f32 false (policy h f) es)
              ∧ (∀ l < 256, (t.group gid).lane d.val l = 0 ∧ (t.group gid).lane (d.val + 1) l = 0x3F800000)
              ∧ (t.group gid).st d.val = .pend k ∧ (t.group gid).st (d.val + 1) = .pend k
              ∧ (∀ x ∈ Group.granules (1024 * d.val) 2048, (t.group gid).tagAt x = .f32)
              ∧ (h.anyP (1024 * d.val) 2048 = false → (t.group gid).slot k =
                  ⟨true, false, false, false, true, true, 1, (h.slot k).epoch + 1⟩)
              ∧ ∀ a, a < 1024 * d.val ∨ 1024 * d.val + 2048 ≤ a → (t.group gid).win.read a = h.win.read a))

/-- R400, R434: LDS and STS, which no predicate governs, are one access of 1, 2, 4 or 8 bytes; an LDS leaves its scalar unavailable until the data land. -/
def Sys2Proof.Claim.ScalarAccesses : Prop :=
  ∀ (f : Fields) (s s2 : State) (gid sub : Nat) (es : List Elem), Issuing s gid sub →
    let g := s.group gid
    let h := s2.group gid
    let pc := nextPc f s gid sub
    let n := 2 ^ (f.ext.extractLsb' 10 2).toNat
    let va := memAddr g f ((mlowest (g.sub sub).mask).getD 0)
    PolicyOk g f → Delivered g [f.a, memIndex f] →
    (∀ d : Fin 32, f.d = .s d →
      resolve (ctx (.lds f) f s gid sub) (holdLatch s (ctx (.lds f) f s gid sub)) true false .store 0 [{ lane := 0, va := va, size := n, al := n }] = .ok (s2, es) →
      ∃ t, exec (.lds f) s = .next t
        ∧ AccessIssued s2 t gid (accessOf h gid sub .load (.scal d.val) f.fmt (f.fmt == .i32) (policy h f) es)
        ∧ t.copies1 = s2.copies1
        ∧ t.group gid = issuedAt { nextSeqOf h with sbusy := (h.sbusy.filter fun b => b.1 ≠ d.val) ++ [(d.val, s2.nextId)] } sub pc)
    ∧ (Delivered g [f.b] → resolve (ctx (.sts f) f s gid sub) (holdLatch s (ctx (.sts f) f s gid sub)) false true .store 0
        [{ lane := 0, va := va, size := n, al := n, data := (g.srcU sub f f.b).toNat % 2 ^ (8 * n) }] = .ok (s2, es) →
      ∃ t, exec (.sts f) s = .next t
        ∧ AccessIssued s2 t gid (accessOf h gid sub .store .none .raw false (policy h f) es) ∧ OwnCopiesDropped s2 t h es
        ∧ t.group gid = issuedAt (nextSeqOf h) sub pc)

/-- R404, R435, R211: LDT and STT, which no predicate governs, move a tile or accumulator register in 4-byte parts, its rows `pitch` bytes apart: the
row size, or a scalar that is a multiple of 64 between the row size and 16 MiB. That LDT loads the whole tile, whatever lanes
are active, follows R404 and R23's last sentence against R23's list (log 82, DEDUCED). -/
def Sys2Proof.Claim.TileAccesses : Prop :=
  ∀ (f : Fields) (s s1 s2 : State) (gid sub : Nat) (es : List Elem), Issuing s gid sub →
    let g := s1.group gid
    let h := s2.group gid
    let at_ := nextPc f s gid sub
    let row := fun (o : Opd) => match o with | .a _ => 128 | _ => 64
    let pitch := fun (o : Opd) => match f.c with | .s n => (g.scal n.val).toNat | _ => row o
    let view := fun (o : Opd) => match o with | .a _ => Tag.f32 | _ => tileTag (s.group gid).csr.tview
    let admitted := fun (o : Opd) => f.fmt = view o ∧ (f.fmt = .bpb → ∀ n, f.c ≠ .s n)
      ∧ ((∃ n, f.c = .s n) → pitch o % 64 = 0 ∧ row o ≤ pitch o ∧ pitch o ≤ 2 ^ 24)
    PolicyOk (s.group gid) f → Delivered g [f.a, memIndex f, f.c] →
    (∀ start len, admitted f.d → RefsOk (s.group gid) (memUses f) [(f.d, 1)] → Readable (ctx (.ldt f) f s gid sub) (memUses f) s s1 →
      g.range f.d = some (start, len) →
      resolve (ctx (.ldt f) f s gid sub) s1 true false .store 0 (tileReqs g f.d start (memAddr g f 0) (pitch f.d)) = .ok (s2, es) →
      ∃ t, exec (.ldt f) s = .next t
        ∧ AccessIssued s2 t gid (accessOf h gid sub .load .win f.fmt false (policy h f) es) ∧ t.copies1 = s2.copies1
        ∧ LoadMarked h (t.group gid) s2.nextId start len f.fmt [] sub at_)
    ∧ (∀ start len, let uses := memUses f ++ [{ o := f.b, bt := f.btB, tag := some f.fmt }]
      admitted f.b → RefsOk (s.group gid) uses [(f.b, 1)] → Readable (ctx (.stt f) f s gid sub) uses s s1 →
      g.range f.b = some (start, len) →
      resolve (ctx (.stt f) f s gid sub) s1 false true .store 0 (tileReqs g f.b start (memAddr g f 0) (pitch f.b)) = .ok (s2, es) →
      ∃ t, exec (.stt f) s = .next t
        ∧ AccessIssued s2 t gid (accessOf h gid sub .store .none .raw false (policy h f) es) ∧ OwnCopiesDropped s2 t h es
        ∧ t.group gid = issuedAt (nextSeqOf h) sub at_)

/-- `ScalarAccesses` and `TileAccesses`, together. -/
def Obligations.WideAccesses : Prop := Claim.ScalarAccesses ∧ Claim.TileAccesses

/-- R237, R238, R333, R334: an ATOM issues one element for each active real lane, or one under UNI, with its data and, for
CAS, its comparand; a returning one leaves its destination E, or its scalar unavailable, until the old value lands. With nothing active: `Claim.IdleWords`. -/
def Obligations.AtomicIssue : Prop :=
  ∀ o ∈ atomOps, ∀ (f : Fields) (s s1 s2 : State) (gid sub : Nat) (es : List Elem), Issuing s gid sub →
    let act := (s.group gid).activeReal sub f
    let g := s1.group gid
    let h := s2.group gid
    let pc := nextPc f s gid sub
    let cas := o.2.1 = .cas
    let uses := memUses f ++ if cas then [useB f (tagOf f), useC f (tagOf f)] else [useB f (tagOf f)]
    let kind := AccKind.atom o.2.1 (!f.x61)
    PolicyOk (s.group gid) f → RefsOk (s.group gid) uses [(f.d, 1)] →
    (f.uni = false → act ≠ 0 → Readable (ctx (o.1 f) f s gid sub) uses s s1 →
      resolve (ctx (o.1 f) f s gid sub) s1 true true (atomKind o.2.1 (!f.x61)) (0x89 + 2 ^ 8 * o.2.2) ((mlanes act).map fun l =>
        { lane := l, va := memAddr g f l, size := 4, al := 4, off := 1024 * f.d.code.toNat + 4 * l
          data := (g.src f f.b l).toNat, cmp := if cas then g.src f f.c l else 0 }) = .ok (s2, es) →
      (∀ d : Fin 64, f.d = .v d → ∃ t, exec (o.1 f) s = .next t
        ∧ AccessIssued s2 t gid (accessOf h gid sub kind .win f.fmt false (policy h f) es) ∧ t.copies1 = s2.copies1
        ∧ LoadMarked h (t.group gid) s2.nextId (1024 * d.val) 1024 f.fmt (helperWords h act d.val 1) sub pc)
      ∧ (f.d = .zero → ∃ t, exec (o.1 f) s = .next t
        ∧ AccessIssued s2 t gid (accessOf h gid sub kind .none .raw false (policy h f) es) ∧ t.copies1 = s2.copies1
        ∧ t.group gid = issuedAt (nextSeqOf h) sub pc))
    ∧ (f.uni = true → (s.group gid).uniOn sub f = true → Delivered (s.group gid) (uses.map (·.o)) → s1 = holdLatch s (ctx (o.1 f) f s gid sub) →
      resolve (ctx (o.1 f) f s gid sub) s1 true true (atomKind o.2.1 (!f.x61)) (0x89 + 2 ^ 8 * o.2.2)
        [{ lane := 0, va := memAddr g f ((mlowest (g.sub sub).mask).getD 0), size := 4, al := 4
           data := (g.srcU sub f f.b).toNat % 2 ^ 32, cmp := if cas then (g.srcU sub f f.c).extractLsb' 0 32 else 0 }] = .ok (s2, es) →
      (∀ n : Fin 32, f.d = .s n → ∃ t, exec (o.1 f) s = .next t
        ∧ AccessIssued s2 t gid (accessOf h gid sub kind (.scal n.val) .raw false (policy h f) es) ∧ t.copies1 = s2.copies1
        ∧ t.group gid = issuedAt { nextSeqOf h with sbusy := (h.sbusy.filter fun b => b.1 ≠ n.val) ++ [(n.val, s2.nextId)] } sub pc)
      ∧ (f.d = .zero → ∃ t, exec (o.1 f) s = .next t
        ∧ AccessIssued s2 t gid (accessOf h gid sub kind .none .raw false (policy h f) es) ∧ t.copies1 = s2.copies1
        ∧ t.group gid = issuedAt (nextSeqOf h) sub pc))

/-- R208 to R210, R213, R237, R238, R400: an element that may be performed is performed at its one place: a store writes its
bytes there and nothing elsewhere, an ATOM the result of its operation, a load without a lease changes no memory and
delivers the bytes at the place to its window bytes or its scalar. T_w is not before the present tick, and WH rises to it. -/
def Sys2Proof.Claim.Performing : Prop :=
  ∀ (s : State) (id i : Nat) (a : Access) (e : Elem), ElementReady s id i a e →
    (a.kind = .store → ∃ t b, exec (.storePerformed id i) s = .next t ∧ PlaceWritten s t e.place (bytesOfNat e.size e.data)
      ∧ Tbl.look t.accesses id = some b ∧ b.elems = a.elems.set i { e with st := .done } ∧ s.m.ftime ≤ b.tw ∧ a.tw ≤ b.tw
      ∧ (Tbl.look s.groups a.gid ≠ none → (s.group a.gid).csr.wh ≤ (t.group a.gid).csr.wh ∧ s.m.ftime ≤ (t.group a.gid).csr.wh))
    ∧ (∀ op ret, a.kind = .atom op ret → ∃ t b, exec (.atomAtReducer id i) s = .next t
      ∧ PlaceWritten s t e.place (bytesOfNat 4 (op.apply (natOfBytes (peek s e.place 4)) e.data e.cmp.toNat).1)
      ∧ Tbl.look t.accesses id = some b ∧ s.m.ftime ≤ b.tw
      ∧ (ret = false → b.elems = a.elems.set i { e with st := .done })
      ∧ (ret = true → ∃ tw, b.elems = a.elems.set i { e with st := .applied tw (BitVec.ofNat 32 (natOfBytes (peek s e.place 4))) }))
    ∧ (a.kind = .load → (∀ x root ro, e.place = .pa x root ro → root = true ∨ polLease a.pol = 0) →
      ∃ t b, exec (.loadDelivery id i false) s = .next t ∧ MemoriesSame s t
        ∧ Tbl.look t.accesses id = some b ∧ b.elems = a.elems.set i { e with st := .done }
        ∧ (∀ p, a.dest = .win → e.size = 4 → (Tbl.look s.groups a.gid).isSome = true →
            Tbl.look (s.group a.gid).prods id = some p → p.skip = [] → (t.group a.gid).win.bytes e.off 4 = peek s e.place 4)
        ∧ (∀ p, a.dest = .win → e.size = 8 → (Tbl.look s.groups a.gid).isSome = true →
            Tbl.look (s.group a.gid).prods id = some p → p.skip = [] →
            (t.group a.gid).win.bytes e.off 4 = (peek s e.place 8).take 4
            ∧ (t.group a.gid).win.bytes (e.off + 1024) 4 = (peek s e.place 8).drop 4)
        ∧ ∀ n, a.dest = .scal n → (Tbl.look s.groups a.gid).isSome = true → (n, id) ∈ (s.group a.gid).sbusy →
            (t.group a.gid).scal n = (if a.signed then BitVec.ofInt 64 (toSigned (8 * e.size) (natOfBytes (peek s e.place e.size)))
              else BitVec.ofNat 64 (natOfBytes (peek s e.place e.size)))
            ∧ ∀ c ∈ (t.group a.gid).sbusy, c.1 ≠ n)
    ∧ ∀ o ∈ atomResults, ∀ x d c : W32, o.1.apply x.toNat d.toNat c.toNat = ((o.2 x d c).toNat, 0)

/-- R51, R53, R238, R400: the old value of an applied ATOM lands in its destination; with the last element of a load or
returning ATOM the destination's registers become F under the load's tag. -/
def Sys2Proof.Claim.Landing : Prop :=
  ∀ (s : State) (id i : Nat) (a : Access) (e : Elem) (tw : Nat) (old : W32) (p : Prod) (op : AtomOp),
    Tbl.look s.accesses id = some a → a.elems[i]? = some e → e.st = .applied tw old → a.kind = .atom op true → a.dest = .win →
    (Tbl.look s.groups a.gid).isSome = true → (s.group a.gid).prods = [(id, p)] → p.skip = [] → p.skipTags = [] → e.size = 4 →
    ∃ t, exec (.atomReturnDelivery id i) s = .next t ∧ MemoriesSame s t
      ∧ (t.group a.gid).win.bytes e.off 4 = bytesOfNat 4 old.toNat
      ∧ (∀ x, x < e.off ∨ e.off + 4 ≤ x → (t.group a.gid).win.read x = (s.group a.gid).win.read x)
      ∧ ((∀ j x, j ≠ i → a.elems[j]? = some x → x.st = .done) → (t.group a.gid).prods = []
        ∧ (∀ k ∈ Group.granules p.start p.len, (t.group a.gid).tagAt k = p.tag)
        ∧ ∀ r ∈ regsOf p.start p.len, (s.group a.gid).st r = .empty → (t.group a.gid).st r = .full)

/-- `Performing` and `Landing`, together. -/
def Obligations.AccessCompletion : Prop := Claim.Performing ∧ Claim.Landing

/-- R171, R177, R238, R271, R302, R402: a lease's end drops its copies. A read that fails twice is counted and fails the
element, whose access holds a MEMUE for its FENCE kinds when it ends; scratchpad never fails so: a failing read that names
it leaves the state as it stands. Over the scale-up ports the first failure is counted and resent, and a store that its
home refuses (R295) fails likewise; a module that leaves stays away. No memory changes. That a failed domain store counts
as one with a MEMUE is the model's choice (log 65, DEDUCED), and so is the refusal as it reaches the issuer (log 74,
DEDUCED). -/
def Sys2Proof.Claim.Failures : Prop :=
  ∀ s : State,
    (∀ line, ∃ t, exec (.leaseExpiry line) s = .next t ∧ t = { s with copies1 := t.copies1 }
      ∧ ∀ c, c ∈ t.copies1 ↔ c ∈ s.copies1 ∧ ¬ (c.line = line ∧ c.until_ ≤ s.m.ftime))
    ∧ (∀ id i a e op, ElementReady s id i a e → (a.kind = .load ∨ a.kind = .atom op true) → (∀ t off, e.place ≠ .sp t off) →
        (a.kind = .load → copyFor s a e = none) → ∃ t b, exec (.uncorrectableRead (.access id i)) s = .next t ∧ MemoriesSame s t ∧ t.m.memFaults = s.m.memFaults + 1
          ∧ Tbl.look t.accesses id = some b ∧ b.elems = a.elems.set i { e with st := .failed }
          ∧ ((∀ j x, j ≠ i → a.elems[j]? = some x → x.st = .done) → (Tbl.look s.groups a.gid).isSome = true →
              ∃ m, (t.group a.gid).memues = (s.group a.gid).memues ++ [m] ∧ m.kindL = true ∧ m.addr = BitVec.ofNat 64 e.va.toNat
                ∧ (m.kindS = true ↔ a.kind = .atom op true) ∧ (a.dest = .win → m.prod = some id)))
    ∧ (∀ id i a e c, ElementReady s id i a e → a.kind = .load → copyFor s a e = some c → exec (.uncorrectableRead (.access id i)) s = .next s)
    ∧ (∀ id i a e t off, ElementReady s id i a e → e.place = .sp t off → exec (.uncorrectableRead (.access id i)) s = .next s)
    ∧ (∀ id i a e d, ElementReady s id i a e → e.place = .dom d →
        exec (.scaleupCrcFailure (.access id i) false false) s = .next { s with m := { s.m with memFaults := s.m.memFaults + 1 } }
        ∧ (∃ t b, exec (.scaleupCrcFailure (.access id i) false true) s = .next t ∧ MemoriesSame s t
          ∧ Tbl.look t.accesses id = some b ∧ b.elems = a.elems.set i { e with st := .failed })
        ∧ (∀ second, a.kind.storeLike = true → ∃ t b, exec (.scaleupCrcFailure (.access id i) true second) s = .next t
          ∧ MemoriesSame s t ∧ Tbl.look t.accesses id = some b ∧ b.denied = true
          ∧ b.elems = a.elems.set i { e with st := .failed }))
    ∧ ∀ n < 640, n ∉ s.m.left → exec (.moduleLeavesDomain n) s = .next { s with m := { s.m with left := s.m.left ++ [n] } }

/-- R192, R219, R223, R295, R300, R302: a host write to bytes that firmware exposes, and a write of a remote module's
partition to pages exported to it, is applied at its home unless the page is ROOT, no other byte of any memory changing; while
the page's partition is stopped it is held, and after the export has completed elsewhere it is refused; elsewhere nothing
happens. That a ROOT page takes no write from outside and what a host may write without a grant is the model's choice (log 66,
DEDUCED). -/
def Sys2Proof.Claim.OutsideWrites : Prop :=
  ∀ (s : State) (pa va n q : Nat) (bs : List Byte),
    let open_ := ∀ i < bs.length, exposed s (pa + i) = true
    let exp := ∃ x ∈ s.m.exportsTo, x.1 = n ∧ x.2.1 = q ∧ 65536 * x.2.2.1 ≤ pa ∧ pa + bs.length ≤ 65536 * (x.2.2.1 + x.2.2.2)
    let root := inRootPage s pa = true ∨ inRootPage s (pa + bs.length - 1) = true
    let owned := fun (p : Nat) => ∃ page, Tbl.look s.reverse (pa / 65536) = some (p, page)
    let running := ∀ p, owned p → (s.part p).e.state ≠ 4
    (s.m.stage = 6 → open_ → running → ¬ root → ∃ t, exec (.hostMemAccess true pa bs) s = .next t
      ∧ PlaceWritten s t (.pa pa false false) bs)
    ∧ (exp → running → ¬ root → ∃ t, exec (.domainAccessRemote (n, q) pa va bs) s = .next t
      ∧ PlaceWritten s t (.pa pa false false) bs)
    ∧ (running → root → exec (.hostMemAccess true pa bs) s = .next s ∧ exec (.domainAccessRemote (n, q) pa va bs) s = .next s)
    ∧ (∀ p, owned p → (s.part p).e.state = 4 → (s.part p).refuse = false →
        (s.m.stage = 6 → open_ → exec (.hostMemAccess true pa bs) s =
          .next (s.setPart p { s.part p with held := (s.part p).held ++ [⟨pa, bs, none, 0⟩] }))
        ∧ (exp → exec (.domainAccessRemote (n, q) pa va bs) s =
          .next (s.setPart p { s.part p with held := (s.part p).held ++ [⟨pa, bs, some n, va⟩] })))
    ∧ (∀ p, owned p → (s.part p).e.state = 4 → (s.part p).refuse = true →
        exec (.hostMemAccess true pa bs) s = .next s ∧ exec (.domainAccessRemote (n, q) pa va bs) s = .next s)
    ∧ (s.m.stage ≠ 6 ∨ ¬ open_ → exec (.hostMemAccess true pa bs) s = .next s)
    ∧ ((∃ i < bs.length, 2 ^ 41 ≤ pa + i) → exec (.hostMemAccess true pa bs) s = .next s)
    ∧ (¬ exp → exec (.domainAccessRemote (n, q) pa va bs) s = .next s)
    ∧ exec (.hostMemAccess false pa bs) s = .next s

/-- `Failures` and `OutsideWrites`, together. -/
def Obligations.FailuresAndOutsideWrites : Prop := Claim.Failures ∧ Claim.OutsideWrites

/-! ### Copies and reductions -/

/-- R178, R180, R350, R351: CPY starts a copy of 1 to 2^24 bytes on the cluster engine with fewer bytes queued, the lower on
a tie, and gives its promised tick: the bytes queued for its partition and its own at the partition's share, and 2,000
ticks. A count outside its range, overlapping sides and a host range without permission trap PROT. -/
def Sys2Proof.Claim.CopyIssue : Prop :=
  ∀ (f : Fields) (s : State) (gid sub : Nat), Issuing s gid sub → PolicyOk (s.group gid) f →
    Delivered (s.group gid) [f.a, f.b, f.c] →
    let g := s.group gid
    let tid := g.ident.tid
    let v := fun (o : Opd) => match o with | .s k => (g.scal k.val).toNat | _ => 0
    let src := v f.a
    let dst := v f.b
    let n := v f.c
    let sk := sideOf (f.extN 0 2)
    let dk := sideOf (f.extN 2 2)
    let lower := 2 * (g.ident.core / 24)
    let e := if queuedBytes s (lower + 1) none < queuedBytes s lower none then lower + 1 else lower
    let rate := max 2 (128 * (s.part g.ident.part).e.share / 64)
    let promise := s.m.ftime + (queuedBytes s e (some g.ident.part) + n + rate - 1) / rate + 2000
    let y : Copy := {
      gid := gid, tid := tid, part := g.ident.part, core := g.ident.core, engine := e, seq := g.seq, sk := sk, dk := dk
      src := src, dst := dst, left := n, bar := cpyBar f, gate := cpyGate f, since := s.m.ftime, promise := promise
      pol := policy g f }
    let sizes := 1 ≤ n ∧ n ≤ 2 ^ 24
    let hosts := (sk = .host → (hostRange s g.ident.part false src n).isSome = true)
      ∧ (dk = .host → (hostRange s g.ident.part true dst n).isSome = true)
    let spads := (sk = .spad → ∃ x, spad64 s tid (BitVec.ofNat 64 src) n = .ok x)
      ∧ (dk = .spad → ∃ x, spad64 s tid (BitVec.ofNat 64 dst) n = .ok x)
    (sizes → sidesMeet s tid sk dk src dst n = false → hosts → spads →
      (∀ k, cpyBar f = some k → 32 * k + 32 ≤ (s.team tid).spSize) → (dk = .virt → detOwn s g .copy dst n = false) →
      (g.csr.cp < 255 → Does (.cpy f) s gid sub (nextPc f s gid sub)
        (({ s with copies := Tbl.set s.copies s.nextId y, nextId := s.nextId + 1 }).setGroup gid
          ({ nextSeqOf g with csr := { g.csr with cp := g.csr.cp + 1 } }.putS f.d (BitVec.ofNat 64 promise))))
      ∧ (255 ≤ g.csr.cp → Waits (.cpy f) s s))
    ∧ (¬ sizes → Traps (.cpy f) f s gid sub s { cause := 0x0A, tval := 0x300 })
    ∧ (sizes → sidesMeet s tid sk dk src dst n = true → Traps (.cpy f) f s gid sub s { cause := 0x0A, tval := 0x301 })
    ∧ (sizes → sidesMeet s tid sk dk src dst n = false → ¬ hosts → Traps (.cpy f) f s gid sub s { cause := 0x0A, tval := 0x302 })

/-- R179, R182, R213, R216: a chunk of a running copy moves the bytes up to the next multiple of 4,096 of its destination
from the source side to the destination side, and no other byte changes; a fault that is the tenant's parks the copy; a
gated copy, and one of a group that is being saved (R276), moves nothing; a written copy completes once FTIME has reached its T_w, raising WH and lowering CP. -/
def Sys2Proof.Claim.CopyChunks : Prop :=
  ∀ (s : State) (id : Nat) (y : Copy), Tbl.look s.copies id = some y → y.obj = none → y.tw ≤ s.m.ftime → y.owed = 0 →
    let n := min y.left (4096 - y.dst % 4096)
    let goes := y.st = .running ∧ y.gate = none ∧ (s.group y.gid).saving = none
    (∀ p q, goes → SideAt s y y.sk false y.src n p → SideAt s y y.dk true y.dst n q → ∃ t z,
      exec (.copyChunk id) s = .next t ∧ PlaceWritten s t q (peek s p n) ∧ Tbl.look t.copies id = some z ∧ s.m.ftime ≤ z.tw
      ∧ z = { y with
          src := y.src + n, dst := y.dst + n, pos := y.pos + n, left := y.left - n, tw := z.tw, owed := n
          st := if y.left = n then .written else .running })
    ∧ (∀ x, goes → y.sk = .virt → engRead s y.part y.pol y.src n = .error x → x.stage2 = false →
      x.cause ≠ 0x13 → NothingSwept s → ∃ t, exec (.copyChunk id) s = .next t ∧ MemoriesSame s t
        ∧ Tbl.look t.copies id = some { y with st := .parked x.cause x.tval false })
    ∧ (y.st = .running → y.gate ≠ none ∨ (s.group y.gid).saving ≠ none → exec (.copyChunk id) s = .next s)
    ∧ (y.st = .written → NothingSwept s → (∀ c ∈ s.copies, c.2.gid = y.gid → c.1 = id) → (Tbl.look s.groups y.gid).isSome = true →
      Tbl.sorted s.copies = true → ∃ t, exec (.copyChunk id) s = .next t ∧ Tbl.look t.copies id = none
        ∧ Retired s t y.gid y.tw fun c => { c with cp := c.cp - 1 })

/-- `CopyIssue` and `CopyChunks`, together. -/
def Obligations.Copies : Prop := Claim.CopyIssue ∧ Claim.CopyChunks

/-- R183, R424, R425: RED reads its control block and source list at issue and starts the reduction they describe: an
aligned, non-overlapping destination of 32 to 2^24 elements and 2 to 16 sources. -/
def Sys2Proof.Claim.ReduceIssue : Prop :=
  ∀ (f : Fields) (s s1 s2 : State) (gid sub : Nat) (b l : List Byte), Issuing s gid sub → PolicyOk (s.group gid) f →
    Delivered (s.group gid) [f.a] →
    let g := s.group gid
    let part := g.ident.part
    let va := match f.a with | .s k => (g.scal k.val).toNat | _ => 0
    let n := fun (o k : Nat) => natOfBytes ((b.drop o).take k)
    let count := n 4 4
    let list := n 8 8
    let dst := n 0x10 8
    let flag := n 0x18 8
    let srcs := (List.range (n 1 1)).map fun i => natOfBytes ((l.drop (8 * i)).take 8)
    let w := if n 0 1 = 1 then 2 else 4
    let meets := fun (a : Nat) => overlaps a (w * count) dst (4 * count) = true ∧ ¬ (a = dst ∧ w = 4)
    let pol := policy g f
    va % 64 = 0 → groupRead s g pol va 64 = .ok (s1, b) → storePending s gid va 64 = false →
    n 0 1 ≤ 3 → 2 ≤ n 1 1 → n 1 1 ≤ 16 → n 2 2 ≤ 1 → count ≠ 0 → count % 32 = 0 → count ≤ 2 ^ 24 →
    (∀ x ∈ b.drop 0x28, x = 0) → list % 8 = 0 → storePending s1 gid list (8 * n 1 1) = false →
    groupRead s1 g pol list (8 * n 1 1) = .ok (s2, l) → flag % 8 = 0 → dst % 128 = 0 → (∀ a ∈ srcs, a % (32 * w) = 0 ∧ ¬ meets a) →
    (n 2 2 = 1 → overlaps flag 8 dst (4 * count) = false ∧ ∀ a ∈ srcs, overlaps flag 8 a (w * count) = false) →
    s.flag g.ident.lid 0 = false → (∀ x ∈ g.csr.watch, x.2.getLsbD 63 = false) → g.csr.rd < 255 →
    Does (.red f) s gid sub (nextPc f s gid sub)
      (({ s2 with nextId := s.nextId + 1, reds := Tbl.set s.reds s.nextId {
            gid := gid, tid := g.ident.tid, part := part, seq := g.seq, op := n 0 1, srcs := srcs, count := count, dst := dst
            flag := if n 2 2 = 1 then some (flag, n 0x20 8) else none, pol := pol } }).setGroup gid
        { nextSeqOf g with csr := { g.csr with rd := g.csr.rd + 1 } })

/-- R184, R98: a stripe of a RED, at the places that its check found, writes, for each of its elements, the pairwise tree over
the sources, and nothing else; then the flag word is stored once every stripe has completed; the completion raises WH, ORs the
flags into TSF and lowers RD. Integer sums wrap modulo 2^32. -/
def Sys2Proof.Claim.ReduceSteps : Prop :=
  ∀ (s : State) (id : Nat) (y : Red), Tbl.look s.reds id = some y → y.done = false →
    let w := if y.op = 1 then 2 else 4
    (∀ (i a n : Nat) (p : Place) (rows : List (List Byte)), y.checked = true → i ∉ y.stripes → i ∉ y.lost →
      y.stripe i = some (a, n) → (∀ x ∈ y.pieces a n, goneAway s x.2.1 = false) →
      rows = ((y.srcs.zip y.places).map fun x =>
        (cutPlaces x.2 (x.1 + w * ((a - y.dst) / 4)) (w * (n / 4))).flatMap fun c => peek s c.2.1 c.2.2) →
      cutPlaces y.dplaces a n = [(a, p, n)] → 0 < n → n % 4 = 0 → ∃ t z, exec (.redStripe id i) s = .next t
        ∧ PlaceWritten s t p ((List.range (n / 4)).flatMap fun e =>
            bytesOfNat 4 (redElem y.op (rows.map fun bs => natOfBytes ((bs.drop (w * e)).take w))).1)
        ∧ Tbl.look t.reds id = some z ∧ z.stripes = y.stripes ++ [i] ∧ s.m.ftime ≤ z.tw
        ∧ z = { y with stripes := z.stripes, flags := z.flags, tw := z.tw })
    ∧ (∀ xs : List Nat, xs ≠ [] → (∀ x ∈ xs, x < 2 ^ 32) → redElem 2 xs = (xs.sum % 2 ^ 32, 0))
    ∧ (∀ a v p, y.flag = some (a, v) → y.flagged = false → y.swept = true → y.lost = [] → y.tw ≤ s.m.ftime →
      y.fplaces = [(a, p, 8)] → goneAway s p = false → ∃ t z, exec (.redFlagStore id) s = .next t ∧ PlaceWritten s t p (bytesOfNat 8 v)
        ∧ Tbl.look t.reds id = some z ∧ z = { y with flagged := true, tw := z.tw } ∧ s.m.ftime ≤ z.tw)
    ∧ (y.swept = true → (y.flag = none ∨ y.flagged = true) → y.lost = [] → y.fault = none → y.tw ≤ s.m.ftime → NothingSwept s →
      (∀ c ∈ s.reds, c.2.gid = y.gid → c.1 = id) → Tbl.sorted s.reds = true → (Tbl.look s.groups y.gid).isSome = true →
      ∃ t, exec (.redCompletion id) s = .next t ∧ Tbl.look t.reds id = none ∧ MemoriesSame s t
        ∧ (∀ x, Tbl.look s.teams y.tid = some x → (t.team y.tid).tsf = x.tsf ||| y.flags)
        ∧ Retired s t y.gid y.tw fun c => { c with rd := c.rd - 1 })

/-- `ReduceIssue` and `ReduceSteps`, together. -/
def Obligations.ReductionsInMemory : Prop := Claim.ReduceIssue ∧ Claim.ReduceSteps

/-! ### Thickets -/

/-- R198, R201, R344 to R346, R348, R349, R356: CNAM, CLOA, CGET, CTWG and COUT put their operation in flight when their operands are
aligned and inside scratchpad and TH is below 255; at 255 they are not ready. A count outside 1 to 64 traps PROT 0x505, an
allocation in namespace 0 without ALLOC0 traps PROT 0x502. -/
def Sys2Proof.Claim.ThicketIssue : Prop :=
  ∀ (f : Fields) (s : State) (gid sub : Nat), Issuing s gid sub →
    let g := s.group gid
    let tid := g.ident.tid
    let v := fun (o : Opd) => match o with | .s k => (g.scal k.val).toNat | _ => 0
    let a := v f.a
    let b := v f.b
    let byScalar := f.x.getLsbD 2
    let n := if byScalar then v f.c else f.c.code.toNat
    let ns := f.extN 0 2
    let alloc := ns ≠ 0 ∨ (s.part g.ident.part).e.alloc0 = true
    let inputs := Delivered g [f.a, f.b, if byScalar then f.c else .zero]
    let op := fun (k : ThKind) (m : Nat) => ({
      gid := gid, tid := tid, part := g.ident.part, seq := g.seq, kind := k, ns := ns, src := a, dst := b, n := m, unit := g.ident.core / 24 } : ThOp)
    let starts := fun (i : Instr) (o : ThOp) =>
      (g.csr.th < 255 → Does i s gid sub (nextPc f s gid sub) (thIssued s gid o)) ∧ (255 ≤ g.csr.th → Waits i s s)
    (inputs → 1 ≤ n → n ≤ 64 → a % 64 = 0 → b % 8 = 0 → InSpad s tid a (256 * n) →
      (InSpad s tid b (24 * n) → starts (.cnam f) (op .cnam n))
      ∧ (InSpad s tid b (24 * n + 8) → alloc → spMeets s tid a (256 * n) b (24 * n + 8) = false → starts (.cloa f) (op .cloa n)))
    ∧ (inputs → 1 ≤ n → n ≤ 64 → a % 8 = 0 → b % 64 = 0 → InSpad s tid a (24 * n) → InSpad s tid b (256 * n) →
        starts (.cget f) (op .cget n))
    ∧ (Delivered g [f.a, f.b] → alloc → a % 64 = 0 → b % 8 = 0 → InSpad s tid a 256 → InSpad s tid b 32 →
        starts (.ctwg f) (op .ctwg 1))
    ∧ (Delivered g [f.a, f.b] → PolicyOk g f → s.flag g.ident.lid 0 = false → a % 8 = 0 → b % 64 = 0 → InSpad s tid a 24 →
        starts (.cout f) (op .cout (policy g f).toNat))
    ∧ (inputs → n < 1 ∨ 64 < n → Traps (.cnam f) f s gid sub s { cause := 0x0A, tval := 0x505 }
        ∧ Traps (.cget f) f s gid sub s { cause := 0x0A, tval := 0x505 })
    ∧ (inputs → alloc → n < 1 ∨ 64 < n → Traps (.cloa f) f s gid sub s { cause := 0x0A, tval := 0x505 })
    ∧ (inputs → ¬ alloc → Traps (.cloa f) f s gid sub s { cause := 0x0A, tval := 0x502 })

/-- R194, R195, R197, R346: the lookup of a content finds the stored object of that content with the lowest collision index,
or adds one at the lowest free index with no reference while its pool has room. A reference dropped at count 1 frees its
object, at a saturated count does nothing, and otherwise lowers the count by one. -/
def Sys2Proof.Claim.ObjectStore : Prop :=
  ∀ (s : State) (space salt : Nat) (twig : Bool) (bs : List Byte),
    let h := nameOf salt twig bs
    let holds := fun (i : Nat) => ∃ o, findObj s space (h + i) = some o ∧ o.twig = twig ∧ o.bytes = bs
    (∀ i < 16, holds i → (∀ j < i, ¬ holds j) → lookAlloc s space salt twig bs = .ok (true, h + i, s))
    ∧ (∀ i < 16, (∀ j < 16, ¬ holds j) → findObj s space (h + i) = none → h + i ≠ 0 →
        (∀ j < i, findObj s space (h + j) ≠ none ∨ h + j = 0) → poolUsed s space < poolCap s space → twig = false →
        ∃ t, lookAlloc s space salt twig bs = .ok (false, h + i, t)
          ∧ t.objs = s.objs ++ [⟨space, h + i, false, bs, 0⟩] ∧ t = { s with objs := t.objs, m := t.m, parts := t.parts })
    ∧ ∀ name o, findObj s space name = some o →
        (o.count = 0xFFFFFFFF → dropRef s space name = s)
        ∧ (o.count ≤ 1 → findObj (dropRef s space name) space name = none
            ∧ ∀ x, x ∈ (dropRef s space name).objs ↔ x ∈ s.objs ∧ ¬ (x.space = space ∧ x.name = name))
        ∧ (1 < o.count → o.count ≠ 0xFFFFFFFF → findObj (dropRef s space name) space name = some { o with count := o.count - 1 })

/-- `ThicketIssue` and `ObjectStore`, together. -/
def Obligations.ThicketWords : Prop := Claim.ThicketIssue ∧ Claim.ObjectStore

/-- R188, R196, R198, R344 to R346, R348, R356: the next item of the oldest operation of a group: CNAM stores the name of its
leaf, CLOA that of the stored or added leaf, CGET the 256 bytes of the object named, each in scratchpad and nowhere else; a
COUT starts its copy-out. That a CTWG's form is checked before its children and these before the levels is the model's choice
(log 84, DESIGN CHOICE). -/
def Sys2Proof.Claim.ThicketItems : Prop :=
  ∀ (s : State) (id : Nat) (o : ThOp), Tbl.look s.thops id = some o → thReady s id o = true →
    let j := o.next
    let space := spaceOf o.part o.ns
    let salt := saltOf s o.part o.ns
    let stepped := fun (t : State) => ∃ x, Tbl.look t.thops id = some x ∧ x.next = j + 1 ∧ (x.done = true ↔ j + 1 = o.n)
    (∀ k off d doff, o.kind = .cnam → spadPlace s o.tid (o.src + 256 * j) = some (k, off) →
      spadPlace s o.tid (o.dst + 24 * j) = some (d, doff) → ∃ t, exec (.thicketItem id) s = .next t ∧ stepped t
        ∧ PlaceWritten s t (.sp d doff) (bytesOfNat 24 (nameOf salt false (spBytes s k off 256))))
    ∧ (∀ k off d doff name, o.kind = .cloa → j + 1 < o.n → spadPlace s o.tid (o.src + 256 * j) = some (k, off) →
      lookAlloc s space salt false (spBytes s k off 256) = .ok (true, name, s) → spadPlace s o.tid (o.dst + 24 * j) = some (d, doff) →
      (s.team o.tid).ended = false → (∃ c, (space, name, c) ∈ (s.team o.tid).holds) → ∃ t, exec (.thicketItem id) s = .next t ∧ stepped t
        ∧ PlaceWritten s t (.sp d doff) (bytesOfNat 24 name) ∧ Referenced s t space name)
    ∧ (∀ k off d doff x, o.kind = .cget → spadPlace s o.tid (o.src + 24 * j) = some (k, off) →
      findObj s space (natOfBytes (spBytes s k off 24)) = some x → spadPlace s o.tid (o.dst + 256 * j) = some (d, doff) →
      ∃ t, exec (.thicketItem id) s = .next t ∧ stepped t ∧ PlaceWritten s t (.sp d doff) x.bytes)
    ∧ (∀ k off d doff name, o.kind = .ctwg → o.n = 1 → j = 0 → spadPlace s o.tid o.src = some (k, off) →
      twigForm (spBytes s k off 256) = true → (∀ c ∈ twigKids (spBytes s k off 256), (findObj s space c).isSome = true) →
      twigFits s space (spBytes s k off 256) = true → lookAlloc s space salt true (spBytes s k off 256) = .ok (true, name, s) →
      (s.team o.tid).ended = false → (∃ c, (space, name, c) ∈ (s.team o.tid).holds) →
      spadPlace s o.tid o.dst = some (d, doff) → ∃ t, exec (.thicketItem id) s = .next t ∧ stepped t
        ∧ PlaceWritten s t (.sp d doff) (bytesOfNat 24 name ++ bytesOfNat 8 1) ∧ Referenced s t space name)
    ∧ (∀ k off x, o.kind = .cout → spadPlace s o.tid o.src = some (k, off) →
      findObj s space (natOfBytes (spBytes s k off 24)) = some x →
      detOwn s { ident := { lid := (s.team o.tid).lid, team := (s.team o.tid).index } } .copy o.dst x.size = false →
      ∃ t y, exec (.thicketItem id) s = .next t ∧ MemoriesSame s t
        ∧ Tbl.look t.copies s.nextId = some y ∧ y.obj = some (space, natOfBytes (spBytes s k off 24)) ∧ y.left = x.size
        ∧ y.dst = o.dst ∧ y.st = .running ∧ y.seq = o.seq)
    ∧ (∀ k off, o.kind = .cget → spadPlace s o.tid (o.src + 24 * j) = some (k, off) →
      findObj s space (natOfBytes (spBytes s k off 24)) = none → (Tbl.look s.groups o.gid).isSome = true →
      ∃ t, exec (.thicketItem id) s = .next t ∧ MemoriesSame s t ∧ Tbl.look t.thops id = some { o with done := true }
        ∧ (t.group o.gid).faults = (s.group o.gid).faults ++ [⟨.th, 0x13, BitVec.ofNat 64 j, false, o.seq⟩])

/-- R195, R216: THICKET_OP_RETIRE, for a completed operation, completes with its retirement, TH one lower, once every older
one of its group has retired; PRUNING completes with the drop of the reference of one child of a freed twig. -/
def Sys2Proof.Claim.ThicketEnds : Prop :=
  ∀ s : State,
    (∀ id o, Tbl.look s.thops id = some o → o.done = true → (∀ c ∈ s.thops, c.2.gid = o.gid → c.1 = id) → NothingSwept s →
      Tbl.sorted s.thops = true → (Tbl.look s.groups o.gid).isSome = true → ∃ t, exec (.thicketOpRetire id) s = .next t
        ∧ MemoriesSame s t ∧ Tbl.look t.thops id = none
        ∧ t.group o.gid = { s.group o.gid with wrote := [], csr := { (s.group o.gid).csr with th := (s.group o.gid).csr.th - 1 } })
    ∧ (s.prunes = [] → exec .pruning s = .next s)
    ∧ (∀ space rest, s.prunes = (space, []) :: rest → exec .pruning s = .next { s with prunes := rest })
    ∧ ∀ space k ks rest, s.prunes = (space, k :: ks) :: rest →
        exec .pruning s = .next (dropRef { s with prunes := if ks = [] then rest else (space, ks) :: rest } space k)

/-- R195, R196, R198, R216: THICKET_ITEM completes for every operation that may run its next item, whatever its kind and
operands: another operation of any group, the groups' registers and every mapped memory stay as they are, and the operation
has moved on by one item or ended. THICKET_OP_RETIRE and PRUNING complete in every state, no byte of any memory or
scratchpad changing at a pruning. -/
def Sys2Proof.Claim.ThicketCompletes : Prop :=
  ∀ s : State,
    (∀ id o, Tbl.look s.thops id = some o → thReady s id o = true → ∃ t x, exec (.thicketItem id) s = .next t
      ∧ t.mem = s.mem ∧ t.hostMem = s.hostMem ∧ t.domainMem = s.domainMem
      ∧ (∀ k, k ≠ id → Tbl.look t.thops k = Tbl.look s.thops k) ∧ Tbl.look t.thops id = some x
      ∧ (x.next = o.next + 1 ∨ x.done = true ∧ x.next = o.next) ∧ x = { o with next := x.next, hits := x.hits, done := x.done }
      ∧ ∀ k, t.group k = { s.group k with faults := (t.group k).faults, wrote := (t.group k).wrote })
    ∧ (∀ id, ∃ t, exec (.thicketOpRetire id) s = .next t ∧ (Tbl.look s.thops id = none → t = s)
      ∧ ∀ o, Tbl.look s.thops id = some o → o.done = false → NothingSwept s → Tbl.look t.thops id = some o)
    ∧ ∃ t, exec .pruning s = .next t ∧ MemoriesSame s t ∧ t = { s with prunes := t.prunes, objs := t.objs }

/-- `ThicketItems` and `ThicketEnds` and `ThicketCompletes`, together. -/
def Obligations.ThicketProgress : Prop := Claim.ThicketItems ∧ Claim.ThicketEnds ∧ Claim.ThicketCompletes

/-- R194, R199, R200, R353, R427 to R430: RPIN gives a root slot and pins its object, RUNP releases a pin before a hold, CREF
gives a count, and RSWP gives the version and, where it equals its operand, swaps the slot's name, moves the references and
counts the version up; a version that differs changes nothing else. That CREF takes a sequence value, and that sd takes the
version before sb is compared with it, so that D = B always swaps, is the model's choice (log 32, DEDUCED). -/
def Obligations.RootSlots : Prop :=
  ∀ (f : Fields) (s : State) (gid sub pa ns : Nat), Issuing s gid sub →
    let g := s.group gid
    let tid := g.ident.tid
    let t := s.team tid
    let v := fun (o : Opd) => match o with | .s k => (g.scal k.val).toNat | _ => 0
    let name3 := fun (o : Opd) => match o with
      | .s k => (g.scal k.val).toNat + 2 ^ 64 * (g.scal (k.val + 1)).toNat + 2 ^ 128 * (g.scal (k.val + 2)).toNat
      | _ => 0
    let space := spaceOf g.ident.part ns
    let own := spaceOf g.ident.part (f.extN 0 2)
    let slot := s.mem.num pa 32
    let old := slot % 2 ^ 192
    let ver := slot / 2 ^ 192
    let next := nextPc f s gid sub
    (Delivered g [f.a] → SlotAt s g.ident.part (v f.a) false pa ns → ∀ d : Fin 32, f.d = .s d →
      (old = 0 → Does (.rpin f) s gid sub next (s.setGroup gid (putScalars (nextSeqOf g) f.d 4 slot)))
      ∧ (old ≠ 0 → t.pins.length < 64 → Does (.rpin f) s gid sub next
          (((addRef s space old).setTeam tid { t with pins := t.pins ++ [(space, old)] }).setGroup gid
            (putScalars (nextSeqOf g) f.d 4 slot)))
      ∧ (old ≠ 0 → 64 ≤ t.pins.length → Traps (.rpin f) f s gid sub s { cause := 0x16, tval := 2 }))
    ∧ (Delivered g (scalRun f.a 3) → name3 f.a ≠ 0 → (own, name3 f.a) ∈ t.pins → Does (.runp f) s gid sub next
        (dropRef (s.setTeam tid { t with pins := t.pins.erase (own, name3 f.a) }) own (name3 f.a)))
    ∧ (∀ k, Delivered g (scalRun f.a 3) → name3 f.a ≠ 0 → (own, name3 f.a) ∉ t.pins →
        t.holds.find? (fun h => h.1 == own && h.2.1 == name3 f.a) = some (own, name3 f.a, k) →
        Does (.runp f) s gid sub next (dropRef (s.setTeam tid { t with
          holds := if k ≤ 1 then t.holds.filter fun h => decide (¬ (h.1 = own ∧ h.2.1 = name3 f.a))
            else t.holds.map fun h => if h.1 = own ∧ h.2.1 = name3 f.a then (h.1, h.2.1, h.2.2 - 1) else h }) own (name3 f.a)))
    ∧ (Delivered g (scalRun f.a 3) → (name3 f.a = 0 ∨ (own, name3 f.a) ∉ t.pins ∧ ∀ k, (own, name3 f.a, k) ∉ t.holds) →
        Traps (.runp f) f s gid sub s { cause := 0x0A, tval := 0x503 })
    ∧ (Delivered g (scalRun f.a 3) → Does (.cref f) s gid sub next
        (s.setGroup gid ((nextSeqOf g).putS f.d (match findObj s own (name3 f.a) with
          | some o => BitVec.ofNat 64 o.count | none => 0))))
    ∧ (Delivered g ([f.a, f.b] ++ scalRun f.c 3) → SlotAt s g.ident.part (v f.a) true pa ns → s.flag g.ident.lid 0 = false →
      allReleased s gid = true →
      (ver ≠ v f.b → f.d ≠ f.b → Does (.rswp f) s gid sub next (s.setGroup gid ((nextSeqOf g).putS f.d (BitVec.ofNat 64 ver))))
      ∧ (ver = v f.b ∨ f.d = f.b → name3 f.c ≠ 0 → findObj s space (name3 f.c) = none → Traps (.rswp f) f s gid sub s { cause := 0x13, tval := 0 })
      ∧ (ver = v f.b ∨ f.d = f.b → (name3 f.c = 0 ∨ (findObj s space (name3 f.c)).isSome = true) → ∃ t, exec (.rswp f) s = .next t
        ∧ PlaceWritten s t (.pa pa true false) (bytesOfNat 32 (name3 f.c + (ver + 1) % 2 ^ 64 * 2 ^ 192))
        ∧ t.group gid = issuedAt { (nextSeqOf g).putS f.d (BitVec.ofNat 64 ver) with
            csr := { g.csr with wh := max g.csr.wh s.m.ftime } } sub next
        ∧ (∀ o, old ≠ name3 f.c → name3 f.c ≠ 0 → findObj s space (name3 f.c) = some o →
            findObj t space (name3 f.c) = some { o with count := min 0xFFFFFFFF (o.count + 1) })
        ∧ (old = name3 f.c → t.objs = s.objs)
        ∧ ∀ o, old ≠ name3 f.c → old ≠ 0 → findObj s space old = some o → 1 < o.count → o.count ≠ 0xFFFFFFFF →
            findObj t space old = some { o with count := o.count - 1 }))
    ∧ (Delivered g ([f.a, f.b] ++ scalRun f.c 3) → SlotAt s g.ident.part (v f.a) true pa ns → s.flag g.ident.lid 0 = false →
      allReleased s gid = false → Waits (.rswp f) s s)

/-! ### Matrix engines -/

/-- R147 to R149, R416: MRSV reserves accumulators for its team when 16 entries, 64 accumulators and the beam store allow,
saying so in a predicate, and is refused there otherwise; MREL frees the reservation once no pass of the team is left, its
wait being registered until then. -/
def Sys2Proof.Claim.Reservations : Prop :=
  ∀ (f : Fields) (s : State) (gid sub : Nat), Issuing s gid sub →
    let g := s.group gid
    let tid := g.ident.tid
    let lid := g.ident.lid
    let q := g.ident.core / 4
    let e := s.engine q
    let v := fun (imm : Bool) (o : Opd) (at_ : Nat) => if imm then f.immN at_ 8 else match o with | .s k => (g.scal k.val).toNat | _ => 0
    let nacc := v (f.x.getLsbD 2) f.b 0
    let prio := v (f.x.getLsbD 1) f.c 8
    let ready := Delivered g [if f.x.getLsbD 2 then .zero else f.b, if f.x.getLsbD 1 then .zero else f.c]
    let fresh := ∀ w ∈ s.waiters, ¬ (w.gid = gid ∧ w.sub = sub)
    let told := fun (b : Bool) => (g.setPred (f.d.code.toNat % 8) (BitVec.allOnes 256) (if b then BitVec.allOnes 256 else 0))
    (ready → nacc < 1 ∨ 64 < nacc → Traps (.mrsv f) f s gid sub s { cause := 0x0A, tval := 0x100 })
    ∧ (ready → 1 ≤ nacc → nacc ≤ 64 → 15 < prio → Traps (.mrsv f) f s gid sub s { cause := 0x0A, tval := 0x101 })
    ∧ (ready → 1 ≤ nacc → nacc ≤ 64 → prio ≤ 15 → (s.launch lid).r.passVa ≠ 0 →
      ((resvOf s tid = none) → resvFits e lid nacc (s.launch lid).r.passLen = true → (∃ x ∈ e.images, x.1 = lid) →
        ∀ k < 16, Tbl.look e.resvs k = none → (∀ j < k, Tbl.look e.resvs j ≠ none) →
        Does (.mrsv f) s gid sub (nextPc f s gid sub) ((s.setEngine q { e with
          resvs := Tbl.set e.resvs k { tid := tid, lid := lid, prio := prio, nacc := nacc } }).setGroup gid (told true)))
      ∧ ((resvOf s tid = none) → resvFits e lid nacc (s.launch lid).r.passLen = true → (∀ x ∈ e.images, x.1 ≠ lid) →
        ∀ bs, readVirt s g.ident.part (s.launch lid).r.passVa.toNat (s.launch lid).r.passLen = .ok (s, bs) →
        ∀ k < 16, Tbl.look e.resvs k = none → (∀ j < k, Tbl.look e.resvs j ≠ none) →
        Does (.mrsv f) s gid sub (nextPc f s gid sub) ((s.setEngine q { e with
          resvs := Tbl.set e.resvs k { tid := tid, lid := lid, prio := prio, nacc := nacc }
          images := e.images ++ [(lid, (s.launch lid).r.passLen, Mem.store [] 0 bs)] }).setGroup gid (told true)))
      ∧ ((resvOf s tid = none) → resvFits e lid nacc (s.launch lid).r.passLen = false → s.flag lid 0 = false →
        Does (.mrsv f) s gid sub (nextPc f s gid sub) (s.setGroup gid (told false)))
      ∧ ((resvOf s tid).isSome = true → Does (.mrsv f) s gid sub (nextPc f s gid sub) (s.setGroup gid (told false))))
    ∧ (fresh → resvOf s tid = none → Does (.mrel f) s gid sub (nextPc f s gid sub) s)
    ∧ (fresh → (resvOf s tid).isSome = true → teamPasses s tid = true →
        Waits (.mrel f) s { s with waiters := s.waiters ++ [⟨gid, sub, .mrel, tid, 0, 0, 0, 0, 0, false⟩] })
    ∧ (¬ fresh → Waits (.mrel f) s s)
    ∧ (fresh → (resvOf s tid).isSome = true → teamPasses s tid = false → Does (.mrel f) s gid sub (nextPc f s gid sub) (freeResv s tid))

/-- R152, R415: with a reservation, a present program, a queue below 64 and MP below 255, and no tile of the view E or
pending, MPASS queues a pass with its four arguments, its views and its gate, and MP rises. Without a reservation it traps
PROT 1, without the program PROT 0x200 + p. -/
def Sys2Proof.Claim.PassPosting : Prop :=
  ∀ (f : Fields) (s : State) (gid sub : Nat), Issuing s gid sub → Delivered (s.group gid) (scalRun f.a 4) →
    NothingDue s gid [.mp] → (s.group gid).engLost = none →
    let g := s.group gid
    let tid := g.ident.tid
    let q := g.ident.core / 4
    let e := s.engine q
    let p := f.immN 0 8
    let clear := ∀ x ∈ viewTiles g, g.anyE x.1 x.2 = false ∧ g.anyP x.1 x.2 = false
    (resvOf s tid = none → Traps (.mpass f) f s gid sub s { cause := 0x0A, tval := 1 })
    ∧ ∀ k r, resvOf s tid = some (k, r) →
      (progOffset e r.lid p = none → Traps (.mpass f) f s gid sub s { cause := 0x0A, tval := BitVec.ofNat 64 (0x200 + p) })
      ∧ ((progOffset e r.lid p).isSome = true → (∀ x ∈ viewTiles g, g.anyP x.1 x.2 = false) →
          (∀ x ∈ viewTiles g, g.heldOn x.1 x.2 = none) →
          (64 ≤ e.queue.length ∨ 255 ≤ g.csr.mp ∨ ∃ x ∈ viewTiles g, g.anyE x.1 x.2 = true) → Waits (.mpass f) s s)
      ∧ ((progOffset e r.lid p).isSome = true → e.queue.length < 64 → g.csr.mp < 255 → clear →
        let pass : Pass := {
          gid := gid, tid := tid, entry := k, prog := p, tview := g.csr.tview, aview := g.csr.aview, post := s.m.ftime
          args := (scalRun f.a 4).map fun o => match o with | .s n => g.scal n.val | _ => 0
          gate := if f.x.getLsbD 2 then some (f.extN 0 4) else none, seq := g.seq, ident := g.ident }
        ∃ i, Does (.mpass f) s gid sub (nextPc f s gid sub)
          ((s.setEngine q { e with queue := e.queue ++ [pass], idleSince := i }).setGroup gid
            { nextSeqOf g with csr := { g.csr with mp := g.csr.mp + 1 } }))

/-- `Reservations` and `PassPosting`, together. -/
def Obligations.PassSetup : Prop := Claim.Reservations ∧ Claim.PassPosting

/-- R150, R151, R153 to R157, R411, R412, R417 on a beam core: MMA and MMAB add to each element of their accumulator by the dot
rule, over their A tiles and a B buffer. A comes from the posting group's window, where `^` keeps it in the latch, or, without
`^`, from the latch that holds the tile, which is then released. MMA takes bytes 0 to 2047 of its buffer as BF16 elements, and
MMAB 4608 as images, whichever form of MLDB filled it: the model's choice (log 33, DEDUCED). MZRO zeroes an accumulator, MSTAT reads its sticky flags,
MLDB fills a B buffer from scratchpad once no earlier drain of the pass into those bytes is to come. An accumulator beyond the reservation traps ILLOP and ends the pass. -/
def Obligations.BeamMatrix : Prop :=
  ∀ (f : Fields) (s : State) (q : Nat) (r : Run), BeamIssuing s q r →
    let e := s.engine q
    let k := f.extN 0 6
    let b := f.extN 6 4
    let x := e.resv r
    let a := e.acc r k
    let next := { r with pc := r.pc + BitVec.ofNat 64 f.len.bytes }
    let tag := tileTag r.pass.tview
    let g := s.group r.pass.gid
    let setAcc_ := fun (y : Run) (n : Acc) => { e with run := some y, resvs := Tbl.set e.resvs r.pass.entry { x with accs := Tbl.put {} x.accs k n } }
    let only := fun (t : State) => t = { s with engines := t.engines, issue := none } ∧ ∀ j, j ≠ q → t.engine j = s.engine j
    let inView := fun (t : Nat) (h : t < 16) (at_ n : Nat) => viewRange r.pass.tview r.pass.aview
        (1024 * (r.pass.ident.w - r.pass.ident.k)) (.t ⟨t, h⟩) = some (at_, n) ∧ (Tbl.look s.groups r.pass.gid).isSome = true
      ∧ g.landDue s.m.ftime = g ∧ g.anyE at_ n = false ∧ g.anyP at_ n = false ∧ g.badTag at_ n (· == tag) = none
    let notLatched := fun (t : Fin 16) => f.x.getLsbD 0 = true ∨ ∀ l ∈ r.latch, l.1 ≠ t.val
    let adds := fun (i : Instr) (y : Run) (kk : Nat) (p : Nat → Nat → Nat → FV) => ∃ t, exec i s = .next t ∧ only t
      ∧ ∃ n, t.engine q = setAcc_ y n ∧ ∀ i < 32, ∀ j < 32, n.data.num (128 * i + 4 * j) 4 =
          (dotRule (FFmt.f32.read (a.data.num (128 * i + 4 * j) 4)) ((List.range kk).map fun m => p i j m)).1 % 2 ^ 32
    let image := fun (bs : List Byte) (m : Nat) => (bs.drop (1152 * (m / 32))).take 1152
    let mma := fun (A : List Byte) (y : Run) => adds (.mma f) y 32 fun i j m =>
      FV.mul (tag.ffmt.read (natOfBytes ((A.drop (64 * i + 2 * m)).take 2)))
        (FFmt.bf16.read (natOfBytes (((bufRead s q r b 2048).drop (64 * m + 2 * j)).take 2)))
    let mmab := fun (A : List Byte) (y : Run) => adds (.mmab f) y 128 fun i j m =>
      FV.mul (bpbElem (image A m) i (m % 32)) (bpbElem (image (bufRead s q r b 4608) m) (m % 32) j)
    (k < x.nacc →
      (∃ t, exec (.mzro f) s = .next t ∧ only t ∧ t.engine q = setAcc_ next {})
      ∧ (∀ n : Fin 32, f.d = .s n → ∃ t, exec (.mstat f) s = .next t ∧ only t
          ∧ t.engine q = { e with run := some { next with s := Tbl.put 0 r.s n.val (a.flags.zeroExtend 64) } })
      ∧ (∀ t : Fin 16, f.a = .t t → viewFmt r.pass.tview ≠ 2 →
          (f.x.getLsbD 0 = false → ∀ A, r.latch = some (t.val, A) → mma A { next with latch := none })
          ∧ ∀ at_, notLatched t → inView t.val t.isLt at_ 2048 →
            let A := g.win.bytes at_ 2048
            mma A { next with latch := if f.x.getLsbD 0 then some (t.val, A) else r.latch })
      ∧ (∀ t : Fin 16, f.a = .t t → (h : t.val ≤ 12) → viewFmt r.pass.tview = 2 →
          (f.x.getLsbD 0 = false → ∀ A, r.latch = some (t.val, A) → mmab A { next with latch := none })
          ∧ ∀ at_ : Fin 4 → Nat, notLatched t → (∀ m : Fin 4, inView (t.val + m.val) (by omega) (at_ m) 1152) →
            let A := (List.finRange 4).flatMap fun m => g.win.bytes (at_ m) 1152
            mmab A { next with latch := if f.x.getLsbD 0 then some (t.val, A) else r.latch }))
    ∧ (x.nacc ≤ k → (Tbl.look s.groups r.pass.gid).isSome = true → ∀ o ∈ [Instr.mma f, .mmab f, .mzro f, .mstat f], ∃ t, exec o s = .next t
        ∧ t.engine q = { e with run := some { r with ended := true }, idleSince := s.m.ftime }
        ∧ (t.group r.pass.gid).faults = g.faults ++ [⟨.mp, 0x01, o.low64, false, r.pass.seq⟩])
    ∧ ∀ (n : Fin 32) (t off : Nat), f.a = .s n → (r.scal n.val).toNat % 64 = 0 →
        let len := if f.fmt = .bpb then 4608 else 2048
        spad64 s r.pass.tid (r.scal n.val) len = .ok (t, off) → (s.team t).core / 4 = q →
        ((∃ d ∈ r.drains, d.id < s.nextId ∧ d.landed = none ∧ ∃ x ∈ d.spans, x.1.meets x.2 (.sp t off) len = true) →
          exec (.mldb f) s = .next (endTurn s))
        ∧ ((∀ d ∈ r.drains, d.landed = none → ∀ x ∈ d.spans, x.1.meets x.2 (.sp t off) len = false) → ∃ u y, exec (.mldb f) s = .next u ∧ only u
          ∧ u.engine q = { e with run := some next, bufs := Tbl.put {} e.bufs b y } ∧ y.owner = some r.pass.tid
          ∧ y.data.bytes 0 len = (s.team t).sp.bytes off len)

/-- R158, R159, R410: a drain reads its accumulator, converted as its format says, ORs its flags into the team's TSF, zeroes
the accumulator when told to, and waits to land: in the accumulator view, whose registers become E, in scratchpad, or in
memory. -/
def Obligations.DrainIssue : Prop :=
  ∀ (f : Fields) (s : State) (q : Nat) (r : Run), BeamIssuing s q r →
    let e := s.engine q
    let k := f.extN 0 6
    let x := e.resv r
    let a := e.acc r k
    let bytes := drainData f.fmt a
    let len := match f.fmt with | .bf16 => 2048 | .bpb => 1152 | _ => 4096
    let unit := if f.x.getLsbD 0 then 4096 else 64
    let bar := if f.ext.getLsbD 6 then some (f.extN 7 16) else none
    let after := if f.x.getLsbD 1 then {} else { a with flags := a.flags ||| bytes.2 }
    let drained := fun (t : State) (dest : DrainTo) =>
      t.engine q = { e with
        resvs := Tbl.set e.resvs r.pass.entry { x with accs := Tbl.put {} x.accs k after }
        run := some { r with
          pc := r.pc + BitVec.ofNat 64 f.len.bytes
          drains := r.drains ++ [⟨s.nextId, dest, bytes.1, f.x.getLsbD 0, bar, none, 0⟩] } }
      ∧ (∀ j, j ≠ q → t.engine j = s.engine j) ∧ Raised s t r.pass.tid (a.flags ||| bytes.2) ∧ t.nextId = s.nextId + 1
      ∧ MemoriesSame s t
    k < x.nacc →
      (∀ at_ n, viewRange r.pass.tview r.pass.aview (1024 * (r.pass.ident.w - r.pass.ident.k)) f.d = some (at_, n) →
        (Tbl.look s.groups r.pass.gid).isSome = true → ∃ t, exec (.mdrn f) s = .next t ∧ drained t (.acc at_)
          ∧ (∀ j ∈ regsOf at_ n, (t.group r.pass.gid).st j = .empty) ∧ (t.group r.pass.gid).win = (s.group r.pass.gid).win)
      ∧ (∀ (n : Fin 32) (t off : Nat), f.a = .s n → (r.scal n.val).toNat % unit = 0 →
        spad64 s r.pass.tid (r.scal n.val) len = .ok (t, off) → (∀ j, bar = some j → 32 * j + 32 ≤ (s.team r.pass.tid).spSize) →
        ∃ u, exec (.mdrnSp f) s = .next u ∧ drained u (.sp t off))
      ∧ ∀ (n : Fin 32) (places : List (Nat × Place × Nat)), f.a = .s n → (r.scal n.val).toNat % unit = 0 →
        polValid (beamPolicy s r f) = true →
        engPlaces s r.pass.ident.part true (beamPolicy s r f) (r.scal n.val).toNat len = .ok (s, places) →
        s.flag r.pass.ident.lid 0 = false → (∀ j, bar = some j → 32 * j + 32 ≤ (s.team r.pass.tid).spSize) →
        ∃ u, exec (.mdrnMem f) s = .next u
          ∧ drained u (.mem (r.scal n.val).toNat (places.map fun x => (x.1, x.2.1)))

/-- R153, R154, R159, R160, R162, R216: an idle beam core takes the eligible pass that goes before every other, its four
arguments in s0 to s3; a drain lands wholly in its destination; a pass whose program has ended and whose drains have
completed completes with WH and MP, whether the beam core ran it last or has taken another since. An engine hung for 10,000,000
ticks lands its drains, waits until they are complete, and loses its reservations with the passes whose programs have not
ended: the model's choice is which passes these are, that the reset waits, and where the ticks begin (log 39, DEDUCED). -/
def Obligations.PassSteps : Prop :=
  ∀ (s : State) (q : Nat),
    let e := s.engine q
    (∀ p, (∀ r, e.run = some r → r.ended = true) → bestPass e s.m.ftime = some p → p.args.length = 4 → ∃ t r, exec (.passGrant q) s = .next t
      ∧ t.engine q = { e with queue := e.queue.erase p, run := some r, ending := e.ending ++ e.run.toList } ∧ r.pass = p ∧ r.ended = false ∧ r.drains = []
      ∧ r.pc = BitVec.ofNat 64 ((progOffset e (s.team p.tid).lid p.prog).getD 0) ∧ r.stack = [] ∧ r.p = 1
      ∧ ∀ i < 4, p.args[i]? = some (r.scal i))
    ∧ (∀ p, bestPass e s.m.ftime = some p → p ∈ e.queue ∧ p.gate = none ∧ ∀ x ∈ e.queue, x.gate = none →
        passBefore e s.m.ftime x p = false)
    ∧ (∀ r d t off, e.run = some r → r.drains = [d] → d.dest = .sp t off → d.add = false → d.landed = none → d.bar = none →
      (s.team t).reclaimed = false → ∃ u, exec (.drainLanding q d.id) s = .next u ∧ PlaceWritten s u (.sp t off) d.data
        ∧ ∃ r', (u.engine q).run = some r' ∧ r'.drains = [])
    ∧ (∀ r d at_, e.run = some r → r.drains = [d] → d.dest = .acc at_ → d.landed = none → d.bar = none →
      (Tbl.look s.groups r.pass.gid).isSome = true → (s.group r.pass.gid).prods = [(d.id, ⟨at_, d.data.length, .f32, [], [], none⟩)] →
      ∃ u, exec (.drainLanding q d.id) s = .next u ∧ (u.group r.pass.gid).win.bytes at_ d.data.length = d.data
        ∧ (∀ j ∈ regsOf at_ d.data.length, (s.group r.pass.gid).st j = .empty → (u.group r.pass.gid).st j = .full)
        ∧ MemoriesSame s u)
    ∧ (∀ r, e.run = some r → r.ended = true → r.drains = [] → r.tw ≤ s.m.ftime → NothingSwept s → (Tbl.look s.groups r.pass.gid).isSome = true →
      (s.group r.pass.gid).mpDone = [] → (∀ o ∈ openPasses s r.pass.gid, olderSeq r.pass.seq o = false) →
      ∃ t, exec (.passCompletion q) s = .next t ∧ (t.engine q).run = none ∧ MemoriesSame s t
        ∧ (t.group r.pass.gid).mpDone = [] ∧ Retired s t r.pass.gid r.tw fun c => { c with mp := c.mp - 1 })
    ∧ (∀ r rest, (∀ x, e.run = some x → ¬ (x.ended = true ∧ x.drains = [] ∧ x.tw ≤ s.m.ftime)) → e.ending = r :: rest →
      r.ended = true → r.drains = [] → r.tw ≤ s.m.ftime → NothingSwept s → (Tbl.look s.groups r.pass.gid).isSome = true →
      (s.group r.pass.gid).mpDone = [] → (∀ o ∈ openPasses s r.pass.gid, olderSeq r.pass.seq o = false) →
      ∃ t, exec (.passCompletion q) s = .next t ∧ (t.engine q).run = e.run ∧ (t.engine q).ending = rest ∧ MemoriesSame s t
        ∧ (t.group r.pass.gid).mpDone = [] ∧ Retired s t r.pass.gid r.tw fun c => { c with mp := c.mp - 1 })
    ∧ (engineHung e s.m.ftime = false → exec (.engineHang q) s = .next s)
    ∧ (engineHung e s.m.ftime = true →
      let ids := e.runs.flatMap fun r => r.drains.map fun d => d.id
      let u := ids.foldl (fun u id => match exec (.drainLanding q id) u with | .next v => v | _ => u) s
      let k := u.engine q
      ((∃ r ∈ k.runs, r.drains ≠ []) → exec (.engineHang q) s = .next u)
      ∧ ((∀ r ∈ k.runs, r.drains = []) → NothingSwept u → ∃ t, exec (.engineHang q) s = .next t
        ∧ t.engine q = { idleSince := s.m.ftime } ∧ MemoriesSame u t
        ∧ ∀ gid, Tbl.look u.groups gid ≠ none → (∃ p, (p ∈ k.queue ∨ ∃ r ∈ k.runs, r.ended = false ∧ p = r.pass) ∧ p.gid = gid) →
            (t.group gid).csr.mp = 0 ∧ ((t.group gid).engLost).isSome = true))

/-! ### Frozen arrays -/

/-- R107, R405: the issue checks of LAYR, LAYRT, LPRB and LPRBT in order: the first that fails traps with its cause and
TVAL, and nothing else happens. -/
def Sys2Proof.Claim.LayerChecks : Prop :=
  ∀ (f : Fields) (s : State) (gid sub : Nat) (trans : Bool) (d : Fin 64), Issuing s gid sub → f.d = .v d →
    Delivered (s.group gid) [f.a, f.b] → (s.group gid).csr.ar < 255 →
    let g := s.group gid
    let b := s.bind (bindIndex f)
    let start := startOf g f
    let va := inputOf g f
    let count := if trans then b.dout else b.din
    let shared := fun (size : Nat) => [
      (start % 256 == 0, 0x05, start), (decide (start < if trans then b.din else b.dout), 0x0A, 4),
      (!trans || decide (b.dout ≤ 32768), 0x0A, 5), (va % 64 == 0, 0x05, va),
      ((spad s g.ident.tid va (size * count)).isOk, 0x0A, 6)]
    let checks : List (Bool × Nat × Nat) := [(b.state == 2, 0x0A, 1), (b.grant.getLsbD g.ident.part, 0x0A, 2),
      ((diesOf b.dies).all fun k => (s.part g.ident.part).e.dies.contains k, 0x0A, 3)] ++ shared 2
    let probes : List (Bool × Nat × Nat) := [(b.state == 2 || b.state == 1, 0x0A, 1),
      ((diesOf b.dies).all fun k => s.m.dieok.getLsbD k, 0x0A, 3)] ++ shared 1
    let first := fun (l : List (Bool × Nat × Nat)) (k cause tval : Nat) =>
      l[k]? = some (false, cause, tval) ∧ ∀ j < k, ∀ x, l[j]? = some x → x.1 = true
    ((∀ k cause tval, RefsOk g [] [(f.d, 2)] → g.anyE (1024 * d.val) 2048 = false → first checks k cause tval →
        Traps (if trans then .layrt f else .layr f) f s gid sub s { cause := cause, tval := BitVec.ofNat 64 tval })
    ∧ (∀ k cause tval, RefsOk g [] [(f.d, 1)] → (s.launch g.ident.lid).priv = true → first probes k cause tval →
        Traps (if trans then .lprbt f else .lprb f) f s gid sub s { cause := cause, tval := BitVec.ofNat 64 tval })
    ∧ (RefsOk g [] [(f.d, 1)] → (s.launch g.ident.lid).priv = false → ∀ o c x,
        (if trans then Instr.lprbt f else .lprb f).word? = some (o, c, x) →
        Traps (if trans then .lprbt f else .lprb f) f s gid sub s { cause := 0x03, tval := BitVec.ofNat 64 o }))

/-- R62, R63, R108 to R115, R394, R405, R406: LAYR and LAYRT that pass their checks take the lowest free slot and seed the
pair with the Topiary gain and offset of each lane, or issue in direct mode, with AR one higher and the quantised input in
flight; an input of zeros has the sums zero, one that is not finite the invalid report. LPRB and LPRBT mark vd E and drive
their codes, −128 as −127; that they take no operation sequence value is the model's choice (log 52, DEDUCED). -/
def Sys2Proof.Claim.LayerIssue : Prop :=
  ∀ (f : Fields) (s : State) (gid sub : Nat) (trans : Bool) (d : Fin 64), Issuing s gid sub → f.d = .v d →
    Delivered (s.group gid) [f.a, f.b] → (s.group gid).csr.ar < 255 →
    let g := s.group gid
    let part := g.ident.part
    let n := bindIndex f
    let b := s.bind n
    let start := startOf g f
    let va := inputOf g f
    let count := if trans then b.dout else b.din
    let shadow := f.x61 || s.flag g.ident.lid 3
    let exps := (s.mem.bytes ((if trans then b.rowE else b.colE) + start) 256).map (·.toNat)
    let tiles := (List.range (count / 512)).map fun v =>
      Tile.ofWord (if trans then mapWord s b (start / 512) v else mapWord s b v (start / 512))
    let top := fun (l : Nat) => topEntry s b trans (start + l)
    let op : ArrOp := {
      gid := gid, tid := g.ident.tid, part := part, lid := g.ident.lid, seq := 0, trans := trans, dest := .probe d.val, bind := n
      gen := b.gen, start := start, j := b.j, k := 0, exps := exps, tiles := tiles, root := b.root, din := b.din, dout := b.dout
      input := [], invalid := false, shadow := shadow, deadline := if shadow then s.m.ftime + 12800000 else 0 }
    let inRange := start % 256 = 0 ∧ (start < if trans then b.din else b.dout) ∧ (trans = true → b.dout ≤ 32768) ∧ va % 64 = 0
    let counted := fun (g : Group) => { g with csr := { g.csr with ar := g.csr.ar + 1 } }
    let next := nextPc f s gid sub
    (∀ t off, RefsOk g [] [(f.d, 2)] → d.val % 2 = 0 → g.anyE (1024 * d.val) 2048 = false → g.cap.mode = 0 → b.state = 2 →
      b.grant.getLsbD part = true → (∀ k ∈ diesOf b.dies, k ∈ (s.part part).e.dies) → inRange →
      spad s g.ident.tid va (2 * count) = .ok (t, off) → NoOlderStore s gid t off (2 * count) →
      let words := (List.range count).map fun j => (s.team t).sp.num (off + 2 * j) 2
      let q := (quantise words).getD (0, [])
      let o := { op with
        seq := g.seq, k := q.1, input := q.2, invalid := (quantise words).isNone
        sums := if q.2.all (· == 0) then some (List.replicate 256 0) else none }
      let i := if trans then Instr.layrt f else .layr f
      (∀ k, k < g.ident.k → (g.slot k).busy = false → (∀ j < k, (g.slot j).busy = true) → ∃ u, exec i s = .next u
        ∧ ArrIssued s u gid { o with dest := .slot k ((g.slot k).epoch + 1) }
        ∧ PairSeeded (counted (nextSeqOf g)) (u.group gid) d.val k (fun l => (top l).1) (fun l => (top l).2) sub next
        ∧ (u.group gid).slot k = { busy := true, tf := f.x62, holders := 1, epoch := (g.slot k).epoch + 1 })
      ∧ ((∀ k < g.ident.k, (g.slot k).busy = true) → ∃ u, exec i s = .next u
        ∧ ArrIssued s u gid { o with dest := .direct d.val ((List.range 256).map fun l => (top l).1) ((List.range 256).map fun l => (top l).2) }
        ∧ (let h := u.group gid
          (∀ l < 256, h.lane (d.val + 1) l = (top l).1) ∧ (∀ x ∈ Group.granules (1024 * (d.val + 1)) 1024, h.tagAt x = .raw)
          ∧ h.st d.val = .empty ∧ Tbl.look h.prods s.nextId = some ⟨1024 * d.val, 1024, .f32, [], [], none⟩
          ∧ ((g.st (d.val + 1) = .full ∨ ∃ k, g.st d.val = .pend k) → h.st (d.val + 1) = .full)
          ∧ (∀ a, a < 1024 * (d.val + 1) ∨ 1024 * (d.val + 1) + 1024 ≤ a → h.win.read a = g.win.read a)
          ∧ WindowIssued (counted (nextSeqOf g)) h sub next)))
    ∧ (∀ t off, RefsOk g [] [(f.d, 1)] → (s.launch g.ident.lid).priv = true → (b.state = 2 ∨ b.state = 1) →
      (∀ k ∈ diesOf b.dies, s.m.dieok.getLsbD k = true) → inRange → spad s g.ident.tid va count = .ok (t, off) →
      NoOlderStore s gid t off count → ∃ u, exec (if trans then .lprbt f else .lprb f) s = .next u
        ∧ ArrIssued s u gid { op with input := ((s.team t).sp.bytes off count).map fun x => max (-127) (toSigned 8 x.toNat) }
        ∧ (u.group gid).st d.val = .empty ∧ (u.group gid).win = g.win
        ∧ Tbl.look (u.group gid).prods s.nextId = some ⟨1024 * d.val, 1024, .i32, [], [], none⟩
        ∧ WindowIssued (counted g) (u.group gid) sub next)

/-- `LayerChecks` and `LayerIssue`, together. -/
def Obligations.LayerWords : Prop := Claim.LayerChecks ∧ Claim.LayerIssue

/-- R108: the quantiser. An input with a NaN or an infinity has none; all zeros give k = 0; otherwise k is the least integer
with amax ≤ 127 × 2^k and every code is rne(x × 2^−k), which the clamp never changes. -/
def Obligations.Quantiser : Prop :=
  ∀ xs : List Nat, (∀ x ∈ xs, x < 2 ^ 16) →
    let fits := fun (k : Int) => ∀ x ∈ xs, ∀ m e, FFmt.bf16.read x = .fin m e → m.natAbs * 2 ^ (e - k).toNat ≤ 127 * 2 ^ (k - e).toNat
    ((∃ x ∈ xs, 0x7F80 ≤ x % 2 ^ 15) → quantise xs = none)
    ∧ ((∀ x ∈ xs, x % 2 ^ 15 = 0) → quantise xs = some (0, xs.map fun _ => 0))
    ∧ ((∀ x ∈ xs, x % 2 ^ 15 < 0x7F80) → (∃ x ∈ xs, x % 2 ^ 15 ≠ 0) → ∃ k, fits k ∧ ¬ fits (k - 1)
        ∧ quantise xs = some (k, xs.map fun x => match FFmt.bf16.read x with | .fin m e => (roundInt .rne m (e - k)).1 | _ => 0))

/-- R63, R64, R75, R104, R110, R112, R114, R401, R406: a result lands wholly: an arrival in its slot's buffer unless stale,
a direct-mode result in vd with one rounding, an LPRB's sums in vd; a failure delivers NaN or 0x80000000; AR falls by one and
a retiring binding becomes FREE with its last operation. A late load's arrival puts its words in the buffer. -/
def Sys2Proof.Claim.LayerLanding : Prop :=
  ∀ (s : State) (id : Nat) (o : ArrOp), Tbl.look s.accesses id = none → Tbl.look s.arrops id = some o → o.known = true →
    o.record = none → o.tw ≤ s.m.ftime → o.cancelled = false → (Tbl.look s.groups o.gid).isSome = true → Tbl.sorted s.arrops = true →
    (∀ c ∈ s.arrops, c.2.gid = o.gid → c.1 = id) →
    let g := s.group o.gid
    let sum := fun (l : Nat) => ((o.sums.getD [])[l]?).getD 0
    let sig := fun (l : Nat) => if o.failed || o.invalid then 0x7FC00000 else
      (FFmt.f32.round .rne (if sum l = 0 then .zero false else .fin (sum l) ((o.j : Int) + o.k - 7 + (o.exps[l]?).getD 0 - 127))).1
    let lands := fun (i : Instr) (fl : BitVec 5) (ok : Group → Prop) => ∃ t, exec i s = .next t ∧ MemoriesSame s t
      ∧ Tbl.look t.arrops id = none ∧ Raised s t o.tid fl ∧ OthersKept s t o.gid
      ∧ (t.group o.gid).csr = { g.csr with ar := g.csr.ar - 1 } ∧ ok (t.group o.gid)
      ∧ ((s.bind o.bind).state = 3 → (∀ c ∈ s.arrops, c.1 ≠ id → c.2.bind ≠ o.bind) → t.bind o.bind = {})
    (∀ k ep, o.dest = .slot k ep →
      ((g.slot k).busy = true ∧ (g.slot k).epoch = ep → lands (.arrival id) 0 fun h =>
        (∀ l < 256, h.win.num (g.u + 1024 * k + 4 * l) 4 = sig l % 2 ^ 32)
        ∧ (∀ a, a < g.u + 1024 * k ∨ g.u + 1024 * k + 1024 ≤ a → h.win.read a = g.win.read a)
        ∧ h.slot k = { g.slot k with arr := true, fail := (g.slot k).fail || o.failed, anv := (g.slot k).anv || o.invalid }
        ∧ (∀ j, j ≠ k → h.slot j = g.slot j) ∧ h.vst = g.vst ∧ h.tags = g.tags)
      ∧ (¬ ((g.slot k).busy = true ∧ (g.slot k).epoch = ep) → lands (.arrival id) 0 fun h =>
        h.win = g.win ∧ h.slots = g.slots ∧ h.vst = g.vst ∧ h.tags = g.tags))
    ∧ (∀ d a0 b0, o.dest = .direct d a0 b0 → g.prods = [(id, ⟨1024 * d, 1024, .f32, [], [], none⟩)] → g.st d = .empty →
      let v := fun (l : Nat) => if o.failed then (0x7FC00000, Flag.nv)
        else FFmt.f32.fma .rne false false ((a0[l]?).getD 0).toNat (sig l) ((b0[l]?).getD 0).toNat
      lands (.directModeDelivery id) (orFlags ((List.range 256).map fun l => (v l).2) ||| if o.failed || o.invalid then Flag.nv else 0)
        fun h => (∀ l < 256, h.lane d l = BitVec.ofNat 32 (v l).1) ∧ h.st d = .full
          ∧ (∀ x ∈ Group.granules (1024 * d) 1024, h.tagAt x = .f32)
          ∧ ∀ a, a < 1024 * d ∨ 1024 * d + 1024 ≤ a → h.win.read a = g.win.read a)
    ∧ (∀ d, o.dest = .probe d → g.prods = [(id, ⟨1024 * d, 1024, .i32, [], [], none⟩)] → g.st d = .empty →
      lands (.lprbResultLanding id) 0 fun h =>
        (∀ l < 256, h.lane d l = if o.failed then 0x80000000 else BitVec.ofInt 32 (sum l)) ∧ h.st d = .full
        ∧ (∀ x ∈ Group.granules (1024 * d) 1024, h.tagAt x = .i32)
        ∧ ∀ a, a < 1024 * d ∨ 1024 * d + 1024 ≤ a → h.win.read a = g.win.read a)

/-- R64, R75, R76, R220, R302, R401: the arrival of a late load none of whose reads failed puts its words, as they stand at its
places then, in its slot's buffer, +0.0 in the lanes it did not read; a stale one is dropped. Under a lease (R171) a single word
is read as a load by its core reads it. Where a word lies on a module that has left, the arrival is a failure. -/
def Sys2Proof.Claim.LateArrivals : Prop :=
  ∀ (s : State) (id : Nat) (a : Access) (k : Nat) (ep : BitVec 32), Tbl.look s.accesses id = some a → a.kind = .late k ep →
    (∀ e ∈ a.elems, e.st = .done) → (a.elems.map (·.lane)).Nodup → (Tbl.look s.groups a.gid).isSome = true →
    let g := s.group a.gid
    let read := fun (e : Elem) => natOfBytes (if polLease a.pol = 0 then peek s e.place e.size
      else (loadAt s (s.team a.tid).part (s.team a.tid).lid a.core a.pol e.place e.size false).2)
    (polLease a.pol = 0 ∨ a.elems.length = 1) →
    ∃ t, exec (.arrival id) s = .next t ∧ MemoriesSame s t ∧ t.accesses = Tbl.del s.accesses id ∧ OthersKept s t a.gid
      ∧ ((∃ e ∈ a.elems, goneAway s e.place = true) → (g.slot k).busy = true → (g.slot k).epoch = ep →
        (∀ l < 256, (t.group a.gid).win.num (g.u + 1024 * k + 4 * l) 4 = 0x7FC00000)
        ∧ (t.group a.gid).slot k = { g.slot k with arr := true, fail := true })
      ∧ ((∀ e ∈ a.elems, goneAway s e.place = false) →
        let h := t.group a.gid
        ((g.slot k).busy = true ∧ (g.slot k).epoch = ep →
          (∀ e ∈ a.elems, e.lane < 256 → h.win.num (g.u + 1024 * k + 4 * e.lane) 4 = read e % 2 ^ 32)
          ∧ (∀ l < 256, (∀ e ∈ a.elems, e.lane ≠ l) → h.win.num (g.u + 1024 * k + 4 * l) 4 = 0)
          ∧ (∀ x, x < g.u + 1024 * k ∨ g.u + 1024 * k + 1024 ≤ x → h.win.read x = g.win.read x)
          ∧ h.slot k = { g.slot k with arr := true } ∧ h.vst = g.vst ∧ h.csr = g.csr)
        ∧ (¬ ((g.slot k).busy = true ∧ (g.slot k).epoch = ep) → h.win = g.win ∧ h.slots = g.slots ∧ h.vst = g.vst ∧ h.csr = g.csr))

/-- `LayerLanding` and `LateArrivals`, together. -/
def Obligations.Arrivals : Prop := Claim.LayerLanding ∧ Claim.LateArrivals

/-- R109, R110, R113, R115, R119, R120, R131: a link slot carries the oldest request that may travel in it: its owner's, or an
epoch probe's in a provider, an unassigned or a lent slot; a tile's product brings 256 codes of the ADC's range, and the sums
are known with the last tile; a shadow operation takes the ideal codes; an attempt fails with its second CRC failure (R271), the
first being counted and its packet resent; a failed attempt is counted and resent once, then delivers its failure; a slot table entry takes an owner, 24 to 29 and FREE entries excepted. The model's choices: codes count
only with a response slot of the owner and before the deadline, which runs from the first send; array faults are counted for the
tiles' dies, none of a shadow operation (log 64, DEDUCED); frames from FTIME 0, and response slots for epochs (log 79). -/
def Obligations.ArraySteps : Prop :=
  ∀ s : State, Tbl.sorted s.arrops = true →
    (∀ (port slot : Nat) (response : Bool) (v : BitVec 8), ∃ t, exec (.linkSlotTableWrite port response slot v) s = .next t
      ∧ ∀ p k, (slotOwner (s.die p).reqOwner k, slotOwner (s.die p).rspOwner k) ≠ (slotOwner (t.die p).reqOwner k, slotOwner (t.die p).rspOwner k) →
          port < 16 ∧ slot < 256 ∧ p = port ∧ k = slot)
    ∧ (∀ (port slot : Nat) (response : Bool) (v : BitVec 8), port < 16 → slot < 256 →
      ((v.toNat % 32 < 24 ∧ (s.part (v.toNat % 32)).e.state ≠ 0 ∨ 30 ≤ v.toNat % 32) → ∃ t, exec (.linkSlotTableWrite port response slot v) s = .next t
        ∧ slotOwner (if response then (t.die port).rspOwner else (t.die port).reqOwner) slot = v.toNat % 32
        ∧ (if response then (t.die port).reqOwner = (s.die port).reqOwner else (t.die port).rspOwner = (s.die port).rspOwner))
      ∧ ((24 ≤ v.toNat % 32 ∧ v.toNat % 32 < 30 ∨ v.toNat % 32 < 24 ∧ (s.part (v.toNat % 32)).e.state = 0) →
          exec (.linkSlotTableWrite port response slot v) s = .next s))
    ∧ (∀ port slot,
      let v := slotOwner (s.die port).reqOwner slot
      let waits := fun (o : ArrOp) => o.underway = true ∧ o.shadow = false ∧ Tbl.look o.sent port = none ∧ ∃ t ∈ o.tiles, t.die = port
      let mine := fun (o : ArrOp) => waits o ∧ if o.dest = .epoch
        then v = 30 ∨ v = 31 ∨ v < 24 ∧ lentNow s (s.die port) v < 5 ∧ ∀ c ∈ s.arrops, c.2.owner = v → ¬ waits c.2
        else o.owner = v
      ((∀ c ∈ s.arrops, ¬ mine c.2) → nextRow s port v = none → exec (.linkSlotStart port slot) s = .next s)
      ∧ ∀ id o, Tbl.look s.arrops id = some o → mine o → (∀ c ∈ s.arrops, c.1 < id → ¬ mine c.2) →
        (v = 30 ∨ v = 31 → ∀ c ∈ s.rowReqs, c.2.die = port → c.2.sent = false → id ≤ c.1) →
        ∃ t, exec (.linkSlotStart port slot) s = .next t ∧ MemoriesSame s t ∧ t.groups = s.groups ∧ t.rowReqs = s.rowReqs
          ∧ t.arrops = Tbl.set s.arrops id { o with
              sent := Tbl.set o.sent port s.nextId, deadline := if o.sent = [] then s.m.ftime + 50000 else o.deadline }
          ∧ (o.dest = .epoch → v < 24 → lentNow t (t.die port) v = lentNow s (s.die port) v + 1))
    ∧ ∀ id o, Tbl.look s.arrops id = some o → o.underway = true →
      let resent := { o with attempt := 2, sent := [], codes := [], crc := false, deadline := if o.shadow then s.m.ftime + 12800000 else 0 }
      let fails := fun (i : Instr) => ∃ t, exec i s = .next t
        ∧ t.arrops = Tbl.set s.arrops id (if o.attempt = 1 then resent else { o with failed := true }) ∧ t.groups = s.groups
        ∧ (o.shadow = false → ∀ d, Tbl.get 0 t.m.arrayFaults d = Tbl.get 0 s.m.arrayFaults d + if ∃ x ∈ o.tiles, x.die = d then 1 else 0)
        ∧ t.m.calib = s.m.calib + if o.dest = .epoch then 1 else 0
      (∀ tile d, (∃ p ∈ (s.die d).running, p.op = id ∧ p.tile = tile ∧ p.till ≤ s.m.ftime) →
        (∀ c ∈ s.dies, ∀ p ∈ c.2.running, p.op = id → p.tile = tile → p.till ≤ s.m.ftime → c.1 = d ∧ p.live = true) → s.m.ftime < o.deadline →
        (∃ k < 256, let u := slotOwner (s.die d).rspOwner k; u = o.owner ∨ u = 31 ∧ o.dest = .epoch) → ∃ t cs y, exec (.plotTileProduct id tile) s = .next t
          ∧ cs.length = 256 ∧ (∀ c ∈ cs, -2047 ≤ c ∧ c ≤ 2047) ∧ t.arrops = Tbl.set s.arrops id y
          ∧ y = { o with codes := Tbl.set o.codes tile cs, sums := y.sums } ∧ MemoriesSame s t ∧ t.groups = s.groups
          ∧ y.sums = (if ∀ k < o.tiles.length, (Tbl.look y.codes k).isSome = true then
              some ((List.range 256).map fun l => y.codes.foldl (fun a c => a + (c.2[l]?).getD 0) 0) else none))
      ∧ (o.deadline ≠ 0 → o.deadline ≤ s.m.ftime → fails (.layrDeadlineExpiry id))
      ∧ (s.m.ftime < o.deadline → exec (.layrDeadlineExpiry id) s = .next s)
      ∧ (o.shadow = false → o.sent ≠ [] → fails (.plotFault id) ∧ (o.crc = true → fails (.arrayCrcFailure id))
        ∧ (o.crc = false → exec (.arrayCrcFailure id) s = .next { s with
            m := { s.m with linkFaults := s.m.linkFaults + 1 }, arrops := Tbl.set s.arrops id { o with crc := true } }))
      ∧ (o.shadow = true → (o.deadline ≤ s.m.ftime ∨ o.ideals s = none) → fails (.shadowCompute id))
      ∧ ∀ w : Nat → Nat → Int, o.shadow = true → s.m.ftime < o.deadline →
        (∀ k < 512 * o.tiles.length, ∀ l < 256, (if o.trans then weightAt s o.root o.din o.dout (o.start + l) k
          else weightAt s o.root o.din o.dout k (o.start + l)) = some (w k l)) →
        exec (.shadowCompute id) s = .next { s with arrops := Tbl.set s.arrops id { o with
          sums := some ((List.range 256).map fun l => (List.range o.tiles.length).foldl (fun a t => a + max (-2047) (min 2047
            (roundInt .rne ((List.range 512).foldl (fun p i => p + (o.input[512 * t + i]?).getD 0 * w (512 * t + i) l) 0) (-(o.j : Int))).1)) 0) } }

/-- R102, R104, R328, R329, R332, R314: ABND.load, ABND.pub and ABND.ret answer the code of their first failing check, 0 where
they act on the binding table in one step; ASTAT reads a visible entry, zeros otherwise. Without privilege ABND traps PRIV.
That the entry's die mask is checked against the dies its map names, and that the records are written in one step with the
publication, is the model's choice (logs 51 and 68, DEDUCED). -/
def Sys2Proof.Claim.BindingWords : Prop :=
  ∀ (f : Fields) (s : State) (gid sub : Nat), Issuing s gid sub →
    let g := s.group gid
    let part := g.ident.part
    let n := bindIndex f
    let m := (f.imm.extractLsb' 8 8).toNat
    let x := s.bind m
    let b := s.bind n
    let next := nextPc f s gid sub
    let va := match f.a with | .s k => (g.scal k.val).toNat | _ => 0
    let answers := fun (i : Instr) (u : State) (code : W64) => Does i s gid sub next (withS u gid f.d code)
    ((s.launch g.ident.lid).priv = false → ∀ i ∈ [Instr.abndLoad f, .abndPub f, .abndRet f], ∀ o c y, i.word? = some (o, c, y) →
        Traps i f s gid sub s { cause := 0x03, tval := BitVec.ofNat 64 o })
    ∧ ((s.launch g.ident.lid).priv = true →
      (∀ bs, Delivered g [f.a] → va % 128 = 0 → storePending s gid va 128 = false → ∀ v, groupRead s g (policy g f) va 128 = .ok (v, bs) →
        (b.state ≠ 0 → answers (.abndLoad f) v 1)
        ∧ (b.state = 0 → candidateOk s bs = false → answers (.abndLoad f) v 2)
        ∧ (b.state = 0 → candidateOk s bs = true → ¬ (tilesOf s (BindE.ofBytes bs)).Nodup → answers (.abndLoad f) v 3)
        ∧ (b.state = 0 → candidateOk s bs = true → (tilesOf s (BindE.ofBytes bs)).Nodup →
            answers (.abndLoad f) (v.setBind n { BindE.ofBytes bs with state := 1, gen := 0 }) 0))
      ∧ (let fails : List (Bool × W64) := [(x.state != 1, 1), (n != m && !(b.state == 0 || b.state == 2), 1),
          ((tilesOf s x).any (tileTaken s (some n)), 3), ((tilesOf s x).any fun t => !tileTrusted s t, 4),
          (s.m.incomplete.any (·.2 == x.root), 5), ((diesOf x.dies).any fun d => !s.m.dieok.getLsbD d, 6)]
        (∀ (k : Nat) (code : W64), fails[k]? = some (true, code) → (∀ j < k, ∀ (z : Bool × W64), fails[j]? = some z → z.1 = false) → answers (.abndPub f) s code)
        ∧ ((∀ (z : Bool × W64), z ∈ fails → z.1 = false) → ∃ u, answers (.abndPub f) u 0 ∧ MemoriesSame s u
          ∧ u.bind n = { x with state := 2, gen := (if b.state = 2 then b.gen else 0) + 1 } ∧ (n ≠ m → u.bind m = {})
          ∧ (∀ k, k ≠ n → k ≠ m → u.bind k = s.bind k) ∧ Tbl.look u.due n = some s.m.ftime ∧ (∀ e ∈ u.epochs, e.bind ≠ n)
          ∧ ∀ d ∈ diesOf x.dies, ∃ r ∈ (u.die d).recs, r.bind = n ∧ r.committed = true ∧ r.retired = false
              ∧ r.entry.gen = (u.bind n).gen ∧ r.tiles = tilesOf s x))
      ∧ (b.state = 2 → ∃ u, answers (.abndRet f) u 0 ∧ u.bind n = (if inFlight s n none then { b with state := 3 } else {})
          ∧ (∀ k, k ≠ n → u.bind k = s.bind k) ∧ (∀ e ∈ u.epochs, e.bind ≠ n)
          ∧ ∀ d ∈ diesOf b.dies, ∀ r ∈ (u.die d).recs, r.bind = n → r.retired = true)
      ∧ (b.state = 1 → ∃ u, answers (.abndRet f) u 0 ∧ u.bind n = {} ∧ ∀ k, k ≠ n → u.bind k = s.bind k)
      ∧ (b.state = 3 → ∃ u, answers (.abndRet f) u 1 ∧ u.bind n = (if inFlight s n none then b else {})
          ∧ ∀ k, k ≠ n → u.bind k = s.bind k)
      ∧ (b.state = 0 → ∃ u, answers (.abndRet f) u 1 ∧ u = { s with oldTiles := u.oldTiles }))
    ∧ ∀ d : Fin 32, f.d = .s d →
      let seen := b.state = 2 ∧ b.grant.getLsbD part = true ∧ ∀ k ∈ diesOf b.dies, k ∈ (s.part part).e.dies
      let writes := fun (lo hi : W64) => Does (.astat f) s gid sub next (s.setGroup gid ((g.setScal d.val lo).setScal (d.val + 1) hi))
      (seen → writes (BitVec.ofNat 64 (b.dout * 2 ^ 32 + b.din)) (BitVec.ofNat 64 (b.cgen.toNat * 2 ^ 32 + b.gen.toNat)))
      ∧ (¬ seen → writes 0 0)

/-- R116, R397: LCAP.off ends the mode, LCAP.cap and LCAP.rep set mode, base, capacity and policy with the index at 0 and OVF
and MIS clear, LCAP.stat reads the log status; without the launch's LCAP flag the two trap ILLOP, and ALIGN and PROT on a bad
base and a capacity of 0. That the log of LCAP.cap is checked against the union of the team's ranges that are not shared is
the model's choice (log 64, DEDUCED). -/
def Sys2Proof.Claim.CaptureLog : Prop :=
  ∀ (f : Fields) (s : State) (gid sub : Nat), Issuing s gid sub →
    let g := s.group gid
    let lid := g.ident.lid
    let va := match f.a with | .s k => g.scal k.val | _ => 0
    let cap := match f.b with | .s k => (g.scal k.val).toNat | _ => 0
    let next := nextPc f s gid sub
    let own := fun (a : Nat) => ∃ r ∈ (s.launch lid).ranges, r.team = g.ident.team ∧ r.shared = false ∧ r.va ≤ a ∧ a < r.va + r.len
    Does (.lcapOff f) s gid sub next (s.setGroup gid { g with cap := { g.cap with mode := 0 } })
    ∧ Does (.lcapStat f) s gid sub next (withS s gid f.d (BitVec.ofNat 64 (g.cap.index % 2 ^ 32
        + (if g.cap.ovf then 2 ^ 32 else 0) + (if g.cap.mis then 2 ^ 33 else 0) + g.cap.mode * 2 ^ 34)))
    ∧ ∀ mode ∈ [1, 2],
      let i := if mode = 1 then Instr.lcapCap f else .lcapRep f
      (s.flag lid 2 = false → Traps i f s gid sub s { cause := 0x01, tval := i.low64 })
      ∧ (s.flag lid 2 = true → PolicyOk g f → Delivered g [f.a, f.b] →
        (va.toNat % 64 ≠ 0 → Traps i f s gid sub s { cause := 0x05, tval := va })
        ∧ (va.toNat % 64 = 0 → cap = 0 → Traps i f s gid sub s { cause := 0x0A, tval := 0 })
        ∧ (∀ a, va.toNat % 64 = 0 → cap ≠ 0 → mode = 1 → s.flag lid 0 = true → va.toNat ≤ a → a < va.toNat + 1040 * cap → ¬ own a →
            (∀ b, va.toNat ≤ b → b < a → own b) → Traps i f s gid sub s { cause := 0x0B, tval := BitVec.ofNat 64 a })
        ∧ (va.toNat % 64 = 0 → cap ≠ 0 → (mode = 1 → s.flag lid 0 = true → ∀ a, va.toNat ≤ a → a < va.toNat + 1040 * cap → own a) →
            Does i s gid sub next (s.setGroup gid { g with cap := {
              mode := mode, mis := false, ovf := false, index := 0, base := va, cap := cap, pol := policy g f } })))

/-- `BindingWords` and `CaptureLog`, together. -/
def Obligations.BindingsAndCapture : Prop := Claim.BindingWords ∧ Claim.CaptureLog

/-- R126 to R132: the Topiary setting with its refusals; an epoch begins for a published binding that is due, unless one
of lower index with its whole image is (log 78); a probe is driven as one request for every 256 lanes of either direction, and
joins the epoch once all have ended, with the ideal values beside the measured ones, NaN where a request failed; the swap writes
the other bank with the fit of every column, counts the calibration generation up and sets the next epoch one period later. A
probe's requests are array operations (log 79). -/
def Obligations.Topiary : Prop :=
  ∀ (s : State) (n : Nat),
    (∀ v : BitVec 32, let k := v.toNat % 128
      (n < 256 → 2 ≤ k → k ≤ 64 → ∃ t, exec (.topiarySettingWrite n v) s = .next t
        ∧ t = { s with topset := t.topset, epochs := t.epochs, arrops := t.arrops, dies := t.dies } ∧ Tbl.get {} t.topset n = ⟨v.getLsbD 8, k⟩
        ∧ (∀ j, j ≠ n → Tbl.get {} t.topset j = Tbl.get {} s.topset j)
        ∧ t.epochs = (if v.getLsbD 8 then s.epochs else s.epochs.filter fun e => e.bind != n)
        ∧ t.arrops = if v.getLsbD 8 then s.arrops else s.arrops.filter fun c => !(c.2.bind == n && c.2.dest == .epoch))
      ∧ ((256 ≤ n ∨ k < 2 ∨ 64 < k) → exec (.topiarySettingWrite n v) s = .next s))
    ∧ (∀ t0, (s.bind n).state = 2 → (Tbl.get {} s.topset n).on = true → Tbl.look s.due n = some t0 → t0 ≤ s.m.ftime → s.epochs = [] →
      (imageWhole s (s.bind n) = true → (∀ c ∈ s.due, c.1 < n → epochReady s c.1 = false ∨ imageWhole s (s.bind c.1) = false) →
        ∃ t, exec (.epochDue n) s = .next t
        ∧ t = { s with m := t.m, epochs := t.epochs } ∧ t.m = { s.m with calib := s.m.calib + if t0 < s.m.ftime then 1 else 0 }
        ∧ t.epochs = [{ bind := n, gen := (s.bind n).gen, n := (Tbl.get {} s.topset n).nprb
                        base := (s.bind n).cgen * 0x9E3779B9 + BitVec.ofNat 32 n }])
      ∧ (imageWhole s (s.bind n) = false → ∃ t, exec (.epochDue n) s = .next t ∧ t.epochs = [] ∧ t.due = s.due ∧ t.binds = s.binds))
    ∧ (∀ (e : Epoch), s.epochs = [e] → e.bind = n → e.sigF.length < e.n →
      let b := s.bind n
      let k := e.sigF.length
      let code := fun (len r : Nat) => let q := toSigned 8 ((e.base + BitVec.ofNat 32 (k * len + r) * 0x9E3779B9).toNat / 2 ^ 24); if q = -128 then -127 else q
      let mine := fun (o : ArrOp) => o.bind = n ∧ o.dest = .epoch
      ((∀ c ∈ s.arrops, ¬ mine c.2) →
        (imageWhole s b = true → ∃ t, exec (.probeMeasurement n k false) s = .next t ∧ t = { s with nextId := t.nextId, arrops := t.arrops }
          ∧ (∀ id, id < s.nextId → Tbl.look t.arrops id = Tbl.look s.arrops id)
          ∧ ∀ (trans : Bool) (j : Nat), 256 * j + 256 ≤ (if trans then b.din else b.dout) → ∃ id, s.nextId ≤ id ∧ Tbl.look t.arrops id = some {
              gid := 0, tid := 0, part := 30, lid := 0, seq := 0, trans := trans, dest := .epoch, bind := n, gen := b.gen, start := 256 * j, j := b.j, k := 0
              exps := useExps s b trans (256 * j), tiles := useTiles s b trans (256 * j), root := b.root, din := b.din, dout := b.dout, invalid := false
              input := (let len := if trans then b.dout else b.din; (List.range len).map (code len)), shadow := false })
        ∧ (imageWhole s b = false → ∃ t, exec (.probeMeasurement n k false) s = .next t ∧ t.epochs = s.epochs ∧ t.arrops = s.arrops)
        ∧ exec (.probeMeasurement n k true) s = .next s)
      ∧ ((∃ c ∈ s.arrops, mine c.2) →
        exec (.probeMeasurement n k false) s = .next s
        ∧ ((∃ c ∈ s.arrops, mine c.2 ∧ c.2.known = false) → exec (.probeMeasurement n k true) s = .next s)
        ∧ ∀ yF yT, (∀ c ∈ s.arrops, mine c.2 → c.2.known = true) →
          probeIdeals s b false ((List.range b.din).map (code b.din)) = some yF → probeIdeals s b true ((List.range b.dout).map (code b.dout)) = some yT →
          ∃ t sF sT, exec (.probeMeasurement n k true) s = .next t ∧ t = { s with epochs := t.epochs, arrops := t.arrops }
            ∧ t.epochs = [{ e with sigF := e.sigF ++ [sF], sigT := e.sigT ++ [sT], yF := e.yF ++ [yF], yT := e.yT ++ [yT] }]
            ∧ (∀ c, c ∈ t.arrops ↔ c ∈ s.arrops ∧ ¬ mine c.2)
            ∧ ∀ c ∈ s.arrops, mine c.2 → (∀ d ∈ s.arrops, mine d.2 → d.2.trans = c.2.trans → d.2.start = c.2.start → d = c) →
              c.2.start % 256 = 0 → c.2.start + 256 ≤ (if c.2.trans then b.din else b.dout) → ∀ l < 256,
                (if c.2.trans then sT else sF)[c.2.start + l]? = some (if c.2.failed then 0x7FC00000 else BitVec.ofNat 32 (c.2.sigma l))))
    ∧ ∀ e : Epoch, s.epochs = [e] → e.bind = n → e.n ≤ e.sigF.length →
      let b := s.bind n
      (b.tra + 16 * b.din ≤ b.fwd ∨ b.fwd + 16 * b.dout ≤ b.tra) →
      ∃ t, exec (.topiarySwap n) s = .next t ∧ t.bind n = { b with cgen := b.cgen + 1 } ∧ (∀ k, k ≠ n → t.bind k = s.bind k)
        ∧ t.epochs = [] ∧ (∀ c ∈ t.arrops, ¬ (c.2.bind = n ∧ c.2.dest = .epoch))
        ∧ Tbl.look t.due n = some (s.m.ftime + if b.period = 0 then 2 ^ 30 else b.period)
        ∧ (∀ i < b.dout, let w := topEntry s b false i
            let r := fit false (column e.sigF i) (column e.yF i) w.1.toNat w.2.toNat
            topEntry t (t.bind n) false i = (BitVec.ofNat 32 r.1, BitVec.ofNat 32 r.2.1))
        ∧ (∀ i < b.din, let w := topEntry s b true i
            let r := fit false (column e.sigT i) (column e.yT i) w.1.toNat w.2.toNat
            topEntry t (t.bind n) true i = (BitVec.ofNat 32 r.1, BitVec.ofNat 32 r.2.1))
        ∧ (∀ d ∈ diesOf b.dies, ∃ x ∈ (t.die d).snaps, x.bind = n ∧ x.gen = b.gen ∧ x.cgen = b.cgen + 1)

/-- R134, R314, R364 to R366: ESPL reads its block and queues the row request; its checks trap in the order of R365; at 1024
requests of the die it is not ready; without privilege it traps PRIV. -/
def Sys2Proof.Claim.RowRequests : Prop :=
  ∀ (f : Fields) (s : State) (gid sub : Nat), Issuing s gid sub →
    let g := s.group gid
    let va := match f.a with | .s k => (g.scal k.val).toNat | _ => 0
    ((s.launch g.ident.lid).priv = false → ∀ o c y, (Instr.espl f).word? = some (o, c, y) →
        Traps (.espl f) f s gid sub s { cause := 0x03, tval := BitVec.ofNat 64 o })
    ∧ ((s.launch g.ident.lid).priv = true → Delivered g [f.a] →
      (va % 64 ≠ 0 → Traps (.espl f) f s gid sub s { cause := 0x05, tval := BitVec.ofNat 64 va })
      ∧ ∀ bs w, va % 64 = 0 → storePending s gid va 64 = false → groupRead s g (policy g f) va 64 = .ok (w, bs) →
        let n := fun (o k : Nat) => natOfBytes ((bs.drop o).take k)
        let q : RowReq := { die := n 0 1, plot := n 2 2, tile := n 4 2, row := n 6 2, leaf0 := n 0x10 24, leaf1 := n 0x28 24
                            word := some (n 8 8, g.ident.part) }
        let checks : List (Bool × W64) := [(n 1 1 == 0 && q.leaf0 != 0 && q.leaf1 != 0 && n 8 8 % 8 == 0, 0x804),
          (decide (q.die < 16) && s.m.dieok.getLsbD q.die, 0x801), (decide (q.plot ≤ 255) && decide (q.tile ≤ 1055) && decide (q.row ≤ 511), 0x802),
          (decide (((s.die q.die).tile q.plot q.tile).state ≤ 1), 0x803), (!tileTaken s none ⟨q.die, q.plot, q.tile⟩, 0x800)]
        (∀ (k : Nat) (x : W64), checks[k]? = some (false, x) → (∀ j < k, ∀ (z : Bool × W64), checks[j]? = some z → z.1 = true) →
          Traps (.espl f) f s gid sub s { cause := 0x0A, tval := x })
        ∧ ((∀ (z : Bool × W64), z ∈ checks → z.1 = true) →
          (1024 ≤ (s.rowReqs.filter fun c => c.2.die == q.die).length → Waits (.espl f) s s)
          ∧ ((s.rowReqs.filter fun c => c.2.die == q.die).length < 1024 → (findObj s 0 q.leaf0).isSome = true → (findObj s 0 q.leaf1).isSome = true →
            Does (.espl f) s gid sub (nextPc f s gid sub) { w with nextId := s.nextId + 1, rowReqs := Tbl.set s.rowReqs s.nextId q })))

/-- R134 to R138, R142, R144, R145, R366, R466: the steps of a row request: its missing leaves are asked for, and once both are
here a provider or unassigned slot carries them to the die; then each step is announced by its journal record: INTENT with the
row reset and the tile's wear counted, VERIFIED with the weights of its leaves, COMMIT after the dwell with the completion
word; a missed tolerance resets the row and tries once more from step 2, then ABORT and the tile is retired; a taken tile is
refused, and a row whose leaf is given up ends. Without a spare the tile that firmware has named on the die takes its place.
That the retry keeps its leaves and starts at step 2, how a retired tile's rows move, when outcomes 3 and 4 are given, and the
named tile is the model's choice (log 57, DEDUCED), and so is 1 as a journal's first sequence number (log 56, DEDUCED). -/
def Sys2Proof.Claim.RowSteps : Prop :=
  ∀ (s : State) (id : Nat) (q : RowReq), Tbl.look s.rowReqs id = some q → id < s.nextId → q.leaf0 ≠ 0 →
    let d := s.die q.die
    let x := d.tile q.plot q.tile
    let js := Tbl.get [] d.journal q.plot
    let zero : TileSt := { x with rows := Tbl.del x.rows q.row, committed := x.committed.filter (· != q.row) }
    let seq := ((js.filter fun a => decide (1 ≤ a.state) && decide (a.state ≤ 4) && a.pad == 0).map (·.seq)).foldl max 0 + 1
    let recorded := fun (t : State) (state : Nat) => Tbl.get [] (t.die q.die).journal q.plot = js ++ [⟨seq, q.tile, q.row, state, q.leaf0, q.leaf1, 0⟩]
    let tileIs := fun (t : State) (y : TileSt) => (t.die q.die).tile q.plot q.tile = y
    let req := fun (t : State) => Tbl.look t.rowReqs id
    let lost := fun (k : Nat) => k ≠ 0 ∧ ∀ r ∈ imageRoots s ⟨q.die, q.plot, q.tile⟩, (k, r) ∈ s.m.incomplete
    let misses := fun (i : Instr) =>
      (q.attempt = 1 → ∃ t, exec i s = .next t ∧ MemoriesSame s t ∧ tileIs t zero ∧ req t = some { q with attempt := 2, phase := 0 })
      ∧ (q.attempt = 2 → js.length < 8192 → x.state = 1 → ∀ k < 32, (d.tile q.plot (1024 + k)).state = 3 →
          (∀ j < k, (d.tile q.plot (1024 + j)).state ≠ 3) → ∃ t, exec i s = .next t ∧ recorded t 4 ∧ tileIs t { zero with state := 2 }
          ∧ ((t.die q.die).tile q.plot (1024 + k)).state = 1 ∧ req t = some { q with tile := 1024 + k, phase := 0, attempt := 1, dwell := 0 })
      ∧ (q.attempt = 2 → js.length < 8192 → x.state = 1 → (∀ k < 32, (d.tile q.plot (1024 + k)).state ≠ 3) →
          ∀ n, Tbl.look s.m.named q.die = some n → n.die = q.die → (d.tile n.plot n.tile).state = 0 → tileBound s n = false →
          ∃ t, exec i s = .next t ∧ recorded t 4 ∧ tileIs t { zero with state := 2 }
            ∧ req t = some { q with plot := n.plot, tile := n.tile, phase := 0, attempt := 1, dwell := 0 })
    (q.phase = 0 → (∀ c ∈ s.rowReqs, c.1 < id → ¬ (c.2.die = q.die ∧ c.2.plot = q.plot ∧ c.2.tile = q.tile ∧ c.2.row = q.row)) →
      s.m.dieok.getLsbD q.die = true →
      (q.sent = false → ¬ lost q.leaf0 → ¬ lost q.leaf1 → ∃ t, exec (.rowProgramStart id) s = .next t ∧ req t = some q ∧ t.dies = s.dies
        ∧ ∀ k ∈ [q.leaf0, q.leaf1], k ≠ 0 → findObj s 0 k = none → ∃ y ∈ t.shards, y.name = k ∧ y.part = none)
      ∧ (q.sent = true → tileTaken s none ⟨q.die, q.plot, q.tile⟩ = false → js.length < 8192 → ∃ t, exec (.rowProgramStart id) s = .next t
        ∧ MemoriesSame s t ∧ recorded t 1 ∧ req t = some { q with phase := 1 }
        ∧ tileIs t { zero with wear := min (2 ^ 32 - 1) (x.wear + 1), state := if x.state = 0 then 1 else x.state })
      ∧ ∀ code, (q.sent = false ∧ (lost q.leaf0 ∨ lost q.leaf1) ∧ code = 4 ∨ q.sent = true ∧ tileTaken s none ⟨q.die, q.plot, q.tile⟩ = true ∧ code = 3) →
          ∀ va p pl, q.word = some (va, p) → OnePage s p true 0x00400000 va 8 pl →
          ∃ t, exec (.rowProgramStart id) s = .next t ∧ req t = none ∧ t.dies = s.dies ∧ PlaceWritten s t pl (bytesOfNat 8 (q.tile * 2 ^ 8 + code)))
    ∧ (∀ slot a b, q.sent = false → findObj s 0 q.leaf0 = some a → findObj s 0 q.leaf1 = some b → Tbl.sorted s.rowReqs = true →
        30 ≤ slotOwner (s.die q.die).reqOwner slot → slotOwner (s.die q.die).reqOwner slot ≤ 31 →
        (∀ c ∈ s.arrops, c.2.underway = true → c.2.shadow = false → Tbl.look c.2.sent q.die = none → ∀ y ∈ c.2.tiles, y.die ≠ q.die) →
        (∀ c ∈ s.rowReqs, c.1 < id → c.2.die = q.die → c.2.sent = true) →
        exec (.linkSlotStart q.die slot) s = .next { s with rowReqs := Tbl.set s.rowReqs id { q with sent := true, weights := a.bytes ++ b.bytes } })
    ∧ (q.phase = 1 → js.length < 8192 → ∃ t, exec (.programVerify id true) s = .next t ∧ MemoriesSame s t ∧ recorded t 2
        ∧ tileIs t { x with rows := Tbl.set x.rows q.row q.weights } ∧ req t = some { q with phase := 2, dwell := s.m.ftime + 100000 })
    ∧ (q.phase = 1 → misses (.programVerify id false))
    ∧ (q.phase = 2 → s.m.ftime < q.dwell → ∀ ok, exec (.relaxationDwellEnd id ok) s = .next s)
    ∧ (q.phase = 2 → q.dwell ≤ s.m.ftime → misses (.relaxationDwellEnd id false))
    ∧ (q.phase = 2 → q.dwell ≤ s.m.ftime → js.length < 8192 → ∀ va p pl, q.word = some (va, p) → OnePage s p true 0x00400000 va 8 pl →
        ∃ t, exec (.relaxationDwellEnd id true) s = .next t ∧ recorded t 3 ∧ tileIs t { x with committed := x.committed ++ [q.row] }
          ∧ req t = none ∧ PlaceWritten s t pl (bytesOfNat 8 (seq % 2 ^ 32 * 2 ^ 32 + q.tile * 2 ^ 8 + 1)))

/-- `RowRequests` and `RowSteps`, together. -/
def Obligations.RowPrograms : Prop := Claim.RowRequests ∧ Claim.RowSteps

/-- R143, R144, R206, R286: an image leaf that stands in the inbox with the content of its claimed name is stored and its
request is over; any other delivery, and a request unanswered for 2^30 ticks, fails: asked for again, and after the third failure
the leaf is given up. A leaf for a RESTORE, under the index it is listed with, is kept for it. The model's choices: where the inbox
follows the request ring (log 18); a delivered leaf is stored with no reference (log 58, DEDUCED); a restored content is
accepted under the index that its name has (log 59, DEDUCED). -/
def Obligations.Shards : Prop :=
  ∀ s : State,
    let again := fun (x : Shard) (t : State) => t.m.shardFails = s.m.shardFails + 1
      ∧ (x.attempt < 3 → t.shards = s.shards.filter (· != x) ++ [{ x with attempt := x.attempt + 1, tick := s.m.ftime }])
      ∧ (3 ≤ x.attempt → x ∉ t.shards ∧ (x.part = none → ∃ c ∈ t.m.incomplete, c.1 = x.name))
    (∀ (slot : Nat) (p : Option Nat) (at_ : Nat), at_ = 288 * slot + (match p with
          | none => s.m.shardRing + 65536 | some p => (s.part p).e.service + 0x4100) →
        (match p with | none => s.m.shardRing ≠ 0 ∧ slot < 2048 | some p => (s.part p).e.service ≠ 0 ∧ slot < 169) →
      let name := s.mem.num at_ 24
      let content := s.mem.bytes (at_ + 32) 256
      let clean := s.mem.num (at_ + 24) 8 = 0
      (∀ hit u, p = none → clean → lookAlloc s 0 s.m.providerSalt false content = .ok (hit, name, u) →
        exec (.shardDelivery p slot) s = .next { u with shards := s.shards.filter fun x => !(x.name == name && x.part.isNone) })
      ∧ (∀ x, s.shards.find? (fun y => y.name == name && y.part == p) = some x →
        (¬ clean → ∃ t, exec (.shardDelivery p slot) s = .next t ∧ again x t ∧ t.objs = s.objs)
        ∧ (∀ hit got u, p = none → clean → lookAlloc s 0 s.m.providerSalt false content = .ok (hit, got, u) → got ≠ name →
            ∃ t, exec (.shardDelivery p slot) s = .next t ∧ again x t ∧ t.objs = s.objs)
        ∧ (∀ c, p = none → clean → lookAlloc s 0 s.m.providerSalt false content = .error c →
            ∃ t, exec (.shardDelivery p slot) s = .next t ∧ again x t ∧ t.objs = s.objs)
        ∧ (∀ k e, p = some k → (s.part k).restoring = some e → (∀ y ∈ e.names, y.1 = name →
              indexedName (withFetched s k e) (spaceOf k y.2.1) (exportSalt s e y.2.1) (y.2.2 != 0) content ≠ some name) →
            ∃ t, exec (.shardDelivery p slot) s = .next t ∧ again x t ∧ t.objs = s.objs))
      ∧ (∀ k e ns lv, p = some k → clean → (s.part k).restoring = some e → (name, ns, lv) ∈ e.names →
          indexedName (withFetched s k e) (spaceOf k ns) (exportSalt s e ns) (lv != 0) content = some name → ∃ t, exec (.shardDelivery p slot) s = .next t
            ∧ (t.part k).fetched = (s.part k).fetched ++ [(name, content)] ∧ t.shards = s.shards.filter fun y => !(y.name == name && y.part == some k)))
    ∧ (∀ x ∈ s.shards, (∀ y ∈ s.shards, y.name = x.name → y = x) → x.tick + 2 ^ 30 ≤ s.m.ftime → ∃ t, exec (.shardTimeout x.name) s = .next t ∧ again x t)
    ∧ ∀ name, (∀ x ∈ s.shards, x.name = name → s.m.ftime < x.tick + 2 ^ 30) → exec (.shardTimeout name) s = .next s

/-! ### Settling, translation and contexts -/

/-- R52, R54, R59, R69 to R72: RKST settles the pair at its register: vd becomes rne(a × σ + b) in every lane and is F under
FP32, vd + 1 keeps a and is F under RAW, the slot loses a holder and is freed with its last, the flags are raised; an F
register has no effect, a σ that has not arrived waits or traps PENDRD, E waits or traps EMPTYRD, a failed slot with TF traps.
RKST.all settles every pair, or waits; that a wait leaves the state as at issue, the earlier pairs pending again, is the model's
choice (log 54, DEDUCED). -/
def Obligations.Settling : Prop :=
  ∀ (f : Fields) (s : State) (gid sub : Nat), Issuing s gid sub →
    let g := s.group gid
    let next := nextPc f s gid sub
    let lane := fun (p k l : Nat) => FFmt.f32.fma .rne false false (g.lane (p + 1) l).toNat (g.win.num (g.u + 1024 * k + 4 * l) 4) (g.lane p l).toNat
    let settles := fun (h : Group) (p k : Nat) => (∀ l < 256, h.lane p l = BitVec.ofNat 32 (lane p k l).1)
      ∧ h.st p = .full ∧ h.st (p + 1) = .full ∧ (∀ x ∈ Group.granules (1024 * p) 1024, h.tagAt x = .f32)
      ∧ ∀ x ∈ Group.granules (1024 * (p + 1)) 1024, h.tagAt x = .raw
    let able := fun (k : Nat) => (g.slot k).arr = true ∧ ¬ ((g.slot k).fail = true ∧ (g.slot k).tf = true)
    (∀ n : Fin 64, f.a = .v n → n.val % 2 = 0 → RefsOk g [{ o := f.a, bt := f.btA }] [] → g.memues = [] →
      (g.st n.val = .full → Does (.rkst f) s gid sub next s)
      ∧ (g.st n.val = .empty → f.btA = false → Waits (.rkst f) s s)
      ∧ (g.st n.val = .empty → f.btA = true → Traps (.rkst f) f s gid sub s { cause := 0x06, tval := BitVec.ofNat 64 n.val })
      ∧ ∀ k, g.st n.val = .pend k →
        let x := g.slot k
        (x.arr = false → f.btA = false → Waits (.rkst f) s s)
        ∧ (x.arr = false → f.btA = true → Traps (.rkst f) f s gid sub s { cause := 0x07, tval := BitVec.ofNat 64 n.val })
        ∧ (x.arr = true → x.fail = true → x.tf = true →
            Traps (.rkst f) f s gid sub s { cause := if x.cause then 0x17 else 0x12, tval := BitVec.ofNat 64 k })
        ∧ (able k → ∃ t, exec (.rkst f) s = .next t ∧ OnlyGroups s t ∧ OthersKept s t gid ∧ settles (t.group gid) n.val k
          ∧ Raised s t g.ident.tid (orFlags ((List.range 256).map fun l => (lane n.val k l).2) ||| if x.anv || x.fail then Flag.nv else 0)
          ∧ (t.group gid).slot k = { x with holders := x.holders - 1, busy := x.busy && decide (1 < x.holders) }
          ∧ (∀ j, j ≠ k → (t.group gid).slot j = g.slot j) ∧ (∀ r, r ≠ n.val → r ≠ n.val + 1 → (t.group gid).st r = g.st r)
          ∧ (∀ a, a < 1024 * n.val ∨ 1024 * n.val + 1024 ≤ a → (t.group gid).win.read a = g.win.read a)
          ∧ WindowIssued g (t.group gid) sub next))
    ∧ ((∀ r < 64, ∀ k, g.st r ≠ .pend k) → Does (.rkstAll f) s gid sub next s)
    ∧ (∀ p k, p < 64 → p % 2 = 0 → g.st p = .pend k → (g.slot k).arr = false → (∀ r < p, r % 2 = 0 → ∀ j, g.st r = .pend j → able j) →
        Waits (.rkstAll f) s s)
    ∧ ((∀ r < 64, ∀ k, g.st r = .pend k → g.st (r - r % 2) = .pend k ∧ able k ∧ 1024 * (r - r % 2) + 2048 ≤ g.u) →
      ∃ t, exec (.rkstAll f) s = .next t ∧ OthersKept s t gid ∧ (∀ r < 64, ∀ k, (t.group gid).st r ≠ .pend k)
        ∧ (∀ p < 64, ∀ k, p % 2 = 0 → g.st p = .pend k → settles (t.group gid) p k)
        ∧ (∀ a, (∀ p < 64, ∀ k, p % 2 = 0 → g.st p = .pend k → a < 1024 * p ∨ 1024 * p + 1024 ≤ a) → (t.group gid).win.read a = g.win.read a)
        ∧ WindowIssued g (t.group gid) sub next)

/-- R222, R273, R275, R279, R281, R357, R358, R439: TLBI drops its partition's entries, is over when nothing translated under
them is open, and then the partition's watched ranges are translated again; CTXS begins the group's save while a PREEMPT is
served, its gates open, and else traps PROT 0x700; CTXR answers the first failing check of a context image, and installs it
under code 0. Without privilege TLBI and CTXR trap PRIV. The model's choices: TLBI drops the entries of the larger page about
the address and waits for everything of its partition (log 42, DEDUCED); the order and cases of CTXR's codes (log 41, DEDUCED);
code 1 for a body that spells no context (log 14, DESIGN CHOICE). -/
def Obligations.SystemWords : Prop :=
  ∀ (f : Fields) (s : State) (gid sub : Nat), Issuing s gid sub →
    let g := s.group gid
    let lid := g.ident.lid
    let next := nextPc f s gid sub
    let v := fun (o : Opd) => match o with | .s k => g.scal k.val | _ => 0
    let a := (v f.a).toNat
    let p := (v f.b).toNat
    ((s.launch lid).priv = false → ∀ i ∈ [Instr.tlbiVa f, .tlbiIa f, .tlbiAll f, .ctxr f], ∀ o c y, i.word? = some (o, c, y) →
        Traps i f s gid sub s { cause := 0x03, tval := BitVec.ofNat 64 o })
    ∧ ((s.launch lid).priv = true → Delivered g [f.a, f.b] →
      ∀ w ∈ [(Instr.tlbiVa f, fun (e : TlbE) => samePage a e.va),
             (Instr.tlbiIa f, fun e => samePage a e.ia), (Instr.tlbiAll f, fun _ => true)],
        let u : State := { s with
          tlb := s.tlb.filter fun e => !(e.part == p && w.2 e), rootPages := s.rootPages.filter fun c => c.1 != p || rootPage s p c.2 }
        let x : Part := u.part p
        let v : State := if x.watch.isEmpty then u else u.setPart p { x with watch := x.watch.map fun c => (c.1, { c.2 with spans := watchSpans u p c.2.va c.2.len }) }
        (23 < p → Traps w.1 f s gid sub s { cause := 0x0A, tval := 0xA00 })
        ∧ (p ≤ 23 → enginePending s p = true → Waits w.1 s u)
        ∧ (p ≤ 23 → enginePending s p = false →
            (∀ c ∈ s.accesses, (s.team c.2.tid).part = p → c.2.tw ≤ s.m.ftime ∧ ∀ e ∈ c.2.elems, c.2.waits e = false) →
            Does w.1 s gid sub next v))
    ∧ (Delivered g [f.a] → g.csr.budget < 2 ^ 32 →
      (∀ t0, g.pre = .served t0 → s.m.ftime < t0 + g.csr.budget → t0 ≤ s.m.ftime → ∃ u, Does (.ctxs f) s gid sub next u
        ∧ u = { s with groups := u.groups, engines := u.engines, copies := u.copies } ∧ OthersKept s u gid
        ∧ u.group gid = { g with saving := some ⟨v f.a, false⟩, csr := { g.csr with pend := false }, wrote := [] }
        ∧ (∀ c ∈ u.copies, c.2.gid = gid → c.2.gate = none) ∧ ∀ e ∈ u.engines, ∀ x ∈ e.2.queue, x.gid = gid → x.gate = none)
      ∧ ((∀ t0, g.pre = .served t0 → t0 + g.csr.budget ≤ s.m.ftime) → Traps (.ctxs f) f s gid sub s { cause := 0x0A, tval := 0x700 }))
    ∧ ((s.launch lid).priv = true → Delivered g [f.a, f.b] → storePending s gid a 96 = false → ∀ h y, groupRead s g (policy g f) a 96 = .ok (y, h) →
      let n := fun (o k : Nat) => natOfBytes ((h.drop o).take k)
      let grp := if n 4 1 = 1 then some (n 7 1) else none
      let answers := fun (u : State) (code : W64) => Does (.ctxr f) s gid sub next (withS u gid f.d code)
      (ctxHeader y p a h = false → answers y 1)
      ∧ ∀ body z, ctxHeader y p a h = true → storePending y gid (a + 96) (n 0x10 8) = false → groupRead y g (policy g f) (a + 96) (n 0x10 8) = .ok (z, body) →
        let fails : List (Bool × W64) := [(Sha.sha384 body != Sha.beNat ((h.drop 0x20).take 48), 2),
          (s.launches.all fun l => !(l.2.part == p && l.2.r.id == n 8 4), 3),
          (decide (2 ^ 20 * (s.part p).e.ctxMib < contextUse s p + contextBound s (n 4 1) (n 5 1) p (n 8 4)), 4),
          (s.contexts.any fun c => c.part == p && c.launch == n 8 4 && c.team == n 0xC 4 && c.group == grp, 5)]
        (∀ (k : Nat) (code : W64), fails[k]? = some (true, code) → (∀ j < k, ∀ (z : Bool × W64), fails[j]? = some z → z.1 = false) → answers z code)
        ∧ ((∀ (z : Bool × W64), z ∈ fails → z.1 = false) → bodyContext s h body = none → answers z 1)
        ∧ ((∀ (z : Bool × W64), z ∈ fails → z.1 = false) → ∀ x, bodyContext s h body = some x → ∃ u, answers u 0
          ∧ u = { z with contexts := s.contexts ++ [{ (if x.part = p then x else x.moveTo p) with part := p, launch := n 8 4, team := n 0xC 4, group := grp, image := h ++ body }], launches := u.launches }
          ∧ ∀ l, findLaunch s p (n 8 4) = some l → (u.launch l).toStart = (s.launch l).toStart.map fun y =>
              if y.1 = n 0xC 4 then (y.1, true) else y))

/-! ### The module as a whole -/

/-- R9, R11, R12, R13, R15, R42: power-up, reset and power loss leave nothing but the dies' non-volatile areas, with the records of
a publication that power loss interrupts; the boot window's commands and their error codes; the governor's clock step, at the
multiples of 1000 ticks and not below 1/16, counted as it falls; a pool split is taken when legal on an empty core, and
refused otherwise. The model's choices: the clock's multiples, and 0x05 before 0x06 (log 75); LOADFW ends at stage 3 in one step
(log 67); the records torn by a power loss (log 68); what stands without power (log 55); the verdict on an image (log 13). -/
def Sys2Proof.Claim.PowerAndBoot : Prop :=
  ∀ s : State,
    (∀ i ∈ [Instr.powerUp, .moduleReset, .powerLoss], (i = .powerLoss → s.m.torn = none) → ∃ t, exec i s = .next t
      ∧ t = { dies := t.dies, hostMem := s.hostMem, domainMem := s.domainMem, exports := s.exports, bodies := s.bodies, agenda := s.agenda, rotor := s.rotor
              free := s.free, nextId := s.nextId }
      ∧ ∀ d, (t.die d).recs = (s.die d).recs ∧ (t.die d).snaps = (s.die d).snaps ∧ (t.die d).tiles = (s.die d).tiles
        ∧ (t.die d).journal = (s.die d).journal ∧ (t.die d).reqOwner = [] ∧ (t.die d).rspOwner = [])
    ∧ (∀ n k done, s.m.torn = some (n, k, done) → ∃ t, exec .powerLoss s = .next t ∧ t.groups = [] ∧ t.mem = [] ∧ ∀ d < 16,
        (pubCode s n k ≠ 0 ∨ d ∉ diesOf (s.bind k).dies → (t.die d).recs = (s.die d).recs)
        ∧ (pubCode s n k = 0 → d ∈ diesOf (s.bind k).dies → ∃ r, (t.die d).recs = (s.die d).recs ++ [r] ∧ r.bind = n ∧ r.retired = false
            ∧ r.committed = done.contains d ∧ r.entry.gen = (if (s.bind n).state = 2 then (s.bind n).gen else 0) + 1 ∧ r.tiles = tilesOf s (s.bind k)))
    ∧ (s.m.busy = true → ∀ v : BitVec 32, v ≠ 1 → v ≠ 2 → ∀ i ∈ [Instr.loadfw, .attest, .hcmdUnknownCode v],
        exec i s = .next { s with m := { s.m with errc := 5 } })
    ∧ (s.m.busy = false → ∀ v : BitVec 32, v ≠ 1 → v ≠ 2 → exec (.hcmdUnknownCode v) s = .next { s with m := { s.m with hcmd := v, errc := 7 } })
    ∧ (s.m.busy = false → s.m.stage ≠ 0 → s.m.stage ≠ 15 → exec .loadfw s = .next { s with m := { s.m with hcmd := 1, errc := 6 } })
    ∧ (s.m.busy = false → s.m.stage ≠ 6 → exec .attest s = .next { s with m := { s.m with hcmd := 2, errc := 6 } })
    ∧ (s.m.busy = false → (s.m.stage = 0 ∨ s.m.stage = 15) →
      let image := s.hostMem.bytes s.m.haddr.toNat s.m.hlen.toNat
      (s.m.portFails = true ∨ 2 ^ 64 < s.m.haddr.toNat + s.m.hlen.toNat → exec .loadfw s = .next { s with m := { s.m with hcmd := 1, stage := 15, errc := 4 } })
      ∧ (s.m.portFails = false → s.m.haddr.toNat + s.m.hlen.toNat ≤ 2 ^ 64 → Config.imageVerdict image = 0 → ∃ t, exec .loadfw s = .next t
        ∧ t = { s with m := t.m, mem := [], leases := [] } ∧ t.m.stage = 3 ∧ t.m.busy = true ∧ t.m.errc = 0 ∧ t.m.dieok = 0
        ∧ t.m.imageHash = Sha.sha384 image)
      ∧ (s.m.portFails = false → s.m.haddr.toNat + s.m.hlen.toNat ≤ 2 ^ 64 → Config.imageVerdict image ≠ 0 → ∃ e ∈ [(1 : BitVec 8), 2, 3],
          exec .loadfw s = .next { s with m := { s.m with hcmd := 1, stage := 15, errc := e } }))
    ∧ (∀ up, s.m.ftime % 1000 ≠ 0 ∨ s.m.governed = some s.m.ftime → exec (.governorEstimate up) s = .next s)
    ∧ (∀ up, s.m.ftime % 1000 = 0 → s.m.governed ≠ some s.m.ftime → exec (.governorEstimate up) s = .next { s with m := { s.m with
          governed := some s.m.ftime
          clockStep := if up then (if s.m.clockStep < 15 then s.m.clockStep + 1 else s.m.clockStep) else s.m.clockStep - 1
          throttle := if up = true ∧ s.m.clockStep < 15 then s.m.throttle + 1 else s.m.throttle } })
    ∧ ∀ (core : Nat) (b0 b1 b2 : BitVec 8),
      let ok := core < 96 ∧ b0 ≠ 0 ∧ b0.toNat + b1.toNat + b2.toNat ≤ 96 ∧ coreEmpty s core = true
      (¬ ok → exec (.bndWrite core b0 b1 b2) s = .next s)
      ∧ (ok → ∃ t, exec (.bndWrite core b0 b1 b2) s = .next t ∧ t = { s with cores := t.cores, copies1 := t.copies1 }
        ∧ t.core core = { s.core core with bnd0 := b0, bnd1 := b1, bnd2 := b2 } ∧ (∀ k, k ≠ core → t.core k = s.core k)
        ∧ t.copies1 = s.copies1.filter fun c => c.core != core)

/-- R12, R42, R141, R143, R144, R164, R174, R186, R187, R219, R223, R285, R292, R293, R295, R300 to R302: the registers that the host
and firmware write, and what reaches the module from outside. A store of firmware's that maps a page beyond the quota, or a
retired one, is not made (log 81). The model's choice, of events that the spec leaves without a form: that a spare is named by
tile and what a fresh load of an image clears (log 57, DEDUCED), the failures that `portFails`, `powerFailing` and `probeFails` announce (log 1), what an L2 eviction
takes (log 8), `exportDone` (log 59), `dieRemoved` (log 62), the export that `hostExport` offers (log 80), the memories of host
and domain as stores from outside see them (log 7), and pages granted or exported by list (log 47). -/
def Sys2Proof.Claim.RegisterWrites : Prop :=
  ∀ s : State,
    let m := s.m
    let writes := fun (r : RegWrite) (u : State) => exec (.registerWrite r) s = .next u
    (∀ v, writes (.haddr v) { s with m := { m with haddr := v } }) ∧ (∀ v, writes (.hlen v) { s with m := { m with hlen := v } })
    ∧ (∀ mib, writes (.pool mib) { s with m := { m with providerPool := mib } }) ∧ (∀ pa, writes (.shardRing pa) { s with m := { m with shardRing := pa } })
    ∧ (∀ bytes : List Byte, bytes.length = 32 → writes (.salt bytes) { s with m := { m with providerSalt := natOfBytes bytes } })
    ∧ (∀ p w base len rd wr, p < 24 → w < 16 → base % 4096 = 0 → len % 4096 = 0 → ∃ t, writes (.window p w base len rd wr) t
        ∧ Tbl.get {} (t.part p).windows w = ⟨base, len, rd, wr⟩ ∧ ∀ j, j ≠ w → Tbl.get {} (t.part p).windows j = Tbl.get {} (s.part p).windows j)
    ∧ (∀ p w base len rd wr, (24 ≤ p ∨ 16 ≤ w ∨ base % 4096 ≠ 0 ∨ len % 4096 ≠ 0) → writes (.window p w base len rd wr) s)
    ∧ (∀ p b0 b1 b2, p < 24 → b0 ≠ 0 → b0.toNat + b1.toNat + b2.toNat ≤ 96 →
        ∃ t, writes (.split p b0 b1 b2) t ∧ t.part p = { s.part p with split := (b0, b1, b2) })
    ∧ (∀ die plot tile, ((s.die die).tile plot tile).state = 1 → tileBound s ⟨die, plot, tile⟩ = false →
        ∃ t, writes (.tileFree die plot tile) t ∧ (t.die die).tile plot tile = { (s.die die).tile plot tile with state := 0 })
    ∧ (∀ die plot tile, (((s.die die).tile plot tile).state ≠ 1 ∨ tileBound s ⟨die, plot, tile⟩ = true) → writes (.tileFree die plot tile) s)
    ∧ (∀ root, ∃ t, writes (.freshImage root) t ∧ ∀ x, x ∈ t.m.incomplete ↔ x ∈ m.incomplete ∧ x.2 ≠ root ∧ x.2 ≠ 0)
    ∧ (∀ n : Tile, n.die < 16 → n.plot ≤ 255 → n.tile ≤ 1055 → ((s.die n.die).tile n.plot n.tile).state = 0 → tileBound s n = false →
        writes (.spareTile n.die n.plot n.tile) { s with m := { m with named := Tbl.set m.named n.die n } })
    ∧ (∀ n : Tile, (16 ≤ n.die ∨ 255 < n.plot ∨ 1055 < n.tile ∨ ((s.die n.die).tile n.plot n.tile).state ≠ 0 ∨ tileBound s n = true) →
        writes (.spareTile n.die n.plot n.tile) s)
    ∧ (∀ (pa : Nat) (bytes : List Byte), (∀ i < bytes.length, pa + i < 2 ^ 41 ∧ Tbl.look s.reverse ((pa + i) / 65536) = none) →
        let u := (applyStore s (.pa pa false false) bytes).1
        ((∀ c ∈ s.parts, leavesOf u c.1 = leavesOf s c.1 ∧ rootsOf1 u c.1 = rootsOf1 s c.1) → ∃ t, writes (.memory pa bytes) t ∧ PlaceWritten s t (.pa pa false false) bytes
          ∧ t.reverse = s.reverse)
        ∧ ∀ p, (∃ c ∈ s.parts, c.1 = p) → (∀ c ∈ s.parts, c.1 ≠ p → leavesOf u c.1 = leavesOf s c.1) →
          (∃ x ∈ leavesOf u p, x ∉ leavesOf s p ∧ x.2.remote = false ∧ (2 ^ 30 * (s.part p).e.quota ≤ x.1
            ∨ ∃ k ∈ m.retiredPages, x.2.final / 65536 ≤ k ∧ k < (x.2.final + x.2.size) / 65536)) → writes (.memory pa bytes) s)
    ∧ (∀ (pa : Nat) (bytes : List Byte), (∃ i < bytes.length, 2 ^ 41 ≤ pa + i ∨ Tbl.look s.reverse ((pa + i) / 65536) ≠ none) → writes (.memory pa bytes) s)
    ∧ (∀ page o, page < 2 ^ 25 → page ∉ m.retiredPages → ∃ t, writes (.reverse page o) t ∧ Tbl.look t.reverse page = o
        ∧ ∀ k, k ≠ page → Tbl.look t.reverse k = Tbl.look s.reverse k)
    ∧ (∀ page o, page ∈ m.retiredPages → writes (.reverse page o) s)
    ∧ (∀ page on, 2 ^ 25 ≤ page → writes (.hostGrant page on) s)
    ∧ (∀ modno part page count, 2 ^ 25 < page + count → writes (.domainExport modno part page count) s)
    ∧ (∀ page on, page < 2 ^ 25 → ∃ t, writes (.hostGrant page on) t ∧ (page ∈ t.m.granted ↔ on = true) ∧ ∀ k, k ≠ page → (k ∈ t.m.granted ↔ k ∈ m.granted))
    ∧ (∀ modno part page count, page + count ≤ 2 ^ 25 → ∃ t, writes (.domainExport modno part page count) t ∧ ∀ x, x ∈ t.m.exportsTo ↔
        (x ∈ m.exportsTo ∧ ¬ (x.1 = modno ∧ x.2.1 = part ∧ x.2.2.1 = page)) ∨ (count ≠ 0 ∧ x = (modno, part, page, count)))
    ∧ (∀ p page count, ∃ t, writes (.domainImport p page count) t ∧ ∀ x, x ∈ t.m.imports ↔
        (x ∈ m.imports ∧ ¬ (x.1 = p ∧ x.2.1 = page)) ∨ (count ≠ 0 ∧ x = (p, page, count)))
    ∧ (∀ pa, ∃ t, writes (.l2Evict pa) t ∧ t = { s with leases := t.leases, setBounds := t.setBounds }
        ∧ ∀ line, line % 128 = 0 → setKey line = setKey (lineOf pa) → leaseEnd s (lineOf pa) ≤ leaseEnd t line)
    ∧ (∀ a bytes, ∃ t, writes (.hostStore a bytes) t ∧ PlaceWritten s t (.host a) bytes)
    ∧ (∀ a bytes, a / 2 ^ 46 ≠ m.modno → ∃ t, writes (.domainStore a bytes) t ∧ PlaceWritten s t (.dom a) bytes)
    ∧ (∀ d < 16, ∃ t, writes (.dieRemoved d) t ∧ t.m = { m with removed := m.removed ||| BitVec.ofNat 16 (2 ^ d) }
        ∧ ∀ p, d ∉ (t.part p).e.dies ∧ ∀ k, k ≠ d → (k ∈ (t.part p).e.dies ↔ k ∈ (s.part p).e.dies))
    ∧ (∀ p, (s.part p).e.state = 4 → (s.part p).exportAt ≠ none → (s.part p).stopping = false → ∃ t, writes (.exportDone p) t
        ∧ (t.part p).refuse = true ∧ (t.part p).held = [] ∧ MemoriesSame s t)
    ∧ (∀ on, writes (.portFails on) { s with m := { m with portFails := on } })
    ∧ (∀ n k done, writes (.powerFailing n k done) { s with m := { m with torn := some (n, k, done) } })
    ∧ (∀ l, writes (.probeFails l) { s with m := { m with probeFails := l } })
    ∧ (∀ addr k, ∃ t, writes (.hostExport addr k) t ∧ findExport t addr = some { Config.foreignExport k with addr := addr })

/-- `PowerAndBoot` and `RegisterWrites`, together. -/
def Obligations.MachineAndRegisters : Prop := Claim.PowerAndBoot ∧ Claim.RegisterWrites

/-- R13, R15 to R18, R133, R136, R139: a die's self-test is recorded once and a passing die's journals are replayed, slots that hold
no record being counted; with the last die the bindings are rebuilt from their committed records; warm calibration makes the
module READY and sets when each binding's next epoch falls due; ATTEST writes its report and signature, or fails. The model's
choices: what the rebuilt bindings take from the records (log 68, DEDUCED); WARM_CALIBRATION and ATTEST in one step (log 67,
DEDUCED); how ATTEST fails (log 75). -/
def Obligations.BringUp : Prop :=
  ∀ s : State,
    (∀ (die : Nat) (ok : Bool),
      let bit := BitVec.ofNat 16 (2 ^ die)
      let valid := fun (a : JRec) => decide (1 ≤ a.state) && decide (a.state ≤ 4) && a.pad == 0
      (s.m.stage ≠ 3 ∨ 16 ≤ die ∨ s.m.tested.getLsbD die = true → exec (.laurelSelfTestDone die ok) s = .next s)
      ∧ (s.m.stage = 3 → die < 16 → s.m.tested.getLsbD die = false → ∃ t, exec (.laurelSelfTestDone die ok) s = .next t
        ∧ t.m.tested = s.m.tested ||| bit ∧ t.m.enabled = (if ok then s.m.enabled ||| bit else s.m.enabled)
        ∧ t.m.stage = (if s.m.tested ||| bit = BitVec.allOnes 16 then 5 else 3)
        ∧ t.m.journalFaults = s.m.journalFaults + (if ok then ((s.die die).journal.map fun c =>
            (c.2.filter fun a => !valid a && !(a.pad == 0 && (a.state == 0 || a.state == 0xFF))).length).foldl (· + ·) 0 else 0)
        ∧ (s.m.tested ||| bit = BitVec.allOnes 16 → ∀ n < 256,
          ((∀ d, ∀ y ∈ (s.die d).recs, y.bind = n → y.retired = true) → t.bind n = s.bind n)
          ∧ ∀ r, (∀ d, ∀ y ∈ (s.die d).recs, y.bind = n → y = r) → r.bind = n → r.committed = true → r.retired = false → r.entry.dies ≠ 0 →
            (∀ d ∈ diesOf r.entry.dies, t.m.enabled.getLsbD d = true ∧ r ∈ (s.die d).recs) →
            let b := t.bind n
            b = { r.entry with state := 2, fwd := b.fwd, tra := b.tra, colE := b.colE, rowE := b.rowE, map := b.map })
        ∧ (ok = true → Tbl.sorted (s.die die).journal = true →
            (∀ c ∈ (s.die die).journal, ((c.2.filter valid).map (·.seq)).Nodup ∧ ∀ a ∈ c.2, a.tile < 2048) →
            ∀ c ∈ (s.die die).journal, ∀ a ∈ c.2, valid a = true → (∀ b ∈ c.2, valid b = true → b.tile = a.tile → b.row = a.row → b.seq ≤ a.seq) →
              let x := (t.die die).tile c.1 a.tile
              (a.state = 3 → a.row ∈ x.committed) ∧ (a.state = 1 ∨ a.state = 2 → a.row ∉ x.committed ∧ Tbl.look x.rows a.row = none))))
    ∧ (∀ modno, (s.m.stage ≠ 5 ∨ 640 ≤ modno → exec (.warmCalibration modno) s = .next s)
      ∧ (s.m.stage = 5 → modno < 640 → ∃ t, exec (.warmCalibration modno) s = .next t
        ∧ t.m.stage = 6 ∧ t.m.busy = false ∧ t.m.errc = 0 ∧ t.m.dieok = s.m.enabled ∧ t.m.modno = modno
        ∧ ∀ n < 256, (s.bind n).state = 2 →
          (snapOf s n = none → Tbl.look t.due n = some s.m.ftime ∧ t.bind n = s.bind n)
          ∧ ∀ x, snapOf s n = some x → Tbl.look t.due n = some (s.m.ftime + if (s.bind n).period = 0 then 2 ^ 30 else (s.bind n).period)
              ∧ t.bind n = { s.bind n with cgen := x.cgen + 1 }))
    ∧ (s.m.busy = false → s.m.stage = 6 →
      let a := s.m.haddr.toNat
      let n := (s.binds.filter fun c => c.2.state == 2 && decide (c.1 < 256)).length
      (s.m.hlen.toNat < 64 + (0xE0 + 48 * n + 96) → exec .attest s = .next { s with m := { s.m with hcmd := 2, errc := 8 } })
      ∧ (64 + (0xE0 + 48 * n + 96) ≤ s.m.hlen.toNat → (s.m.portFails = true ∨ 2 ^ 64 < a + 64 + (0xE0 + 48 * n + 96)) →
        exec .attest s = .next { s with m := { s.m with hcmd := 2, errc := 4 } })
      ∧ (64 + (0xE0 + 48 * n + 96) ≤ s.m.hlen.toNat → s.m.portFails = false → a + 64 + (0xE0 + 48 * n + 96) ≤ 2 ^ 64 → ∃ t, exec .attest s = .next t
        ∧ t.mem = s.mem ∧ t.m = { s.m with hcmd := 2, errc := 0 }
        ∧ (∀ x, x < a + 64 ∨ a + 64 + (0xE0 + 48 * n + 96) ≤ x → t.hostMem.read x = s.hostMem.read x)
        ∧ t.hostMem.num (a + 64) 4 = 1 ∧ t.hostMem.num (a + 68) 4 = 0xE0 + 48 * n + 96 ∧ t.hostMem.bytes (a + 72) 48 = s.hostMem.bytes a 48
        ∧ t.hostMem.num (a + 64 + 0x38) 8 = s.m.ftime % 2 ^ 64 ∧ t.hostMem.num (a + 64 + 0xD0) 2 = s.m.dieok.toNat
        ∧ (n < 65536 → t.hostMem.num (a + 64 + 0xD2) 2 = n)
        ∧ ∀ (i : Nat) (k : Nat) (b : BindE), (s.binds.filter fun c => c.2.state == 2 && decide (c.1 < 256))[i]? = some (k, b) →
            let at_ := a + 64 + 0xE0 + 48 * i
            t.hostMem.num at_ 2 = k ∧ t.hostMem.num (at_ + 4) 4 = b.gen.toNat ∧ t.hostMem.num (at_ + 8) 24 = b.root % 2 ^ 192
            ∧ t.hostMem.num (at_ + 32) 4 = b.din % 2 ^ 32 ∧ t.hostMem.num (at_ + 36) 4 = b.dout % 2 ^ 32 ∧ t.hostMem.num (at_ + 40) 2 = b.dies.toNat))

/-! ### Turns, saves and launches -/

/-- R26, R31, R32, R35, R249, R266, R268, R272 to R274, R276: a rod's next bound position takes its turn: a save that is due, a
PREEMPT that is due, or the group's sub-groups in order, the held ones and those frozen by a handler left out, unless the group
waits for a coalescer record; PREEMPT's delivery; the ends of grace and budget, which begin a forced save; a slice end, which
requests a PREEMPT of every group of the launch. That every sub-group may issue again when the handler's sub-group has vanished
is the model's choice (log 30, DEDUCED). -/
def Obligations.TurnsAndPreemption : Prop :=
  ∀ s : State,
    (∀ core rod, rod < 16 → NothingSwept s → s.issue = none →
      ((∀ p < 8, (Tbl.get {} (s.core core).binds (16 * p + rod)).state ≠ 1) → exec (.groupTurn core rod) s = .next s)
      ∧ ∀ p, TurnAt s core rod p →
        let gid := (Tbl.get {} (s.core core).binds (16 * p + rod)).gid
        let g := s.group gid
        let due := (∃ t, g.pre = .asked t) ∧ g.csr.m = false ∧ g.saving = none
        let late := g.saving = none ∧ ∃ t, g.pre = .asked t ∧ g.csr.m = true ∧ t + 20000 ≤ s.m.ftime
          ∨ g.pre = .served t ∧ t + g.csr.budget ≤ s.m.ftime
        let stuck := g.hang ≠ .no ∧ (g.hang = .full → 32 ≤ (s.core g.ident.core).recs.length)
        let moved := fun (t : State) => Tbl.get 0 (t.core core).rodPos rod = (p + 1) % 8
        (Tbl.look s.groups gid).isSome = true →
        (due → ∃ t, exec (.groupTurn core rod) s = .next t ∧ moved t ∧ PreemptTaken s t gid)
        ∧ (late → ∃ t, exec (.groupTurn core rod) s = .next t ∧ moved t ∧ MemoriesSame s t ∧ OthersKept s t gid ∧ t.issue = none
          ∧ t.group gid = { g with saving := some ⟨BitVec.allOnes 64, true⟩, csr := { g.csr with pend := false }, wrote := [] })
        ∧ (¬ due → ¬ late → g.saving ≠ none ∨ stuck → ∃ t, exec (.groupTurn core rod) s = .next t ∧ moved t ∧ t = { s with cores := t.cores })
        ∧ (¬ due → ¬ late → g.saving = none → ¬ stuck →
          let h := { g.startTurn with hang := .no }
          let all := h.order.filter fun x => h.isSub x && !h.held x
          let tries := match h.handler with | some k => if h.isSub k then all.filter fun x => x == k || (h.sub x).mask &&& h.frozen == 0 else all | none => all
          ∃ t, exec (.groupTurn core rod) s = .next t ∧ moved t ∧ t.group gid = { h with wrote := [] } ∧ OthersKept s t gid ∧ MemoriesSame s t
            ∧ t.issue = match tries with | [] => none | x :: rest => some ⟨.group gid x, rest⟩))
    ∧ (∀ gid, (Tbl.look s.groups gid).isSome = true →
      let g := s.group gid
      let saves := fun (i : Instr) => ∃ t, exec i s = .next t ∧ MemoriesSame s t ∧ OthersKept s t gid
        ∧ t.group gid = { g with saving := some ⟨BitVec.allOnes 64, true⟩, csr := { g.csr with pend := false }, wrote := [] }
      (∀ t0, g.pre = .asked t0 →
        (g.csr.m = false → g.saving = none → ∃ t, exec (.preemptDelivery gid) s = .next t ∧ PreemptTaken s t gid)
        ∧ (g.csr.m = true → exec (.preemptDelivery gid) s = .next s)
        ∧ (g.csr.m = true → g.saving = none → t0 + 20000 ≤ s.m.ftime → saves (.preemptGraceExpiry gid))
        ∧ (s.m.ftime < t0 + 20000 ∨ g.csr.m = false → exec (.preemptGraceExpiry gid) s = .next s))
      ∧ ∀ t0, g.pre = .served t0 →
        (g.saving = none → t0 + g.csr.budget ≤ s.m.ftime → saves (.forcedSave gid))
        ∧ (s.m.ftime < t0 + g.csr.budget ∨ g.saving ≠ none → exec (.forcedSave gid) s = .next s))
    ∧ ∀ p id lid cores, NothingSwept s → findLaunch s p id = some lid → (∀ c, c ∈ cores ↔ c ∈ coresOf s lid) →
      (sliceEnds s lid = false → exec (.spatialPreemption p id cores) s = .next s)
      ∧ (sliceEnds s lid = true → ∃ t, exec (.spatialPreemption p id cores) s = .next t ∧ MemoriesSame s t
        ∧ ∀ x ∈ s.teams, x.2.lid = lid → ∀ gid ∈ x.2.gids, (Tbl.look s.groups gid).isSome = true → (s.group gid).pre = .no →
            (s.group gid).saving = none → (t.group gid).pre = .asked s.m.ftime ∧ (t.group gid).csr.pend = (s.group gid).csr.m)

/-- R78, R275, R276, R281, R282: a save waits until its waits are over; then the group leaves its slot, and its context holds its
registers, what is left of its budget and every KiB of the window that the mask names, that a register in E or P or an arrival
buffer holds, the others as zeros, after the results that are due have landed. R358: the save writes an image, its header in
the form that CTXR checks, with the body's length and SHA-384; the body's own bytes are the device's (log 14, the model's
choice). -/
def Obligations.ContextSaves : Prop :=
  ∀ (s : State) (gid : Nat) (x : Saving), (Tbl.look s.groups gid).isSome = true → (s.group gid).saving = some x →
    let g := (s.group gid).landDue s.m.ftime
    (saveReady s gid = false → exec (.contextSaveComplete gid) s = .next s)
    ∧ (saveReady s gid = true → ∃ t c h, exec (.contextSaveComplete gid) s = .next t ∧ Tbl.look t.groups gid = none
      ∧ OthersKept s t gid ∧ t.mem = s.mem ∧ c ∈ t.contexts ∧ c.part = g.ident.part ∧ c.launch = (s.launch g.ident.lid).r.id ∧ c.team = g.ident.team
      ∧ c.group = some g.ident.index ∧ c.g = some h ∧ h.s = g.s ∧ h.p = g.p ∧ h.slots = g.slots ∧ h.subs = g.subs ∧ h.csr = { g.csr with left := (match g.pre with | .served t0 => g.csr.budget - (s.m.ftime - t0) | _ => g.csr.left) }
      ∧ h.seq = g.seq ∧ h.cap = g.cap ∧ h.memues = g.memues
      ∧ ((s.launch g.ident.lid).killed = none → (Tbl.get {} (t.core g.ident.core).binds g.ident.slot).state = 0)
      ∧ (let n := fun (o k : Nat) => natOfBytes ((c.image.drop o).take k)
         let body := c.image.drop 96
         n 0 4 = 1 ∧ n 4 1 = 1 ∧ n 5 1 = g.ident.w % 256 ∧ n 6 1 = g.ident.k % 256 ∧ n 7 1 = g.ident.index % 256
         ∧ n 8 4 = c.launch % 2 ^ 32 ∧ n 0xC 4 = c.team % 2 ^ 32 ∧ n 0x10 8 = body.length % 2 ^ 64 ∧ n 0x18 8 = 0 ∧ n 0x50 16 = 0
         ∧ Sha.beNat ((c.image.drop 0x20).take 48) = Sha.sha384 body % 2 ^ 384 ∧ body.length ≤ 1024 * g.ident.w + 16384
         ∧ (g.ident.w < 256 → g.ident.k < 256 → bodyContext t c.image body = some c))
      ∧ ∀ i < g.ident.w, let kept := x.keep.getLsbD i = true ∨ g.ident.w - g.ident.k ≤ i ∨ g.st i ≠ .full
          (kept → h.win.bytes (1024 * i) 1024 = g.win.bytes (1024 * i) 1024)
          ∧ (¬ kept → ∀ a, 1024 * i ≤ a → a < 1024 * i + 1024 → h.win.read a = 0))

/-- R242, R244, R245, R247, R248: the record at a queue's head is read once and consumed: queued when it is valid, HEAD one higher,
or refused with its reason in a completion word, and with it the launches that wait on it; while its write-range table waits at
stage 2 the record is kept; a bad control block faults the queue, be it empty or not. A launch that is over stores its word and
resolves the waits on it. Where HEAD and the words are stored, that a kept record is the one consumed, that nothing is stored in
a ROOT page, and 0x0D passed on through waits are the model's choices (log 44). -/
def Sys2Proof.Claim.Launches : Prop :=
  ∀ (s : State),
    (∀ p q va cb, let x := s.part p
      (x.e.state = 1 ∨ x.e.state = 3) → x.ready = true → q < x.e.queues → x.qfault.getLsbD q = false → x.e.ctl[q]? = some va →
      readPrivate s p va 64 = .ok (s, cb) →
      let n := fun (o k : Nat) => natOfBytes ((cb.drop o).take k)
      let bad := n 4 4 ≠ 0 ∨ n 0x18 40 ≠ 0 ∨ n 0x10 8 % 128 ≠ 0 ∨ n 0xC 4 = 0 ∨ 4096 < n 0xC 4 ∨ n 0xC 4 &&& (n 0xC 4 - 1) ≠ 0
        ∨ n 0xC 4 < (n 0 4 + 2 ^ 32 - n 8 4) % 2 ^ 32
      (n 0 4 = n 8 4 → ¬ bad → exec (.launchConsume p q) s = .next s)
      ∧ (bad → ∃ t, exec (.launchConsume p q) s = .next t ∧ t.launches = s.launches
          ∧ (t.part p).qfault = x.qfault ||| BitVec.ofNat 16 (2 ^ q))
      ∧ ∀ b e, n 0 4 ≠ n 8 4 → ¬ bad →
          (Tbl.look x.taken q = some b
            ∨ Tbl.look x.taken q = none ∧ readPrivate s p (n 0x10 8 + 128 * (n 8 4 % n 0xC 4)) 128 = .ok (s, b)) →
          translate s p (va + 8) false false = .ok (s, e) → (e.place (va + 8)).isRoot = false →
        let r := LaunchRec.ofBytes b
        (∀ c, validate s p r b = .wait c → ∃ t, exec (.launchConsume p q) s = .next t ∧ t.launches = s.launches
          ∧ MemoriesSame s t ∧ Tbl.look (t.part p).taken q = some b)
        ∧ (∀ rs, validate s p r b = .accept rs → ∃ t l, exec (.launchConsume p q) s = .next t
          ∧ Tbl.look (t.part p).taken q = none
          ∧ PlaceWritten s t (e.place (va + 8)) (bytesOfNat 4 ((n 8 4 + 1) % 2 ^ 32))
          ∧ t.launches = Tbl.set s.launches s.nextId l ∧ l.part = p ∧ l.queue = q ∧ l.priv = false ∧ l.ranges = rs
          ∧ l.r = { r with lcores := if r.lcores = 0 then (partCores s p).length else r.lcores }
          ∧ l.toStart = (List.range r.teams).map (fun t => (t, false)) ∧ l.live = [] ∧ l.killed = none)
        ∧ (∀ code, validate s p r b = .refuse code → ∃ t, exec (.launchConsume p q) s = .next t
          ∧ Tbl.look (t.part p).taken q = none
          ∧ (∀ k, Tbl.look s.launches k = none → Tbl.look t.launches k = none)
          ∧ (∀ k l, Tbl.look s.launches k = some l → ∃ z, Tbl.look t.launches k = some z ∧ (z = l ∨ z = { l with refused := true } ∧ l.part = p ∧ r.id ∈ l.waits))
          ∧ (r.done ≠ 0 → r.done.toNat % 8 = 0 → ∀ d, translate s p r.done.toNat true false = .ok (s, d) →
              (code ≠ 8 → ∀ k l, Tbl.look s.launches k = some l → l.part = p → r.id ∈ l.waits → (t.launch k).refused = true)
              ∧ ∃ u, PlaceWritten s u (e.place (va + 8)) (bytesOfNat 4 ((n 8 4 + 1) % 2 ^ 32)) ∧ u.reverse = s.reverse
                ∧ (∀ k, { u.part k with taken := [] } = { s.part k with taken := [] })
                ∧ ((d.place r.done.toNat).isRoot = false → outOfReach s (d.place r.done.toNat) 8 = false → StoredAt u t (d.place r.done.toNat) (bytesOfNat 8 (r.id % 2 ^ 32 + 2 ^ 32 + code * 2 ^ 40))))))
    ∧ ∀ lid l, Tbl.look s.launches lid = some l → sweep s = s →
      let ends := fun (status reason : Nat) => ∃ t, exec (.launchCompletion lid) s = .next t ∧ Tbl.look t.launches lid = none
        ∧ WordAt s t l.part l.r.done.toNat (BitVec.ofNat 64 (l.r.id % 2 ^ 32 + status * 2 ^ 32 + reason * 2 ^ 40))
        ∧ ∀ k y, k ≠ lid → Tbl.look s.launches k = some y → y.part = l.part → l.r.id ∈ y.waits → l.r.id < 2 ^ 32 →
            (∃ d, translate s l.part l.r.done.toNat true false = .ok (s, d)) → ∃ z, Tbl.look t.launches k = some z
              ∧ if status = 0 then l.r.id ∉ z.waits else z.refused = true
      l.r.done ≠ 0 → l.r.done.toNat % 8 = 0 →
      (l.killed = none → l.refused = false → l.toStart = [] → l.live = [] → launchQuiet s lid l = true → ends 0 0)
      ∧ (l.killed = none → l.refused = true → ends 1 0xD)
      ∧ (∀ cause, cause < 2 ^ 8 → l.killed = some cause → launchOver s lid = true → ends 2 cause)
      ∧ ((l.killed = none ∧ l.refused = false ∧ (l.toStart ≠ [] ∨ l.live ≠ [] ∨ launchQuiet s lid l = false)
          ∨ l.killed ≠ none ∧ launchOver s lid = false) → exec (.launchCompletion lid) s = .next s)

/-- R20, R48, R61, R234, R252, R253: a bound team's groups start fresh, with R253's values; a window that does not fit is refused
and counted, a window that overlaps another as well (the model's choice, log 45); TRELLIS row 5 fires at each multiple of 65,536
ticks. -/
def Sys2Proof.Claim.TeamBinding : Prop :=
  ∀ (s : State),
    (∀ lid first t0 pl, NothingSwept s →
      let l := s.launch lid
      let r := l.r
      let tid := s.nextId
      (l.toStart.filter fun x => x.1 / r.spread == first / r.spread) = [(t0, false)] →
      bindable s lid first [(t0, false)] [pl] = true →
      let lim := 64 * (launchBnds s lid).1.toNat
      (windowsOk s pl.core r.w lim (pl.slots.map (·.2)) = false → exec (.teamBind lid first [pl]) s =
        .next { s with m := { s.m with refusedBinds := s.m.refusedBinds + 1 } })
      ∧ (windowsOk s pl.core r.w lim (pl.slots.map (·.2)) = true → (s.core pl.core).bnds = launchBnds s lid →
        (∀ c ∈ pl.core :: clusterCores s l.part (pl.core / 24), (s.core c).fused = s.flag lid 1) → (launchRef s lid).isSome = true → placeOk s lid r.groups pl = true → ∃ t, exec (.teamBind lid first [pl]) s = .next t
        ∧ t.mem = s.mem ∧ (t.launch lid).live = l.live ++ [tid] ∧ (t.launch lid).toStart = l.toStart.filter (fun x => x.1 != t0)
        ∧ (let x := t.team tid; x.lid = lid ∧ x.core = pl.core ∧ x.index = t0 ∧ x.sp = [] ∧ x.tsf = 0 ∧ x.spSize = 256 * r.scratch ∧ x.spBase = 256 * pl.spBase)
        ∧ ∀ i < r.groups, ∀ slot base, pl.slots[i]? = some (slot, base) →
          let g := t.group (tid + 1 + i)
          let n := if i + 1 < r.groups then 256 else r.lanes - 256 * (r.groups - 1)
          (Tbl.look t.groups (tid + 1 + i)).isSome = true
          ∧ g.ident = { lid := lid, tid := tid, part := l.part, index := i, core := pl.core, slot := slot, team := t0, lcores := r.lcores
                        spread := r.spread, nreal := n, w := r.w, k := r.k }
          ∧ g.subs = [(15, { mask := mlow n, pc := r.entry })] ∧ g.parked = [] ∧ g.win = [] ∧ g.tags = [] ∧ g.vst = [] ∧ g.p = [] ∧ g.slots = []
          ∧ g.scal 0 = r.args ∧ g.scal 1 = BitVec.ofNat 64 t0 ∧ g.scal 2 = BitVec.ofNat 64 i ∧ g.scal 3 = BitVec.ofNat 64 r.teams
          ∧ (∀ k, 4 ≤ k → g.scal k = 0) ∧ g.seq = 0 ∧ g.wake = 0 ∧ g.cap.mode = 0
          ∧ g.csr = { tview := r.tview.extractLsb' 0 16, aview := r.aview.extractLsb' 0 16, lpol := r.policy.zeroExtend 64
                      hbase := r.handler, budget := if r.budget = 0 then 100000 else r.budget }
          ∧ (let y := Tbl.get {} (t.core pl.core).binds slot
             y.state = 1 ∧ y.gid = tid + 1 + i ∧ y.team = t0 ∧ y.group = i ∧ y.wbase = base ∧ some y.lref = launchRef s lid)))
    ∧ ∀ core, (s.m.ftime % 65536 ≠ 0 → exec (.trellisTimeRow core) s = .next s)
      ∧ (s.m.ftime % 65536 = 0 → exec (.trellisTimeRow core) s = .next (fireRow s core 5))

/-- `Launches` and `TeamBinding`, together. -/
def Obligations.LaunchesAndBinding : Prop := Claim.Launches ∧ Claim.TeamBinding

/-! ### Tenants -/

/-- R283, R284, R286 to R290: requests of the service ring are answered at its head: 2 in a state in which the opcode is not
valid, 1 for an unknown opcode, 3 for an argument out of range; KILL, PREEMPT, QRESET and
WATCH have their effect. QRESET's control block is one whose page is in the TLB. Code 3 for KILL and PREEMPT of an unknown ID and
for n = 0, and min(n, cores) for PREEMPT, are the model's choices (log 61). -/
def Obligations.ServiceRing : Prop :=
  ∀ (s : State) (p op head : Nat) (b : List Byte), Requested s p op head b →
    let x := s.part p
    let st := x.e.state
    let arg := reqNum b 8 8
    let answers := fun (i : Instr) (code : Nat) => ∃ t, exec i s = .next t ∧ Answered t p head code
    let event := fun (place : RestorePlace) (cores : List Nat) => match op with
      | 1 => Instr.kill p | 2 => .servicePreempt p cores | 3 => .qreset p | 4 => .serviceWatch p | 5 => .flr p
      | 6 => .exportPart p | 7 => .round p | 8 => .stop p | 9 => .resume p | 10 => .restore p place | _ => .serviceUnknownOpcode p
    let fresh := x.killing = none ∧ x.vacate = none ∧ x.stopping = false ∧ x.restoring = none
    ((op = 0 ∨ 10 < op) → answers (.serviceUnknownOpcode p) (if st = 0 then 2 else 1))
    ∧ (fresh → st ≠ 2 → 1 ≤ op → op ≤ 10 → st ∉ svcStates x.small op → ∀ place cores, answers (event place cores) 2)
    ∧ (fresh → (st = 1 ∨ st = 3) →
      (op = 1 → findLaunch s p (reqNum b 4 4) = none → answers (.kill p) 3)
      ∧ (op = 1 → ∀ lid l, findLaunch s p (reqNum b 4 4) = some lid → Tbl.look s.launches lid = some l → l.killed = none →
        ∃ t, exec (.kill p) s = .next t ∧ (t.part p).killing = some lid ∧ (∃ k, Tbl.look t.launches lid = some k ∧ k.killed = some 0x80)
          ∧ ∀ c ∈ t.groups, c.2.ident.lid ≠ lid)
      ∧ (op = 2 → (findLaunch s p (reqNum b 4 4) = none ∨ arg = 0) → ∀ cores, answers (.servicePreempt p cores) 3)
      ∧ (op = 2 → ∀ lid cores, findLaunch s p (reqNum b 4 4) = some lid → 0 < arg → cores.Nodup → (∀ c ∈ cores, c ∈ coresOf s lid) →
        cores.length = min arg (coresOf s lid).length → ∃ t, exec (.servicePreempt p cores) s = .next t ∧ (t.part p).vacate = some lid
          ∧ ∀ y ∈ s.teams, y.2.lid = lid → y.2.core ∈ cores → ∀ gid ∈ y.2.gids, (Tbl.look s.groups gid).isSome = true →
              (s.group gid).pre = .no → (s.group gid).saving = none → (t.group gid).pre = .asked s.m.ftime)
      ∧ (op = 3 → (x.e.queues ≤ arg ∨ x.e.ctl.length ≤ arg) → answers (.qreset p) 3)
      ∧ (op = 3 → ∀ va cb e, arg < x.e.queues → x.e.ctl[arg]? = some va → readPrivate s p va 64 = .ok (s, cb) → translate s p (va + 8) false false = .ok (s, e) →
        (∀ a r o, e.place (va + 8) = .pa a r o → r = false ∧ (a + 4 ≤ x.e.service ∨ x.e.service + 65536 ≤ a) ∧ Unmarked s a 4) → ∃ t, exec (.qreset p) s = .next t
          ∧ Answered t p head 0 ∧ peek t (e.place (va + 8)) 4 = cb.take 4 ∧ (t.part p).qfault = x.qfault &&& ~~~ BitVec.ofNat 16 (2 ^ arg)
          ∧ Tbl.look (t.part p).taken arg = none)
      ∧ (op = 4 → (reqNum (b.drop 0x18) 0xE 2 ≠ 0 ∨ reqNum (b.drop 0x18) 0x18 8 ≠ 0) → answers (.serviceWatch p) 1)
      ∧ (op = 4 → reqNum (b.drop 0x18) 0xE 2 = 0 → reqNum (b.drop 0x18) 0x18 8 = 0 → 16 ≤ arg → answers (.serviceWatch p) 3)
      ∧ (op = 4 → let n := fun (o k : Nat) => reqNum (b.drop 0x18) o k
          arg < 16 → n 0 8 % 128 = 0 → n 8 4 % 128 = 0 → 128 ≤ n 8 4 → n 8 4 ≤ 2 ^ 24 → n 0xC 1 < 64 → n 0xD 1 < 2 → n 0xE 2 = 0 → n 0x18 8 = 0 →
          ∃ t, exec (.serviceWatch p) s = .next t ∧ Answered t p head 0 ∧ Tbl.look (t.part p).watch arg =
            some ⟨n 0 8, n 8 4, BitVec.ofNat 8 (n 0xC 1), n 0xD 1 == 1, n 0x10 4, n 0x14 4, watchSpans s p (n 0 8) (n 8 4), none⟩))
    ∧ (op = 1 → ∀ lid, x.killing = some lid → Tbl.look s.launches lid = none → x.words = [] → ∃ t, exec (.kill p) s = .next t
        ∧ Answered t p head 0 ∧ (t.part p).killing = none)
    ∧ (op = 2 → ∀ lid cores, x.vacate = some lid → stillVacating s lid = [] → ∃ t, exec (.servicePreempt p cores) s = .next t
        ∧ Answered t p head 0 ∧ (t.part p).vacate = none)

/-- R206, R287, R289, R290, R293 to R298: EXPORT and ROUND exchange the dirty bitmaps and copy every marked page, or answer 4 when
the buffer is too small, after which EXPORT takes another (log 20); STOP pre-empts the launches and answers after the final
transfer; RESUME ends the export; FLR kills the launches, then zeroes every page; RESTORE answers the first failing check, and leaves the entry ACTIVE when all pass. What FLR
clears and keeps (log 60), and that RESUME is refused once the export has completed elsewhere (log 59), are the model's choices. -/
def Obligations.Migration : Prop :=
  ∀ (s : State) (p op head : Nat) (b : List Byte), Requested s p op head b →
    let x := s.part p
    let answers := fun (i : Instr) (code : Nat) => ∃ t, exec i s = .next t ∧ Answered t p head code
    let copied := fun (i : Instr) (u : State) (addr len : Nat) =>
      let y := u.part p
      let now := (localPages u p).filter fun c => marked u.mem (y.bitmap true) c.1
      ∀ ex, findExport u addr = some ex →
        let pages := (ex.pages.filter fun c => !now.any (·.1 == c.1)) ++ now.map fun c => (c.1, u.mem.bytes (65536 * c.2) 65536)
        (len < 65544 * pages.length → ∃ t, exec i s = .next t ∧ Answered t p head 4 ∧ (t.part p).e.state = y.e.state ∧ (t.part p).small = true
          ∧ (t.part p).rounds = y.rounds)
        ∧ (65544 * pages.length ≤ len → ∃ t, exec i s = .next t ∧ Answered t p head 0 ∧ (t.part p).e.state = y.e.state
          ∧ (t.part p).rounds = (y.rounds + 1) % 256 ∧ findExport t addr = some { ex with pages := pages }
          ∧ ((x.e.service + 65536 ≤ x.e.bitmap ∨ x.e.bitmap + 4096 * x.e.quota ≤ x.e.service) →
              ∀ k < 16384 * x.e.quota, marked t.mem ((t.part p).bitmap true) k = false))
    let opened := fun (y : Part) =>
      let addr := reqNum b 8 8
      let len := reqNum b 16 8
      copied (.exportPart p) (markAll (setStatus (putExport s { addr := addr, len := len, part := p }) p { y with exportAt := some (addr, len) }) p) addr len
    (op = 6 → x.e.state = 1 → opened { x with e := { x.e with state := 3 }, rounds := 0, refuse := false })
    ∧ (op = 6 → x.small = true → (x.e.state = 3 ∨ x.e.state = 4) → opened x)
    ∧ (op = 7 → x.e.state = 3 → ∀ addr len, x.exportAt = some (addr, len) → copied (.round p) s addr len)
    ∧ (op = 8 → (x.e.state = 3 ∨ x.e.state = 4 ∧ x.small = true) → x.stopping = false → ∃ t, exec (.stop p) s = .next t
        ∧ (t.part p).e.state = 4 ∧ (t.part p).stopping = true
        ∧ ∀ y ∈ s.teams, (s.launch y.2.lid).part = p → (Tbl.look s.launches y.2.lid).isSome = true → ∀ gid ∈ y.2.gids, (Tbl.look s.groups gid).isSome = true →
            (s.group gid).pre = .no → (s.group gid).saving = none → (t.group gid).pre = .asked s.m.ftime)
    ∧ (op = 8 → x.stopping = true → sweep s = s → stopped s p = false → exec (.stop p) s = .next s)
    ∧ (op = 8 → x.stopping = true → sweep s = s → stopped s p = true → copyRound s p = none → ∃ t, exec (.stop p) s = .next t ∧ Answered t p head 4
        ∧ (t.part p).stopping = false ∧ (t.part p).small = true)
    ∧ (op = 8 → x.stopping = true → sweep s = s → stopped s p = true → ∀ u addr len ex, copyRound s p = some u → x.exportAt = some (addr, len) →
        findExport u addr = some ex → ∃ t, exec (.stop p) s = .next t ∧ Answered t p head 0 ∧ (t.part p).stopping = false ∧ (t.part p).small = false
          ∧ findExport t ex.addr = some (finalTransfer u p ex))
    ∧ (op = 9 → (x.e.state = 3 ∨ x.e.state = 4) → (x.refuse = true ∨ x.exportAt = none) → answers (.resume p) 2)
    ∧ (op = 9 → (x.e.state = 3 ∨ x.e.state = 4) → x.refuse = false → x.exportAt ≠ none → x.held = [] → ∃ t, exec (.resume p) s = .next t
        ∧ Answered t p head 0 ∧ (t.part p).e.state = 1 ∧ (t.part p).rounds = 0 ∧ (t.part p).exportAt = none)
    ∧ (op = 5 → x.e.state = 1 → x.exportAt = none → x.refuse = false → ∃ t, exec (.flr p) s = .next t ∧ (t.part p).e.state = 2 ∧ (t.part p).ready = false
        ∧ (t.part p).watch = [] ∧ (∀ c ∈ t.tlb, c.part ≠ p) ∧ (∀ lid l, Tbl.look t.launches lid = some l → l.part = p → l.killed.isSome = true)
        ∧ ∀ c ∈ t.arrops, c.2.part = p → c.2.cancelled = true)
    ∧ (op = 5 → x.e.state = 2 → sweep s = s → (∀ c ∈ s.launches, c.2.part ≠ p) → x.words = [] →
        (∀ i < 65536, ∀ o, Tbl.look s.reverse ((x.e.service + i) / 65536) = some o → o.1 ≠ p) → ∃ t, exec (.flr p) s = .next t ∧ Answered t p head 0
          ∧ (t.part p).e.state = 1 ∧ (t.part p).ready = true ∧ (t.part p).salts = x.salts ∧ (∀ c ∈ t.contexts, c.part ≠ p) ∧ (∀ c ∈ t.tlb, c.part ≠ p)
          ∧ (∀ o ∈ t.objs, o.space = 0 ∨ o.space / 4 ≠ p)
          ∧ ∀ c ∈ s.reverse, c.2.1 = p → ∀ i < 65536, (∀ va ∈ x.e.ctl, ∀ u e a r o, translate s p va false false = .ok (u, e) → e.place va = .pa a r o →
              65536 * c.1 + i < a ∨ a + 64 ≤ 65536 * c.1 + i) → t.mem.read (65536 * c.1 + i) = 0)
    ∧ (op = 10 → x.e.state = 0 → x.restoring = none → ∀ place : RestorePlace,
      (findExport s (reqNum b 8 8) = none → answers (.restore p place) 0x10)
      ∧ ∀ ex, findExport s (reqNum b 8 8) = some ex →
        (∀ code, restoreCheck s p (reqNum b 16 8) ex = some code → answers (.restore p place) code)
        ∧ (restoreCheck s p (reqNum b 16 8) ex = none → (∀ n ∈ ex.names, holdsName s p n = true) → x.fetched = [] →
          let v := setStatus s p { x with e := { x.e with state := 5 }, restoring := some ex }
          (∀ code, restoreCheck2 v p ex = some code → ∃ t, exec (.restore p place) s = .next t ∧ Answered t p head code ∧ (t.part p).e.state = 0)
          ∧ (restoreCheck2 v p ex = none → ∀ u, installRestore v p ex place.pages place.slots = some u →
            ∃ t, exec (.restore p place) s = .next t ∧ Answered t p head 0 ∧ (t.part p).e.state = 1 ∧ (t.part p).ready = true ∧ (t.part p).restoring = none)))

/-- R187, R262, R266, R283 to R285, R289: a partition entry is written when its fields and the sums allow, a new partition with
salts of its own and an empty pool; a retired page's bytes, with those of its leaf's other pages, move to spare pages under the
rewritten leaf; firmware services a stage-2 record, newly mapped ROOT pages reading as zero, so that the groups that wait go
on, or declines it, which kills their launches. The leaf's other pages moving together and what firmware's leaves may be (log 81),
and that partition entries are written only at stage READY, a new one from a FREE entry (log 62), are the model's choices. -/
def Obligations.Tenants : Prop :=
  ∀ s : State,
    (∀ (p : Nat) (e : PartEntry), e ≠ emptyEntry →
      ((24 ≤ p ∨ s.m.stage ≠ 6 ∨ entryOk s e = false ∨ sumsOk s p e = false
        ∨ (s.part p).e.state = 1 ∧ (s.part p).e.quota < e.quota) → exec (.partitionWrite p e) s = .next s)
      ∧ (p < 24 → s.m.stage = 6 → entryOk s e = true → sumsOk s p e = true → (s.part p).e = emptyEntry → residents s p = false →
        (e.state = 0 → ∃ t, exec (.partitionWrite p e) s = .next t ∧ (t.part p).e = e ∧ (t.part p).ready = (s.part p).ready ∧ (t.part p).salts = (s.part p).salts)
        ∧ (e.state = 1 → (let w := setStatus s p { s.part p with e := e, ready := true }
            ∀ x ∈ leavesOf w p, leafLegal w p x.1 x.2 = true) → ∃ t, exec (.partitionWrite p e) s = .next t ∧ (t.part p).e = e ∧ (t.part p).ready = true
          ∧ (t.part p).salts.length = 3 ∧ (∀ y ∈ (t.part p).salts, y < 2 ^ 256) ∧ ∀ o ∈ t.objs, o.space = 0 ∨ o.space / 4 ≠ p)))
    ∧ (∀ p leaf page new n l l',
      let w := s.mem.num leaf 8
      let old := l.final / 65536
      let count := l.size / 65536
      let m := ((s.mem.clear (65536 * new) (65536 * count)).store (65536 * new) (s.mem.bytes (65536 * old) (65536 * count))).putNum leaf 8
        (w - old * 65536 + new * 65536)
      (∀ c ∈ s.accesses, (s.team c.2.tid).part = p → c.2.tw ≤ s.m.ftime ∧ ∀ e ∈ c.2.elems, c.2.waits e = false) → enginePending s p = false →
      Tbl.sorted s.reverse = true → page < 2 ^ 25 → page ∉ s.m.retiredPages → Tbl.look s.reverse page = some (p, n) →
      walk2 s.mem s.m.modno (65536 * n) 4 (s.part p).e.root2 = some l → l.remote = false → new % count = 0 → new + count ≤ 2 ^ 25 →
      (∀ i < count, Tbl.look s.reverse (new + i) = none ∧ new + i ∉ s.m.retiredPages) → leaf % 8 = 0 → bitsN w 16 36 = old →
      walk2 m s.m.modno (65536 * n) 4 (s.part p).e.root2 = some l' → l'.final / 65536 = new →
      ∃ t, exec (.pageRetirement p leaf page new) s = .next t ∧ t.mem = m ∧ page ∈ t.m.retiredPages
        ∧ (∀ i < count, Tbl.look t.reverse (new + i) = Tbl.look s.reverse (old + i))
        ∧ (∀ i < count, (old + i < new ∨ new + count ≤ old + i) → Tbl.look t.reverse (old + i) = none) ∧ ∀ c ∈ t.tlb, c.part ≠ p)
    ∧ (∀ p leaf page new, page < 2 ^ 25 → page ∉ s.m.retiredPages → Tbl.look s.reverse page = none →
        exec (.pageRetirement p leaf page new) s = .next { s with m := { s.m with retiredPages := s.m.retiredPages ++ [page] } })
    ∧ (∀ p leaf page new, enginePending s p = true → Tbl.look s.reverse page ≠ none → exec (.pageRetirement p leaf page new) s = .next s)
    ∧ ∀ core k r, core ≠ mgmtCore → Tbl.look (s.core core).recs k = some r → r.stage2 = true → sweep s = s → (s.core core).owed = [] →
      (∀ p pa v u, partOf s core = some p → writeLeaf s p pa v = some u → ∃ t, exec (.stage2FaultService core k (some (pa, v))) s = .next t
        ∧ t.reverse = u.reverse
        ∧ (let w := { s with mem := s.mem.putNum pa 8 v.toNat }
          let zeroed := fun (a : Nat) => ∃ c ∈ localPages w p, rootPage w p c.1 = true ∧ ¬ (c ∈ localPages s p ∧ rootPage s p c.1 = true)
            ∧ a / 65536 = c.2
          (∀ a, zeroed a → t.mem.read a = 0) ∧ (∀ a, ¬ zeroed a → t.mem.read a = w.mem.read a)
          ∧ ∀ x ∈ leavesOf w p, x ∉ leavesOf s p → leafLegal w p x.1 x.2 = true) ∧ (∀ c ∈ t.tlb, c.part ≠ p) ∧ Tbl.look (t.core core).recs k = none
        ∧ ∀ gid, (Tbl.look s.groups gid).isSome = true → (s.group gid).ident.core = core → (s.group gid).hang = .stage2 k →
            t.group gid = { s.group gid with hang := .no })
      ∧ (∃ t, exec (.stage2FaultService core k none) s = .next t ∧ Tbl.look (t.core core).recs k = none ∧ t.mem = s.mem
        ∧ ∀ lid l, lid ∈ r.lids ++ r.slots.map (fun n => (s.group (Tbl.get {} (s.core core).binds n).gid).ident.lid) →
            Tbl.look s.launches lid = some l → l.killed = none → ∃ y, Tbl.look t.launches lid = some y ∧ y.killed = some r.cause)

/-! ### Encodings, steps and the whole state -/

/-- R304, R305, R316: decoding the bytes that encode a well-formed instruction word gives the word back, whatever follows
them; and a word that decodes is, over the bits of its length, the encoding of the well-formed word it decodes to. -/
def Obligations.DecodeEncode : Prop :=
  (∀ (i : Instr) (w : Word128) (rest : List Byte), i.wf = true → encodeWord i = some w →
    decodeWord w = .ok i ∧ (encode i).length = i.bytes ∧ decode (encode i ++ rest) = .ok i)
  ∧ ∀ (i : Instr) (w : Word128), decodeWord w = .ok i → i.wf = true ∧ ∃ v, encodeWord i = some v
      ∧ v.toNat = w.toNat % 2 ^ (8 * i.bytes)

/-- The worked encodings of R317 (FFMA), R414 (MOVI), R418 (NOP, NOP.skip), R374 (FENCE), R442 (WAITC), R437 (SYSC), R228
(QPUSH), R106 (LAYR) and R74 (RKQ): each word decodes to the instruction it stands for, field by field. -/
def Sys2Proof.Claim.DecodedWords : Prop :=
  decodeWord 0x00E054A081150084 = .ok (.ffma { plainWord with
      fmt := .f32, hold := .b, c := .v 21, b := .v 20, a := .v 8, d := .v 8, rk := true, pn := true, pg := 2 })
  ∧ decodeWord 0x000800000001FFFFF8E80009 = .ok (.movi { plainWord with len := .w96, imm := 0x80000, d := .s 7, uni := true })
  ∧ decodeWord 0x0001FFFFFFE00000 = .ok (.nop plainWord) ∧ decodeWord 0x0001FFFFFFE00400 = .ok (.nopSkip plainWord)
  ∧ decodeWord 0x00002BFFF8C80280 = .ok (.fence { plainWord with c := .v 10, d := .s 6, uni := true })
  ∧ decodeWord 0x0001FFFFFFE80A8C = .ok (.waitcMp { plainWord with uni := true })
  ∧ decodeWord 0x000000100001FFFFFFE0019D = .ok (.sysc { plainWord with len := .w96, imm := 0x10 })
  ∧ decodeWord 0x0001FE4C4FE80294 = .ok (.qpush { plainWord with b := .s 9, a := .s 4, uni := true })
  ∧ decodeWord 0x0000007F000001020101FFF431000302 = .ok (.layr { plainWord with
      len := .w128, imm := 0x102, fmt := .bf16, b := .imm, a := .s 3, d := .v 8 })
  ∧ decodeWord 0x00000BFFF8A80384 = .ok (.rkq { plainWord with c := .v 2, d := .s 5, uni := true })

/-- R304, R316, R317: LEN = 11 is refused, then an OPC or FN that the opcode map does not list, then FMT 11 to 15; a listed
one is never refused for its OPC and FN. -/
def Sys2Proof.Claim.RefusedWords : Prop :=
  ∀ w : Word128,
    let opc := w.toNat / 4 % 256
    let fn := w.toNat / 1024 % 32
    (w.toNat % 4 = 3 → decodeWord w = .error .badLen)
    ∧ (w.toNat % 4 ≠ 3 → ¬ Listed opc fn → decodeWord w = .error .unassigned)
    ∧ (w.toNat % 4 ≠ 3 → Listed opc fn → 11 ≤ w.toNat / 2 ^ 54 % 16 → decodeWord w = .error .badField)
    ∧ (w.toNat % 4 ≠ 3 → Listed opc fn → decodeWord w = .error .badField ∨ ∃ i, decodeWord w = .ok i)

/-- `DecodedWords` and `RefusedWords`, together. -/
def Obligations.WordDecoding : Prop := Claim.DecodedWords ∧ Claim.RefusedWords

/-- R221, R264, R304, R317: a step in which a sub-group issues runs the instruction that the bytes at its PC decode to,
when its page is in the TLB and its core has fetched none of its bytes since the last IFENCE; bytes that decode to none
trap ILLOP with bits [63:0]. A beam core runs the word of its pass's image. The agenda, its events and its beam turns are the
model's own (log 1, DESIGN CHOICE): an event happens after its time has passed, FTIME modulo 2^64 (log 4, DESIGN CHOICE), and a
multiple of 65,536 ticks that it passes fires row 5 (R234). -/
def Obligations.StepRunsDecoded : Prop :=
  ∀ s : State,
    (∀ gid sub rest e a r o, s.issue = some ⟨.group gid sub, rest⟩ → (Tbl.look s.groups gid).isSome = true →
      let g := s.group gid
      let pc := (g.sub sub).pc
      let core := g.ident.core
      let fetch := fun (n : Nat) => { s with fetched := s.fetched ++ (List.range n).map fun k => (core, a / 4 + k, s.mem.num (a + 4 * k) 4) }
      translate s g.ident.part pc.toNat false true = .ok (s, e) → e.place pc.toNat = .pa a r o → a % 4 = 0 →
      (∀ c ∈ s.fetched, c.1 = core → c.2.1 < a / 4 ∨ a / 4 + 4 ≤ c.2.1) → (∀ x ∈ s.badLines, overlaps x 128 a 4 = false) →
      (∀ i, decode (s.mem.bytes a 16) = .ok i → pc.toNat % 32 + i.bytes ≤ 32 → step s = exec i (fetch (i.bytes / 4)))
      ∧ (∀ x, decode (s.mem.bytes a 16) = .error x → pc.toNat % 32 + 16 ≤ 32 →
          ∃ n t, step s = .next t ∧
            LatchesAside (endTurn (takeTrap (fetch n) gid sub pc 8 { cause := Cause.illop, tval := BitVec.ofNat 64 (s.mem.num a 8) })) t))
    ∧ (∀ q rest r len m i, s.issue = some ⟨.beam q, rest⟩ → (s.engine q).run = some r → r.ended = false →
        (s.engine q).image (s.team r.pass.tid).lid = some (len, m) → decode (m.bytes r.pc.toNat 16) = .ok i →
        1024 ≤ r.pc.toNat → r.pc.toNat + i.bytes ≤ len → r.pc.toNat % 32 + i.bytes ≤ 32 → step s = exec i s)
    ∧ (∀ dt i rest, s.issue = none → s.agenda = .event dt i :: rest → i.word? = none →
        let now := s.m.ftime + dt
        (now / 65536 = s.m.ftime / 65536 → step s = exec i { s with agenda := rest, m := { s.m with ftime := now % 2 ^ 64 } })
        ∧ (s.m.ftime / 65536 < now / 65536 → ∃ u, step s = exec i u ∧ MemoriesSame s u ∧ u.agenda = rest ∧ u.m = { s.m with ftime := now % 2 ^ 64 }
          ∧ (now < 2 ^ 64 → ∀ gid g, Tbl.look s.groups gid = some g → (∃ c ∈ s.cores, c.1 = g.ident.core) →
              g.wake &&& Tbl.get 0 (s.core g.ident.core).route 5 ≠ 0 → ∀ y ∈ g.sleep, y.2 ≤ now - now % 65536 → y.1 ∈ (u.group gid).woken)))
    ∧ ∀ dt q rest, s.issue = none → s.agenda = .beam dt q :: rest → (s.m.ftime + dt) / 65536 = s.m.ftime / 65536 →
        step s = .next { s with agenda := rest, m := { s.m with ftime := (s.m.ftime + dt) % 2 ^ 64 }, issue := some ⟨.beam q, []⟩ }

/-- Every step keeps device, host and domain memory in their one form (addresses rising, no byte listed that an unlisted
address reads as). The form, and that an unlisted byte reads 0, are the model's own (log 3, DESIGN CHOICE). -/
def Obligations.MemoriesKept : Prop :=
  ∀ s t : State, memoriesWf s → step s = .next t → memoriesWf t

/-- R12, R13, R126, R283: what power-up and reset leave: stage WAITIMG, the boot window's registers at their reset values,
memory in its one form, every partition entry FREE and every binding FREE, no launch, team or group, no object stored; every
Topiary setting ON with 8 probes. That unlisted memory reads 0 is the model's choice (log 3). -/
def Obligations.ResetState : Prop :=
  let s := State.reset
  memoriesWf s ∧ s.m.stage = 0 ∧ s.m.busy = false ∧ s.m.errc = 0 ∧ s.m.dieok = 0 ∧ s.m.hcmd = 0 ∧ s.issue = none ∧ goesOn s
  ∧ (∀ a, s.mem.read a = 0) ∧ s.groups = [] ∧ s.teams = [] ∧ s.launches = [] ∧ s.objs = [] ∧ (∀ p, (s.part p).e.state = 0)
  ∧ (∀ n, (s.bind n).state = 0) ∧ ∀ n, (Tbl.get {} s.topset n).on = true ∧ (Tbl.get {} s.topset n).nprb = 8
end

