-- ==== Sys2Proof/Laws/Codec.lean ====
section
/-!
SUPPORT. Operand codes round-trip, and a well-formed word of 64 bits uses no field that its length leaves out.
-/

namespace Sys2Proof.Laws

theorem opd_ofCode_code (o : Opd) : Opd.ofCode o.code = o := by
  cases o with
  | v n => revert n; decide
  | s n => revert n; decide
  | t n => revert n; decide
  | a n => revert n; decide
  | _ => decide

theorem opd_code_ofCode (c : BitVec 7) : (Opd.ofCode c).code = c := by revert c; decide

/-- The lengths that `Fields.lenA` admits leave EXT and POL at their values for an absent field, and IMM32 in 64 bits. -/
theorem lenA_fields {f : Fields} {a b c d : Bool} (h : f.lenA a b c d = true) :
    f.ext = 0 ∧ f.pol = .zero ∧ (f.len = .w64 → f.imm = 0) := by
  unfold Fields.lenA at h
  simp only [Bool.and_eq_true, beq_iff_eq, Opd.isZero] at h
  obtain ⟨⟨⟨⟨⟨⟨⟨h1, h2⟩, h3⟩, _⟩, _⟩, _⟩, _⟩, _⟩ := h
  refine ⟨h2, h3, fun e => ?_⟩
  rw [e] at h1
  simp at h1
  exact h1.2

end Sys2Proof.Laws
end

