-- ==== Sys2Proof/Laws/Memory.lean ====
section
/-!
SUPPORT. Sparse tables and byte memories: what a read gives after a write, and that every memory operation keeps the
canonical form.
-/

namespace Sys2Proof.Machine

namespace Tbl

variable {α : Type}

@[simp] theorem look_nil (k : Nat) : look ([] : List (Nat × α)) k = none := rfl

@[simp] theorem look_del_same (t : List (Nat × α)) (k : Nat) : look (del t k) k = none := by
  induction t with
  | nil => rfl
  | cons c t ih => obtain ⟨a, x⟩ := c; by_cases h : a = k <;> simp [del, look, h, ih]

/-- Deleting a key that a table does not hold changes nothing. -/
theorem del_absent {t : List (Nat × α)} {k : Nat} (h : look t k = none) : del t k = t := by
  induction t with
  | nil => rfl
  | cons c t ih =>
    simp only [look] at h
    split at h
    · cases h
    · rename_i hc
      simp only [del, if_neg hc, ih h]

theorem look_del_other (t : List (Nat × α)) {k j : Nat} (h : j ≠ k) : look (del t k) j = look t j := by
  induction t with
  | nil => rfl
  | cons c t ih =>
    obtain ⟨a, x⟩ := c
    by_cases ha : a = k
    · subst ha; simp [del, look, ih, Ne.symm h]
    · simp [del, look, ha, ih]

theorem look_ins_same (t : List (Nat × α)) (k : Nat) (v : α) (h : look t k = none) : look (ins t k v) k = some v := by
  induction t with
  | nil => simp [ins, look]
  | cons c t ih =>
    obtain ⟨a, x⟩ := c
    by_cases ha : a = k
    · simp [look, ha] at h
    · simp only [look, ha, if_false] at h
      by_cases hk : k < a <;> simp [ins, look, hk, ha, ih h]

theorem look_ins_other (t : List (Nat × α)) {k j : Nat} (v : α) (h : j ≠ k) : look (ins t k v) j = look t j := by
  induction t with
  | nil => simp [ins, look, Ne.symm h]
  | cons c t ih =>
    obtain ⟨a, x⟩ := c
    by_cases hk : k < a <;> simp [ins, look, hk, ih, Ne.symm h]

@[simp] theorem look_set_same (t : List (Nat × α)) (k : Nat) (v : α) : look (set t k v) k = some v :=
  look_ins_same _ _ _ (look_del_same t k)

theorem look_set_other (t : List (Nat × α)) {k j : Nat} (v : α) (h : j ≠ k) : look (set t k v) j = look t j := by
  rw [set, look_ins_other _ _ h, look_del_other _ h]

@[simp] theorem get_set_same (d : α) (t : List (Nat × α)) (k : Nat) (v : α) : get d (set t k v) k = v := by
  simp [get]

theorem get_set_other (d : α) (t : List (Nat × α)) {k j : Nat} (v : α) (h : j ≠ k) : get d (set t k v) j = get d t j := by
  simp [get, look_set_other _ _ h]

@[simp] theorem get_put_same [DecidableEq α] (d : α) (t : List (Nat × α)) (k : Nat) (v : α) : get d (put d t k v) k = v := by
  by_cases h : v = d <;> simp [put, get, h]

theorem get_put_other [DecidableEq α] (d : α) (t : List (Nat × α)) {k j : Nat} (v : α) (h : j ≠ k) :
    get d (put d t k v) j = get d t j := by
  by_cases hv : v = d
  · simp [put, get, hv, look_del_other _ h]
  · simp [put, get, hv, look_set_other _ _ h]

theorem look_upd_same (t : List (Nat × α)) (k : Nat) (f : α → α) : look (upd t k f) k = (look t k).map f := by
  cases h : look t k <;> simp [upd, h]

theorem look_upd_other (t : List (Nat × α)) {k j : Nat} (f : α → α) (h : j ≠ k) : look (upd t k f) j = look t j := by
  cases hk : look t k <;> simp [upd, hk, look_set_other _ _ h]

/-- Keys of a table, in its order. -/
theorem sorted_iff (t : List (Nat × α)) : sorted t = true ↔ (t.map (·.1)).Pairwise (· < ·) := by
  induction t with
  | nil => simp [sorted]
  | cons c t ih =>
    obtain ⟨a, x⟩ := c
    cases t with
    | nil => simp [sorted]
    | cons d t =>
      obtain ⟨b, y⟩ := d
      simp only [sorted, Bool.and_eq_true, decide_eq_true_eq, ih, List.map_cons, List.pairwise_cons]
      constructor
      · rintro ⟨hab, hb, ht⟩
        refine ⟨fun k hk => ?_, hb, ht⟩
        rcases List.mem_cons.1 hk with rfl | hk
        · exact hab
        · exact lt_trans hab (hb k hk)
      · rintro ⟨ha, hb, ht⟩
        exact ⟨ha b (List.mem_cons_self ..), hb, ht⟩

theorem del_sublist (t : List (Nat × α)) (k : Nat) : (del t k).Sublist t := by
  induction t with
  | nil => exact List.Sublist.refl _
  | cons c t ih =>
    obtain ⟨a, x⟩ := c
    by_cases h : a = k
    · simp only [del, h, if_true]; exact ih.cons _
    · simp only [del, h, if_false]; exact ih.cons_cons _

theorem sorted_of_sublist {t u : List (Nat × α)} (h : t.Sublist u) (hu : sorted u = true) : sorted t = true :=
  (sorted_iff t).2 (((sorted_iff u).1 hu).sublist (h.map _))

theorem mem_ins (t : List (Nat × α)) (k : Nat) (v : α) (c : Nat × α) : c ∈ ins t k v ↔ c = (k, v) ∨ c ∈ t := by
  induction t with
  | nil => simp [ins]
  | cons d t ih =>
    obtain ⟨a, x⟩ := d
    by_cases hk : k < a
    · simp [ins, hk]
    · simp only [ins, hk, if_false, List.mem_cons, ih]; tauto

theorem mem_del {t : List (Nat × α)} {k : Nat} {c : Nat × α} (h : c ∈ del t k) : c ∈ t ∧ c.1 ≠ k := by
  induction t with
  | nil => simp [del] at h
  | cons d t ih =>
    obtain ⟨a, x⟩ := d
    by_cases ha : a = k
    · simp only [del, ha, if_true] at h; exact ⟨List.mem_cons_of_mem _ (ih h).1, (ih h).2⟩
    · simp only [del, ha, if_false, List.mem_cons] at h
      rcases h with rfl | h
      · exact ⟨List.mem_cons_self .., ha⟩
      · exact ⟨List.mem_cons_of_mem _ (ih h).1, (ih h).2⟩

theorem sorted_ins (t : List (Nat × α)) (k : Nat) (v : α) (ht : sorted t = true) (hk : ∀ c ∈ t, c.1 ≠ k) :
    sorted (ins t k v) = true := by
  induction t with
  | nil => simp [ins, sorted]
  | cons d t ih =>
    obtain ⟨a, x⟩ := d
    have hs := (sorted_iff _).1 ht
    by_cases hka : k < a
    · simp only [ins, hka, if_true]
      rw [sorted_iff]
      simp only [List.map_cons, List.pairwise_cons] at hs ⊢
      refine ⟨fun b hb => ?_, hs⟩
      rcases List.mem_cons.1 hb with rfl | hb
      · exact hka
      · exact lt_trans hka (hs.1 b hb)
    · simp only [ins, hka, if_false]
      rw [sorted_iff]
      simp only [List.map_cons, List.pairwise_cons] at hs ⊢
      have ht' := ih ((sorted_iff t).2 hs.2) (fun c hc => hk c (List.mem_cons_of_mem _ hc))
      refine ⟨fun b hb => ?_, (sorted_iff _).1 ht'⟩
      obtain ⟨c, hc, rfl⟩ := List.mem_map.1 hb
      rcases (mem_ins t k v c).1 hc with rfl | hc
      · have := hk (a, x) (List.mem_cons_self ..)
        simp only at this ⊢; omega
      · exact hs.1 _ (List.mem_map_of_mem hc)

theorem sorted_del {t : List (Nat × α)} (k : Nat) (h : sorted t = true) : sorted (del t k) = true :=
  sorted_of_sublist (del_sublist t k) h

theorem sorted_set {t : List (Nat × α)} (k : Nat) (v : α) (h : sorted t = true) : sorted (set t k v) = true :=
  sorted_ins _ _ _ (sorted_del k h) fun _ hc => (mem_del hc).2

theorem sorted_put [DecidableEq α] {d : α} {t : List (Nat × α)} (k : Nat) (v : α) (h : sorted t = true) :
    sorted (put d t k v) = true := by
  by_cases hv : v = d
  · simpa [put, hv] using sorted_del k h
  · simpa [put, hv] using sorted_set k v h

theorem mem_put [DecidableEq α] {d : α} {t : List (Nat × α)} {k : Nat} {v : α} {c : Nat × α} (h : c ∈ put d t k v) :
    (c = (k, v) ∧ v ≠ d) ∨ c ∈ t := by
  by_cases hv : v = d
  · simp only [put, hv, if_true] at h; exact .inr (mem_del h).1
  · simp only [put, hv, if_false, set, mem_ins] at h
    rcases h with rfl | h
    · exact .inl ⟨rfl, hv⟩
    · exact .inr (mem_del h).1

end Tbl

namespace Mem

/-- A read of the byte just written. -/
@[simp] theorem read_write_same (m : Mem) (a : Nat) (b : Byte) : (m.write a b).read a = b := Tbl.get_put_same ..

/-- A write leaves every other byte alone. -/
theorem read_write_other (m : Mem) {a c : Nat} (b : Byte) (h : c ≠ a) : (m.write a b).read c = m.read c :=
  Tbl.get_put_other _ _ _ h

theorem wf_nil : Mem.wf [] := by simp [wf, Tbl.sorted]

/-- A write keeps the canonical form. -/
theorem wf_write {m : Mem} (a : Nat) (b : Byte) (h : m.wf) : (m.write a b).wf := by
  refine ⟨Tbl.sorted_put _ _ h.1, ?_⟩
  rw [List.all_eq_true]
  intro c hc
  rcases Tbl.mem_put hc with ⟨rfl, hb⟩ | hc
  · simpa using hb
  · exact List.all_eq_true.1 h.2 c hc

theorem wf_store {m : Mem} (a : Nat) (bs : List Byte) (h : m.wf) : (m.store a bs).wf := by
  induction bs generalizing m a with
  | nil => exact h
  | cons b bs ih => exact ih (a + 1) (wf_write a b h)

theorem wf_putNum {m : Mem} (a n v : Nat) (h : m.wf) : (m.putNum a n v).wf := wf_store _ _ h

theorem wf_filter {m : Mem} (p : Host.Cell → Bool) (h : m.wf) : Mem.wf (m.filter p) := by
  refine ⟨Tbl.sorted_of_sublist List.filter_sublist h.1, ?_⟩
  rw [List.all_eq_true]
  exact fun c hc => List.all_eq_true.1 h.2 c (List.mem_filter.1 hc).1

theorem wf_clear {m : Mem} (a n : Nat) (h : m.wf) : (m.clear a n).wf := wf_filter _ h

theorem wf_slice {m : Mem} (a n : Nat) (h : m.wf) : (m.slice a n).wf := by
  have hf := wf_filter (fun c => decide (a ≤ c.1) && decide (c.1 < a + n)) h
  have hin : ∀ c ∈ m.filter (fun c => decide (a ≤ c.1) && decide (c.1 < a + n)), a ≤ c.1 := by
    intro c hc
    have := (List.mem_filter.1 hc).2
    simp only [Bool.and_eq_true, decide_eq_true_eq] at this
    exact this.1
  refine ⟨?_, ?_⟩
  · have hp := (Tbl.sorted_iff _).1 hf.1
    rw [slice, Tbl.sorted_iff, List.map_map, List.pairwise_map]
    rw [List.pairwise_map] at hp
    refine hp.imp_of_mem fun hx hy hxy => ?_
    have := hin _ hx
    simp only [Function.comp]; omega
  · rw [slice, List.all_map]
    have := hf.2
    rw [List.all_eq_true] at this ⊢
    exact fun c hc => this c hc

/-- A store leaves every byte outside the stored range alone. -/
theorem read_store_other {m : Mem} {a c : Nat} (bs : List Byte) (h : c < a ∨ a + bs.length ≤ c) :
    (m.store a bs).read c = m.read c := by
  induction bs generalizing m a with
  | nil => rfl
  | cons b bs ih =>
    simp only [List.length_cons] at h
    rw [store, ih (by omega), read_write_other _ _ (by omega)]

/-- A byte of the stored range reads as stored. -/
theorem read_store_in {m : Mem} {a : Nat} (bs : List Byte) {i : Nat} (h : i < bs.length) :
    (m.store a bs).read (a + i) = bs[i] := by
  induction bs generalizing m a i with
  | nil => simp at h
  | cons b bs ih =>
    cases i with
    | zero => rw [store, Nat.add_zero, read_store_other _ (by omega)]; simp
    | succ i =>
      have := ih (m := m.write a b) (a := a + 1) (i := i) (by simpa using h)
      rw [store, show a + (i + 1) = a + 1 + i by omega, this]; simp

@[simp] theorem bytes_length (m : Mem) (a n : Nat) : (m.bytes a n).length = n := by
  induction n generalizing a with
  | zero => rfl
  | succ n ih => simp [bytes, ih]

theorem bytes_congr {m k : Mem} {a n : Nat} (h : ∀ i < n, m.read (a + i) = k.read (a + i)) : m.bytes a n = k.bytes a n := by
  induction n generalizing a with
  | zero => rfl
  | succ n ih =>
    simp only [bytes]
    rw [show m.read a = k.read a by simpa using h 0 (by omega),
      ih fun i hi => by have := h (i + 1) (by omega); rwa [show a + 1 + i = a + (i + 1) by omega]]

theorem bytes_store_same (m : Mem) (a : Nat) (bs : List Byte) : (m.store a bs).bytes a bs.length = bs := by
  induction bs generalizing m a with
  | nil => rfl
  | cons b bs ih =>
    simp only [List.length_cons, bytes, store]
    rw [read_store_other _ (by omega), read_write_same, ih]

theorem num_store_other {m : Mem} {a n c : Nat} (bs : List Byte) (h : c + n ≤ a ∨ a + bs.length ≤ c) :
    (m.store a bs).num c n = m.num c n := by
  rw [num, num, bytes_congr fun i hi => read_store_other bs (by omega)]

end Mem

@[simp] theorem length_bytesOfNat (n w : Nat) : (bytesOfNat n w).length = n := by
  induction n generalizing w with
  | zero => rfl
  | succ n ih => simp [bytesOfNat, ih]

/-- Bytes of a number, read back. -/
theorem natOfBytes_bytesOfNat (n w : Nat) : natOfBytes (bytesOfNat n w) = w % 256 ^ n := by
  induction n generalizing w with
  | zero => simp [bytesOfNat, natOfBytes, Nat.mod_one]
  | succ n ih =>
    rw [bytesOfNat, natOfBytes, ih, pow_succ', Nat.mod_mul]
    rfl

theorem natOfBytes_lt (bs : List Byte) : natOfBytes bs < 256 ^ bs.length := by
  induction bs with
  | nil => simp [natOfBytes]
  | cons b bs ih =>
    simp only [natOfBytes, List.length_cons, pow_succ']
    have := b.isLt
    omega

namespace Mem

/-- A number reads back as stored, little-endian (R1). -/
theorem num_putNum_same (m : Mem) (a n v : Nat) : (m.putNum a n v).num a n = v % 256 ^ n := by
  have := bytes_store_same m a (bytesOfNat n v)
  rw [length_bytesOfNat] at this
  rw [num, putNum, this, natOfBytes_bytesOfNat]

theorem num_putNum_other {m : Mem} {a n v c k : Nat} (h : c + k ≤ a ∨ a + n ≤ c) : (m.putNum a n v).num c k = m.num c k :=
  num_store_other _ (by simpa using h)

theorem num_lt (m : Mem) (a n : Nat) : m.num a n < 256 ^ n := by
  have := natOfBytes_lt (m.bytes a n)
  rwa [bytes_length] at this

end Mem

/-- Memory after reset is in its one form. -/
theorem reset_mem_wf : State.reset.mem.wf := Mem.wf_nil

end Sys2Proof.Machine
end

