-- ==== Sys2Proof/Laws/State.lean ====
section
/-!
SUPPORT. What each named update of the state leaves alone and what the accessors read after it, one lemma a field.
-/

namespace Sys2Proof.Machine.State

/-! `setTeam` -/

@[simp] theorem setTeam_m (s : State) (tid : Nat) (t : Team) : (s.setTeam tid t).m = s.m := rfl
@[simp] theorem setTeam_cores (s : State) (tid : Nat) (t : Team) : (s.setTeam tid t).cores = s.cores := rfl
@[simp] theorem setTeam_engines (s : State) (tid : Nat) (t : Team) : (s.setTeam tid t).engines = s.engines := rfl
@[simp] theorem setTeam_parts (s : State) (tid : Nat) (t : Team) : (s.setTeam tid t).parts = s.parts := rfl
@[simp] theorem setTeam_launches (s : State) (tid : Nat) (t : Team) : (s.setTeam tid t).launches = s.launches := rfl
@[simp] theorem setTeam_groups (s : State) (tid : Nat) (t : Team) : (s.setTeam tid t).groups = s.groups := rfl
@[simp] theorem setTeam_accesses (s : State) (tid : Nat) (t : Team) : (s.setTeam tid t).accesses = s.accesses := rfl
@[simp] theorem setTeam_copies (s : State) (tid : Nat) (t : Team) : (s.setTeam tid t).copies = s.copies := rfl
@[simp] theorem setTeam_reds (s : State) (tid : Nat) (t : Team) : (s.setTeam tid t).reds = s.reds := rfl
@[simp] theorem setTeam_thops (s : State) (tid : Nat) (t : Team) : (s.setTeam tid t).thops = s.thops := rfl
@[simp] theorem setTeam_arrops (s : State) (tid : Nat) (t : Team) : (s.setTeam tid t).arrops = s.arrops := rfl
@[simp] theorem setTeam_waiters (s : State) (tid : Nat) (t : Team) : (s.setTeam tid t).waiters = s.waiters := rfl
@[simp] theorem setTeam_mem (s : State) (tid : Nat) (t : Team) : (s.setTeam tid t).mem = s.mem := rfl
@[simp] theorem setTeam_hostMem (s : State) (tid : Nat) (t : Team) : (s.setTeam tid t).hostMem = s.hostMem := rfl
@[simp] theorem setTeam_domainMem (s : State) (tid : Nat) (t : Team) : (s.setTeam tid t).domainMem = s.domainMem := rfl
@[simp] theorem setTeam_leases (s : State) (tid : Nat) (t : Team) : (s.setTeam tid t).leases = s.leases := rfl
@[simp] theorem setTeam_setBounds (s : State) (tid : Nat) (t : Team) : (s.setTeam tid t).setBounds = s.setBounds := rfl
@[simp] theorem setTeam_badLines (s : State) (tid : Nat) (t : Team) : (s.setTeam tid t).badLines = s.badLines := rfl
@[simp] theorem setTeam_badLinks (s : State) (tid : Nat) (t : Team) : (s.setTeam tid t).badLinks = s.badLinks := rfl
@[simp] theorem setTeam_copies1 (s : State) (tid : Nat) (t : Team) : (s.setTeam tid t).copies1 = s.copies1 := rfl
@[simp] theorem setTeam_tlb (s : State) (tid : Nat) (t : Team) : (s.setTeam tid t).tlb = s.tlb := rfl
@[simp] theorem setTeam_rootPages (s : State) (tid : Nat) (t : Team) : (s.setTeam tid t).rootPages = s.rootPages := rfl
@[simp] theorem setTeam_bodies (s : State) (tid : Nat) (t : Team) : (s.setTeam tid t).bodies = s.bodies := rfl
@[simp] theorem setTeam_fetched (s : State) (tid : Nat) (t : Team) : (s.setTeam tid t).fetched = s.fetched := rfl
@[simp] theorem setTeam_binds (s : State) (tid : Nat) (t : Team) : (s.setTeam tid t).binds = s.binds := rfl
@[simp] theorem setTeam_topset (s : State) (tid : Nat) (t : Team) : (s.setTeam tid t).topset = s.topset := rfl
@[simp] theorem setTeam_due (s : State) (tid : Nat) (t : Team) : (s.setTeam tid t).due = s.due := rfl
@[simp] theorem setTeam_epochs (s : State) (tid : Nat) (t : Team) : (s.setTeam tid t).epochs = s.epochs := rfl
@[simp] theorem setTeam_dies (s : State) (tid : Nat) (t : Team) : (s.setTeam tid t).dies = s.dies := rfl
@[simp] theorem setTeam_rowReqs (s : State) (tid : Nat) (t : Team) : (s.setTeam tid t).rowReqs = s.rowReqs := rfl
@[simp] theorem setTeam_shards (s : State) (tid : Nat) (t : Team) : (s.setTeam tid t).shards = s.shards := rfl
@[simp] theorem setTeam_objs (s : State) (tid : Nat) (t : Team) : (s.setTeam tid t).objs = s.objs := rfl
@[simp] theorem setTeam_prunes (s : State) (tid : Nat) (t : Team) : (s.setTeam tid t).prunes = s.prunes := rfl
@[simp] theorem setTeam_oldTiles (s : State) (tid : Nat) (t : Team) : (s.setTeam tid t).oldTiles = s.oldTiles := rfl
@[simp] theorem setTeam_contexts (s : State) (tid : Nat) (t : Team) : (s.setTeam tid t).contexts = s.contexts := rfl
@[simp] theorem setTeam_exports (s : State) (tid : Nat) (t : Team) : (s.setTeam tid t).exports = s.exports := rfl
@[simp] theorem setTeam_reverse (s : State) (tid : Nat) (t : Team) : (s.setTeam tid t).reverse = s.reverse := rfl
@[simp] theorem setTeam_agenda (s : State) (tid : Nat) (t : Team) : (s.setTeam tid t).agenda = s.agenda := rfl
@[simp] theorem setTeam_issue (s : State) (tid : Nat) (t : Team) : (s.setTeam tid t).issue = s.issue := rfl
@[simp] theorem setTeam_rotor (s : State) (tid : Nat) (t : Team) : (s.setTeam tid t).rotor = s.rotor := rfl
@[simp] theorem setTeam_free (s : State) (tid : Nat) (t : Team) : (s.setTeam tid t).free = s.free := rfl
@[simp] theorem setTeam_nextId (s : State) (tid : Nat) (t : Team) : (s.setTeam tid t).nextId = s.nextId := rfl
@[simp] theorem group_setTeam_of (s : State) (tid : Nat) (t : Team) (k : Nat) : (s.setTeam tid t).group k = s.group k := rfl
@[simp] theorem launch_setTeam_of (s : State) (tid : Nat) (t : Team) (k : Nat) : (s.setTeam tid t).launch k = s.launch k := rfl
@[simp] theorem core_setTeam_of (s : State) (tid : Nat) (t : Team) (k : Nat) : (s.setTeam tid t).core k = s.core k := rfl
@[simp] theorem engine_setTeam_of (s : State) (tid : Nat) (t : Team) (k : Nat) : (s.setTeam tid t).engine k = s.engine k := rfl
@[simp] theorem part_setTeam_of (s : State) (tid : Nat) (t : Team) (k : Nat) : (s.setTeam tid t).part k = s.part k := rfl
@[simp] theorem bind_setTeam_of (s : State) (tid : Nat) (t : Team) (k : Nat) : (s.setTeam tid t).bind k = s.bind k := rfl
@[simp] theorem die_setTeam_of (s : State) (tid : Nat) (t : Team) (k : Nat) : (s.setTeam tid t).die k = s.die k := rfl

/-! `setLaunch` -/

@[simp] theorem setLaunch_m (s : State) (lid : Nat) (l : Launch) : (s.setLaunch lid l).m = s.m := rfl
@[simp] theorem setLaunch_cores (s : State) (lid : Nat) (l : Launch) : (s.setLaunch lid l).cores = s.cores := rfl
@[simp] theorem setLaunch_engines (s : State) (lid : Nat) (l : Launch) : (s.setLaunch lid l).engines = s.engines := rfl
@[simp] theorem setLaunch_parts (s : State) (lid : Nat) (l : Launch) : (s.setLaunch lid l).parts = s.parts := rfl
@[simp] theorem setLaunch_teams (s : State) (lid : Nat) (l : Launch) : (s.setLaunch lid l).teams = s.teams := rfl
@[simp] theorem setLaunch_groups (s : State) (lid : Nat) (l : Launch) : (s.setLaunch lid l).groups = s.groups := rfl
@[simp] theorem setLaunch_accesses (s : State) (lid : Nat) (l : Launch) : (s.setLaunch lid l).accesses = s.accesses := rfl
@[simp] theorem setLaunch_copies (s : State) (lid : Nat) (l : Launch) : (s.setLaunch lid l).copies = s.copies := rfl
@[simp] theorem setLaunch_reds (s : State) (lid : Nat) (l : Launch) : (s.setLaunch lid l).reds = s.reds := rfl
@[simp] theorem setLaunch_thops (s : State) (lid : Nat) (l : Launch) : (s.setLaunch lid l).thops = s.thops := rfl
@[simp] theorem setLaunch_arrops (s : State) (lid : Nat) (l : Launch) : (s.setLaunch lid l).arrops = s.arrops := rfl
@[simp] theorem setLaunch_waiters (s : State) (lid : Nat) (l : Launch) : (s.setLaunch lid l).waiters = s.waiters := rfl
@[simp] theorem setLaunch_mem (s : State) (lid : Nat) (l : Launch) : (s.setLaunch lid l).mem = s.mem := rfl
@[simp] theorem setLaunch_hostMem (s : State) (lid : Nat) (l : Launch) : (s.setLaunch lid l).hostMem = s.hostMem := rfl
@[simp] theorem setLaunch_domainMem (s : State) (lid : Nat) (l : Launch) : (s.setLaunch lid l).domainMem = s.domainMem := rfl
@[simp] theorem setLaunch_leases (s : State) (lid : Nat) (l : Launch) : (s.setLaunch lid l).leases = s.leases := rfl
@[simp] theorem setLaunch_setBounds (s : State) (lid : Nat) (l : Launch) : (s.setLaunch lid l).setBounds = s.setBounds := rfl
@[simp] theorem setLaunch_badLines (s : State) (lid : Nat) (l : Launch) : (s.setLaunch lid l).badLines = s.badLines := rfl
@[simp] theorem setLaunch_badLinks (s : State) (lid : Nat) (l : Launch) : (s.setLaunch lid l).badLinks = s.badLinks := rfl
@[simp] theorem setLaunch_copies1 (s : State) (lid : Nat) (l : Launch) : (s.setLaunch lid l).copies1 = s.copies1 := rfl
@[simp] theorem setLaunch_tlb (s : State) (lid : Nat) (l : Launch) : (s.setLaunch lid l).tlb = s.tlb := rfl
@[simp] theorem setLaunch_rootPages (s : State) (lid : Nat) (l : Launch) : (s.setLaunch lid l).rootPages = s.rootPages := rfl
@[simp] theorem setLaunch_bodies (s : State) (lid : Nat) (l : Launch) : (s.setLaunch lid l).bodies = s.bodies := rfl
@[simp] theorem setLaunch_fetched (s : State) (lid : Nat) (l : Launch) : (s.setLaunch lid l).fetched = s.fetched := rfl
@[simp] theorem setLaunch_binds (s : State) (lid : Nat) (l : Launch) : (s.setLaunch lid l).binds = s.binds := rfl
@[simp] theorem setLaunch_topset (s : State) (lid : Nat) (l : Launch) : (s.setLaunch lid l).topset = s.topset := rfl
@[simp] theorem setLaunch_due (s : State) (lid : Nat) (l : Launch) : (s.setLaunch lid l).due = s.due := rfl
@[simp] theorem setLaunch_epochs (s : State) (lid : Nat) (l : Launch) : (s.setLaunch lid l).epochs = s.epochs := rfl
@[simp] theorem setLaunch_dies (s : State) (lid : Nat) (l : Launch) : (s.setLaunch lid l).dies = s.dies := rfl
@[simp] theorem setLaunch_rowReqs (s : State) (lid : Nat) (l : Launch) : (s.setLaunch lid l).rowReqs = s.rowReqs := rfl
@[simp] theorem setLaunch_shards (s : State) (lid : Nat) (l : Launch) : (s.setLaunch lid l).shards = s.shards := rfl
@[simp] theorem setLaunch_objs (s : State) (lid : Nat) (l : Launch) : (s.setLaunch lid l).objs = s.objs := rfl
@[simp] theorem setLaunch_prunes (s : State) (lid : Nat) (l : Launch) : (s.setLaunch lid l).prunes = s.prunes := rfl
@[simp] theorem setLaunch_oldTiles (s : State) (lid : Nat) (l : Launch) : (s.setLaunch lid l).oldTiles = s.oldTiles := rfl
@[simp] theorem setLaunch_contexts (s : State) (lid : Nat) (l : Launch) : (s.setLaunch lid l).contexts = s.contexts := rfl
@[simp] theorem setLaunch_exports (s : State) (lid : Nat) (l : Launch) : (s.setLaunch lid l).exports = s.exports := rfl
@[simp] theorem setLaunch_reverse (s : State) (lid : Nat) (l : Launch) : (s.setLaunch lid l).reverse = s.reverse := rfl
@[simp] theorem setLaunch_agenda (s : State) (lid : Nat) (l : Launch) : (s.setLaunch lid l).agenda = s.agenda := rfl
@[simp] theorem setLaunch_issue (s : State) (lid : Nat) (l : Launch) : (s.setLaunch lid l).issue = s.issue := rfl
@[simp] theorem setLaunch_rotor (s : State) (lid : Nat) (l : Launch) : (s.setLaunch lid l).rotor = s.rotor := rfl
@[simp] theorem setLaunch_free (s : State) (lid : Nat) (l : Launch) : (s.setLaunch lid l).free = s.free := rfl
@[simp] theorem setLaunch_nextId (s : State) (lid : Nat) (l : Launch) : (s.setLaunch lid l).nextId = s.nextId := rfl
@[simp] theorem group_setLaunch_of (s : State) (lid : Nat) (l : Launch) (k : Nat) : (s.setLaunch lid l).group k = s.group k := rfl
@[simp] theorem team_setLaunch_of (s : State) (lid : Nat) (l : Launch) (k : Nat) : (s.setLaunch lid l).team k = s.team k := rfl
@[simp] theorem core_setLaunch_of (s : State) (lid : Nat) (l : Launch) (k : Nat) : (s.setLaunch lid l).core k = s.core k := rfl
@[simp] theorem engine_setLaunch_of (s : State) (lid : Nat) (l : Launch) (k : Nat) : (s.setLaunch lid l).engine k = s.engine k := rfl
@[simp] theorem part_setLaunch_of (s : State) (lid : Nat) (l : Launch) (k : Nat) : (s.setLaunch lid l).part k = s.part k := rfl
@[simp] theorem bind_setLaunch_of (s : State) (lid : Nat) (l : Launch) (k : Nat) : (s.setLaunch lid l).bind k = s.bind k := rfl
@[simp] theorem die_setLaunch_of (s : State) (lid : Nat) (l : Launch) (k : Nat) : (s.setLaunch lid l).die k = s.die k := rfl

/-! `setCore` -/

@[simp] theorem setCore_m (s : State) (n : Nat) (c : Core) : (s.setCore n c).m = s.m := rfl
@[simp] theorem setCore_engines (s : State) (n : Nat) (c : Core) : (s.setCore n c).engines = s.engines := rfl
@[simp] theorem setCore_parts (s : State) (n : Nat) (c : Core) : (s.setCore n c).parts = s.parts := rfl
@[simp] theorem setCore_launches (s : State) (n : Nat) (c : Core) : (s.setCore n c).launches = s.launches := rfl
@[simp] theorem setCore_teams (s : State) (n : Nat) (c : Core) : (s.setCore n c).teams = s.teams := rfl
@[simp] theorem setCore_groups (s : State) (n : Nat) (c : Core) : (s.setCore n c).groups = s.groups := rfl
@[simp] theorem setCore_accesses (s : State) (n : Nat) (c : Core) : (s.setCore n c).accesses = s.accesses := rfl
@[simp] theorem setCore_copies (s : State) (n : Nat) (c : Core) : (s.setCore n c).copies = s.copies := rfl
@[simp] theorem setCore_reds (s : State) (n : Nat) (c : Core) : (s.setCore n c).reds = s.reds := rfl
@[simp] theorem setCore_thops (s : State) (n : Nat) (c : Core) : (s.setCore n c).thops = s.thops := rfl
@[simp] theorem setCore_arrops (s : State) (n : Nat) (c : Core) : (s.setCore n c).arrops = s.arrops := rfl
@[simp] theorem setCore_waiters (s : State) (n : Nat) (c : Core) : (s.setCore n c).waiters = s.waiters := rfl
@[simp] theorem setCore_mem (s : State) (n : Nat) (c : Core) : (s.setCore n c).mem = s.mem := rfl
@[simp] theorem setCore_hostMem (s : State) (n : Nat) (c : Core) : (s.setCore n c).hostMem = s.hostMem := rfl
@[simp] theorem setCore_domainMem (s : State) (n : Nat) (c : Core) : (s.setCore n c).domainMem = s.domainMem := rfl
@[simp] theorem setCore_leases (s : State) (n : Nat) (c : Core) : (s.setCore n c).leases = s.leases := rfl
@[simp] theorem setCore_setBounds (s : State) (n : Nat) (c : Core) : (s.setCore n c).setBounds = s.setBounds := rfl
@[simp] theorem setCore_badLines (s : State) (n : Nat) (c : Core) : (s.setCore n c).badLines = s.badLines := rfl
@[simp] theorem setCore_badLinks (s : State) (n : Nat) (c : Core) : (s.setCore n c).badLinks = s.badLinks := rfl
@[simp] theorem setCore_copies1 (s : State) (n : Nat) (c : Core) : (s.setCore n c).copies1 = s.copies1 := rfl
@[simp] theorem setCore_tlb (s : State) (n : Nat) (c : Core) : (s.setCore n c).tlb = s.tlb := rfl
@[simp] theorem setCore_rootPages (s : State) (n : Nat) (c : Core) : (s.setCore n c).rootPages = s.rootPages := rfl
@[simp] theorem setCore_bodies (s : State) (n : Nat) (c : Core) : (s.setCore n c).bodies = s.bodies := rfl
@[simp] theorem setCore_fetched (s : State) (n : Nat) (c : Core) : (s.setCore n c).fetched = s.fetched := rfl
@[simp] theorem setCore_binds (s : State) (n : Nat) (c : Core) : (s.setCore n c).binds = s.binds := rfl
@[simp] theorem setCore_topset (s : State) (n : Nat) (c : Core) : (s.setCore n c).topset = s.topset := rfl
@[simp] theorem setCore_due (s : State) (n : Nat) (c : Core) : (s.setCore n c).due = s.due := rfl
@[simp] theorem setCore_epochs (s : State) (n : Nat) (c : Core) : (s.setCore n c).epochs = s.epochs := rfl
@[simp] theorem setCore_dies (s : State) (n : Nat) (c : Core) : (s.setCore n c).dies = s.dies := rfl
@[simp] theorem setCore_rowReqs (s : State) (n : Nat) (c : Core) : (s.setCore n c).rowReqs = s.rowReqs := rfl
@[simp] theorem setCore_shards (s : State) (n : Nat) (c : Core) : (s.setCore n c).shards = s.shards := rfl
@[simp] theorem setCore_objs (s : State) (n : Nat) (c : Core) : (s.setCore n c).objs = s.objs := rfl
@[simp] theorem setCore_prunes (s : State) (n : Nat) (c : Core) : (s.setCore n c).prunes = s.prunes := rfl
@[simp] theorem setCore_oldTiles (s : State) (n : Nat) (c : Core) : (s.setCore n c).oldTiles = s.oldTiles := rfl
@[simp] theorem setCore_contexts (s : State) (n : Nat) (c : Core) : (s.setCore n c).contexts = s.contexts := rfl
@[simp] theorem setCore_exports (s : State) (n : Nat) (c : Core) : (s.setCore n c).exports = s.exports := rfl
@[simp] theorem setCore_reverse (s : State) (n : Nat) (c : Core) : (s.setCore n c).reverse = s.reverse := rfl
@[simp] theorem setCore_agenda (s : State) (n : Nat) (c : Core) : (s.setCore n c).agenda = s.agenda := rfl
@[simp] theorem setCore_issue (s : State) (n : Nat) (c : Core) : (s.setCore n c).issue = s.issue := rfl
@[simp] theorem setCore_rotor (s : State) (n : Nat) (c : Core) : (s.setCore n c).rotor = s.rotor := rfl
@[simp] theorem setCore_free (s : State) (n : Nat) (c : Core) : (s.setCore n c).free = s.free := rfl
@[simp] theorem setCore_nextId (s : State) (n : Nat) (c : Core) : (s.setCore n c).nextId = s.nextId := rfl
@[simp] theorem group_setCore_of (s : State) (n : Nat) (c : Core) (k : Nat) : (s.setCore n c).group k = s.group k := rfl
@[simp] theorem team_setCore_of (s : State) (n : Nat) (c : Core) (k : Nat) : (s.setCore n c).team k = s.team k := rfl
@[simp] theorem launch_setCore_of (s : State) (n : Nat) (c : Core) (k : Nat) : (s.setCore n c).launch k = s.launch k := rfl
@[simp] theorem engine_setCore_of (s : State) (n : Nat) (c : Core) (k : Nat) : (s.setCore n c).engine k = s.engine k := rfl
@[simp] theorem part_setCore_of (s : State) (n : Nat) (c : Core) (k : Nat) : (s.setCore n c).part k = s.part k := rfl
@[simp] theorem bind_setCore_of (s : State) (n : Nat) (c : Core) (k : Nat) : (s.setCore n c).bind k = s.bind k := rfl
@[simp] theorem die_setCore_of (s : State) (n : Nat) (c : Core) (k : Nat) : (s.setCore n c).die k = s.die k := rfl

/-! `setEngine` -/

@[simp] theorem setEngine_m (s : State) (q : Nat) (e : Engine) : (s.setEngine q e).m = s.m := rfl
@[simp] theorem setEngine_cores (s : State) (q : Nat) (e : Engine) : (s.setEngine q e).cores = s.cores := rfl
@[simp] theorem setEngine_parts (s : State) (q : Nat) (e : Engine) : (s.setEngine q e).parts = s.parts := rfl
@[simp] theorem setEngine_launches (s : State) (q : Nat) (e : Engine) : (s.setEngine q e).launches = s.launches := rfl
@[simp] theorem setEngine_teams (s : State) (q : Nat) (e : Engine) : (s.setEngine q e).teams = s.teams := rfl
@[simp] theorem setEngine_groups (s : State) (q : Nat) (e : Engine) : (s.setEngine q e).groups = s.groups := rfl
@[simp] theorem setEngine_accesses (s : State) (q : Nat) (e : Engine) : (s.setEngine q e).accesses = s.accesses := rfl
@[simp] theorem setEngine_copies (s : State) (q : Nat) (e : Engine) : (s.setEngine q e).copies = s.copies := rfl
@[simp] theorem setEngine_reds (s : State) (q : Nat) (e : Engine) : (s.setEngine q e).reds = s.reds := rfl
@[simp] theorem setEngine_thops (s : State) (q : Nat) (e : Engine) : (s.setEngine q e).thops = s.thops := rfl
@[simp] theorem setEngine_arrops (s : State) (q : Nat) (e : Engine) : (s.setEngine q e).arrops = s.arrops := rfl
@[simp] theorem setEngine_waiters (s : State) (q : Nat) (e : Engine) : (s.setEngine q e).waiters = s.waiters := rfl
@[simp] theorem setEngine_mem (s : State) (q : Nat) (e : Engine) : (s.setEngine q e).mem = s.mem := rfl
@[simp] theorem setEngine_hostMem (s : State) (q : Nat) (e : Engine) : (s.setEngine q e).hostMem = s.hostMem := rfl
@[simp] theorem setEngine_domainMem (s : State) (q : Nat) (e : Engine) : (s.setEngine q e).domainMem = s.domainMem := rfl
@[simp] theorem setEngine_leases (s : State) (q : Nat) (e : Engine) : (s.setEngine q e).leases = s.leases := rfl
@[simp] theorem setEngine_setBounds (s : State) (q : Nat) (e : Engine) : (s.setEngine q e).setBounds = s.setBounds := rfl
@[simp] theorem setEngine_badLines (s : State) (q : Nat) (e : Engine) : (s.setEngine q e).badLines = s.badLines := rfl
@[simp] theorem setEngine_badLinks (s : State) (q : Nat) (e : Engine) : (s.setEngine q e).badLinks = s.badLinks := rfl
@[simp] theorem setEngine_copies1 (s : State) (q : Nat) (e : Engine) : (s.setEngine q e).copies1 = s.copies1 := rfl
@[simp] theorem setEngine_tlb (s : State) (q : Nat) (e : Engine) : (s.setEngine q e).tlb = s.tlb := rfl
@[simp] theorem setEngine_rootPages (s : State) (q : Nat) (e : Engine) : (s.setEngine q e).rootPages = s.rootPages := rfl
@[simp] theorem setEngine_bodies (s : State) (q : Nat) (e : Engine) : (s.setEngine q e).bodies = s.bodies := rfl
@[simp] theorem setEngine_fetched (s : State) (q : Nat) (e : Engine) : (s.setEngine q e).fetched = s.fetched := rfl
@[simp] theorem setEngine_binds (s : State) (q : Nat) (e : Engine) : (s.setEngine q e).binds = s.binds := rfl
@[simp] theorem setEngine_topset (s : State) (q : Nat) (e : Engine) : (s.setEngine q e).topset = s.topset := rfl
@[simp] theorem setEngine_due (s : State) (q : Nat) (e : Engine) : (s.setEngine q e).due = s.due := rfl
@[simp] theorem setEngine_epochs (s : State) (q : Nat) (e : Engine) : (s.setEngine q e).epochs = s.epochs := rfl
@[simp] theorem setEngine_dies (s : State) (q : Nat) (e : Engine) : (s.setEngine q e).dies = s.dies := rfl
@[simp] theorem setEngine_rowReqs (s : State) (q : Nat) (e : Engine) : (s.setEngine q e).rowReqs = s.rowReqs := rfl
@[simp] theorem setEngine_shards (s : State) (q : Nat) (e : Engine) : (s.setEngine q e).shards = s.shards := rfl
@[simp] theorem setEngine_objs (s : State) (q : Nat) (e : Engine) : (s.setEngine q e).objs = s.objs := rfl
@[simp] theorem setEngine_prunes (s : State) (q : Nat) (e : Engine) : (s.setEngine q e).prunes = s.prunes := rfl
@[simp] theorem setEngine_oldTiles (s : State) (q : Nat) (e : Engine) : (s.setEngine q e).oldTiles = s.oldTiles := rfl
@[simp] theorem setEngine_contexts (s : State) (q : Nat) (e : Engine) : (s.setEngine q e).contexts = s.contexts := rfl
@[simp] theorem setEngine_exports (s : State) (q : Nat) (e : Engine) : (s.setEngine q e).exports = s.exports := rfl
@[simp] theorem setEngine_reverse (s : State) (q : Nat) (e : Engine) : (s.setEngine q e).reverse = s.reverse := rfl
@[simp] theorem setEngine_agenda (s : State) (q : Nat) (e : Engine) : (s.setEngine q e).agenda = s.agenda := rfl
@[simp] theorem setEngine_issue (s : State) (q : Nat) (e : Engine) : (s.setEngine q e).issue = s.issue := rfl
@[simp] theorem setEngine_rotor (s : State) (q : Nat) (e : Engine) : (s.setEngine q e).rotor = s.rotor := rfl
@[simp] theorem setEngine_free (s : State) (q : Nat) (e : Engine) : (s.setEngine q e).free = s.free := rfl
@[simp] theorem setEngine_nextId (s : State) (q : Nat) (e : Engine) : (s.setEngine q e).nextId = s.nextId := rfl
@[simp] theorem group_setEngine_of (s : State) (q : Nat) (e : Engine) (k : Nat) : (s.setEngine q e).group k = s.group k := rfl
@[simp] theorem team_setEngine_of (s : State) (q : Nat) (e : Engine) (k : Nat) : (s.setEngine q e).team k = s.team k := rfl
@[simp] theorem launch_setEngine_of (s : State) (q : Nat) (e : Engine) (k : Nat) : (s.setEngine q e).launch k = s.launch k := rfl
@[simp] theorem core_setEngine_of (s : State) (q : Nat) (e : Engine) (k : Nat) : (s.setEngine q e).core k = s.core k := rfl
@[simp] theorem part_setEngine_of (s : State) (q : Nat) (e : Engine) (k : Nat) : (s.setEngine q e).part k = s.part k := rfl
@[simp] theorem bind_setEngine_of (s : State) (q : Nat) (e : Engine) (k : Nat) : (s.setEngine q e).bind k = s.bind k := rfl
@[simp] theorem die_setEngine_of (s : State) (q : Nat) (e : Engine) (k : Nat) : (s.setEngine q e).die k = s.die k := rfl

/-! `setPart` -/

@[simp] theorem setPart_m (s : State) (p : Nat) (x : Part) : (s.setPart p x).m = s.m := rfl
@[simp] theorem setPart_cores (s : State) (p : Nat) (x : Part) : (s.setPart p x).cores = s.cores := rfl
@[simp] theorem setPart_engines (s : State) (p : Nat) (x : Part) : (s.setPart p x).engines = s.engines := rfl
@[simp] theorem setPart_launches (s : State) (p : Nat) (x : Part) : (s.setPart p x).launches = s.launches := rfl
@[simp] theorem setPart_teams (s : State) (p : Nat) (x : Part) : (s.setPart p x).teams = s.teams := rfl
@[simp] theorem setPart_groups (s : State) (p : Nat) (x : Part) : (s.setPart p x).groups = s.groups := rfl
@[simp] theorem setPart_accesses (s : State) (p : Nat) (x : Part) : (s.setPart p x).accesses = s.accesses := rfl
@[simp] theorem setPart_copies (s : State) (p : Nat) (x : Part) : (s.setPart p x).copies = s.copies := rfl
@[simp] theorem setPart_reds (s : State) (p : Nat) (x : Part) : (s.setPart p x).reds = s.reds := rfl
@[simp] theorem setPart_thops (s : State) (p : Nat) (x : Part) : (s.setPart p x).thops = s.thops := rfl
@[simp] theorem setPart_arrops (s : State) (p : Nat) (x : Part) : (s.setPart p x).arrops = s.arrops := rfl
@[simp] theorem setPart_waiters (s : State) (p : Nat) (x : Part) : (s.setPart p x).waiters = s.waiters := rfl
@[simp] theorem setPart_mem (s : State) (p : Nat) (x : Part) : (s.setPart p x).mem = s.mem := rfl
@[simp] theorem setPart_hostMem (s : State) (p : Nat) (x : Part) : (s.setPart p x).hostMem = s.hostMem := rfl
@[simp] theorem setPart_domainMem (s : State) (p : Nat) (x : Part) : (s.setPart p x).domainMem = s.domainMem := rfl
@[simp] theorem setPart_leases (s : State) (p : Nat) (x : Part) : (s.setPart p x).leases = s.leases := rfl
@[simp] theorem setPart_setBounds (s : State) (p : Nat) (x : Part) : (s.setPart p x).setBounds = s.setBounds := rfl
@[simp] theorem setPart_badLines (s : State) (p : Nat) (x : Part) : (s.setPart p x).badLines = s.badLines := rfl
@[simp] theorem setPart_badLinks (s : State) (p : Nat) (x : Part) : (s.setPart p x).badLinks = s.badLinks := rfl
@[simp] theorem setPart_copies1 (s : State) (p : Nat) (x : Part) : (s.setPart p x).copies1 = s.copies1 := rfl
@[simp] theorem setPart_tlb (s : State) (p : Nat) (x : Part) : (s.setPart p x).tlb = s.tlb := rfl
@[simp] theorem setPart_rootPages (s : State) (p : Nat) (x : Part) : (s.setPart p x).rootPages = s.rootPages := rfl
@[simp] theorem setPart_bodies (s : State) (p : Nat) (x : Part) : (s.setPart p x).bodies = s.bodies := rfl
@[simp] theorem setPart_fetched (s : State) (p : Nat) (x : Part) : (s.setPart p x).fetched = s.fetched := rfl
@[simp] theorem setPart_binds (s : State) (p : Nat) (x : Part) : (s.setPart p x).binds = s.binds := rfl
@[simp] theorem setPart_topset (s : State) (p : Nat) (x : Part) : (s.setPart p x).topset = s.topset := rfl
@[simp] theorem setPart_due (s : State) (p : Nat) (x : Part) : (s.setPart p x).due = s.due := rfl
@[simp] theorem setPart_epochs (s : State) (p : Nat) (x : Part) : (s.setPart p x).epochs = s.epochs := rfl
@[simp] theorem setPart_dies (s : State) (p : Nat) (x : Part) : (s.setPart p x).dies = s.dies := rfl
@[simp] theorem setPart_rowReqs (s : State) (p : Nat) (x : Part) : (s.setPart p x).rowReqs = s.rowReqs := rfl
@[simp] theorem setPart_shards (s : State) (p : Nat) (x : Part) : (s.setPart p x).shards = s.shards := rfl
@[simp] theorem setPart_objs (s : State) (p : Nat) (x : Part) : (s.setPart p x).objs = s.objs := rfl
@[simp] theorem setPart_prunes (s : State) (p : Nat) (x : Part) : (s.setPart p x).prunes = s.prunes := rfl
@[simp] theorem setPart_oldTiles (s : State) (p : Nat) (x : Part) : (s.setPart p x).oldTiles = s.oldTiles := rfl
@[simp] theorem setPart_contexts (s : State) (p : Nat) (x : Part) : (s.setPart p x).contexts = s.contexts := rfl
@[simp] theorem setPart_exports (s : State) (p : Nat) (x : Part) : (s.setPart p x).exports = s.exports := rfl
@[simp] theorem setPart_reverse (s : State) (p : Nat) (x : Part) : (s.setPart p x).reverse = s.reverse := rfl
@[simp] theorem setPart_agenda (s : State) (p : Nat) (x : Part) : (s.setPart p x).agenda = s.agenda := rfl
@[simp] theorem setPart_issue (s : State) (p : Nat) (x : Part) : (s.setPart p x).issue = s.issue := rfl
@[simp] theorem setPart_rotor (s : State) (p : Nat) (x : Part) : (s.setPart p x).rotor = s.rotor := rfl
@[simp] theorem setPart_free (s : State) (p : Nat) (x : Part) : (s.setPart p x).free = s.free := rfl
@[simp] theorem setPart_nextId (s : State) (p : Nat) (x : Part) : (s.setPart p x).nextId = s.nextId := rfl
@[simp] theorem group_setPart_of (s : State) (p : Nat) (x : Part) (k : Nat) : (s.setPart p x).group k = s.group k := rfl
@[simp] theorem team_setPart_of (s : State) (p : Nat) (x : Part) (k : Nat) : (s.setPart p x).team k = s.team k := rfl
@[simp] theorem launch_setPart_of (s : State) (p : Nat) (x : Part) (k : Nat) : (s.setPart p x).launch k = s.launch k := rfl
@[simp] theorem core_setPart_of (s : State) (p : Nat) (x : Part) (k : Nat) : (s.setPart p x).core k = s.core k := rfl
@[simp] theorem engine_setPart_of (s : State) (p : Nat) (x : Part) (k : Nat) : (s.setPart p x).engine k = s.engine k := rfl
@[simp] theorem bind_setPart_of (s : State) (p : Nat) (x : Part) (k : Nat) : (s.setPart p x).bind k = s.bind k := rfl
@[simp] theorem die_setPart_of (s : State) (p : Nat) (x : Part) (k : Nat) : (s.setPart p x).die k = s.die k := rfl

/-! `setBind` -/

@[simp] theorem setBind_m (s : State) (n : Nat) (b : BindE) : (s.setBind n b).m = s.m := rfl
@[simp] theorem setBind_cores (s : State) (n : Nat) (b : BindE) : (s.setBind n b).cores = s.cores := rfl
@[simp] theorem setBind_engines (s : State) (n : Nat) (b : BindE) : (s.setBind n b).engines = s.engines := rfl
@[simp] theorem setBind_parts (s : State) (n : Nat) (b : BindE) : (s.setBind n b).parts = s.parts := rfl
@[simp] theorem setBind_launches (s : State) (n : Nat) (b : BindE) : (s.setBind n b).launches = s.launches := rfl
@[simp] theorem setBind_teams (s : State) (n : Nat) (b : BindE) : (s.setBind n b).teams = s.teams := rfl
@[simp] theorem setBind_groups (s : State) (n : Nat) (b : BindE) : (s.setBind n b).groups = s.groups := rfl
@[simp] theorem setBind_accesses (s : State) (n : Nat) (b : BindE) : (s.setBind n b).accesses = s.accesses := rfl
@[simp] theorem setBind_copies (s : State) (n : Nat) (b : BindE) : (s.setBind n b).copies = s.copies := rfl
@[simp] theorem setBind_reds (s : State) (n : Nat) (b : BindE) : (s.setBind n b).reds = s.reds := rfl
@[simp] theorem setBind_thops (s : State) (n : Nat) (b : BindE) : (s.setBind n b).thops = s.thops := rfl
@[simp] theorem setBind_arrops (s : State) (n : Nat) (b : BindE) : (s.setBind n b).arrops = s.arrops := rfl
@[simp] theorem setBind_waiters (s : State) (n : Nat) (b : BindE) : (s.setBind n b).waiters = s.waiters := rfl
@[simp] theorem setBind_mem (s : State) (n : Nat) (b : BindE) : (s.setBind n b).mem = s.mem := rfl
@[simp] theorem setBind_hostMem (s : State) (n : Nat) (b : BindE) : (s.setBind n b).hostMem = s.hostMem := rfl
@[simp] theorem setBind_domainMem (s : State) (n : Nat) (b : BindE) : (s.setBind n b).domainMem = s.domainMem := rfl
@[simp] theorem setBind_leases (s : State) (n : Nat) (b : BindE) : (s.setBind n b).leases = s.leases := rfl
@[simp] theorem setBind_setBounds (s : State) (n : Nat) (b : BindE) : (s.setBind n b).setBounds = s.setBounds := rfl
@[simp] theorem setBind_badLines (s : State) (n : Nat) (b : BindE) : (s.setBind n b).badLines = s.badLines := rfl
@[simp] theorem setBind_badLinks (s : State) (n : Nat) (b : BindE) : (s.setBind n b).badLinks = s.badLinks := rfl
@[simp] theorem setBind_copies1 (s : State) (n : Nat) (b : BindE) : (s.setBind n b).copies1 = s.copies1 := rfl
@[simp] theorem setBind_tlb (s : State) (n : Nat) (b : BindE) : (s.setBind n b).tlb = s.tlb := rfl
@[simp] theorem setBind_rootPages (s : State) (n : Nat) (b : BindE) : (s.setBind n b).rootPages = s.rootPages := rfl
@[simp] theorem setBind_bodies (s : State) (n : Nat) (b : BindE) : (s.setBind n b).bodies = s.bodies := rfl
@[simp] theorem setBind_fetched (s : State) (n : Nat) (b : BindE) : (s.setBind n b).fetched = s.fetched := rfl
@[simp] theorem setBind_topset (s : State) (n : Nat) (b : BindE) : (s.setBind n b).topset = s.topset := rfl
@[simp] theorem setBind_due (s : State) (n : Nat) (b : BindE) : (s.setBind n b).due = s.due := rfl
@[simp] theorem setBind_epochs (s : State) (n : Nat) (b : BindE) : (s.setBind n b).epochs = s.epochs := rfl
@[simp] theorem setBind_dies (s : State) (n : Nat) (b : BindE) : (s.setBind n b).dies = s.dies := rfl
@[simp] theorem setBind_rowReqs (s : State) (n : Nat) (b : BindE) : (s.setBind n b).rowReqs = s.rowReqs := rfl
@[simp] theorem setBind_shards (s : State) (n : Nat) (b : BindE) : (s.setBind n b).shards = s.shards := rfl
@[simp] theorem setBind_objs (s : State) (n : Nat) (b : BindE) : (s.setBind n b).objs = s.objs := rfl
@[simp] theorem setBind_prunes (s : State) (n : Nat) (b : BindE) : (s.setBind n b).prunes = s.prunes := rfl
@[simp] theorem setBind_oldTiles (s : State) (n : Nat) (b : BindE) : (s.setBind n b).oldTiles = s.oldTiles := rfl
@[simp] theorem setBind_contexts (s : State) (n : Nat) (b : BindE) : (s.setBind n b).contexts = s.contexts := rfl
@[simp] theorem setBind_exports (s : State) (n : Nat) (b : BindE) : (s.setBind n b).exports = s.exports := rfl
@[simp] theorem setBind_reverse (s : State) (n : Nat) (b : BindE) : (s.setBind n b).reverse = s.reverse := rfl
@[simp] theorem setBind_agenda (s : State) (n : Nat) (b : BindE) : (s.setBind n b).agenda = s.agenda := rfl
@[simp] theorem setBind_issue (s : State) (n : Nat) (b : BindE) : (s.setBind n b).issue = s.issue := rfl
@[simp] theorem setBind_rotor (s : State) (n : Nat) (b : BindE) : (s.setBind n b).rotor = s.rotor := rfl
@[simp] theorem setBind_free (s : State) (n : Nat) (b : BindE) : (s.setBind n b).free = s.free := rfl
@[simp] theorem setBind_nextId (s : State) (n : Nat) (b : BindE) : (s.setBind n b).nextId = s.nextId := rfl
@[simp] theorem group_setBind_of (s : State) (n : Nat) (b : BindE) (k : Nat) : (s.setBind n b).group k = s.group k := rfl
@[simp] theorem team_setBind_of (s : State) (n : Nat) (b : BindE) (k : Nat) : (s.setBind n b).team k = s.team k := rfl
@[simp] theorem launch_setBind_of (s : State) (n : Nat) (b : BindE) (k : Nat) : (s.setBind n b).launch k = s.launch k := rfl
@[simp] theorem core_setBind_of (s : State) (n : Nat) (b : BindE) (k : Nat) : (s.setBind n b).core k = s.core k := rfl
@[simp] theorem engine_setBind_of (s : State) (n : Nat) (b : BindE) (k : Nat) : (s.setBind n b).engine k = s.engine k := rfl
@[simp] theorem part_setBind_of (s : State) (n : Nat) (b : BindE) (k : Nat) : (s.setBind n b).part k = s.part k := rfl
@[simp] theorem die_setBind_of (s : State) (n : Nat) (b : BindE) (k : Nat) : (s.setBind n b).die k = s.die k := rfl

/-! `setDie` -/

@[simp] theorem setDie_m (s : State) (d : Nat) (x : Die) : (s.setDie d x).m = s.m := rfl
@[simp] theorem setDie_cores (s : State) (d : Nat) (x : Die) : (s.setDie d x).cores = s.cores := rfl
@[simp] theorem setDie_engines (s : State) (d : Nat) (x : Die) : (s.setDie d x).engines = s.engines := rfl
@[simp] theorem setDie_parts (s : State) (d : Nat) (x : Die) : (s.setDie d x).parts = s.parts := rfl
@[simp] theorem setDie_launches (s : State) (d : Nat) (x : Die) : (s.setDie d x).launches = s.launches := rfl
@[simp] theorem setDie_teams (s : State) (d : Nat) (x : Die) : (s.setDie d x).teams = s.teams := rfl
@[simp] theorem setDie_groups (s : State) (d : Nat) (x : Die) : (s.setDie d x).groups = s.groups := rfl
@[simp] theorem setDie_accesses (s : State) (d : Nat) (x : Die) : (s.setDie d x).accesses = s.accesses := rfl
@[simp] theorem setDie_copies (s : State) (d : Nat) (x : Die) : (s.setDie d x).copies = s.copies := rfl
@[simp] theorem setDie_reds (s : State) (d : Nat) (x : Die) : (s.setDie d x).reds = s.reds := rfl
@[simp] theorem setDie_thops (s : State) (d : Nat) (x : Die) : (s.setDie d x).thops = s.thops := rfl
@[simp] theorem setDie_arrops (s : State) (d : Nat) (x : Die) : (s.setDie d x).arrops = s.arrops := rfl
@[simp] theorem setDie_waiters (s : State) (d : Nat) (x : Die) : (s.setDie d x).waiters = s.waiters := rfl
@[simp] theorem setDie_mem (s : State) (d : Nat) (x : Die) : (s.setDie d x).mem = s.mem := rfl
@[simp] theorem setDie_hostMem (s : State) (d : Nat) (x : Die) : (s.setDie d x).hostMem = s.hostMem := rfl
@[simp] theorem setDie_domainMem (s : State) (d : Nat) (x : Die) : (s.setDie d x).domainMem = s.domainMem := rfl
@[simp] theorem setDie_leases (s : State) (d : Nat) (x : Die) : (s.setDie d x).leases = s.leases := rfl
@[simp] theorem setDie_setBounds (s : State) (d : Nat) (x : Die) : (s.setDie d x).setBounds = s.setBounds := rfl
@[simp] theorem setDie_badLines (s : State) (d : Nat) (x : Die) : (s.setDie d x).badLines = s.badLines := rfl
@[simp] theorem setDie_badLinks (s : State) (d : Nat) (x : Die) : (s.setDie d x).badLinks = s.badLinks := rfl
@[simp] theorem setDie_copies1 (s : State) (d : Nat) (x : Die) : (s.setDie d x).copies1 = s.copies1 := rfl
@[simp] theorem setDie_tlb (s : State) (d : Nat) (x : Die) : (s.setDie d x).tlb = s.tlb := rfl
@[simp] theorem setDie_rootPages (s : State) (d : Nat) (x : Die) : (s.setDie d x).rootPages = s.rootPages := rfl
@[simp] theorem setDie_bodies (s : State) (d : Nat) (x : Die) : (s.setDie d x).bodies = s.bodies := rfl
@[simp] theorem setDie_fetched (s : State) (d : Nat) (x : Die) : (s.setDie d x).fetched = s.fetched := rfl
@[simp] theorem setDie_binds (s : State) (d : Nat) (x : Die) : (s.setDie d x).binds = s.binds := rfl
@[simp] theorem setDie_topset (s : State) (d : Nat) (x : Die) : (s.setDie d x).topset = s.topset := rfl
@[simp] theorem setDie_due (s : State) (d : Nat) (x : Die) : (s.setDie d x).due = s.due := rfl
@[simp] theorem setDie_epochs (s : State) (d : Nat) (x : Die) : (s.setDie d x).epochs = s.epochs := rfl
@[simp] theorem setDie_rowReqs (s : State) (d : Nat) (x : Die) : (s.setDie d x).rowReqs = s.rowReqs := rfl
@[simp] theorem setDie_shards (s : State) (d : Nat) (x : Die) : (s.setDie d x).shards = s.shards := rfl
@[simp] theorem setDie_objs (s : State) (d : Nat) (x : Die) : (s.setDie d x).objs = s.objs := rfl
@[simp] theorem setDie_prunes (s : State) (d : Nat) (x : Die) : (s.setDie d x).prunes = s.prunes := rfl
@[simp] theorem setDie_oldTiles (s : State) (d : Nat) (x : Die) : (s.setDie d x).oldTiles = s.oldTiles := rfl
@[simp] theorem setDie_contexts (s : State) (d : Nat) (x : Die) : (s.setDie d x).contexts = s.contexts := rfl
@[simp] theorem setDie_exports (s : State) (d : Nat) (x : Die) : (s.setDie d x).exports = s.exports := rfl
@[simp] theorem setDie_reverse (s : State) (d : Nat) (x : Die) : (s.setDie d x).reverse = s.reverse := rfl
@[simp] theorem setDie_agenda (s : State) (d : Nat) (x : Die) : (s.setDie d x).agenda = s.agenda := rfl
@[simp] theorem setDie_issue (s : State) (d : Nat) (x : Die) : (s.setDie d x).issue = s.issue := rfl
@[simp] theorem setDie_rotor (s : State) (d : Nat) (x : Die) : (s.setDie d x).rotor = s.rotor := rfl
@[simp] theorem setDie_free (s : State) (d : Nat) (x : Die) : (s.setDie d x).free = s.free := rfl
@[simp] theorem setDie_nextId (s : State) (d : Nat) (x : Die) : (s.setDie d x).nextId = s.nextId := rfl
@[simp] theorem group_setDie_of (s : State) (d : Nat) (x : Die) (k : Nat) : (s.setDie d x).group k = s.group k := rfl
@[simp] theorem team_setDie_of (s : State) (d : Nat) (x : Die) (k : Nat) : (s.setDie d x).team k = s.team k := rfl
@[simp] theorem launch_setDie_of (s : State) (d : Nat) (x : Die) (k : Nat) : (s.setDie d x).launch k = s.launch k := rfl
@[simp] theorem core_setDie_of (s : State) (d : Nat) (x : Die) (k : Nat) : (s.setDie d x).core k = s.core k := rfl
@[simp] theorem engine_setDie_of (s : State) (d : Nat) (x : Die) (k : Nat) : (s.setDie d x).engine k = s.engine k := rfl
@[simp] theorem part_setDie_of (s : State) (d : Nat) (x : Die) (k : Nat) : (s.setDie d x).part k = s.part k := rfl
@[simp] theorem bind_setDie_of (s : State) (d : Nat) (x : Die) (k : Nat) : (s.setDie d x).bind k = s.bind k := rfl

/-! `setM` -/

@[simp] theorem setM_cores (s : State) (m : Module) : (s.setM m).cores = s.cores := rfl
@[simp] theorem setM_engines (s : State) (m : Module) : (s.setM m).engines = s.engines := rfl
@[simp] theorem setM_parts (s : State) (m : Module) : (s.setM m).parts = s.parts := rfl
@[simp] theorem setM_launches (s : State) (m : Module) : (s.setM m).launches = s.launches := rfl
@[simp] theorem setM_teams (s : State) (m : Module) : (s.setM m).teams = s.teams := rfl
@[simp] theorem setM_groups (s : State) (m : Module) : (s.setM m).groups = s.groups := rfl
@[simp] theorem setM_accesses (s : State) (m : Module) : (s.setM m).accesses = s.accesses := rfl
@[simp] theorem setM_copies (s : State) (m : Module) : (s.setM m).copies = s.copies := rfl
@[simp] theorem setM_reds (s : State) (m : Module) : (s.setM m).reds = s.reds := rfl
@[simp] theorem setM_thops (s : State) (m : Module) : (s.setM m).thops = s.thops := rfl
@[simp] theorem setM_arrops (s : State) (m : Module) : (s.setM m).arrops = s.arrops := rfl
@[simp] theorem setM_waiters (s : State) (m : Module) : (s.setM m).waiters = s.waiters := rfl
@[simp] theorem setM_mem (s : State) (m : Module) : (s.setM m).mem = s.mem := rfl
@[simp] theorem setM_hostMem (s : State) (m : Module) : (s.setM m).hostMem = s.hostMem := rfl
@[simp] theorem setM_domainMem (s : State) (m : Module) : (s.setM m).domainMem = s.domainMem := rfl
@[simp] theorem setM_leases (s : State) (m : Module) : (s.setM m).leases = s.leases := rfl
@[simp] theorem setM_setBounds (s : State) (m : Module) : (s.setM m).setBounds = s.setBounds := rfl
@[simp] theorem setM_badLines (s : State) (m : Module) : (s.setM m).badLines = s.badLines := rfl
@[simp] theorem setM_badLinks (s : State) (m : Module) : (s.setM m).badLinks = s.badLinks := rfl
@[simp] theorem setM_copies1 (s : State) (m : Module) : (s.setM m).copies1 = s.copies1 := rfl
@[simp] theorem setM_tlb (s : State) (m : Module) : (s.setM m).tlb = s.tlb := rfl
@[simp] theorem setM_rootPages (s : State) (m : Module) : (s.setM m).rootPages = s.rootPages := rfl
@[simp] theorem setM_bodies (s : State) (m : Module) : (s.setM m).bodies = s.bodies := rfl
@[simp] theorem setM_fetched (s : State) (m : Module) : (s.setM m).fetched = s.fetched := rfl
@[simp] theorem setM_binds (s : State) (m : Module) : (s.setM m).binds = s.binds := rfl
@[simp] theorem setM_topset (s : State) (m : Module) : (s.setM m).topset = s.topset := rfl
@[simp] theorem setM_due (s : State) (m : Module) : (s.setM m).due = s.due := rfl
@[simp] theorem setM_epochs (s : State) (m : Module) : (s.setM m).epochs = s.epochs := rfl
@[simp] theorem setM_dies (s : State) (m : Module) : (s.setM m).dies = s.dies := rfl
@[simp] theorem setM_rowReqs (s : State) (m : Module) : (s.setM m).rowReqs = s.rowReqs := rfl
@[simp] theorem setM_shards (s : State) (m : Module) : (s.setM m).shards = s.shards := rfl
@[simp] theorem setM_objs (s : State) (m : Module) : (s.setM m).objs = s.objs := rfl
@[simp] theorem setM_prunes (s : State) (m : Module) : (s.setM m).prunes = s.prunes := rfl
@[simp] theorem setM_oldTiles (s : State) (m : Module) : (s.setM m).oldTiles = s.oldTiles := rfl
@[simp] theorem setM_contexts (s : State) (m : Module) : (s.setM m).contexts = s.contexts := rfl
@[simp] theorem setM_exports (s : State) (m : Module) : (s.setM m).exports = s.exports := rfl
@[simp] theorem setM_reverse (s : State) (m : Module) : (s.setM m).reverse = s.reverse := rfl
@[simp] theorem setM_agenda (s : State) (m : Module) : (s.setM m).agenda = s.agenda := rfl
@[simp] theorem setM_issue (s : State) (m : Module) : (s.setM m).issue = s.issue := rfl
@[simp] theorem setM_rotor (s : State) (m : Module) : (s.setM m).rotor = s.rotor := rfl
@[simp] theorem setM_free (s : State) (m : Module) : (s.setM m).free = s.free := rfl
@[simp] theorem setM_nextId (s : State) (m : Module) : (s.setM m).nextId = s.nextId := rfl
@[simp] theorem group_setM_of (s : State) (m : Module) (k : Nat) : (s.setM m).group k = s.group k := rfl
@[simp] theorem team_setM_of (s : State) (m : Module) (k : Nat) : (s.setM m).team k = s.team k := rfl
@[simp] theorem launch_setM_of (s : State) (m : Module) (k : Nat) : (s.setM m).launch k = s.launch k := rfl
@[simp] theorem core_setM_of (s : State) (m : Module) (k : Nat) : (s.setM m).core k = s.core k := rfl
@[simp] theorem engine_setM_of (s : State) (m : Module) (k : Nat) : (s.setM m).engine k = s.engine k := rfl
@[simp] theorem part_setM_of (s : State) (m : Module) (k : Nat) : (s.setM m).part k = s.part k := rfl
@[simp] theorem bind_setM_of (s : State) (m : Module) (k : Nat) : (s.setM m).bind k = s.bind k := rfl
@[simp] theorem die_setM_of (s : State) (m : Module) (k : Nat) : (s.setM m).die k = s.die k := rfl

/-! `setRun` -/

@[simp] theorem setRun_m (s : State) (q : Nat) (r : Run) : (s.setRun q r).m = s.m := rfl
@[simp] theorem setRun_cores (s : State) (q : Nat) (r : Run) : (s.setRun q r).cores = s.cores := rfl
@[simp] theorem setRun_parts (s : State) (q : Nat) (r : Run) : (s.setRun q r).parts = s.parts := rfl
@[simp] theorem setRun_launches (s : State) (q : Nat) (r : Run) : (s.setRun q r).launches = s.launches := rfl
@[simp] theorem setRun_teams (s : State) (q : Nat) (r : Run) : (s.setRun q r).teams = s.teams := rfl
@[simp] theorem setRun_groups (s : State) (q : Nat) (r : Run) : (s.setRun q r).groups = s.groups := rfl
@[simp] theorem setRun_accesses (s : State) (q : Nat) (r : Run) : (s.setRun q r).accesses = s.accesses := rfl
@[simp] theorem setRun_copies (s : State) (q : Nat) (r : Run) : (s.setRun q r).copies = s.copies := rfl
@[simp] theorem setRun_reds (s : State) (q : Nat) (r : Run) : (s.setRun q r).reds = s.reds := rfl
@[simp] theorem setRun_thops (s : State) (q : Nat) (r : Run) : (s.setRun q r).thops = s.thops := rfl
@[simp] theorem setRun_arrops (s : State) (q : Nat) (r : Run) : (s.setRun q r).arrops = s.arrops := rfl
@[simp] theorem setRun_waiters (s : State) (q : Nat) (r : Run) : (s.setRun q r).waiters = s.waiters := rfl
@[simp] theorem setRun_mem (s : State) (q : Nat) (r : Run) : (s.setRun q r).mem = s.mem := rfl
@[simp] theorem setRun_hostMem (s : State) (q : Nat) (r : Run) : (s.setRun q r).hostMem = s.hostMem := rfl
@[simp] theorem setRun_domainMem (s : State) (q : Nat) (r : Run) : (s.setRun q r).domainMem = s.domainMem := rfl
@[simp] theorem setRun_leases (s : State) (q : Nat) (r : Run) : (s.setRun q r).leases = s.leases := rfl
@[simp] theorem setRun_setBounds (s : State) (q : Nat) (r : Run) : (s.setRun q r).setBounds = s.setBounds := rfl
@[simp] theorem setRun_badLines (s : State) (q : Nat) (r : Run) : (s.setRun q r).badLines = s.badLines := rfl
@[simp] theorem setRun_badLinks (s : State) (q : Nat) (r : Run) : (s.setRun q r).badLinks = s.badLinks := rfl
@[simp] theorem setRun_copies1 (s : State) (q : Nat) (r : Run) : (s.setRun q r).copies1 = s.copies1 := rfl
@[simp] theorem setRun_tlb (s : State) (q : Nat) (r : Run) : (s.setRun q r).tlb = s.tlb := rfl
@[simp] theorem setRun_rootPages (s : State) (q : Nat) (r : Run) : (s.setRun q r).rootPages = s.rootPages := rfl
@[simp] theorem setRun_bodies (s : State) (q : Nat) (r : Run) : (s.setRun q r).bodies = s.bodies := rfl
@[simp] theorem setRun_fetched (s : State) (q : Nat) (r : Run) : (s.setRun q r).fetched = s.fetched := rfl
@[simp] theorem setRun_binds (s : State) (q : Nat) (r : Run) : (s.setRun q r).binds = s.binds := rfl
@[simp] theorem setRun_topset (s : State) (q : Nat) (r : Run) : (s.setRun q r).topset = s.topset := rfl
@[simp] theorem setRun_due (s : State) (q : Nat) (r : Run) : (s.setRun q r).due = s.due := rfl
@[simp] theorem setRun_epochs (s : State) (q : Nat) (r : Run) : (s.setRun q r).epochs = s.epochs := rfl
@[simp] theorem setRun_dies (s : State) (q : Nat) (r : Run) : (s.setRun q r).dies = s.dies := rfl
@[simp] theorem setRun_rowReqs (s : State) (q : Nat) (r : Run) : (s.setRun q r).rowReqs = s.rowReqs := rfl
@[simp] theorem setRun_shards (s : State) (q : Nat) (r : Run) : (s.setRun q r).shards = s.shards := rfl
@[simp] theorem setRun_objs (s : State) (q : Nat) (r : Run) : (s.setRun q r).objs = s.objs := rfl
@[simp] theorem setRun_prunes (s : State) (q : Nat) (r : Run) : (s.setRun q r).prunes = s.prunes := rfl
@[simp] theorem setRun_oldTiles (s : State) (q : Nat) (r : Run) : (s.setRun q r).oldTiles = s.oldTiles := rfl
@[simp] theorem setRun_contexts (s : State) (q : Nat) (r : Run) : (s.setRun q r).contexts = s.contexts := rfl
@[simp] theorem setRun_exports (s : State) (q : Nat) (r : Run) : (s.setRun q r).exports = s.exports := rfl
@[simp] theorem setRun_reverse (s : State) (q : Nat) (r : Run) : (s.setRun q r).reverse = s.reverse := rfl
@[simp] theorem setRun_agenda (s : State) (q : Nat) (r : Run) : (s.setRun q r).agenda = s.agenda := rfl
@[simp] theorem setRun_issue (s : State) (q : Nat) (r : Run) : (s.setRun q r).issue = s.issue := rfl
@[simp] theorem setRun_rotor (s : State) (q : Nat) (r : Run) : (s.setRun q r).rotor = s.rotor := rfl
@[simp] theorem setRun_free (s : State) (q : Nat) (r : Run) : (s.setRun q r).free = s.free := rfl
@[simp] theorem setRun_nextId (s : State) (q : Nat) (r : Run) : (s.setRun q r).nextId = s.nextId := rfl
@[simp] theorem group_setRun_of (s : State) (q : Nat) (r : Run) (k : Nat) : (s.setRun q r).group k = s.group k := rfl
@[simp] theorem team_setRun_of (s : State) (q : Nat) (r : Run) (k : Nat) : (s.setRun q r).team k = s.team k := rfl
@[simp] theorem launch_setRun_of (s : State) (q : Nat) (r : Run) (k : Nat) : (s.setRun q r).launch k = s.launch k := rfl
@[simp] theorem core_setRun_of (s : State) (q : Nat) (r : Run) (k : Nat) : (s.setRun q r).core k = s.core k := rfl
@[simp] theorem part_setRun_of (s : State) (q : Nat) (r : Run) (k : Nat) : (s.setRun q r).part k = s.part k := rfl
@[simp] theorem bind_setRun_of (s : State) (q : Nat) (r : Run) (k : Nat) : (s.setRun q r).bind k = s.bind k := rfl
@[simp] theorem die_setRun_of (s : State) (q : Nat) (r : Run) (k : Nat) : (s.setRun q r).die k = s.die k := rfl

/-! `setTime` -/

@[simp] theorem setTime_cores (s : State) (t : Nat) : (s.setTime t).cores = s.cores := rfl
@[simp] theorem setTime_engines (s : State) (t : Nat) : (s.setTime t).engines = s.engines := rfl
@[simp] theorem setTime_parts (s : State) (t : Nat) : (s.setTime t).parts = s.parts := rfl
@[simp] theorem setTime_launches (s : State) (t : Nat) : (s.setTime t).launches = s.launches := rfl
@[simp] theorem setTime_teams (s : State) (t : Nat) : (s.setTime t).teams = s.teams := rfl
@[simp] theorem setTime_groups (s : State) (t : Nat) : (s.setTime t).groups = s.groups := rfl
@[simp] theorem setTime_accesses (s : State) (t : Nat) : (s.setTime t).accesses = s.accesses := rfl
@[simp] theorem setTime_copies (s : State) (t : Nat) : (s.setTime t).copies = s.copies := rfl
@[simp] theorem setTime_reds (s : State) (t : Nat) : (s.setTime t).reds = s.reds := rfl
@[simp] theorem setTime_thops (s : State) (t : Nat) : (s.setTime t).thops = s.thops := rfl
@[simp] theorem setTime_arrops (s : State) (t : Nat) : (s.setTime t).arrops = s.arrops := rfl
@[simp] theorem setTime_waiters (s : State) (t : Nat) : (s.setTime t).waiters = s.waiters := rfl
@[simp] theorem setTime_mem (s : State) (t : Nat) : (s.setTime t).mem = s.mem := rfl
@[simp] theorem setTime_hostMem (s : State) (t : Nat) : (s.setTime t).hostMem = s.hostMem := rfl
@[simp] theorem setTime_domainMem (s : State) (t : Nat) : (s.setTime t).domainMem = s.domainMem := rfl
@[simp] theorem setTime_leases (s : State) (t : Nat) : (s.setTime t).leases = s.leases := rfl
@[simp] theorem setTime_setBounds (s : State) (t : Nat) : (s.setTime t).setBounds = s.setBounds := rfl
@[simp] theorem setTime_badLines (s : State) (t : Nat) : (s.setTime t).badLines = s.badLines := rfl
@[simp] theorem setTime_badLinks (s : State) (t : Nat) : (s.setTime t).badLinks = s.badLinks := rfl
@[simp] theorem setTime_copies1 (s : State) (t : Nat) : (s.setTime t).copies1 = s.copies1 := rfl
@[simp] theorem setTime_tlb (s : State) (t : Nat) : (s.setTime t).tlb = s.tlb := rfl
@[simp] theorem setTime_rootPages (s : State) (t : Nat) : (s.setTime t).rootPages = s.rootPages := rfl
@[simp] theorem setTime_bodies (s : State) (t : Nat) : (s.setTime t).bodies = s.bodies := rfl
@[simp] theorem setTime_fetched (s : State) (t : Nat) : (s.setTime t).fetched = s.fetched := rfl
@[simp] theorem setTime_binds (s : State) (t : Nat) : (s.setTime t).binds = s.binds := rfl
@[simp] theorem setTime_topset (s : State) (t : Nat) : (s.setTime t).topset = s.topset := rfl
@[simp] theorem setTime_due (s : State) (t : Nat) : (s.setTime t).due = s.due := rfl
@[simp] theorem setTime_epochs (s : State) (t : Nat) : (s.setTime t).epochs = s.epochs := rfl
@[simp] theorem setTime_dies (s : State) (t : Nat) : (s.setTime t).dies = s.dies := rfl
@[simp] theorem setTime_rowReqs (s : State) (t : Nat) : (s.setTime t).rowReqs = s.rowReqs := rfl
@[simp] theorem setTime_shards (s : State) (t : Nat) : (s.setTime t).shards = s.shards := rfl
@[simp] theorem setTime_objs (s : State) (t : Nat) : (s.setTime t).objs = s.objs := rfl
@[simp] theorem setTime_prunes (s : State) (t : Nat) : (s.setTime t).prunes = s.prunes := rfl
@[simp] theorem setTime_oldTiles (s : State) (t : Nat) : (s.setTime t).oldTiles = s.oldTiles := rfl
@[simp] theorem setTime_contexts (s : State) (t : Nat) : (s.setTime t).contexts = s.contexts := rfl
@[simp] theorem setTime_exports (s : State) (t : Nat) : (s.setTime t).exports = s.exports := rfl
@[simp] theorem setTime_reverse (s : State) (t : Nat) : (s.setTime t).reverse = s.reverse := rfl
@[simp] theorem setTime_agenda (s : State) (t : Nat) : (s.setTime t).agenda = s.agenda := rfl
@[simp] theorem setTime_issue (s : State) (t : Nat) : (s.setTime t).issue = s.issue := rfl
@[simp] theorem setTime_rotor (s : State) (t : Nat) : (s.setTime t).rotor = s.rotor := rfl
@[simp] theorem setTime_free (s : State) (t : Nat) : (s.setTime t).free = s.free := rfl
@[simp] theorem setTime_nextId (s : State) (t : Nat) : (s.setTime t).nextId = s.nextId := rfl
@[simp] theorem group_setTime_of (s : State) (t : Nat) (k : Nat) : (s.setTime t).group k = s.group k := rfl
@[simp] theorem team_setTime_of (s : State) (t : Nat) (k : Nat) : (s.setTime t).team k = s.team k := rfl
@[simp] theorem launch_setTime_of (s : State) (t : Nat) (k : Nat) : (s.setTime t).launch k = s.launch k := rfl
@[simp] theorem core_setTime_of (s : State) (t : Nat) (k : Nat) : (s.setTime t).core k = s.core k := rfl
@[simp] theorem engine_setTime_of (s : State) (t : Nat) (k : Nat) : (s.setTime t).engine k = s.engine k := rfl
@[simp] theorem part_setTime_of (s : State) (t : Nat) (k : Nat) : (s.setTime t).part k = s.part k := rfl
@[simp] theorem bind_setTime_of (s : State) (t : Nat) (k : Nat) : (s.setTime t).bind k = s.bind k := rfl
@[simp] theorem die_setTime_of (s : State) (t : Nat) (k : Nat) : (s.setTime t).die k = s.die k := rfl

/-! Row 5 fires, and time passes: cores, engines, groups and copies aside, only the clock moves (R234, R235). -/

/-- What the firing of a row leaves alone. -/
theorem fireRow_frame (s : State) (core row : Nat) :
    fireRow s core row = { s with
      cores := (fireRow s core row).cores, engines := (fireRow s core row).engines
      groups := (fireRow s core row).groups, copies := (fireRow s core row).copies } := by
  unfold fireRow; dsimp only; split <;> rfl

theorem fireTime_frame (s : State) :
    ∃ c e g y, fireTime s = { s with cores := c, engines := e, groups := g, copies := y } := by
  have h : ∀ (l : List (Nat × Core)) (x : State), (∃ c e g y, x = { s with cores := c, engines := e, groups := g, copies := y }) →
      ∃ c e g y, l.foldl (fun x (k : Nat × Core) => fireRow x k.1 5) x = { s with cores := c, engines := e, groups := g, copies := y } := by
    intro l
    induction l with
    | nil => exact fun x hx => hx
    | cons k l ih =>
      rintro x ⟨c, e, g, y, rfl⟩
      exact ih _ ⟨_, _, _, _, fireRow_frame ..⟩
  exact h _ s ⟨_, _, _, _, rfl⟩

/-- Time passes: the clock moves, and only row 5 may act. -/
theorem wait_frame (s : State) (dt : Nat) :
    ∃ c e g y, s.wait dt = { s with
      m := { s.m with ftime := (s.m.ftime + dt) % 2 ^ 64 }, cores := c, engines := e, groups := g, copies := y } := by
  unfold State.wait; dsimp only; split
  · obtain ⟨c, e, g, y, h⟩ := fireTime_frame (s.setTime (s.m.ftime + dt - (s.m.ftime + dt) % 65536))
    exact ⟨c, e, g, y, by rw [h]; rfl⟩
  · exact ⟨_, _, _, _, rfl⟩

/-- Where no multiple of 65,536 is reached, only the clock moves. -/
theorem wait_short (s : State) (dt : Nat) (h : ¬ s.m.ftime < s.m.ftime + dt - (s.m.ftime + dt) % 65536) :
    s.wait dt = s.setTime (s.m.ftime + dt) := by
  unfold State.wait; simp only [h, if_false]

@[simp] theorem wait_mem (s : State) (dt : Nat) : (s.wait dt).mem = s.mem := by
  obtain ⟨c, e, g, y, h⟩ := wait_frame s dt; rw [h]
@[simp] theorem wait_hostMem (s : State) (dt : Nat) : (s.wait dt).hostMem = s.hostMem := by
  obtain ⟨c, e, g, y, h⟩ := wait_frame s dt; rw [h]
@[simp] theorem wait_domainMem (s : State) (dt : Nat) : (s.wait dt).domainMem = s.domainMem := by
  obtain ⟨c, e, g, y, h⟩ := wait_frame s dt; rw [h]
@[simp] theorem wait_teams (s : State) (dt : Nat) : (s.wait dt).teams = s.teams := by
  obtain ⟨c, e, g, y, h⟩ := wait_frame s dt; rw [h]
@[simp] theorem wait_issue (s : State) (dt : Nat) : (s.wait dt).issue = s.issue := by
  obtain ⟨c, e, g, y, h⟩ := wait_frame s dt; rw [h]

@[simp] theorem endTurn_m (s : State) : (endTurn s).m = s.m := rfl
@[simp] theorem endTurn_cores (s : State) : (endTurn s).cores = s.cores := rfl
@[simp] theorem endTurn_engines (s : State) : (endTurn s).engines = s.engines := rfl
@[simp] theorem endTurn_parts (s : State) : (endTurn s).parts = s.parts := rfl
@[simp] theorem endTurn_launches (s : State) : (endTurn s).launches = s.launches := rfl
@[simp] theorem endTurn_teams (s : State) : (endTurn s).teams = s.teams := rfl
@[simp] theorem endTurn_groups (s : State) : (endTurn s).groups = s.groups := rfl
@[simp] theorem endTurn_accesses (s : State) : (endTurn s).accesses = s.accesses := rfl
@[simp] theorem endTurn_copies (s : State) : (endTurn s).copies = s.copies := rfl
@[simp] theorem endTurn_reds (s : State) : (endTurn s).reds = s.reds := rfl
@[simp] theorem endTurn_thops (s : State) : (endTurn s).thops = s.thops := rfl
@[simp] theorem endTurn_arrops (s : State) : (endTurn s).arrops = s.arrops := rfl
@[simp] theorem endTurn_waiters (s : State) : (endTurn s).waiters = s.waiters := rfl
@[simp] theorem endTurn_mem (s : State) : (endTurn s).mem = s.mem := rfl
@[simp] theorem endTurn_hostMem (s : State) : (endTurn s).hostMem = s.hostMem := rfl
@[simp] theorem endTurn_domainMem (s : State) : (endTurn s).domainMem = s.domainMem := rfl
@[simp] theorem endTurn_leases (s : State) : (endTurn s).leases = s.leases := rfl
@[simp] theorem endTurn_setBounds (s : State) : (endTurn s).setBounds = s.setBounds := rfl
@[simp] theorem endTurn_badLines (s : State) : (endTurn s).badLines = s.badLines := rfl
@[simp] theorem endTurn_badLinks (s : State) : (endTurn s).badLinks = s.badLinks := rfl
@[simp] theorem endTurn_copies1 (s : State) : (endTurn s).copies1 = s.copies1 := rfl
@[simp] theorem endTurn_tlb (s : State) : (endTurn s).tlb = s.tlb := rfl
@[simp] theorem endTurn_rootPages (s : State) : (endTurn s).rootPages = s.rootPages := rfl
@[simp] theorem endTurn_bodies (s : State) : (endTurn s).bodies = s.bodies := rfl
@[simp] theorem endTurn_fetched (s : State) : (endTurn s).fetched = s.fetched := rfl
@[simp] theorem endTurn_binds (s : State) : (endTurn s).binds = s.binds := rfl
@[simp] theorem endTurn_topset (s : State) : (endTurn s).topset = s.topset := rfl
@[simp] theorem endTurn_due (s : State) : (endTurn s).due = s.due := rfl
@[simp] theorem endTurn_epochs (s : State) : (endTurn s).epochs = s.epochs := rfl
@[simp] theorem endTurn_dies (s : State) : (endTurn s).dies = s.dies := rfl
@[simp] theorem endTurn_rowReqs (s : State) : (endTurn s).rowReqs = s.rowReqs := rfl
@[simp] theorem endTurn_shards (s : State) : (endTurn s).shards = s.shards := rfl
@[simp] theorem endTurn_objs (s : State) : (endTurn s).objs = s.objs := rfl
@[simp] theorem endTurn_prunes (s : State) : (endTurn s).prunes = s.prunes := rfl
@[simp] theorem endTurn_oldTiles (s : State) : (endTurn s).oldTiles = s.oldTiles := rfl
@[simp] theorem endTurn_contexts (s : State) : (endTurn s).contexts = s.contexts := rfl
@[simp] theorem endTurn_exports (s : State) : (endTurn s).exports = s.exports := rfl
@[simp] theorem endTurn_reverse (s : State) : (endTurn s).reverse = s.reverse := rfl
@[simp] theorem endTurn_agenda (s : State) : (endTurn s).agenda = s.agenda := rfl
@[simp] theorem endTurn_rotor (s : State) : (endTurn s).rotor = s.rotor := rfl
@[simp] theorem endTurn_free (s : State) : (endTurn s).free = s.free := rfl
@[simp] theorem endTurn_nextId (s : State) : (endTurn s).nextId = s.nextId := rfl
@[simp] theorem endTurn_issue (s : State) : (endTurn s).issue = none := rfl
@[simp] theorem group_endTurn (s : State) (k : Nat) : (endTurn s).group k = s.group k := rfl
@[simp] theorem team_endTurn (s : State) (k : Nat) : (endTurn s).team k = s.team k := rfl
@[simp] theorem launch_endTurn (s : State) (k : Nat) : (endTurn s).launch k = s.launch k := rfl
@[simp] theorem core_endTurn (s : State) (k : Nat) : (endTurn s).core k = s.core k := rfl
@[simp] theorem engine_endTurn (s : State) (k : Nat) : (endTurn s).engine k = s.engine k := rfl
@[simp] theorem part_endTurn (s : State) (k : Nat) : (endTurn s).part k = s.part k := rfl
@[simp] theorem bind_endTurn (s : State) (k : Nat) : (endTurn s).bind k = s.bind k := rfl
@[simp] theorem die_endTurn (s : State) (k : Nat) : (endTurn s).die k = s.die k := rfl

/-! The entry just set, and the others. -/

@[simp] theorem team_setTeam_same (s : State) (tid : Nat) (t : Team) : (s.setTeam tid t).team tid = t := Tbl.get_set_same ..
theorem team_setTeam_other (s : State) {tid j : Nat} (t : Team) (h : j ≠ tid) : (s.setTeam tid t).team j = s.team j := Tbl.get_set_other _ _ _ h
@[simp] theorem launch_setLaunch_same (s : State) (lid : Nat) (l : Launch) : (s.setLaunch lid l).launch lid = l := Tbl.get_set_same ..
theorem launch_setLaunch_other (s : State) {lid j : Nat} (l : Launch) (h : j ≠ lid) : (s.setLaunch lid l).launch j = s.launch j := Tbl.get_set_other _ _ _ h
@[simp] theorem core_setCore_same (s : State) (n : Nat) (c : Core) : (s.setCore n c).core n = c := Tbl.get_put_same ..
theorem core_setCore_other (s : State) {n j : Nat} (c : Core) (h : j ≠ n) : (s.setCore n c).core j = s.core j := Tbl.get_put_other _ _ _ h
@[simp] theorem engine_setEngine_same (s : State) (q : Nat) (e : Engine) : (s.setEngine q e).engine q = e := Tbl.get_put_same ..
theorem engine_setEngine_other (s : State) {q j : Nat} (e : Engine) (h : j ≠ q) : (s.setEngine q e).engine j = s.engine j := Tbl.get_put_other _ _ _ h
@[simp] theorem part_setPart_same (s : State) (p : Nat) (x : Part) : (s.setPart p x).part p = x := Tbl.get_put_same ..
theorem part_setPart_other (s : State) {p j : Nat} (x : Part) (h : j ≠ p) : (s.setPart p x).part j = s.part j := Tbl.get_put_other _ _ _ h
@[simp] theorem bind_setBind_same (s : State) (n : Nat) (b : BindE) : (s.setBind n b).bind n = b := Tbl.get_put_same ..
theorem bind_setBind_other (s : State) {n j : Nat} (b : BindE) (h : j ≠ n) : (s.setBind n b).bind j = s.bind j := Tbl.get_put_other _ _ _ h
@[simp] theorem die_setDie_same (s : State) (d : Nat) (x : Die) : (s.setDie d x).die d = x := Tbl.get_put_same ..
theorem die_setDie_other (s : State) {d j : Nat} (x : Die) (h : j ≠ d) : (s.setDie d x).die j = s.die j := Tbl.get_put_other _ _ _ h
@[simp] theorem engine_setRun_same (s : State) (q : Nat) (r : Run) : (s.setRun q r).engine q = { s.engine q with run := some r } :=
  engine_setEngine_same ..
theorem engine_setRun_other (s : State) {q j : Nat} (r : Run) (h : j ≠ q) : (s.setRun q r).engine j = s.engine j :=
  engine_setEngine_other _ _ h

/-! `setGroup` writes the group and drops hold-latch entries of its core (R57). -/

@[simp] theorem setGroup_m (s : State) (gid : Nat) (g : Group) : (s.setGroup gid g).m = s.m := by
  unfold setGroup; dsimp only; split <;> rfl
@[simp] theorem setGroup_engines (s : State) (gid : Nat) (g : Group) : (s.setGroup gid g).engines = s.engines := by
  unfold setGroup; dsimp only; split <;> rfl
@[simp] theorem setGroup_parts (s : State) (gid : Nat) (g : Group) : (s.setGroup gid g).parts = s.parts := by
  unfold setGroup; dsimp only; split <;> rfl
@[simp] theorem setGroup_launches (s : State) (gid : Nat) (g : Group) : (s.setGroup gid g).launches = s.launches := by
  unfold setGroup; dsimp only; split <;> rfl
@[simp] theorem setGroup_teams (s : State) (gid : Nat) (g : Group) : (s.setGroup gid g).teams = s.teams := by
  unfold setGroup; dsimp only; split <;> rfl
@[simp] theorem setGroup_accesses (s : State) (gid : Nat) (g : Group) : (s.setGroup gid g).accesses = s.accesses := by
  unfold setGroup; dsimp only; split <;> rfl
@[simp] theorem setGroup_copies (s : State) (gid : Nat) (g : Group) : (s.setGroup gid g).copies = s.copies := by
  unfold setGroup; dsimp only; split <;> rfl
@[simp] theorem setGroup_reds (s : State) (gid : Nat) (g : Group) : (s.setGroup gid g).reds = s.reds := by
  unfold setGroup; dsimp only; split <;> rfl
@[simp] theorem setGroup_thops (s : State) (gid : Nat) (g : Group) : (s.setGroup gid g).thops = s.thops := by
  unfold setGroup; dsimp only; split <;> rfl
@[simp] theorem setGroup_arrops (s : State) (gid : Nat) (g : Group) : (s.setGroup gid g).arrops = s.arrops := by
  unfold setGroup; dsimp only; split <;> rfl
@[simp] theorem setGroup_waiters (s : State) (gid : Nat) (g : Group) : (s.setGroup gid g).waiters = s.waiters := by
  unfold setGroup; dsimp only; split <;> rfl
@[simp] theorem setGroup_mem (s : State) (gid : Nat) (g : Group) : (s.setGroup gid g).mem = s.mem := by
  unfold setGroup; dsimp only; split <;> rfl
@[simp] theorem setGroup_hostMem (s : State) (gid : Nat) (g : Group) : (s.setGroup gid g).hostMem = s.hostMem := by
  unfold setGroup; dsimp only; split <;> rfl
@[simp] theorem setGroup_domainMem (s : State) (gid : Nat) (g : Group) : (s.setGroup gid g).domainMem = s.domainMem := by
  unfold setGroup; dsimp only; split <;> rfl
@[simp] theorem setGroup_leases (s : State) (gid : Nat) (g : Group) : (s.setGroup gid g).leases = s.leases := by
  unfold setGroup; dsimp only; split <;> rfl
@[simp] theorem setGroup_setBounds (s : State) (gid : Nat) (g : Group) : (s.setGroup gid g).setBounds = s.setBounds := by
  unfold setGroup; dsimp only; split <;> rfl
@[simp] theorem setGroup_badLines (s : State) (gid : Nat) (g : Group) : (s.setGroup gid g).badLines = s.badLines := by
  unfold setGroup; dsimp only; split <;> rfl
@[simp] theorem setGroup_badLinks (s : State) (gid : Nat) (g : Group) : (s.setGroup gid g).badLinks = s.badLinks := by
  unfold setGroup; dsimp only; split <;> rfl
@[simp] theorem setGroup_copies1 (s : State) (gid : Nat) (g : Group) : (s.setGroup gid g).copies1 = s.copies1 := by
  unfold setGroup; dsimp only; split <;> rfl
@[simp] theorem setGroup_tlb (s : State) (gid : Nat) (g : Group) : (s.setGroup gid g).tlb = s.tlb := by
  unfold setGroup; dsimp only; split <;> rfl
@[simp] theorem setGroup_rootPages (s : State) (gid : Nat) (g : Group) : (s.setGroup gid g).rootPages = s.rootPages := by
  unfold setGroup; dsimp only; split <;> rfl
@[simp] theorem setGroup_bodies (s : State) (gid : Nat) (g : Group) : (s.setGroup gid g).bodies = s.bodies := by
  unfold setGroup; dsimp only; split <;> rfl
@[simp] theorem setGroup_fetched (s : State) (gid : Nat) (g : Group) : (s.setGroup gid g).fetched = s.fetched := by
  unfold setGroup; dsimp only; split <;> rfl
@[simp] theorem setGroup_binds (s : State) (gid : Nat) (g : Group) : (s.setGroup gid g).binds = s.binds := by
  unfold setGroup; dsimp only; split <;> rfl
@[simp] theorem setGroup_topset (s : State) (gid : Nat) (g : Group) : (s.setGroup gid g).topset = s.topset := by
  unfold setGroup; dsimp only; split <;> rfl
@[simp] theorem setGroup_due (s : State) (gid : Nat) (g : Group) : (s.setGroup gid g).due = s.due := by
  unfold setGroup; dsimp only; split <;> rfl
@[simp] theorem setGroup_epochs (s : State) (gid : Nat) (g : Group) : (s.setGroup gid g).epochs = s.epochs := by
  unfold setGroup; dsimp only; split <;> rfl
@[simp] theorem setGroup_dies (s : State) (gid : Nat) (g : Group) : (s.setGroup gid g).dies = s.dies := by
  unfold setGroup; dsimp only; split <;> rfl
@[simp] theorem setGroup_rowReqs (s : State) (gid : Nat) (g : Group) : (s.setGroup gid g).rowReqs = s.rowReqs := by
  unfold setGroup; dsimp only; split <;> rfl
@[simp] theorem setGroup_shards (s : State) (gid : Nat) (g : Group) : (s.setGroup gid g).shards = s.shards := by
  unfold setGroup; dsimp only; split <;> rfl
@[simp] theorem setGroup_objs (s : State) (gid : Nat) (g : Group) : (s.setGroup gid g).objs = s.objs := by
  unfold setGroup; dsimp only; split <;> rfl
@[simp] theorem setGroup_prunes (s : State) (gid : Nat) (g : Group) : (s.setGroup gid g).prunes = s.prunes := by
  unfold setGroup; dsimp only; split <;> rfl
@[simp] theorem setGroup_oldTiles (s : State) (gid : Nat) (g : Group) : (s.setGroup gid g).oldTiles = s.oldTiles := by
  unfold setGroup; dsimp only; split <;> rfl
@[simp] theorem setGroup_contexts (s : State) (gid : Nat) (g : Group) : (s.setGroup gid g).contexts = s.contexts := by
  unfold setGroup; dsimp only; split <;> rfl
@[simp] theorem setGroup_exports (s : State) (gid : Nat) (g : Group) : (s.setGroup gid g).exports = s.exports := by
  unfold setGroup; dsimp only; split <;> rfl
@[simp] theorem setGroup_reverse (s : State) (gid : Nat) (g : Group) : (s.setGroup gid g).reverse = s.reverse := by
  unfold setGroup; dsimp only; split <;> rfl
@[simp] theorem setGroup_agenda (s : State) (gid : Nat) (g : Group) : (s.setGroup gid g).agenda = s.agenda := by
  unfold setGroup; dsimp only; split <;> rfl
@[simp] theorem setGroup_issue (s : State) (gid : Nat) (g : Group) : (s.setGroup gid g).issue = s.issue := by
  unfold setGroup; dsimp only; split <;> rfl
@[simp] theorem setGroup_rotor (s : State) (gid : Nat) (g : Group) : (s.setGroup gid g).rotor = s.rotor := by
  unfold setGroup; dsimp only; split <;> rfl
@[simp] theorem setGroup_free (s : State) (gid : Nat) (g : Group) : (s.setGroup gid g).free = s.free := by
  unfold setGroup; dsimp only; split <;> rfl
@[simp] theorem setGroup_nextId (s : State) (gid : Nat) (g : Group) : (s.setGroup gid g).nextId = s.nextId := by
  unfold setGroup; dsimp only; split <;> rfl
@[simp] theorem setGroup_groups (s : State) (gid : Nat) (g : Group) :
    (s.setGroup gid g).groups = Tbl.set s.groups gid { g with wrote := [] } := by
  unfold setGroup; dsimp only; split <;> rfl

@[simp] theorem group_setGroup_same (s : State) (gid : Nat) (g : Group) : (s.setGroup gid g).group gid = { g with wrote := [] } := by
  simp [group]

theorem group_setGroup_other (s : State) {gid j : Nat} (g : Group) (h : j ≠ gid) : (s.setGroup gid g).group j = s.group j := by
  simp [group, Tbl.get_set_other _ _ _ h]

@[simp] theorem team_setGroup (s : State) (gid : Nat) (g : Group) (k : Nat) : (s.setGroup gid g).team k = s.team k := by
  simp [team]
@[simp] theorem launch_setGroup (s : State) (gid : Nat) (g : Group) (k : Nat) : (s.setGroup gid g).launch k = s.launch k := by
  simp [launch]
@[simp] theorem engine_setGroup (s : State) (gid : Nat) (g : Group) (k : Nat) : (s.setGroup gid g).engine k = s.engine k := by
  simp [engine]
@[simp] theorem part_setGroup (s : State) (gid : Nat) (g : Group) (k : Nat) : (s.setGroup gid g).part k = s.part k := by
  simp [part]
@[simp] theorem bind_setGroup (s : State) (gid : Nat) (g : Group) (k : Nat) : (s.setGroup gid g).bind k = s.bind k := by
  simp [bind]
@[simp] theorem die_setGroup (s : State) (gid : Nat) (g : Group) (k : Nat) : (s.setGroup gid g).die k = s.die k := by
  simp [die]

/-- A core but for its hold latch. -/
theorem setGroup_core (s : State) (gid : Nat) (g : Group) (n : Nat) :
    { (s.setGroup gid g).core n with latch := [] } = { s.core n with latch := [] } := by
  unfold setGroup
  dsimp only
  split
  · rfl
  · by_cases h : n = g.ident.core
    · subst h; rw [core_setCore_same]; rfl
    · rw [core_setCore_other _ _ h]; rfl

/-! `orTsf` writes one team's TSF (R59). -/

@[simp] theorem orTsf_m (s : State) (tid : Nat) (fl : BitVec 5) : (s.orTsf tid fl).m = s.m := by
  unfold orTsf; repeat' split
  all_goals rfl
@[simp] theorem orTsf_cores (s : State) (tid : Nat) (fl : BitVec 5) : (s.orTsf tid fl).cores = s.cores := by
  unfold orTsf; repeat' split
  all_goals rfl
@[simp] theorem orTsf_engines (s : State) (tid : Nat) (fl : BitVec 5) : (s.orTsf tid fl).engines = s.engines := by
  unfold orTsf; repeat' split
  all_goals rfl
@[simp] theorem orTsf_parts (s : State) (tid : Nat) (fl : BitVec 5) : (s.orTsf tid fl).parts = s.parts := by
  unfold orTsf; repeat' split
  all_goals rfl
@[simp] theorem orTsf_launches (s : State) (tid : Nat) (fl : BitVec 5) : (s.orTsf tid fl).launches = s.launches := by
  unfold orTsf; repeat' split
  all_goals rfl
@[simp] theorem orTsf_groups (s : State) (tid : Nat) (fl : BitVec 5) : (s.orTsf tid fl).groups = s.groups := by
  unfold orTsf; repeat' split
  all_goals rfl
@[simp] theorem orTsf_accesses (s : State) (tid : Nat) (fl : BitVec 5) : (s.orTsf tid fl).accesses = s.accesses := by
  unfold orTsf; repeat' split
  all_goals rfl
@[simp] theorem orTsf_copies (s : State) (tid : Nat) (fl : BitVec 5) : (s.orTsf tid fl).copies = s.copies := by
  unfold orTsf; repeat' split
  all_goals rfl
@[simp] theorem orTsf_reds (s : State) (tid : Nat) (fl : BitVec 5) : (s.orTsf tid fl).reds = s.reds := by
  unfold orTsf; repeat' split
  all_goals rfl
@[simp] theorem orTsf_thops (s : State) (tid : Nat) (fl : BitVec 5) : (s.orTsf tid fl).thops = s.thops := by
  unfold orTsf; repeat' split
  all_goals rfl
@[simp] theorem orTsf_arrops (s : State) (tid : Nat) (fl : BitVec 5) : (s.orTsf tid fl).arrops = s.arrops := by
  unfold orTsf; repeat' split
  all_goals rfl
@[simp] theorem orTsf_waiters (s : State) (tid : Nat) (fl : BitVec 5) : (s.orTsf tid fl).waiters = s.waiters := by
  unfold orTsf; repeat' split
  all_goals rfl
@[simp] theorem orTsf_mem (s : State) (tid : Nat) (fl : BitVec 5) : (s.orTsf tid fl).mem = s.mem := by
  unfold orTsf; repeat' split
  all_goals rfl
@[simp] theorem orTsf_hostMem (s : State) (tid : Nat) (fl : BitVec 5) : (s.orTsf tid fl).hostMem = s.hostMem := by
  unfold orTsf; repeat' split
  all_goals rfl
@[simp] theorem orTsf_domainMem (s : State) (tid : Nat) (fl : BitVec 5) : (s.orTsf tid fl).domainMem = s.domainMem := by
  unfold orTsf; repeat' split
  all_goals rfl
@[simp] theorem orTsf_leases (s : State) (tid : Nat) (fl : BitVec 5) : (s.orTsf tid fl).leases = s.leases := by
  unfold orTsf; repeat' split
  all_goals rfl
@[simp] theorem orTsf_setBounds (s : State) (tid : Nat) (fl : BitVec 5) : (s.orTsf tid fl).setBounds = s.setBounds := by
  unfold orTsf; repeat' split
  all_goals rfl
@[simp] theorem orTsf_badLines (s : State) (tid : Nat) (fl : BitVec 5) : (s.orTsf tid fl).badLines = s.badLines := by
  unfold orTsf; repeat' split
  all_goals rfl
@[simp] theorem orTsf_badLinks (s : State) (tid : Nat) (fl : BitVec 5) : (s.orTsf tid fl).badLinks = s.badLinks := by
  unfold orTsf; repeat' split
  all_goals rfl
@[simp] theorem orTsf_copies1 (s : State) (tid : Nat) (fl : BitVec 5) : (s.orTsf tid fl).copies1 = s.copies1 := by
  unfold orTsf; repeat' split
  all_goals rfl
@[simp] theorem orTsf_tlb (s : State) (tid : Nat) (fl : BitVec 5) : (s.orTsf tid fl).tlb = s.tlb := by
  unfold orTsf; repeat' split
  all_goals rfl
@[simp] theorem orTsf_rootPages (s : State) (tid : Nat) (fl : BitVec 5) : (s.orTsf tid fl).rootPages = s.rootPages := by
  unfold orTsf; repeat' split
  all_goals rfl
@[simp] theorem orTsf_bodies (s : State) (tid : Nat) (fl : BitVec 5) : (s.orTsf tid fl).bodies = s.bodies := by
  unfold orTsf; repeat' split
  all_goals rfl
@[simp] theorem orTsf_fetched (s : State) (tid : Nat) (fl : BitVec 5) : (s.orTsf tid fl).fetched = s.fetched := by
  unfold orTsf; repeat' split
  all_goals rfl
@[simp] theorem orTsf_binds (s : State) (tid : Nat) (fl : BitVec 5) : (s.orTsf tid fl).binds = s.binds := by
  unfold orTsf; repeat' split
  all_goals rfl
@[simp] theorem orTsf_topset (s : State) (tid : Nat) (fl : BitVec 5) : (s.orTsf tid fl).topset = s.topset := by
  unfold orTsf; repeat' split
  all_goals rfl
@[simp] theorem orTsf_due (s : State) (tid : Nat) (fl : BitVec 5) : (s.orTsf tid fl).due = s.due := by
  unfold orTsf; repeat' split
  all_goals rfl
@[simp] theorem orTsf_epochs (s : State) (tid : Nat) (fl : BitVec 5) : (s.orTsf tid fl).epochs = s.epochs := by
  unfold orTsf; repeat' split
  all_goals rfl
@[simp] theorem orTsf_dies (s : State) (tid : Nat) (fl : BitVec 5) : (s.orTsf tid fl).dies = s.dies := by
  unfold orTsf; repeat' split
  all_goals rfl
@[simp] theorem orTsf_rowReqs (s : State) (tid : Nat) (fl : BitVec 5) : (s.orTsf tid fl).rowReqs = s.rowReqs := by
  unfold orTsf; repeat' split
  all_goals rfl
@[simp] theorem orTsf_shards (s : State) (tid : Nat) (fl : BitVec 5) : (s.orTsf tid fl).shards = s.shards := by
  unfold orTsf; repeat' split
  all_goals rfl
@[simp] theorem orTsf_objs (s : State) (tid : Nat) (fl : BitVec 5) : (s.orTsf tid fl).objs = s.objs := by
  unfold orTsf; repeat' split
  all_goals rfl
@[simp] theorem orTsf_prunes (s : State) (tid : Nat) (fl : BitVec 5) : (s.orTsf tid fl).prunes = s.prunes := by
  unfold orTsf; repeat' split
  all_goals rfl
@[simp] theorem orTsf_oldTiles (s : State) (tid : Nat) (fl : BitVec 5) : (s.orTsf tid fl).oldTiles = s.oldTiles := by
  unfold orTsf; repeat' split
  all_goals rfl
@[simp] theorem orTsf_contexts (s : State) (tid : Nat) (fl : BitVec 5) : (s.orTsf tid fl).contexts = s.contexts := by
  unfold orTsf; repeat' split
  all_goals rfl
@[simp] theorem orTsf_exports (s : State) (tid : Nat) (fl : BitVec 5) : (s.orTsf tid fl).exports = s.exports := by
  unfold orTsf; repeat' split
  all_goals rfl
@[simp] theorem orTsf_reverse (s : State) (tid : Nat) (fl : BitVec 5) : (s.orTsf tid fl).reverse = s.reverse := by
  unfold orTsf; repeat' split
  all_goals rfl
@[simp] theorem orTsf_agenda (s : State) (tid : Nat) (fl : BitVec 5) : (s.orTsf tid fl).agenda = s.agenda := by
  unfold orTsf; repeat' split
  all_goals rfl
@[simp] theorem orTsf_issue (s : State) (tid : Nat) (fl : BitVec 5) : (s.orTsf tid fl).issue = s.issue := by
  unfold orTsf; repeat' split
  all_goals rfl
@[simp] theorem orTsf_rotor (s : State) (tid : Nat) (fl : BitVec 5) : (s.orTsf tid fl).rotor = s.rotor := by
  unfold orTsf; repeat' split
  all_goals rfl
@[simp] theorem orTsf_free (s : State) (tid : Nat) (fl : BitVec 5) : (s.orTsf tid fl).free = s.free := by
  unfold orTsf; repeat' split
  all_goals rfl
@[simp] theorem orTsf_nextId (s : State) (tid : Nat) (fl : BitVec 5) : (s.orTsf tid fl).nextId = s.nextId := by
  unfold orTsf; repeat' split
  all_goals rfl
@[simp] theorem group_orTsf (s : State) (tid : Nat) (fl : BitVec 5) (k : Nat) : (s.orTsf tid fl).group k = s.group k := by
  simp [group]
@[simp] theorem launch_orTsf (s : State) (tid : Nat) (fl : BitVec 5) (k : Nat) : (s.orTsf tid fl).launch k = s.launch k := by
  simp [launch]
@[simp] theorem core_orTsf (s : State) (tid : Nat) (fl : BitVec 5) (k : Nat) : (s.orTsf tid fl).core k = s.core k := by
  simp [core]
@[simp] theorem engine_orTsf (s : State) (tid : Nat) (fl : BitVec 5) (k : Nat) : (s.orTsf tid fl).engine k = s.engine k := by
  simp [engine]
@[simp] theorem part_orTsf (s : State) (tid : Nat) (fl : BitVec 5) (k : Nat) : (s.orTsf tid fl).part k = s.part k := by
  simp [part]
@[simp] theorem bind_orTsf (s : State) (tid : Nat) (fl : BitVec 5) (k : Nat) : (s.orTsf tid fl).bind k = s.bind k := by
  simp [bind]
@[simp] theorem die_orTsf (s : State) (tid : Nat) (fl : BitVec 5) (k : Nat) : (s.orTsf tid fl).die k = s.die k := by
  simp [die]

theorem orTsf_shape (s : State) (tid : Nat) (fl : BitVec 5) : s.orTsf tid fl = { s with teams := (s.orTsf tid fl).teams } := by
  unfold orTsf; split
  · rfl
  · split <;> rfl

theorem setGroup_shape (s : State) (gid : Nat) (g : Group) : s.setGroup gid g =
    { s with groups := (s.setGroup gid g).groups, cores := (s.setGroup gid g).cores } := by
  unfold setGroup; dsimp only; split <;> rfl

theorem look_orTsf (s : State) (tid : Nat) (fl : BitVec 5) (j : Nat) : Tbl.look (s.orTsf tid fl).teams j =
    if j = tid then (Tbl.look s.teams j).map fun t => { t with tsf := t.tsf ||| fl } else Tbl.look s.teams j := by
  unfold orTsf
  split_ifs with h0 hj hj
  · subst hj h0; cases Tbl.look s.teams j <;> simp
  · rfl
  · subst hj
    split
    · next h => simp [h]
    · next t h => simp [setTeam, h]
  · split
    · rfl
    · next t h => exact Tbl.look_set_other _ _ hj

theorem team_orTsf_other (s : State) {tid j : Nat} (fl : BitVec 5) (h : j ≠ tid) : (s.orTsf tid fl).team j = s.team j := by
  simp [team, Tbl.get, look_orTsf, h]

/-- A live team's flags are ORed; an unlisted team has none. -/
theorem team_orTsf_same (s : State) {tid : Nat} (fl : BitVec 5) {t : Team} (h : Tbl.look s.teams tid = some t) :
    (s.orTsf tid fl).team tid = { t with tsf := t.tsf ||| fl } := by
  simp [team, Tbl.get, look_orTsf, h]

@[simp] theorem orTsf_zero (s : State) (tid : Nat) : s.orTsf tid 0 = s := by simp [orTsf]

end Sys2Proof.Machine.State
end

