-- ==== Sys2Proof/Laws/Window.lean ====
section
/-!
SUPPORT. The registers of one group: what a lane, a byte of the window, a tag and a register state read after each write
of Operands.lean, and which fields of the group stay.
-/

namespace Sys2Proof.Machine

namespace Mem

/-- Words written over a base, lane by lane, read back; every other byte stays. -/
theorem num_putLanes (base : Nat) (f : Nat → Nat) (ls : List Nat) (m : Mem) (l : Nat) :
    (m.putLanes base ls f).num (base + 4 * l) 4
      = if l ∈ ls then f l % 256 ^ 4 else m.num (base + 4 * l) 4 := by
  induction ls generalizing m with
  | nil => simp [putLanes]
  | cons k ks ih =>
    rw [putLanes, List.foldl_cons]
    refine (ih _).trans ?_
    by_cases h : l ∈ ks
    · simp [h]
    · by_cases hk : l = k
      · subst hk; simp [h, num_putNum_same]
      · simp only [h, List.mem_cons, hk, or_self, if_false]
        exact num_putNum_other (by omega)

theorem read_putLanes (base : Nat) (f : Nat → Nat) (ls : List Nat) (m : Mem) (a : Nat)
    (h : ∀ l ∈ ls, a < base + 4 * l ∨ base + 4 * l + 4 ≤ a) : (m.putLanes base ls f).read a = m.read a := by
  induction ls generalizing m with
  | nil => rfl
  | cons k ks ih =>
    rw [putLanes, List.foldl_cons]
    refine (ih _ fun l hl => h l (List.mem_cons_of_mem _ hl)).trans ?_
    rw [putNum]
    refine read_store_other _ ?_
    rw [length_bytesOfNat]
    have := h k (List.mem_cons_self ..)
    omega

theorem num_putLanes_other (base c : Nat) (f : Nat → Nat) (ls : List Nat) (m : Mem)
    (h : ∀ l ∈ ls, c + 4 ≤ base + 4 * l ∨ base + 4 * l + 4 ≤ c) : (m.putLanes base ls f).num c 4 = m.num c 4 := by
  rw [num, num, bytes_congr fun i hi => read_putLanes base f ls m (c + i) fun l hl => by have := h l hl; omega]

theorem wf_putLanes {m : Mem} (base : Nat) (ls : List Nat) (f : Nat → Nat) (h : m.wf) : (m.putLanes base ls f).wf := by
  induction ls generalizing m with
  | nil => exact h
  | cons k ks ih => exact ih (wf_putNum _ _ _ h)

end Mem

namespace Group

/-- The fields of a group that no write to the window changes. -/
def Same (g h : Group) : Prop :=
  h = { g with win := h.win, tags := h.tags, vst := h.vst, slots := h.slots, prods := h.prods, wrote := h.wrote }

theorem Same.refl (g : Group) : g.Same g := rfl

theorem Same.trans {a b c : Group} (h : a.Same b) (k : b.Same c) : a.Same c := by
  unfold Same at *; rw [k, h]

/-- `Same` gives each field it names. -/
theorem Same.fields {g h : Group} (e : g.Same h) :
    h.ident = g.ident ∧ h.subs = g.subs ∧ h.parked = g.parked ∧ h.s = g.s ∧ h.p = g.p ∧ h.csr = g.csr ∧ h.sbusy = g.sbusy
      ∧ h.memues = g.memues ∧ h.lastSub = g.lastSub ∧ h.seq = g.seq := by
  rw [Same] at e
  refine ⟨?_, ?_, ?_, ?_, ?_, ?_, ?_, ?_, ?_, ?_⟩ <;> rw [e]

theorem same_win (g : Group) (m : Mem) : g.Same { g with win := m } := rfl
theorem same_setSt (g : Group) (n : Nat) (x : RegSt) : g.Same (g.setSt n x) := rfl
theorem same_setTags (g : Group) (a n : Nat) (t : Tag) : g.Same (g.setTags a n t) := rfl
theorem same_setSlot (g : Group) (k : Nat) (x : Slot) : g.Same (g.setSlot k x) := rfl
theorem same_dropHolder (g : Group) (k : Nat) : g.Same (g.dropHolder k) := rfl
theorem same_addHolder (g : Group) (k : Nat) : g.Same (g.addHolder k) := rfl
theorem same_noteWrite (g : Group) (a n : Nat) (ps : List (Nat × Nat)) : g.Same (g.noteWrite a n ps) := rfl

theorem same_discardPair (g : Group) (r : Nat) : g.Same (g.discardPair r) := by
  unfold discardPair; split <;> rfl

theorem win_discardPair (g : Group) (r : Nat) : (g.discardPair r).win = g.win := by
  unfold discardPair; split <;> rfl

theorem foldl_discardPair (rs : List Nat) (g : Group) :
    g.Same (rs.foldl discardPair g) ∧ (rs.foldl discardPair g).win = g.win := by
  induction rs generalizing g with
  | nil => exact ⟨rfl, rfl⟩
  | cons r rs ih =>
    exact ⟨(same_discardPair g r).trans (ih _).1, (ih _).2.trans (win_discardPair g r)⟩

theorem same_discard (g : Group) (a n : Nat) : g.Same (g.discard a n) := (foldl_discardPair _ g).1

@[simp] theorem win_discard (g : Group) (a n : Nat) : (g.discard a n).win = g.win := (foldl_discardPair _ g).2

/-- With no pending pair in reach nothing is discarded. -/
theorem discard_none {g : Group} {a n : Nat} (h : g.anyP a n = false) : g.discard a n = g := by
  unfold anyP at h
  unfold discard
  cases hp : g.pairsIn (regsOf a n) with
  | nil => rfl
  | cons x xs => simp [hp] at h

@[simp] theorem win_setTags (g : Group) (a n : Nat) (t : Tag) : (g.setTags a n t).win = g.win := rfl
@[simp] theorem win_setSt (g : Group) (n : Nat) (x : RegSt) : (g.setSt n x).win = g.win := rfl
@[simp] theorem win_noteWrite (g : Group) (a n : Nat) (ps : List (Nat × Nat)) : (g.noteWrite a n ps).win = g.win := rfl

theorem same_writeV (g : Group) (n : Nat) (vals : List (Nat × W32)) (t : Tag) : g.Same (g.writeV n vals t) :=
  (same_discard g (1024 * n) 1024).trans rfl

theorem same_writeRange (g : Group) (a : Nat) (bs : List Byte) (t : Tag) : g.Same (g.writeRange a bs t) :=
  (same_discard g a bs.length).trans rfl

/-- The window after a vector write. -/
theorem win_writeV (g : Group) (n : Nat) (vals : List (Nat × W32)) (t : Tag) : (g.writeV n vals t).win =
    vals.foldl (fun (m : Mem) (c : Nat × W32) => m.putNum (1024 * n + 4 * c.1) 4 c.2.toNat) g.win := by
  simp [writeV, setTags]

/-- A vector write of one value a lane: each lane of the list reads its value. -/
theorem lane_writeV (g : Group) (n : Nat) (ls : List Nat) (v : Nat → W32) (t : Tag) (l : Nat) :
    (g.writeV n (ls.map fun k => (k, v k)) t).lane n l = if l ∈ ls then v l else g.lane n l := by
  unfold lane
  rw [win_writeV, List.foldl_map]
  erw [Mem.num_putLanes (1024 * n) (fun k => (v k).toNat)]
  split
  · rw [Nat.mod_eq_of_lt (by simpa using (v l).isLt)]; simp
  · rfl

/-- Bytes outside the words written stay. -/
theorem read_writeV (g : Group) (n : Nat) (ls : List Nat) (v : Nat → W32) (t : Tag) (a : Nat)
    (h : ∀ l ∈ ls, a < 1024 * n + 4 * l ∨ 1024 * n + 4 * l + 4 ≤ a) :
    (g.writeV n (ls.map fun k => (k, v k)) t).win.read a = g.win.read a := by
  rw [win_writeV, List.foldl_map]
  exact Mem.read_putLanes _ (fun k => (v k).toNat) _ _ _ h

theorem get_foldl_put (ks : List Nat) (ts : Tbl Tag) (t : Tag) (k : Nat) :
    Tbl.get .raw (ks.foldl (fun ts k => Tbl.put .raw ts k t) ts) k = if k ∈ ks then t else Tbl.get .raw ts k := by
  induction ks generalizing ts with
  | nil => simp
  | cons j js ih =>
    rw [List.foldl_cons, ih]
    by_cases h : k ∈ js
    · simp [h]
    · by_cases hk : k = j
      · subst hk; simp [h]
      · simp [h, hk, Tbl.get_put_other _ _ _ hk]

/-- Tags after a range is tagged (R49). -/
theorem tagAt_setTags (g : Group) (a n : Nat) (t : Tag) (k : Nat) :
    (g.setTags a n t).tagAt k = if k ∈ granules a n then t else g.tagAt k := get_foldl_put _ _ _ _

/-- The granules of a vector register take the tag of a write to it. -/
theorem tagAt_writeV (g : Group) (n : Nat) (vals : List (Nat × W32)) (t : Tag) {k : Nat} (h : k ∈ granules (1024 * n) 1024) :
    (g.writeV n vals t).tagAt k = t := by
  rw [writeV, tagAt_setTags, if_pos h]

/-- The bytes of a range read as written. -/
theorem bytes_writeRange (g : Group) (a : Nat) (bs : List Byte) (t : Tag) : (g.writeRange a bs t).win.bytes a bs.length = bs := by
  simp [writeRange, setTags, Mem.bytes_store_same]

theorem read_writeRange (g : Group) (a : Nat) (bs : List Byte) (t : Tag) {c : Nat} (h : c < a ∨ a + bs.length ≤ c) :
    (g.writeRange a bs t).win.read c = g.win.read c := by
  simp [writeRange, setTags, Mem.read_store_other bs h]

/-! Registers with no window. -/

@[simp] theorem sub_setSub_same (g : Group) (x : Nat) (y : Sub) : (g.setSub x y).sub x = y := Tbl.get_set_same ..
theorem sub_setSub_other (g : Group) {x z : Nat} (y : Sub) (h : z ≠ x) : (g.setSub x y).sub z = g.sub z :=
  Tbl.get_set_other _ _ _ h
@[simp] theorem sub_subPc_same (g : Group) (x : Nat) (pc : W64) : (g.subPc x pc).sub x = { g.sub x with pc := pc } :=
  sub_setSub_same ..
theorem sub_subPc_other (g : Group) {x z : Nat} (pc : W64) (h : z ≠ x) : (g.subPc x pc).sub z = g.sub z :=
  sub_setSub_other _ _ h

@[simp] theorem scal_setScal_same (g : Group) (n : Nat) (x : W64) : (g.setScal n x).scal n = x := Tbl.get_put_same ..
theorem scal_setScal_other (g : Group) {n m : Nat} (x : W64) (h : m ≠ n) : (g.setScal n x).scal m = g.scal m :=
  Tbl.get_put_other _ _ _ h

/-- A predicate write touches the lanes of its mask, and p0 never (R48). -/
theorem pred_setPred_same (g : Group) {k : Nat} (m val : Mask) (h : k ≠ 0) :
    (g.setPred k m val).pred k = (g.pred k &&& ~~~m) ||| (val &&& m) := by
  simp [setPred, pred, h]
theorem pred_setPred_other (g : Group) {k j : Nat} (m val : Mask) (h : j ≠ k) : (g.setPred k m val).pred j = g.pred j := by
  unfold setPred pred
  split
  · rfl
  · split
    · rfl
    · exact Tbl.get_put_other _ _ _ h
@[simp] theorem pred_zero (g : Group) : g.pred 0 = BitVec.allOnes 256 := rfl
theorem setPred_zero (g : Group) (m val : Mask) : g.setPred 0 m val = g := rfl

@[simp] theorem st_setSt_same (g : Group) (n : Nat) (x : RegSt) : (g.setSt n x).st n = x := Tbl.get_put_same ..
theorem st_setSt_other (g : Group) {n m : Nat} (x : RegSt) (h : m ≠ n) : (g.setSt n x).st m = g.st m :=
  Tbl.get_put_other _ _ _ h

end Group

end Sys2Proof.Machine
end

