-- ==== Sys2Proof/Laws/Issue.lean ====
section
/-!
SUPPORT. How a word is carried out around its meaning: the hold latch, completion, a turn passed on, and traps taken.
-/

namespace Sys2Proof.Claim

open Machine

/-- A resident group is listed. -/
theorem Issuing.look {s : State} {gid sub : Nat} (h : Issuing s gid sub) : Tbl.look s.groups gid = some (s.group gid) := by
  obtain ⟨g, hg⟩ := Option.isSome_iff_exists.1 h.2
  simp [State.group, Tbl.get, hg]

end Sys2Proof.Claim

namespace Sys2Proof.Machine

open Claim

/-! ### The hold latch -/

theorem holdLatch_eq (s : State) (c : Ctx) : ∃ x, holdLatch s c = { s with cores := x } := ⟨_, rfl⟩

@[simp] theorem holdLatch_groups (s : State) (c : Ctx) : (holdLatch s c).groups = s.groups := rfl
@[simp] theorem holdLatch_teams (s : State) (c : Ctx) : (holdLatch s c).teams = s.teams := rfl
@[simp] theorem holdLatch_mem (s : State) (c : Ctx) : (holdLatch s c).mem = s.mem := rfl
@[simp] theorem holdLatch_issue (s : State) (c : Ctx) : (holdLatch s c).issue = s.issue := rfl
@[simp] theorem holdLatch_group (s : State) (c : Ctx) (k : Nat) : (holdLatch s c).group k = s.group k := rfl
@[simp] theorem holdLatch_team (s : State) (c : Ctx) (k : Nat) : (holdLatch s c).team k = s.team k := rfl
@[simp] theorem holdLatch_launch (s : State) (c : Ctx) (k : Nat) : (holdLatch s c).launch k = s.launch k := rfl
@[simp] theorem holdLatch_engine (s : State) (c : Ctx) (k : Nat) : (holdLatch s c).engine k = s.engine k := rfl
@[simp] theorem holdLatch_part (s : State) (c : Ctx) (k : Nat) : (holdLatch s c).part k = s.part k := rfl
@[simp] theorem holdLatch_m (s : State) (c : Ctx) : (holdLatch s c).m = s.m := rfl
@[simp] theorem holdLatch_free (s : State) (c : Ctx) : (holdLatch s c).free = s.free := rfl
@[simp] theorem ctx_g_holdLatch (s : State) (c d : Ctx) : d.g (holdLatch s c) = d.g s := rfl

/-- The hold latch of a core aside, no core differs (R56, R57). -/
theorem holdLatch_core (s : State) (c : Ctx) (n : Nat) :
    { (holdLatch s c).core n with latch := [] } = { s.core n with latch := [] } := by
  by_cases h : n = (c.g s).ident.core
  · subst h; rw [holdLatch, State.core_setCore_same]; rfl
  · rw [holdLatch, State.core_setCore_other _ _ h]

/-! ### Carrying out a word -/

/-- A word on a group core: its meaning runs after the hold latch, and `settleGroup` closes the issue. -/
theorem issueBoth_group {i : Instr} {f : Fields} {j : Bool} {grp : Ctx → State → Except Stop State}
    {beam : Ctx → Nat → Run → State → Except Stop State} {s : State} {gid sub : Nat} (h : Issuing s gid sub) :
    issueBoth i f j grp beam s =
      .next (settleGroup (ctx i f s gid sub) j s (grp (ctx i f s gid sub) (holdLatch s (ctx i f s gid sub)))) := by
  obtain ⟨rest, h⟩ := h.1
  simp [issueBoth, h]

theorem issueGroup_group {i : Instr} {f : Fields} {grp : Ctx → State → Except Stop State} {s : State} {gid sub : Nat}
    (h : Issuing s gid sub) : issueGroup i f grp s =
      .next (settleGroup (ctx i f s gid sub) false s (grp (ctx i f s gid sub) (holdLatch s (ctx i f s gid sub)))) :=
  issueBoth_group h

/-- A word on a beam core. -/
theorem issueBoth_beam {i : Instr} {f : Fields} {j : Bool} {grp : Ctx → State → Except Stop State}
    {beam : Ctx → Nat → Run → State → Except Stop State} {s : State} {q : Nat} {r : Run} (h : BeamIssuing s q r) :
    issueBoth i f j grp beam s =
      .next (settleBeam q f.len.bytes j s (beam ⟨i, f, r.pass.gid, 15, r.pc⟩ q r s)) := by
  obtain ⟨⟨rest, h⟩, hr⟩ := h
  simp [issueBoth, h, hr]

/-- A completed word: the group as the meaning leaves it, the turn's records, and the PC after the word. -/
theorem retire_eq {c : Ctx} {g0 : Group} {s : State} {g : Group} (h : Tbl.look s.groups c.gid = some g) (j : Bool) :
    retire c j g0 s = endTurn (s.setGroup c.gid
      (let g := { g with
        lastSub := some c.sub
        wskipNow := if g0.wskipNow.contains c.sub then g.wskipNow.filter (· != c.sub) else g.wskipNow
        sleep := if (Tbl.look g0.sleep c.sub).isSome then Tbl.del g.sleep c.sub else g.sleep }
       if j then g else g.subPc c.sub (c.pc + BitVec.ofNat 64 c.len))) := by
  simp only [retire, h]

/-- A WSKIP that stands for sub-group `x`, or none, is used up alike. -/
theorem skip_used (l : List Nat) (x : Nat) : (if l.contains x then l.filter (· != x) else l) = l.filter (· != x) := by
  split
  · rfl
  · refine (List.filter_eq_self.2 fun y hy => ?_).symm
    have : y ≠ x := fun e => by subst e; simp_all
    simpa using this

/-- A SLEEP that stands for sub-group `x`, or none, is used up alike. -/
theorem sleep_used (t : List (Nat × Nat)) (x : Nat) : (if (Tbl.look t x).isSome then Tbl.del t x else t) = Tbl.del t x := by
  split
  · rfl
  · rename_i h
    exact (Tbl.del_absent (by simpa using h)).symm

@[simp] theorem settleGroup_ok (c : Ctx) (j : Bool) (s0 s : State) :
    settleGroup c j s0 (.ok s) = retire c j (c.g s0) s := rfl
@[simp] theorem settleGroup_wait (c : Ctx) (j : Bool) (s0 : State) : settleGroup c j s0 (.error .wait) = notReady s0 := rfl
@[simp] theorem settleGroup_waitWith (c : Ctx) (j : Bool) (s0 s : State) :
    settleGroup c j s0 (.error (.waitWith s)) = notReady (keepLatch c s0 s) := rfl
@[simp] theorem settleGroup_trap (c : Ctx) (j : Bool) (s0 : State) (t : Trap) :
    settleGroup c j s0 (.error (.trap t)) = trapAt c s0 t := rfl
@[simp] theorem settleGroup_trapWith (c : Ctx) (j : Bool) (s0 s : State) (t : Trap) :
    settleGroup c j s0 (.error (.trapWith s t)) = trapAt c (keepLatch c s0 s) t := rfl
@[simp] theorem settleBeam_ok (q n : Nat) (j : Bool) (s0 s : State) : settleBeam q n j s0 (.ok s) = retireBeam q n j s := rfl

/-- A completed beam instruction: the PC of the pass is at the next word. -/
theorem retireBeam_eq {q n : Nat} {s : State} {r : Run} (h : (s.engine q).run = some r) (j : Bool) :
    retireBeam q n j s = endTurn (if j then s else s.setRun q { r with pc := r.pc + BitVec.ofNat 64 n }) := by
  simp only [retireBeam, h]; rfl

end Sys2Proof.Machine
end

