-- ==== Sys2Proof/Laws/Lane.lean ====
section
/-!
SUPPORT. Reading sources, and the shapes of lane, uniform and beam instructions: what each leaves when it completes.
-/

namespace Sys2Proof.Machine

open Claim

/-- What reading sources and writing the window may change: one group's window, its teams' TSF and hold latches. -/
def WinOnly (s t : State) (gid : Nat) : Prop :=
  (t = { s with groups := t.groups, teams := t.teams, cores := t.cores })
  ∧ (∀ n, { t.core n with latch := [] } = { s.core n with latch := [] })
  ∧ (∀ k, k ≠ gid → t.group k = s.group k)
  ∧ ((Tbl.look s.groups gid).isSome = true → (Tbl.look t.groups gid).isSome = true)
  ∧ (s.group gid).Same (t.group gid)

theorem WinOnly.refl (s : State) (gid : Nat) : WinOnly s s gid := ⟨rfl, fun _ => rfl, fun _ _ => rfl, id, rfl⟩

theorem WinOnly.trans {a b c : State} {gid : Nat} (h : WinOnly a b gid) (k : WinOnly b c gid) : WinOnly a c gid := by
  obtain ⟨h1, h2, h3, h4, h5⟩ := h
  obtain ⟨k1, k2, k3, k4, k5⟩ := k
  refine ⟨?_, fun n => (k2 n).trans (h2 n), fun j hj => (k3 j hj).trans (h3 j hj), k4 ∘ h4, h5.trans k5⟩
  rw [k1, h1]

theorem winOnly_holdLatch (s : State) (c : Ctx) (gid : Nat) : WinOnly s (holdLatch s c) gid :=
  ⟨rfl, holdLatch_core s c, fun _ _ => rfl, id, rfl⟩

theorem winOnly_setGroup (s : State) (gid : Nat) (g : Group) (h : (s.group gid).Same g) : WinOnly s (s.setGroup gid g) gid := by
  refine ⟨?_, State.setGroup_core s gid g, fun k hk => State.group_setGroup_other s g hk, fun _ => by simp, ?_⟩
  · unfold State.setGroup; dsimp only; split <;> rfl
  · rw [State.group_setGroup_same]; exact h.trans rfl

theorem winOnly_orTsf (s : State) (tid gid : Nat) (fl : BitVec 5) : WinOnly s (s.orTsf tid fl) gid := by
  refine ⟨?_, fun n => by simp, fun k _ => by simp, by simp, by simp [Group.Same.refl]⟩
  unfold State.orTsf; split
  · rfl
  · split <;> rfl

theorem Group.same_settled (g : Group) (p k : Nat) : g.Same (g.settled p k) := by
  unfold Group.settled
  refine .trans ?_ (same_dropHolder _ _)
  refine .trans ?_ (same_setTags _ _ _ _)
  refine .trans ?_ (same_win _ _)
  refine .trans ?_ (same_setTags _ _ _ _)
  exact (same_setSt _ _ _).trans ((same_setSt _ _ _).trans (same_noteWrite _ _ _ _))

theorem settlePair_frame {gid p : Nat} {bt : Bool} {s t : State} (h : settlePair gid p bt s = .ok t) : WinOnly s t gid := by
  unfold settlePair at h
  dsimp only at h
  split at h
  · cases hq : settleTrap (s.group gid) p bt with
    | error e => rw [hq] at h; cases h
    | ok u =>
      rw [hq] at h
      simp only [Except.bind] at h
      split at h
      · cases h
      · cases h
        refine WinOnly.trans (winOnly_setGroup s gid _ ?_) (winOnly_orTsf _ _ _ _)
        exact Group.same_settled _ _ _
  · cases h; exact WinOnly.refl _ _

theorem settleAll_frame {gid : Nat} {ps : List (Nat × Bool)} {s t : State} (h : settleAll gid ps s = .ok t) :
    WinOnly s t gid := by
  induction ps generalizing s with
  | nil => cases h; exact WinOnly.refl _ _
  | cons p ps ih =>
    obtain ⟨p, bt⟩ := p
    rw [settleAll] at h
    cases hp : settlePair gid p bt s with
    | error e => rw [hp] at h; cases h
    | ok u =>
      rw [hp] at h
      exact (settlePair_frame hp).trans (ih h)

/-- Sources made ready change nothing but what their settling does (R68). -/
theorem ready_frame {c : Ctx} {uses : List Use} {s t : State} (h : ready c uses s = .ok t) : WinOnly s t c.gid := by
  unfold ready at h
  dsimp only at h
  cases h1 : sourceTraps (c.g s) uses with
  | error e => rw [h1] at h; cases h
  | ok u =>
    cases h2 : settleTraps (c.g s) ((c.g s).settles uses) with
    | error e => rw [h1, h2] at h; cases h
    | ok u =>
      cases h3 : sourceWaits (c.g s) uses with
      | error e => rw [h1, h2, h3] at h; cases h
      | ok u => rw [h1, h2, h3] at h; exact settleAll_frame h

theorem readable_frame {c : Ctx} {uses : List Use} {s s1 : State} (h : Readable c uses s s1) : WinOnly s s1 c.gid :=
  (winOnly_holdLatch s c c.gid).trans (ready_frame h)

/-! ### Plain sources -/

theorem anyE_of_full {g : Group} {a n : Nat} (h : ∀ r ∈ regsOf a n, g.st r = .full) : g.anyE a n = false := by
  simp only [Group.anyE, List.any_eq_false]
  intro r hr; simp [h r hr]

/-- Scalars all delivered (R27, R400). -/
theorem busyScals_nil {g : Group} {os : List Opd} (h : Delivered g os) : busyScals g os = [] := by
  rw [busyScals, List.filterMap_eq_nil_iff]
  intro o ho
  split
  · next n =>
    rw [if_neg]
    simp only [Bool.not_eq_true, List.any_eq_false]
    intro b hb; simpa using (h n ho).1 b hb
  · rfl

theorem scalTraps_ok {g : Group} {os : List Opd} (h : Delivered g os) : scalTraps g os = .ok () := by
  have hn : (g.memues.find? fun m => m.scal.any (scalIn os)) = none := by
    rw [List.find?_eq_none]
    intro m hm
    cases hk : m.scal with
    | none => simp
    | some k =>
      simp only [Option.any_some, scalIn, List.any_eq_true, not_exists, not_and]
      rintro o ho
      split
      · next n => exact fun e => (h n ho).2 m hm (by simp_all)
      · simp
  unfold scalTraps
  rw [hn]

theorem scalReady_ok {g : Group} {os : List Opd} (h : Delivered g os) : scalReady g os = .ok () := by
  unfold scalReady
  rw [scalTraps_ok h, busyScals_nil h]
  rfl

/-- Sources with nothing to wait for, to trap on or to settle are ready as they stand. -/
theorem ready_plain {c : Ctx} {uses : List Use} {s : State} (h : Plain (c.g s) uses) : ready c uses s = .ok s := by
  obtain ⟨hf, ht, hs⟩ := h
  have hp : (c.g s).settles uses = [] := by
    unfold Group.settles
    rw [List.flatMap_eq_nil_iff.2, List.foldl_nil]
    intro u hu
    rw [List.map_eq_nil_iff, Group.pairsIn, List.filter_eq_nil_iff]
    intro r hr
    obtain ⟨x, hx, rfl⟩ := List.mem_map.1 (List.mem_dedup.1 hr)
    simp [(hf u hu x hx).2]
  have he : (c.g s).emptyUses uses = [] := by
    simp only [Group.emptyUses, List.filter_eq_nil_iff]
    intro u hu
    simp [anyE_of_full fun r hr => (hf u hu r hr).1]
  have htags : checkTags (c.g s) uses = .ok () := by
    unfold checkTags
    rw [List.filterMap_eq_nil_iff.2 ht]
  have hb : busyScals (c.g s) (uses.map (·.o)) = [] := busyScals_nil hs
  have h1 : sourceTraps (c.g s) uses = .ok () := by
    unfold sourceTraps
    simp only [he, List.filterMap_nil, List.filter_nil, scalTraps_ok hs, htags]
    rfl
  have h2 : sourceWaits (c.g s) uses = .ok () := by
    unfold sourceWaits
    simp only [he, hb]
    rfl
  unfold ready
  dsimp only
  rw [h1, hp, h2]
  rfl

theorem readable_plain {c : Ctx} {uses : List Use} {s : State} (h : Plain (c.g s) uses) : Readable c uses s (holdLatch s c) :=
  ready_plain (by simpa using h)

/-! ### Completion -/

theorem checkRefs_ok {c : Ctx} {g : Group} {uses : List Use} {ds : List (Opd × Nat)} (h : RefsOk g uses ds) :
    checkRefs c g uses ds = .ok () := by
  unfold checkRefs guardI
  rw [if_pos]
  simp only [Bool.and_eq_true, List.all_eq_true]
  exact ⟨h.1, h.2⟩

/-- A group after its word has completed: PC at the next word, and the turn's records. -/
def doneGroup (c : Ctx) (g : Group) : Group :=
  { g with
    lastSub := some c.sub, wskipNow := g.wskipNow.filter (· != c.sub), sleep := Tbl.del g.sleep c.sub, wrote := []
    subs := Tbl.set g.subs c.sub { g.sub c.sub with pc := c.pc + BitVec.ofNat 64 c.len } }

/-- The end of a word whose meaning changed one group's window and TSF. -/
theorem retire_frame {c : Ctx} {s s2 : State} {g : Group} (fl : BitVec 5) (h : WinOnly s s2 c.gid)
    (hg : (s2.group c.gid).Same g) :
    let t := retire c false (s.group c.gid) ((s2.setGroup c.gid g).orTsf (s2.group c.gid).ident.tid fl)
    LaneFrame s2 t c.gid c.sub (c.pc + BitVec.ofNat 64 c.len) fl ∧ t.group c.gid = doneGroup c g := by
  intro t
  set u := (s2.setGroup c.gid g).orTsf (s2.group c.gid).ident.tid fl with hu
  have hlook : Tbl.look u.groups c.gid = some { g with wrote := [] } := by rw [hu]; simp
  have hw : g.wskipNow = (s.group c.gid).wskipNow := by rw [hg, h.2.2.2.2]
  have hsl : g.sleep = (s.group c.gid).sleep := by rw [hg, h.2.2.2.2]
  have hwo : WinOnly s2 u c.gid := (winOnly_setGroup _ _ _ hg).trans (winOnly_orTsf _ _ _ _)
  have ht : t = endTurn (u.setGroup c.gid (doneGroup c g)) := by
    show retire c false _ u = _
    rw [retire_eq hlook]
    simp only [hw, hsl, skip_used, sleep_used, Bool.false_eq_true, if_false, doneGroup]
    rfl
  have hgrp : t.group c.gid = doneGroup c g := by rw [ht]; simp; rfl
  refine ⟨⟨⟨?_, ?_⟩, ?_, ?_, ?_⟩, hgrp⟩
  · have e := hwo.1
    rw [ht, State.setGroup_shape, e]
    rfl
  · intro n
    rw [ht, State.core_endTurn, State.setGroup_core, hwo.2.1]
  · intro k hk
    rw [ht, State.group_endTurn, State.group_setGroup_other _ _ hk, hwo.2.2.1 k hk]
  · intro k
    rw [ht, State.endTurn_teams, State.setGroup_teams, hu, State.look_orTsf, State.setGroup_teams]
  · rw [hgrp, Issued, hg]
    rfl

/-! ### Lane words -/

theorem laneBody_ok {c : Ctx} {uses : List Use} {t : Tag} {fn : Group → Nat → W32 × BitVec 5} {s s1 : State}
    (hr : RefsOk (c.g s) uses [(c.f.d, 1)]) (ha : (c.g s).activeReal c.sub c.f ≠ 0) (hs : ready c uses s = .ok s1) :
    let act := (c.g s).activeReal c.sub c.f
    let ls := laneSet (c.g s1) act
    laneBody c uses t fn s = .ok ((s1.setGroup c.gid
      (writeLanes (c.g s1) c.f.d (ls.map fun l => (l, (fn (c.g s1) l).1)) t)).orTsf (c.g s1).ident.tid
        (laneFlags act ls fun l => (fn (c.g s1) l).2)) := by
  intro act ls
  unfold laneBody
  rw [checkRefs_ok hr]
  simp only [bind, Except.bind, ha, if_false, hs, pure, Except.pure]
  congr 2
  · simp [ls, act, List.map_map, Function.comp_def]
  · simp [laneFlags, ls, act, List.filter_map, List.map_map, Function.comp_def]

theorem laneBody_idle {c : Ctx} {uses : List Use} {t : Tag} {fn : Group → Nat → W32 × BitVec 5} {s : State}
    (hr : RefsOk (c.g s) uses [(c.f.d, 1)]) (ha : (c.g s).activeReal c.sub c.f = 0) : laneBody c uses t fn s = .ok s := by
  unfold laneBody
  rw [checkRefs_ok hr]
  simp [bind, Except.bind, ha, pure, Except.pure]

theorem same_writeLanes (g : Group) (d : Opd) (vals : List (Nat × W32)) (t : Tag) : g.Same (writeLanes g d vals t) := by
  cases d <;> first | exact Group.same_writeV .. | rfl

theorem lanesWritten_writeLanes (g h : Group) (d : Opd) (ls : List Nat) (v : Nat → W32) (t : Tag)
    (hw : h.win = (writeLanes g d (ls.map fun l => (l, v l)) t).win)
    (ht : h.tags = (writeLanes g d (ls.map fun l => (l, v l)) t).tags)
    (hv : h.vst = (writeLanes g d (ls.map fun l => (l, v l)) t).vst)
    (hs : h.slots = (writeLanes g d (ls.map fun l => (l, v l)) t).slots) : LanesWritten g h d ls v t := by
  have htag : ∀ k, h.tagAt k = (writeLanes g d (ls.map fun l => (l, v l)) t).tagAt k := fun k => by
    simp [Group.tagAt, ht]
  by_cases hd : ∃ n, d = .v n
  · obtain ⟨n, rfl⟩ := hd
    simp only [writeLanes] at hw hv hs htag
    refine ⟨fun m hm => ?_, fun a ha => ?_, fun hp => ?_⟩
    · cases hm
      refine ⟨fun l hl => ?_, fun k hk => ?_⟩
      · have := Group.lane_writeV g n.val ls v t l
        rw [if_pos hl] at this
        rw [← this, Group.lane, hw]; rfl
      · rw [htag, Group.tagAt_writeV _ _ _ _ hk]
    · rw [hw]
      refine Group.read_writeV _ _ _ _ _ _ fun l hl => ?_
      have := ha n rfl
      unfold InLanes at this
      push Not at this
      have := this l hl
      omega
    · have hd := Group.discard_none (hp n rfl)
      refine ⟨?_, ?_, fun k hk => ?_⟩
      · rw [hv, Group.writeV, hd]; rfl
      · rw [hs, Group.writeV, hd]; rfl
      · rw [htag, Group.writeV, Group.tagAt_setTags, if_neg (hk n rfl), hd]; rfl
  · have hwl : writeLanes g d (ls.map fun l => (l, v l)) t = g := by
      cases d <;> first | rfl | exact absurd ⟨_, rfl⟩ hd
    rw [hwl] at hw hv hs
    refine ⟨fun n hn => absurd ⟨n, hn⟩ hd, fun a _ => by rw [hw], fun _ => ⟨hv, hs, fun k _ => by rw [htag, hwl]⟩⟩

/-- The end of a word that changed nothing. -/
theorem retire_idle {c : Ctx} {s : State} (hl : (Tbl.look s.groups c.gid).isSome = true) :
    let t := retire c false (s.group c.gid) (holdLatch s c)
    LaneFrame s t c.gid c.sub (c.pc + BitVec.ofNat 64 c.len) 0 ∧ t.group c.gid = doneGroup c (s.group c.gid) := by
  intro t
  obtain ⟨g, hg⟩ := Option.isSome_iff_exists.1 hl
  have hgg : s.group c.gid = g := by simp [State.group, Tbl.get, hg]
  have ht : t = endTurn ((holdLatch s c).setGroup c.gid { doneGroup c g with wrote := g.wrote }) := by
    show retire c false _ _ = _
    rw [retire_eq (g := g) (by simpa using hg)]
    simp only [hgg, skip_used, sleep_used, Bool.false_eq_true, if_false, doneGroup]
    rfl
  have hgrp : t.group c.gid = doneGroup c (s.group c.gid) := by rw [ht, hgg]; simp; rfl
  refine ⟨⟨⟨?_, fun n => ?_⟩, fun k hk => ?_, fun k => ?_, ?_⟩, hgrp⟩
  · rw [ht, State.setGroup_shape]; rfl
  · rw [ht, State.core_endTurn, State.setGroup_core, holdLatch_core]
  · rw [ht, State.group_endTurn, State.group_setGroup_other _ _ hk, holdLatch_group]
  · rw [ht, State.endTurn_teams, State.setGroup_teams, holdLatch_teams]
    split
    · cases Tbl.look s.teams k <;> simp
    · rfl
  · rw [hgrp, Issued]; rfl

/-- A word whose meaning changes nothing completes: its sub-group goes on at the next word. -/
theorem does_nothing {i : Instr} {f : Fields} {s : State} {gid sub : Nat} (hI : Issuing s gid sub)
    (h : exec i s = .next (settleGroup (ctx i f s gid sub) false s (.ok (holdLatch s (ctx i f s gid sub))))) :
    Does i s gid sub (nextPc f s gid sub) s := by
  set c := ctx i f s gid sub
  have ht : settleGroup c false s (.ok (holdLatch s c)) =
      endTurn ((holdLatch s c).setGroup gid { doneGroup c (s.group gid) with wrote := (s.group gid).wrote }) := by
    rw [settleGroup_ok, retire_eq (by simpa using hI.look)]
    simp only [show c.g s = s.group gid from rfl, skip_used, sleep_used, Bool.false_eq_true, if_false]
    rfl
  refine ⟨_, h.trans (congrArg _ ht), ?_, fun n => ?_, fun k hk => ?_, ?_⟩
  · rw [State.setGroup_shape]; rfl
  · rw [State.core_endTurn, State.setGroup_core, holdLatch_core]
  · rw [State.group_endTurn, State.group_setGroup_other _ _ hk, holdLatch_group]
  · simp [doneGroup, issuedAt, turnOver, Group.setSub, c]; rfl

/-- Every lane word of the shape of `laneBody` completes as `LaneWordIf` says. The value may use what settling keeps. -/
theorem laneWordIf {P : Group → Prop} {i : Instr} {f : Fields} {uses : List Use} {tag : Tag}
    {v : Group → Nat → W32 × BitVec 5} (w : Group → Group → Nat → W32 × BitVec 5)
    (hw : ∀ g h, g.Same h → ∀ l, w g h l = v h l)
    (h : ∀ s gid sub, Issuing s gid sub → P (s.group gid) → exec i s = .next (settleGroup (ctx i f s gid sub) false s
      (laneBody (ctx i f s gid sub) uses tag (w (s.group gid)) (holdLatch s (ctx i f s gid sub))))) :
    LaneWordIf P i f uses tag v := by
  intro s gid sub hI hP hR act
  set c := ctx i f s gid sub
  refine ⟨fun ha _ => ⟨_, h s gid sub hI hP, ?_⟩, fun s1 ha hs => ⟨_, h s gid sub hI hP, ?_⟩⟩
  · rw [laneBody_idle (c := c) (s := holdLatch s c) hR ha, settleGroup_ok]
    obtain ⟨h1, h2⟩ := retire_idle (c := c) hI.2
    exact ⟨h1, by rw [show gid = c.gid from rfl]; erw [h2]; exact ⟨rfl, rfl, rfl, rfl, rfl⟩⟩
  · have hv : ∀ l, w (s.group gid) (s1.group gid) l = v (s1.group gid) l := hw _ _ (readable_frame hs).2.2.2.2
    rw [laneBody_ok (c := c) (s := holdLatch s c) hR ha hs, settleGroup_ok]
    obtain ⟨h1, h2⟩ := retire_frame (c := c) (laneFlags act (laneSet (s1.group gid) act) fun l => (v (s1.group gid) l).2)
      (readable_frame hs) (same_writeLanes (s1.group gid) f.d ((laneSet (s1.group gid) act).map fun l => (l, (v (s1.group gid) l).1)) tag)
    simp only [show c.g s1 = s1.group gid from rfl, hv]
    refine ⟨lanesWritten_writeLanes _ _ _ _ _ _ ?_ ?_ ?_ ?_, h1⟩ <;> (erw [h2]; rfl)

/-- A lane word of that shape has no effect when no lane is active. -/
theorem idleByLane {i : Instr} {f : Fields} {uses : List Use} {tag : Tag} {w : Group → Group → Nat → W32 × BitVec 5}
    (h : ∀ s gid sub, Issuing s gid sub → exec i s = .next (settleGroup (ctx i f s gid sub) false s
      (laneBody (ctx i f s gid sub) uses tag (w (s.group gid)) (holdLatch s (ctx i f s gid sub))))) :
    IdleByLane i f fun g => RefsOk g uses [(f.d, 1)] := fun s gid sub hI hR ha =>
  does_nothing hI ((h s gid sub hI).trans (congrArg _ (congrArg _
    (laneBody_idle (c := ctx i f s gid sub) (s := holdLatch s (ctx i f s gid sub)) hR ha))))

theorem laneWord {i : Instr} {f : Fields} {uses : List Use} {tag : Tag} {v : Group → Nat → W32 × BitVec 5}
    (h : ∀ s gid sub, Issuing s gid sub → exec i s = .next (settleGroup (ctx i f s gid sub) false s
      (laneBody (ctx i f s gid sub) uses tag v (holdLatch s (ctx i f s gid sub))))) : LaneWord i f uses tag v :=
  laneWordIf (fun _ => v) (fun _ _ _ _ => rfl) fun s gid sub hI _ => h s gid sub hI

/-! ### Uniform words and beam words -/

/-- The end of a word that changed scalars and TSF. -/
theorem retire_scalar {c : Ctx} {s : State} {d : Opd} {x : W64} {fl : BitVec 5} :
    let t := retire c false (s.group c.gid) (((holdLatch s c).setGroup c.gid ((s.group c.gid).putS d x)).orTsf
      (s.group c.gid).ident.tid fl)
    ScalarFrame s t c.gid fl ∧ ScalarIssued (s.group c.gid) (t.group c.gid) d x c.sub (c.pc + BitVec.ofNat 64 c.len) := by
  intro t
  set g := s.group c.gid with hgd
  set u := ((holdLatch s c).setGroup c.gid (g.putS d x)).orTsf g.ident.tid fl with hu
  have hlook : Tbl.look u.groups c.gid = some { g.putS d x with wrote := [] } := by rw [hu]; simp
  have hw : (g.putS d x).wskipNow = g.wskipNow := by unfold Group.putS; split <;> rfl
  have hsl : (g.putS d x).sleep = g.sleep := by unfold Group.putS; split <;> rfl
  have ht : t = endTurn (u.setGroup c.gid (doneGroup c (g.putS d x))) := by
    show retire c false g u = _
    rw [retire_eq hlook]
    simp only [hw, hsl, skip_used, sleep_used, Bool.false_eq_true, if_false, doneGroup]
    rfl
  have hgrp : t.group c.gid = doneGroup c (g.putS d x) := by rw [ht]; simp; rfl
  have hput : g.putS d x = { g with s := (g.putS d x).s, sbusy := (g.putS d x).sbusy } := by
    unfold Group.putS; split <;> rfl
  refine ⟨⟨⟨?_, fun n => ?_⟩, fun k hk => ?_, fun k => ?_⟩, fun n hn => ?_, fun n hn => ?_, ?_⟩
  · have e := (winOnly_orTsf ((holdLatch s c).setGroup c.gid (g.putS d x)) g.ident.tid c.gid fl).1
    rw [← hu] at e
    rw [ht, State.setGroup_shape, e, State.setGroup_shape]
    rfl
  · rw [ht, State.core_endTurn, State.setGroup_core, hu, State.core_orTsf, State.setGroup_core, holdLatch_core]
  · rw [ht, State.group_endTurn, State.group_setGroup_other _ _ hk, hu, State.group_orTsf,
      State.group_setGroup_other _ _ hk, holdLatch_group]
  · rw [ht, State.endTurn_teams, State.setGroup_teams, hu, State.look_orTsf, State.setGroup_teams, holdLatch_teams]
  · rw [hgrp]; subst hn; exact Tbl.get_put_same ..
  · rw [hgrp]
    show Tbl.get 0 (g.putS d x).s n = _
    unfold Group.putS
    split
    · next m => exact Tbl.get_put_other _ _ _ (Ne.symm (hn m rfl))
    · rfl
  · rw [hgrp, doneGroup]; conv_lhs => rw [hput]
    rfl

theorem putS_zero (g : Group) (x : W64) : g.putS .zero x = g := rfl

theorem uniBody_on {c : Ctx} {fn : (Opd → W64) → W64 × BitVec 5} {s : State} (h : (c.g s).uniOn c.sub c.f = true)
    (hs : scalReady (c.g s) [c.f.a, c.f.b, c.f.c] = .ok ()) : uniBody c fn s =
      .ok ((s.setGroup c.gid ((c.g s).putS c.f.d (fn ((c.g s).srcU c.sub c.f)).1)).orTsf (c.g s).ident.tid
        (fn ((c.g s).srcU c.sub c.f)).2) := by
  unfold uniBody
  simp only [h, hs, Bool.not_true, Bool.false_eq_true, if_false, bind, Except.bind, pure, Except.pure]

theorem uniBody_off {c : Ctx} {fn : (Opd → W64) → W64 × BitVec 5} {s : State} (h : (c.g s).uniOn c.sub c.f = false) :
    uniBody c fn s = .ok s := by
  unfold uniBody
  simp only [h, Bool.not_false, if_true, pure, Except.pure]

/-- A uniform word of the shape of `uniBody` has no effect where its predicate does not hold. -/
theorem idleUnderUni {i : Instr} {f : Fields} {v : Group → Nat → (Opd → W64) → W64 × BitVec 5}
    (h : ∀ s gid sub, Issuing s gid sub → exec i s = .next (settleGroup (ctx i f s gid sub) false s
      (uniBody (ctx i f s gid sub) (v (s.group gid) sub) (holdLatch s (ctx i f s gid sub))))) :
    IdleUnderUni i f fun _ => True := fun s gid sub hI _ ha =>
  does_nothing hI ((h s gid sub hI).trans (congrArg _ (congrArg _
    (uniBody_off (c := ctx i f s gid sub) (s := holdLatch s (ctx i f s gid sub)) ha))))

/-- Every uniform word of the shape of `uniBody` completes as `UniWord` says. -/
theorem uniWord {i : Instr} {f : Fields} {v : Group → Nat → (Opd → W64) → W64 × BitVec 5}
    (h : ∀ s gid sub, Issuing s gid sub → exec i s = .next (settleGroup (ctx i f s gid sub) false s
      (uniBody (ctx i f s gid sub) (v (s.group gid) sub) (holdLatch s (ctx i f s gid sub))))) : UniWord i f [f.a, f.b, f.c] v := by
  intro s gid sub hI hs
  set c := ctx i f s gid sub
  refine ⟨fun ha => ⟨_, h s gid sub hI, ?_⟩, fun ha => ⟨_, h s gid sub hI, ?_⟩⟩
  · rw [uniBody_off (c := c) (s := holdLatch s c) ha, settleGroup_ok]
    obtain ⟨h1, h2⟩ := retire_idle (c := c) hI.2
    refine ⟨⟨h1.1, h1.2.1, h1.2.2.1⟩, ?_, ?_, ?_⟩
    · intro n hn; cases hn
    · intro n _; rw [show gid = c.gid from rfl]; erw [h2]; rfl
    · rw [show gid = c.gid from rfl]; erw [h2]; rfl
  · rw [uniBody_on (c := c) (s := holdLatch s c) ha (scalReady_ok hs), settleGroup_ok]
    exact retire_scalar (c := c)

theorem onlyRun_done {s : State} {q : Nat} (tid : Nat) (fl : BitVec 5) {u : State} {r' : Run}
    (hu : u = (s.setRun q r').orTsf tid fl) (n : Nat) :
    OnlyRun s (retireBeam q n false u) q { r' with pc := r'.pc + BitVec.ofNat 64 n } tid fl := by
  have hrun : (u.engine q).run = some r' := by rw [hu]; simp
  rw [retireBeam_eq hrun]
  simp only [Bool.false_eq_true, if_false]
  have e := State.orTsf_shape (s.setRun q r') tid fl
  rw [← hu] at e
  refine ⟨?_, ?_, fun k hk => ?_, fun k => ?_⟩
  · rw [e]; rfl
  · rw [State.engine_endTurn, State.engine_setRun_same, hu]; simp
  · rw [State.engine_endTurn, State.engine_setRun_other _ _ hk, hu, State.engine_orTsf, State.engine_setRun_other _ _ hk]
  · rw [State.endTurn_teams, State.setRun_teams, hu, State.look_orTsf]; rfl

/-- The same for a beam instruction that changed nothing. -/
theorem onlyRun_idle {s : State} {q : Nat} {r : Run} (h : (s.engine q).run = some r) (tid n : Nat) :
    OnlyRun s (retireBeam q n false s) q { r with pc := r.pc + BitVec.ofNat 64 n } tid 0 := by
  rw [retireBeam_eq h]
  simp only [Bool.false_eq_true, if_false]
  refine ⟨rfl, by rw [State.engine_endTurn, State.engine_setRun_same], fun k hk => ?_, fun k => ?_⟩
  · rw [State.engine_endTurn, State.engine_setRun_other _ _ hk]
  · rw [State.endTurn_teams, State.setRun_teams]
    split
    · cases Tbl.look s.teams k <;> simp
    · rfl

theorem beamBody_on {c : Ctx} {q : Nat} {r : Run} {fn : (Opd → W64) → W64 × BitVec 5} {s : State} (hu : c.f.uni = true)
    (hp : r.predOn c.f = true) : beamBody c q r fn s = .ok ((s.setRun q
      (match c.f.d with | .s n => r.setScal n.val (fn (r.srcU c.f)).1 | _ => r)).orTsf r.pass.tid (fn (r.srcU c.f)).2) := by
  unfold beamBody guardI
  simp only [hu, hp, Bool.not_true, Bool.false_eq_true, if_false, if_true, bind, Except.bind, pure, Except.pure] <;>
    cases c.f.d <;> rfl

theorem beamBody_off {c : Ctx} {q : Nat} {r : Run} {fn : (Opd → W64) → W64 × BitVec 5} {s : State} (hu : c.f.uni = true)
    (hp : r.predOn c.f = false) : beamBody c q r fn s = .ok s := by
  unfold beamBody guardI
  simp only [hu, hp, Bool.not_false, if_true, bind, Except.bind, pure, Except.pure]

theorem beamWord {i : Instr} {f : Fields} {v : Run → (Opd → W64) → W64 × BitVec 5} (hu : f.uni = true)
    (h : ∀ s q r, BeamIssuing s q r → exec i s = .next (settleBeam q f.len.bytes false s
      (beamBody ⟨i, f, r.pass.gid, 15, r.pc⟩ q r (v r) s))) : BeamWord i f v := by
  intro s q r hI pc
  refine ⟨fun hp => ⟨_, h s q r hI, ?_⟩, fun hp => ⟨_, h s q r hI, ?_⟩⟩
  · rw [beamBody_off hu hp, settleBeam_ok]
    exact onlyRun_idle hI.2 _ _
  · rw [beamBody_on hu hp, settleBeam_ok]
    have := onlyRun_done (s := s) (q := q) r.pass.tid (v r (r.srcU f)).2 rfl f.len.bytes
      (r' := match f.d with | .s n => r.setScal n.val (v r (r.srcU f)).1 | _ => r)
    have hpc : (match f.d with | .s n => r.setScal n.val (v r (r.srcU f)).1 | _ => r).pc = r.pc := by split <;> rfl
    rw [hpc] at this
    exact this

/-! ### Words that write a predicate -/

theorem mhas_or (a b : Mask) (l : Nat) : mhas (a ||| b) l = (mhas a l || mhas b l) := BitVec.getLsbD_or ..

theorem mhas_msingle (k l : Nat) : mhas (msingle k) l = (decide (k = l) && decide (l < 256)) := by
  simp only [mhas, msingle, BitVec.getLsbD_ofNat, Nat.testBit_two_pow]
  rw [Bool.and_comm]

theorem mhas_foldl (ls : List Nat) (m : Mask) (l : Nat) : mhas (ls.foldl (fun m l => m ||| msingle l) m) l =
    (mhas m l || (decide (l ∈ ls) && decide (l < 256))) := by
  induction ls generalizing m with
  | nil => simp
  | cons k ks ih =>
    rw [List.foldl_cons, ih, mhas_or, mhas_msingle]
    by_cases h : k = l
    · subst h; by_cases h2 : k < 256 <;> simp [h2]
    · have : ¬ l = k := fun e => h e.symm
      simp [h, this]

/-- A lane is in the mask of a list when the list has it. -/
theorem mhas_mof (ls : List Nat) (l : Nat) : mhas (mof ls) l = (decide (l ∈ ls) && decide (l < 256)) := by
  rw [mof, mhas_foldl]; simp [mhas]

theorem mem_mlanes (m : Mask) (l : Nat) : l ∈ mlanes m ↔ l < 256 ∧ mhas m l = true := by
  simp [mlanes, mhas]

/-- The turn's records and PC of a group whose meaning changed it to `g`. -/
theorem retire_group {c : Ctx} {s u : State} {g : Group} (hl : Tbl.look u.groups c.gid = some { g with wrote := [] })
    (hw : g.wskipNow = (s.group c.gid).wskipNow) (hsl : g.sleep = (s.group c.gid).sleep) :
    retire c false (s.group c.gid) u = endTurn (u.setGroup c.gid (doneGroup c g)) := by
  rw [retire_eq hl]
  simp only [hw, hsl, skip_used, sleep_used, Bool.false_eq_true, if_false, doneGroup]
  rfl

theorem group_done (c : Ctx) (u : State) (g : Group) : (endTurn (u.setGroup c.gid (doneGroup c g))).group c.gid = doneGroup c g := by
  simp; rfl

/-- A predicate written in the lanes of a list. -/
theorem predIssued_done (c : Ctx) (g : Group) (k : Nat) (ls : List Nat) (v : Nat → Bool) (m val : Mask)
    (hm : ∀ l < 256, mhas m l = decide (l ∈ ls)) (hv : ∀ l ∈ ls, l < 256 → mhas val l = v l) :
    PredIssued g (doneGroup c (g.setPred k m val)) k ls v c.sub (c.pc + BitVec.ofNat 64 c.len) := by
  refine ⟨fun hk l hl => ?_, fun j hj => ?_, ?_⟩
  · show mhas ((g.setPred k m val).pred k) l = _
    rw [Group.pred_setPred_same _ _ _ hk]
    have := hm l hl
    have hvl := fun h => hv l h hl
    simp only [mhas, BitVec.getLsbD_or, BitVec.getLsbD_and, BitVec.getLsbD_not] at this hvl ⊢
    by_cases h : l ∈ ls
    · rw [this, hvl h, if_pos h]; simp [h]
    · rw [this, if_neg h]; simp [h, hl]
  · show (g.setPred k m val).pred j = _
    by_cases h : j = k
    · rcases hj with hj | rfl
      · exact absurd h hj
      · rfl
    · exact Group.pred_setPred_other _ _ _ h
  · unfold Group.setPred; split <;> rfl

theorem setPred_same (g : Group) (k : Nat) (m val : Mask) : (g.setPred k m val).ident = g.ident ∧
    (g.setPred k m val).wskipNow = g.wskipNow ∧ (g.setPred k m val).sleep = g.sleep := by
  unfold Group.setPred; split <;> exact ⟨rfl, rfl, rfl⟩

theorem cmpLanes_ok {c : Ctx} {fn : Group → Nat → Bool × BitVec 5} {s s1 : State}
    (hr : RefsOk (c.g s) (usesABC c.f) []) (ha : (c.g s).activeReal c.sub c.f ≠ 0) (hs : ready c (usesABC c.f) s = .ok s1) :
    let act := (c.g s).activeReal c.sub c.f
    let ls := laneSet (c.g s1) act
    cmpLanes c fn s = .ok ((s1.setGroup c.gid ((c.g s1).setPred (c.f.d.code.toNat % 8) (mof ls)
      (mof (ls.filter fun l => (fn (c.g s1) l).1)))).orTsf (c.g s1).ident.tid (laneFlags act ls fun l => (fn (c.g s1) l).2)) := by
  intro act ls
  unfold cmpLanes
  dsimp only
  rw [checkRefs_ok hr]
  simp only [bind, Except.bind, ha, if_false, hs, pure, Except.pure]
  congr 2
  · simp [ls, act, List.filter_map, List.map_map, Function.comp_def]
  · simp [laneFlags, ls, act, List.filter_map, List.map_map, Function.comp_def]

/-- Every word of the shape of `cmpLanes` completes as `PredWord` says. -/
theorem predWord {i : Instr} {f : Fields} {v : Group → Nat → Bool × BitVec 5}
    (h : ∀ s gid sub, Issuing s gid sub → exec i s = .next (settleGroup (ctx i f s gid sub) false s
      (cmpLanes (ctx i f s gid sub) v (holdLatch s (ctx i f s gid sub))))) : PredWord i f (f.d.code.toNat % 8) v := by
  intro s gid sub s1 hI hR ha hs act ls
  set c := ctx i f s gid sub
  have hF := readable_frame hs
  set g := (s1.group gid).setPred (f.d.code.toNat % 8) (mof ls) (mof (ls.filter fun l => (v (s1.group gid) l).1)) with hg
  have hid : g.ident = (s1.group gid).ident := (setPred_same _ _ _ _).1
  have hw : g.wskipNow = (s.group gid).wskipNow := by rw [(setPred_same _ _ _ _).2.1, hF.2.2.2.2]
  set u := (s1.setGroup gid g).orTsf (s1.group gid).ident.tid (laneFlags act ls fun l => (v (s1.group gid) l).2) with hu
  have hl : Tbl.look u.groups gid = some { g with wrote := [] } := by rw [hu]; simp
  have hid' : (s1.group gid).ident = (s.group gid).ident := by rw [hF.2.2.2.2]
  have ht : settleGroup c false s (cmpLanes c v (holdLatch s c)) = endTurn (u.setGroup gid (doneGroup c g)) := by
    rw [cmpLanes_ok (c := c) (s := holdLatch s c) hR ha hs, settleGroup_ok]
    exact retire_group (c := c) (s := s) hl hw (by rw [(setPred_same _ _ _ _).2.2, hF.2.2.2.2])
  refine ⟨_, (h s gid sub hI).trans (congrArg _ ht), ⟨?_, fun n => ?_⟩, fun k hk => ?_, fun k => ?_, ?_⟩
  · have e := State.orTsf_shape (s1.setGroup gid g) (s1.group gid).ident.tid (laneFlags act ls fun l => (v (s1.group gid) l).2)
    rw [← hu] at e
    rw [State.setGroup_shape, e, State.setGroup_shape]
    rfl
  · rw [State.core_endTurn, State.setGroup_core, hu, State.core_orTsf, State.setGroup_core]
  · rw [State.group_endTurn, State.group_setGroup_other _ _ hk, hu, State.group_orTsf, State.group_setGroup_other _ _ hk]
  · rw [State.endTurn_teams, State.setGroup_teams, hu, State.look_orTsf, State.setGroup_teams, hid']
  · rw [show gid = c.gid from rfl, group_done]
    refine predIssued_done c (s1.group gid) _ ls _ _ _ (fun l hl => ?_) fun l hl hlt => ?_
    · rw [mhas_mof]; simp [hl]
    · rw [mhas_mof]; simp [hlt, hl, c]

theorem cmpUni_on {c : Ctx} {fn : (Opd → W64) → Bool × BitVec 5} {s : State} (h : (c.g s).uniOn c.sub c.f = true)
    (hs : scalReady (c.g s) [c.f.a, c.f.b] = .ok ()) : cmpUni c fn s =
      .ok ((s.setGroup c.gid ((c.g s).setPred (c.f.d.code.toNat % 8) ((c.g s).sub c.sub).mask
        (if (fn ((c.g s).srcU c.sub c.f)).1 then ((c.g s).sub c.sub).mask else 0))).orTsf (c.g s).ident.tid
          (fn ((c.g s).srcU c.sub c.f)).2) := by
  unfold cmpUni
  simp only [h, hs, Bool.not_true, Bool.false_eq_true, if_false, bind, Except.bind, pure, Except.pure]

theorem predUniWord {i : Instr} {f : Fields} {v : (Opd → W64) → Bool × BitVec 5}
    (h : ∀ s gid sub, Issuing s gid sub → exec i s = .next (settleGroup (ctx i f s gid sub) false s
      (cmpUni (ctx i f s gid sub) v (holdLatch s (ctx i f s gid sub))))) : PredUniWord i f (f.d.code.toNat % 8) v := by
  intro s gid sub hI ha hs r
  set c := ctx i f s gid sub
  set m := ((s.group gid).sub sub).mask
  set g := (s.group gid).setPred (f.d.code.toNat % 8) m (if r.1 then m else 0) with hg
  set u := ((holdLatch s c).setGroup gid g).orTsf (s.group gid).ident.tid r.2 with hu
  have hl : Tbl.look u.groups gid = some { g with wrote := [] } := by rw [hu]; simp
  have ht : settleGroup c false s (cmpUni c v (holdLatch s c)) = endTurn (u.setGroup gid (doneGroup c g)) := by
    rw [cmpUni_on (c := c) (s := holdLatch s c) ha (scalReady_ok hs), settleGroup_ok]
    exact retire_group (c := c) (s := s) hl (setPred_same _ _ _ _).2.1 (setPred_same _ _ _ _).2.2
  refine ⟨_, (h s gid sub hI).trans (congrArg _ ht), ⟨⟨?_, fun n => ?_⟩, fun k hk => ?_, fun k => ?_⟩, ?_⟩
  · have e := State.orTsf_shape ((holdLatch s c).setGroup gid g) (s.group gid).ident.tid r.2
    rw [← hu] at e
    rw [State.setGroup_shape, e, State.setGroup_shape]
    rfl
  · rw [State.core_endTurn, State.setGroup_core, hu, State.core_orTsf, State.setGroup_core, holdLatch_core]
  · rw [State.group_endTurn, State.group_setGroup_other _ _ hk, hu, State.group_orTsf, State.group_setGroup_other _ _ hk,
      holdLatch_group]
  · rw [State.endTurn_teams, State.setGroup_teams, hu, State.look_orTsf, State.setGroup_teams, holdLatch_teams]
  · show PredIssued _ ((endTurn (u.setGroup gid (doneGroup c g))).group gid) _ _ _ _ _
    rw [show gid = c.gid from rfl, group_done]
    refine predIssued_done c (s.group gid) _ _ _ _ _ (fun l hl => ?_) fun l hl hlt => ?_
    · show mhas m l = decide (l ∈ mlanes m)
      cases hm : mhas m l <;> simp [mem_mlanes, hl, hm]
    · have : mhas m l = true := ((mem_mlanes _ _).1 hl).2
      cases hr : r.1
      · simp [mhas]
      · simpa [hr] using this

/-! ### Class A words in their three forms -/

/-- A word of the shape of `alu` completes in lanes, under UNI and on a beam core. -/
theorem alu_words {i : Instr} {f : Fields} {lane : (Opd → W32) → W32 × BitVec 5} {uni : (Opd → W64) → W64 × BitVec 5}
    (h : ∀ s, exec i s = alu i f lane uni s) :
    (f.uni = false → LaneWord i f (usesABC f) f.fmt fun g l => lane fun o => g.src f o l)
    ∧ (f.uni = true → UniWord i f [f.a, f.b, f.c] (fun _ _ rd => uni rd) ∧ BeamWord i f fun _ rd => uni rd) := by
  refine ⟨fun hu => laneWord fun s gid sub hI => ?_, fun hu => ⟨uniWord fun s gid sub hI => ?_, beamWord hu fun s q r hI => ?_⟩⟩
  · rw [h, alu, issueBoth_group hI]; simp only [hu, Bool.false_eq_true, if_false]
  · rw [h, alu, issueBoth_group hI]; simp only [hu, if_true]
  · rw [h, alu, issueBoth_beam hI]

theorem aluInt_words {i : Instr} {f : Fields} {fn : Nat → Int → Int → Int → Int} (h : ∀ s, exec i s = aluInt i f fn s) :
    (f.uni = false → LaneWord i f (usesABC f) f.fmt fun g l => intLane f fn (g.src f f.a l) (g.src f f.b l) (g.src f f.c l))
    ∧ (f.uni = true → UniWord i f [f.a, f.b, f.c] (fun _ _ rd => intUni f fn (rd f.a) (rd f.b) (rd f.c))
        ∧ BeamWord i f fun _ rd => intUni f fn (rd f.a) (rd f.b) (rd f.c)) :=
  alu_words h

theorem aluBits_words {i : Instr} {f : Fields} {fn : (n : Nat) → BitVec n → BitVec n → BitVec n → BitVec n}
    (h : ∀ s, exec i s = aluBits i f fn s) :
    (f.uni = false → LaneWord i f (usesABC f) f.fmt fun g l => (fn 32 (g.src f f.a l) (g.src f f.b l) (g.src f f.c l), 0))
    ∧ (f.uni = true → UniWord i f [f.a, f.b, f.c] (fun _ _ rd => (fn 64 (rd f.a) (rd f.b) (rd f.c), 0))
        ∧ BeamWord i f fun _ rd => (fn 64 (rd f.a) (rd f.b) (rd f.c), 0)) :=
  alu_words h

end Sys2Proof.Machine
end

