-- ==== Sys2Proof/Laws/PerInstr.lean ====
section
/-!
SUPPORT. The encoding laws, one constructor at a time: the opcode map lists the OPC and FN of every instruction word, and
the decoder's table gives a well-formed word's constructor back.
-/

namespace Sys2Proof.Laws

/-- An instruction word has an OPC and FN of the opcode map (R316), from which the decoder's table gives it back when it
is well-formed; a whole-machine step has no word. -/
def Opcode.Statement (i : Instr) : Prop :=
  match i.word? with
  | some (opc, fn, f) => assigned opc fn = true ∧ (i.wf = true → Instr.ofWord opc fn f = some i)
  | none => encode i = []

namespace Opcode

theorem powerUp : Statement .powerUp := rfl
theorem moduleReset : Statement .moduleReset := rfl
theorem powerLoss : Statement .powerLoss := rfl
theorem loadfw : Statement .loadfw := rfl
theorem laurelSelfTestDone (die : Nat) (ok : Bool) : Statement (.laurelSelfTestDone die ok) := rfl
theorem warmCalibration (modno : Nat) : Statement (.warmCalibration modno) := rfl
theorem attest : Statement .attest := rfl
theorem governorEstimate (exceeds : Bool) : Statement (.governorEstimate exceeds) := rfl
theorem bndWrite (core : Nat) (b0 b1 b2 : BitVec 8) : Statement (.bndWrite core b0 b1 b2) := rfl
theorem topiarySettingWrite (n : Nat) (v : BitVec 32) : Statement (.topiarySettingWrite n v) := rfl
theorem linkSlotTableWrite (port : Nat) (response : Bool) (slot : Nat) (owner : BitVec 8) : Statement (.linkSlotTableWrite port response slot owner) := rfl
theorem registerWrite (r : RegWrite) : Statement (.registerWrite r) := rfl
theorem partitionWrite (p : Nat) (e : PartEntry) : Statement (.partitionWrite p e) := rfl
theorem pageRetirement (p : Nat) (leaf oldPage newPage : Nat) : Statement (.pageRetirement p leaf oldPage newPage) := rfl
theorem stage2FaultService (core rec : Nat) (leaf : Option (Nat × BitVec 64)) : Statement (.stage2FaultService core rec leaf) := rfl
theorem groupTurn (core rod : Nat) : Statement (.groupTurn core rod) := rfl
theorem preemptDelivery (gid : Nat) : Statement (.preemptDelivery gid) := rfl
theorem preemptGraceExpiry (gid : Nat) : Statement (.preemptGraceExpiry gid) := rfl
theorem forcedSave (gid : Nat) : Statement (.forcedSave gid) := rfl
theorem contextSaveComplete (gid : Nat) : Statement (.contextSaveComplete gid) := rfl
theorem spatialPreemption (p launch : Nat) (cores : List Nat) : Statement (.spatialPreemption p launch cores) := rfl
theorem loadDelivery (id elem : Nat) (evicted : Bool) : Statement (.loadDelivery id elem evicted) := rfl
theorem atomReturnDelivery (id elem : Nat) : Statement (.atomReturnDelivery id elem) := rfl
theorem storePerformed (id elem : Nat) : Statement (.storePerformed id elem) := rfl
theorem leaseExpiry (line : Nat) : Statement (.leaseExpiry line) := rfl
theorem uncorrectableRead (r : ReadRef) : Statement (.uncorrectableRead r) := rfl
theorem hostMemAccess (write : Bool) (pa : Nat) (bytes : List (BitVec 8)) : Statement (.hostMemAccess write pa bytes) := rfl
theorem domainAccessRemote (who : Nat × Nat) (pa va : Nat) (bytes : List (BitVec 8)) :
    Statement (.domainAccessRemote who pa va bytes) := rfl
theorem scaleupCrcFailure (r : ReadRef) (denied second : Bool) : Statement (.scaleupCrcFailure r denied second) := rfl
theorem moduleLeavesDomain (modno : Nat) : Statement (.moduleLeavesDomain modno) := rfl
theorem arrival (id : Nat) : Statement (.arrival id) := rfl
theorem directModeDelivery (id : Nat) : Statement (.directModeDelivery id) := rfl
theorem linkSlotStart (port : Nat) (slot : Nat) : Statement (.linkSlotStart port slot) := rfl
theorem plotTileProduct (id tile : Nat) : Statement (.plotTileProduct id tile) := rfl
theorem layrDeadlineExpiry (id : Nat) : Statement (.layrDeadlineExpiry id) := rfl
theorem arrayCrcFailure (id : Nat) : Statement (.arrayCrcFailure id) := rfl
theorem plotFault (id : Nat) : Statement (.plotFault id) := rfl
theorem shadowCompute (id : Nat) : Statement (.shadowCompute id) := rfl
theorem epochDue (n : Nat) : Statement (.epochDue n) := rfl
theorem probeMeasurement (n k : Nat) (ended : Bool) : Statement (.probeMeasurement n k ended) := rfl
theorem topiarySwap (n : Nat) : Statement (.topiarySwap n) := rfl
theorem rowProgramStart (id : Nat) : Statement (.rowProgramStart id) := rfl
theorem programVerify (id : Nat) (ok : Bool) : Statement (.programVerify id ok) := rfl
theorem relaxationDwellEnd (id : Nat) (ok : Bool) : Statement (.relaxationDwellEnd id ok) := rfl
theorem shardDelivery (p : Option Nat) (slot : Nat) : Statement (.shardDelivery p slot) := rfl
theorem shardTimeout (name : Nat) : Statement (.shardTimeout name) := rfl
theorem pruning : Statement .pruning := rfl
theorem thicketItem (id : Nat) : Statement (.thicketItem id) := rfl
theorem thicketOpRetire (id : Nat) : Statement (.thicketOpRetire id) := rfl
theorem copyChunk (id : Nat) : Statement (.copyChunk id) := rfl
theorem redStripe (id stripe : Nat) : Statement (.redStripe id stripe) := rfl
theorem redFlagStore (id : Nat) : Statement (.redFlagStore id) := rfl
theorem redCompletion (id : Nat) : Statement (.redCompletion id) := rfl
theorem atomAtReducer (id elem : Nat) : Statement (.atomAtReducer id elem) := rfl
theorem passGrant (q : Nat) : Statement (.passGrant q) := rfl
theorem passCompletion (q : Nat) : Statement (.passCompletion q) := rfl
theorem drainLanding (q id : Nat) : Statement (.drainLanding q id) := rfl
theorem engineHang (q : Nat) : Statement (.engineHang q) := rfl
theorem launchConsume (p q : Nat) : Statement (.launchConsume p q) := rfl
theorem teamBind (lid first : Nat) (places : List TeamPlace) : Statement (.teamBind lid first places) := rfl
theorem launchCompletion (lid : Nat) : Statement (.launchCompletion lid) := rfl
theorem trellisTimeRow (core : Nat) : Statement (.trellisTimeRow core) := rfl
theorem kill (p : Nat) : Statement (.kill p) := rfl
theorem servicePreempt (p : Nat) (cores : List Nat) : Statement (.servicePreempt p cores) := rfl
theorem qreset (p : Nat) : Statement (.qreset p) := rfl
theorem serviceWatch (p : Nat) : Statement (.serviceWatch p) := rfl
theorem flr (p : Nat) : Statement (.flr p) := rfl
theorem exportPart (p : Nat) : Statement (.exportPart p) := rfl
theorem round (p : Nat) : Statement (.round p) := rfl
theorem stop (p : Nat) : Statement (.stop p) := rfl
theorem resume (p : Nat) : Statement (.resume p) := rfl
theorem restore (p : Nat) (place : RestorePlace) : Statement (.restore p place) := rfl
theorem nop (f : Fields) : Statement (.nop f) := ⟨rfl, fun _ => rfl⟩
theorem nopSkip (f : Fields) : Statement (.nopSkip f) := ⟨rfl, fun _ => rfl⟩
theorem mov (f : Fields) : Statement (.mov f) := ⟨rfl, fun _ => rfl⟩
theorem movi (f : Fields) : Statement (.movi f) := ⟨rfl, fun _ => rfl⟩
theorem sel (f : Fields) : Statement (.sel f) := ⟨rfl, fun _ => rfl⟩
theorem iadd (f : Fields) : Statement (.iadd f) := ⟨rfl, fun _ => rfl⟩
theorem isub (f : Fields) : Statement (.isub f) := ⟨rfl, fun _ => rfl⟩
theorem imul (f : Fields) : Statement (.imul f) := ⟨rfl, fun _ => rfl⟩
theorem imulh (f : Fields) : Statement (.imulh f) := ⟨rfl, fun _ => rfl⟩
theorem imad (f : Fields) : Statement (.imad f) := ⟨rfl, fun _ => rfl⟩
theorem imin (f : Fields) : Statement (.imin f) := ⟨rfl, fun _ => rfl⟩
theorem imax (f : Fields) : Statement (.imax f) := ⟨rfl, fun _ => rfl⟩
theorem iabs (f : Fields) : Statement (.iabs f) := ⟨rfl, fun _ => rfl⟩
theorem ineg (f : Fields) : Statement (.ineg f) := ⟨rfl, fun _ => rfl⟩
theorem icmpEq (f : Fields) : Statement (.icmpEq f) := ⟨rfl, fun _ => rfl⟩
theorem icmpNe (f : Fields) : Statement (.icmpNe f) := ⟨rfl, fun _ => rfl⟩
theorem icmpLt (f : Fields) : Statement (.icmpLt f) := ⟨rfl, fun _ => rfl⟩
theorem icmpLe (f : Fields) : Statement (.icmpLe f) := ⟨rfl, fun _ => rfl⟩
theorem icmpGt (f : Fields) : Statement (.icmpGt f) := ⟨rfl, fun _ => rfl⟩
theorem icmpGe (f : Fields) : Statement (.icmpGe f) := ⟨rfl, fun _ => rfl⟩
theorem and (f : Fields) : Statement (.and f) := ⟨rfl, fun _ => rfl⟩
theorem andn (f : Fields) : Statement (.andn f) := ⟨rfl, fun _ => rfl⟩
theorem or (f : Fields) : Statement (.or f) := ⟨rfl, fun _ => rfl⟩
theorem xor (f : Fields) : Statement (.xor f) := ⟨rfl, fun _ => rfl⟩
theorem not (f : Fields) : Statement (.not f) := ⟨rfl, fun _ => rfl⟩
theorem shl (f : Fields) : Statement (.shl f) := ⟨rfl, fun _ => rfl⟩
theorem shr (f : Fields) : Statement (.shr f) := ⟨rfl, fun _ => rfl⟩
theorem sar (f : Fields) : Statement (.sar f) := ⟨rfl, fun _ => rfl⟩
theorem clz (f : Fields) : Statement (.clz f) := ⟨rfl, fun _ => rfl⟩
theorem popc (f : Fields) : Statement (.popc f) := ⟨rfl, fun _ => rfl⟩
theorem bfx (f : Fields) : Statement (.bfx f) := ⟨rfl, fun _ => rfl⟩
theorem bfi (f : Fields) : Statement (.bfi f) := ⟨rfl, fun _ => rfl⟩
theorem fadd (f : Fields) : Statement (.fadd f) := ⟨rfl, fun _ => rfl⟩
theorem fsub (f : Fields) : Statement (.fsub f) := ⟨rfl, fun _ => rfl⟩
theorem fmul (f : Fields) : Statement (.fmul f) := ⟨rfl, fun _ => rfl⟩
theorem ffma (f : Fields) : Statement (.ffma f) := ⟨rfl, fun _ => rfl⟩
theorem ffms (f : Fields) : Statement (.ffms f) := ⟨rfl, fun _ => rfl⟩
theorem fnma (f : Fields) : Statement (.fnma f) := ⟨rfl, fun _ => rfl⟩
theorem fnms (f : Fields) : Statement (.fnms f) := ⟨rfl, fun _ => rfl⟩
theorem fmin (f : Fields) : Statement (.fmin f) := ⟨rfl, fun _ => rfl⟩
theorem fmax (f : Fields) : Statement (.fmax f) := ⟨rfl, fun _ => rfl⟩
theorem fcmpEq (f : Fields) : Statement (.fcmpEq f) := ⟨rfl, fun _ => rfl⟩
theorem fcmpNe (f : Fields) : Statement (.fcmpNe f) := ⟨rfl, fun _ => rfl⟩
theorem fcmpLt (f : Fields) : Statement (.fcmpLt f) := ⟨rfl, fun _ => rfl⟩
theorem fcmpLe (f : Fields) : Statement (.fcmpLe f) := ⟨rfl, fun _ => rfl⟩
theorem fcmpGt (f : Fields) : Statement (.fcmpGt f) := ⟨rfl, fun _ => rfl⟩
theorem fcmpGe (f : Fields) : Statement (.fcmpGe f) := ⟨rfl, fun _ => rfl⟩
theorem fcmpUn (f : Fields) : Statement (.fcmpUn f) := ⟨rfl, fun _ => rfl⟩
theorem frcp (f : Fields) : Statement (.frcp f) := ⟨rfl, fun _ => rfl⟩
theorem frsq (f : Fields) : Statement (.frsq f) := ⟨rfl, fun _ => rfl⟩
theorem fsqrt (f : Fields) : Statement (.fsqrt f) := ⟨rfl, fun _ => rfl⟩
theorem fexp2 (f : Fields) : Statement (.fexp2 f) := ⟨rfl, fun _ => rfl⟩
theorem flog2 (f : Fields) : Statement (.flog2 f) := ⟨rfl, fun _ => rfl⟩
theorem fcls (f : Fields) : Statement (.fcls f) := ⟨rfl, fun _ => rfl⟩
theorem cvt (f : Fields) : Statement (.cvt f) := ⟨rfl, fun _ => rfl⟩
theorem pack (f : Fields) : Statement (.pack f) := ⟨rfl, fun _ => rfl⟩
theorem unpk (f : Fields) : Statement (.unpk f) := ⟨rfl, fun _ => rfl⟩
theorem bpq (f : Fields) : Statement (.bpq f) := ⟨rfl, fun _ => rfl⟩
theorem bpx (f : Fields) : Statement (.bpx f) := ⟨rfl, fun _ => rfl⟩
theorem qxch (f : Fields) : Statement (.qxch f) := ⟨rfl, fun _ => rfl⟩
theorem qbcst (f : Fields) : Statement (.qbcst f) := ⟨rfl, fun _ => rfl⟩
theorem lshf (f : Fields) : Statement (.lshf f) := ⟨rfl, fun _ => rfl⟩
theorem voteAll (f : Fields) : Statement (.voteAll f) := ⟨rfl, fun _ => rfl⟩
theorem voteAny (f : Fields) : Statement (.voteAny f) := ⟨rfl, fun _ => rfl⟩
theorem voteBallot (f : Fields) : Statement (.voteBallot f) := ⟨rfl, fun _ => rfl⟩
theorem gredAdd (f : Fields) : Statement (.gredAdd f) := ⟨rfl, fun _ => rfl⟩
theorem gredMin (f : Fields) : Statement (.gredMin f) := ⟨rfl, fun _ => rfl⟩
theorem gredMax (f : Fields) : Statement (.gredMax f) := ⟨rfl, fun _ => rfl⟩
theorem gscanAdd (f : Fields) : Statement (.gscanAdd f) := ⟨rfl, fun _ => rfl⟩
theorem gscanMin (f : Fields) : Statement (.gscanMin f) := ⟨rfl, fun _ => rfl⟩
theorem gscanMax (f : Fields) : Statement (.gscanMax f) := ⟨rfl, fun _ => rfl⟩
theorem bra (f : Fields) : Statement (.bra f) := ⟨rfl, fun _ => rfl⟩
theorem brx (f : Fields) : Statement (.brx f) := ⟨rfl, fun _ => rfl⟩
theorem call (f : Fields) : Statement (.call f) := ⟨rfl, fun _ => rfl⟩
theorem ret (f : Fields) : Statement (.ret f) := ⟨rfl, fun _ => rfl⟩
theorem exit (f : Fields) : Statement (.exit f) := ⟨rfl, fun _ => rfl⟩
theorem trap (f : Fields) : Statement (.trap f) := ⟨rfl, fun _ => rfl⟩
theorem sysc (f : Fields) : Statement (.sysc f) := ⟨rfl, fun _ => rfl⟩
theorem eret (f : Fields) : Statement (.eret f) := ⟨rfl, fun _ => rfl⟩
theorem csrr (f : Fields) : Statement (.csrr f) := ⟨rfl, fun _ => rfl⟩
theorem csrw (f : Fields) : Statement (.csrw f) := ⟨rfl, fun _ => rfl⟩
theorem tick (f : Fields) : Statement (.tick f) := ⟨rfl, fun _ => rfl⟩
theorem sleep (f : Fields) : Statement (.sleep f) := ⟨rfl, fun _ => rfl⟩
theorem vdhop (f : Fields) : Statement (.vdhop f) := ⟨rfl, fun _ => rfl⟩
theorem tlbiVa (f : Fields) : Statement (.tlbiVa f) := ⟨rfl, fun h => by
  show (if f.ext = 0 then some (Instr.tlbiVa f) else if f.ext = 1 then some (.tlbiIa f) else if f.ext = 2 then some (.tlbiAll f) else none) = some (.tlbiVa f)
  simp only [Instr.wf, Bool.and_eq_true, beq_iff_eq] at h
  simp [h]⟩
theorem tlbiIa (f : Fields) : Statement (.tlbiIa f) := ⟨rfl, fun h => by
  show (if f.ext = 0 then some (Instr.tlbiVa f) else if f.ext = 1 then some (.tlbiIa f) else if f.ext = 2 then some (.tlbiAll f) else none) = some (.tlbiIa f)
  simp only [Instr.wf, Bool.and_eq_true, beq_iff_eq] at h
  simp [h]⟩
theorem tlbiAll (f : Fields) : Statement (.tlbiAll f) := ⟨rfl, fun h => by
  show (if f.ext = 0 then some (Instr.tlbiVa f) else if f.ext = 1 then some (.tlbiIa f) else if f.ext = 2 then some (.tlbiAll f) else none) = some (.tlbiAll f)
  simp only [Instr.wf, Bool.and_eq_true, beq_iff_eq] at h
  simp [h]⟩
theorem ctxs (f : Fields) : Statement (.ctxs f) := ⟨rfl, fun _ => rfl⟩
theorem ctxr (f : Fields) : Statement (.ctxr f) := ⟨rfl, fun _ => rfl⟩
theorem ldv (f : Fields) : Statement (.ldv f) := ⟨rfl, fun h => by
  show (if f.fmt = .f32 && f.rk then some (Instr.ldvLate f) else some (.ldv f)) = some (.ldv f)
  simp only [Instr.wf, Bool.and_eq_true, beq_iff_eq] at h
  exact if_neg (by have := h.2; simp_all [imp_iff_not_or])⟩
theorem ldvLate (f : Fields) : Statement (.ldvLate f) := ⟨rfl, fun h => by
  show (if f.fmt = .f32 && f.rk then some (Instr.ldvLate f) else some (.ldv f)) = some (.ldvLate f)
  simp only [Instr.wf, Bool.and_eq_true, beq_iff_eq] at h
  exact if_pos (by simp [h])⟩
theorem stv (f : Fields) : Statement (.stv f) := ⟨rfl, fun _ => rfl⟩
theorem lds (f : Fields) : Statement (.lds f) := ⟨rfl, fun _ => rfl⟩
theorem sts (f : Fields) : Statement (.sts f) := ⟨rfl, fun _ => rfl⟩
theorem ldp (f : Fields) : Statement (.ldp f) := ⟨rfl, fun _ => rfl⟩
theorem stp (f : Fields) : Statement (.stp f) := ⟨rfl, fun _ => rfl⟩
theorem ldt (f : Fields) : Statement (.ldt f) := ⟨rfl, fun _ => rfl⟩
theorem stt (f : Fields) : Statement (.stt f) := ⟨rfl, fun _ => rfl⟩
theorem pref (f : Fields) : Statement (.pref f) := ⟨rfl, fun _ => rfl⟩
theorem atomAdd (f : Fields) : Statement (.atomAdd f) := ⟨rfl, fun _ => rfl⟩
theorem atomFadd (f : Fields) : Statement (.atomFadd f) := ⟨rfl, fun _ => rfl⟩
theorem atomSmax (f : Fields) : Statement (.atomSmax f) := ⟨rfl, fun _ => rfl⟩
theorem atomSmin (f : Fields) : Statement (.atomSmin f) := ⟨rfl, fun _ => rfl⟩
theorem atomNmax (f : Fields) : Statement (.atomNmax f) := ⟨rfl, fun _ => rfl⟩
theorem atomNmin (f : Fields) : Statement (.atomNmin f) := ⟨rfl, fun _ => rfl⟩
theorem atomFmax (f : Fields) : Statement (.atomFmax f) := ⟨rfl, fun _ => rfl⟩
theorem atomFmin (f : Fields) : Statement (.atomFmin f) := ⟨rfl, fun _ => rfl⟩
theorem atomAnd (f : Fields) : Statement (.atomAnd f) := ⟨rfl, fun _ => rfl⟩
theorem atomOr (f : Fields) : Statement (.atomOr f) := ⟨rfl, fun _ => rfl⟩
theorem atomXor (f : Fields) : Statement (.atomXor f) := ⟨rfl, fun _ => rfl⟩
theorem atomXchg (f : Fields) : Statement (.atomXchg f) := ⟨rfl, fun _ => rfl⟩
theorem atomCas (f : Fields) : Statement (.atomCas f) := ⟨rfl, fun _ => rfl⟩
theorem cpy (f : Fields) : Statement (.cpy f) := ⟨rfl, fun _ => rfl⟩
theorem red (f : Fields) : Statement (.red f) := ⟨rfl, fun _ => rfl⟩
theorem fence (f : Fields) : Statement (.fence f) := ⟨rfl, fun _ => rfl⟩
theorem fwait (f : Fields) : Statement (.fwait f) := ⟨rfl, fun _ => rfl⟩
theorem ifence (f : Fields) : Statement (.ifence f) := ⟨rfl, fun _ => rfl⟩
theorem waitcCp (f : Fields) : Statement (.waitcCp f) := ⟨rfl, fun _ => rfl⟩
theorem waitcRd (f : Fields) : Statement (.waitcRd f) := ⟨rfl, fun _ => rfl⟩
theorem waitcMp (f : Fields) : Statement (.waitcMp f) := ⟨rfl, fun _ => rfl⟩
theorem waitcAr (f : Fields) : Statement (.waitcAr f) := ⟨rfl, fun _ => rfl⟩
theorem waitcTh (f : Fields) : Statement (.waitcTh f) := ⟨rfl, fun _ => rfl⟩
theorem bara (f : Fields) : Statement (.bara f) := ⟨rfl, fun _ => rfl⟩
theorem barw (f : Fields) : Statement (.barw f) := ⟨rfl, fun _ => rfl⟩
theorem bart (f : Fields) : Statement (.bart f) := ⟨rfl, fun _ => rfl⟩
theorem qpush (f : Fields) : Statement (.qpush f) := ⟨rfl, fun _ => rfl⟩
theorem qpop (f : Fields) : Statement (.qpop f) := ⟨rfl, fun _ => rfl⟩
theorem qtry (f : Fields) : Statement (.qtry f) := ⟨rfl, fun _ => rfl⟩
theorem evrtRoute (f : Fields) : Statement (.evrtRoute f) := ⟨rfl, fun _ => rfl⟩
theorem evrtWake (f : Fields) : Statement (.evrtWake f) := ⟨rfl, fun _ => rfl⟩
theorem evrtSig (f : Fields) : Statement (.evrtSig f) := ⟨rfl, fun _ => rfl⟩
theorem evrtRd (f : Fields) : Statement (.evrtRd f) := ⟨rfl, fun _ => rfl⟩
theorem mrsv (f : Fields) : Statement (.mrsv f) := ⟨rfl, fun _ => rfl⟩
theorem mrel (f : Fields) : Statement (.mrel f) := ⟨rfl, fun _ => rfl⟩
theorem mpass (f : Fields) : Statement (.mpass f) := ⟨rfl, fun _ => rfl⟩
theorem mma (f : Fields) : Statement (.mma f) := ⟨rfl, fun _ => rfl⟩
theorem mmab (f : Fields) : Statement (.mmab f) := ⟨rfl, fun _ => rfl⟩
theorem mzro (f : Fields) : Statement (.mzro f) := ⟨rfl, fun _ => rfl⟩
theorem mldb (f : Fields) : Statement (.mldb f) := ⟨rfl, fun _ => rfl⟩
theorem mdrn (f : Fields) : Statement (.mdrn f) := ⟨rfl, fun _ => rfl⟩
theorem mdrnSp (f : Fields) : Statement (.mdrnSp f) := ⟨rfl, fun _ => rfl⟩
theorem mdrnMem (f : Fields) : Statement (.mdrnMem f) := ⟨rfl, fun _ => rfl⟩
theorem mstat (f : Fields) : Statement (.mstat f) := ⟨rfl, fun _ => rfl⟩
theorem layr (f : Fields) : Statement (.layr f) := ⟨rfl, fun _ => rfl⟩
theorem layrt (f : Fields) : Statement (.layrt f) := ⟨rfl, fun _ => rfl⟩
theorem lcapOff (f : Fields) : Statement (.lcapOff f) := ⟨rfl, fun _ => rfl⟩
theorem lcapCap (f : Fields) : Statement (.lcapCap f) := ⟨rfl, fun _ => rfl⟩
theorem lcapRep (f : Fields) : Statement (.lcapRep f) := ⟨rfl, fun _ => rfl⟩
theorem lcapStat (f : Fields) : Statement (.lcapStat f) := ⟨rfl, fun _ => rfl⟩
theorem lprb (f : Fields) : Statement (.lprb f) := ⟨rfl, fun _ => rfl⟩
theorem lprbt (f : Fields) : Statement (.lprbt f) := ⟨rfl, fun _ => rfl⟩
theorem abndLoad (f : Fields) : Statement (.abndLoad f) := ⟨rfl, fun h => by
  show (if f.x = 0 then some (Instr.abndLoad f) else if f.x = 1 then some (.abndPub f) else if f.x = 2 then some (.abndRet f) else none) = some (.abndLoad f)
  simp only [Instr.wf, Bool.and_eq_true, beq_iff_eq] at h
  simp [h]⟩
theorem abndPub (f : Fields) : Statement (.abndPub f) := ⟨rfl, fun h => by
  show (if f.x = 0 then some (Instr.abndLoad f) else if f.x = 1 then some (.abndPub f) else if f.x = 2 then some (.abndRet f) else none) = some (.abndPub f)
  simp only [Instr.wf, Bool.and_eq_true, beq_iff_eq] at h
  simp [h]⟩
theorem abndRet (f : Fields) : Statement (.abndRet f) := ⟨rfl, fun h => by
  show (if f.x = 0 then some (Instr.abndLoad f) else if f.x = 1 then some (.abndPub f) else if f.x = 2 then some (.abndRet f) else none) = some (.abndRet f)
  simp only [Instr.wf, Bool.and_eq_true, beq_iff_eq] at h
  simp [h]⟩
theorem espl (f : Fields) : Statement (.espl f) := ⟨rfl, fun _ => rfl⟩
theorem astat (f : Fields) : Statement (.astat f) := ⟨rfl, fun _ => rfl⟩
theorem cnam (f : Fields) : Statement (.cnam f) := ⟨rfl, fun _ => rfl⟩
theorem cloa (f : Fields) : Statement (.cloa f) := ⟨rfl, fun _ => rfl⟩
theorem ctwg (f : Fields) : Statement (.ctwg f) := ⟨rfl, fun _ => rfl⟩
theorem cget (f : Fields) : Statement (.cget f) := ⟨rfl, fun _ => rfl⟩
theorem cout (f : Fields) : Statement (.cout f) := ⟨rfl, fun _ => rfl⟩
theorem cref (f : Fields) : Statement (.cref f) := ⟨rfl, fun _ => rfl⟩
theorem rpin (f : Fields) : Statement (.rpin f) := ⟨rfl, fun _ => rfl⟩
theorem runp (f : Fields) : Statement (.runp f) := ⟨rfl, fun _ => rfl⟩
theorem rswp (f : Fields) : Statement (.rswp f) := ⟨rfl, fun _ => rfl⟩
theorem rkst (f : Fields) : Statement (.rkst f) := ⟨rfl, fun _ => rfl⟩
theorem rkstAll (f : Fields) : Statement (.rkstAll f) := ⟨rfl, fun _ => rfl⟩
theorem rkq (f : Fields) : Statement (.rkq f) := ⟨rfl, fun _ => rfl⟩
theorem lprbResultLanding (id : Nat) : Statement (.lprbResultLanding id) := rfl
theorem hcmdUnknownCode (code : BitVec 32) : Statement (.hcmdUnknownCode code) := rfl
theorem serviceUnknownOpcode (p : Nat) : Statement (.serviceUnknownOpcode p) := rfl

end Opcode

end Sys2Proof.Laws
end

