-- ==== Sys2Proof/Laws/Words.lean ====
section
/-!
SUPPORT. What the shared operations of the arithmetic words compute: bits, counts, integers of an element, and the choice
between a reckoning and an ordinary operation.
-/

namespace Sys2Proof.Laws

open Machine Claim

/-! ### Bits and counts -/

theorem getLsbD_bitsOf {n : Nat} (p : Nat → Bool) {i : Nat} (h : i < n) : (bitsOf n p).getLsbD i = p i := by
  simp [bitsOf, h]

theorem bitsOf_eq {n : Nat} {p : Nat → Bool} {x : BitVec n} (h : ∀ i < n, p i = x.getLsbD i) : bitsOf n p = x := by
  apply BitVec.eq_of_getLsbD_eq
  intro i hi
  rw [getLsbD_bitsOf _ hi, h i hi]

theorem pop_eq (n : Nat) (x : Nat) : popOf n x = ((List.range n).filter x.testBit).length := by
  induction n generalizing x with
  | zero => rfl
  | succ n ih =>
    rw [popOf, ih, List.range_succ_eq_map, List.filter_cons, List.filter_map]
    have : (x.testBit ∘ Nat.succ) = (x / 2).testBit := by
      funext i; simp [Nat.testBit_succ]
    rw [this, Nat.testBit_zero]
    rcases Nat.mod_two_eq_zero_or_one x with h | h <;> simp [h] <;> omega

theorem clz_eq (n x : Nat) : clzOf n x = n - x.size := by
  unfold clzOf
  split
  · next h => subst h; simp
  · next h =>
    rw [Nat.sub_sub, Nat.add_comm]
    congr 1
    apply le_antisymm
    · rw [Nat.add_one_le_iff, Nat.lt_size]; exact Nat.log2_self_le h
    · rw [Nat.size_le]; exact Nat.lt_log2_self

/-! ### Integers of an element (R81, R386) -/

theorem toSigned64 (x : W64) : toSigned 64 x.toNat = x.toInt := by
  unfold toSigned
  rw [BitVec.toInt_eq_toNat_cond]
  have := x.isLt
  simp only [Nat.mod_eq_of_lt this]

theorem intOf64 (t : Tag) (x : W64) : intOf t.signed 64 x.toNat = if t.signed then x.toInt else (x.toNat : Int) := by
  unfold intOf
  split
  · exact toSigned64 x
  · rw [Nat.mod_eq_of_lt x.isLt]

theorem split_get (t : Tag) (x : W32) {e : Nat} (h : e < t.elems) :
    intOf t.signed t.width (((splitElems t x.toNat)[e]?).getD 0) = elemInt t x e := by
  simp [splitElems, elemInt, h]

/-! ### Reckonings (R65 to R68) -/

/-- Without RK, or with no plan, the ordinary operation runs. -/
theorem reckoned_ordinary {c : Ctx} {rk : Bool} {plan : Group → Option AffPlan} {o : State → Except Stop State} {s : State}
    (h : rk = false ∨ plan (c.g s) = none) : reckoned c rk plan o s = o s := by
  unfold reckoned
  dsimp only
  rcases h with rfl | h
  · simp only [Bool.false_and, Bool.false_eq_true, if_false]
  · simp only [h, ite_self]

theorem same_writePair (g : Group) (d k : Nat) (o : Bool) (rs : Nat → Nat × Nat × BitVec 5) : g.Same (g.writePair d k o rs) := by
  unfold Group.writePair
  cases o
  · exact (Group.same_noteWrite _ _ _ _).trans ((Group.same_win _ _).trans ((Group.same_setTags _ _ _ _).trans
      ((Group.same_setSt _ _ _).trans (Group.same_setSt _ _ _))))
  · exact (Group.same_discard _ _ _).trans ((Group.same_noteWrite _ _ _ _).trans ((Group.same_win _ _).trans
      ((Group.same_setTags _ _ _ _).trans ((Group.same_setSt _ _ _).trans ((Group.same_setSt _ _ _).trans
        (Group.same_addHolder _ _))))))

theorem writePair_win (g : Group) (d k : Nat) (o : Bool) (rs : Nat → Nat × Nat × BitVec 5) : (g.writePair d k o rs).win =
   (g.win.putLanes (1024 * (d + 1)) (List.range 256) fun l => (rs l).1).putLanes (1024 * d) (List.range 256) fun l => (rs l).2.1 := by
  unfold Group.writePair
  cases o
  · simp only [Bool.false_eq_true, if_false, Group.win_setSt, Group.win_setTags, Group.win_noteWrite]
  · simp only [if_true, Group.addHolder, Group.setSlot, Group.win_setSt, Group.win_setTags, Group.win_noteWrite, Group.win_discard]

theorem writePair_st (g : Group) (d k : Nat) (o : Bool) (rs : Nat → Nat × Nat × BitVec 5) : (g.writePair d k o rs).st d = .pend k
   ∧ (g.writePair d k o rs).st (d + 1) = .pend k ∧ ∀ x ∈ Group.granules (1024 * d) 2048, (g.writePair d k o rs).tagAt x = .f32 := by
  cases o
  · simp only [Group.writePair, Bool.false_eq_true, if_false]
    refine ⟨?_, ?_, fun x hx => ?_⟩
    · rw [Group.st_setSt_other _ _ (by omega), Group.st_setSt_same]
    · rw [Group.st_setSt_same]
    · simp only [Group.tagAt, Group.setSt]
      exact (Group.tagAt_setTags _ (1024 * d) 2048 .f32 x).trans (if_pos hx)
  · simp only [Group.writePair, if_true]
    refine ⟨?_, ?_, fun x hx => ?_⟩
    · simp only [Group.addHolder, Group.setSlot, Group.st]
      rw [← Group.st, Group.st_setSt_other _ _ (by omega), Group.st_setSt_same]
    · simp only [Group.addHolder, Group.setSlot, Group.st]
      rw [← Group.st, Group.st_setSt_same]
    · simp only [Group.tagAt, Group.setSt, Group.addHolder, Group.setSlot]
      exact (Group.tagAt_setTags _ (1024 * d) 2048 .f32 x).trans (if_pos hx)

end Sys2Proof.Laws
end

