-- ==== Sys2Proof/Tests/Slice0.lean ====
section
/-!
SUPPORT. Tests of the model: ill-formed words that the decoder refuses, worked encodings, single steps whose result the
spec gives, and for every statement a state and operands that meet its hypotheses.
-/

namespace Sys2Proof.Tests

open Machine Claim

set_option maxRecDepth 20000
set_option Elab.async false

/-! ### Small states -/

/-- A group issuing: group 3 of team 2 on core 0, one lane, at a NOP. -/
def st : State := State.reset.withFetchWord 64 0x0001FFFFFFE00000

/-- Its group changed. -/
def stG (u : Group → Group) : State := { st with groups := [(3, u (st.group 3))] }

/-- A pass issuing on quartet 0. -/
def stB : State := { wordPass st 0 with issue := some ⟨.beam 0, []⟩ }

/-- A state with nothing issuing. -/
def idle (s : State) : State := { s with issue := none }

theorem issuing_st : Issuing st 3 15 := ⟨⟨_, rfl⟩, by decide +kernel⟩

theorem issuing_group (u : Group → Group) : Issuing (stG u) 3 15 := ⟨⟨_, rfl⟩, rfl⟩

theorem beam_stB : ∃ r, BeamIssuing stB 0 r := ⟨_, ⟨_, rfl⟩, rfl⟩

/-- The group's control registers changed. -/
def stC (u : Csrs → Csrs) : State := stG fun g => { g with csr := u g.csr }

/-- Core 0 changed. -/
def atCore (u : Core → Core) (s : State) : State := s.setCore 0 (u (s.core 0))

/-- The pass of `stB`. -/
def run0 : Run :=
  { pass := { gid := 3, tid := 2, entry := 0, prog := 0, args := [], tview := 0, aview := 0, post := 0, gate := none, seq := 0, ident := wordIdent }
    pc := 1024, start := 0 }

/-- `stB` with its pass changed. -/
def stR (u : Run → Run) : State := stB.setRun 0 (u run0)

theorem beam_run (u : Run → Run) : BeamIssuing (stR u) 0 (u run0) :=
  ⟨⟨_, rfl⟩, by simp only [stR, State.setRun, State.engine, State.setEngine, Tbl.get_put_same]⟩

/-- Team 2's scratchpad holding numbers at addresses. -/
def stSp (cs : List (Nat × Nat × Nat)) (s : State) : State :=
  withSp s 2 (cs.foldl (fun (m : Mem) c => m.putNum c.1 c.2.1 c.2.2) [])

/-- A store of group 3 that is not over until tick 50. -/
def openStore : Access :=
  { gid := 3, tid := 2, seq := 0, kind := .store, dest := .none, tag := .raw, pol := 0, core := 0, elems := [], tw := 50 }

/-- A floating word v2 := v1 op s3. -/
def fAB : Fields := { plainWord with fmt := .f32, a := .v 1, b := .s 3, d := .v 2 }
/-- A scalar word s2 := s1 op s3. -/
def fU : Fields := { plainWord with fmt := .i32, a := .s 1, b := .s 3, d := .s 2, uni := true }

theorem ok_of {α : Type} {x : Except Stop (State × α)} (h : x.isOk = true) : ∃ s es, x = .ok (s, es) := by
  cases x with
  | error e => cases h
  | ok b => exact ⟨b.1, b.2, rfl⟩

theorem ok_eq {ε α : Type} {x : Except ε α} {a : α} (h : x.toOption = some a) : x = .ok a := by
  cases x with
  | error e => cases h
  | ok b => exact congrArg _ (Option.some.inj h)

/-- The page of `st`, as its translation puts it into the TLB, and the state with it. -/
def entTlb : TlbE := ⟨0, 0, 0x2000000, 0, 0, false, true, true, true, true, false, 0⟩
def stTlb : State := { st with tlb := [entTlb] }

theorem issuing_of (s : State) (h : s.issue = st.issue) (k : (Tbl.look s.groups 3).isSome = true) : Issuing s 3 15 :=
  ⟨⟨[], h⟩, k⟩

theorem one_piece {va n : Nat} (hn : va % 65536 + n ≤ 65536) (h0 : 0 < n) : pagePieces va n = [(va, n)] := by
  have h1 : ceilDiv (va + n - (va - va % 65536)) 65536 = 1 := by unfold ceilDiv; omega
  have h2 : max va (va - va % 65536 + 65536 * 0) = va := by omega
  have h3 : min (va + n) (va - va % 65536 + 65536 * (0 + 1)) - va = n := by omega
  simp only [pagePieces, h1, List.range_one, List.map_cons, List.map_nil, h2, h3]

theorem one_line {a n : Nat} (hn : a % 128 + n ≤ 128) (h0 : 0 < n) : linePieces a n = [(a, n)] := by
  have h1 : (a + n + 127) / 128 - a / 128 = 1 := by omega
  have h2 : max a (lineOf a + 128 * 0) = a := by unfold lineOf; omega
  have h3 : min (a + n) (lineOf a + 128 * (0 + 1)) - a = n := by unfold lineOf; omega
  simp only [linePieces, h1, List.range_one, List.map_cons, List.map_nil, h2, h3]

/-- A read inside one page whose entry the TLB holds leaves the state as it stands. -/
theorem read_page {s : State} {part va n : Nat} {e : TlbE} {bs : List Byte}
    (hf : (s.tlb.find? fun e => e.part == part && decide (e.va ≤ va) && decide (va < e.va + e.size)) = some e)
    (hn : va % 65536 + n ≤ 65536) (h0 : 0 < n) (hr : e.remote = false) (hb : s.mem.bytes (e.final + (va - e.va)) n = bs)
    (hl : s.badLines = []) : readVirt s part va n = .ok (s, bs) := by
  simp only [readVirt, one_piece hn h0, List.foldl_cons, List.foldl_nil, Except.bind]
  simp [Machine.translate, tlbEntry, hf, hr, TlbE.place, hb, badAt, hl, pure, Except.pure]

/-- A block that a group reads inside one line under no lease leaves the state as it stands too, when no core holds copies. -/
theorem group_page {s : State} {g : Group} {pol : W32} {va n : Nat} {e : TlbE} {bs : List Byte}
    (hf : (s.tlb.find? fun e => e.part == g.ident.part && decide (e.va ≤ va) && decide (va < e.va + e.size)) = some e)
    (hn : va % 65536 + n ≤ 65536) (h0 : 0 < n) (hr : e.remote = false) (hb : s.mem.bytes (e.final + (va - e.va)) n = bs)
    (hl : s.badLines = []) (hc : s.copies1 = []) (hp : polLease pol = 0) (hw : (e.final + (va - e.va)) % 128 + n ≤ 128) :
    groupRead s g pol va n = .ok (s, bs) := by
  have hs : ({ s with copies1 := [], badLines := [] } : State) = s := by rw [← hc, ← hl]
  simp only [groupRead, one_piece hn h0, List.foldl_cons, List.foldl_nil, Except.bind]
  simp [Machine.translate, tlbEntry, hf, hr, TlbE.place, missAt, badAt, hl, one_line hw h0, loadAt, hp, hc, hs, hb, pure, Except.pure]

/-- The management core's read of private memory, where a plain read succeeds on a local page. -/
theorem private_page {s : State} {part va n : Nat} {e : TlbE} {bs : List Byte} (hr : readVirt s part va n = .ok (s, bs))
    (ht : translate s part va false false = .ok (s, e)) (hn : va % 65536 + n ≤ 65536) (h0 : 0 < n) (he : e.remote = false) :
    readPrivate s part va n = .ok (s, bs) := by
  simp only [readPrivate, hr, one_piece hn h0, List.any_cons, List.any_nil, ht, he, Bool.or_self, Bool.false_eq_true, if_false]

/-! ### Hypotheses of the statements: lanes, scalars and beam cores -/

theorem refs_lane : RefsOk (st.group 3) (usesABC fAB) [(fAB.d, 1)] := by unfold RefsOk; decide +kernel
theorem active_lane : (st.group 3).activeReal 15 fAB ≠ 0 := by decide +kernel
theorem plain_lane : Plain (st.group 3) (usesABC fAB) := by unfold Plain Delivered; decide +kernel

/-- Hypotheses of every statement about a word in lanes (`LaneWordIf`, `PredWord`), with an active lane. -/
theorem witness_LaneWord (i : Instr) : Issuing st 3 15 ∧ RefsOk (st.group 3) (usesABC fAB) [(fAB.d, 1)]
    ∧ (st.group 3).activeReal 15 fAB ≠ 0 ∧ ∃ s1, Readable (ctx i fAB st 3 15) (usesABC fAB) st s1 :=
  ⟨issuing_st, refs_lane, active_lane, _, readable_plain plain_lane⟩

/-- The same without an active lane: the predicate is p0, negated. -/
theorem witness_LaneWord_idle : Issuing st 3 15 ∧ RefsOk (st.group 3) (usesABC { fAB with pn := true }) [(fAB.d, 1)]
    ∧ (st.group 3).activeReal 15 { fAB with pn := true } = 0 ∧ Plain (st.group 3) (usesABC { fAB with pn := true }) :=
  ⟨issuing_st, refs_lane, by decide +kernel, plain_lane⟩

/-- A group whose v1 is E and whose s1 has not been delivered: its words with nothing active (`IdleWords`). -/
def stWait : State := stG fun g => { g with vst := [(1, .empty)], sbusy := [(1, 9)] }

theorem witness_IdleWords : Issuing stWait 3 15 ∧ RefsOk (stWait.group 3) (usesABC { fAB with pn := true }) [(fAB.d, 1)]
    ∧ (stWait.group 3).activeReal 15 { fAB with pn := true } = 0 ∧ (stWait.group 3).uniOn 15 { fU with pn := true } = false
    ∧ (available (stWait.group 3) (usesABC fAB)).isOk = false ∧ (scalReady (stWait.group 3) [fU.a]).isOk = false
    ∧ RefsOk (stWait.group 3) (memUses fAB ++ [{ o := fAB.b }]) [(fAB.d, 2)] :=
  ⟨issuing_group _, by unfold RefsOk; decide +kernel, by decide +kernel, by decide +kernel, by decide +kernel, by decide +kernel,
    by unfold RefsOk; decide +kernel⟩

/-- Hypotheses of every statement about a word under UNI (`UniWord`, `PredUniWord`), with its predicate true and false. -/
theorem witness_UniWord : Issuing st 3 15 ∧ (st.group 3).uniOn 15 fU = true ∧ Delivered (st.group 3) [fU.a, fU.b, fU.c]
    ∧ (st.group 3).uniOn 15 { fU with pn := true } = false :=
  ⟨issuing_st, by decide +kernel, by unfold Delivered; decide +kernel, by decide +kernel⟩

/-- Hypotheses of every statement about a beam core's word (`BeamWord`, `PredBeamWord`), its predicate true and false. -/
theorem witness_BeamWord : ∃ r, BeamIssuing stB 0 r ∧ r.predOn fU = true ∧ r.predOn { fU with pn := true } = false :=
  ⟨_, ⟨⟨_, rfl⟩, rfl⟩, by decide +kernel, by decide +kernel⟩

theorem witness_IntegerWords : Tag.n8 ∈ [Tag.i32, .n32, .i8, .n8] ∧ (3 : Nat) < Tag.n8.elems
    ∧ (Instr.imin { fAB with fmt := .n32 }).wf = true ∧ (encodeWord (.imin { fAB with fmt := .n32 })).isSome = true
    ∧ (Instr.iadd fU).wf = true := by decide +kernel

theorem witness_BitOperations : (Instr.popc { fAB with fmt := .n32, b := .zero }).wf = true := by decide +kernel

theorem witness_Compares : (fAB.x.extractLsb' 0 2).toNat < fAB.fmt.elems ∧ (fAB.x.extractLsb' 0 1).toNat < fAB.fmt.elems
    ∧ ((6 : BitVec 3).extractLsb' 0 1).toNat < Tag.bf16.elems ∧ ((3 : BitVec 3).extractLsb' 0 2).toNat < Tag.i8.elems := by
  decide +kernel

theorem witness_Moves : (∀ n, fAB.d ≠ .t n) ∧ (∀ n, fAB.d ≠ .a n) ∧ fAB.rk = false ∧ (st.group 3).pendOf fAB.a = none := by
  decide +kernel

theorem witness_FloatArithmetic : fAB.uni = false ∧ fU.uni = true ∧ ({ fAB with rk := true } : Fields).fmt = .f32
    ∧ ∀ x ∈ [fAB.a, fAB.b, fAB.c], (st.group 3).pendOf x = none := by decide +kernel

/-- The group with pairs v8:v9 and v10:v11 pending on slot 2. -/
def stP : State := stG fun g => { g with
  vst := [(8, .pend 2), (9, .pend 2), (10, .pend 2), (11, .pend 2)], slots := [(2, { busy := true, holders := 2 })] }
/-- v12 := v8^ op s3, and v12 := v8^ op v10^. -/
def fP : Fields := { plainWord with fmt := .f32, a := .v 8, b := .s 3, d := .v 12, rk := true }

theorem witness_AffineOperations : Issuing stP 3 15 ∧ (stP.group 3).pairDst fP.d = some 12
    ∧ RefsOk (stP.group 3) (usesABC fP) [(fP.d, 2)] ∧ (available (stP.group 3) (usesABC fP)).isOk = true
    ∧ (stP.group 3).activeReal 15 fP ≠ 0 ∧ (some fP.a).bind (stP.group 3).pendOf = some (8, 2)
    ∧ (∀ x ∈ [fP.b, fP.c], (stP.group 3).pendOf x = none ∧ (stP.group 3).oddPend x = false) :=
  ⟨issuing_group _, by decide +kernel, by unfold RefsOk; decide +kernel, by decide +kernel, by decide +kernel, by decide +kernel,
    by decide +kernel⟩

theorem witness_AffineOperations_two : (stP.group 3).pendOf (.v 8) = some (8, 2) ∧ (stP.group 3).pendOf (.v 10) = some (10, 2)
    ∧ (available (stP.group 3) (usesABC { fP with b := .v 10 })).isOk = true ∧ (stP.group 3).oddPend .zero = false := by
  decide +kernel

/-- UNPK of v1 as I8 into v4 to v7, and the state it reads. -/
def fUnpk : Fields := { plainWord with fmt := .i8, a := .v 1, d := .v 4 }

theorem witness_FormatConversions : Issuing st 3 15 ∧ fUnpk.d = .v 4 ∧ (Instr.unpk fUnpk).wf = true
    ∧ RefsOk (st.group 3) [useA fUnpk (some fUnpk.fmt)] [(fUnpk.d, fUnpk.fmt.elems)] ∧ (st.group 3).activeReal 15 fUnpk ≠ 0
    ∧ ∃ s1, Readable (ctx (.unpk fUnpk) fUnpk st 3 15) [useA fUnpk (some fUnpk.fmt)] st s1 :=
  ⟨issuing_st, rfl, by decide +kernel, by unfold RefsOk; decide +kernel, by decide +kernel, _,
    readable_plain (by unfold Plain Delivered; decide +kernel)⟩

/-- The group with a tile view of BPB tiles (TFMT 2). -/
def stT : State := stG fun g => { g with csr := { g.csr with tview := 0x80 } }
def fBpq : Fields := { plainWord with fmt := .f32, a := .a 4, d := .t 0 }
def fBpx : Fields := { plainWord with fmt := .f32, a := .t 0, d := .a 4 }

theorem witness_TileImages_bpq : Issuing stT 3 15 ∧ viewFmt (stT.group 3).csr.tview = 2
    ∧ RefsOk (stT.group 3) [{ o := fBpq.a, n := 1, bt := fBpq.btA, tag := some fBpq.fmt }] [(fBpq.d, 1)]
    ∧ Plain (stT.group 3) [{ o := fBpq.a, n := 1, bt := fBpq.btA, tag := some fBpq.fmt }]
    ∧ ((stT.group 3).useRange fBpq.a 1).join.isSome = true ∧ ((stT.group 3).range fBpq.d).isSome = true :=
  ⟨issuing_group _, by decide +kernel, by unfold RefsOk; decide +kernel, by unfold Plain Delivered; decide +kernel, by decide +kernel,
    by decide +kernel⟩

theorem witness_TileImages_bpx : RefsOk (stT.group 3) [useA fBpx (some .bpb)] [(fBpx.d, 1)]
    ∧ Plain (stT.group 3) [useA fBpx (some .bpb)] ∧ ((stT.group 3).range fBpx.a).isSome = true
    ∧ ((stT.group 3).useRange fBpx.d 1).join.isSome = true :=
  ⟨by unfold RefsOk; decide +kernel, by unfold Plain Delivered; decide +kernel, by decide +kernel, by decide +kernel⟩

/-- MOV t1 := t0. -/
def fMovT : Fields := { plainWord with a := .t 0, d := .t 1 }

theorem witness_TileImages_mov : RefsOk (stT.group 3) [useA fMovT none] [(fMovT.d, 1)] ∧ Plain (stT.group 3) [useA fMovT none]
    ∧ ∃ a d n, (stT.group 3).range fMovT.a = some (a, n) ∧ (stT.group 3).range fMovT.d = some (d, n) ∧ a % 128 = 0
      ∧ d % 128 = 0 ∧ n % 128 = 0 :=
  ⟨by unfold RefsOk; decide +kernel, by unfold Plain Delivered; decide +kernel, 0, 1152, 1152, by decide +kernel⟩

theorem witness_Exchanges : RefsOk (st.group 3) [useA fAB (tagOf fAB), { o := .v 3, bt := false, index := true }] [(fAB.d, 1)]
    ∧ Plain (st.group 3) [useA fAB (tagOf fAB), { o := .v 3, bt := false, index := true }]
    ∧ (st.group 3).activeReal 15 { plainWord with pn := true } = 0 :=
  ⟨by unfold RefsOk; decide +kernel, by unfold Plain Delivered; decide +kernel, by decide +kernel⟩

theorem witness_Reductions : RefsOk (st.group 3) [useA fAB (tagOf fAB)] [(fAB.d, 1)] ∧ RefsOk (st.group 3) [useA fAB (tagOf fAB)] [(.s 2, 1)]
    ∧ Plain (st.group 3) [useA fAB (tagOf fAB)] ∧ (∀ n, fAB.d ≠ .s n) :=
  ⟨by unfold RefsOk; decide +kernel, by unfold RefsOk; decide +kernel, by unfold Plain Delivered; decide +kernel, by decide +kernel⟩

/-! ### Hypotheses: control flow and exceptions -/

theorem witness_NopsAndIdleWords : (Instr.nop plainWord).wf = true ∧ (Instr.nopSkip plainWord).wf = true
    ∧ decodeWord 0x0001FFFFFFE00000 = .ok (.nop plainWord) ∧ Issuing st 3 15 ∧ ∃ r, BeamIssuing stB 0 r :=
  ⟨by decide +kernel, by decide +kernel, rfl, issuing_st, beam_stB⟩

/-- BRX s4 + 2 and s4 + 4, RET s4, CALL into s5 and into v6:v7. -/
theorem witness_UniformControlFlow : (st.group 3).uniOn 15 fU = true ∧ (st.group 3).uniOn 15 { fU with pn := true } = false
    ∧ Delivered (st.group 3) [.s 4, .s 4] ∧ ((st.group 3).scal 4 + (4 : BitVec 32).zeroExtend 64).toNat % 4 = 0
    ∧ ((st.group 3).scal 4 + (2 : BitVec 32).zeroExtend 64).toNat % 4 ≠ 0
    ∧ ((stG fun g => { g with s := [(4, 2)] }).group 3).scal 4 = 2
    ∧ RefsOk (st.group 3) [] [(.v 6, 2)] ∧ Issuing st 3 15 :=
  ⟨by decide +kernel, by decide +kernel, by unfold Delivered; decide +kernel, by decide +kernel, by decide +kernel, by decide +kernel,
    by unfold RefsOk; decide +kernel, issuing_st⟩

theorem witness_UniformControlFlow_beam : ∃ r, BeamIssuing stB 0 r ∧ r.predOn fU = true ∧ r.stack.length < 8
    ∧ (0 + (4 : BitVec 32).zeroExtend 64 : W64).toNat % 4 = 0 := ⟨_, ⟨⟨_, rfl⟩, rfl⟩, by decide +kernel⟩

/-- A pass whose return stack holds one link. -/
theorem witness_UniformControlFlow_ret : BeamIssuing (stR fun r => { r with stack := [1040] }) 0 { run0 with stack := [1040] } :=
  beam_run _

/-- Two lanes, one of them active under p1. -/
def st2 : State := stG fun g => { g with
  ident := { g.ident with nreal := 2 }, subs := [(15, { (g.sub 15) with mask := 3 })], p := [(1, 1)] }

/-- BRX s4 + IMM and RET v4 by lane. -/
def fBrx : Fields := { plainWord with len := .w96, imm := 4, a := .imm, b := .s 4 }
def fRet : Fields := { plainWord with a := .v 4 }

theorem witness_DivergenceAndFusion_bra : Issuing st2 3 15 ∧ fAB.uni = false ∧ (mlanes ((st2.group 3).sub 15).mask).length = 2
    ∧ (mlanes ((st2.group 3).activeReal 15 { plainWord with pg := 1 })) = [0] :=
  ⟨issuing_group _, rfl, by decide +kernel, by decide +kernel⟩

theorem witness_DivergenceAndFusion_brx : (st2.group 3).activeReal 15 fBrx ≠ 0
    ∧ RefsOk (st2.group 3) [useA fBrx none] []
    ∧ ∃ s1, Readable (ctx (.brx fBrx) fBrx st2 3 15) [useA fBrx none, useB fBrx none] st2 s1 :=
  ⟨by decide +kernel, by unfold RefsOk; decide +kernel, _,
    readable_plain (by unfold Plain Delivered; decide +kernel)⟩

theorem witness_DivergenceAndFusion_idle : (st2.group 3).activeReal 15 { fBrx with pn := true } = 0
    ∧ (st2.group 3).activeReal 15 { fRet with pn := true } = 0 := by decide +kernel

theorem witness_DivergenceAndFusion_targets :
    (∀ l ∈ mlanes ((st2.group 3).activeReal 15 fBrx), (0 + (4 : BitVec 32).zeroExtend 64 : W64).toNat % 4 = 0 ∧ l < 256)
    ∧ (0 + (2 : BitVec 32).zeroExtend 64 : W64).toNat % 4 ≠ 0 ∧ 0 ∈ mlanes ((st2.group 3).activeReal 15 fBrx) := by
  decide +kernel

theorem witness_DivergenceAndFusion_ret : (st2.group 3).activeReal 15 fRet ≠ 0
    ∧ RefsOk (st2.group 3) [{ o := fRet.a, n := 2, bt := fRet.btA }] []
    ∧ ∃ s1, Readable (ctx (.ret fRet) fRet st2 3 15) [{ o := fRet.a, n := 2, bt := fRet.btA }] st2 s1 :=
  ⟨by decide +kernel, by unfold RefsOk; decide +kernel, _, readable_plain (by unfold Plain Delivered; decide +kernel)⟩

/-- A split entry at its parent's PC and a parked lane at its owner's. -/
def gSplit : Group := { subs := [(0, { mask := 1, pc := 64, parent := 15 }), (15, { mask := 2, pc := 64 })], parked := [(5, ⟨64, 15⟩)] }

theorem witness_DivergenceAndFusion_fusion : Tbl.sorted gSplit.subs = true ∧ Tbl.sorted gSplit.parked = true
    ∧ (∀ c ∈ gSplit.subs, c.1 < 8 ∨ c.1 = 15) ∧ (∀ c ∈ gSplit.parked, c.1 < 256 ∧ (Tbl.look gSplit.subs c.2.owner).isSome = true)
    ∧ ∃ rank : Nat → Nat, ∀ c ∈ gSplit.subs, c.1 ≠ 15 → (Tbl.look gSplit.subs c.2.parent).isSome = true ∧ rank c.2.parent < rank c.1 :=
  ⟨by decide, by decide, by decide, by decide, fun k => if k = 15 then 0 else 1, by decide⟩

/-- EXIT of one lane of two under p1, and of the last lane. -/
theorem witness_Exits : Issuing st2 3 15
    ∧ ((st2.group 3).sub 15).mask &&& ~~~((st2.group 3).activeReal 15 { plainWord with pg := 1 }) ≠ 0
    ∧ (∀ w ∈ st2.waiters, w.gid = 3 → (Tbl.look (st2.group 3).subs w.sub).isSome = true) :=
  ⟨issuing_group _, by decide +kernel, by decide +kernel⟩

theorem witness_Exits_last : ((st.group 3).sub 15).mask &&& ~~~((st.group 3).activeReal 15 plainWord) = 0
    ∧ (∀ c ∈ (st.group 3).subs, c.1 = 15) ∧ (st.group 3).parked = [] ∧ (∀ e ∈ (st.group 3).entries, e.led = none)
    ∧ NothingSwept st ∧ contextsOf st 0 0 0 = [] ∧ (∀ k ∈ (st.team 2).gids, k = 3)
    ∧ (∃ k ∈ ((st.setTeam 2 { st.team 2 with gids := [3, 4] }).team 2).gids, k ≠ 3) := by
  unfold NothingSwept; decide +kernel

/-- A handler at 0x2000, traps not masked. -/
def stH : State := stC fun c => { c with hbase := 0x2000 }

theorem witness_TrapEntries : (Tbl.look stH.groups 3).isSome = true ∧ (stH.group 3).csr.m = false ∧ (stH.group 3).csr.hbase ≠ 0
    ∧ (({ cause := 5, tval := 2 } : Trap).page = none ∧ ({ cause := 5, tval := 2 } : Trap).memue = none)
    ∧ (st.group 3).csr.hbase = 0 ∧ ((stC fun c => { c with m := true }).group 3).csr.m = true := by
  decide +kernel

/-- A page fault at 0x12345. -/
def pageFault : Trap := { cause := Cause.pageflt, tval := 0x12345, page := some 0x12345 }
/-- A record with its key, or with another page. -/
def rec1 (page : Nat) : CoRec := ⟨Cause.pageflt, false, false, false, false, 1, page, [7], 0, 0, []⟩

/-- All 32 records open, none with its key. -/
def stFull : State := atCore (fun c => { c with recs := (List.range 32).map fun k => (k, rec1 (65536 * (k + 2))) }) stH

theorem witness_TrapMerging : (stH.group 3).ident.core = 0 ∧ pageFault.page = some 0x12345 ∧ pageFault.cause ≠ 0x18
    ∧ Tbl.sorted ((atCore (fun c => { c with recs := [(4, rec1 0x10000)] }) stH).core 0).recs = true
    ∧ (rec1 0x10000).cause = pageFault.cause ∧ (rec1 0x10000).page = 0x12345 - 0x12345 % 65536
    ∧ (∀ c ∈ (stH.core 0).recs, c.2.page ≠ 0x10000) ∧ Tbl.look (stH.core 0).recs 0 = none
    ∧ Tbl.sorted (stFull.core 0).recs = true ∧ (∀ c ∈ (stFull.core 0).recs, c.2.page ≠ 0x10000)
    ∧ ∀ j < 32, (Tbl.look (stFull.core 0).recs j).isSome = true := by
  decide +kernel

theorem witness_SystemCallsAndReturn : Issuing stH 3 15 ∧ (stH.group 3).activeReal 15 plainWord ≠ 0
    ∧ (stH.group 3).activeReal 15 { plainWord with pn := true } = 0 ∧ (stH.group 3).uniOn 15 { plainWord with uni := true } = true :=
  ⟨issuing_group _, by decide +kernel, by decide +kernel, by decide +kernel⟩

/-- In a handler for a page fault, a copy of the group parked on its page. -/
def stE : State :=
  { (stG fun g => { g with csr := { g.csr with m := true, tepc := 0x100000 }, entries := [⟨some (0, 4), Cause.pageflt, page64 0x12345, false⟩] }) with
    copies := [(9, {
      gid := 3, tid := 2, part := 0, core := 0, engine := 0, seq := 0, sk := .virt, dk := .virt, src := 0x12345, dst := 0
      left := 4, since := 0, promise := 0, pol := 0, st := .parked Cause.pageflt 0x12345 true })] }

theorem witness_SystemCallsAndReturn_eret : (st.group 3).csr.m = false ∧ Issuing stE 3 15 ∧ (stE.group 3).csr.m = true
    ∧ 15 ∉ (stE.group 3).wskipNow ∧ (stE.group 3).hang = .no
    ∧ ∃ y, Tbl.look stE.copies 9 = some y ∧ y.st = .parked Cause.pageflt 0x12345 true ∧ y.gid = 3
      ∧ ((stE.group 3).entries.head?.map fun e => (e.cause, e.page)) = some (Cause.pageflt, page64 (0x12345 : W64).toNat)
      ∧ (stE.group 3).entries.head?.bind (·.led) = some (0, 4) :=
  ⟨by decide +kernel, ⟨⟨_, rfl⟩, rfl⟩, by decide +kernel, by decide +kernel, by decide +kernel, _, rfl, rfl, rfl, by decide +kernel, by decide +kernel⟩

/-- The record that the entry leads is precise; group 5 waits on it. -/
theorem witness_SystemCallsAndReturn_record : let s := { stE with groups := Tbl.set stE.groups 5 { hang := .member 4 } }
    (∀ c ∈ (s.core 0).recs, c.2.engine = true → c.2.stage2 = true) ∧ (s.group 5).ident.core = 0
    ∧ (s.group 5).hang ∈ [Hang.member 4, .stage2 4, .full] ∧ st.copies = [] := by
  decide +kernel

/-! ### Hypotheses: control registers, events, waits, barriers and queues -/

theorem witness_ScalarState : Issuing st 3 15 ∧ Delivered (st.group 3) [.s 1, .s 3] ∧ (csrReads.map (·.1)).contains 0x20 = true
    ∧ (csrWrites.map (·.1)).contains 0x10 = true ∧ ((st.group 3).srcU 15 fU (.s 1)).toNat / 2 ^ 56 % 16 < 14
    ∧ 14 ≤ ((stG fun g => { g with s := [(1, 0xE00000000000000)] }).group 3 |>.srcU 15 fU (.s 1)).toNat / 2 ^ 56 % 16
    ∧ ∃ r, BeamIssuing stB 0 r :=
  ⟨issuing_st, by unfold Delivered; decide +kernel, by decide +kernel, by decide +kernel, by decide +kernel, by decide +kernel, beam_stB⟩

/-- Row 6 of the trellis drives line 2; a copy waits at it, and the group sleeps. -/
def stTr : State := atCore (fun c => { c with route := [(6, 4)] })
  { (stG fun g => { g with wake := 4, sleep := [(15, 0)] }) with
    m := { st.m with ftime := 9 }
    copies := [(9, {
      gid := 3, tid := 2, part := 0, core := 0, engine := 0, seq := 0, sk := .virt, dk := .virt, src := 0, dst := 0
      left := 4, since := 0, promise := 5, pol := 0, gate := some 2 })] }

theorem witness_EventsAndSleep : Issuing stTr 3 15 ∧ Delivered (stTr.group 3) [.s 3] ∧ ((.v 5 : Opd).code.toNat < 6)
    ∧ 6 ≤ (.v 6 : Opd).code.toNat ∧ (Tbl.look stTr.copies 9).bind (·.gate) = some 2 ∧ (Tbl.look stTr.groups 3).isSome = true :=
  ⟨⟨⟨_, rfl⟩, by decide +kernel⟩, by unfold Delivered; decide +kernel, by decide +kernel⟩

/-- SLEEP s1: over; over with copy 9 overdue; not over. -/
theorem witness_EventsAndSleep_sleep : Delivered (stTr.group 3) [.s 1]
    ∧ ((st.group 3).scal 1).toNat ≤ st.m.ftime ∧ st.copies = []
    ∧ (∀ c ∈ stTr.copies, c.2.gid = 3 ∧ c.2.obj = none ∧ c.2.promise ≤ stTr.m.ftime ∧ c.2.st ≠ .done ∧ c.2.st ≠ .written)
    ∧ (((stG fun g => { g with s := [(1, 77)] }).group 3).scal 1).toNat > st.m.ftime ∧ 15 ∉ (st.group 3).woken :=
  ⟨by unfold Delivered; decide +kernel, by decide +kernel⟩

/-- A line of the wake mask has fired at this very tick, before the first turn of the SLEEP. -/
theorem witness_EventsAndSleep_fired : let s := atCore (fun c => { c with fired := [(2, 0)] }) (stG fun g => { g with wake := 4, s := [(1, 77)] })
    Tbl.look (s.group 3).sleep 15 = none ∧ (∃ e ∈ (s.core 0).fired, (s.group 3).wake.getLsbD e.1 = true ∧ e.2 = s.m.ftime)
    ∧ ¬ ((s.group 3).scal 1).toNat ≤ s.m.ftime := by decide +kernel

theorem nothingDue_stTr : NothingDue stTr 3 [.cp] := by
  refine ⟨by decide +kernel, fun c hc _ cause tv h => ?_, by decide +kernel⟩
  have r : ∀ c ∈ stTr.copies, c.2.st = .running := by decide +kernel
  rw [r c hc] at h
  cases h

theorem nothingDue_st (cs : List Cls) : NothingDue st 3 cs :=
  ⟨fun x hx => absurd hx (by change x ∉ []; simp), fun c hc => absurd hc (by change c ∉ []; simp), by decide +kernel⟩

/-- FWAIT s1 with the tokens 0, all kinds, S with a store open, and a reserved bit. -/
theorem witness_FencesAndWaits : Issuing st 3 15 ∧ Delivered (st.group 3) [.s 1] ∧ NothingDue st 3 [.cp, .rd, .ar, .th]
    ∧ (st.group 3).memues = [] ∧ ((0x7F000000000000 : W64).toNat / 2 ^ 55 = 0) ∧ ((0x80000000000000 : W64).toNat / 2 ^ 55 ≠ 0)
    ∧ st.accesses = [] ∧ st.copies = [] ∧ st.reds = [] ∧ st.thops = [] ∧ st.arrops = [] ∧ openPasses st 3 = [] :=
  ⟨issuing_st, by unfold Delivered; decide +kernel, nothingDue_st _, by decide +kernel⟩

/-- A store of sequence 0 still open under the token S taken at sequence 1. -/
theorem witness_FencesAndWaits_open : let s := { (stG fun g => { g with s := [(1, 0x2000000000001)] }) with accesses := [(7, openStore)] }
    Issuing s 3 15 ∧ ((s.group 3).scal 1).getLsbD 49 = true ∧ olderSeq (((s.group 3).scal 1).toNat % 2 ^ 48) openStore.seq = true
    ∧ ¬ openStore.tw ≤ s.m.ftime := ⟨⟨⟨_, rfl⟩, rfl⟩, by decide +kernel⟩

/-- WAITC with a count within n and above it, with ENGLOST pending, with one fault of its class. -/
theorem witness_FencesAndWaits_class : (st.group 3).engLost = none ∧ (st.group 3).csr.cp ≤ min 0 255
    ∧ min 0 255 < ((stC fun c => { c with cp := 2 }).group 3).csr.cp
    ∧ ((stG fun g => { g with engLost := some 5 }).group 3).engLost = some 5
    ∧ ((stG fun g => { g with faults := [⟨.cp, 9, 0, false, 1⟩] }).group 3).faults = ⟨.cp, 9, 0, false, 1⟩ :: [] := by
  decide +kernel

/-- A barrier at scratchpad address 0: EXP, ARRV, PHASE, PEND. -/
def stBar (exp arrv phase pend : Nat) : State := stSp [(0, 2, exp), (2, 2, arrv), (4, 4, phase), (8, 8, pend)] st
/-- BARA s2, [s4], s5. -/
def fBar : Fields := { plainWord with uni := true, a := .s 4, b := .s 5, d := .s 2 }

theorem witness_Barriers : Issuing (stBar 2 0 0 0) 3 15 ∧ BarrierAt (stBar 2 0 0 0) 3 15 fBar 0 2 0 ⟨2, 0, 0, 0⟩
    ∧ released (stBar 2 0 0 0) 3 = true ∧ (0 + 1 ≠ 2) :=
  ⟨⟨⟨_, rfl⟩, rfl⟩, ⟨⟨by unfold Delivered; decide +kernel, by decide +kernel⟩, by decide +kernel⟩, by decide +kernel, by decide⟩

theorem witness_Barriers_complete : BarrierAt (stBar 2 1 7 0) 3 15 fBar 0 2 0 ⟨2, 1, 7, 0⟩ ∧ released (stBar 2 1 7 0) 3 = true
    ∧ NoWaiters (stBar 2 1 7 0) 2 0 :=
  ⟨⟨⟨by unfold Delivered; decide +kernel, by decide +kernel⟩, by decide +kernel⟩, by decide +kernel, by unfold NoWaiters; decide +kernel⟩

theorem witness_Barriers_full : BarrierAt (stBar 2 2 0 8) 3 15 fBar 0 2 0 ⟨2, 2, 0, 8⟩ ∧ released (stBar 2 2 0 8) 3 = true
    ∧ released { stBar 2 2 0 8 with accesses := [(7, openStore)] } 3 = false :=
  ⟨⟨⟨by unfold Delivered; decide +kernel, by decide +kernel⟩, by decide +kernel⟩, by decide +kernel, by decide +kernel⟩

/-- A queue of two entries at scratchpad address 0: HEAD, TAIL and an allowance for member 0. -/
def stQ (head tail allow : Nat) : State :=
  stSp [(0, 2, 2), (2, 1, 1), (4, 4, head), (8, 4, tail), (0x10, 1, allow), (0x40, 8, 99)] st
/-- QPUSH [s4], s9; QPOP and QTRY use s2 and p1. -/
def fQ : Fields := { plainWord with uni := true, a := .s 4, b := .s 9, d := .s 2, c := .v 1 }

theorem queue_at {h t w : Nat} (e : (h, t, w) ∈ [(0, 0, 1), (0, 1, 1), (0, 2, 1), (0, 0, 0)]) :
    QueueAt (stQ h t w) 3 15 fQ 0 2 0 2 h t := by
  fin_cases e <;> exact ⟨⟨by unfold Delivered; decide +kernel, by decide +kernel⟩, by decide +kernel⟩

/-- Empty with room, one entry, full, without allowance, and with an older store open. -/
theorem witness_Queues : Issuing (stQ 0 0 1) 3 15 ∧ QueueAt (stQ 0 0 1) 3 15 fQ 0 2 0 2 0 0 ∧ NoWaiters (stQ 0 0 1) 2 0
    ∧ QueueAt (stQ 0 1 1) 3 15 fQ 0 2 0 2 0 1 ∧ QueueAt (stQ 0 2 1) 3 15 fQ 0 2 0 2 0 2 ∧ QueueAt (stQ 0 0 0) 3 15 fQ 0 2 0 2 0 0 :=
  ⟨⟨⟨_, rfl⟩, rfl⟩, queue_at (by simp), by unfold NoWaiters; decide +kernel, queue_at (by simp), queue_at (by simp), queue_at (by simp)⟩

theorem witness_Queues_values : released (stQ 0 0 1) 3 = true ∧ released { stQ 0 0 1 with accesses := [(7, openStore)] } 3 = false
    ∧ spNum (stQ 0 0 1) 2 0x10 1 ≠ 0 ∧ spNum (stQ 0 0 0) 2 0x10 1 = 0 ∧ (stQ 0 0 1).flag 1 0 = false
    ∧ ((stQ 0 0 1).setLaunch 1 { (stQ 0 0 1).launch 1 with r := { ((stQ 0 0 1).launch 1).r with flags := 1 } }).flag 1 0 = true := by
  decide +kernel

/-! ### Hypotheses of the statements: memory -/

/-- A memory word: base s4, index LANE times 4, in scratchpad. -/
def fM : Fields := { plainWord with fmt := .f32, a := .s 4, b := .v 5, d := .v 2, ext := 0x300 ||| Opd.lane.code.zeroExtend _ }

theorem witness_MemoryChecks : memSp fM = true ∧ memIndex fM = .lane ∧ memScale fM = 4
    ∧ spTeam st 2 8 = some (2, 8) ∧ 8 + 4 ≤ (st.team 2).spSize ∧ (st.team 2).reclaimed = false
    ∧ ¬ (65536 - 2 + 4 ≤ (st.team 2).spSize) ∧ (6 : Nat) % 4 ≠ 0 ∧ (∀ x ∈ (st.group 3).csr.watch, x.2.getLsbD 63 = false)
    ∧ st.flag 1 0 = false ∧ entTlb.remote = false ∧ entTlb.root = false := by decide +kernel

theorem test_translate_fills_tlb : translate st 0 0x100000 true false = .ok (stTlb, entTlb) := ok_eq (by decide +kernel)

theorem witness_MemoryChecks_page (w : Bool) : translate stTlb 0 0x100000 w false = .ok (stTlb, entTlb) := by
  cases w <;> exact ok_eq (by decide +kernel)

theorem witness_MemoryChecks_prefetch : Issuing st 3 15 ∧ PolicyOk (st.group 3) fM
    ∧ RefsOk (st.group 3) [{ o := fM.a }, { o := memIndex fM }] [] :=
  ⟨issuing_st, by unfold PolicyOk Delivered; decide +kernel, by unfold RefsOk; decide +kernel⟩

theorem witness_MemoryChecks_active : fM.uni = false ∧ (st.group 3).activeReal 15 fM ≠ 0
    ∧ (st.group 3).activeReal 15 { fM with pn := true } = 0 := by decide +kernel

/-- An LDP, which also meets what an LDV needs. -/
theorem witness_LaneAccesses_load : (st.group 3).activeReal 15 fM ≠ 0 ∧ RefsOk (st.group 3) (memUses fM) [(fM.d, 2)]
    ∧ Readable (ctx (.ldp fM) fM st 3 15) (memUses fM) st (holdLatch st (ctx (.ldp fM) fM st 3 15))
    ∧ ∃ s2 es, resolve (ctx (.ldp fM) fM st 3 15) (holdLatch st (ctx (.ldp fM) fM st 3 15)) true false .store 0
        ((mlanes ((st.group 3).activeReal 15 fM)).map fun l =>
          { lane := l, va := 8 * memAddr (st.group 3) fM l, size := 8, al := 8, off := 1024 * 2 + 4 * l }) = .ok (s2, es) :=
  ⟨by decide +kernel, by unfold RefsOk; decide +kernel, readable_plain (by unfold Plain Delivered; decide +kernel), ok_of (by decide +kernel)⟩

theorem witness_LaneAccesses_store : RefsOk (st.group 3) (memUses fM ++ [dataUse fM 2]) []
    ∧ Plain (st.group 3) (memUses fM ++ [dataUse fM 2]) ∧ fM.b = .v 5 ∧ fM.d = .v 2
    ∧ ∃ s2 es, resolve (ctx (.stp fM) fM st 3 15) (holdLatch st (ctx (.stp fM) fM st 3 15)) false true .store 0
        ((mlanes ((st.group 3).activeReal 15 fM)).map fun l =>
          { lane := l, va := memAddr (st.group 3) fM l, size := 8, al := 8, data := 7 }) = .ok (s2, es) :=
  ⟨by unfold RefsOk; decide +kernel, by unfold Plain Delivered; decide +kernel, rfl, rfl, ok_of (by decide +kernel)⟩

/-- The group with a policy that asks for late loads, and with all its slots taken. -/
def stLate (slots : List Nat) : State := stG fun g => { g with
  csr := { g.csr with lpol := 0x80000 }, slots := slots.map fun k => (k, { busy := true }) }

theorem witness_LaneAccesses_late : polLate (policy ((stLate []).group 3) fM) = true ∧ polLate (policy (st.group 3) fM) = false
    ∧ PolicyOk ((stLate []).group 3) fM ∧ ((stLate []).group 3).anyE (1024 * 2) 2048 = false
    ∧ (((stLate [0]).group 3).slot 1).busy = false ∧ (∀ j < 1, (((stLate [0]).group 3).slot j).busy = true)
    ∧ ∀ k < 8, (((stLate [0, 1, 2, 3, 4, 5, 6, 7]).group 3).slot k).busy = true :=
  ⟨by decide +kernel, by decide +kernel, by unfold PolicyOk Delivered; decide +kernel, by decide +kernel⟩

theorem witness_LaneAccesses_owed : ((stG fun g => { g with vst := [(3, .empty)] }).group 3).anyE (1024 * 2) 2048 = true := by
  decide +kernel

/-- LDS s2 := [s4]; STS [s4] := s5. -/
def fLs : Fields := { fM with fmt := .i32, uni := true, b := .s 5, d := .s 2 }

theorem witness_WideAccesses_scalar (r : Bool) : Delivered (st.group 3) [fLs.a, memIndex fLs, fLs.b] ∧ PolicyOk (st.group 3) fLs
    ∧ ∃ s2 es, resolve (ctx (.lds fLs) fLs st 3 15) (holdLatch st (ctx (.lds fLs) fLs st 3 15)) r (!r) .store 0
        [{ lane := 0, va := 16, size := 1, al := 1 }] = .ok (s2, es) :=
  ⟨by unfold Delivered; decide +kernel, by unfold PolicyOk Delivered; decide +kernel, ok_of (by cases r <;> decide +kernel)⟩

/-- LDT t0 and STT t0 under a view of I8 tiles, rows 128 bytes apart. -/
def fLt : Fields := { fM with fmt := tileTag (st.group 3).csr.tview, d := .t 0, b := .t 0, c := .s 6, ext := 0x200 ||| Opd.zero.code.zeroExtend _ }
def stPitch : State := stG fun g => { g with s := Tbl.set g.s 6 128 }

theorem witness_WideAccesses_tile : Delivered (stPitch.group 3) [fLt.a, memIndex fLt, fLt.c] ∧ RefsOk (stPitch.group 3) (memUses fLt) [(fLt.d, 1)]
    ∧ Plain (stPitch.group 3) (memUses fLt ++ [{ o := fLt.b, bt := fLt.btB, tag := some fLt.fmt }])
    ∧ ((stPitch.group 3).range fLt.d).isSome = true ∧ ((stPitch.group 3).scal 6).toNat = 128
    ∧ fLt.fmt ≠ .bpb
    ∧ ∃ s2 es, resolve (ctx (.ldt fLt) fLt stPitch 3 15) (holdLatch stPitch (ctx (.ldt fLt) fLt stPitch 3 15)) true false .store 0
        (tileReqs (stPitch.group 3) fLt.d 0 0 128) = .ok (s2, es) :=
  ⟨by unfold Delivered; decide +kernel, by unfold RefsOk; decide +kernel, by unfold Plain Delivered; decide +kernel, by decide +kernel,
    by decide +kernel, by decide +kernel, ok_of (by decide +kernel)⟩

/-- An ATOM with a destination and data in v5, comparand in v6; and one under UNI. -/
def fAt : Fields := { fM with fmt := .n32, c := .v 6 }
def fAu : Fields := { fM with fmt := .n32, uni := true, b := .s 5, c := .s 6, d := .s 2 }

theorem witness_AtomicIssue : RefsOk (st.group 3) (memUses fAt ++ [useB fAt (tagOf fAt), useC fAt (tagOf fAt)]) [(fAt.d, 1)]
    ∧ Plain (st.group 3) (memUses fAt ++ [useB fAt (tagOf fAt), useC fAt (tagOf fAt)]) ∧ (st.group 3).activeReal 15 fAt ≠ 0
    ∧ ∃ s2 es, resolve (ctx (.atomCas fAt) fAt st 3 15) (holdLatch st (ctx (.atomCas fAt) fAt st 3 15)) true true
        (atomKind .cas true) 0x89 [{ lane := 0, va := 4, size := 4, al := 4, data := 1 }] = .ok (s2, es) :=
  ⟨by unfold RefsOk; decide +kernel, by unfold Plain Delivered; decide +kernel, by decide +kernel, ok_of (by decide +kernel)⟩

theorem witness_AtomicIssue_uni : RefsOk (st.group 3) (memUses fAu ++ [useB fAu (tagOf fAu), useC fAu (tagOf fAu)]) [(fAu.d, 1)]
    ∧ Delivered (st.group 3) ((memUses fAu ++ [useB fAu (tagOf fAu), useC fAu (tagOf fAu)]).map (·.o)) ∧ (st.group 3).uniOn 15 fAu = true
    ∧ fAu.uni = true ∧ fAt.uni = false :=
  ⟨by unfold RefsOk; decide +kernel, by unfold Delivered; decide +kernel, by decide +kernel⟩

/-- One access of group 3 with one element at scratchpad address 16, into v2 or a scalar. -/
def eAt (p : Place) : Elem := { lane := 0, va := 16, place := p, size := 4, data := 9, off := 2048 }
def aAt (k : AccKind) (d : Dest) (p : Place) : Access := { openStore with kind := k, dest := d, tag := .n32, elems := [eAt p] }
def stA (k : AccKind) (d : Dest) (p : Place) : State :=
  { stG (fun g => { g with prods := [(7, ⟨2048, 1024, .n32, [], [], none⟩)], vst := [(2, .empty)], sbusy := [(4, 7)] }) with
    accesses := [(7, aAt k d p)] }

theorem witness_AccessCompletion (k : AccKind) (h : k ∈ [AccKind.store, .load, .atom .add true, .atom .cas false]) (d : Dest)
    (e : d ∈ [Dest.none, .win, .scal 4]) (p : Place) (q : p ∈ [Place.sp 2 16, .pa 0x100000 false false]) :
    ElementReady (stA k d p) 7 0 (aAt k d p) (eAt p) ∧ ((stA k d p).group 3).prods = [(7, ⟨2048, 1024, .n32, [], [], none⟩)]
    ∧ (4, 7) ∈ ((stA k d p).group 3).sbusy ∧ (Tbl.look (stA k d p).groups 3).isSome = true ∧ polLease (aAt k d p).pol = 0 := by
  refine ⟨⟨rfl, rfl, rfl, ?_, fun x hx => ?_⟩, rfl, ?_, rfl, by simp [aAt, openStore, polLease]⟩
  · fin_cases h <;> fin_cases e <;> fin_cases q <;> decide +kernel
  · fin_cases q <;> cases hx
  · exact List.mem_cons_self

/-- An old value on its way back. -/
theorem witness_AccessCompletion_landing : let a := { aAt (.atom .add true) .win (.sp 2 16) with elems := [{ eAt (.sp 2 16) with st := .applied 4 11 }] }
    Tbl.look { st with accesses := [(7, a)] }.accesses 7 = some a ∧ a.elems[0]? = some { eAt (.sp 2 16) with st := .applied 4 11 }
    ∧ a.kind = .atom .add true ∧ a.dest = .win ∧ ((stA .load .win (.sp 2 16)).group 3).st 2 = .empty := by decide +kernel

theorem witness_FailuresAndOutsideWrites : ElementReady (stA .load .win (.dom 64)) 7 0 (aAt .load .win (.dom 64)) (eAt (.dom 64))
    ∧ 5 < 640 ∧ 5 ∉ st.m.left :=
  ⟨⟨rfl, rfl, rfl, by decide +kernel, fun d h => by cases h; decide +kernel⟩, by decide +kernel⟩

/-- A load of a place that the core holds a copy of, whose lease runs on. -/
theorem witness_FailuresAndOutsideWrites_copy : let a := { aAt .load .win (.pa 0x100010 false false) with pol := 0x10000 }
    let s := { stA .load .win (.pa 0x100010 false false) with
      accesses := [(7, a)], copies1 := [{ core := 0, part := 0, line := 0x100000, replica := false, until_ := 100, bytes := List.replicate 128 0, lid := 1 }] }
    ElementReady s 7 0 a (eAt (.pa 0x100010 false false)) ∧ a.kind = .load ∧ (copyFor s a (eAt (.pa 0x100010 false false))).isSome = true
    ∧ ((stA .load .win (.dom 64)).copies1 = [] ∧ copyFor (stA .load .win (.dom 64)) (aAt .load .win (.dom 64)) (eAt (.dom 64)) = none) :=
  ⟨⟨rfl, rfl, rfl, by decide +kernel, fun d h => by cases h⟩, rfl, by decide +kernel, rfl, by decide +kernel⟩

/-- The machine in service with page 20 granted to the host and pages 20 to 21 exported to partition 3 of module 5; the page belongs to
partition 1, in a state. -/
def stOut (state : Nat) (refuse : Bool) : State :=
  { st with
    m := { st.m with stage := 6, granted := [20], exportsTo := [(5, 3, 20, 2)] }
    reverse := [(20, 1, 7)]
    parts := Tbl.set st.parts 1 { st.part 1 with e := { (st.part 1).e with state := state }, refuse := refuse } }

theorem witness_FailuresAndOutsideWrites_out : (stOut 1 false).m.stage = 6 ∧ (∀ i < 8, exposed (stOut 1 false) (1310720 + i) = true)
    ∧ exposed (stOut 1 false) 0 = false ∧ (∃ x ∈ (stOut 1 false).m.exportsTo, x.1 = 5 ∧ x.2.1 = 3 ∧ 65536 * x.2.2.1 ≤ 1310720
        ∧ 1310720 + 8 ≤ 65536 * (x.2.2.1 + x.2.2.2)) ∧ inRootPage (stOut 1 false) 1310720 = false ∧ ((stOut 1 false).part 1).e.state ≠ 4 ∧ ((stOut 4 true).part 1).e.state = 4
    ∧ ((stOut 4 true).part 1).refuse = true ∧ ((stOut 4 false).part 1).refuse = false
    ∧ Tbl.look (stOut 4 true).reverse (1310720 / 65536) = some (1, 7) ∧ st.m.stage ≠ 6 := by decide +kernel

/-- Page 20 is a ROOT page of partition 1: its stage-2 tree maps the first 32 MiB one to one, and its stage-1 tree has one
ROOT leaf. -/
def stRootPage : State :=
  { stOut 1 false with
    mem := [(0x60000, 0x70001), (0x70000, 0x80001), (0x80000, 0xF), (0xA0000, 0xB0001), (0xB0000, 0xC0001), (0xC0000, 0xD0001),
      (0xD0000, 0x140017)].foldl (fun (m : Mem) (c : Nat × Nat) => m.putNum c.1 8 c.2) []
    parts := Tbl.set st.parts 1 { st.part 1 with e := { (st.part 1).e with state := 1, root1 := 0xA0000, root2 := 0x60000 } }
    reverse := [(20, 1, 20)] }

theorem witness_FailuresAndOutsideWrites_root : inRootPage stRootPage 1310720 = true ∧ (stRootPage.part 1).e.state ≠ 4
    ∧ Tbl.look stRootPage.reverse (1310720 / 65536) = some (1, 20) := by decide +kernel

/-- A store over the scale-up ports, which its home may refuse. -/
theorem witness_FailuresAndOutsideWrites_store : ElementReady (stA .store .none (.dom 64)) 7 0 (aAt .store .none (.dom 64)) (eAt (.dom 64))
    ∧ (aAt .store .none (.dom 64)).kind.storeLike = true :=
  ⟨⟨rfl, rfl, rfl, by decide +kernel, fun d h => by cases h; decide +kernel⟩, rfl⟩

/-! ### Hypotheses of the statements: copies and reductions -/

/-- CPY s2, s4, s5, s6 between virtual memory and scratchpad. -/
def fCpy : Fields := { plainWord with a := .s 4, b := .s 5, c := .s 6, d := .s 2, ext := 0x4 }
def stCpy (src dst n : W64) : State := stG fun g => { g with s := [(4, src), (5, dst), (6, n)] }

theorem witness_Copies : Issuing (stCpy 0x100000 64 16) 3 15 ∧ PolicyOk ((stCpy 0x100000 64 16).group 3) fCpy
    ∧ Delivered ((stCpy 0x100000 64 16).group 3) [fCpy.a, fCpy.b, fCpy.c]
    ∧ sideOf (fCpy.extN 0 2) = .virt ∧ sideOf (fCpy.extN 2 2) = .spad ∧ cpyBar fCpy = none
    ∧ sidesMeet (stCpy 0x100000 64 16) 2 .virt .spad 0x100000 64 16 = false
    ∧ sidesMeet (stCpy 64 64 16) 2 .spad .spad 64 64 16 = true
    ∧ (spad64 (stCpy 0x100000 64 16) 2 (BitVec.ofNat 64 64) 16).isOk = true
    ∧ (hostRange (stCpy 0 64 16) 0 false 0 16).isSome = false ∧ detOwn (stCpy 0 64 16) (st.group 3) .copy 64 16 = false
    ∧ ¬ (1 ≤ (0 : Nat)) ∧ (st.group 3).csr.cp < 255 :=
  ⟨issuing_group _, by unfold PolicyOk Delivered; decide +kernel, by unfold Delivered; decide +kernel, by decide +kernel⟩

/-- A running copy of 16 bytes inside scratchpad; in `stVc` from virtual memory. -/
def yCp : Copy :=
  { gid := 3, tid := 2, part := 0, core := 0, engine := 0, seq := 0, sk := .spad, dk := .spad, src := 0, dst := 64, left := 16
    bar := none, gate := none, since := 0, promise := 0, pol := 0 }
def stY (u : Copy → Copy) : State := { stTlb with copies := [(9, u yCp)] }

theorem witness_Copies_chunk : Tbl.look (stY id).copies 9 = some yCp ∧ yCp.obj = none ∧ yCp.tw ≤ (stY id).m.ftime ∧ yCp.owed = 0
    ∧ yCp.st = .running ∧ yCp.gate = none ∧ SideAt (stY id) yCp .spad false 0 16 (.sp 2 0) ∧ SideAt (stY id) yCp .spad true 64 16 (.sp 2 64)
    ∧ NothingSwept (stY id) ∧ (∀ c ∈ (stY id).copies, c.2.gid = 3 → c.1 = 9) ∧ Tbl.sorted (stY id).copies = true :=
  ⟨by decide +kernel, by decide +kernel, by decide +kernel, by decide +kernel, by decide +kernel, by decide +kernel,
    ⟨2, 0, by decide +kernel⟩, ⟨2, 64, by decide +kernel⟩, by unfold NothingSwept; decide +kernel, by decide +kernel⟩

/-- A page that is not mapped parks it; virtual sides have their places. -/
theorem witness_Copies_fault : ∃ x, engRead (stY id) 0 0 0x4000000 16 = .error x ∧ x.stage2 = false ∧ x.cause ≠ 0x13 := by
  have h : (match engRead (stY id) 0 0 0x4000000 16 with | .error x => !x.stage2 && x.cause != 0x13 | .ok _ => false) = true := by
    decide +kernel
  cases e : engRead (stY id) 0 0 0x4000000 16 with
  | error x => rw [e] at h; simpa using h
  | ok x => rw [e] at h; cases h

theorem one_page (w : Bool) (a : Nat) (h : a ∈ [0x100010, 0x100200, 0x100800]) :
    OnePage stTlb 0 w 0 a 8 (.pa a false false) := by
  fin_cases h <;> cases w <;> exact ok_eq (by decide +kernel)

/-- RED with its control block at 0x100040: I32 sum of two sources of 32 elements, with a flag. -/
def redBlock : List Byte :=
  bytesOfNat 1 2 ++ bytesOfNat 1 2 ++ bytesOfNat 2 1 ++ bytesOfNat 4 32 ++ bytesOfNat 8 0x100100 ++ bytesOfNat 8 0x100800
    ++ bytesOfNat 8 0x100080 ++ bytesOfNat 8 5 ++ bytesOfNat 24 0
def redList : List Byte := bytesOfNat 8 0x100200 ++ bytesOfNat 8 0x100280
def fRed : Fields := { plainWord with a := .s 4 }
def stRed : State :=
  { stTlb with
    mem := (stTlb.mem.store 0x100040 redBlock).store 0x100100 redList
    groups := [(3, { st.group 3 with s := [(4, 0x100040)] })] }

theorem witness_ReductionsInMemory_reads : groupRead stRed (stRed.group 3) (policy (stRed.group 3) fRed) 0x100040 64 = .ok (stRed, redBlock)
    ∧ groupRead stRed (stRed.group 3) (policy (stRed.group 3) fRed) 0x100100 16 = .ok (stRed, redList) := ⟨ok_eq (by decide +kernel), ok_eq (by decide +kernel)⟩

theorem witness_ReductionsInMemory : Issuing stRed 3 15 ∧ PolicyOk (stRed.group 3) fRed ∧ Delivered (stRed.group 3) [fRed.a]
    ∧ (stRed.group 3).ident.part = 0 ∧ storePending stRed 3 0x100040 64 = false ∧ storePending stRed 3 0x100100 16 = false ∧ (∀ x ∈ redBlock.drop 0x28, x = 0)
    ∧ natOfBytes ((redBlock.drop 4).take 4) = 32 ∧ natOfBytes ((redBlock.drop 0x10).take 8) = 0x100800
    ∧ (∀ a ∈ [0x100200, 0x100280], a % 128 = 0 ∧ overlaps a 128 0x100800 128 = false ∧ overlaps 0x100080 8 a 128 = false)
    ∧ overlaps 0x100080 8 0x100800 128 = false ∧ (stRed.group 3).csr.rd < 255 :=
  ⟨issuing_of stRed rfl rfl, by unfold PolicyOk Delivered; decide +kernel, by unfold Delivered; decide +kernel, by decide +kernel⟩

/-- The reduction under way, with the places that its check found: its stripes done, its flag stored. -/
def yRed : Red :=
  { gid := 3, tid := 2, part := 0, seq := 0, op := 2, srcs := [0x100200, 0x100280], count := 32, dst := 0x100800
    flag := some (0x100010, 5), pol := 0
    places := [[(0x100200, .pa 0x100200 false false, 128)], [(0x100280, .pa 0x100280 false false, 128)]]
    dplaces := [(0x100800, .pa 0x100800 false false, 128)], fplaces := [(0x100010, .pa 0x100010 false false, 8)] }
def stRr (u : Red → Red) : State := { stTlb with reds := [(9, u yRed)] }

theorem witness_ReductionsInMemory_stripe : let y := { yRed with checked := true }
    y.stripe 0 = some (0x100800, 128) ∧ cutPlaces y.dplaces 0x100800 128 = [(0x100800, .pa 0x100800 false false, 128)]
    ∧ (∀ x ∈ y.pieces 0x100800 128, goneAway (stRr fun _ => y) x.2.1 = false) ∧ 0 ∉ y.stripes ∧ 0 ∉ y.lost := by decide +kernel

theorem witness_ReductionsInMemory_ends : let y := { yRed with checked := true, stripes := [0] }
    let s := stRr fun _ => y
    Tbl.look s.reds 9 = some y ∧ y.swept = true ∧ y.done = false ∧ y.flagged = false ∧ y.lost = [] ∧ y.fault = none ∧ y.tw ≤ s.m.ftime
    ∧ y.fplaces = [(0x100010, .pa 0x100010 false false, 8)] ∧ NothingSwept s ∧ (∀ c ∈ s.reds, c.2.gid = 3 → c.1 = 9)
    ∧ Tbl.sorted s.reds = true ∧ (Tbl.look s.groups 3).isSome = true :=
  ⟨by decide +kernel, by decide +kernel, by decide +kernel, by decide +kernel, by decide +kernel, by decide +kernel, by decide +kernel,
    rfl, by unfold NothingSwept; decide +kernel, by decide +kernel⟩

/-! ### Hypotheses of the statements: thickets -/

/-- Source at scratchpad 0, destination at 1024; immediate counts 2. -/
def fTh : Fields := { plainWord with a := .s 4, b := .s 5, c := .v 2, ext := 0x0 }
def stTh (a b : W64) : State := stG fun g => { g with s := [(4, a), (5, b)] }

theorem witness_ThicketWords : Issuing (stTh 0 1024) 3 15 ∧ Delivered ((stTh 0 1024).group 3) [fTh.a, fTh.b, .zero]
    ∧ PolicyOk ((stTh 0 1024).group 3) fTh ∧ InSpad (stTh 0 1024) 2 0 512 ∧ InSpad (stTh 0 1024) 2 1024 56
    ∧ spMeets (stTh 0 1024) 2 0 512 1024 56 = false ∧ (stTh 0 1024).flag 1 0 = false ∧ fTh.x.getLsbD 2 = false
    ∧ fTh.c.code.toNat = 2 ∧ ((stTh 0 1024).group 3).csr.th < 255 ∧ ¬ (fTh.extN 0 2 ≠ 0) ∧ ((stTh 0 1024).part 0).e.alloc0 ≠ true
    ∧ ({ fTh with ext := 1 } : Fields).extN 0 2 ≠ 0 ∧ ¬ (1 ≤ ({ fTh with c := .v 0 } : Fields).c.code.toNat) :=
  ⟨issuing_group _, by unfold Delivered; decide +kernel, by unfold PolicyOk Delivered; decide +kernel, ⟨(2, 0), ok_eq (by decide +kernel)⟩,
    ⟨(2, 1024), ok_eq (by decide +kernel)⟩, by decide +kernel⟩

/-- A leaf of zeros stored with one reference, and a twig over it, in namespace 1 of partition 0. -/
def leafName : Nat := 0x381c7862d54b9d0a318da67951811603c9453c368739ec00
def twigBytes : List Byte :=
  bytesOfNat 1 0x54 ++ bytesOfNat 1 1 ++ bytesOfNat 1 1 ++ bytesOfNat 1 0 ++ bytesOfNat 8 256 ++ bytesOfNat 4 0
    ++ bytesOfNat 24 leafName ++ List.replicate 216 0
def twigName : Nat := 0x3194dc69ee4b4ef19ba7a3ac6c52f350c31599ff43a0b7b0
def stObj : State :=
  { stTh 0 1024 with
    objs := [⟨1, leafName, false, List.replicate 256 0, 1⟩, ⟨1, twigName, true, twigBytes, 2⟩]
    parts := Tbl.set st.parts 0 { st.part 0 with e := { (st.part 0).e with pool := 1 }, salts := [0, 0, 0] }
    teams := [(2, { st.team 2 with
      sp := (Mem.store [] 512 twigBytes).store 2048 (bytesOfNat 24 leafName)
      holds := [(1, leafName, 1), (1, twigName, 1)], pins := [(1, leafName)] })] }

theorem leaf_found : findObj stObj 1 leafName = some ⟨1, leafName, false, List.replicate 256 0, 1⟩ := by decide +kernel
/-- A stored leaf, a new content with room in the pool, a count to lower. -/
theorem witness_ThicketWords_store : nameOf 0 false (List.replicate 256 0) = leafName
    ∧ nameOf 0 false (List.replicate 256 1) = 0xc78bb43cd15f6fa1aa5a93fb9823b155952d8c062aa5f1c0
    ∧ (∀ j < 16, findObj stObj 1 (0xc78bb43cd15f6fa1aa5a93fb9823b155952d8c062aa5f1c0 + j) = none) ∧ poolUsed stObj 1 < poolCap stObj 1
    ∧ (∃ o, findObj stObj 1 leafName = some o ∧ o.count ≤ 1) ∧ ∃ o, findObj stObj 1 twigName = some o ∧ 1 < o.count ∧ o.count ≠ 0xFFFFFFFF :=
  ⟨by decide +kernel, by decide +kernel, by decide +kernel, by decide +kernel, ⟨_, leaf_found, by decide⟩,
    ⟨⟨1, twigName, true, twigBytes, 2⟩, by decide +kernel, by decide, by decide⟩⟩

/-- The oldest operation of group 3, of each kind. -/
def stOp (k : ThKind) (src n : Nat) : State :=
  { stObj with thops := [(9, { gid := 3, tid := 2, part := 0, seq := 0, kind := k, ns := 1, src := src, dst := 1024, n := n })] }
def opOf (k : ThKind) (src n : Nat) : ThOp := { gid := 3, tid := 2, part := 0, seq := 0, kind := k, ns := 1, src := src, dst := 1024, n := n }

theorem witness_ThicketProgress (k : ThKind) (h : k ∈ [ThKind.cnam, .cloa, .cget, .ctwg, .cout]) :
    Tbl.look (stOp k 0 2).thops 9 = some (opOf k 0 2) ∧ thReady (stOp k 0 2) 9 (opOf k 0 2) = true
    ∧ spadPlace (stOp k 0 2) 2 0 = some (2, 0) ∧ spadPlace (stOp k 0 2) 2 1024 = some (2, 1024) := by
  fin_cases h <;> decide +kernel

theorem witness_ThicketProgress_items : spaceOf 0 1 = 1 ∧ saltOf (stOp .cloa 0 2) 0 1 = 0
    ∧ spBytes (stOp .cloa 0 2) 2 0 256 = List.replicate 256 0
    ∧ lookAlloc (stOp .cloa 0 2) 1 0 false (List.replicate 256 0) = .ok (true, leafName, stOp .cloa 0 2)
    ∧ ((stOp .cloa 0 2).team 2).ended = false ∧ (1, leafName, 1) ∈ ((stOp .cloa 0 2).team 2).holds
    ∧ (findObj (stOp .cget 2048 2) 1 (natOfBytes (spBytes (stOp .cget 2048 2) 2 2048 24))).isSome = true
    ∧ findObj (stOp .cget 0 2) 1 (natOfBytes (spBytes (stOp .cget 0 2) 2 0 24)) = none
    ∧ (Tbl.look (stOp .cget 0 2).groups 3).isSome = true :=
  ⟨by decide +kernel, by decide +kernel, by decide +kernel, ok_eq (by decide +kernel), by decide +kernel⟩

theorem witness_ThicketProgress_twig : let s := stOp .ctwg 512 1
    spBytes s 2 512 256 = twigBytes ∧ twigForm twigBytes = true ∧ (∀ c ∈ twigKids twigBytes, (findObj s 1 c).isSome = true)
    ∧ twigFits s 1 twigBytes = true ∧ lookAlloc s 1 0 true twigBytes = .ok (true, twigName, s) ∧ (1, twigName, 1) ∈ (s.team 2).holds :=
  ⟨by decide +kernel, by decide +kernel, by decide +kernel, by decide +kernel, ok_eq (by decide +kernel), by decide +kernel⟩

/-- A completed operation alone, and a pruning of two children. -/
theorem witness_ThicketProgress_ends : let s := { stObj with thops := [(9, { opOf .cnam 0 1 with done := true })] }
    (∀ c ∈ s.thops, c.2.gid = 3 → c.1 = 9) ∧ NothingSwept s ∧ Tbl.sorted s.thops = true ∧ (Tbl.look s.groups 3).isSome = true
    ∧ ({ s with prunes := [(1, [leafName, 5])] } : State).prunes = (1, leafName :: [5]) :: [] :=
  ⟨by decide +kernel, by unfold NothingSwept; decide +kernel, by decide +kernel⟩

/-- An operation still under way, and none. -/
theorem witness_ThicketProgress_open : Tbl.look (stOp .cnam 0 2).thops 9 = some (opOf .cnam 0 2) ∧ (opOf .cnam 0 2).done = false
    ∧ NothingSwept (stOp .cnam 0 2) ∧ Tbl.look (stOp .cnam 0 2).thops 5 = none :=
  ⟨by decide +kernel, by decide +kernel, by unfold NothingSwept; decide +kernel, by decide +kernel⟩

/-- RPIN s8 := [s4], RUNP s12, RSWP s2 := [s4], s5, s12 with a root slot at 0x100020 that holds the leaf's name or nothing,
version 7. -/
def fRt : Fields := { plainWord with a := .s 4, b := .s 5, c := .s 12, d := .s 8, ext := 1 }
def stRt (old : Nat) (pins : List (Nat × Nat)) (ver : W64) : State :=
  { stObj with
    tlb := [{ entTlb with root := true, ns := 1 }]
    mem := st.mem.store 0x100020 (bytesOfNat 24 old ++ bytesOfNat 8 7)
    groups := [(3, { st.group 3 with
      s := [(4, 0x100020), (5, ver), (12, BitVec.ofNat 64 leafName), (13, BitVec.ofNat 64 (leafName / 2 ^ 64)), (14, BitVec.ofNat 64 (leafName / 2 ^ 128))] })]
    teams := [(2, { stObj.team 2 with pins := pins })] }

theorem slot_rt (old : Nat) (h : old ∈ [0, leafName, twigName]) (w : Bool) :
    SlotAt (stRt old [(1, leafName)] 7) 0 0x100020 w 0x100020 1 := by
  refine ⟨by decide, by decide +revert +kernel, { entTlb with root := true, ns := 1 }, false, ?_⟩
  fin_cases h <;> cases w <;> exact ⟨ok_eq (by decide +kernel), by decide +kernel, by decide +kernel⟩

theorem witness_RootSlots : Issuing (stRt 0 [(1, leafName)] 7) 3 15 ∧ Delivered ((stRt 0 [(1, leafName)] 7).group 3) ([fRt.a, fRt.b] ++ scalRun fRt.c 3)
    ∧ fRt.d = .s 8 ∧ (stRt 0 [] 7).mem.num 0x100020 32 % 2 ^ 192 = 0 ∧ (stRt leafName [] 7).mem.num 0x100020 32 % 2 ^ 192 = leafName
    ∧ leafName ≠ 0 ∧ (stRt 0 [] 7).mem.num 0x100020 32 / 2 ^ 192 = 7 ∧ ((stRt leafName [] 7).team 2).pins.length < 64
    ∧ 64 ≤ ((stRt leafName (List.replicate 64 (1, 5)) 7).team 2).pins.length ∧ (1, leafName) ∈ ((stRt 0 [(1, leafName)] 7).team 2).pins
    ∧ (stRt 0 [] 7).flag 1 0 = false ∧ allReleased (stRt 0 [] 7) 3 = true
    ∧ allReleased { stRt 0 [] 7 with accesses := [(7, openStore)] } 3 = false
    ∧ findObj (stRt 0 [] 7) 1 leafName = some ⟨1, leafName, false, List.replicate 256 0, 1⟩
    ∧ findObj (stRt 0 [] 7) 1 twigName = some ⟨1, twigName, true, twigBytes, 2⟩ ∧ twigName ≠ leafName :=
  ⟨issuing_of _ (by decide +kernel) (by decide +kernel), by unfold Delivered; decide +kernel, by decide +kernel⟩

/-! ### Hypotheses of the statements: matrix engines -/

/-- MRSV of 4 accumulators at priority 2, with a launch that has an image at 0x100000; and MPASS of program 0. -/
def fMr : Fields := { plainWord with x := 6, imm := 0x204 }
def stMr (rs : Tbl Resv) (imgs : List (Nat × Nat × Mem)) : State :=
  ({ stTlb with
    launches := [(1, { st.launch 1 with r := { (st.launch 1).r with passVa := 0x100000 } })] } : State).setEngine 0
    { resvs := rs, images := imgs }
def rsv : Resv := { tid := 2, lid := 1, prio := 0, nacc := 64 }

theorem witness_PassSetup : Issuing (stMr [] []) 3 15 ∧ Delivered ((stMr [] []).group 3) [.zero, .zero]
    ∧ fMr.x.getLsbD 2 = true ∧ fMr.x.getLsbD 1 = true ∧ fMr.immN 0 8 = 4 ∧ fMr.immN 8 8 = 2 ∧ ((stMr [] []).launch 1).r.passVa ≠ 0
    ∧ resvOf (stMr [] []) 2 = none ∧ resvFits ((stMr [] []).engine 0) 1 4 2048 = true
    ∧ resvFits ((stMr [(0, { rsv with tid := 4 })] []).engine 0) 1 4 2048 = false ∧ (stMr [] []).flag 1 0 = false
    ∧ (∀ x ∈ ((stMr [] []).engine 0).images, x.1 ≠ 1) ∧ (∃ x ∈ ((stMr [] [(1, 2048, [])]).engine 0).images, x.1 = 1)
    ∧ Tbl.look ((stMr [] []).engine 0).resvs 0 = none ∧ (resvOf (stMr [(0, rsv)] []) 2).isSome = true
    ∧ teamPasses (stMr [(0, rsv)] []) 2 = false ∧ teamPasses stB 2 = true :=
  ⟨issuing_of _ (by decide +kernel) (by decide +kernel), by unfold Delivered; decide +kernel, by decide +kernel⟩

theorem witness_PassSetup_image : ∃ bs, readVirt (stMr [] []) 0 0x100000 2048 = .ok (stMr [] [], bs) := by
  have h : (readVirt (stMr [] []) 0 0x100000 2048).toOption.map (·.1) = some (stMr [] []) := by decide +kernel
  cases e : readVirt (stMr [] []) 0 0x100000 2048 with
  | error x => rw [e] at h; cases h
  | ok x => rw [e] at h; exact ⟨x.2, by rw [← Option.some.inj h]⟩

/-- An image whose program 0 begins at 1024. -/
def image0 : List (Nat × Nat × Mem) := [(1, 2048, Mem.store [] 0 (bytesOfNat 4 1024))]

theorem witness_PassSetup_post : Delivered ((stMr [(0, rsv)] image0).group 3) (scalRun fM.a 4) ∧ NothingDue (stMr [(0, rsv)] image0) 3 [.mp]
    ∧ ((stMr [(0, rsv)] image0).group 3).engLost = none ∧ resvOf (stMr [(0, rsv)] image0) 2 = some (0, rsv)
    ∧ (progOffset ((stMr [(0, rsv)] image0).engine 0) 1 0).isSome = true ∧ progOffset ((stMr [(0, rsv)] image0).engine 0) 1 1 = none
    ∧ ((stMr [(0, rsv)] image0).engine 0).queue.length < 64 ∧ ((stMr [(0, rsv)] image0).group 3).csr.mp < 255
    ∧ ∀ x ∈ viewTiles ((stMr [(0, rsv)] image0).group 3),
        ((stMr [(0, rsv)] image0).group 3).anyE x.1 x.2 = false ∧ ((stMr [(0, rsv)] image0).group 3).anyP x.1 x.2 = false :=
  ⟨by unfold Delivered; decide +kernel, ⟨by decide +kernel, fun c hc => absurd hc (by change c ∉ []; simp), by decide +kernel⟩, by decide +kernel⟩

/-- A tile of the view is E, and none is pending. -/
theorem witness_PassSetup_view : let s := stMr [(0, rsv)] image0
    let g := { s.group 3 with vst := [(0, .empty)] }
    (∃ x ∈ viewTiles g, g.anyE x.1 x.2 = true) ∧ ∀ x ∈ viewTiles g, g.anyP x.1 x.2 = false := by decide +kernel

/-- Words of a beam core: accumulator 1, buffer 0, tile t0, scalars s4 and s2. -/
def fMa : Fields := { plainWord with fmt := .bf16, a := .t 0, d := .s 2, ext := 1 }
def fMs : Fields := { plainWord with fmt := .bf16, a := .s 4, d := .a 0, ext := 1 }

theorem witness_BeamMatrix : (∃ r, BeamIssuing stB 0 r) ∧ fMa.extN 0 6 = 1 ∧ 1 < ((stB.engine 0).resv run0).nacc
    ∧ viewFmt run0.pass.tview ≠ 2 ∧ fMa.x.getLsbD 0 = false ∧ (∀ l ∈ run0.latch, l.1 ≠ 0)
    ∧ viewRange run0.pass.tview run0.pass.aview (1024 * (run0.pass.ident.w - run0.pass.ident.k)) (.t 0) = some (0, 2048)
    ∧ (Tbl.look stB.groups 3).isSome = true ∧ (stB.group 3).landDue stB.m.ftime = stB.group 3 ∧ (stB.group 3).anyE 0 2048 = false ∧ (stB.group 3).anyP 0 2048 = false
    ∧ (stB.group 3).badTag 0 2048 (· == tileTag run0.pass.tview) = none ∧ (run0.scal 4).toNat % 64 = 0
    ∧ (spad64 stB 2 (run0.scal 4) 2048).isOk = true ∧ (stB.team 2).core / 4 = 0 :=
  ⟨beam_stB, by decide +kernel⟩

/-- The latch holds the tile, which the word reads without a mark; a word that marks it. -/
theorem witness_BeamMatrix_latch (A : List Byte) : BeamIssuing (stR fun r => { r with latch := some (0, A) }) 0 { run0 with latch := some (0, A) }
    ∧ ({ run0 with latch := some (0, A) } : Run).latch = some (0, A) ∧ fMa.x.getLsbD 0 = false ∧ ({ fMa with x := 1 } : Fields).x.getLsbD 0 = true :=
  ⟨beam_run _, rfl, by decide, by decide⟩

/-- A view of BPB tiles with t0 to t3 in the window, and a reservation of one accumulator that leaves accumulator 1 out. -/
theorem witness_BeamMatrix_bpb : viewFmt 0x80 = 2
    ∧ (∀ m : Fin 4, viewRange 0x80 0 (1024 * 56) (.t ⟨0 + m.val, by omega⟩) = some (1152 * m.val, 1152))
    ∧ ((({ stB.engine 0 with resvs := [(0, { rsv with nacc := 1 })] } : Engine)).resv run0).nacc ≤ 1 := by decide +kernel

theorem witness_DrainIssue : viewRange run0.pass.tview run0.pass.aview (1024 * (run0.pass.ident.w - run0.pass.ident.k)) (.a 0) = some (0, 4096)
    ∧ (Tbl.look stB.groups run0.pass.gid).isSome = true ∧ fMs.a = .s 4 ∧ (run0.scal 4).toNat % 4096 = 0
    ∧ (spad64 stB 2 (run0.scal 4) 4096).isOk = true ∧ polValid (beamPolicy stB run0 fMs) = true
    ∧ stB.flag 1 0 = false := by decide +kernel

/-- A drain's range in virtual memory, its translation known. -/
theorem witness_DrainIssue_places : ∃ l, engPlaces stTlb 0 true 0 0x100000 2048 = .ok (stTlb, l) := by
  have h : (engPlaces stTlb 0 true 0 0x100000 2048).toOption.map (·.1) = some stTlb := by decide +kernel
  cases e : engPlaces stTlb 0 true 0 0x100000 2048 with
  | error x => rw [e] at h; cases h
  | ok x => rw [e] at h; exact ⟨x.2, by rw [← Option.some.inj h]⟩

/-- A queue of two passes on an idle beam core, the first gated. -/
def pass0 : Pass := { run0.pass with args := [1, 2, 3, 4] }
def stQu : State := st.setEngine 0 { resvs := [(0, rsv)], images := image0, queue := [{ pass0 with gate := some 1 }, pass0] }

theorem witness_PassSteps : (stQu.engine 0).run = none ∧ bestPass (stQu.engine 0) stQu.m.ftime = some pass0 ∧ pass0.args.length = 4 := by
  decide +kernel

/-- A drain to scratchpad and one to the window, and a pass that has ended. -/
def drainOf (d : DrainTo) : Drain := { id := 9, dest := d, data := List.replicate 4096 1, add := false, bar := none }
def stDr (d : DrainTo) : State :=
  (stG fun g => { g with prods := [(9, ⟨0, 4096, .f32, [], [], none⟩)], vst := [(0, .empty), (1, .empty), (2, .empty), (3, .empty)] }).setEngine 0
    { stB.engine 0 with run := some { run0 with drains := [drainOf d] } }

theorem witness_PassSteps_drains (d : DrainTo) (h : d ∈ [DrainTo.sp 2 0, .acc 0]) :
    ((stDr d).engine 0).run = some { run0 with drains := [drainOf d] } ∧ (drainOf d).landed = none ∧ (drainOf d).bar = none
    ∧ ((stDr d).team 2).reclaimed = false ∧ (Tbl.look (stDr d).groups 3).isSome = true
    ∧ ((stDr d).group 3).prods = [(9, ⟨0, (drainOf d).data.length, .f32, [], [], none⟩)] ∧ ((stDr d).group 3).st 0 = .empty := by
  fin_cases h <;> decide +kernel

/-- A hung engine whose drain lands at once, and one whose drain completes later. -/
theorem witness_PassSteps_hang : let s := { stDr (.sp 2 0) with m := { st.m with ftime := 10000002 } }
    let late := s.setEngine 0 { s.engine 0 with run := some { run0 with drains := [{ drainOf (.sp 2 0) with landed := some 10000003 }] } }
    let land := fun (s : State) => match exec (.drainLanding 0 9) s with | .next v => v | _ => s
    engineHung (s.engine 0) s.m.ftime = true ∧ (∀ r ∈ ((land s).engine 0).runs, r.drains = []) ∧ NothingSwept (land s)
    ∧ (Tbl.look (land s).groups 3).isSome = true ∧ (∃ r ∈ ((land s).engine 0).runs, r.ended = false ∧ 3 = r.pass.gid)
    ∧ engineHung (late.engine 0) late.m.ftime = true ∧ ∃ r ∈ ((land late).engine 0).runs, r.drains ≠ [] := by
  unfold NothingSwept; decide +kernel

theorem witness_PassSteps_end : let s := stR fun r => { r with ended := true }
    (s.engine 0).run = some { run0 with ended := true } ∧ NothingSwept s ∧ (Tbl.look s.groups 3).isSome = true
    ∧ (s.group 3).mpDone = [] ∧ (∀ o ∈ openPasses s 3, olderSeq run0.pass.seq o = false) ∧ engineHung (s.engine 0) s.m.ftime = false
    ∧ engineHung ((stR id).engine 0) 10000002 = true :=
  ⟨by decide +kernel, by unfold NothingSwept; decide +kernel, by decide +kernel⟩

/-! ### Hypotheses of the statements: frozen arrays -/

/-- A binding of 512 rows and columns on die 0, granted to partition 0, with one tile; its blocks stand in memory as zeros. -/
def bind0 (state : Nat) : BindE :=
  { state := state, j := 4, din := 512, dout := 512, grant := 1, dies := 1, map := 0x200000, colE := 0x200100, rowE := 0x200300
    fwd := 0x200800, tra := 0x204800 }
/-- Binding 0 of `stLy` in a state; the launch with privilege, its partition with die 0. -/
def stLy (state : Nat) (u : Group → Group) : State :=
  { stG u with
    binds := [(0, bind0 state)]
    m := { st.m with dieok := 1 }
    parts := Tbl.set st.parts 0 { st.part 0 with e := { (st.part 0).e with dies := [0] } } }
/-- LAYR v2 := [s4] of binding 0 at 0. -/
def fLy : Fields := { plainWord with a := .s 4, d := .v 2 }

theorem witness_LayerWords : Issuing (stLy 2 id) 3 15 ∧ Delivered ((stLy 2 id).group 3) [fLy.a, fLy.b] ∧ fLy.d = .v 2
    ∧ ((stLy 2 id).group 3).csr.ar < 255 ∧ RefsOk ((stLy 2 id).group 3) [] [(fLy.d, 2)] ∧ RefsOk ((stLy 2 id).group 3) [] [(fLy.d, 1)]
    ∧ ((stLy 2 id).group 3).anyE (1024 * 2) 2048 = false ∧ ((stLy 2 id).launch 1).priv = true
    ∧ ((stLy 2 id).setLaunch 1 { (stLy 2 id).launch 1 with priv := false }).flag 1 0 = false :=
  ⟨issuing_of _ rfl rfl, by unfold Delivered; decide +kernel, by decide +kernel, by decide +kernel, by unfold RefsOk; decide +kernel,
    by unfold RefsOk; decide +kernel, by decide +kernel⟩

/-- Each check of `LayerChecks` can be the first that fails. -/
theorem witness_LayerWords_checks : bindIndex fLy = 0 ∧ startOf ((stLy 0 id).group 3) fLy = 0 ∧ inputOf ((stLy 2 id).group 3) fLy = 0
    ∧ ((stLy 0 id).bind 0).state ≠ 2 ∧ ((stLy 2 id).bind 0).grant.getLsbD 0 = true ∧ ((stLy 2 id).bind 0).grant.getLsbD 1 = false
    ∧ (diesOf ((stLy 2 id).bind 0).dies) = [0] ∧ ((stLy 2 id).part 0).e.dies = [0] ∧ ((st.part 0).e.dies) = []
    ∧ (257 : Nat) % 256 ≠ 0 ∧ ¬ (512 < ((stLy 2 id).bind 0).din) ∧ ¬ (65536 ≤ 32768) ∧ (32 : Nat) % 64 ≠ 0
    ∧ (spad (stLy 2 id) 2 0 1024).isOk = true ∧ (spad (stLy 2 id) 2 65472 1024).isOk = false ∧ (stLy 2 id).m.dieok.getLsbD 0 = true
    ∧ st.m.dieok.getLsbD 0 = false := by decide +kernel

theorem witness_LayerWords_issue : fLy.d = .v 2 ∧ ((stLy 2 id).group 3).cap.mode = 0 ∧ spad (stLy 2 id) 2 0 1024 = .ok (2, 0)
    ∧ NoOlderStore (stLy 2 id) 3 2 0 1024 ∧ 0 < ((stLy 2 id).group 3).ident.k ∧ (((stLy 2 id).group 3).slot 0).busy = false
    ∧ (((stLy 2 fun g => { g with slots := [(0, { busy := true })] }).group 3).slot 1).busy = false
    ∧ ∀ k < 8, (((stLy 2 fun g => { g with slots := [0, 1, 2, 3, 4, 5, 6, 7].map fun k => (k, { busy := true }) }).group 3).slot k).busy = true :=
  ⟨rfl, by decide +kernel, ok_eq (by decide +kernel), by unfold NoOlderStore; decide +kernel, by decide +kernel⟩

theorem witness_Quantiser : (∀ x ∈ [0x3F80, 0xC2FE], x < 2 ^ 16) ∧ (∀ x ∈ [0x3F80, 0xC2FE], x % 2 ^ 15 < 0x7F80)
    ∧ (∃ x ∈ [0x3F80, 0xC2FE], x % 2 ^ 15 ≠ 0) ∧ (∃ x ∈ [0xFF80], 0x7F80 ≤ x % 2 ^ 15) ∧ ∀ x ∈ [0, 0x8000], x % 2 ^ 15 = 0 := by
  decide

/-- A LAYR in flight whose result is known, with its destination. -/
def arrOf (d : ArrDest) : ArrOp :=
  { gid := 3, tid := 2, part := 0, lid := 1, seq := 0, trans := false, dest := d, bind := 0, gen := 0, start := 0, j := 4, k := 0
    exps := List.replicate 256 127, tiles := [⟨0, 0, 0⟩], root := 7, din := 512, dout := 512, input := List.replicate 512 1
    invalid := false, shadow := false, sums := some (List.replicate 256 3) }
def stAr (b : Nat) (o : ArrOp) : State :=
  { stLy b (fun g => { g with slots := [(0, { busy := true, epoch := 1 })], vst := [(2, .empty)], prods := [(9, ⟨2048, 1024, .f32, [], [], none⟩)] }) with
    arrops := [(9, o)] }

theorem witness_Arrivals (d : ArrDest) (h : d ∈ [ArrDest.slot 0 1, .slot 0 2, .direct 2 [] [], .probe 2]) :
    Tbl.look (stAr 3 (arrOf d)).accesses 9 = none ∧ Tbl.look (stAr 3 (arrOf d)).arrops 9 = some (arrOf d) ∧ (arrOf d).known = true
    ∧ (arrOf d).record = none ∧ (arrOf d).tw ≤ (stAr 3 (arrOf d)).m.ftime ∧ (arrOf d).cancelled = false
    ∧ (Tbl.look (stAr 3 (arrOf d)).groups 3).isSome = true ∧ Tbl.sorted (stAr 3 (arrOf d)).arrops = true
    ∧ (∀ c ∈ (stAr 3 (arrOf d)).arrops, c.2.gid = 3 → c.1 = 9) := by
  fin_cases h <;> decide +kernel

/-- The slot's epoch matches, and does not; vd is E and owed; a retiring binding's last operation. -/
theorem witness_Arrivals_clauses : let s := stAr 3 (arrOf (.slot 0 1))
    ((s.group 3).slot 0).busy = true ∧ ((s.group 3).slot 0).epoch = 1 ∧ ((s.group 3).slot 0).epoch ≠ 2
    ∧ (s.group 3).prods = [(9, ⟨1024 * 2, 1024, .f32, [], [], none⟩)] ∧ (s.group 3).st 2 = .empty ∧ (s.bind 0).state = 3
    ∧ ∀ c ∈ s.arrops, c.1 ≠ 9 → c.2.bind ≠ 0 := by decide +kernel

theorem witness_Arrivals_late (ep : BitVec 32) (h : ep ∈ [(1 : BitVec 32), 2]) :
    let a := { aAt (.late 0 ep) .none (.sp 2 16) with elems := [{ eAt (.sp 2 16) with st := .done }] }
    let s := { stAr 2 (arrOf (.probe 2)) with accesses := [(7, a)] }
    Tbl.look s.accesses 7 = some a ∧ a.kind = .late 0 ep ∧ (∀ e ∈ a.elems, e.st = .done) ∧ (a.elems.map (·.lane)).Nodup
    ∧ (Tbl.look s.groups a.gid).isSome = true ∧ polLease a.pol = 0 ∧ polLease ({ a with pol := 0x10000 } : Access).pol ≠ 0 ∧ a.elems.length = 1 := by
  fin_cases h <;> decide +kernel

/-- A late load of a place on a module that has left, and one in reach. -/
theorem witness_Arrivals_gone : goneAway { st with m := { st.m with left := [5] } } (.dom (5 * 2 ^ 46 + 64)) = true
    ∧ goneAway st (.dom (5 * 2 ^ 46 + 64)) = false ∧ outOfReach st (.pa 0x100008 false false) 8 = false := by decide +kernel

/-- An operation under way: sent or not, with a product that has ended in its seat; its owner has slots both ways, an epoch the
provider's. -/
def arrRun (shadow : Bool) (sent : Tbl Nat) (d : ArrDest) : ArrOp :=
  { arrOf d with sums := none, shadow := shadow, sent := sent, deadline := 50000, part := if d = .epoch then 30 else 0 }
def stRun (o : ArrOp) : State :=
  { stAr 2 o with
    dies := [(0, { reqOwner := [(3, 0), (5, 30)], rspOwner := [(4, 0), (6, 30)], running := [⟨0, 9, 0, 0, true⟩] })] }

theorem witness_ArraySteps (d : ArrDest) (h : d ∈ [ArrDest.slot 0 1, .epoch]) : let o := arrRun false [(0, 1)] d
    let s := stRun o
    Tbl.sorted s.arrops = true ∧ Tbl.look s.arrops 9 = some o ∧ o.underway = true ∧ o.tiles[0]? = some ⟨0, 0, 0⟩
    ∧ (∃ p ∈ (s.die 0).running, p.op = 9 ∧ p.tile = 0 ∧ p.till ≤ s.m.ftime)
    ∧ (∀ c ∈ s.dies, ∀ p ∈ c.2.running, p.op = 9 → p.tile = 0 → p.till ≤ s.m.ftime → c.1 = 0 ∧ p.live = true)
    ∧ s.m.ftime < o.deadline ∧ (∃ k < 256, slotOwner (s.die 0).rspOwner k = o.owner) ∧ o.sent ≠ [] ∧ o.shadow = false := by
  fin_cases h <;> decide +kernel

/-- Waiting for a slot: its owner's, or, for an epoch, the provider's or a partition's that has nothing to send. Ports to no
avail, slot owners that the table takes and refuses, and an epoch's deadline that has come. -/
theorem witness_ArraySteps_slots : let o := arrRun false [] (.slot 0 1)
    let e := arrRun false [] .epoch
    let s := stRun o
    Tbl.look o.sent 0 = none ∧ (∃ t ∈ o.tiles, t.die = 0) ∧ slotOwner (s.die 0).reqOwner 3 = o.owner ∧ slotOwner (s.die 0).reqOwner 5 = 30
    ∧ (lentNow (stRun e) ((stRun e).die 0) 0 < 5 ∧ ∀ c ∈ (stRun e).arrops, c.2.owner ≠ 0) ∧ s.rowReqs = []
    ∧ (∀ c ∈ s.arrops, ∀ t ∈ c.2.tiles, t.die ≠ 1) ∧ nextRow s 1 31 = none ∧ (s.part 0).e.state ≠ 0 ∧ (s.part 5).e.state = 0
    ∧ (50000 ≤ ({ s with m := { s.m with ftime := 50000 } } : State).m.ftime) ∧ e.dest = .epoch := by decide +kernel

/-- Before and after the CRC failure that is counted. -/
theorem witness_ArraySteps_crc : (arrRun false [(0, 1)] (.slot 0 1)).crc = false ∧ ({ arrRun false [(0, 1)] (.slot 0 1) with crc := true } : ArrOp).crc = true
    ∧ (arrRun false [(0, 1)] (.slot 0 1)).shadow = false := by decide +kernel

theorem witness_ArraySteps_ideal : let o := arrRun true [] (.slot 0 1)
    (∀ c ∈ (stRun o).arrops, c.2.shadow ≠ false) ∧ o.ideals (stRun o) = none ∧ o.shadow = true ∧ (stRun o).m.ftime < o.deadline := by decide +kernel

/-- Every weight of an image that stands in one object. -/
theorem weight_of {s : State} (f : findObj s 0 7 = some ⟨0, 7, false, List.replicate 262144 1, 1⟩) (i c : Nat) (hi : i < 512) (hc : c < 512) :
    weightAt s 7 512 512 i c = some (bp8W 1) := by
  have e : imageLeaf s 8 7 (i * 512 + c) = some (7, i * 512 + c) := by
    rw [imageLeaf, f]; rfl
  have b : (List.replicate 262144 (1 : Byte))[i * 512 + c]? = some 1 := by
    rw [List.getElem?_replicate, if_pos (by omega)]
  rw [weightAt, if_neg (by omega), imageByte, e]
  simp only [f, b]
  rfl

/-- The statement asks nothing of the objects' sizes. -/
theorem witness_ArraySteps_shadow : let s := { stRun (arrRun true [] (.slot 0 1)) with objs := [⟨0, 7, false, List.replicate 262144 1, 1⟩] }
    ∀ k < 512, ∀ l < 256, weightAt s 7 512 512 k (0 + l) = some (bp8W 1) :=
  fun k hk l hl => weight_of rfl k (0 + l) hk (by omega)

/-- ABND of binding 0 from binding 1, with a candidate block at 0x100000 whose exponents are 1. -/
def fBn : Fields := { plainWord with a := .s 4, d := .s 2, imm := 0x100 }
def candBytes : List Byte := bytesOfNat 32 0x400 ++ bytesOfNat 4 512 ++ bytesOfNat 4 512 ++ bytesOfNat 4 1 ++ bytesOfNat 4 0
  ++ bytesOfNat 16 0 ++ bytesOfNat 8 0x100 ++ bytesOfNat 8 0x100 ++ bytesOfNat 8 0x100800 ++ bytesOfNat 4 0 ++ bytesOfNat 2 1
  ++ List.replicate 34 0
def stBn (b0 b1 : Nat) : State :=
  { stTlb with
    mem := (st.mem.store 0x100000 candBytes).store 0x100 (List.replicate 512 1)
    groups := [(3, { st.group 3 with s := [(4, 0x100000)] })]
    launches := [(1, { st.launch 1 with priv := true })]
    binds := [(0, bind0 b0), (1, bind0 b1)]
    m := { st.m with dieok := 1 }
    parts := Tbl.set st.parts 0 { st.part 0 with e := { (st.part 0).e with dies := [0] } }
    dies := [(0, { tiles := [(0, { committed := List.range 512 })] })] }

theorem cand_length : candBytes.length = 128 := by decide +kernel

theorem bn_block (b0 b1 : Nat) : groupRead (stBn b0 b1) ((stBn b0 b1).group 3) (policy ((stBn b0 b1).group 3) fBn) 0x100000 128
    = .ok (stBn b0 b1, candBytes) := by
  refine group_page (e := entTlb) rfl (by decide) (by decide) rfl ?_ rfl rfl
    (by change polLease (policy { st.group 3 with s := [(4, 0x100000)] } fBn) = 0; decide +kernel) (by decide)
  refine (Mem.bytes_congr (k := st.mem.store 0x100000 candBytes) fun i _ => Mem.read_store_other _ ?_).trans ?_
  · exact .inr (by change 0x100 + (List.replicate 512 (1 : Byte)).length ≤ 1048576 + i; rw [List.length_replicate]; omega)
  · have h := Mem.bytes_store_same st.mem 0x100000 candBytes
    rwa [cand_length] at h

theorem bn_map (b0 b1 : Nat) (a : Nat) (h : a ∈ [0x100800, 0x200000]) : (stBn b0 b1).mem.num a 4 = 0 := by
  refine (Mem.num_store_other _ ?_).trans ((Mem.num_store_other _ ?_).trans ?_)
  · rw [List.length_replicate]; fin_cases h <;> decide
  · rw [cand_length]; fin_cases h <;> decide
  · fin_cases h <;> decide +kernel

theorem bn_exps (b0 b1 : Nat) : Mem.bytes (stBn b0 b1).mem 0x100 512 = List.replicate 512 1 := by
  have h := Mem.bytes_store_same (st.mem.store 0x100000 candBytes) 0x100 (List.replicate 512 1)
  rwa [List.length_replicate] at h

theorem bn_cand (b0 b1 : Nat) : candidateOk (stBn b0 b1) candBytes = true := by
  have e : BindE.ofBytes candBytes = { din := 512, dout := 512, grant := 1, dies := 1, map := 0x100800, colE := 0x100, rowE := 0x100, j := 4 } := by
    decide +kernel
  have w : mapWords (stBn b0 b1) (BindE.ofBytes candBytes) = [0] := by
    rw [e]; simp [mapWords, BindE.blocks, mapWord, bn_map]
  have n : ∀ k ∈ [(2, 2), (0x2B, 1), (0x5E, 34)], natOfBytes ((candBytes.drop k.1).take k.2) = 0 := by decide +kernel
  simp only [candidateOk, tilesOf, w, n _ List.mem_cons_self, n _ (List.mem_cons_of_mem _ List.mem_cons_self),
    n _ (List.mem_cons_of_mem _ (List.mem_cons_of_mem _ List.mem_cons_self))]
  rw [e]
  simp only [colExps, rowExps, bn_exps, List.map_replicate]
  simp [shapeOk, Tile.ofWord]
  decide

theorem bn_tiles (b0 b1 k : Nat) : tilesOf (stBn b0 b1) (bind0 k) = [⟨0, 0, 0⟩] := by
  simp [tilesOf, mapWords, BindE.blocks, mapWord, bind0, bn_map]; decide

theorem bn_trust (b0 b1 : Nat) : tileTrusted (stBn b0 b1) ⟨0, 0, 0⟩ = true := by
  have h : ((stBn b0 b1).die 0).tile 0 0 = { committed := List.range 512 } := rfl
  have j : Tbl.get [] ((stBn b0 b1).die 0).journal 0 = [] := rfl
  simp only [tileTrusted, h, j]
  simp

theorem witness_BindingsAndCapture : Issuing (stBn 0 0) 3 15 ∧ Delivered ((stBn 0 0).group 3) [fBn.a] ∧ storePending (stBn 0 0) 3 0x100000 128 = false
    ∧ ((stBn 0 0).bind 0).state = 0 ∧ candidateOk (stBn 0 0) (List.replicate 128 0) = false ∧ ((stBn 0 0).launch 1).priv = true
    ∧ ¬ (tilesOf st { bind0 0 with dout := 1024 }).Nodup :=
  ⟨issuing_of _ (by decide +kernel) (by decide +kernel), by unfold Delivered; decide +kernel, by decide +kernel⟩

/-- Publication of binding 1 into binding 0 fails no check, or the first; a retirement with and without an operation in flight. -/
theorem witness_BindingsAndCapture_publish : bindIndex fBn = 0 ∧ (fBn.imm.extractLsb' 8 8).toNat = 1 ∧ ((stBn 2 1).bind 1).state = 1
    ∧ ((stBn 2 1).bind 0).state = 2 ∧ tileTaken (stBn 2 1) (some 0) ⟨0, 0, 0⟩ = false
    ∧ ((stBn 2 1).m.incomplete.any (·.2 == (bind0 1).root)) = false ∧ ((diesOf (bind0 1).dies).any fun d => !(stBn 2 1).m.dieok.getLsbD d) = false
    ∧ ((stBn 2 0).bind 1).state ≠ 1 ∧ inFlight (stBn 2 1) 0 none = false ∧ inFlight (stRun (arrRun false [(0, 1)] (.slot 0 1))) 0 none = true := by decide +kernel

theorem witness_BindingsAndCapture_log : let s := stBn 2 1
    (s.setLaunch 1 { s.launch 1 with r := { (s.launch 1).r with flags := 4 } }).flag 1 2 = true ∧ s.flag 1 2 = false ∧ s.flag 1 0 = false
    ∧ (0x100020 : W64).toNat % 64 ≠ 0 ∧ ((s.group 3).scal 4).toNat % 64 = 0 ∧ ((s.bind 0).grant.getLsbD 0 = true) := by decide +kernel

/-- A log in deterministic mode: outside every range from its first byte; with two ranges that meet, inside; and past their end. -/
theorem witness_BindingsAndCapture_ranges :
    let two : List Machine.Range := [⟨0, 0x100000, 1000, false⟩, ⟨0, 0x1003E8, 40, false⟩, ⟨0, 0x100410, 8, true⟩]
    let own := fun (rs : List Machine.Range) (a : Nat) => ∃ r ∈ rs, r.team = 0 ∧ r.shared = false ∧ r.va ≤ a ∧ a < r.va + r.len
    (∀ r ∈ ([] : List Machine.Range), r.team ≠ 0) ∧ (∀ a, 0x100000 ≤ a → a < 0x100000 + 1040 * 1 → own two a) ∧ ¬ own two 0x100410
    ∧ ((stBn 2 1).group 3).ident.team = 0 := by
  refine ⟨by simp, fun a h1 h2 => ?_, ?_, by decide +kernel⟩
  · by_cases h : a < 0x1003E8
    · exact ⟨_, List.mem_cons_self, rfl, rfl, h1, by simpa using h⟩
    · exact ⟨_, List.mem_cons_of_mem _ List.mem_cons_self, rfl, rfl, by simpa using h, by simp; omega⟩
  · rintro ⟨r, hr, h⟩
    simp only [List.mem_cons, List.not_mem_nil, or_false] at hr
    rcases hr with rfl | rfl | rfl <;> simp at h

/-! ### Hypotheses of the statements: Topiary, rows and shards -/

/-- Binding 0 published and due, its image in one object, no epoch in progress. -/
def stTop (es : List Epoch) : State :=
  { stLy 2 id with binds := [(0, { bind0 2 with root := 7 })], due := [(0, 0)], epochs := es, objs := [⟨0, 7, false, List.replicate 262144 1, 1⟩] }

theorem witness_Topiary : 2 ≤ (0x108 : BitVec 32).toNat % 128 ∧ (0x108 : BitVec 32).toNat % 128 ≤ 64 ∧ (1 : BitVec 32).toNat % 128 < 2
    ∧ ((stTop []).bind 0).state = 2 ∧ (Tbl.get {} (stTop []).topset 0).on = true ∧ Tbl.look (stTop []).due 0 = some 0
    ∧ 0 ≤ (stTop []).m.ftime ∧ (stTop []).epochs = []
    ∧ (∀ c ∈ (stTop []).due, c.1 < 0 → epochReady (stTop []) c.1 = false ∨ imageWhole (stTop []) ((stTop []).bind c.1) = false)
    ∧ imageWhole { stTop [] with objs := [] } (({ stTop [] with objs := [] } : State).bind 0) = false ∧ ¬ (0 < (stTop []).m.ftime)
    ∧ epochReady (stTop []) 0 = true ∧ (stTop []).arrops = [] := by decide +kernel

theorem witness_Topiary_whole : imageWhole (stTop []) ((stTop []).bind 0) = true := by
  have f : findObj (stTop []) 0 7 = some ⟨0, 7, false, List.replicate 262144 1, 1⟩ := rfl
  have b : (stTop []).bind 0 = { bind0 2 with root := 7 } := rfl
  rw [imageWhole, b, show objData (stTop []) 0 8 7 = some (List.replicate 262144 1) by rw [objData, f]; rfl]
  exact decide_eq_true (by rw [List.length_replicate]; decide)

/-- An epoch at its second probe, and one whose probes are all measured. -/
def epochOf (k : Nat) : Epoch :=
  { bind := 0, gen := 0, base := 0, n := 2, sigF := List.replicate k [], sigT := List.replicate k [], yF := List.replicate k [], yT := List.replicate k [] }

theorem sumOpt_some : ∀ (l : List (Option Int)) (a : Int), (∀ x ∈ l, x.isSome = true) →
    (l.foldl (fun a x => a.bind fun a => x.map (a + ·)) (some a)).isSome = true
  | [], _, _ => rfl
  | x :: l, a, h => by
    obtain ⟨v, rfl⟩ := Option.isSome_iff_exists.mp (h x List.mem_cons_self)
    exact sumOpt_some l (a + v) fun y hy => h y (List.mem_cons_of_mem _ hy)

/-- Every ideal value of a probe is known where the image is: here of a binding of 512 rows and columns. -/
theorem probe_ideals {s : State} (f : findObj s 0 7 = some ⟨0, 7, false, List.replicate 262144 1, 1⟩) {b : BindE}
    (hr : b.root = 7) (hi : b.din = 512) (ho : b.dout = 512) (tr : Bool) (x : List Int) : ∃ y, probeIdeals s b tr x = some y := by
  have w : ∀ i c, i < 512 → c < 512 → (weightAt s 7 512 512 i c).isSome = true := fun i c hi hc => by
    rw [weight_of f i c hi hc]; rfl
  have q : ∀ r < 512, (idealAt s 7 512 512 b.j tr x 0 r).isSome = true := fun r hr => by
    rw [idealAt, Option.isSome_map]
    refine sumOpt_some _ 0 fun v hv => ?_
    obtain ⟨i, hi, rfl⟩ := List.mem_map.mp hv
    have hi := List.mem_range.mp hi
    cases tr <;> simp only [Bool.false_eq_true, if_true, if_false, Option.isSome_map] <;> exact w _ _ (by omega) (by omega)
  have all : ((List.range 512).map fun r => sumOpt ((List.range 1).map fun t => idealAt s 7 512 512 b.j tr x t r)).all (·.isSome) = true := by
    refine List.all_eq_true.mpr fun v hv => ?_
    obtain ⟨r, hr, rfl⟩ := List.mem_map.mp hv
    refine sumOpt_some _ 0 fun v hv => ?_
    simp only [List.range_one, List.map_cons, List.map_nil, List.mem_singleton] at hv
    exact hv ▸ q r (List.mem_range.mp hr)
  rw [probeIdeals, hr, hi, ho]
  cases tr <;> exact ⟨_, if_pos all⟩

theorem witness_Topiary_ideals (tr : Bool) (x : List Int) : ∃ y, probeIdeals (stTop []) ((stTop []).bind 0) tr x = some y :=
  probe_ideals rfl rfl rfl rfl tr x

/-- A probe's requests, one of them known, one not. -/
def stProbe (o : ArrOp) : State := { stTop [{ bind := 0, gen := 0, base := 0, n := 2 }] with arrops := [(9, o)] }

theorem witness_Topiary_probes : let o := { arrOf .epoch with part := 30 }
    (∃ c ∈ (stProbe o).arrops, c.2.bind = 0 ∧ c.2.dest = .epoch) ∧ (∀ c ∈ (stProbe o).arrops, c.2.known = true)
    ∧ (∀ c ∈ (stProbe o).arrops, ∀ d ∈ (stProbe o).arrops, d.2.start = c.2.start → d = c) ∧ o.start % 256 = 0
    ∧ o.start + 256 ≤ ((stProbe o).bind 0).dout ∧ ({ o with sums := none } : ArrOp).known = false := by decide +kernel

theorem witness_Topiary_epoch : (stTop [epochOf 1]).epochs = [epochOf 1] ∧ (epochOf 1).bind = 0 ∧ (epochOf 1).sigF.length < (epochOf 1).n
    ∧ (epochOf 2).n ≤ (epochOf 2).sigF.length
    ∧ (let b := (stTop []).bind 0; b.tra + 16 * b.din ≤ b.fwd ∨ b.fwd + 16 * b.dout ≤ b.tra) := by decide +kernel

/-- ESPL of row 5 of tile 0 with its block at 0x100000, the two leaves 7 and 8. -/
def rowBlock : List Byte := bytesOfNat 1 0 ++ bytesOfNat 1 0 ++ bytesOfNat 2 0 ++ bytesOfNat 2 0 ++ bytesOfNat 2 5 ++ bytesOfNat 8 0x100800
  ++ bytesOfNat 24 7 ++ bytesOfNat 24 8
def stEs (reqs : Tbl RowReq) : State :=
  { stTlb with
    mem := st.mem.store 0x100000 rowBlock
    groups := [(3, { st.group 3 with s := [(4, 0x100000)] })]
    m := { st.m with dieok := 1 }
    rowReqs := reqs, nextId := 20
    objs := [⟨0, 7, false, List.replicate 256 0, 1⟩, ⟨0, 8, false, List.replicate 256 0, 1⟩] }

theorem rowBlock_length : rowBlock.length = 64 := by decide +kernel

theorem witness_RowPrograms_block (reqs : Tbl RowReq) : groupRead (stEs reqs) ((stEs reqs).group 3) (policy ((stEs reqs).group 3) fRed)
    0x100000 64 = .ok (stEs reqs, rowBlock) := by
  refine group_page (e := entTlb) rfl (by decide) (by decide) rfl ?_ rfl rfl
    (by change polLease (policy { st.group 3 with s := [(4, 0x100000)] } fRed) = 0; decide +kernel) (by decide)
  have h := Mem.bytes_store_same st.mem 0x100000 rowBlock
  rwa [rowBlock_length] at h

theorem witness_RowPrograms : Issuing (stEs []) 3 15 ∧ Delivered ((stEs []).group 3) [fRed.a] ∧ ((stEs []).launch 1).priv = true
    ∧ storePending (stEs []) 3 0x100000 64 = false ∧ natOfBytes (rowBlock.take 1) = 0 ∧ natOfBytes ((rowBlock.drop 6).take 2) = 5
    ∧ natOfBytes ((rowBlock.drop 8).take 8) % 8 = 0 ∧ natOfBytes ((rowBlock.drop 0x28).take 24) = 8 ∧ (stEs []).m.dieok.getLsbD 0 = true
    ∧ (((stEs []).die 0).tile 0 0).state ≤ 1 ∧ tileTaken (stEs []) none ⟨0, 0, 0⟩ = false ∧ (stEs []).rowReqs = []
    ∧ (findObj (stEs []) 0 7).isSome = true ∧ (findObj (stEs []) 0 8).isSome = true ∧ st.m.dieok.getLsbD 0 = false
    ∧ tileTaken (stLy 2 id) none ⟨0, 0, 0⟩ = true :=
  ⟨issuing_of _ (by decide +kernel) (by decide +kernel), by unfold Delivered; decide +kernel, by decide +kernel⟩

/-- The request under way in a phase and attempt. -/
def rowReq (phase attempt : Nat) : RowReq :=
  { die := 0, plot := 0, tile := 0, row := 5, leaf0 := 7, leaf1 := 8, word := some (0x100800, 0), phase := phase, attempt := attempt
    sent := true, weights := List.replicate 512 0 }
def stRow (phase attempt : Nat) : State :=
  { stEs [(9, rowReq phase attempt)] with dies := [(0, { tiles := [(0, { state := 1 })] })] }

theorem witness_RowPrograms_steps (phase attempt : Nat) (h : (phase, attempt) ∈ [(0, 1), (1, 1), (1, 2), (2, 1), (2, 2)]) :
    let s := stRow phase attempt
    Tbl.look s.rowReqs 9 = some (rowReq phase attempt) ∧ 9 < s.nextId ∧ s.m.dieok.getLsbD 0 = true ∧ tileTaken s none ⟨0, 0, 0⟩ = false
    ∧ (Tbl.get [] (s.die 0).journal 0).length < 8192 ∧ ((s.die 0).tile 0 0).state = 1 ∧ ((s.die 0).tile 0 1024).state = 3
    ∧ (rowReq phase attempt).dwell ≤ s.m.ftime ∧ (findObj s 0 7).isSome = true
    ∧ (∀ c ∈ s.rowReqs, c.1 < 9 → ¬ (c.2.die = 0 ∧ c.2.plot = 0 ∧ c.2.tile = 0 ∧ c.2.row = 5)) := by
  simp only [List.mem_cons, Prod.mk.injEq, List.not_mem_nil, or_false] at h
  rcases h with ⟨rfl, rfl⟩ | ⟨rfl, rfl⟩ | ⟨rfl, rfl⟩ | ⟨rfl, rfl⟩ | ⟨rfl, rfl⟩ <;> decide +kernel

/-- Its completion word has its place; a taken tile refuses it. -/
theorem witness_RowPrograms_word : OnePage (stRow 2 1) 0 true 0x00400000 0x100800 8 (.pa 0x100800 false false)
    ∧ tileTaken { stRow 0 1 with binds := [(0, bind0 2)] } none ⟨0, 0, 0⟩ = true ∧ (stRow 2 1).m.ftime < 5 :=
  ⟨ok_eq (by decide +kernel), by decide +kernel⟩

/-- A request that waits for its leaves: here, given up, or about to travel in the provider's slot 5. -/
def stRowIn (lost : List (Nat × Nat)) : State :=
  { stEs [(9, { rowReq 0 1 with sent := false, weights := [] })] with
    m := { (stEs []).m with incomplete := lost }, dies := [(0, { reqOwner := [(5, 30)] })] }

theorem witness_RowPrograms_leaves : (rowReq 0 1).leaf0 ≠ 0 ∧ (stRowIn []).m.incomplete = []
    ∧ (∀ r ∈ imageRoots (stRowIn [(7, 0)]) ⟨0, 0, 0⟩, (7, r) ∈ (stRowIn [(7, 0)]).m.incomplete) ∧ imageRoots (stRowIn []) ⟨0, 0, 0⟩ ≠ [] ∧ findObj { stRowIn [] with objs := [] } 0 7 = none
    ∧ slotOwner ((stRowIn []).die 0).reqOwner 5 = 30 ∧ (stRowIn []).arrops = [] ∧ Tbl.sorted (stRowIn []).rowReqs = true
    ∧ (findObj (stRowIn []) 0 7).isSome = true ∧ (findObj (stRowIn []) 0 8).isSome = true
    ∧ (∀ c ∈ (stRowIn []).rowReqs, c.1 < 9 → c.2.sent = true) := by decide +kernel

/-- A leaf of zeros in the provider's inbox, asked for under its own name or another, with a tail of `pad`. -/
def stSh (name attempt pad : Nat) : State :=
  { st with
    mem := (st.mem.putNum 0x1010000 24 name).putNum 0x1010018 8 pad
    m := { st.m with providerPool := 1, ftime := 2 ^ 30, shardRing := 0x1000000 }
    objs := [⟨0, leafName, false, List.replicate 256 0, 1⟩]
    shards := [⟨name, attempt, 0, none⟩] }

theorem witness_Shards : (0x1010000 = 288 * 0 + ((stSh leafName 1 0).m.shardRing + 65536)) ∧ (stSh leafName 1 0).m.shardRing ≠ 0
    ∧ (stSh leafName 1 0).mem.num 0x1010000 24 = leafName ∧ (stSh leafName 1 0).mem.num (0x1010000 + 24) 8 = 0
    ∧ (stSh leafName 1 0).mem.bytes (0x1010000 + 32) 256 = List.replicate 256 0 ∧ (stSh leafName 1 1).mem.num (0x1010000 + 24) 8 ≠ 0
    ∧ (stSh leafName 1 0).shards.find? (fun y => y.name == leafName && y.part == none) = some ⟨leafName, 1, 0, none⟩
    ∧ (stSh 5 1 0).mem.num 0x1010000 24 = 5 ∧ (stSh 5 1 0).shards.find? (fun y => y.name == 5 && y.part == none) = some ⟨5, 1, 0, none⟩
    ∧ leafName ≠ 5 ∧ (∀ y ∈ (stSh leafName 3 0).shards, y.name = leafName → y = ⟨leafName, 3, 0, none⟩) ∧ 0 + 2 ^ 30 ≤ (stSh leafName 3 0).m.ftime
    ∧ (∀ x ∈ (stSh leafName 1 0).shards, x.name = 5 → (stSh leafName 1 0).m.ftime < x.tick + 2 ^ 30) := by decide +kernel

theorem witness_Shards_store : lookAlloc (stSh leafName 1 0) 0 (stSh leafName 1 0).m.providerSalt false (List.replicate 256 0)
    = .ok (true, leafName, stSh leafName 1 0) := ok_eq (by decide +kernel)

/-- A pool without room refuses a leaf; a RESTORE that lists it keeps it. -/
theorem witness_Shards_refused : ∃ c, lookAlloc { st with objs := [] } 0 0 false (List.replicate 256 0) = .error c := by
  have h : (lookAlloc { st with objs := [] } 0 0 false (List.replicate 256 0)).isOk = false := by decide +kernel
  cases e : lookAlloc { st with objs := [] } 0 0 false (List.replicate 256 0) with
  | error c => exact ⟨c, rfl⟩
  | ok x => rw [e] at h; cases h

def exportOf : Export := { addr := 0, len := 0, part := 1, salts := [0, 0, 0], names := [(leafName, 1, 0)] }

/-- The same leaf in partition 1's inbox at 0x114100, asked for by a RESTORE that lists it. -/
def stShr (name : Nat) : State :=
  { st with
    mem := st.mem.putNum 0x114100 24 name
    parts := Tbl.set st.parts 1 { st.part 1 with e := { (st.part 1).e with service := 0x110000 }, restoring := some exportOf }
    shards := [⟨name, 1, 0, some 1⟩] }

theorem witness_Shards_restore : 0x114100 = 288 * 0 + (((stShr leafName).part 1).e.service + 0x4100) ∧ ((stShr leafName).part 1).e.service ≠ 0
    ∧ (stShr leafName).mem.num 0x114100 24 = leafName ∧ (stShr leafName).mem.num (0x114100 + 24) 8 = 0
    ∧ ((stShr leafName).part 1).restoring = some exportOf ∧ (leafName, 1, 0) ∈ exportOf.names
    ∧ indexedName (withFetched (stShr leafName) 1 exportOf) (spaceOf 1 1) (exportSalt (stShr leafName) exportOf 1) false (List.replicate 256 0)
      = some leafName
    ∧ (stShr 5).shards.find? (fun y => y.name == 5 && y.part == some 1) = some ⟨5, 1, 0, some 1⟩ ∧ ∀ y ∈ exportOf.names, y.1 ≠ 5 := by decide +kernel

/-! ### Hypotheses of the statements: settling and system words -/

/-- RKST v8 with its pair pending on slot 2, which has or has not its arrival. -/
def fRk : Fields := { plainWord with a := .v 8 }
def stRk (x : Slot) : State := stG fun g => { g with vst := [(8, .pend 2), (9, .pend 2)], slots := [(2, x)] }

theorem witness_Settling : Issuing (stRk {}) 3 15 ∧ fRk.a = .v 8 ∧ RefsOk ((stRk {}).group 3) [{ o := fRk.a, bt := fRk.btA }] []
    ∧ ((stRk {}).group 3).memues = [] ∧ ((stRk {}).group 3).st 8 = .pend 2 ∧ ((stRk {}).group 3).st 10 = .full
    ∧ ((stG fun g => { g with vst := [(8, .empty)] }).group 3).st 8 = .empty ∧ fRk.btA = false ∧ ({ fRk with btA := true } : Fields).btA = true
    ∧ (((stRk { busy := true, holders := 1, arr := true }).group 3).slot 2).arr = true
    ∧ (((stRk { busy := true, holders := 1, arr := true }).group 3).slot 2).fail = false
    ∧ (((stRk { busy := true, holders := 1, arr := true, fail := true, tf := true }).group 3).slot 2).tf = true
    ∧ (((stRk { busy := true, holders := 1 }).group 3).slot 2).arr = false :=
  ⟨issuing_group _, rfl, by unfold RefsOk; decide +kernel, by decide +kernel⟩

theorem witness_Settling_all : (∀ r ∈ List.range 64, (st.group 3).st r = .full)
    ∧ (∀ p ∈ List.range 8, ((stRk {}).group 3).st p = .full) ∧ 1024 * 8 + 2048 ≤ ((stRk {}).group 3).u := by decide +kernel

/-- TLBI of a partition; a group with a PREEMPT served at tick 0 and its budget open, or closed. -/
def fTl : Fields := { plainWord with a := .s 4, b := .s 5, d := .s 2 }
def stCx (budget : Nat) : State := stG fun g => { g with s := [(4, 0x100000)], pre := .served 0, csr := { g.csr with budget := budget } }

theorem witness_SystemWords : Issuing (stCx 100) 3 15 ∧ Delivered ((stCx 100).group 3) [fTl.a, fTl.b] ∧ ((stCx 100).launch 1).priv = true
    ∧ (((stCx 100).group 3).scal 5).toNat ≤ 23 ∧ enginePending (stCx 100) 0 = false ∧ (stCx 100).accesses = []
    ∧ ((stCx 100).group 3).pre = .served 0 ∧ (stCx 100).m.ftime < 0 + 100 ∧ 0 ≤ (stCx 100).m.ftime ∧ 0 + 0 ≤ (stCx 0).m.ftime
    ∧ enginePending { stCx 100 with copies := [(9, { yCp with tw := 5 })] } 0 = true :=
  ⟨issuing_group _, by unfold Delivered; decide +kernel, by decide +kernel⟩

/-- A watched range stands, and is translated again. -/
theorem witness_SystemWords_watch :
    let s := (stCx 100).setPart 0 { (stCx 100).part 0 with watch := [(0, ⟨0x100000, 128, 1, false, 0, 0, [], none⟩)] }
    (s.part 0).watch.isEmpty = false ∧ enginePending s 0 = false ∧ s.accesses = [] := by decide +kernel

/-- The header of a context image of group 0 of team 7 of launch 9, whose body is empty: SHA-384 of nothing. -/
def ctxHead : List Byte := bytesOfNat 4 1 ++ bytesOfNat 1 1 ++ bytesOfNat 1 8 ++ bytesOfNat 2 0 ++ bytesOfNat 4 9 ++ bytesOfNat 4 7
  ++ bytesOfNat 16 0 ++ (bytesOfNat 48 0x38b060a751ac96384cd9327eb1b1e36a21fdb71114be07434c0cc7bf63f6e1da274edebfe76f65fbd51ad2f14898b95b).reverse ++ bytesOfNat 16 0
def stIm : State :=
  { stTlb with
    mem := st.mem.store 0x100000 ctxHead
    parts := Tbl.set st.parts 0 { st.part 0 with e := { (st.part 0).e with ctxMib := 1 } }
    launches := [(1, { st.launch 1 with r := { (st.launch 1).r with id := 9 } })] }

theorem ctxHead_length : ctxHead.length = 96 := by decide +kernel

/-- An image that passes every check of `SystemWords`; what a body spells is a free value, so no body is shown to spell a context. -/
theorem witness_SystemWords_image : groupRead stIm (stIm.group 3) (policy (stIm.group 3) fTl) 0x100000 96 = .ok (stIm, ctxHead)
    ∧ groupRead stIm (stIm.group 3) (policy (stIm.group 3) fTl) (0x100000 + 96) 0 = .ok (stIm, [])
    ∧ ctxHeader stIm 0 0x100000 ctxHead = true ∧ ctxHeader stIm 0 0x100000 (List.replicate 96 0) = false
    ∧ Sha.sha384 [] = Sha.beNat ((ctxHead.drop 0x20).take 48) ∧ (stIm.launches.all fun l => !(l.2.part == 0 && l.2.r.id == 9)) = false
    ∧ ¬ (2 ^ 20 * (stIm.part 0).e.ctxMib < contextUse stIm 0 + contextBound stIm 1 8 0 9) ∧ stIm.contexts = [] := by
  refine ⟨?_, ok_eq (by decide +kernel), by decide +kernel⟩
  refine group_page (e := entTlb) rfl (by decide) (by decide) rfl ?_ rfl rfl rfl (by decide)
  have h := Mem.bytes_store_same st.mem 0x100000 ctxHead
  rwa [ctxHead_length] at h

/-! ### Hypotheses of the statements: the machine -/

/-- The boot window busy and not, in stages 0 and 6; an image that ends inside the host's memory, whose verdict is a free
value: whichever it is, one of the two clauses applies. -/
theorem witness_MachineAndRegisters : ({ State.reset with m := { State.reset.m with busy := true } } : State).m.busy = true
    ∧ State.reset.m.busy = false ∧ State.reset.m.stage = 0 ∧ ({ st with m := { st.m with stage := 6 } } : State).m.stage = 6
    ∧ (7 : BitVec 32) ≠ 1 ∧ (7 : BitVec 32) ≠ 2 ∧ State.reset.m.haddr.toNat + State.reset.m.hlen.toNat ≤ 2 ^ 64
    ∧ 2 ^ 64 < (0xFFFFFFFFFFFFFFFF : W64).toNat + (2 : BitVec 32).toNat ∧ coreEmpty st 5 = true ∧ coreEmpty st 0 = false := by decide +kernel

theorem witness_MachineAndRegisters_verdict (image : List Byte) : Config.imageVerdict image = 0 ∨ Config.imageVerdict image ≠ 0 :=
  Decidable.em _

theorem witness_MachineAndRegisters_writes : (List.replicate 32 (0 : Byte)).length = 32 ∧ (5 < 24) ∧ (4096 % 4096 = 0) ∧ (100 % 4096 ≠ 0)
    ∧ (((stRow 0 1).die 0).tile 0 0).state = 1 ∧ tileBound (stRow 0 1) ⟨0, 0, 0⟩ = false ∧ tileBound (stLy 2 id) ⟨0, 0, 0⟩ = true
    ∧ (∀ i < 8, 0x100000 + i < 2 ^ 41 ∧ Tbl.look st.reverse ((0x100000 + i) / 65536) = none)
    ∧ (∃ i < 8, 2 ^ 41 ≤ 1310720 + i ∨ Tbl.look (stOut 1 false).reverse ((1310720 + i) / 65536) ≠ none)
    ∧ (5 : Nat) ∉ st.m.retiredPages ∧ (5 : Nat) ∈ ({ st with m := { st.m with retiredPages := [5] } } : State).m.retiredPages := by decide +kernel

/-- Power about to fail while a record is written, for a publication that its checks allow and for one that they refuse; the
host's port fails; the governor's tick, its own and another. -/
theorem witness_MachineAndRegisters_power : let s := { stLy 1 id with
      m := { (stLy 1 id).m with torn := some (0, 0, [0]) }, dies := [(0, { tiles := [(0, { state := 1, committed := List.range 512 })] })] }
    s.m.torn = some (0, 0, [0]) ∧ pubCode s 0 0 = 0 ∧ diesOf (s.bind 0).dies = [0] ∧ pubCode (stLy 2 id) 0 0 ≠ 0 ∧ st.m.torn = none
    ∧ ({ st with m := { st.m with portFails := true } } : State).m.portFails = true ∧ st.m.portFails = false
    ∧ st.m.ftime % 1000 = 0 ∧ st.m.governed ≠ some st.m.ftime ∧ 5 % 1000 ≠ 0 := by decide +kernel

/-- A store that maps a page beyond the quota of 1 GiB, and one where there are no page tables. -/
def stBeyond : State := (applyStore st (.pa 0x30100 false false) [0x0F]).1
def stNone : State := { st with parts := [(0, {})] }
def leafBeyond : Nat × Leaf2 := (2 ^ 30, ⟨2 ^ 30, 2 ^ 25, 0, false, true, true⟩)
def tablesSeen : Bool := (leavesOf stBeyond 0).contains leafBeyond && !(leavesOf st 0).contains leafBeyond
  && leavesOf stNone 0 == [] && leavesOf (applyStore stNone (.pa 0x110000 false false) [1]).1 0 == []

theorem witness_MachineAndRegisters_tables : tablesSeen = true := by decide +kernel

theorem witness_MachineAndRegisters_beyond : (st.parts.map (·.1)) = [0] ∧ st.reverse = [] ∧ leafBeyond.2.remote = false
    ∧ 2 ^ 30 * (st.part 0).e.quota ≤ leafBeyond.1 ∧ 2 ^ 46 / 2 ^ 46 ≠ st.m.modno := by decide +kernel

/-- A die to test in stage 3 with a journal of one row, begun and committed; two bindings restored, one with a snapshot. -/
def stBr : State :=
  { st with
    m := { st.m with stage := 3, tested := 0xFFFE, enabled := 0xFFFE }
    dies := [(0, { journal := [(4, [⟨1, 7, 5, 1, 0, 0, 0⟩, ⟨2, 7, 5, 3, 0, 0, 0⟩, ⟨2, 7, 5, 9, 0, 0, 1⟩])], snaps := [⟨1, 0, 3, 0, 8, [], [], [], []⟩] })]
    binds := [(0, bind0 2), (1, { bind0 2 with period := 77 })] }

theorem witness_BringUp : stBr.m.stage = 3 ∧ 0 < 16 ∧ stBr.m.tested.getLsbD 0 = false ∧ stBr.m.tested.getLsbD 1 = true
    ∧ Tbl.sorted (stBr.die 0).journal = true
    ∧ (∀ c ∈ (stBr.die 0).journal, ((c.2.filter fun a => decide (1 ≤ a.state) && decide (a.state ≤ 4) && a.pad == 0).map (·.seq)).Nodup
      ∧ ∀ a ∈ c.2, a.tile < 2048)
    ∧ stBr.m.tested ||| BitVec.ofNat 16 (2 ^ 0) = BitVec.allOnes 16 ∧ (stBr.bind 1).state = 2 ∧ (snapOf stBr 0).isSome = false
    ∧ (snapOf stBr 1).isSome = true ∧ stBr.m.busy = false ∧ ({ stBr with m := { stBr.m with stage := 5 } } : State).m.stage ≠ 3 := by
  decide +kernel

/-- One committed record of binding 0, on its one die, which the self-test has passed. -/
def recBr : NvRec := ⟨0, bind0 2, [⟨0, 0, 0⟩], [], [], true, false⟩
def stBrec : State := { stBr with m := { stBr.m with enabled := 0xFFFF }, dies := [(0, { recs := [recBr] })] }

theorem witness_BringUp_records : (∀ d, ∀ y ∈ (stBrec.die d).recs, y.bind = 0 → y = recBr) ∧ (∀ d, ∀ y ∈ (stBrec.die d).recs, y.bind = 1 → y.retired = true)
    ∧ recBr.bind = 0 ∧ recBr.committed = true ∧ recBr.retired = false ∧ recBr.entry.dies ≠ 0
    ∧ ∀ d ∈ diesOf recBr.entry.dies, stBrec.m.enabled.getLsbD d = true ∧ recBr ∈ (stBrec.die d).recs := by
  refine ⟨fun d => ?_, fun d => ?_, by decide +kernel⟩ <;> match d with
  | 0 => decide +kernel
  | d + 1 => exact fun y hy => absurd hy List.not_mem_nil

theorem witness_BringUp_attest : let s := { stBr with m := { stBr.m with stage := 6, haddr := 0x1000, hlen := 4096 } }
    let n := (s.binds.filter fun c => c.2.state == 2 && decide (c.1 < 256)).length
    n = 2 ∧ 64 + (0xE0 + 48 * n + 96) ≤ s.m.hlen.toNat ∧ s.m.haddr.toNat + 64 + (0xE0 + 48 * n + 96) ≤ 2 ^ 64
    ∧ st.m.hlen.toNat < 64 + (0xE0 + 48 * 0 + 96) := by decide +kernel

/-! ### Hypotheses of the statements: turns, saves and launches -/

/-- Group 3 bound on rod 0, nothing issuing. -/
def stTu (u : Group → Group) : State := idle (stG u)

theorem witness_TurnsAndPreemption : NothingSwept (stTu id) ∧ (stTu id).issue = none ∧ TurnAt (stTu id) 0 0 0
    ∧ (Tbl.get {} ((stTu id).core 0).binds 0).gid = 3 ∧ (Tbl.look (stTu id).groups 3).isSome = true
    ∧ (∀ p < 8, (Tbl.get {} ((stTu id).core 0).binds (16 * p + 5)).state ≠ 1) ∧ ((stTu id).group 3).pre = .no ∧ ((stTu id).group 3).hang = .no
    ∧ ((stTu id).group 3).saving = none ∧ ((stTu id).group 3).csr.m = false :=
  ⟨by unfold NothingSwept; decide +kernel, by decide +kernel, ⟨0, by decide +kernel⟩, by decide +kernel⟩

/-- A PREEMPT asked at tick 0, with M set and clear, its grace over; one served, its budget over. -/
theorem witness_TurnsAndPreemption_preempt : let a := stTu fun g => { g with pre := .asked 0 }
    let b := stTu fun g => { g with pre := .asked 0, csr := { g.csr with m := true } }
    let c := stTu fun g => { g with pre := .served 0 }
    (a.group 3).pre = .asked 0 ∧ (a.group 3).csr.m = false ∧ (a.group 3).saving = none ∧ (b.group 3).csr.m = true
    ∧ 0 + 20000 ≤ ({ b with m := { b.m with ftime := 20000 } } : State).m.ftime ∧ b.m.ftime < 0 + 20000 ∧ (c.group 3).pre = .served 0
    ∧ c.m.ftime < 0 + 100000 ∧ ((stTu fun g => { g with saving := some ⟨0, false⟩ }).group 3).saving ≠ none
    ∧ ((stTu fun g => { g with hang := .stage2 0 }).group 3).hang ≠ .no := by decide +kernel

/-- The grace of a PREEMPT that a handler holds back is over, or its budget; a group that waits for a record. -/
theorem witness_TurnsAndPreemption_late :
    let a := { stTu (fun g => { g with pre := .asked 0, csr := { g.csr with m := true } }) with m := { st.m with ftime := 20000 } }
    let b := stTu fun g => { g with pre := .served 0, csr := { g.csr with budget := 0 } }
    let c := stTu fun g => { g with hang := .stage2 0 }
    ((a.group 3).saving = none ∧ (a.group 3).pre = .asked 0 ∧ (a.group 3).csr.m = true ∧ 0 + 20000 ≤ a.m.ftime)
    ∧ ((b.group 3).pre = .served 0 ∧ 0 + (b.group 3).csr.budget ≤ b.m.ftime) ∧ (c.group 3).hang ≠ .no ∧ (c.group 3).hang ≠ .full
    ∧ (c.group 3).pre = .no := by decide +kernel

/-- Launch 1 has had its slice while launch 7, which ranks before it, waits for room. -/
def stSl : State :=
  { stTu id with
    m := { st.m with ftime := 1000000 }
    launches := [(1, { st.launch 1 with since := some 0, r := { (st.launch 1).r with groups := 128 } }),
      (7, { part := 0, r := { id := 2, w := 64, groups := 128, lcores := 1, prio := 15 }, toStart := [(0, false)] })] }

theorem witness_TurnsAndPreemption_slice : NothingSwept stSl ∧ findLaunch stSl 0 1 = some 1 ∧ coresOf stSl 1 = [0]
    ∧ sliceEnds stSl 1 = true ∧ sliceEnds (stTu id) 1 = false :=
  ⟨by unfold NothingSwept; decide +kernel, by decide +kernel⟩

theorem witness_ContextSaves : let s := stTu fun g => { g with saving := some ⟨1, false⟩ }
    (Tbl.look s.groups 3).isSome = true ∧ (s.group 3).saving = some ⟨1, false⟩ ∧ saveReady s 3 = true ∧ (s.launch 1).killed = none ∧ (∀ e ∈ (s.group 3).entries, e.led = none)
    ∧ saveReady { s with accesses := [(7, openStore)] } 3 = false
    ∧ (1 : W64).getLsbD 0 = true ∧ (s.group 3).ident.w - (s.group 3).ident.k ≤ 56 ∧ (s.group 3).st 5 = .full := by decide +kernel

/-- A queue's control block at 0x100000: TAIL 1, HEAD 0, ring of 1 record at 0x100080; the record asks for one team. -/
def qBlock (bad : Nat) : List Byte := bytesOfNat 4 1 ++ bytesOfNat 4 bad ++ bytesOfNat 4 0 ++ bytesOfNat 4 1 ++ bytesOfNat 8 0x100080 ++ bytesOfNat 40 0
def stLq (bad entry : Nat) : State :=
  { idle stTlb with
    mem := (st.mem.store 0x100000 (qBlock bad)).store 0x100080 (bytesOfNat 8 entry ++ bytesOfNat 8 0 ++ bytesOfNat 4 1 ++ bytesOfNat 2 1
      ++ bytesOfNat 2 256 ++ bytesOfNat 2 8 ++ bytesOfNat 1 0 ++ bytesOfNat 1 1 ++ bytesOfNat 28 0 ++ bytesOfNat 8 0x100800 ++ bytesOfNat 4 0
      ++ bytesOfNat 4 5 ++ bytesOfNat 56 0)
    parts := Tbl.set st.parts 0 { st.part 0 with ready := true, e := { (st.part 0).e with queues := 1, ctl := [0x100000] } } }

theorem witness_LaunchesAndBinding_queue (bad entry : Nat) :
    ((stLq bad entry).part 0).e.state = 1 ∧ ((stLq bad entry).part 0).ready = true ∧ 0 < ((stLq bad entry).part 0).e.queues
    ∧ ((stLq bad entry).part 0).qfault.getLsbD 0 = false ∧ ((stLq bad entry).part 0).e.ctl[0]? = some 0x100000 := by
  refine ⟨rfl, rfl, Nat.one_pos, by change (0 : BitVec 16).getLsbD 0 = false; decide, rfl⟩

theorem witness_LaunchesAndBinding_block : readPrivate (stLq 0 0x4000) 0 0x100000 64 = .ok (stLq 0 0x4000, qBlock 0)
    ∧ readPrivate (stLq 1 0x4000) 0 0x100000 64 = .ok (stLq 1 0x4000, qBlock 1) ∧ natOfBytes ((qBlock 1).drop 4 |>.take 4) ≠ 0
    ∧ translate (stLq 0 0x4000) 0 (0x100000 + 8) false false = .ok (stLq 0 0x4000, entTlb)
    ∧ (∃ b, readPrivate (stLq 0 0x4000) 0 0x100080 128 = .ok (stLq 0 0x4000, b)
        ∧ ∃ rs, validate (stLq 0 0x4000) 0 (LaunchRec.ofBytes b) b = .accept rs)
    ∧ (∃ b, readPrivate (stLq 0 0x4002) 0 0x100080 128 = .ok (stLq 0 0x4002, b)
        ∧ ∃ code, validate (stLq 0 0x4002) 0 (LaunchRec.ofBytes b) b = .refuse code) := by
  have page : ∀ bad entry va n bs, 0x100000 ≤ va → va + n ≤ 0x110000 → 0 < n → (stLq bad entry).mem.bytes va n = bs →
      readPrivate (stLq bad entry) 0 va n = .ok (stLq bad entry, bs) := fun bad entry va n bs h1 h2 h3 hb => by
    have hf : ((stLq bad entry).tlb.find? fun e => e.part == 0 && decide (e.va ≤ va) && decide (va < e.va + e.size)) = some entTlb := by
      change List.find? _ [entTlb] = _
      simp [entTlb]; omega
    refine private_page (read_page (e := entTlb) hf (by omega) h3 rfl (by simpa [entTlb] using hb) rfl) (e := entTlb) ?_ (by omega) h3 rfl
    simp only [Machine.translate, tlbEntry, hf, pure, Except.pure]
    simp [entTlb]
  refine ⟨page _ _ _ _ _ (by decide) (by decide) (by decide) (by decide +kernel), page _ _ _ _ _ (by decide) (by decide) (by decide) (by decide +kernel),
    by decide +kernel, ?_, ⟨_, page _ _ _ _ _ (by decide) (by decide) (by decide) rfl, ?_⟩, ⟨_, page _ _ _ _ _ (by decide) (by decide) (by decide) rfl, ?_⟩⟩
  · simp [Machine.translate, tlbEntry, stLq, stTlb, idle, entTlb, pure, Except.pure]
  · have h : (match validate (stLq 0 0x4000) 0 (LaunchRec.ofBytes ((stLq 0 0x4000).mem.bytes 0x100080 128)) ((stLq 0 0x4000).mem.bytes 0x100080 128) with
      | .accept _ => true | _ => false) = true := by decide +kernel
    split at h
    · exact ⟨_, by assumption⟩
    · cases h
  · have h : (match validate (stLq 0 0x4002) 0 (LaunchRec.ofBytes ((stLq 0 0x4002).mem.bytes 0x100080 128)) ((stLq 0 0x4002).mem.bytes 0x100080 128) with
      | .refuse _ => true | _ => false) = true := by decide +kernel
    split at h
    · exact ⟨_, by assumption⟩
    · cases h

/-- The control block of an empty queue, sound and not. -/
theorem witness_LaunchesAndBinding_empty (bad : Nat) (h : bad ∈ [0, 1]) :
    let b := bytesOfNat 4 0 ++ bytesOfNat 4 bad ++ bytesOfNat 4 0 ++ bytesOfNat 4 1 ++ bytesOfNat 8 0x100080 ++ bytesOfNat 40 0
    let n := fun (o k : Nat) => natOfBytes ((b.drop o).take k)
    b.length = 64 ∧ n 0 4 = n 8 4 ∧ (n 4 4 ≠ 0 ↔ bad = 1) ∧ n 0x18 40 = 0 ∧ n 0x10 8 % 128 = 0 ∧ n 0xC 4 = 1 ∧ n 0xC 4 &&& (n 0xC 4 - 1) = 0 := by
  fin_cases h <;> decide +kernel

/-- A launch that waits on the refused record's ID, and its word's place. -/
theorem witness_LaunchesAndBinding_waits : let s := { stLq 0 0x4002 with launches := [(1, { st.launch 1 with waits := [5] })] }
    Tbl.look s.launches 1 = some { st.launch 1 with waits := [5] } ∧ (s.launch 1).part = 0
    ∧ (LaunchRec.ofBytes ((stLq 0 0x4002).mem.bytes 0x100080 128)).id = 5
    ∧ (LaunchRec.ofBytes ((stLq 0 0x4002).mem.bytes 0x100080 128)).done = 0x100800 := by decide +kernel

/-- Launch 1 with nothing to start, nothing live, a completion word at 0x100800; refused; killed with cause 5. -/
def stLc (u : Launch → Launch) : State :=
  { stTlb with groups := [], teams := [], issue := none, launches := [(1, u { st.launch 1 with live := [], r := { (st.launch 1).r with done := 0x100800 } })] }

theorem witness_LaunchesAndBinding_end (k : Fin 3) : let u := fun (l : Launch) => match k with | 0 => l | 1 => { l with refused := true } | 2 => { l with killed := some 5 }
    sweep (stLc u) = stLc u ∧ launchQuiet (stLc u) 1 ((stLc u).launch 1) = true ∧ launchOver (stLc u) 1 = true
    ∧ ((stLc u).launch 1).toStart = [] ∧ ((stLc u).launch 1).live = [] ∧ ((stLc u).launch 1).r.done.toNat % 8 = 0
    ∧ ((stLc u).launch 1).r.done ≠ 0 := by
  fin_cases k <;> decide +kernel

/-- Launch 1 may start its one team on core 1 in slot 0, its window at 0; and not where the window would not fit. -/
def stTb (w : Nat) : State :=
  { stTu id with launches := [(1, { part := 0, r := { w := w, k := 8, lanes := 1, groups := 1, lcores := 4, id := 1 }, toStart := [(1, false)] })] }

theorem witness_LaunchesAndBinding_bind : let pl : TeamPlace := ⟨1, [(0, 0)], 0⟩
    NothingSwept (stTb 64) ∧ (((stTb 64).launch 1).toStart.filter fun x => x.1 / 1 == 1 / 1) = [(1, false)]
    ∧ bindable (stTb 64) 1 1 [(1, false)] [pl] = true ∧ windowsOk (stTb 64) 1 64 (64 * (launchBnds (stTb 64) 1).1.toNat) (pl.slots.map (·.2)) = true
    ∧ ((stTb 64).core 1).bnds = launchBnds (stTb 64) 1 ∧ (∀ c ∈ 1 :: clusterCores (stTb 64) 0 (1 / 24), ((stTb 64).core c).fused = (stTb 64).flag 1 1) ∧ (launchRef (stTb 64) 1).isSome = true
    ∧ placeOk (stTb 64) 1 1 pl = true
    ∧ bindable (stTb 8000) 1 1 [(1, false)] [pl] = true ∧ windowsOk (stTb 8000) 1 8000 (64 * (launchBnds (stTb 8000) 1).1.toNat) (pl.slots.map (·.2)) = false
    ∧ (stTb 64).m.ftime % 65536 = 0 ∧ 5 % 65536 ≠ 0 :=
  ⟨by unfold NothingSwept; decide +kernel, by decide +kernel⟩

/-! ### Hypotheses of the statements: tenants -/

/-- Partition 0 with a request at the head of its ring at 0x110000: opcode, launch ID at byte 4, argument at byte 8. -/
def reqBytes (op id arg rest : Nat) : List Byte := bytesOfNat 1 op ++ bytesOfNat 3 0 ++ bytesOfNat 4 id ++ bytesOfNat 8 arg ++ bytesOfNat 8 0 ++ bytesOfNat 40 rest
def ringMem (op id arg rest : Nat) : Mem :=
  (st.mem.filter fun c => c.1 < 0x100000) ++ ((bytesOfNat 4 1 ++ bytesOfNat 252 0 ++ reqBytes op id arg rest).zipIdx 0x110000 |>.map fun c => (c.2, c.1)).filter (·.2 ≠ 0)
def stSv (op id arg rest : Nat) (u : Part → Part) : State :=
  { idle stTlb with
    mem := ringMem op id arg rest
    parts := Tbl.set st.parts 0 (u { st.part 0 with e := { (st.part 0).e with service := 0x110000, queues := 1, ctl := [0x100000] } }) }

theorem witness_ServiceRing (op id arg rest : Nat) (h : (op, id, arg, rest) ∈ [(0, 0, 0, 0), (11, 0, 0, 0), (1, 1, 0, 0), (1, 9, 0, 0), (2, 1, 1, 0),
      (3, 0, 0, 0), (3, 0, 5, 0), (4, 0, 3, 0x800000000000000000), (4, 0, 16, 0), (10, 0, 0, 0), (2, 1, 0, 0),
      (4, 0, 3, 0x10000000000000000000000000000)]) :
    Requested (stSv op id arg rest fun x => x) 0 op 0 (reqBytes op id arg rest) := by
  simp only [List.mem_cons, Prod.mk.injEq, List.not_mem_nil, or_false] at h
  rcases h with ⟨rfl, rfl, rfl, rfl⟩ | ⟨rfl, rfl, rfl, rfl⟩ | ⟨rfl, rfl, rfl, rfl⟩ | ⟨rfl, rfl, rfl, rfl⟩ | ⟨rfl, rfl, rfl, rfl⟩ |
    ⟨rfl, rfl, rfl, rfl⟩ | ⟨rfl, rfl, rfl, rfl⟩ | ⟨rfl, rfl, rfl, rfl⟩ | ⟨rfl, rfl, rfl, rfl⟩ | ⟨rfl, rfl, rfl, rfl⟩ |
    ⟨rfl, rfl, rfl, rfl⟩ | ⟨rfl, rfl, rfl, rfl⟩ <;>
  (unfold Requested; decide +kernel)

/-- With nothing mapped no bit marks a page. -/
theorem unmarked_nil {s : State} (h : s.reverse = []) (a n : Nat) : Unmarked s a n := fun page q k hl => by rw [h] at hl; cases hl

/-- Opcode 10 is not valid in state 1; the launch a request names; a team on core 0; nothing else in progress. -/
theorem witness_ServiceRing_fields : let s := stSv 1 1 0 0 fun x => x
    let x := s.part 0
    x.killing = none ∧ x.vacate = none ∧ x.stopping = false ∧ x.restoring = none ∧ x.e.state = 1 ∧ 1 ∉ svcStates x.small 10
    ∧ reqNum ((reqBytes 4 0 3 0x10000000000000000000000000000).drop 0x18) 0xE 2 = 1 ∧ s.reverse = []
    ∧ findLaunch s 0 1 = some 1 ∧ (s.launch 1).killed = none ∧ findLaunch s 0 9 = none ∧ coresOf s 1 = [0] ∧ min 1 (coresOf s 1).length = 1
    ∧ x.e.queues ≤ 5 ∧ x.e.ctl[0]? = some 0x100000 ∧ stillVacating s 1 = [] ∧ (0x100008 + 4 ≤ x.e.service) ∧ x.words = [] := by
  decide +kernel

theorem witness_ServiceRing_reset : (∃ cb, readPrivate (stSv 3 0 0 0 fun x => x) 0 0x100000 64 = .ok (stSv 3 0 0 0 fun x => x, cb))
    ∧ translate (stSv 3 0 0 0 fun x => x) 0 (0x100000 + 8) false false = .ok (stSv 3 0 0 0 fun x => x, entTlb) :=
  ⟨⟨_, private_page (e := entTlb) (read_page (e := entTlb) (by decide +kernel) (by decide) (by decide) (by decide +kernel) rfl rfl)
      (by simp [Machine.translate, tlbEntry, stSv, stTlb, idle, entTlb, pure, Except.pure]) (by decide) (by decide) (by decide +kernel)⟩,
    by simp [Machine.translate, tlbEntry, stSv, stTlb, idle, entTlb, pure, Except.pure]⟩

/-- KILL and PREEMPT under way, their launch gone and its cores vacated. -/
theorem witness_ServiceRing_going : let s := stSv 1 1 0 0 fun x => { x with killing := some 7, vacate := some 1 }
    (s.part 0).killing = some 7 ∧ Tbl.look s.launches 7 = none ∧ (s.part 0).words = [] ∧ (s.part 0).vacate = some 1
    ∧ stillVacating s 1 = [] := by decide +kernel

/-- Partition 0 in a state of a migration: an export at 64 with room for none or for a page; no page is mapped. -/
def stMi (op state : Nat) (u : Part → Part) (pages : List (Nat × List Byte)) : State :=
  { stSv op 0 64 0 (fun x => u { x with e := { x.e with state := state, root2 := 0 }, exportAt := some (64, 65543) }) with
    exports := [{ addr := 64, len := 65543, part := 0, pages := pages }] }

theorem witness_Migration (op : Nat) (h : op ∈ [5, 6, 7, 8, 9, 10]) :
    Requested (stMi op 3 id []) 0 op 0 (reqBytes op 0 64 0) := by
  fin_cases h <;> (unfold Requested; decide +kernel)

theorem witness_Migration_rounds : ((stMi 6 1 id []).part 0).e.state = 1 ∧ ((stMi 7 3 id []).part 0).exportAt = some (64, 65543)
    ∧ (findExport (stMi 7 3 id []) 64).isSome = true ∧ localPages (stMi 7 3 id []) 0 = [] ∧ 65544 * ([] : List (Nat × List Byte)).length ≤ 65543
    ∧ 65543 < 65544 * [(5, [(1 : Byte)])].length ∧ (findExport (stMi 7 3 id [(5, [1])]) 64).isSome = true := by decide +kernel

/-- STOP: nothing of the partition is left, or a group still is; RESUME and FLR where they may start, and FLR at its end. -/
theorem witness_Migration_stop : let a := { stMi 8 4 (fun x => { x with stopping := true }) [] with groups := [], teams := [], launches := [], cores := [] }
    let b := stMi 8 4 (fun x => { x with stopping := true }) []
    sweep a = a ∧ stopped a 0 = true ∧ (copyRound a 0).isSome = true ∧ (a.part 0).exportAt = some (64, 65543) ∧ sweep b = b ∧ stopped b 0 = false
    ∧ (b.part 0).refuse = false ∧ (b.part 0).held = [] ∧ ((stMi 9 3 (fun x => { x with refuse := true }) []).part 0).refuse = true
    ∧ ((stMi 8 3 id []).part 0).stopping = false := by decide +kernel

/-- An export whose buffer was too small goes on; the marks of one whose bitmap lies beside the service area; a source closed. -/
theorem witness_Migration_again (op state : Nat) (h : (op, state) ∈ [(6, 3), (6, 4), (8, 4)]) :
    let s := stMi op state (fun x => { x with small := true, e := { x.e with bitmap := 0x200000 } }) []
    (s.part 0).small = true ∧ (s.part 0).e.state = state ∧ (s.part 0).stopping = false ∧ (s.part 0).exportAt ≠ none
    ∧ (s.part 0).e.service + 65536 ≤ (s.part 0).e.bitmap ∧ reqNum (reqBytes op 0 64 0) 8 8 = 64 := by
  simp only [List.mem_cons, Prod.mk.injEq, List.not_mem_nil, or_false] at h
  rcases h with ⟨rfl, rfl⟩ | ⟨rfl, rfl⟩ | ⟨rfl, rfl⟩ <;> decide +kernel

/-- A final round for which the buffer has no room: its one page is marked. -/
theorem witness_Migration_full : let s := { stMi 8 4 (fun x => { x with stopping := true }) [(5, [1])] with groups := [], teams := [], launches := [], cores := [] }
    sweep s = s ∧ stopped s 0 = true ∧ copyRound s 0 = none := by decide +kernel

theorem witness_Migration_flr : let s := { stMi 5 2 (fun x => { x with exportAt := none }) [] with groups := [], teams := [], launches := [], cores := [] }
    sweep s = s ∧ (∀ c ∈ s.launches, c.2.part ≠ 0) ∧ (s.part 0).words = [] ∧ (s.part 0).e.state = 2 ∧ s.reverse = []
    ∧ ((stMi 5 1 (fun x => { x with exportAt := none }) []).part 0).exportAt = none
    ∧ ((stMi 5 1 (fun x => { x with exportAt := none }) []).part 0).refuse = false := by decide +kernel

/-- A prepared entry whose request names an export that passes every check, that fails the first, or none. -/
def stRs (ex : Export) (op : Nat) : State :=
  { stMi op 0 id [] with exports := [ex], groups := [], parts := Tbl.set (stMi op 0 id []).parts 0 { (stMi op 0 id []).part 0 with exportAt := none } }
def exportDone (final : Bool) : Export := { addr := 64, len := 0, part := 1, final := final, providerHash := 0xa38fff4ba26c15e4ac9cde8c03103ac89080fd47545fde9446c8f192729eab7bd03a4d5c3187f75fe2a71b0ee50a4a40, salts := [0, 0, 0] }

theorem witness_Migration_restore : let s := stRs (exportDone true) 10
    let v := setStatus s 0 { s.part 0 with e := { (s.part 0).e with state := 5 }, restoring := some (exportDone true) }
    Requested s 0 10 0 (reqBytes 10 0 64 0) ∧ findExport s (reqNum (reqBytes 10 0 64 0) 8 8) = some (exportDone true)
    ∧ reqNum (reqBytes 10 0 64 0) 16 8 = 0 ∧ restoreCheck s 0 0 (exportDone true) = none
    ∧ restoreCheck (stRs (exportDone false) 10) 0 0 (exportDone false) = some 0x10 ∧ (∀ n ∈ (exportDone true).names, holdsName s 0 n = true)
    ∧ findExport { s with exports := [] } 64 = none ∧ restoreCheck2 v 0 (exportDone true) = none
    ∧ restoreCheck2 { v with groups := stTlb.groups } 0 (exportDone true) = some 0x1A
    ∧ (installRestore v 0 (exportDone true) [30, 31] []).isSome = true ∧ (s.part 0).restoring = none ∧ (s.part 0).e.state = 0 := by
  unfold Requested; decide +kernel

/-- A prepared and an ACTIVE entry for partition 1 that the sums allow, one that they do not. -/
def entryOf (state share : Nat) : PartEntry := ⟨state, false, [1], 1, share, 1, 1, 1, 1, [], 0, 0, 0, 0, List.replicate state 0x40⟩
def stTe : State := { st with m := { st.m with stage := 6 } }

theorem witness_Tenants (state : Nat) (h : state ∈ [0, 1]) : entryOf state 1 ≠ emptyEntry ∧ entryOk stTe (entryOf state 1) = true
    ∧ sumsOk stTe 1 (entryOf state 1) = true ∧ (stTe.part 1).e = emptyEntry ∧ residents stTe 1 = false ∧ stTe.m.stage = 6
    ∧ entryOk stTe (entryOf state 65) = false := by
  fin_cases h <;> decide +kernel

/-- Page 5 of partition 0, mapped by a 64 KiB leaf at 0x90000 as its page 0, moves to page 40. -/
def stPr : State :=
  { idle st with
    mem := [(0x60000, 0x70001), (0x70000, 0x80001), (0x80000, 0x90001), (0x90000, 0x5000F)].foldl (fun (m : Mem) (c : Nat × Nat) => m.putNum c.1 8 c.2) []
    parts := Tbl.set st.parts 0 { st.part 0 with e := { (st.part 0).e with root2 := 0x60000 } }
    reverse := [(5, (0, 0))] }

/-- The walk of page 0 through three tables. -/
theorem walk_page {m : Mem} {self n : Nat} (n0 : m.num 0x60000 8 = 0x70001) (n1 : m.num 0x70000 8 = 0x80001) (n2 : m.num 0x80000 8 = 0x90001)
    (n3 : m.num 0x90000 8 = n) (hn : n = 0x28000F) : (walk2 m self (65536 * 0) 4 0x60000).map (fun l => l.final / 65536) = some 40 := by
  subst hn
  simp [walk2, n0, n1, n2, n3, bitsN, bitN]

/-- The image of page 5 stored at page 40 leaves the tables as they stand. -/
theorem num_moved {c : Nat} (h : c + 8 ≤ 65536 * 40) (k : c + 8 ≤ 0x90000) (n : Nat) :
    (((stPr.mem.clear (65536 * 40) 65536).store (65536 * 40) (stPr.mem.bytes (65536 * 5) 65536)).putNum 0x90000 8 n).num c 8 = stPr.mem.num c 8 := by
  rw [Mem.num_putNum_other (.inl k), Mem.num_store_other _ (.inl h), show stPr.mem.clear (65536 * 40) 65536 = stPr.mem by decide +kernel]

theorem witness_Tenants_page : let w := stPr.mem.num 0x90000 8
    stPr.accesses = [] ∧ enginePending stPr 0 = false ∧ Tbl.sorted stPr.reverse = true ∧ Tbl.look stPr.reverse 5 = some (0, 0)
    ∧ Tbl.look stPr.reverse 6 = none ∧ Tbl.look stPr.reverse 40 = none ∧ stPr.m.retiredPages = [] ∧ bitsN w 16 36 = 5
    ∧ (walk2 stPr.mem stPr.m.modno 0 4 (stPr.part 0).e.root2).map (fun l => (l.remote, l.size, l.final)) = some (false, 65536, 65536 * 5)
    ∧ enginePending { stPr with copies := [(9, { yCp with tw := 5 })] } 0 = true := by decide +kernel

theorem witness_Tenants_walk :
    let m := ((stPr.mem.clear (65536 * 40) (65536 * 1)).store (65536 * 40) (stPr.mem.bytes (65536 * 5) (65536 * 1))).putNum 0x90000 8
      (stPr.mem.num 0x90000 8 - 5 * 65536 + 40 * 65536)
    (walk2 m stPr.m.modno (65536 * 0) 4 (stPr.part 0).e.root2).map (fun l => l.final / 65536) = some 40 :=
  walk_page ((num_moved (by decide) (by decide) _).trans (by decide +kernel)) ((num_moved (by decide) (by decide) _).trans (by decide +kernel))
    ((num_moved (by decide) (by decide) _).trans (by decide +kernel)) (Mem.num_putNum_same _ _ _ _) (by decide +kernel)

/-- A stage-2 record of core 0 for group 3, which firmware answers with the leaf it finds in place. -/
def stS2 : State :=
  { idle (stG fun g => { g with hang := .stage2 0 }) with
    parts := Tbl.set st.parts 0 { st.part 0 with e := { (st.part 0).e with root2 := 0x70000 } }
    cores := Tbl.set stTlb.cores 0 { st.core 0 with recs := [(0, ⟨9, true, false, false, false, 1, 0x100000, [0], 0, 0, []⟩)] } }

theorem witness_Tenants_stage2 : 0 ≠ mgmtCore ∧ (Tbl.look (stS2.core 0).recs 0).isSome = true ∧ sweep stS2 = stS2 ∧ partOf stS2 0 = some 0
    ∧ (writeLeaf stS2 0 0x100000 0x7000F).isSome = true ∧ (stS2.group 3).hang = .stage2 0 ∧ (stS2.group 3).ident.core = 0
    ∧ (stS2.launch 1).killed = none ∧ (stS2.group (Tbl.get {} (stS2.core 0).binds 0).gid).ident.lid = 1 := by decide +kernel

/-! ### Hypotheses of the statements: encodings, steps and the whole state -/

theorem witness_DecodeEncode : (Instr.layr { plainWord with len := .w128, imm := 0x102, b := .imm, a := .s 3, d := .v 8, fmt := .bf16 }).wf = true
    ∧ (encodeWord (.layr { plainWord with len := .w128, imm := 0x102, b := .imm, a := .s 3, d := .v 8, fmt := .bf16 })).isSome = true
    ∧ decodeWord 0x0001FFFFFFE00000 = .ok (.nop plainWord) :=
  ⟨by decide +kernel, by decide +kernel, ok_eq (by decide +kernel)⟩

theorem witness_WordDecoding : (3 : Nat) % 4 = 3 ∧ ¬ Listed 0xFF 0 ∧ Listed 0 0 ∧ 11 ≤ (15 : Nat) := by
  unfold Listed; decide +kernel

/-- Group 3 issues the NOP at its PC; the same word where nothing decodes; a beam core at a NOP. -/
theorem witness_StepRunsDecoded : stTlb.issue = some ⟨.group 3 15, []⟩ ∧ (Tbl.look stTlb.groups 3).isSome = true
    ∧ translate stTlb 0 ((stTlb.group 3).sub 15).pc.toNat false true = .ok (stTlb, entTlb)
    ∧ entTlb.place ((stTlb.group 3).sub 15).pc.toNat = .pa 0x100000 false false ∧ stTlb.fetched = []
    ∧ decode (stTlb.mem.bytes 0x100000 16) = .ok (.nop plainWord) ∧ decode (List.replicate 16 0xFF) = .error .badLen
    ∧ ((stTlb.group 3).sub 15).pc.toNat % 32 + 16 ≤ 32 :=
  ⟨by decide +kernel, by decide +kernel, ok_eq (by decide +kernel), by decide +kernel, by decide +kernel, ok_eq (by decide +kernel),
    rfl, by decide +kernel⟩

/-- No line is bad. -/
theorem witness_StepRunsDecoded_lines : stTlb.badLines = [] := by decide +kernel

def stBi : State :=
  stB.setEngine 0 { stB.engine 0 with images := [(1, 2048, Mem.store [] 1024 (bytesOfNat 16 0x0001FFFFFFE00000))] }

theorem witness_StepRunsDecoded_beam : ∃ m, (stBi.engine 0).run = some run0 ∧ (stBi.engine 0).image (stBi.team 2).lid = some (2048, m)
    ∧ decode (m.bytes run0.pc.toNat 16) = .ok (.nop plainWord) ∧ 1024 ≤ run0.pc.toNat ∧ run0.pc.toNat + 8 ≤ 2048 ∧ run0.pc.toNat % 32 + 8 ≤ 32 :=
  ⟨Mem.store [] 1024 (bytesOfNat 16 0x0001FFFFFFE00000), by decide +kernel, by decide +kernel, ok_eq (by decide +kernel), by decide +kernel⟩

theorem witness_StepRunsDecoded_agenda : let s := { idle st with agenda := [.event 5 .powerUp, .beam 2 0] }
    s.issue = none ∧ s.agenda = .event 5 .powerUp :: [.beam 2 0] ∧ Instr.powerUp.word? = none
    ∧ (s.m.ftime + 5) / 65536 = s.m.ftime / 65536 ∧ s.m.ftime / 65536 < (s.m.ftime + 65537) / 65536 ∧ s.m.ftime + 65537 < 2 ^ 64 := by decide +kernel

theorem witness_MemoriesKept : memoriesWf State.reset ∧ ∃ t, step st = .next t := by
  refine ⟨by unfold memoriesWf; decide +kernel, ?_⟩
  have h : (match step st with | .next _ => true | _ => false) = true := by decide +kernel
  split at h
  · exact ⟨_, by assumption⟩
  · cases h

/-! ### Hypotheses of single clauses -/

theorem witness_BitOperations_encoding :
    (encodeWord (.popc { fAB with fmt := .n32, b := .zero })).isSome = true ∧ bitEncodings ≠ [] := ⟨by decide +kernel, by simp [bitEncodings]⟩

/-- EXIT of the only running lane, with lanes parked for the sub-group, with a child of it, and in a split entry without either. -/
def stX (issuing : Nat) (mask pmask : Mask) (parked : List (Nat × Park)) : State :=
  { (stG fun g => { g with
      ident := { g.ident with nreal := 16 }, subs := [(0, { mask := mask, pc := 64, parent := 15 }), (15, { mask := pmask, pc := 128 })]
      parked := parked }) with issue := some ⟨.group 3 issuing, []⟩ }

theorem witness_Exits_parked : let g := (stX 15 2 1 [(5, ⟨64, 15⟩), (6, ⟨96, 15⟩)]).group 3
    Issuing (stX 15 2 1 [(5, ⟨64, 15⟩), (6, ⟨96, 15⟩)]) 3 15 ∧ (g.sub 15).mask &&& ~~~(g.activeReal 15 plainWord) = 0
    ∧ Tbl.sorted g.parked = true ∧ (∀ c ∈ g.parked, c.1 < 256) ∧ (5, ⟨64, 15⟩) ∈ g.parked
    ∧ ∀ d ∈ g.parked, d.2.owner = 15 → (64 : W64).toNat ≤ d.2.pc.toNat :=
  ⟨⟨⟨_, rfl⟩, rfl⟩, by decide +kernel⟩

theorem witness_Exits_child : let g := (stX 15 2 1 []).group 3
    (g.sub 15).mask &&& ~~~(g.activeReal 15 plainWord) = 0 ∧ Tbl.sorted g.subs = true ∧ g.parked = []
    ∧ (0, g.sub 0) ∈ g.subs ∧ (g.sub 0).parent = 15 ∧ ∀ d ∈ g.subs, d.1 ≠ 15 → 0 ≤ d.1 := by decide +kernel

theorem witness_Exits_entry : let g := (stX 0 2 1 []).group 3
    Issuing (stX 0 2 1 []) 3 0 ∧ (g.sub 0).mask &&& ~~~(g.activeReal 0 plainWord) = 0 ∧ g.parked = []
    ∧ (∀ c ∈ g.subs, c.1 ≠ 15 → c.1 ≠ 0 → c.2.parent ≠ 0) ∧ (g.sub 0).parent ≠ 0 :=
  ⟨⟨⟨_, rfl⟩, rfl⟩, by decide +kernel⟩

theorem witness_SystemCallsAndReturn_owed : (∀ c, (stE.core c).owed = []) ∧ (stE.group 3).entries.head?.any (·.skip) = false := by
  refine ⟨fun c => ?_, by decide +kernel⟩
  by_cases h : c = 0
  · subst h; decide +kernel
  · have e : Tbl.look stE.cores c = none := by
      change (if (0 : Nat) = c then _ else _) = none
      rw [if_neg (Ne.symm h)]; rfl
    simp only [State.core, Tbl.get, e]; rfl

/-- An element in scratchpad, whose read cannot fail. -/
theorem witness_FailuresAndOutsideWrites_scratchpad :
    ElementReady (stA .load .win (.sp 2 16)) 7 0 (aAt .load .win (.sp 2 16)) (eAt (.sp 2 16)) :=
  ⟨rfl, rfl, rfl, by decide +kernel, fun d h => by cases h⟩

theorem witness_ReductionsInMemory_watch : (∀ x ∈ (stRed.group 3).csr.watch, x.2.getLsbD 63 = false)
    ∧ goneAway (stRr id) (.pa 0x100010 false false) = false := by decide +kernel

theorem witness_ThicketWords_count : let f : Fields := { fTh with c := .v 0, ext := 1 }
    f.x.getLsbD 2 = false ∧ f.c.code.toNat < 1 ∧ f.extN 0 2 ≠ 0 := by decide +kernel

/-- RUNP of a name that the team holds twice, or once, and does not pin; RSWP whose version is its own destination. -/
theorem witness_RootSlots_hold (k : Nat) : let s := stRt 0 [] 7
    let t := { s.team 2 with holds := [(1, leafName, k)] }
    (1, leafName) ∉ t.pins ∧ t.holds.find? (fun h => h.1 == 1 && h.2.1 == leafName) = some (1, leafName, k)
    ∧ ({ fRt with d := .s 5 } : Fields).d = fRt.b ∧ fRt.d ≠ fRt.b := by
  refine ⟨by change (1, leafName) ∉ ([] : List (Nat × Nat)); simp, by simp, by decide, by decide⟩

/-- MREL without and with a wait registered before. -/
theorem witness_PassSetup_fresh : (∀ w ∈ (stMr [(0, rsv)] []).waiters, ¬ (w.gid = 3 ∧ w.sub = 15))
    ∧ ¬ ∀ w ∈ ({ stMr [(0, rsv)] [] with waiters := [⟨3, 15, .mrel, 2, 0, 0, 0, 0, 0, false⟩] } : State).waiters, ¬ (w.gid = 3 ∧ w.sub = 15) := by
  decide +kernel

theorem witness_PassSetup_held : let g := { (stMr [(0, rsv)] image0).group 3 with vst := [(0, .empty)] }
    ∀ x ∈ viewTiles g, g.heldOn x.1 x.2 = none := by decide +kernel

/-- MLDB with no drain before it, and with one into the bytes it reads. -/
theorem witness_BeamMatrix_drains : run0.drains = []
    ∧ ∃ d ∈ [drainOf (.sp 2 0)], d.id < 100 ∧ d.landed = none ∧ ∃ x ∈ d.spans, x.1.meets x.2 (.sp 2 0) 2048 = true := by decide +kernel

/-- A beam core whose last pass waits for its drains, and passes that have ended before. -/
theorem witness_PassSteps_free : let s := st.setEngine 0 {
      resvs := [(0, rsv)], images := image0, queue := [pass0]
      run := some { run0 with ended := true, drains := [drainOf (.sp 2 0)] }, ending := [{ run0 with ended := true }] }
    (∀ r, (s.engine 0).run = some r → r.ended = true) ∧ bestPass (s.engine 0) s.m.ftime = some pass0
    ∧ (∀ x, (s.engine 0).run = some x → ¬ (x.ended = true ∧ x.drains = [] ∧ x.tw ≤ s.m.ftime))
    ∧ (s.engine 0).ending = [{ run0 with ended := true }] ∧ NothingSwept s ∧ (s.group 3).mpDone = []
    ∧ (∀ o ∈ openPasses s 3, olderSeq run0.pass.seq o = false) ∧ (Tbl.look s.groups 3).isSome = true := by
  refine ⟨fun r h => ?_, by decide +kernel, fun x h => ?_, by decide +kernel, by unfold NothingSwept; decide +kernel, by decide +kernel⟩
  · have e : some r = some { run0 with ended := true, drains := [drainOf (.sp 2 0)] } := h.symm.trans (by decide +kernel)
    rw [Option.some.inj e]
  · have e : some x = some { run0 with ended := true, drains := [drainOf (.sp 2 0)] } := h.symm.trans (by decide +kernel)
    rw [Option.some.inj e]
    exact fun k => absurd k.2.1 (by simp)

theorem witness_BindingsAndCapture_retiring : ((stBn 3 1).bind 0).state = 3 ∧ inFlight (stBn 3 1) 0 none = false := by decide +kernel

/-- A plot without a spare, and a tile of the die that firmware has named. -/
theorem witness_RowPrograms_named : let s : State := { stRow 1 2 with
      dies := [(0, { tiles := [(0, { state := 1 })] ++ (List.range 32).map fun k => (1024 + k, { state := 2 }) })]
      m := { (stRow 1 2).m with named := [(0, ⟨0, 3, 7⟩)] } }
    (∀ k < 32, ((s.die 0).tile 0 (1024 + k)).state ≠ 3) ∧ Tbl.look s.m.named 0 = some ⟨0, 3, 7⟩
    ∧ ((s.die 0).tile 3 7).state = 0 ∧ tileBound s ⟨0, 3, 7⟩ = false := by decide +kernel

theorem witness_SystemWords_reads : storePending stIm 3 0x100000 96 = false ∧ storePending stIm 3 (0x100000 + 96) 0 = false := by
  decide +kernel

theorem witness_MachineAndRegisters_spare : ((st.die 0).tile 3 7).state = 0 ∧ tileBound st ⟨0, 3, 7⟩ = false
    ∧ ((stRow 0 1).die 0 |>.tile 0 0).state ≠ 0 ∧ rootsOf1 stNone 0 = rootsOf1 (applyStore stNone (.pa 0x110000 false false) [1]).1 0 := by
  decide +kernel

/-- The record kept from an earlier read at HEAD, and none kept; a control block and a word outside ROOT pages. -/
theorem witness_LaunchesAndBinding_kept : let s := (stLq 0 0x4000).setPart 0 { (stLq 0 0x4000).part 0 with taken := [(0, List.replicate 128 0)] }
    Tbl.look (s.part 0).taken 0 = some (List.replicate 128 0) ∧ Tbl.look ((stLq 0 0x4000).part 0).taken 0 = none
    ∧ (entTlb.place (0x100000 + 8)).isRoot = false := by decide +kernel

/-- A record of a deterministic launch whose write-range table is in a page that stage 2 does not map. -/
def recWait : List Byte := bytesOfNat 8 0x4000 ++ bytesOfNat 8 0 ++ bytesOfNat 4 1 ++ bytesOfNat 2 1 ++ bytesOfNat 2 256 ++ bytesOfNat 2 8
  ++ bytesOfNat 1 0 ++ bytesOfNat 1 1 ++ bytesOfNat 12 0 ++ bytesOfNat 4 1 ++ bytesOfNat 12 0 ++ bytesOfNat 8 0x100800 ++ bytesOfNat 4 0
  ++ bytesOfNat 4 5 ++ bytesOfNat 32 0 ++ bytesOfNat 8 0x2000000 ++ bytesOfNat 4 1 ++ bytesOfNat 12 0

theorem witness_LaunchesAndBinding_table : let s := (stLq 0 0x4000).setPart 0 { (stLq 0 0x4000).part 0 with
      e := { ((stLq 0 0x4000).part 0).e with root2 := 0x500000 } }
    ∃ c, validate s 0 (LaunchRec.ofBytes recWait) recWait = .wait c := by
  intro s
  have h : (match validate s 0 (LaunchRec.ofBytes recWait) recWait with | .wait _ => true | _ => false) = true := by decide +kernel
  split at h
  · exact ⟨_, by assumption⟩
  · cases h

theorem witness_Migration_fetched : ((stRs (exportDone true) 10).part 0).fetched = [] := by decide +kernel

theorem witness_Tenants_leaves : (let w := setStatus stTe 1 { stTe.part 1 with e := entryOf 1 1, ready := true }
    ∀ x ∈ leavesOf w 1, leafLegal w 1 x.1 x.2 = true) ∧ (stS2.core 0).owed = [] := by decide +kernel

/-! ### Ill-formed words -/

/-- Words that break one decode check each, in the order of `Fields`: HOLD and BT on a source that is no register, LEN and the
fields that are not used, operand kinds under UNI and without, FMT, RM, SAT, RK, X, predication, the memory form, a policy
operand that is no scalar, a class Q, J, E or B word's fixed fields, and the entries' own limits. -/
def illFormed : List Instr :=
  [.iadd { fAB with fmt := .i32, hold := .c }, .iadd { fAB with fmt := .i32, btC := true }, .iadd { fAB with fmt := .i32, len := .w96 },
    .iadd { fAB with fmt := .i32, a := .imm } , .iadd { fAB with fmt := .i32, ext := 1, len := .w128 }, .iadd { fAB with fmt := .i32, c := .v 3 }, .iadd { fAB with fmt := .i32, uni := true },
    .iadd { fAB with fmt := .i32, a := .t 0 }, .iadd { fAB with fmt := .i32, d := .s 2 }, .iadd fAB, .iadd { fAB with fmt := .i32, rm := .rz }]
  ++ [.imin { fAB with fmt := .i32, sat := true }, .iadd { fAB with fmt := .i32, rk := true }, .iadd { fAB with fmt := .i32, x := 1 },
    .tick { fU with fmt := .raw, a := .zero, b := .zero, pn := true }, .tick { plainWord with d := .s 2 }, .icmpEq { fAB with fmt := .i32, d := .v 8 },
    .cvt { fAB with fmt := .bf16, c := .v 9 }, .bpq { plainWord with fmt := .f16, a := .v 2, d := .t 0 }, .mov { fAB with fmt := .i32, a := .t 0 },
    .mov { plainWord with fmt := .f32, rk := true, a := .v 3, d := .v 2 }, .mov { plainWord with fmt := .i32, rk := true, a := .v 4, d := .v 2 }]
  ++ [.ldv { fM with len := .w128, uni := true }, .ldv { fM with len := .w128, pol := .v 3 }, .ldv { fM with len := .w128, ext := 0x79 },
    .ldv { fM with len := .w128, ext := 0x47F }, .atomAdd { fM with len := .w128, fmt := .f32 }, .ldp { fM with len := .w128, d := .v 3 },
    .stt { fM with len := .w128, b := .v 3, fmt := .f32 }, .pref { fM with len := .w128, fmt := .raw, x := 1 }]
  ++ [.qpop { fQ with c := .v 1 }, .qpush { fQ with x := 1, d := .zero, c := .zero }, .movi { plainWord with d := .v 1 },
    .bra { plainWord with len := .w96, imm := 2 }, .csrr { plainWord with uni := true, c := .v 7, d := .s 1 }, .csrw { plainWord with uni := true, c := .v 2, a := .s 1 }]
  ++ [.cpy { fCpy with len := .w128, uni := true, ext := 0x3 }, .mrsv { fMr with len := .w128, uni := true, d := .v 8 },
    .mma { fMa with len := .w128, uni := true, fmt := .raw, a := .v 1, d := .zero }, .mdrn { plainWord with len := .w128, uni := true, fmt := .f32, d := .v 0 },
    .layr { fLy with len := .w128, fmt := .bf16, b := .imm, d := .v 3 }, .lprb { fLy with len := .w128, fmt := .bf16, b := .imm }]
  ++ [.cnam { fTh with len := .w128, uni := true, c := .v 0 }, .rpin { plainWord with len := .w128, uni := true, a := .s 4, d := .s 29 },
    .rkst { fRk with fmt := .raw }, .rkst { fRk with fmt := .f32, a := .v 9 }, .rkq { plainWord with uni := true, c := .v 8, d := .s 5 },
    .tlbiVa { plainWord with len := .w128, uni := true, ext := 3, a := .s 4, b := .s 5 }, .astat { plainWord with len := .w128, uni := true, d := .s 31 },
    .abndPub { plainWord with len := .w128, uni := true, d := .s 1 }, .lcapOff { plainWord with len := .w128, uni := true, a := .s 1 }]

theorem test_ill_formed : ∀ i ∈ illFormed, i.wf = false := by decide +kernel

/-- The decoder refuses the word of each, where its length holds the field at fault. -/
theorem test_ill_formed_words : ∀ i ∈ illFormed, i.bytes = 16 → (decode (encode i)).isOk = false := by decide +kernel

/-! ### Words written out from the spec's encodings -/

/-- A word by its fields at their places (R305): OPC, FN, D, A, B, C and a sum of the rest. -/
def low (opc fn d a b c rest : Nat) : Word128 :=
  BitVec.ofNat 128 (opc * 2 ^ 2 + fn * 2 ^ 10 + d * 2 ^ 21 + a * 2 ^ 28 + b * 2 ^ 35 + c * 2 ^ 42 + rest)

/-- The worked words of the reference entries: QPOP (R228), ATOM.fmax (R334), MRSV (R416), RED (R424), RSWP (R429), MMA (R412),
MDRN.mem.add (R410) and ERET (R363). -/
theorem test_worked_words :
    decodeWord 0x0001FFFC49280694 = .ok (.qpop { plainWord with a := .s 4, d := .s 9, uni := true })
    ∧ decodeWord 0x000080C70000000020C1FC144FE01A26 = .ok (.atomFmax { plainWord with
        len := .w128, ext := 0x101, pol := .s 7, a := .s 4, b := .v 2, fmt := .f32, x := 1 })
    ∧ decodeWord 0x0000004700000000_0001FFFC5FE8022E = .ok (.red { plainWord with len := .w128, pol := .s 7, a := .s 5, uni := true })
    ∧ decodeWord 0x0000007F00000000_0001323448A80356 = .ok (.rswp { plainWord with
        len := .w128, a := .s 4, b := .s 6, c := .s 12, d := .s 5, uni := true })
    ∧ decodeWord 0x000040FF00000000_2001FFFE0FE802CA = .ok (.mma { plainWord with len := .w128, ext := 0x81, a := .t 0, x := 1, uni := true })
    ∧ decodeWord 0x0000007F00000000_20C1FFFC1FE80ADA = .ok (.mdrnMem { plainWord with len := .w128, a := .s 1, fmt := .f32, x := 1, uni := true })
    ∧ decodeWord 0x0001FFFFFFE80198 = .ok (.eret { plainWord with uni := true }) :=
  ⟨ok_eq (by decide +kernel), ok_eq (by decide +kernel), ok_eq (by decide +kernel), ok_eq (by decide +kernel), ok_eq (by decide +kernel),
    ok_eq (by decide +kernel), ok_eq (by decide +kernel)⟩

/-- One word of each lane family (R316): OPC, FN and operands as the opcode map and R309 number them, FMT at bit 54. -/
theorem test_lane_words :
    decodeWord (low 0x04 1 2 1 3 0x7F (6 * 2 ^ 54 + 2 ^ 60)) = .ok (.isub { plainWord with fmt := .i8, sat := true, a := .v 1, b := .v 3, d := .v 2 })
    ∧ decodeWord (low 0x0B 2 2 1 3 0x7F (1 * 2 ^ 54)) = .ok (.sar { plainWord with fmt := .i32, a := .v 1, b := .v 3, d := .v 2 })
    ∧ decodeWord (low 0x23 5 6 1 3 0x7F (4 * 2 ^ 54 + 1 * 2 ^ 61)) = .ok (.fcmpGe { plainWord with fmt := .bf16, x := 1, a := .v 1, b := .v 3, d := .v 6 })
    ∧ decodeWord (low 0x24 1 2 1 0x7F 0x7F (3 * 2 ^ 54 + 2 * 2 ^ 58)) = .ok (.frsq { plainWord with fmt := .f32, rm := .ru, a := .v 1, d := .v 2 })
    ∧ decodeWord (low 0x41 0 2 4 0x7F 0x7F (4 * 2 ^ 54)) = .ok (.pack { plainWord with fmt := .bf16, a := .v 4, d := .v 2 })
    ∧ decodeWord (low 0x52 0 2 1 3 0x7F (2 ^ 49)) = .ok (.lshf { plainWord with btA := true, a := .v 1, b := .v 3, d := .v 2 })
    ∧ decodeWord (low 0x53 2 0x44 0x7F 0x7F 3 0) = .ok (.voteBallot { plainWord with c := .v 3, d := .s 4 })
    ∧ decodeWord (low 0x54 4 2 1 0x7F 0x7F (3 * 2 ^ 54)) = .ok (.gscanAdd { plainWord with fmt := .f32, a := .v 1, d := .v 2 }) :=
  ⟨ok_eq (by decide +kernel), ok_eq (by decide +kernel), ok_eq (by decide +kernel), ok_eq (by decide +kernel), ok_eq (by decide +kernel),
    ok_eq (by decide +kernel), ok_eq (by decide +kernel), ok_eq (by decide +kernel)⟩

/-- Control flow, system and synchronisation words: LEN 01 for class J, UNI at bit 19, PG at bits 17:15, the kind mask in C. -/
theorem test_control_words :
    decodeWord (low 0x60 0 0x7F 0x7F 0x7F 0x7F (1 + 2 * 2 ^ 15 + 8 * 2 ^ 64)) = .ok (.bra { plainWord with len := .w96, pg := 2, imm := 8 })
    ∧ decodeWord (low 0x63 0 0x7F 2 0x7F 0x7F 0) = .ok (.ret { plainWord with a := .v 2 })
    ∧ decodeWord (low 0x68 1 0x7F 0x41 0x7F 4 (2 ^ 19)) = .ok (.csrw { plainWord with uni := true, a := .s 1, c := .v 4 })
    ∧ decodeWord (low 0x6C 0 0x7F 0x44 0x45 0x7F (2 + 2 ^ 19 + 0x7F * 2 ^ 96)) = .ok (.tlbiVa { plainWord with len := .w128, uni := true, a := .s 4, b := .s 5 })
    ∧ decodeWord (low 0xA6 3 0x42 0x7F 0x7F 5 (2 ^ 19)) = .ok (.evrtRd { plainWord with uni := true, d := .s 2, c := .v 5 })
    ∧ decodeWord (low 0xA4 2 3 0x44 0x45 0x7F (2 ^ 19)) = .ok (.bart { plainWord with uni := true, d := .v 3, a := .s 4, b := .s 5 }) :=
  ⟨ok_eq (by decide +kernel), ok_eq (by decide +kernel), ok_eq (by decide +kernel), ok_eq (by decide +kernel), ok_eq (by decide +kernel),
    ok_eq (by decide +kernel)⟩

/-- Memory, engine, array and thicket words: INDEX at bits 109:103, SCALE at 111:110, POL at 102:96, IMM32 at 95:64. -/
theorem test_memory_words :
    decodeWord (low 0x80 0 2 0x44 0x7F 0x7F (2 + 3 * 2 ^ 54 + 16 * 2 ^ 64 + 0x47 * 2 ^ 96 + 0x78 * 2 ^ 103 + 2 * 2 ^ 110))
        = .ok (.ldv { plainWord with len := .w128, fmt := .f32, a := .s 4, d := .v 2, imm := 16, pol := .s 7, ext := 0x178 })
    ∧ decodeWord (low 0x83 0 0x7F 0x44 0x45 0x7F (2 + 2 ^ 19 + 1 * 2 ^ 54 + 0x7F * 2 ^ 96 + 0x7F * 2 ^ 103 + 3 * 2 ^ 113))
        = .ok (.sts { plainWord with len := .w128, uni := true, fmt := .i32, a := .s 4, b := .s 5, ext := 0xC7F })
    ∧ decodeWord (low 0x8A 0 0x42 0x44 0x45 0x46 (2 + 2 ^ 19 + 0x7F * 2 ^ 96 + 4 * 2 ^ 103))
        = .ok (.cpy { plainWord with len := .w128, uni := true, a := .s 4, b := .s 5, c := .s 6, d := .s 2, ext := 4 })
    ∧ decodeWord (low 0xC5 0 0x42 0x7F 0x7F 0x7F (2 + 2 ^ 19 + 9 * 2 ^ 64 + 0x7F * 2 ^ 96))
        = .ok (.astat { plainWord with len := .w128, uni := true, d := .s 2, imm := 9 })
    ∧ decodeWord (low 0xD3 0 0x7F 0x44 0x45 8 (2 + 2 ^ 19 + 0x7F * 2 ^ 96 + 1 * 2 ^ 103))
        = .ok (.cget { plainWord with len := .w128, uni := true, a := .s 4, b := .s 5, c := .v 8, ext := 1 })
    ∧ decodeWord (low 0xE0 0 0x7F 8 0x7F 0x7F (3 * 2 ^ 54)) = .ok (.rkst { plainWord with fmt := .f32, a := .v 8 }) :=
  ⟨ok_eq (by decide +kernel), ok_eq (by decide +kernel), ok_eq (by decide +kernel), ok_eq (by decide +kernel), ok_eq (by decide +kernel),
    ok_eq (by decide +kernel)⟩

/-! ### Results the spec works out -/

/-- Group 3 with `n` real lanes and words in its window: register, lane, value. -/
def stV (n : Nat) (ws : List (Nat × Nat × Nat)) : State := stG fun g => { g with
  ident := { g.ident with nreal := n }, subs := [(15, { g.sub 15 with mask := mlow n })]
  win := ws.foldl (fun (m : Mem) x => m.putNum (1024 * x.1 + 4 * x.2.1) 4 x.2.2) [] }
/-- Lane `l` of a register, and the team's TSF, after one instruction. -/
def after (i : Instr) (n : Nat) (ws : List (Nat × Nat × Nat)) (d l : Nat) : Option (Nat × Nat) :=
  match exec i (stV n ws) with
  | .next t => some (((t.group 3).lane d l).toNat, (t.team 2).tsf.toNat)
  | _ => none
/-- v4 := v1 op v2 op v3. -/
def fV (t : Tag) : Fields := { plainWord with fmt := t, a := .v 1, b := .v 2, d := .v 4 }
def f1 (t : Tag) : Fields := { plainWord with fmt := t, a := .v 1, d := .v 4 }
def f3 (t : Tag) : Fields := { fV t with c := .v 3 }
def ab (a b : Nat) : List (Nat × Nat × Nat) := [(1, 0, a), (2, 0, b)]

/-- R388: IADD.n8.sat and IADD.i8.sat of 0xF0 and 0x20. -/
theorem test_iadd_sat : (after (.iadd { fV .n8 with sat := true }) 1 (ab 0xF0 0x20) 4 0).map (·.1) = some 0xFF
    ∧ after (.iadd { fV .i8 with sat := true }) 1 (ab 0xF0 0x20) 4 0 = some (0x10, 0) := by decide +kernel

/-- R393: the products of 0xFFFFFFFF and 2. -/
theorem test_imul : after (.imulh (fV .i32)) 1 (ab 0xFFFFFFFF 2) 4 0 = some (0xFFFFFFFF, 0)
    ∧ after (.imulh (fV .n32)) 1 (ab 0xFFFFFFFF 2) 4 0 = some (1, 0) ∧ after (.imul (fV .i32)) 1 (ab 0xFFFFFFFF 2) 4 0 = some (0xFFFFFFFE, 0) := by
  decide +kernel

/-- R432: shifts of 0x80000010. -/
theorem test_shifts : after (.sar (fV .n32)) 1 (ab 0x80000010 4) 4 0 = some (0xF8000001, 0)
    ∧ after (.shr (fV .i32)) 1 (ab 0x80000010 4) 4 0 = some (0x08000001, 0) ∧ after (.shl (fV .i32)) 1 (ab 0x80000010 40) 4 0 = some (0, 0) := by
  decide +kernel

/-- R337: BFX of 0xF0F01234 at p = 16, n = 8. -/
theorem test_bfx : after (.bfx (f3 .n32)) 1 [(1, 0, 0xF0F01234), (2, 0, 16), (3, 0, 8)] 4 0 = some (0xF0, 0)
    ∧ after (.bfx (f3 .i32)) 1 [(1, 0, 0xF0F01234), (2, 0, 16), (3, 0, 8)] 4 0 = some (0xFFFFFFF0, 0) := by decide +kernel

/-- R89: FMAX of a NaN and 1000.5, and of −0 and +0; FMIN of the same zeros. -/
theorem test_fmax : (after (.fmax (fV .f32)) 1 (ab 0x7FC00000 0x447A2000) 4 0).map (·.1) = some 0x447A2000
    ∧ (after (.fmax (fV .f32)) 1 (ab 0x80000000 0) 4 0).map (·.1) = some 0 ∧ (after (.fmin (fV .f32)) 1 (ab 0x80000000 0) 4 0).map (·.1) = some 0x80000000 := by
  decide +kernel

/-- R380: FRCP of 3.0; R377: FEXP2 of 0.5 and −149.0, FLOG2 of 8.0. -/
theorem test_elementary : after (.frcp (f1 .f32)) 1 (ab 0x40400000 0) 4 0 = some (0x3EAAAAAB, Flag.nx.toNat)
    ∧ after (.fexp2 (f1 .f32)) 1 (ab 0x3F000000 0) 4 0 = some (0x3FB504F3, Flag.nx.toNat)
    ∧ after (.fexp2 (f1 .f32)) 1 (ab 0xC3150000 0) 4 0 = some (1, 0) ∧ after (.flog2 (f1 .f32)) 1 (ab 0x41000000 0) 4 0 = some (0x40400000, 0) := by
  decide +kernel

/-- R360: CVT.bf16.f32.e1 of 1.00390625 beside 2.0, under RNE and RU. -/
theorem test_cvt : after (.cvt { fV .bf16 with c := .v 3, x := 1 }) 1 (ab 0x3F808000 0x4000) 4 0 = some (0x3F804000, Flag.nx.toNat)
    ∧ after (.cvt { fV .bf16 with c := .v 3, x := 1, rm := .ru }) 1 (ab 0x3F808000 0x4000) 4 0 = some (0x3F814000, Flag.nx.toNat) := by decide +kernel

/-- R88: CVT.n32.i32 of −1 without and with SAT; R92: 0.0859375 to BP8 is 0x3D. -/
theorem test_cvt_int : after (.cvt { f1 .n32 with c := .v 1 }) 1 (ab 0xFFFFFFFF 0) 4 0 = some (0xFFFFFFFF, 0)
    ∧ (after (.cvt { f1 .n32 with c := .v 1, sat := true }) 1 (ab 0xFFFFFFFF 0) 4 0).map (·.1) = some 0
    ∧ (after (.cvt { fV .bp8 with c := .v 3 }) 1 (ab 0x3DB00000 0) 4 0).map (·.1 % 256) = some 0x3D := by decide +kernel

/-- R420: PACK.bf16 of 1.0 and 1.00390625 (v4 and v5), here in v2 and v3; UNPK of the result. -/
theorem test_pack : after (.pack { f1 .bf16 with a := .v 2 }) 1 [(2, 0, 0x3F800000), (3, 0, 0x3F808000)] 4 0 = some (0x3F803F80, Flag.nx.toNat)
    ∧ after (.unpk (f1 .bf16)) 1 (ab 0x3F803F80 0) 5 0 = some (0x3F800000, 0) := by decide +kernel

/-- R422: QXCH.i32 by 1 and QBCST.i32 of lane 3 with 10·l in lane l. -/
theorem test_exchange : let ws := (List.range 8).map fun l => (1, l, 10 * l)
    (after (.qxch { fV .i32 with b := .imm, imm := 1, len := .w96 }) 8 ws 4 0).map (·.1) = some 10
    ∧ (after (.qxch { fV .i32 with b := .imm, imm := 1, len := .w96 }) 8 ws 4 1).map (·.1) = some 0
    ∧ (after (.qxch { fV .i32 with b := .imm, imm := 1, len := .w96 }) 8 ws 4 6).map (·.1) = some 70
    ∧ (after (.qbcst { fV .i32 with b := .imm, imm := 3, len := .w96 }) 8 ws 4 5).map (·.1) = some 70 := by decide +kernel

/-- R385: GRED.add of 2^24, 1, 1, 1 and 1 in lanes 0 to 4. -/
theorem test_gred : after (.gredAdd (f1 .f32)) 5 [(1, 0, 0x4B800000), (1, 1, 0x3F800000), (1, 2, 0x3F800000), (1, 3, 0x3F800000), (1, 4, 0x3F800000)] 4 0
    = some (0x4B800002, Flag.nx.toNat) := by decide +kernel

/-- R170's example (R8, R168, R174): the line at 0x0004_0080 has line hash 9, slice 9 and port 64. -/
theorem test_line_places : lineHash 0x40080 = 9 ∧ sliceOf 0x40080 = 9 ∧ portOf 0x40080 = 64 := by decide +kernel

/-- R97: the dot rule on c = 2^24 and products 1, 1 and 3 × 2^−62; R184: the tree of a RED of 2^24, 1, 1 and 1. -/
theorem test_dot_rule : dotRule (FFmt.f32.read 0x4B800000) [.fin 1 0, .fin 1 0, .fin 3 (-62)] = (0x4B800001, Flag.nx)
    ∧ (redElem 0 [0x4B800000, 0x3F800000, 0x3F800000, 0x3F800000]).1 = 0x4B800001 := by decide +kernel

end Sys2Proof.Tests
end

section
/-!
PROOF. What power-up and reset leave (R12, R13, R126, R283).
-/

namespace Sys2Proof.Proofs

open Sys2Proof.Machine

/-- With an empty agenda and nothing in flight the machine has no move of its own: a step lets one tick pass. -/
theorem step_reset : step State.reset = .next (({ State.reset with rotor := 1 } : State).wait 1) := rfl

theorem reset_memoriesWf : memoriesWf State.reset := ⟨Mem.wf_nil, Mem.wf_nil, Mem.wf_nil⟩

/-- Settles O60: every table of the reset state is empty, so each accessor reads its default. -/
theorem resetState : Obligations.ResetState := by
  have tables : State.reset.groups = [] ∧ State.reset.teams = [] ∧ State.reset.launches = [] ∧ State.reset.objs = []
      ∧ (∀ p, (State.reset.part p).e.state = 0) ∧ (∀ n, (State.reset.bind n).state = 0)
      ∧ ∀ n, (Tbl.get {} State.reset.topset n).on = true ∧ (Tbl.get {} State.reset.topset n).nprb = 8 :=
    ⟨rfl, rfl, rfl, rfl, fun _ => rfl, fun _ => rfl, fun _ => ⟨rfl, rfl⟩⟩
  have window : State.reset.m.stage = 0 ∧ State.reset.m.busy = false ∧ State.reset.m.errc = 0 ∧ State.reset.m.dieok = 0
      ∧ State.reset.m.hcmd = 0 ∧ State.reset.issue = none := ⟨rfl, rfl, rfl, rfl, rfl, rfl⟩
  obtain ⟨hstage, hbusy, herrc, hdieok, hhcmd, hissue⟩ := window
  exact ⟨reset_memoriesWf, hstage, hbusy, herrc, hdieok, hhcmd, hissue, ⟨_, step_reset⟩, fun _ => rfl, tables⟩

end Sys2Proof.Proofs
end

section
/-!
PROOF. Page tables that use their first entries alone: what their trees hold, and what firmware's store to them does (R285,
R293, R192).
-/

namespace Sys2Proof.Proofs

open Sys2Proof.Machine

/-- An unlisted byte reads as 0. -/
theorem look_unlisted {α : Type} {t : List (Nat × α)} {k : Nat} (h : ∀ c ∈ t, c.1 ≠ k) : Tbl.look t k = none := by
  induction t with
  | nil => rfl
  | cons c t ih =>
    rw [Tbl.look, if_neg (h c (List.mem_cons_self ..))]
    exact ih fun d hd => h d (List.mem_cons_of_mem _ hd)

/-- A number none of whose bytes is listed reads as 0. -/
theorem num_unlisted {m : Mem} {a n : Nat} (h : ∀ c ∈ m, c.1 < a ∨ a + n ≤ c.1) : m.num a n = 0 := by
  induction n generalizing a with
  | zero => rfl
  | succ n ih =>
    have hr : m.read a = 0 := by
      rw [Mem.read, Tbl.get, look_unlisted fun c hc => by have := h c hc; omega]; rfl
    have ht : natOfBytes (m.bytes (a + 1) n) = 0 := ih fun c hc => by have := h c hc; omega
    rw [Mem.num, Mem.bytes, natOfBytes, hr, ht]; rfl

/-- Every page lists no byte past the first `k` of its 8-byte entries. -/
def ShortPages (k : Nat) (m : Mem) : Prop := ∀ c ∈ m, c.1 % 65536 < 8 * k

theorem ShortPages.entry_zero {k : Nat} {m : Mem} (h : ShortPages k m) {table i : Nat} (ht : table % 65536 = 0) (hk : k ≤ i)
    (hi : i < 512) : m.num (table + 8 * i) 8 = 0 :=
  num_unlisted fun c hc => by have := h c hc; omega

/-- Entries that contribute nothing need not be visited. -/
theorem flatMap_range_short {α : Type} {f : Nat → List α} {k n : Nat} (hk : k ≤ n) (h : ∀ i, k ≤ i → i < n → f i = []) :
    (List.range n).flatMap f = (List.range k).flatMap f := by
  obtain ⟨d, rfl⟩ := Nat.exists_eq_add_of_le hk
  rw [List.range_add, List.flatMap_append, List.flatMap_map]
  have : (List.range d).flatMap (fun i => f (k + i)) = [] := by
    rw [List.flatMap_eq_nil_iff]
    exact fun i hi => h _ (by omega) (by have := List.mem_range.1 hi; omega)
  rw [this, List.append_nil]

/-! ### Stage 2 -/

/-- What entry `i` of a stage-2 table contributes to the leaves, a table below it contributing `below`. -/
def leafEntry (m : Mem) (self l base table : Nat) (below : Nat → Nat → List (Nat × Leaf2)) (i : Nat) : List (Nat × Leaf2) :=
  let size := 2 ^ (16 + 9 * l)
  let e := m.num (table + 8 * i) 8
  if !bitN e 0 then []
  else if bitN e 1 then
    match walk2 m self (i * size) (l + 1) table with
    | some x => [(base + i * size, { x with base := base + i * size })]
    | none => []
  else if l = 0 then [] else below (base + i * size) (bitsN e 16 36 * 65536)

theorem leaves2_succ (m : Mem) (self l base table : Nat) :
    leaves2 m self (l + 1) base table = (List.range 512).flatMap (leafEntry m self l base table (leaves2 m self l)) := rfl

theorem leafEntry_zero {m : Mem} {self l base table i : Nat} {below : Nat → Nat → List (Nat × Leaf2)}
    (h : m.num (table + 8 * i) 8 = 0) : leafEntry m self l base table below i = [] := by
  rw [leafEntry, h]; rfl

/-- Only tables at page boundaries are below an entry. -/
theorem leafEntry_congr {m : Mem} {self l base table i : Nat} {f g : Nat → Nat → List (Nat × Leaf2)}
    (h : ∀ b t, t % 65536 = 0 → f b t = g b t) : leafEntry m self l base table f i = leafEntry m self l base table g i := by
  simp only [leafEntry]
  rw [h _ _ (Nat.mul_mod_left ..)]

/-- `leaves2` over the first `k` entries of each table. -/
def leavesIn (k : Nat) (m : Mem) (self : Nat) : Nat → Nat → Nat → List (Nat × Leaf2)
  | 0, _, _ => []
  | l + 1, base, table => (List.range k).flatMap (leafEntry m self l base table (leavesIn k m self l))

theorem leaves2_eq_leavesIn {k : Nat} {m : Mem} (hk : k ≤ 512) (hm : ShortPages k m) (self l base table : Nat)
    (ht : table % 65536 = 0) : leaves2 m self l base table = leavesIn k m self l base table := by
  induction l generalizing base table with
  | zero => rfl
  | succ l ih =>
    rw [leaves2_succ, flatMap_range_short hk fun i hi hn => leafEntry_zero (hm.entry_zero ht hi hn), leavesIn]
    exact List.flatMap_congr fun i _ => leafEntry_congr fun b t h => ih b t h

theorem leavesOf_eq {k : Nat} {s : State} (hk : k ≤ 512) (hm : ShortPages k s.mem) (p : Nat) (h0 : (s.part p).e.root2 ≠ 0)
    (ht : (s.part p).e.root2 % 65536 = 0) : leavesOf s p = leavesIn k s.mem s.m.modno 4 0 (s.part p).e.root2 := by
  rw [leavesOf, if_neg h0, leaves2_eq_leavesIn hk hm _ _ _ _ ht]

/-! ### Stage 1 -/

/-- What entry `i` of a stage-1 table at `at_` contributes to the ROOT ranges, a table below it contributing `below`. -/
def rootEntry (m : Mem) (l at_ : Nat) (below : Nat → List (Nat × Nat × Nat)) (i : Nat) : List (Nat × Nat × Nat) :=
  let e := m.num (at_ + 8 * i) 8
  let addr := bitsN e 16 36 * 65536
  if !bitN e 0 then []
  else if bitN e 1 then (if l ≤ 1 && bitN e 4 then [(addr, 2 ^ (16 + 9 * l), bitsN e 5 2)] else [])
  else if l = 0 then [] else below addr

theorem rootEntry_invalid {m : Mem} {l at_ i : Nat} {below : Nat → List (Nat × Nat × Nat)} (h : bitN (m.num (at_ + 8 * i) 8) 0 = false) :
    rootEntry m l at_ below i = [] := by
  simp [rootEntry, h]

/-- An entry without the leaf bit, above the lowest level, hands on what is below it. -/
theorem rootEntry_below {m : Mem} {l at_ i : Nat} {below : Nat → List (Nat × Nat × Nat)} (h0 : bitN (m.num (at_ + 8 * i) 8) 0 = true)
    (h1 : bitN (m.num (at_ + 8 * i) 8) 1 = false) : rootEntry m (l + 1) at_ below i = below (bitsN (m.num (at_ + 8 * i) 8) 16 36 * 65536) := by
  simp [rootEntry, h0, h1]

/-- The entries of a stage-1 table that stage 2 maps onto its own address. -/
theorem roots1_succ {m : Mem} {self root2 l table : Nat} {t : Leaf2} (h : walk2 m self table 4 root2 = some t) (hr : t.remote = false)
    (hb : t.base = table) (hf : t.final = table) :
    roots1 m self root2 (l + 1) table = (List.range 512).flatMap (rootEntry m l table (roots1 m self root2 l)) := by
  simp only [roots1, h, hr, Bool.false_eq_true, if_false, hb, hf, Nat.sub_self, Nat.add_zero]
  rfl

theorem rootsOf1_eq {s : State} {p : Nat} (h : (s.part p).e.root2 ≠ 0) :
    rootsOf1 s p = roots1 s.mem s.m.modno (s.part p).e.root2 4 (s.part p).e.root1 := if_neg h

/-! ### Firmware's stores -/

/-- The pages that a change of a partition's tables maps as ROOT pages, which then read as zero (R192). -/
def freshPages (s0 s : State) (p : Nat) : List (Nat × Nat) :=
  (localPages s p).filter fun x => rootPage s p x.1 && !((localPages s0 p).contains x && rootPage s0 p x.1)

/-- Legal new leaves are taken over: nothing but the fresh ROOT pages changes in memory. -/
theorem relink_of_legal {s0 s : State} {p : Nat} (h : ∀ x ∈ leavesOf s p, x ∈ leavesOf s0 p ∨ leafLegal s p x.1 x.2 = true) :
    ∃ t, relink s0 s p = some t ∧ t.parts = s.parts ∧ t.m = s.m
      ∧ t.mem = (freshPages s0 s p).foldl (fun (m : Mem) x => m.clear (65536 * x.2) 65536) s.mem := by
  have hall : ((leavesOf s p).all fun x => (leavesOf s0 p).contains x || leafLegal s p x.1 x.2) = true := by
    simpa [List.all_eq_true] using h
  rw [relink, if_pos hall]
  exact ⟨_, rfl, rfl, rfl, rfl⟩

/-- Two partitions are relinked in turn. -/
theorem relinkAll_pair {s0 s : State} {p q : Nat} {x y : Part} (h : s.parts = [(p, x), (q, y)]) :
    relinkAll s0 s = (relink s0 s p).bind fun t => relink s0 t q := by
  rw [relinkAll, h]; rfl

/-! ### A store that the tables of another partition undo -/

/-- Partition 0 keeps its stage-2 table at 0x20000, whose entry 0 is itself and whose entry 1 maps the page 0x10000 onto
itself; its stage-1 table, with no valid entry yet, stands at 0x10000. Partition 1, with a quota of 0, has that table for stage 2. -/
def sharedTables : State :=
  { parts := [(0, { e := { ({} : Part).e with root1 := 0x10000, root2 := 0x20000 } }), (1, { e := { ({} : Part).e with root2 := 0x10000 } })]
    mem := [(0x10000, 2), (0x20000, 1), (0x20002, 2), (0x20008, 3), (0x2000A, 1)] }

/-- The entries that firmware stores at 0x10000: the table itself, a ROOT leaf of stage 1, and a leaf of stage 2, which is
beyond the quota of partition 1. -/
def sharedEntries : List Byte := [1, 0, 1, 0, 0, 0, 0, 0, 0x13, 0, 1, 0, 0, 0, 0, 0, 3, 0, 3]

def sharedStored : State := (applyStore sharedTables (.pa 0x10000 false false) sharedEntries).1

theorem sharedStored_parts : sharedStored.parts = sharedTables.parts := rfl

theorem sharedTables_modno : sharedTables.m.modno = 0 := rfl

theorem sharedStored_modno : sharedStored.m.modno = 0 := rfl

theorem sharedStored_mem : sharedStored.mem = [(0x10000, 1), (0x10002, 1), (0x10008, 0x13), (0x1000A, 1), (0x10010, 3), (0x10012, 3),
    (0x20000, 1), (0x20002, 2), (0x20008, 3), (0x2000A, 1)] := by decide +kernel

/-- The one leaf of partition 0. -/
def ownLeaf : Nat × Leaf2 := (0x10000, ⟨0x10000, 0x10000, 0x10000, false, false, false⟩)

/-- The leaf that the store gives to partition 1. -/
def badLeaf : Nat × Leaf2 := (0x20000, ⟨0x20000, 0x10000, 0x30000, false, false, false⟩)

theorem shortPages_sharedTables : ShortPages 3 sharedTables.mem := by unfold ShortPages; decide

theorem shortPages_sharedStored : ShortPages 3 sharedStored.mem := by rw [sharedStored_mem]; unfold ShortPages; decide

theorem leavesOf_sharedTables_0 : leavesOf sharedTables 0 = [ownLeaf] := by
  rw [leavesOf_eq (by decide) shortPages_sharedTables 0 (by decide) (by decide)]; decide +kernel

theorem leavesOf_sharedTables_1 : leavesOf sharedTables 1 = [] := by
  rw [leavesOf_eq (by decide) shortPages_sharedTables 1 (by decide) (by decide)]; decide +kernel

theorem leavesOf_sharedStored_0 : leavesOf sharedStored 0 = [ownLeaf] := by
  rw [leavesOf_eq (by decide) shortPages_sharedStored 0 (by decide) (by decide), sharedStored_mem]; decide +kernel

theorem leavesOf_sharedStored_1 : leavesOf sharedStored 1 = [badLeaf] := by
  rw [leavesOf_eq (by decide) shortPages_sharedStored 1 (by decide) (by decide), sharedStored_mem]; decide +kernel

theorem part_sharedTables : (sharedTables.part 0).e.root2 = 0x20000 ∧ (sharedTables.part 0).e.root1 = 0x10000 := by decide

/-- The entries that both states find in the stage-1 table of partition 0. -/
theorem roots1_sharedTables (l : Nat) : roots1 sharedTables.mem 0 0x20000 (l + 1) 0x10000 =
    (List.range 512).flatMap (rootEntry sharedTables.mem l 0x10000 (roots1 sharedTables.mem 0 0x20000 l)) :=
  roots1_succ (t := ownLeaf.2) (by decide +kernel) rfl rfl rfl

theorem roots1_sharedStored (l : Nat) : roots1 sharedStored.mem 0 0x20000 (l + 1) 0x10000 =
    (List.range 512).flatMap (rootEntry sharedStored.mem l 0x10000 (roots1 sharedStored.mem 0 0x20000 l)) :=
  roots1_succ (t := ownLeaf.2) (by rw [sharedStored_mem]; decide +kernel) rfl rfl rfl

theorem rootsOf1_sharedTables : rootsOf1 sharedTables 0 = [] := by
  have first : ∀ i < 3, bitN (sharedTables.mem.num (0x10000 + 8 * i) 8) 0 = false := by decide +kernel
  have invalid : ∀ i < 512, bitN (sharedTables.mem.num (0x10000 + 8 * i) 8) 0 = false := fun i hi => by
    by_cases h : i < 3
    · exact first i h
    · rw [shortPages_sharedTables.entry_zero (by decide) (Nat.le_of_not_lt h) hi]; rfl
  obtain ⟨root2, root1⟩ := part_sharedTables
  rw [rootsOf1_eq (by rw [root2]; decide), root2, root1, sharedTables_modno, roots1_sharedTables, List.flatMap_eq_nil_iff]
  exact fun i hi => rootEntry_invalid (invalid i (List.mem_range.1 hi))

theorem sharedStored_num : sharedStored.mem.num (0x10000 + 8 * 0) 8 = 0x10001 ∧ sharedStored.mem.num (0x10000 + 8 * 1) 8 = 0x10013 := by
  rw [sharedStored_mem]; decide +kernel

/-- The stored table is below itself at every level. -/
theorem mem_roots1_sharedStored {x : Nat × Nat × Nat} {l : Nat} (h : x ∈ roots1 sharedStored.mem 0 0x20000 (l + 1) 0x10000) :
    x ∈ roots1 sharedStored.mem 0 0x20000 (l + 2) 0x10000 := by
  obtain ⟨entry, -⟩ := sharedStored_num
  rw [roots1_sharedStored, List.mem_flatMap]
  refine ⟨0, List.mem_range.2 (by decide), ?_⟩
  rw [rootEntry_below (by rw [entry]; rfl) (by rw [entry]; rfl), entry]
  exact h

theorem mem_rootsOf1_sharedStored : (0x10000, 0x10000, 0) ∈ rootsOf1 sharedStored 0 := by
  obtain ⟨-, entry⟩ := sharedStored_num
  obtain ⟨root2, root1⟩ := part_sharedTables
  have leaf : (0x10000, 0x10000, 0) ∈ roots1 sharedStored.mem 0 0x20000 1 0x10000 := by
    rw [roots1_sharedStored, List.mem_flatMap]
    refine ⟨1, List.mem_range.2 (by decide), ?_⟩
    rw [rootEntry, entry]; decide
  have part : sharedStored.part 0 = sharedTables.part 0 := by rw [State.part, State.part, sharedStored_parts]
  rw [rootsOf1_eq (by rw [part, root2]; decide), part, root2, root1, sharedStored_modno]
  exact mem_roots1_sharedStored (mem_roots1_sharedStored (mem_roots1_sharedStored leaf))

/-- Partition 0 is relinked first: the page that holds both tables is a ROOT page now, and is cleared. -/
theorem freshPages_shared : freshPages sharedTables sharedStored 0 = [(1, 1)] := by
  have pages : localPages sharedStored 0 = [(1, 1)] := by rw [localPages, leavesOf_sharedStored_0]; decide
  have root : rootPage sharedStored 0 1 = true := by
    rw [rootPage, List.any_eq_true]
    exact ⟨_, mem_rootsOf1_sharedStored, by decide⟩
  have noRoot : rootPage sharedTables 0 1 = false := by rw [rootPage, rootsOf1_sharedTables]; rfl
  rw [freshPages, pages]
  simp [root, noRoot]

/-- The leaf that was not to be made has gone by the turn of partition 1, and the store is taken over. -/
theorem relinkAll_shared : ∃ t, relinkAll sharedTables sharedStored = some t ∧ t.mem.read 0x10000 = 0 := by
  obtain ⟨v, hv, vparts, vm, vmem⟩ := relink_of_legal (s0 := sharedTables) (s := sharedStored) (p := 0) fun x hx =>
    .inl (by rw [leavesOf_sharedTables_0]; rwa [leavesOf_sharedStored_0] at hx)
  have cleared : v.mem = [(0x20000, 1), (0x20002, 2), (0x20008, 3), (0x2000A, 1)] := by
    rw [vmem, freshPages_shared, sharedStored_mem]; decide +kernel
  have part : v.part 1 = sharedTables.part 1 := by rw [State.part, State.part, vparts, sharedStored_parts]
  have gone : leavesOf v 1 = [] := by
    rw [leavesOf_eq (k := 3) (by decide) (by rw [cleared]; unfold ShortPages; decide) 1 (by rw [part]; decide) (by rw [part]; decide),
      part, vm, sharedStored_modno, cleared]
    decide +kernel
  obtain ⟨t, ht, -, -, tmem⟩ := relink_of_legal (s0 := sharedTables) (s := v) (p := 1) fun x hx => absurd hx (by simp [gone])
  refine ⟨t, ?_, ?_⟩
  · rw [relinkAll_pair sharedStored_parts, hv, Option.bind_some, ht]
  · have noneFresh : freshPages sharedTables v 1 = [] := by simp [freshPages, localPages, gone]
    rw [tmem, noneFresh, List.foldl_nil, cleared]; decide

/-- A store of firmware's below 2^41 and outside the pages that the reverse table lists is made if the tables stay legal. -/
theorem exec_memory {s : State} {pa : Nat} {bytes : List Byte}
    (h : ∀ i < bytes.length, pa + i < 2 ^ 41 ∧ Tbl.look s.reverse ((pa + i) / 65536) = none) :
    exec (.registerWrite (.memory pa bytes)) s = .next ((relinkAll s (applyStore s (.pa pa false false) bytes).1).getD s) := by
  have all : ((List.range bytes.length).all fun i => decide (pa + i < 2 ^ 41) && (Tbl.look s.reverse ((pa + i) / 65536)).isNone) = true := by
    simpa [List.all_eq_true] using h
  change Host.Outcome.next (if _ then _ else _) = _
  rw [if_pos all]

/-- The clause of `RegisterWrites` on a store that maps a page beyond the quota fails: the clearing of a ROOT page newly mapped
by one partition can take the leaf away before the check of the other. -/
theorem not_registerWrites : ¬ Claim.RegisterWrites := by
  intro h
  obtain ⟨-, -, -, -, -, -, -, -, -, -, -, -, -, hmem, -⟩ := h sharedTables
  have plain : ∀ i < sharedEntries.length, 0x10000 + i < 2 ^ 41 ∧ Tbl.look sharedTables.reverse ((0x10000 + i) / 65536) = none := by decide
  obtain ⟨-, refused⟩ := hmem 0x10000 sharedEntries plain
  have others : ∀ c ∈ sharedTables.parts, c.1 ≠ 1 → leavesOf sharedStored c.1 = leavesOf sharedTables c.1 := by
    have keys : ∀ c ∈ sharedTables.parts, c.1 ≠ 1 → c.1 = 0 := by decide
    intro c hc h1
    rw [keys c hc h1, leavesOf_sharedStored_0, leavesOf_sharedTables_0]
  have illegal : badLeaf ∈ leavesOf sharedStored 1 ∧ badLeaf ∉ leavesOf sharedTables 1 := by
    rw [leavesOf_sharedStored_1, leavesOf_sharedTables_1]; decide
  have kept : exec (.registerWrite (.memory 0x10000 sharedEntries)) sharedTables = .next sharedTables :=
    refused 1 (by decide) others ⟨badLeaf, illegal.1, illegal.2, rfl, .inl (by decide)⟩
  obtain ⟨t, ht, read⟩ := relinkAll_shared
  have same : t = sharedTables := by
    rw [exec_memory plain] at kept
    have := Host.Outcome.next.inj kept
    rwa [← sharedStored, ht, Option.getD_some] at this
  exact absurd read (by rw [same]; decide)

/-- Refutes O48: a store of firmware's that maps a page beyond the quota of partition 1 is made all the same when the ROOT page it
gives to partition 0, relinked first, holds the table of partition 1 and is cleared (`not_registerWrites`). -/
theorem not_machineAndRegisters : ¬ Obligations.MachineAndRegisters := fun h => not_registerWrites h.2

end Sys2Proof.Proofs
end

section
/-!
PROOF. Replay of a die's journals (R136, R139): the record that stands last of a row decides the row.
-/

namespace Sys2Proof.Proofs

open Sys2Proof.Machine

theorem tileKey_inj {p q t u : Nat} (ht : t < 2048) (hu : u < 2048) (h : tileKey p t = tileKey q u) : p = q ∧ t = u := by
  simp only [tileKey] at h; omega

theorem tile_congr {d e : Die} (h : e.tiles = d.tiles) (plot tile : Nat) : e.tile plot tile = d.tile plot tile := by
  rw [Die.tile, Die.tile, h]

/-- A tile after the replay of one record of it. -/
def replayTile (x : TileSt) (a : JRec) : TileSt :=
  if a.state = 3 then (if x.committed.contains a.row then x else { x with committed := x.committed ++ [a.row] })
  else if a.state = 1 ∨ a.state = 2 then x.zeroRow a.row else x

/-- A die after the replay of one record: its tile is replayed, or was so already. -/
theorem replayRow_cases (plot : Nat) (d : Die) (a : JRec) :
    (replayRow plot d a).recs = d.recs ∧
    ((replayRow plot d a).tiles = (d.setTile plot a.tile (replayTile (d.tile plot a.tile) a)).tiles
      ∨ (replayRow plot d a).tiles = d.tiles ∧ replayTile (d.tile plot a.tile) a = d.tile plot a.tile) := by
  unfold replayRow replayTile
  by_cases commit : a.state = 3
  · by_cases done : a.row ∈ (d.tile plot a.tile).committed
    · simp [commit, done]
    · simp [commit, done, Die.setTile]
  · by_cases open_ : a.state = 1 ∨ a.state = 2
    · by_cases retired : (d.tile plot a.tile).state = 2 <;> simp [commit, open_, retired, Die.setTile]
    · simp [commit, open_]

theorem replayRow_tile_same (plot : Nat) (d : Die) (a : JRec) :
    (replayRow plot d a).tile plot a.tile = replayTile (d.tile plot a.tile) a := by
  obtain ⟨-, h | ⟨h, same⟩⟩ := replayRow_cases plot d a
  · rw [tile_congr h]; exact Tbl.get_set_same ..
  · rw [tile_congr h, same]

theorem replayRow_tile_other {plot p t : Nat} (d : Die) {a : JRec} (h : tileKey p t ≠ tileKey plot a.tile) :
    (replayRow plot d a).tile p t = d.tile p t := by
  obtain ⟨-, e | ⟨e, -⟩⟩ := replayRow_cases plot d a
  · rw [tile_congr e]; exact Tbl.get_set_other _ _ _ h
  · rw [tile_congr e]

/-- What a tile holds of a row once a record of the row has been replayed (R139). -/
def RowReplayed (x : TileSt) (a : JRec) : Prop :=
  (a.state = 3 → a.row ∈ x.committed) ∧ (a.state = 1 ∨ a.state = 2 → a.row ∉ x.committed ∧ Tbl.look x.rows a.row = none)

theorem rowReplayed_same (x : TileSt) (a : JRec) : RowReplayed (replayTile x a) a := by
  constructor
  · intro commit
    rw [replayTile, if_pos commit]
    split
    · next h => simpa using h
    · simp
  · intro open_
    rw [replayTile, if_neg (by omega), if_pos open_]
    exact ⟨by simp [TileSt.zeroRow], Tbl.look_del_same ..⟩

/-- The replay of another row's record leaves a row as it is. -/
theorem rowReplayed_other {x : TileSt} {a b : JRec} (hrow : b.row ≠ a.row) (h : RowReplayed x a) : RowReplayed (replayTile x b) a := by
  obtain ⟨hc, ho⟩ := h
  unfold replayTile
  split
  · split
    · exact ⟨hc, ho⟩
    · exact ⟨fun s => List.mem_append_left _ (hc s),
        fun s => ⟨by simp [(ho s).1, Ne.symm hrow], (ho s).2⟩⟩
  · split
    · exact ⟨fun s => by simp [TileSt.zeroRow, hc s, Ne.symm hrow],
        fun s => ⟨by simp [TileSt.zeroRow, (ho s).1], by simp [TileSt.zeroRow, Tbl.look_del_other _ (Ne.symm hrow), (ho s).2]⟩⟩
    · exact ⟨hc, ho⟩

/-- Two records, each with its plot, are of different rows of a die. -/
def OtherRow (y x : Nat × JRec) : Prop := tileKey y.1 y.2.tile ≠ tileKey x.1 x.2.tile ∨ y.1 = x.1 ∧ y.2.tile = x.2.tile ∧ y.2.row ≠ x.2.row

/-- The records of a die's journals that are replayed, in order, each with its plot. -/
def replayed (d : Die) : List (Nat × JRec) := d.journal.flatMap fun c => (lastRecs c.2).map fun a => (c.1, a)

theorem replay_eq (d : Die) : d.replay = (replayed d).foldl (fun d x => replayRow x.1 d x.2) d := by
  simp only [Die.replay, replayed, List.foldl_flatMap, List.foldl_map]

theorem replay_recs (d : Die) : d.replay.recs = d.recs := by
  rw [replay_eq]
  exact List.foldlRecOn (motive := fun e => e.recs = d.recs) _ _ rfl fun e he (x : Nat × JRec) _ => (replayRow_cases x.1 e x.2).1.trans he

/-- Among records of other rows, one record decides its row. -/
theorem rowReplayed_foldl {x : Nat × JRec} (l : List (Nat × JRec)) (h : ∀ y ∈ l, y = x ∨ OtherRow y x) (d : Die)
    (hx : x ∈ l ∨ RowReplayed (d.tile x.1 x.2.tile) x.2) :
    RowReplayed ((l.foldl (fun d y => replayRow y.1 d y.2) d).tile x.1 x.2.tile) x.2 := by
  induction l generalizing d with
  | nil => simpa using hx
  | cons y l ih =>
    refine ih (fun z hz => h z (List.mem_cons_of_mem _ hz)) _ ?_
    by_cases same : y = x
    · subst same
      exact .inr (by rw [replayRow_tile_same]; exact rowReplayed_same _ _)
    · rcases hx with hx | hx
      · exact .inl ((List.mem_cons.1 hx).resolve_left (Ne.symm same))
      · right
        rcases (h y (List.mem_cons_self ..)).resolve_left same with key | ⟨hp, ht, hrow⟩
        · rwa [replayRow_tile_other _ (Ne.symm key)]
        · rw [← hp, ← ht, replayRow_tile_same, hp, ht]
          exact rowReplayed_other hrow hx

theorem mem_lastRecs {js : List JRec} {a : JRec} : a ∈ lastRecs js ↔ a ∈ js ∧ a.valid = true
    ∧ ∀ b ∈ js, b.valid = true → b.tile = a.tile → b.row = a.row → b.seq ≤ a.seq := by
  simp only [lastRecs, List.mem_filter, Bool.not_eq_true', List.any_eq_false, Bool.and_eq_true, beq_iff_eq, decide_eq_true_eq, and_assoc,
    and_imp, not_and, Nat.not_lt]

/-- Sequence numbers tell a journal's valid records apart. -/
theorem valid_eq_of_seq {js : List JRec} (h : ((js.filter (·.valid)).map (·.seq)).Nodup) {a b : JRec} (ha : a ∈ js) (hb : b ∈ js)
    (va : a.valid = true) (vb : b.valid = true) (hs : a.seq = b.seq) : a = b :=
  List.inj_on_of_nodup_map h (List.mem_filter.2 ⟨ha, va⟩) (List.mem_filter.2 ⟨hb, vb⟩) hs

theorem eq_of_sorted {α : Type} {t : List (Nat × α)} (h : Tbl.sorted t = true) {c e : Nat × α} (hc : c ∈ t) (he : e ∈ t)
    (hk : c.1 = e.1) : c = e :=
  List.inj_on_of_nodup_map (((Tbl.sorted_iff t).1 h).imp Nat.ne_of_lt) hc he hk

/-- Replay leaves the row of a journal's highest record as that record says (R139). -/
theorem replay_row {d : Die} (sorted : Tbl.sorted d.journal = true)
    (wf : ∀ c ∈ d.journal, ((c.2.filter (·.valid)).map (·.seq)).Nodup ∧ ∀ a ∈ c.2, a.tile < 2048) {c : Nat × List JRec} (hc : c ∈ d.journal)
    {a : JRec} (ha : a ∈ c.2) (va : a.valid = true)
    (last : ∀ b ∈ c.2, b.valid = true → b.tile = a.tile → b.row = a.row → b.seq ≤ a.seq) : RowReplayed (d.replay.tile c.1 a.tile) a := by
  have mem_replayed : ∀ y, y ∈ replayed d ↔ ∃ e ∈ d.journal, ∃ b ∈ lastRecs e.2, (e.1, b) = y := by simp [replayed]
  rw [replay_eq]
  refine rowReplayed_foldl (x := (c.1, a)) _ (fun y hy => ?_) d (.inl ((mem_replayed _).2 ⟨c, hc, a, mem_lastRecs.2 ⟨ha, va, last⟩, rfl⟩))
  obtain ⟨e, he, b, hb, rfl⟩ := (mem_replayed y).1 hy
  obtain ⟨hbe, vb, lastb⟩ := mem_lastRecs.1 hb
  by_cases key : tileKey e.1 b.tile = tileKey c.1 a.tile
  · obtain ⟨hp, ht⟩ := tileKey_inj ((wf e he).2 b hbe) ((wf c hc).2 a ha) key
    obtain rfl := eq_of_sorted sorted he hc hp
    by_cases hrow : b.row = a.row
    · have seq : b.seq = a.seq := Nat.le_antisymm (last b hbe vb ht hrow) (lastb a ha va ht.symm hrow.symm)
      exact .inl (by rw [valid_eq_of_seq (wf e he).1 hbe ha vb va seq])
    · exact .inr (.inr ⟨rfl, ht, hrow⟩)
  · exact .inr (.inl key)
end Sys2Proof.Proofs
end

section
/-!
PROOF. The binding table rebuilt from the dies' records (R15).
-/

namespace Sys2Proof.Proofs

open Sys2Proof.Machine

theorem look_map {α : Type} (f : α → α) (t : List (Nat × α)) (k : Nat) :
    Tbl.look (t.map fun c => (c.1, f c.2)) k = (Tbl.look t k).map f := by
  induction t with
  | nil => rfl
  | cons c t ih =>
    obtain ⟨j, x⟩ := c
    by_cases h : j = k <;> simp [Tbl.look, h, ih]

/-- A change made to every listed die that leaves the empty die empty. -/
theorem die_map {f : Die → Die} (hf : f {} = {}) (s : State) (d : Nat) :
    ({ s with dies := s.dies.map fun c => (c.1, f c.2) } : State).die d = f (s.die d) := by
  simp only [State.die, Tbl.get, look_map]
  cases Tbl.look s.dies d <;> simp [hf]

theorem die_dropSnaps (s : State) (n : Nat) (gone : BitVec 32 → Bool) (d : Nat) : (dropSnaps s n gone).die d =
    { s.die d with snaps := (s.die d).snaps.filter fun y => !(y.bind == n && gone y.gen) } :=
  die_map (f := fun x => { x with snaps := x.snaps.filter fun y => !(y.bind == n && gone y.gen) }) rfl s d

theorem dropRecs_die (s : State) (n : Nat) (gone : BindE → Bool) (d : Nat) :
    ((dropRecs s n gone).die d).recs = (s.die d).recs.filter (fun r => !(r.bind == n && gone r.entry))
      ∧ ((dropRecs s n gone).die d).tiles = (s.die d).tiles := by
  have recs := die_map (f := fun x => { x with recs := x.recs.filter fun r => !(r.bind == n && gone r.entry) }) rfl s d
  rw [dropRecs, die_dropSnaps]
  exact ⟨(congrArg Die.recs recs :), (congrArg Die.tiles recs :)⟩

theorem mem_dropRecs {s : State} {n : Nat} {gone : BindE → Bool} {d : Nat} {r : NvRec} :
    r ∈ ((dropRecs s n gone).die d).recs ↔ r ∈ (s.die d).recs ∧ ¬ (r.bind = n ∧ gone r.entry = true) := by
  rw [(dropRecs_die s n gone d).1, List.mem_filter, Bool.not_eq_true', ← Bool.not_eq_true, Bool.and_eq_true, beq_iff_eq]

/-! ### What rebuilding leaves alone -/

/-- Only bindings of `l` have been rebuilt, and only their records have been discarded. -/
structure RebuiltOnly (l : List Nat) (s t : State) : Prop where
  m : t.m = s.m
  tiles : ∀ d, (t.die d).tiles = (s.die d).tiles
  bind : ∀ n, n ∉ l → t.bind n = s.bind n
  recs : ∀ d r, r.bind ∉ l → (r ∈ (t.die d).recs ↔ r ∈ (s.die d).recs)

theorem RebuiltOnly.refl (l : List Nat) (s : State) : RebuiltOnly l s s := ⟨rfl, fun _ => rfl, fun _ _ => rfl, fun _ _ _ => Iff.rfl⟩

theorem RebuiltOnly.trans {l k : List Nat} {s t u : State} (h : RebuiltOnly l s t) (g : RebuiltOnly k t u) : RebuiltOnly (l ++ k) s u where
  m := g.m.trans h.m
  tiles d := (g.tiles d).trans (h.tiles d)
  bind n hn := by
    rw [List.mem_append, not_or] at hn
    exact (g.bind n hn.2).trans (h.bind n hn.1)
  recs d r hr := by
    rw [List.mem_append, not_or] at hr
    exact (g.recs d r hr.2).trans (h.recs d r hr.1)

theorem RebuiltOnly.mono {l k : List Nat} {s t : State} (h : RebuiltOnly l s t) (hl : ∀ n ∈ l, n ∈ k) : RebuiltOnly k s t :=
  ⟨h.m, h.tiles, fun n hn => h.bind n fun hm => hn (hl n hm), fun d r hr => h.recs d r fun hm => hr (hl _ hm)⟩

/-- Two steps on one binding. -/
theorem RebuiltOnly.step {n : Nat} {s t u : State} (h : RebuiltOnly [n] s t) (g : RebuiltOnly [n] t u) : RebuiltOnly [n] s u :=
  (h.trans g).mono fun k hk => by simpa using hk

theorem dropRecs_rebuiltOnly (s : State) (n : Nat) (gone : BindE → Bool) : RebuiltOnly [n] s (dropRecs s n gone) where
  m := rfl
  tiles d := (dropRecs_die s n gone d).2
  bind _ _ := rfl
  recs d r hr := by rw [mem_dropRecs]; simp [List.mem_singleton.not.1 hr]

theorem placeBinding_rebuiltOnly (s : State) (r : NvRec) : RebuiltOnly [r.bind] s (placeBinding s r) where
  m := rfl
  tiles _ := rfl
  bind _ hn := State.bind_setBind_other _ _ (List.mem_singleton.not.1 hn)
  recs _ _ _ := Iff.rfl

theorem mem_recsOf {s : State} {n d : Nat} {r : NvRec} :
    (d, r) ∈ recsOf s n ↔ d ∈ diesOf s.m.enabled ∧ r ∈ (s.die d).recs ∧ r.bind = n := by
  simp [recsOf]

theorem newest_mem {rs : List NvRec} {r : NvRec} (h : newest rs = some r) : r ∈ rs := by
  refine List.foldlRecOn (motive := fun b : Option NvRec => ∀ x, b = some x → x ∈ rs) rs _ (fun _ h => by simp at h) ?_ r h
  intro b hb y hy x hx
  cases b with
  | none => obtain rfl := Option.some.inj hx; exact hy
  | some z =>
    dsimp only at hx
    split at hx
    · obtain rfl := Option.some.inj hx; exact hy
    · exact hb x hx

theorem restoreLatest_rebuiltOnly (n k : Nat) (s : State) : RebuiltOnly [n] s (restoreLatest n k s) := by
  induction k generalizing s with
  | zero => exact .refl _ _
  | succ k ih =>
    rw [restoreLatest]
    split
    · exact .refl _ _
    · next r hr =>
      obtain ⟨⟨d, _⟩, hmem, rfl⟩ := List.mem_map.1 (newest_mem hr)
      obtain ⟨-, -, rfl⟩ := mem_recsOf.1 hmem
      dsimp only
      split
      · exact .refl _ _
      · split
        · exact (dropRecs_rebuiltOnly ..).step (placeBinding_rebuiltOnly ..)
        · exact (dropRecs_rebuiltOnly ..).step (ih _)

theorem restoreBinding_rebuiltOnly (s : State) (n : Nat) : RebuiltOnly [n] s (restoreBinding s n) := by
  rw [restoreBinding]
  dsimp only
  split
  · exact restoreLatest_rebuiltOnly ..
  · exact (dropRecs_rebuiltOnly ..).step (restoreLatest_rebuiltOnly ..)

theorem foldl_restoreBinding_rebuiltOnly (l : List Nat) (s : State) : RebuiltOnly l s (l.foldl restoreBinding s) := by
  induction l generalizing s with
  | nil => exact .refl _ _
  | cons n l ih => exact (restoreBinding_rebuiltOnly s n).trans (ih _)

/-! ### What it restores -/

/-- A binding whose records all have a retire mark is not rebuilt. -/
theorem restoreBinding_retired {s : State} {n : Nat} (h : ∀ d, ∀ y ∈ (s.die d).recs, y.bind = n → y.retired = true) :
    (restoreBinding s n).bind n = s.bind n := by
  -- no record of the binding is left once those with a retire mark have been discarded
  have none_left : ∀ t : State, recsOf t n = [] → t.bind n = s.bind n → (restoreLatest n (recsOf t n).length t).bind n = s.bind n :=
    fun t ht hb => by rw [ht]; exact hb
  rw [restoreBinding]
  dsimp only
  split
  · next dead =>
    refine none_left s (List.eq_nil_iff_forall_not_mem.2 fun x hx => ?_) rfl
    obtain ⟨-, hrec, hbind⟩ := mem_recsOf.1 hx
    rw [List.isEmpty_iff, List.map_eq_nil_iff, List.filter_eq_nil_iff] at dead
    exact dead x hx (h x.1 x.2 hrec hbind)
  · refine none_left _ (List.eq_nil_iff_forall_not_mem.2 fun x hx => ?_) rfl
    obtain ⟨hd, hrec, hbind⟩ := mem_recsOf.1 hx
    obtain ⟨hrec, kept⟩ := mem_dropRecs.1 hrec
    refine kept ⟨hbind, List.contains_iff_mem.2 (List.mem_map.2 ⟨x, List.mem_filter.2 ⟨?_, h x.1 x.2 hrec hbind⟩, rfl⟩)⟩
    exact mem_recsOf.2 ⟨hd, hrec, hbind⟩

theorem newest_eq {rs : List NvRec} {r : NvRec} (hne : rs ≠ []) (h : ∀ y ∈ rs, y = r) : newest rs = some r := by
  cases hn : newest rs with
  | some x => rw [h x (newest_mem hn)]
  | none =>
    obtain ⟨y, ys, rfl⟩ := List.exists_cons_of_ne_nil hne
    refine absurd hn (List.foldlRecOn (motive := fun b : Option NvRec => b ≠ none) ys _ (by simp) ?_)
    intro b hb z _
    cases b with
    | none => exact absurd rfl hb
    | some x => dsimp only; split <;> simp

theorem mem_diesOf {m : BitVec 16} {d : Nat} : d ∈ diesOf m ↔ d < 16 ∧ m.getLsbD d = true := by
  rw [diesOf, List.mem_filter, List.mem_range]

theorem exists_mem_diesOf {m : BitVec 16} (h : m ≠ 0) : ∃ d, d ∈ diesOf m := by
  by_contra empty
  refine h (BitVec.eq_of_getLsbD_eq fun d hd => ?_)
  have clear : m.getLsbD d = false := Bool.eq_false_iff.2 fun set => empty ⟨d, mem_diesOf.2 ⟨hd, set⟩⟩
  exact clear.trans BitVec.getLsbD_zero.symm

theorem restoreBinding_live {s : State} {n : Nat} (h : ∀ x ∈ recsOf s n, x.2.retired = false) :
    restoreBinding s n = restoreLatest n (recsOf s n).length s := by
  rw [restoreBinding]
  dsimp only
  rw [if_pos]
  rw [List.isEmpty_iff, List.map_eq_nil_iff, List.filter_eq_nil_iff]
  exact fun x hx => Bool.eq_false_iff.1 (h x hx)

/-- The latest record, committed on every die it spans, is placed. -/
theorem restoreLatest_committed {s : State} {n k : Nat} {r : NvRec} (latest : newest ((recsOf s n).map (·.2)) = some r)
    (ready : (diesOf r.entry.dies).all s.m.enabled.getLsbD = true)
    (committed : ((diesOf r.entry.dies).all fun d => (s.die d).recs.any fun x => x.bind == n && x.entry == r.entry && x.committed) = true) :
    restoreLatest n (k + 1) s = placeBinding (dropRecs s n fun e => e != r.entry) r := by
  rw [restoreLatest, latest]
  dsimp only
  rw [if_neg (by rw [ready]; decide), if_pos committed]

/-- A binding whose one record is committed on every die it spans is rebuilt from it. -/
theorem restoreBinding_committed {s : State} {n : Nat} {r : NvRec} (only : ∀ d, ∀ y ∈ (s.die d).recs, y.bind = n → y = r)
    (hbind : r.bind = n) (committed : r.committed = true) (live : r.retired = false) (spans : r.entry.dies ≠ 0)
    (held : ∀ d ∈ diesOf r.entry.dies, s.m.enabled.getLsbD d = true ∧ r ∈ (s.die d).recs) :
    restoreBinding s n = placeBinding (dropRecs s n fun e => e != r.entry) r := by
  have all : ∀ x ∈ recsOf s n, x.2 = r := fun x hx => by
    obtain ⟨-, hrec, hb⟩ := mem_recsOf.1 hx
    exact only x.1 x.2 hrec hb
  obtain ⟨d, hd⟩ := exists_mem_diesOf spans
  have found : (d, r) ∈ recsOf s n := mem_recsOf.2 ⟨mem_diesOf.2 ⟨(mem_diesOf.1 hd).1, (held d hd).1⟩, (held d hd).2, hbind⟩
  obtain ⟨k, hk⟩ := Nat.exists_eq_succ_of_ne_zero (List.length_pos_of_mem found).ne'
  have latest : newest ((recsOf s n).map (·.2)) = some r :=
    newest_eq (List.ne_nil_of_mem (List.mem_map_of_mem found)) fun y hy => by
      obtain ⟨x, hx, rfl⟩ := List.mem_map.1 hy
      exact all x hx
  rw [restoreBinding_live fun x hx => by rw [all x hx, live], hk]
  refine restoreLatest_committed latest (List.all_eq_true.2 fun e he => (held e he).1) (List.all_eq_true.2 fun e he => ?_)
  exact List.any_eq_true.2 ⟨r, (held e he).2, by simp [hbind, committed]⟩

/-- The steps before and after a binding's own. -/
theorem range_split {n : Nat} (hn : n < 256) : ∃ l, List.range 256 = List.range n ++ n :: l ∧ n ∉ List.range n ∧ n ∉ l := by
  obtain ⟨k, hk⟩ := Nat.exists_eq_add_of_lt hn
  refine ⟨(List.range k).map (n + 1 + ·), ?_, by simp, fun h => ?_⟩
  · rw [hk, show n + k + 1 = n + 1 + k by omega, List.range_add, List.range_succ, List.append_assoc]
    rfl
  · obtain ⟨i, -, hi⟩ := List.mem_map.1 h
    omega

/-- A binding is what its own step makes of it: the steps before and after are on others. -/
theorem foldl_restoreBinding_bind {n : Nat} (hn : n < 256) (s : State) :
    ∃ u : State, RebuiltOnly (List.range n) s u ∧ ((List.range 256).foldl restoreBinding s).bind n = (restoreBinding u n).bind n := by
  obtain ⟨l, split, -, after⟩ := range_split hn
  refine ⟨(List.range n).foldl restoreBinding s, foldl_restoreBinding_rebuiltOnly _ _, ?_⟩
  rw [split, List.foldl_append, List.foldl_cons]
  exact (foldl_restoreBinding_rebuiltOnly _ _).bind n after

end Sys2Proof.Proofs
end

section
/-!
PROOF. A die's self-test (R13, R14, R15, R139).
-/

namespace Sys2Proof.Proofs

open Sys2Proof.Machine

/-- The result of a die's self-test recorded, and a passing die replayed. -/
def tested (s : State) (die : Nat) (ok : Bool) : State :=
  let bit := BitVec.ofNat 16 (2 ^ die)
  let m := { s.m with tested := s.m.tested ||| bit, enabled := if ok then s.m.enabled ||| bit else s.m.enabled }
  if ok then ((s.setM m).setDie die (s.die die).replay).setM { m with journalFaults := m.journalFaults + (s.die die).faults } else s.setM m

theorem tested_m (s : State) (die : Nat) (ok : Bool) : (tested s die ok).m = { s.m with
    tested := s.m.tested ||| BitVec.ofNat 16 (2 ^ die)
    enabled := if ok then s.m.enabled ||| BitVec.ofNat 16 (2 ^ die) else s.m.enabled
    journalFaults := s.m.journalFaults + if ok then (s.die die).faults else 0 } := by
  cases ok <;> rfl

theorem tested_bind (s : State) (die : Nat) (ok : Bool) (n : Nat) : (tested s die ok).bind n = s.bind n := by
  cases ok <;> rfl

theorem tested_die (s : State) (die : Nat) : (tested s die true).die die = (s.die die).replay :=
  State.die_setDie_same (s.setM _) die _

theorem tested_recs (s : State) (die : Nat) (ok : Bool) (d : Nat) : ((tested s die ok).die d).recs = (s.die d).recs := by
  cases ok with
  | false => rfl
  | true =>
    by_cases h : d = die
    · rw [h, tested_die, replay_recs]
    · exact congrArg Die.recs (State.die_setDie_other (s.setM _) _ h)

theorem exec_selfTest_ignored {s : State} {die : Nat} {ok : Bool} (h : s.m.stage ≠ 3 ∨ 16 ≤ die ∨ s.m.tested.getLsbD die = true) :
    exec (.laurelSelfTestDone die ok) s = .next s := by
  have ignored : (s.m.stage != 3 || decide (16 ≤ die) || s.m.tested.getLsbD die) = true := by simpa [or_assoc] using h
  change Host.Outcome.next (if _ then s else _) = _
  rw [if_pos ignored]

/-- The module after a die's self-test: with the last die the binding table is rebuilt, and CALIB begins. -/
def selfTested (s : State) (die : Nat) (ok : Bool) : State :=
  if s.m.tested ||| BitVec.ofNat 16 (2 ^ die) = BitVec.allOnes 16 then
    let u := (List.range 256).foldl restoreBinding (tested s die ok)
    u.setM { u.m with stage := 5 }
  else tested s die ok

theorem exec_selfTest {s : State} {die : Nat} {ok : Bool} (stage : s.m.stage = 3) (hdie : die < 16) (fresh : s.m.tested.getLsbD die = false) :
    exec (.laurelSelfTestDone die ok) s = .next (selfTested s die ok) := by
  have taken : ¬ (s.m.stage != 3 || decide (16 ≤ die) || s.m.tested.getLsbD die) = true := by
    rw [stage, fresh, decide_eq_false (Nat.not_le.2 hdie)]; decide
  change Host.Outcome.next (if _ then s else _) = _
  rw [if_neg taken]
  by_cases last : s.m.tested ||| BitVec.ofNat 16 (2 ^ die) = BitVec.allOnes 16
  · rw [selfTested, if_pos last]
    dsimp only
    rw [if_neg (by rw [last]; decide)]
    rfl
  · rw [selfTested, if_neg last]
    dsimp only
    rw [if_pos (by simpa using last)]
    rfl

theorem selfTested_last {s : State} {die : Nat} (ok : Bool) (last : s.m.tested ||| BitVec.ofNat 16 (2 ^ die) = BitVec.allOnes 16) :
    ∃ u : State, u = (List.range 256).foldl restoreBinding (tested s die ok) ∧ selfTested s die ok = u.setM { u.m with stage := 5 } :=
  ⟨_, rfl, if_pos last⟩

theorem selfTested_frame (s : State) (die : Nat) (ok : Bool) : (∀ d, ((selfTested s die ok).die d).tiles = ((tested s die ok).die d).tiles)
    ∧ (selfTested s die ok).m =
      { (tested s die ok).m with stage := if s.m.tested ||| BitVec.ofNat 16 (2 ^ die) = BitVec.allOnes 16 then 5 else s.m.stage } := by
  by_cases last : s.m.tested ||| BitVec.ofNat 16 (2 ^ die) = BitVec.allOnes 16
  · obtain ⟨u, hu, eq⟩ := selfTested_last ok last
    have rebuilt : RebuiltOnly (List.range 256) (tested s die ok) u := hu ▸ foldl_restoreBinding_rebuiltOnly _ _
    rw [eq, if_pos last, ← rebuilt.m]
    exact ⟨rebuilt.tiles, rfl⟩
  · rw [selfTested, if_neg last, if_neg last, tested_m]
    exact ⟨fun _ => rfl, rfl⟩

/-- Replay decides the rows of a passing die. -/
theorem selfTested_row {s : State} {die : Nat} (sorted : Tbl.sorted (s.die die).journal = true)
    (wf : ∀ c ∈ (s.die die).journal, ((c.2.filter (·.valid)).map (·.seq)).Nodup ∧ ∀ a ∈ c.2, a.tile < 2048)
    {c : Nat × List JRec} (hc : c ∈ (s.die die).journal) {a : JRec} (ha : a ∈ c.2) (va : a.valid = true)
    (last : ∀ b ∈ c.2, b.valid = true → b.tile = a.tile → b.row = a.row → b.seq ≤ a.seq) :
    RowReplayed (((selfTested s die true).die die).tile c.1 a.tile) a := by
  rw [tile_congr (((selfTested_frame s die true).1 die).trans (congrArg Die.tiles (tested_die s die)))]
  exact replay_row sorted wf hc ha va last

/-- With the last die, each binding is what its restoring makes of its records, all of them still there. -/
theorem selfTested_bind {s : State} {die : Nat} {ok : Bool} (last : s.m.tested ||| BitVec.ofNat 16 (2 ^ die) = BitVec.allOnes 16) {n : Nat}
    (hn : n < 256) : ∃ u : State, (selfTested s die ok).bind n = (restoreBinding u n).bind n ∧ u.bind n = s.bind n
      ∧ u.m.enabled = (selfTested s die ok).m.enabled ∧ ∀ d y, y.bind = n → (y ∈ (u.die d).recs ↔ y ∈ (s.die d).recs) := by
  obtain ⟨u, rebuilt, hu⟩ := foldl_restoreBinding_bind hn (tested s die ok)
  have out : n ∉ List.range n := by simp
  refine ⟨u, ?_, ?_, ?_, fun d y hy => ?_⟩
  · obtain ⟨v, hv, eq⟩ := selfTested_last ok last
    rw [eq, ← hu, ← hv, State.bind_setM_of]
  · rw [rebuilt.bind n out, tested_bind]
  · rw [(selfTested_frame s die ok).2, rebuilt.m]
  · rw [rebuilt.recs d y (hy ▸ out), tested_recs]

theorem selfTested_bind_retired {s : State} {die : Nat} {ok : Bool} (last : s.m.tested ||| BitVec.ofNat 16 (2 ^ die) = BitVec.allOnes 16)
    {n : Nat} (hn : n < 256) (retired : ∀ d, ∀ y ∈ (s.die d).recs, y.bind = n → y.retired = true) :
    (selfTested s die ok).bind n = s.bind n := by
  obtain ⟨u, hu, same, -, recs⟩ := selfTested_bind (ok := ok) last hn
  rw [hu, restoreBinding_retired fun d y hy hb => retired d y ((recs d y hb).1 hy) hb, same]

theorem selfTested_bind_committed {s : State} {die : Nat} {ok : Bool}
    (last : s.m.tested ||| BitVec.ofNat 16 (2 ^ die) = BitVec.allOnes 16) {n : Nat} (hn : n < 256) {r : NvRec}
    (only : ∀ d, ∀ y ∈ (s.die d).recs, y.bind = n → y = r) (hbind : r.bind = n) (committed : r.committed = true) (live : r.retired = false)
    (spans : r.entry.dies ≠ 0)
    (held : ∀ d ∈ diesOf r.entry.dies, (selfTested s die ok).m.enabled.getLsbD d = true ∧ r ∈ (s.die d).recs) :
    let b := (selfTested s die ok).bind n
    b = { r.entry with state := 2, fwd := b.fwd, tra := b.tra, colE := b.colE, rowE := b.rowE, map := b.map } := by
  obtain ⟨u, hu, -, enabled, recs⟩ := selfTested_bind (ok := ok) last hn
  have restored := restoreBinding_committed (s := u) (fun d y hy hb => only d y ((recs d y hb).1 hy) hb) hbind committed live spans
    fun d hd => ⟨enabled ▸ (held d hd).1, (recs d r hbind).2 (held d hd).2⟩
  obtain ⟨_, placed⟩ : ∃ s' : State, (selfTested s die ok).bind n = (placeBinding s' r).bind r.bind := ⟨_, by rw [hu, restored, hbind]⟩
  rw [placed, placeBinding, State.bind_setBind_same]
end Sys2Proof.Proofs
end

section
/-!
PROOF. Warm calibration (R133, R16).
-/

namespace Sys2Proof.Proofs

open Sys2Proof.Machine

/-! ### Measuring -/

/-- Time, bindings, dies and due epochs are as they were: measuring draws free values and counts, no more. -/
structure Measured (s t : State) : Prop where
  binds : t.binds = s.binds
  dies : t.dies = s.dies
  due : t.due = s.due
  ftime : t.m.ftime = s.m.ftime
  enabled : t.m.enabled = s.m.enabled

theorem Measured.refl (s : State) : Measured s s := ⟨rfl, rfl, rfl, rfl, rfl⟩

theorem Measured.trans {s t u : State} (h : Measured s t) (g : Measured t u) : Measured s u :=
  ⟨g.binds.trans h.binds, g.dies.trans h.dies, g.due.trans h.due, g.ftime.trans h.ftime, g.enabled.trans h.enabled⟩

theorem Measured.bind {s t : State} (h : Measured s t) (n : Nat) : t.bind n = s.bind n := by rw [State.bind, State.bind, h.binds]

theorem countWarm_measured (s : State) (dies : List Nat) (k : Nat) : Measured s (countWarm s dies k) := by
  induction k generalizing s with
  | zero => exact .refl s
  | succ k ih =>
    have once : Measured s ((countFaults s dies).setM { (countFaults s dies).m with calib := (countFaults s dies).m.calib + 1 }) :=
      ⟨rfl, rfl, rfl, rfl, rfl⟩
    exact once.trans (ih _)

theorem warmLanes_measured (s : State) (fails : List WarmFail) (n : Nat) (trans : Bool) (i start : Nat) :
    Measured s (warmLanes s fails n trans i start).1 := by
  unfold warmLanes
  dsimp only
  split_ifs
  · exact countWarm_measured ..
  · exact (countWarm_measured ..).trans ⟨rfl, rfl, rfl, rfl, rfl⟩

theorem warmProbe_measured (fails : List WarmFail) (n : Nat) (trans : Bool) (i : Nat) (sts : List Nat) (s : State) :
    Measured s (warmProbe fails n trans i sts s).1 := by
  induction sts generalizing s with
  | nil => exact .refl s
  | cons st sts ih => exact (warmLanes_measured s fails n trans i st).trans (ih _)

theorem measureAll_measured (s : State) (fails : List WarmFail) (n : Nat) (trans : Bool) (is : List Nat) :
    Measured s (measureAll s fails n trans is).1 := by
  induction is generalizing s with
  | nil => exact .refl s
  | cons i is ih => exact (warmProbe_measured fails n trans i _ s).trans (ih _)

/-! ### What calibrating leaves alone -/

/-- The snapshot that a die holds of a generation of a binding. -/
def snapAt (s : State) (d n : Nat) (g : BitVec 32) : Option Snap := (s.die d).snaps.find? fun x => x.bind == n && x.gen == g

theorem snapOf_eq (s : State) (n : Nat) : snapOf s n = (diesOf (s.bind n).dies).findSome? fun d => snapAt s d n (s.bind n).gen := rfl

/-- Only bindings of `l` have been calibrated. -/
structure CalibratedOnly (l : List Nat) (s t : State) : Prop where
  ftime : t.m.ftime = s.m.ftime
  enabled : t.m.enabled = s.m.enabled
  bind : ∀ n, n ∉ l → t.bind n = s.bind n
  due : ∀ n, n ∉ l → Tbl.look t.due n = Tbl.look s.due n
  snap : ∀ d n g, n ∉ l → snapAt t d n g = snapAt s d n g

theorem CalibratedOnly.refl (l : List Nat) (s : State) : CalibratedOnly l s s := ⟨rfl, rfl, fun _ _ => rfl, fun _ _ => rfl, fun _ _ _ _ => rfl⟩

theorem CalibratedOnly.trans {l k : List Nat} {s t u : State} (h : CalibratedOnly l s t) (g : CalibratedOnly k t u) :
    CalibratedOnly (l ++ k) s u where
  ftime := g.ftime.trans h.ftime
  enabled := g.enabled.trans h.enabled
  bind n hn := by
    rw [List.mem_append, not_or] at hn
    exact (g.bind n hn.2).trans (h.bind n hn.1)
  due n hn := by
    rw [List.mem_append, not_or] at hn
    exact (g.due n hn.2).trans (h.due n hn.1)
  snap d n e hn := by
    rw [List.mem_append, not_or] at hn
    exact (g.snap d n e hn.2).trans (h.snap d n e hn.1)

/-- Two steps on one binding. -/
theorem CalibratedOnly.step {n : Nat} {s t u : State} (h : CalibratedOnly [n] s t) (g : CalibratedOnly [n] t u) : CalibratedOnly [n] s u :=
  let w := h.trans g
  have one : ∀ k, k ∉ [n] → k ∉ [n] ++ [n] := fun k hk => by simpa using hk
  ⟨w.ftime, w.enabled, fun k hk => w.bind k (one k hk), fun k hk => w.due k (one k hk), fun d k e hk => w.snap d k e (one k hk)⟩

theorem CalibratedOnly.snapOf {l : List Nat} {s t : State} (h : CalibratedOnly l s t) {n : Nat} (hn : n ∉ l) :
    Machine.snapOf t n = Machine.snapOf s n := by
  rw [snapOf_eq, snapOf_eq, h.bind n hn]
  exact congrArg (fun f => List.findSome? f _) (funext fun d => h.snap d n _ hn)

theorem Measured.calibratedOnly {s t : State} (h : Measured s t) (l : List Nat) : CalibratedOnly l s t where
  ftime := h.ftime
  enabled := h.enabled
  bind n _ := h.bind n
  due n _ := by rw [h.due]
  snap d n g _ := by rw [snapAt, snapAt, State.die, State.die, h.dies]

theorem mem_calibratedOnly (s : State) (mem : Mem) (l : List Nat) : CalibratedOnly l s { s with mem := mem } :=
  (⟨rfl, rfl, rfl, rfl, rfl⟩ : Measured s { s with mem := mem }).calibratedOnly l

theorem setBind_calibratedOnly (s : State) (n : Nat) (b : BindE) : CalibratedOnly [n] s (s.setBind n b) :=
  ⟨rfl, rfl, fun _ hk => State.bind_setBind_other _ _ (List.mem_singleton.not.1 hk), fun _ _ => rfl, fun _ _ _ _ => rfl⟩

theorem setDue_calibratedOnly (s : State) (n t : Nat) : CalibratedOnly [n] s (setDue s n t) :=
  ⟨rfl, rfl, fun _ _ => rfl, fun _ hk => Tbl.look_set_other _ _ (List.mem_singleton.not.1 hk), fun _ _ _ _ => rfl⟩

/-- The snapshots of a die with one put in place of its binding's older ones. -/
theorem find?_replaced {xs : List Snap} {x : Snap} {n : Nat} {g : BitVec 32} (h : n ≠ x.bind) :
    (xs.filter (fun z => z.bind != x.bind) ++ [x]).find? (fun y => y.bind == n && y.gen == g) = xs.find? fun y => y.bind == n && y.gen == g := by
  have last : [x].find? (fun y => y.bind == n && y.gen == g) = none := by simp [Ne.symm h]
  rw [List.find?_append, last, Option.or_none, List.find?_filter]
  congr 1
  funext y
  by_cases hy : y.bind = n <;> by_cases hg : y.gen = g <;> simp [hy, hg, h]

theorem putSnap_calibratedOnly (s : State) (x : Snap) : CalibratedOnly [x.bind] s (putSnap s x) := by
  refine List.foldlRecOn (motive := CalibratedOnly [x.bind] s) _ _ (.refl _ s) fun t ht d _ => ht.step ?_
  refine ⟨rfl, rfl, fun _ _ => rfl, fun _ _ => rfl, fun e n g hn => ?_⟩
  by_cases he : e = d
  · subst he
    rw [snapAt, State.die_setDie_same]
    exact find?_replaced (List.mem_singleton.not.1 hn)
  · rw [snapAt, State.die_setDie_other _ _ he]; rfl

theorem putSnap_binds (s : State) (x : Snap) : (putSnap s x).binds = s.binds ∧ (putSnap s x).due = s.due :=
  List.foldlRecOn (motive := fun t : State => t.binds = s.binds ∧ t.due = s.due) _ _ ⟨rfl, rfl⟩ fun _ h _ _ => h

/-! ### The swap -/

theorem swapTables_eq (full : Bool) (s : State) (e : Epoch) : ∃ (mem : Mem) (calib : Nat) (x : Snap), x.bind = e.bind ∧
    swapTables full s e = putSnap ((({ s with mem := mem } : State).setBind e.bind
      { s.bind e.bind with cgen := (s.bind e.bind).cgen + 1 }).setM { s.m with calib := calib }) x :=
  ⟨_, _, _, rfl, rfl⟩

theorem swapTables_calibratedOnly (full : Bool) (s : State) (e : Epoch) : CalibratedOnly [e.bind] s (swapTables full s e) := by
  obtain ⟨mem, calib, x, hx, eq⟩ := swapTables_eq full s e
  have counted : ∀ u : State, u.m.ftime = s.m.ftime → u.m.enabled = s.m.enabled →
      CalibratedOnly [e.bind] u (u.setM { s.m with calib := calib }) := fun u ht he =>
    (⟨rfl, rfl, rfl, ht.symm, he.symm⟩ : Measured u (u.setM { s.m with calib := calib })).calibratedOnly _
  rw [eq]
  exact (((mem_calibratedOnly s mem _).step (setBind_calibratedOnly ..)).step (counted _ rfl rfl)).step (hx ▸ putSnap_calibratedOnly ..)

/-- The bank in use alternates with CGEN (R125). -/
theorem swapTables_bind (full : Bool) (s : State) (e : Epoch) :
    (swapTables full s e).bind e.bind = { s.bind e.bind with cgen := (s.bind e.bind).cgen + 1 } := by
  obtain ⟨mem, calib, x, -, eq⟩ := swapTables_eq full s e
  rw [eq, State.bind, (putSnap_binds _ x).1]
  exact State.bind_setBind_same { s with mem := mem } e.bind _

/-! ### One binding -/

/-- A binding with a snapshot resumes from it: the swap follows its measurements (R133). -/
theorem warmBinding_snap {fails : List WarmFail} {s : State} {n : Nat} (published : (s.bind n).published = true) {x : Snap}
    (hx : snapOf s n = some x) : ∃ (u : State) (e : Epoch), e.bind = n ∧ CalibratedOnly [n] s u ∧ u.bind n = { s.bind n with cgen := x.cgen }
      ∧ warmBinding fails s n = setDue (swapTables true u e) n ((swapTables true u e).m.ftime + (s.bind n).ticks) := by
  let bank := x.cgen.toNat % 2
  let v := (putBank (putBank s (s.bind n) false bank x.fwd) (s.bind n) true bank x.tra).setBind n { s.bind n with cgen := x.cgen }
  let f := measureAll v fails n false (List.range x.n)
  let t := measureAll f.1 fails n true (List.range x.n)
  have measured : Measured v t.1 := (measureAll_measured ..).trans (measureAll_measured ..)
  have stored : CalibratedOnly [n] s (putBank (putBank s (s.bind n) false bank x.fwd) (s.bind n) true bank x.tra) :=
    mem_calibratedOnly s _ _
  refine ⟨t.1, { bind := n, gen := (s.bind n).gen, base := x.base, n := x.n, sigF := f.2, sigT := t.2, yF := x.yF, yT := x.yT }, rfl,
    (stored.step (setBind_calibratedOnly ..)).step (measured.calibratedOnly _), ?_, ?_⟩
  · rw [measured.bind]
    exact State.bind_setBind_same _ n _
  · rw [warmBinding]
    simp only [published, hx]
    rfl

theorem warmBinding_none {fails : List WarmFail} {s : State} {n : Nat} (published : (s.bind n).published = true) (hx : snapOf s n = none) :
    warmBinding fails s n = setDue s n s.m.ftime := by
  rw [warmBinding]
  simp only [published, hx]
  rfl

theorem warmBinding_unpublished {fails : List WarmFail} {s : State} {n : Nat} (published : (s.bind n).published = false) :
    warmBinding fails s n = s := by
  rw [warmBinding]
  simp only [published]
  rfl

theorem warmBinding_calibratedOnly (fails : List WarmFail) (s : State) (n : Nat) : CalibratedOnly [n] s (warmBinding fails s n) := by
  cases published : (s.bind n).published with
  | false => rw [warmBinding_unpublished published]; exact .refl _ _
  | true =>
    cases hx : snapOf s n with
    | none => rw [warmBinding_none published hx]; exact setDue_calibratedOnly ..
    | some x =>
      obtain ⟨u, e, rfl, hu, -, eq⟩ := warmBinding_snap (fails := fails) published hx
      rw [eq]
      exact (hu.step (swapTables_calibratedOnly ..)).step (setDue_calibratedOnly ..)

/-- A binding without a snapshot is due at once; one with a snapshot one period later, its bank swapped (R127, R133). -/
structure Warmed (s t : State) (n : Nat) : Prop where
  fresh : snapOf s n = none → Tbl.look t.due n = some s.m.ftime ∧ t.bind n = s.bind n
  resumed : ∀ x, snapOf s n = some x → Tbl.look t.due n = some (s.m.ftime + (s.bind n).ticks)
    ∧ t.bind n = { s.bind n with cgen := x.cgen + 1 }

theorem warmBinding_warmed (fails : List WarmFail) {s : State} {n : Nat} (published : (s.bind n).published = true) :
    Warmed s (warmBinding fails s n) n := by
  refine ⟨fun hx => ?_, fun x hx => ?_⟩
  · rw [warmBinding_none published hx]
    exact ⟨Tbl.look_set_same .., rfl⟩
  · obtain ⟨u, e, rfl, hu, hb, eq⟩ := warmBinding_snap (fails := fails) published hx
    have time : (swapTables true u e).m.ftime = s.m.ftime := (swapTables_calibratedOnly true u e).ftime.trans hu.ftime
    rw [eq, ← time]
    refine ⟨Tbl.look_set_same .., ?_⟩
    change (swapTables true u e).bind e.bind = _
    rw [swapTables_bind, hb]

/-! ### The whole calibration -/

theorem foldl_warmBinding_calibratedOnly (fails : List WarmFail) (l : List Nat) (s : State) :
    CalibratedOnly l s (l.foldl (warmBinding fails) s) := by
  induction l generalizing s with
  | nil => exact .refl _ _
  | cons n l ih => exact (warmBinding_calibratedOnly fails s n).trans (ih _)

theorem foldl_warmBinding_warmed (fails : List WarmFail) {s : State} {n : Nat} (hn : n < 256) (published : (s.bind n).published = true) :
    Warmed s ((List.range 256).foldl (warmBinding fails) s) n := by
  obtain ⟨l, split, before, after⟩ := range_split hn
  rw [split, List.foldl_append, List.foldl_cons]
  have first := foldl_warmBinding_calibratedOnly fails (List.range n) s
  generalize (List.range n).foldl (warmBinding fails) s = u at first
  have later := foldl_warmBinding_calibratedOnly fails l (warmBinding fails u n)
  have bind := first.bind n before
  obtain ⟨fresh, resumed⟩ := warmBinding_warmed fails (bind ▸ published)
  rw [first.snapOf before, first.ftime, bind] at fresh
  rw [first.snapOf before, first.ftime, bind] at resumed
  constructor
  · rw [later.due n after, later.bind n after]; exact fresh
  · rw [later.due n after, later.bind n after]; exact resumed

/-! ### Rows that await their leaves -/

/-- Requests for leaves change neither the boot window nor the bindings. -/
structure Asked (s t : State) : Prop where
  m : t.m = { s.m with shardHead := t.m.shardHead }
  binds : t.binds = s.binds
  due : t.due = s.due

theorem Asked.refl (s : State) : Asked s s := ⟨rfl, rfl, rfl⟩

theorem Asked.trans {s t u : State} (h : Asked s t) (g : Asked t u) : Asked s u :=
  ⟨by rw [g.m, h.m], g.binds.trans h.binds, g.due.trans h.due⟩

theorem Asked.foldl {α : Type} {f : State → α → State} (hf : ∀ s x, Asked s (f s x)) (l : List α) (s : State) : Asked s (l.foldl f s) :=
  List.foldlRecOn (motive := Asked s) l f (.refl s) fun t ht x _ => ht.trans (hf t x)

theorem askShard_asked (part : Option Nat) (s : State) (name : Nat) : Asked s (askShard part s name) := by
  unfold askShard ringPut
  split
  · exact .refl s
  · split
    · exact ⟨rfl, rfl, rfl⟩
    · exact ⟨rfl, rfl, rfl⟩

theorem queueRow_asked (s : State) (q : RowReq) : Asked s (queueRow s q) := by
  have queued : Asked s { s with nextId := s.nextId + 1, rowReqs := Tbl.set s.rowReqs s.nextId q } := ⟨rfl, rfl, rfl⟩
  exact queued.trans (.foldl (askShard_asked none) _ _)

theorem resupplyDie_asked (s : State) (d : Nat) : Asked s (resupplyDie s d) := by
  have taken : Asked s (s.setDie d { s.die d with resupply := [] }) := ⟨rfl, rfl, rfl⟩
  exact taken.trans (.foldl (fun t _ => queueRow_asked t _) _ _)

/-! ### WARM_CALIBRATION -/

theorem exec_warmCalibration_ignored {s : State} {modno : Nat} (h : s.m.stage ≠ 5 ∨ 640 ≤ modno) :
    exec (.warmCalibration modno) s = .next s := by
  have ignored : (s.m.stage != 5 || decide (640 ≤ modno)) = true := by simpa using h
  change Host.Outcome.next (if _ then s else _) = _
  rw [if_pos ignored]

/-- Every binding is calibrated, and the module is READY. -/
def calibrated (s : State) (modno : Nat) : State :=
  let u := (List.range 256).foldl (warmBinding s.m.probeFails) s
  u.setM { u.m with stage := 6, busy := false, errc := 0, dieok := u.m.enabled, modno := modno }

theorem calibrated_eq (s : State) (modno : Nat) : ∃ u : State, u = (List.range 256).foldl (warmBinding s.m.probeFails) s
    ∧ calibrated s modno = u.setM { u.m with stage := 6, busy := false, errc := 0, dieok := u.m.enabled, modno := modno } := ⟨_, rfl, rfl⟩

/-- Rows that replay reset ask for their leaves last. -/
theorem exec_warmCalibration {s : State} {modno : Nat} (stage : s.m.stage = 5) (hmod : modno < 640) :
    ∃ t : State, exec (.warmCalibration modno) s = .next t ∧ Asked (calibrated s modno) t := by
  have taken : ¬ (s.m.stage != 5 || decide (640 ≤ modno)) = true := by simp [stage, hmod]
  refine ⟨(diesOf (calibrated s modno).m.dieok).foldl resupplyDie (calibrated s modno), ?_, .foldl resupplyDie_asked _ _⟩
  change Host.Outcome.next (if _ then s else _) = _
  rw [if_neg taken]
  rfl

theorem warmCalibration_ready {s : State} {modno : Nat} (stage : s.m.stage = 5) (hmod : modno < 640) :
    ∃ t, exec (.warmCalibration modno) s = .next t ∧ t.m.stage = 6 ∧ t.m.busy = false ∧ t.m.errc = 0 ∧ t.m.dieok = s.m.enabled
      ∧ t.m.modno = modno ∧ ∀ n < 256, (s.bind n).published = true → Warmed s t n := by
  obtain ⟨t, ht, asked⟩ := exec_warmCalibration stage hmod
  obtain ⟨u, hu, eq⟩ := calibrated_eq s modno
  rw [eq] at asked
  have calibrated : CalibratedOnly (List.range 256) s u := hu ▸ foldl_warmBinding_calibratedOnly ..
  refine ⟨t, ht, ?_⟩
  rw [asked.m]
  refine ⟨rfl, rfl, rfl, calibrated.enabled, rfl, fun n hn published => ?_⟩
  obtain ⟨fresh, resumed⟩ : Warmed s u n := hu ▸ foldl_warmBinding_warmed s.m.probeFails hn published
  have same : t.bind n = u.bind n := by rw [State.bind, State.bind, asked.binds]; rfl
  constructor
  · rw [asked.due, same]; exact fresh
  · rw [asked.due, same]; exact resumed

end Sys2Proof.Proofs
end

section
/-!
PROOF. Attestation (R17, R18): where each field of the report stands in host memory.
-/

namespace Sys2Proof.Proofs

open Sys2Proof.Machine

/-! ### Fields one after another -/

theorem bytes_append (m : Mem) (a n k : Nat) : m.bytes a (n + k) = m.bytes a n ++ m.bytes (a + n) k := by
  induction n generalizing a with
  | zero => simp [Mem.bytes]
  | succ n ih => rw [Nat.add_right_comm, Mem.bytes, Mem.bytes, ih, List.cons_append, Nat.add_assoc, Nat.add_comm 1 n]

theorem bytes_split {m : Mem} {a : Nat} {xs ys : List Byte} (h : m.bytes a (xs ++ ys).length = xs ++ ys) :
    m.bytes a xs.length = xs ∧ m.bytes (a + xs.length) ys.length = ys := by
  rw [List.length_append, bytes_append] at h
  exact List.append_inj h (Mem.bytes_length ..)

/-- Where the field `i` of some fields begins. -/
def fieldAt (fs : List (List Byte)) (i : Nat) : Nat := (fs.take i).flatten.length

/-- Fields that stand one after another in memory stand each at its place. -/
theorem bytes_field {m : Mem} {a : Nat} {fs : List (List Byte)} (h : m.bytes a fs.flatten.length = fs.flatten) {i : Nat} {f : List Byte}
    (hi : fs[i]? = some f) : m.bytes (a + fieldAt fs i) f.length = f := by
  induction fs generalizing a i with
  | nil => simp at hi
  | cons g fs ih =>
    obtain ⟨first, rest⟩ := bytes_split (xs := g) (ys := fs.flatten) h
    cases i with
    | zero =>
      obtain rfl : g = f := by simpa using hi
      exact first
    | succ i =>
      have := ih rest (i := i) (by simpa using hi)
      simpa [fieldAt, Nat.add_assoc] using this

/-- The same for a number, little-endian. -/
theorem num_field {m : Mem} {a : Nat} {fs : List (List Byte)} (h : m.bytes a fs.flatten.length = fs.flatten) {i n v : Nat}
    (hi : fs[i]? = some (bytesOfNat n v)) : m.num (a + fieldAt fs i) n = v % 256 ^ n := by
  have := bytes_field h hi
  rw [length_bytesOfNat] at this
  rw [Mem.num, this, natOfBytes_bytesOfNat]

/-! ### The report -/

/-- The bindings that a report lists. -/
def listed (s : State) : List (Nat × BindE) := s.binds.filter fun c => c.2.state == 2 && decide (c.1 < 256)

/-- Bytes of a signed report. -/
def signedLength (s : State) : Nat := 0xE0 + 48 * (listed s).length + 96

/-- The fields of a binding in a report. -/
def bindingFields (c : Nat × BindE) : List (List Byte) :=
  [bytesOfNat 2 c.1, bytesOfNat 2 0, bytesOfNat 4 c.2.gen.toNat, bytesOfNat 24 c.2.root, bytesOfNat 4 c.2.din, bytesOfNat 4 c.2.dout,
    bytesOfNat 2 c.2.dies.toNat, bytesOfNat 6 0]

/-- The fields of a report before those of the bindings. -/
def headFields (s : State) (nonce : List Byte) : List (List Byte) :=
  [bytesOfNat 4 1, bytesOfNat 4 (signedLength s), nonce, bytesOfNat 8 s.m.ftime, bigBytes 48 Config.identityHash, bigBytes 48 s.m.imageHash,
    bigBytes 48 s.m.laurelHash, bytesOfNat 2 s.m.dieok.toNat, bytesOfNat 2 (listed s).length, bytesOfNat 4 Config.minVersion.toNat, bytesOfNat 8 0]

/-- A report, field by field. -/
def reportFields (s : State) (nonce : List Byte) : List (List Byte) := headFields s nonce ++ (listed s).map fun c => (bindingFields c).flatten

theorem report_eq (s : State) (nonce : List Byte) : report s nonce = (reportFields s nonce).flatten := by
  have bindings : ((listed s).map fun c => (bindingFields c).flatten).flatten = (listed s).flatMap fun c =>
      bytesOfNat 2 c.1 ++ bytesOfNat 2 0 ++ bytesOfNat 4 c.2.gen.toNat ++ bytesOfNat 24 c.2.root ++ bytesOfNat 4 c.2.din
        ++ bytesOfNat 4 c.2.dout ++ bytesOfNat 2 c.2.dies.toNat ++ bytesOfNat 6 0 := by
    rw [← List.flatMap_def]
    exact List.flatMap_congr fun c _ => by simp [bindingFields]
  rw [reportFields, List.flatten_append, bindings]
  simp only [headFields, List.flatten_cons, List.flatten_nil, List.append_nil, ← List.append_assoc]
  rfl

@[simp] theorem length_bigBytes (n x : Nat) : (bigBytes n x).length = n := by simp [bigBytes]

theorem length_bindingFields (c : Nat × BindE) : (bindingFields c).flatten.length = 48 := by simp [bindingFields]

theorem length_bindings (l : List (Nat × BindE)) : (l.map fun c => (bindingFields c).flatten).flatten.length = 48 * l.length := by
  induction l with
  | nil => rfl
  | cons c l ih => rw [List.map_cons, List.flatten_cons, List.length_append, length_bindingFields, ih, List.length_cons]; omega

theorem length_headFields {s : State} {nonce : List Byte} (h : nonce.length = 48) : (headFields s nonce).flatten.length = 0xE0 := by
  simp [headFields, h]

theorem length_report {s : State} {nonce : List Byte} (h : nonce.length = 48) : (report s nonce).length = 0xE0 + 48 * (listed s).length := by
  rw [report_eq, reportFields, List.flatten_append, List.length_append, length_headFields h, length_bindings]

/-- Where a binding's fields begin in a report. -/
theorem fieldAt_binding {s : State} {nonce : List Byte} (h : nonce.length = 48) {i : Nat} (hi : i ≤ (listed s).length) :
    fieldAt (reportFields s nonce) (11 + i) = 0xE0 + 48 * i := by
  have head : (headFields s nonce).length = 11 := rfl
  rw [fieldAt, reportFields, List.take_append, List.take_of_length_le (by omega), head, Nat.add_sub_cancel_left, List.flatten_append,
    List.length_append, length_headFields h, ← List.map_take, length_bindings, List.length_take, Nat.min_eq_left hi]

/-! ### A report in memory -/

/-- The report stands in memory at `a`. -/
def ReportAt (m : Mem) (a : Nat) (s : State) (nonce : List Byte) : Prop := m.bytes a (report s nonce).length = report s nonce

theorem ReportAt.fields {m : Mem} {a : Nat} {s : State} {nonce : List Byte} (h : ReportAt m a s nonce) :
    m.bytes a (reportFields s nonce).flatten.length = (reportFields s nonce).flatten := by
  rw [← report_eq]; exact h

theorem ReportAt.head {m : Mem} {a : Nat} {s : State} {nonce : List Byte} (h : ReportAt m a s nonce) (hn : nonce.length = 48) :
    m.num a 4 = 1 ∧ m.num (a + 4) 4 = signedLength s % 2 ^ 32 ∧ m.bytes (a + 8) 48 = nonce ∧ m.num (a + 0x38) 8 = s.m.ftime % 2 ^ 64
      ∧ m.num (a + 0xD0) 2 = s.m.dieok.toNat ∧ m.num (a + 0xD2) 2 = (listed s).length % 65536 := by
  have at_ : ∀ i, i ≤ 11 → fieldAt (reportFields s nonce) i = ((headFields s nonce).take i).flatten.length := fun i hi => by
    rw [fieldAt, reportFields, List.take_append_of_le_length hi]
  have dieok : m.num (a + 0xD0) 2 = s.m.dieok.toNat % 65536 := by
    simpa [at_, headFields, hn] using num_field h.fields (i := 7) rfl
  refine ⟨?_, ?_, ?_, ?_, ?_, ?_⟩
  · simpa [at_] using num_field h.fields (i := 0) rfl
  · simpa [at_, headFields] using num_field h.fields (i := 1) rfl
  · simpa [at_, headFields, hn] using bytes_field h.fields (i := 2) rfl
  · simpa [at_, headFields, hn] using num_field h.fields (i := 3) rfl
  · rw [dieok, Nat.mod_eq_of_lt s.m.dieok.isLt]
  · simpa [at_, headFields, hn] using num_field h.fields (i := 8) rfl

theorem ReportAt.binding {m : Mem} {a : Nat} {s : State} {nonce : List Byte} (h : ReportAt m a s nonce) (hn : nonce.length = 48) {i k : Nat}
    {b : BindE} (hi : (listed s)[i]? = some (k, b)) :
    let at_ := a + 0xE0 + 48 * i
    m.num at_ 2 = k ∧ m.num (at_ + 4) 4 = b.gen.toNat ∧ m.num (at_ + 8) 24 = b.root % 2 ^ 192 ∧ m.num (at_ + 32) 4 = b.din % 2 ^ 32
      ∧ m.num (at_ + 36) 4 = b.dout % 2 ^ 32 ∧ m.num (at_ + 40) 2 = b.dies.toNat := by
  have entry : (reportFields s nonce)[11 + i]? = some (bindingFields (k, b)).flatten := by
    rw [reportFields, List.getElem?_append_right (by exact Nat.le_add_right ..)]
    simp [headFields, hi]
  have fields := bytes_field h.fields entry
  rw [fieldAt_binding hn (List.getElem?_eq_some_iff.1 hi).1.le, ← Nat.add_assoc] at fields
  have small : k < 256 := by
    have := (List.mem_filter.1 (List.mem_of_getElem? hi)).2
    simp only [Bool.and_eq_true, decide_eq_true_eq] at this
    exact this.2
  intro at_
  have index : m.num at_ 2 = k % 65536 := by simpa [fieldAt] using num_field fields (i := 0) rfl
  have gen : m.num (at_ + 4) 4 = b.gen.toNat % 2 ^ 32 := by simpa [fieldAt, bindingFields] using num_field fields (i := 2) rfl
  have dies : m.num (at_ + 40) 2 = b.dies.toNat % 65536 := by simpa [fieldAt, bindingFields] using num_field fields (i := 6) rfl
  refine ⟨?_, ?_, ?_, ?_, ?_, ?_⟩
  · rw [index, Nat.mod_eq_of_lt (by omega)]
  · rw [gen, Nat.mod_eq_of_lt b.gen.isLt]
  · simpa [fieldAt, bindingFields] using num_field fields (i := 3) rfl
  · simpa [fieldAt, bindingFields] using num_field fields (i := 4) rfl
  · simpa [fieldAt, bindingFields] using num_field fields (i := 5) rfl
  · rw [dies, Nat.mod_eq_of_lt b.dies.isLt]
end Sys2Proof.Proofs
end

section
/-!
PROOF. ATTEST (R17, R18), and the bring-up of the module.
-/

namespace Sys2Proof.Proofs

open Sys2Proof.Machine

/-- The report on the nonce in the command's buffer, and its signature. -/
def signedReport (s : State) : List Byte :=
  let r := report s (s.hostMem.bytes s.m.haddr.toNat 48)
  r ++ bigBytes 96 (Config.signature s.free r)

theorem length_signedReport (s : State) : (signedReport s).length = signedLength s := by
  rw [signedReport, List.length_append, length_report (Mem.bytes_length ..), length_bigBytes, signedLength]

/-- The module after ATTEST has written a signed report. -/
def attested (s : State) (signed : List Byte) : State :=
  { s with free := s.free + 1, hostMem := s.hostMem.store (s.m.haddr.toNat + 64) signed, m := { s.m with hcmd := 2, errc := 0 } }

theorem attested_hostMem (s : State) (signed : List Byte) : (attested s signed).hostMem = s.hostMem.store (s.m.haddr.toNat + 64) signed := rfl

/-- ATTEST in READY: a buffer too small, one that cannot be reached, or the signed report after the nonce's 64 bytes. -/
theorem exec_attest {s : State} (busy : s.m.busy = false) (stage : s.m.stage = 6) :
    exec .attest s = .next (
      if s.m.hlen.toNat < 64 + signedLength s then { s with m := { s.m with hcmd := 2, errc := 8 } }
      else if s.m.portFails = true ∨ 2 ^ 64 < s.m.haddr.toNat + 64 + signedLength s then { s with m := { s.m with hcmd := 2, errc := 4 } }
      else attested s (signedReport s)) := by
  have ready : ¬ (s.m.stage != 6) = true := by simp [stage]
  rw [← length_signedReport]
  change Host.Outcome.next (takeCmd s 2 _) = _
  rw [takeCmd, busy, if_neg (by decide)]
  change Host.Outcome.next (if (s.m.stage != 6) = true then _ else if s.m.hlen.toNat < 64 + (signedReport s).length then _
    else if (s.m.portFails || decide (2 ^ 64 < s.m.haddr.toNat + 64 + (signedReport s).length)) = true then _ else _) = _
  rw [if_neg ready]
  simp only [Bool.or_eq_true, decide_eq_true_eq]
  rfl

theorem reportAt_signed (s : State) (m : Mem) (a : Nat) : ReportAt (m.store a (signedReport s)) a s (s.hostMem.bytes s.m.haddr.toNat 48) := by
  have stored := Mem.bytes_store_same m a (signedReport s)
  exact (bytes_split (xs := report s _) stored).1

theorem exec_attest_short {s : State} (busy : s.m.busy = false) (stage : s.m.stage = 6) (short : s.m.hlen.toNat < 64 + signedLength s) :
    exec .attest s = .next { s with m := { s.m with hcmd := 2, errc := 8 } } := by
  rw [exec_attest busy stage, if_pos short]

theorem exec_attest_unreached {s : State} (busy : s.m.busy = false) (stage : s.m.stage = 6) (room : 64 + signedLength s ≤ s.m.hlen.toNat)
    (fails : s.m.portFails = true ∨ 2 ^ 64 < s.m.haddr.toNat + 64 + signedLength s) :
    exec .attest s = .next { s with m := { s.m with hcmd := 2, errc := 4 } } := by
  rw [exec_attest busy stage, if_neg (Nat.not_lt.2 room), if_pos fails]

/-- ATTEST writes the signed report, and nothing else in host memory. -/
theorem exec_attest_signed {s : State} (busy : s.m.busy = false) (stage : s.m.stage = 6) (room : 64 + signedLength s ≤ s.m.hlen.toNat)
    (port : s.m.portFails = false) (fits : s.m.haddr.toNat + 64 + signedLength s ≤ 2 ^ 64) :
    ∃ t, exec .attest s = .next t ∧ t.mem = s.mem ∧ t.m = { s.m with hcmd := 2, errc := 0 }
      ∧ (∀ x, x < s.m.haddr.toNat + 64 ∨ s.m.haddr.toNat + 64 + signedLength s ≤ x → t.hostMem.read x = s.hostMem.read x)
      ∧ ReportAt t.hostMem (s.m.haddr.toNat + 64) s (s.hostMem.bytes s.m.haddr.toNat 48) := by
  have reached : ¬ (s.m.portFails = true ∨ 2 ^ 64 < s.m.haddr.toNat + 64 + signedLength s) := by
    rw [port]; simpa using fits
  rw [exec_attest busy stage, if_neg (Nat.not_lt.2 room), if_neg reached]
  refine ⟨attested s (signedReport s), rfl, rfl, rfl, fun x hx => ?_, ?_⟩
  · rw [attested_hostMem, Mem.read_store_other _ (by rwa [length_signedReport])]
  · rw [attested_hostMem]
    exact reportAt_signed ..

/-- Settles O49: self-test by replay and the rebuilt bindings, warm calibration binding by binding, ATTEST by the report's fields. -/
theorem bringUp : Obligations.BringUp := by
  intro s
  refine ⟨fun die ok => ⟨exec_selfTest_ignored, fun stage hdie fresh => ⟨selfTested s die ok, exec_selfTest stage hdie fresh, ?_⟩⟩,
    fun modno => ⟨exec_warmCalibration_ignored, fun stage hmod => ?_⟩, fun busy stage =>
    ⟨exec_attest_short busy stage, exec_attest_unreached busy stage, fun room port fits => ?_⟩⟩
  · obtain ⟨-, hm⟩ := selfTested_frame s die ok
    rw [tested_m, stage] at hm
    refine ⟨congrArg Module.tested hm, congrArg Module.enabled hm, congrArg Module.stage hm, congrArg Module.journalFaults hm,
      fun last n hn => ⟨selfTested_bind_retired last hn, fun r only hbind committed live spans held =>
        selfTested_bind_committed last hn only hbind committed live spans held⟩, fun passed sorted wf c hc a ha valid last => ?_⟩
    subst passed
    exact selfTested_row sorted wf hc ha valid last
  · obtain ⟨t, ht, hstage, hbusy, herrc, hdieok, hmodno, warmed⟩ := warmCalibration_ready stage hmod
    refine ⟨t, ht, hstage, hbusy, herrc, hdieok, hmodno, fun n hn published => ?_⟩
    obtain ⟨unsaved, resumed⟩ := warmed n hn (beq_iff_eq.2 published)
    exact ⟨unsaved, resumed⟩
  · obtain ⟨t, ht, hmem, hm, others, report⟩ := exec_attest_signed busy stage room port fits
    have nonce : (s.hostMem.bytes s.m.haddr.toNat 48).length = 48 := Mem.bytes_length ..
    obtain ⟨version, length, echoed, time, dieok, count⟩ := report.head nonce
    have lengthFits : signedLength s < 2 ^ 32 := lt_of_le_of_lt (Nat.le_add_left ..) (lt_of_le_of_lt room s.m.hlen.isLt)
    exact ⟨t, ht, hmem, hm, others, version, length.trans (Nat.mod_eq_of_lt lengthFits), echoed, time, dieok,
      fun hn => count.trans (Nat.mod_eq_of_lt hn), fun i k b hi => report.binding nonce hi⟩

end Sys2Proof.Proofs
end

section
/-!
PROOF. The end of a turn for a word that leaves its group in a given form: nothing else of the state moves.
-/

namespace Sys2Proof.Proofs

open Sys2Proof.Machine Sys2Proof.Claim

theorem LatchesAside.refl (s : State) : LatchesAside s s := ⟨rfl, fun _ => rfl⟩

theorem latchesAside_holdLatch (s : State) (c : Ctx) : LatchesAside s (holdLatch s c) := ⟨rfl, holdLatch_core s c⟩

/-- A meaning that leaves group `g`, its WSKIPs and sleeps those of the issue, ends the turn of its sub-group. -/
theorem settle_turnOf {c : Ctx} {s0 s u : State} {g : Group} (j : Bool) (hu : LatchesAside s u)
    (hw : g.wskipNow = (s0.group c.gid).wskipNow) (hs : g.sleep = (s0.group c.gid).sleep) :
    TurnOf s (settleGroup c j s0 (.ok (u.setGroup c.gid g))) c.gid
      (turnOver (if j then g else g.subPc c.sub (c.pc + BitVec.ofNat 64 c.len)) c.sub) := by
  have ended : settleGroup c j s0 (.ok (u.setGroup c.gid g)) = endTurn ((u.setGroup c.gid g).setGroup c.gid
      (turnOver (if j then g else g.subPc c.sub (c.pc + BitVec.ofNat 64 c.len)) c.sub)) := by
    rw [settleGroup_ok, retire_eq (g := { g with wrote := [] }) (by simp)]
    simp only [show c.g s0 = s0.group c.gid from rfl, ← hw, ← hs, skip_used, sleep_used]
    cases j <;> rfl
  obtain ⟨hshape, hcores⟩ := hu
  refine ⟨?_, fun n => ?_, fun k hk => ?_, ?_⟩
  · rw [ended, State.setGroup_shape, State.setGroup_shape, hshape]; rfl
  · rw [ended, State.core_endTurn, State.setGroup_core, State.setGroup_core, hcores]
  · rw [ended, State.group_endTurn, State.group_setGroup_other _ _ hk, State.group_setGroup_other _ _ hk, hshape]; rfl
  · rw [ended, State.group_endTurn, State.group_setGroup_same]; rfl

/-- A turn moves scalars, predicates and the turn's records at most: no flag is raised. -/
theorem turnOf_scalarFrame {s t : State} {gid : Nat} {h : Group} (ht : TurnOf s t gid h) : ScalarFrame s t gid 0 := by
  obtain ⟨shape, cores, others, -⟩ := ht
  refine ⟨⟨by rw [shape], cores⟩, others, fun k => ?_⟩
  rw [shape]
  split
  · cases Tbl.look s.teams k <;> simp
  · rfl

end Sys2Proof.Proofs
end

section
/-!
PROOF. Lane exchanges and votes (R407, R422, R441).
-/

namespace Sys2Proof.Proofs

open Sys2Proof.Machine Sys2Proof.Claim

/-! ### Exchanges -/

theorem code_v (n : Fin 64) : (Opd.v n).code.toNat = n.val := by
  rw [Opd.code, BitVec.toNat_ofNat]; omega

theorem code_s (n : Fin 32) : (Opd.s n).code.toNat = 0x40 + n.val := by
  rw [Opd.code, BitVec.toNat_ofNat]; omega

/-- The quad of a lane. -/
theorem quad_base (l : Nat) : l - l % 4 = 4 * (l / 4) := by omega

theorem exec_qxch (f : Fields) (s : State) : exec (.qxch f) s = execQxch f s := rfl
theorem exec_qbcst (f : Fields) (s : State) : exec (.qbcst f) s = execQbcst f s := rfl
theorem exec_lshf (f : Fields) (s : State) : exec (.lshf f) s = execLshf f s := rfl

/-- Each word of the table is the exchange with its pick. -/
theorem exec_exchange {o : (Fields → Instr) × (Nat → Nat → Nat)} (ho : o ∈ exchangeOps) (f : Fields) (s : State) :
    exec (o.1 f) s = exchange (o.1 f) f o.2 s := by
  simp only [exchangeOps, List.mem_cons, List.not_mem_nil, or_false] at ho
  rcases ho with rfl | rfl | rfl
  · simp only [exec_qxch, execQxch, quad_base]
  · simp only [exec_qbcst, execQbcst, quad_base]
  · exact exec_lshf f s

theorem laneExchanges : Claim.LaneExchanges := by
  intro o ho f va ha
  refine laneWord fun s gid sub hI => ?_
  rw [exec_exchange ho, exchange, issueGroup_group hI]
  simp only [ha, code_v]

/-! ### Votes -/

theorem mlanes_eq_nil {m : Mask} : mlanes m = [] ↔ m = 0 := by
  rw [mlanes, List.filter_eq_nil_iff]
  refine ⟨fun h => BitVec.eq_of_getLsbD_eq fun i hi => ?_, fun h => by simp [h]⟩
  simpa using h i (List.mem_range.2 hi)

theorem mem_mlanes_and {a b : Mask} {l : Nat} : l ∈ mlanes (a &&& b) ↔ l ∈ mlanes a ∧ mhas b l = true := by
  simp only [mem_mlanes, mhas, BitVec.getLsbD_and, Bool.and_eq_true, and_assoc]

/-- All lanes of a set vote for it when none lies outside the predicate. -/
theorem all_mhas (act p : Mask) : (act &&& ~~~p == 0) = (mlanes act).all (mhas p) := by
  rw [Bool.eq_iff_iff, beq_iff_eq, ← mlanes_eq_nil, List.eq_nil_iff_forall_not_mem, List.all_eq_true]
  refine forall_congr' fun l => ?_
  rw [mem_mlanes_and, not_and]
  refine ⟨fun h hl => ?_, fun h hl => ?_⟩ <;> have := h hl <;> have := ((mem_mlanes _ _).1 hl).1 <;> simp_all [mhas]

theorem any_mhas (act p : Mask) : (act &&& p != 0) = (mlanes act).any (mhas p) := by
  rw [Bool.eq_iff_iff, bne_iff_ne, ne_eq, ← mlanes_eq_nil, ← ne_eq, List.any_eq_true]
  refine ⟨fun h => ?_, fun ⟨l, hl, hp⟩ => List.ne_nil_of_mem (mem_mlanes_and.2 ⟨hl, hp⟩)⟩
  obtain ⟨l, hl⟩ := List.exists_mem_of_ne_nil _ h
  exact ⟨l, mem_mlanes_and.1 hl⟩

/-- VOTE all and any with an active lane: one bit to every lane of the sub-group's mask. -/
theorem vote_bit {i : Instr} {f : Fields} {all : Bool} {s : State} {gid sub : Nat} (hI : Issuing s gid sub)
    (h : exec i s = vote i f all s) (hact : (s.group gid).activeReal sub f ≠ 0) {bit : Bool}
    (hbit : bit = if all then (s.group gid).activeReal sub f &&& ~~~ (s.group gid).pred (f.c.code.toNat % 8) == 0
      else (s.group gid).activeReal sub f &&& (s.group gid).pred (f.c.code.toNat % 8) != 0) :
    ∃ t, exec i s = .next t ∧ ScalarFrame s t gid 0 ∧ PredIssued (s.group gid) (t.group gid) (f.d.code.toNat % 8)
      (mlanes ((s.group gid).sub sub).mask) (fun _ => bit) sub (nextPc f s gid sub) := by
  set g := s.group gid with hg
  set m := (g.sub sub).mask
  set c := ctx i f s gid sub
  have run : exec i s = .next (settleGroup c false s (.ok ((holdLatch s c).setGroup gid
      (g.setPred (f.d.code.toNat % 8) m (if bit then m else 0))))) := by
    rw [h, vote, issueGroup_group hI]
    simp only [ctx_g_holdLatch, show c.g s = g from rfl, hact, if_false, hbit, c]; rfl
  obtain ⟨-, hskip, hsleep⟩ := setPred_same g (f.d.code.toNat % 8) m (if bit then m else 0)
  have turn := settle_turnOf (c := c) (s0 := s) false (latchesAside_holdLatch s c) hskip hsleep
  refine ⟨_, run, turnOf_scalarFrame turn, ?_⟩
  obtain ⟨-, -, -, hgroup⟩ := turn
  rw [show gid = c.gid from rfl, hgroup]
  refine predIssued_done c g _ _ _ m _ (fun l hl => ?_) fun l hl hlt => ?_
  · rw [Bool.eq_iff_iff, decide_eq_true_iff, mem_mlanes]; exact ⟨fun h => ⟨hl, h⟩, fun h => h.2⟩
  · have := ((mem_mlanes _ _).1 hl).2
    cases bit
    · simp [mhas]
    · simpa using this

theorem decide_mem_mlanes (act p : Mask) {l : Nat} (hl : l < 256) :
    (act &&& p).getLsbD l = (decide (l ∈ mlanes act) && mhas p l) := by
  rw [BitVec.getLsbD_and, Bool.eq_iff_iff, Bool.and_eq_true, Bool.and_eq_true, decide_eq_true_iff, mem_mlanes]
  exact ⟨fun h => ⟨⟨hl, h.1⟩, h.2⟩, fun h => ⟨h.1.2, h.2⟩⟩

/-- A run of scalars written one after another. -/
def setScals (g : Group) (n : Nat) (v : Nat → W64) (k : Nat) : Group :=
  (List.range k).foldl (fun g i => g.setScal (n + i) (v i)) g

theorem setScals_succ (g : Group) (n : Nat) (v : Nat → W64) (k : Nat) :
    setScals g n v (k + 1) = (setScals g n v k).setScal (n + k) (v k) := by
  simp only [setScals, List.range_succ, List.foldl_append, List.foldl_cons, List.foldl_nil]

theorem scal_setScals_in (g : Group) (n : Nat) (v : Nat → W64) {k i : Nat} (h : i < k) : (setScals g n v k).scal (n + i) = v i := by
  induction k with
  | zero => omega
  | succ k ih =>
    rw [setScals_succ]
    rcases Nat.lt_succ_iff_lt_or_eq.1 h with h | rfl
    · rw [Group.scal_setScal_other _ _ (by omega), ih h]
    · exact Group.scal_setScal_same ..

theorem scal_setScals_out (g : Group) (n : Nat) (v : Nat → W64) {k m : Nat} (h : m < n ∨ n + k ≤ m) :
    (setScals g n v k).scal m = g.scal m := by
  induction k with
  | zero => rfl
  | succ k ih => rw [setScals_succ, Group.scal_setScal_other _ _ (by omega), ih (by omega)]

theorem scal_issuedAt (g : Group) (sub : Nat) (pc : W64) (m : Nat) : (issuedAt g sub pc).scal m = g.scal m := rfl

theorem setScals_frame (g : Group) (n : Nat) (v : Nat → W64) (k : Nat) :
    setScals g n v k = { g with s := (setScals g n v k).s, sbusy := (setScals g n v k).sbusy } := by
  induction k with
  | zero => rfl
  | succ k ih => rw [setScals_succ]; conv_lhs => rw [ih]
                 rfl

theorem exec_voteAll (f : Fields) (s : State) : exec (.voteAll f) s = execVoteAll f s := rfl
theorem exec_voteAny (f : Fields) (s : State) : exec (.voteAny f) s = execVoteAny f s := rfl
theorem exec_voteBallot (f : Fields) (s : State) : exec (.voteBallot f) s = execVoteBallot f s := rfl

/-- VOTE.ballot with an active lane: four scalars take the set of active lanes where the predicate holds. -/
theorem vote_ballot {f : Fields} {s : State} {gid sub : Nat} {n : Fin 32} (hI : Issuing s gid sub) (hd : f.d = .s n)
    (hact : (s.group gid).activeReal sub f ≠ 0) :
    let h := setScals (s.group gid) n.val
      (fun i => ((s.group gid).activeReal sub f &&& (s.group gid).pred (f.c.code.toNat % 8)).extractLsb' (64 * i) 64) 4
    ∃ t, exec (.voteBallot f) s = .next t ∧ TurnOf s t gid (issuedAt h sub (nextPc f s gid sub)) := by
  intro h
  set c := ctx (.voteBallot f) f s gid sub
  have run : exec (.voteBallot f) s = .next (settleGroup c false s (.ok ((holdLatch s c).setGroup gid h))) := by
    rw [exec_voteBallot, execVoteBallot, issueGroup_group hI]
    simp only [ctx_g_holdLatch, show c.g s = s.group gid from rfl, hact, if_false, hd, code_s, Nat.add_sub_cancel_left, c]; rfl
  have frame : h = { s.group gid with s := h.s, sbusy := h.sbusy } := setScals_frame ..
  have turn := settle_turnOf (c := c) (s0 := s) (g := h) false (latchesAside_holdLatch s c) (by rw [frame]) (by rw [frame])
  refine ⟨_, run, ?_⟩
  have pc : h.subPc sub (c.pc + BitVec.ofNat 64 c.len) = h.setSub sub { h.sub sub with pc := nextPc f s gid sub } := rfl
  rw [issuedAt, ← pc]
  exact turn

theorem votes : Claim.Votes := by
  intro f s gid sub hI g set c mask
  have idle : set = [] ↔ g.activeReal sub f = 0 := mlanes_eq_nil
  refine ⟨fun none_ i hi => ?_, fun some_ => ?_, fun some_ => ?_, fun n hd some_ => ?_⟩
  · have hact := idle.1 none_
    simp only [List.mem_cons, List.not_mem_nil, or_false] at hi
    rcases hi with rfl | rfl | rfl <;> refine does_nothing hI ?_
    · rw [exec_voteAll, execVoteAll, vote, issueGroup_group hI]; exact congrArg _ (congrArg _ (if_pos hact))
    · rw [exec_voteAny, execVoteAny, vote, issueGroup_group hI]; exact congrArg _ (congrArg _ (if_pos hact))
    · rw [exec_voteBallot, execVoteBallot, issueGroup_group hI]; exact congrArg _ (congrArg _ (if_pos hact))
  · exact vote_bit hI (all := true) (exec_voteAll f s) (mt idle.2 some_) (all_mhas ..).symm
  · exact vote_bit hI (all := false) (exec_voteAny f s) (mt idle.2 some_) (any_mhas ..).symm
  · obtain ⟨t, ht, turn⟩ := vote_ballot hI hd (mt idle.2 some_)
    refine ⟨t, ht, turnOf_scalarFrame turn, ?_⟩
    obtain ⟨-, -, -, hgroup⟩ := turn
    rw [hgroup]
    refine ⟨fun i hi l hl => ?_, fun m hm => ?_, ?_⟩
    · rw [scal_issuedAt, scal_setScals_in _ _ _ hi, BitVec.getLsbD_extractLsb', decide_eq_true hl, Bool.true_and,
        decide_mem_mlanes _ _ (by omega)]
    · rw [scal_issuedAt, scal_setScals_out _ _ _ hm]
    · conv_lhs => rw [setScals_frame]
      rfl

/-- Settles O9: an exchange is a lane word whose value another lane holds, and a vote writes one predicate or four scalars. -/
theorem exchanges : Obligations.Exchanges := ⟨laneExchanges, votes⟩

end Sys2Proof.Proofs
end

section
/-!
PROOF. Words with OPC 0x00 (R316, R418): the fields of a decoded word give its low half back.
-/

namespace Sys2Proof.Proofs

open Sys2Proof.Machine Sys2Proof.Claim

/-! ### Codes read back -/

theorem rm_code_ofCode (c : BitVec 2) : (RM.ofCode c).code = c := by revert c; decide

theorem hold_code_ofCode (c : BitVec 2) : (Hold.ofCode c).code = c := by revert c; decide

theorem len_code_ofCode {c : BitVec 2} {l : Len} (h : Len.ofCode c = some l) : l.code = c := by revert l; revert c; decide

theorem tag_code_ofCode {c : BitVec 4} {t : Tag} (h : Tag.ofCode c = some t) : t.code = c := by revert t; revert c; decide

theorem ofBool_getLsbD {n : Nat} (w : BitVec n) (k : Nat) : BitVec.ofBool (w.getLsbD k) = w.extractLsb' k 1 := by
  apply BitVec.eq_of_getLsbD_eq
  intro i hi
  obtain rfl : i = 0 := by omega
  simp

theorem ofNat_toNat_extract {n : Nat} (w : BitVec n) (a k : Nat) : BitVec.ofNat k (w.extractLsb' a k).toNat = w.extractLsb' a k :=
  BitVec.ofNat_toNat .. |>.trans (by simp)

/-- The fields of a word, packed under its OPC and FN, give its low 64 bits back (R305). -/
theorem pack_unpack_low {w : Word128} {f : Fields} (h : unpack w = some f) :
    (pack (opcOf w) (fnOf w) f).extractLsb' 0 64 = w.extractLsb' 0 64 := by
  obtain ⟨len, hlen, hrest⟩ := Option.bind_eq_some_iff.1 h
  obtain ⟨fmt, hfmt, hf⟩ := Option.bind_eq_some_iff.1 hrest
  cases hf
  have low : ∀ x y : BitVec 64, (x ++ y).extractLsb' 0 64 = y := fun x y => by
    apply BitVec.eq_of_getLsbD_eq; intro i hi; rw [BitVec.getLsbD_extractLsb', BitVec.getLsbD_append]; simp [hi]
  rw [pack]
  refine (low _ _).trans ?_
  simp only [ofBool_getLsbD, rm_code_ofCode, tag_code_ofCode hfmt, hold_code_ofCode, len_code_ofCode hlen, Laws.opd_code_ofCode,
    ofNat_toNat_extract, opcOf, fnOf]
  simp (disch := rfl) only [BitVec.extractLsb'_append_extractLsb'_eq_extractLsb']

/-! ### NOP -/

/-- A well-formed NOP has every field at its value for a field that is not used. -/
theorem eq_plainWord_of_wf {f : Fields} (h : (Instr.nop f).wf = true) : f = plainWord := by
  obtain ⟨ext, pol, imm, x, sat, rm, fmt, hold, btC, btB, btA, c, b, a, d, rk, uni, pn, pg, len⟩ := f
  simp only [Instr.wf, Fields.lenA, Fields.unpred, Fields.noRmSat, Fields.holdOk, Fields.btOk, Opd.isZero, Bool.and_eq_true,
    beq_iff_eq, Bool.not_eq_true', Bool.false_and, Bool.or_false, Bool.false_or] at h
  cases len <;> cases hold <;> simp_all [plainWord]

theorem encode_nop : encodeWord (.nop plainWord) = some 0x0001FFFFFFE00000 ∧ encodeWord (.nopSkip plainWord) = some 0x0001FFFFFFE00400 := by
  decide

/-- What decodes has fields that unpack, an OPC and FN of the map, and is well-formed. -/
theorem decodeWord_ok {w : Word128} {i : Instr} (h : decodeWord w = .ok i) : assigned (opcOf w) (fnOf w) = true ∧
    ∃ f, unpack w = some f ∧ Instr.ofWord (opcOf w) (fnOf w) f = some i ∧ i.wf = true := by
  unfold decodeWord at h
  split at h
  · cases h
  · split at h
    · cases h
    · next assigned_ =>
      split at h
      · cases h
      · next f hf =>
        split at h
        · cases h
        · next j hj =>
          split at h
          · next wf => cases h; exact ⟨by simpa using assigned_, f, hf, hj, wf⟩
          · cases h

/-- The low half of a word whose fields are those of NOP. -/
theorem low_of_plainWord {w : Word128} (h : unpack w = some plainWord) :
    w.toNat % 2 ^ 64 = ((pack (opcOf w) (fnOf w) plainWord).extractLsb' 0 64).toNat := by
  rw [pack_unpack_low h, BitVec.extractLsb'_toNat, Nat.shiftRight_zero]

theorem nopWords : Claim.NopWords := by
  obtain ⟨encNop, encSkip⟩ := encode_nop
  refine fun f => ⟨fun wf => ?_, fun wf => ?_, fun w i opc0 dec => ?_⟩
  · rw [eq_plainWord_of_wf wf, encNop]
  · rw [eq_plainWord_of_wf (f := f) wf, encSkip]
  · obtain ⟨hassigned, g, hg, hi, wf⟩ := decodeWord_ok dec
    have hopc : opcOf w = 0 := by
      rw [opcOf, BitVec.extractLsb'_toNat, Nat.shiftRight_eq_div_pow]; exact opc0
    rw [hopc] at hassigned hi
    have hfn : fnOf w = 0 ∨ fnOf w = 1 := by
      have : fnOf w < 2 := by simpa [assigned] using hassigned
      omega
    rcases hfn with hfn | hfn <;> rw [hfn] at hi <;> cases hi
    · have plain := eq_plainWord_of_wf wf
      subst plain
      exact .inl ⟨_, rfl, by rw [low_of_plainWord hg, hopc, hfn]; rfl⟩
    · have plain := eq_plainWord_of_wf (f := g) wf
      subst plain
      exact .inr ⟨_, rfl, by rw [low_of_plainWord hg, hopc, hfn]; rfl⟩

theorem exec_nop (f : Fields) (s : State) : exec (.nop f) s = execNop f s := rfl
theorem exec_nopSkip (f : Fields) (s : State) : exec (.nopSkip f) s = execNopSkip f s := rfl

/-- A meaning that only moves its sub-group to `pc` completes there. -/
theorem does_jump {i : Instr} {f : Fields} {s u : State} {gid sub : Nat} {pc : W64} (hu : LatchesAside s u)
    (h : exec i s = .next (settleGroup (ctx i f s gid sub) true s (.ok (u.setGroup gid ((s.group gid).subPc sub pc))))) :
    Does i s gid sub pc s :=
  ⟨_, h, settle_turnOf (c := ctx i f s gid sub) (g := (s.group gid).subPc sub pc) true hu rfl rfl⟩

/-- A beam core whose meaning only moves its pass. -/
theorem beamDoes_jump {i : Instr} {s : State} {q len : Nat} {r r' : Run}
    (h : exec i s = .next (settleBeam q len true s (.ok (s.setRun q r')))) : BeamDoes i s q r r' := by
  have ended : settleBeam q len true s (.ok (s.setRun q r')) = endTurn (s.setRun q r') := by
    rw [settleBeam_ok, retireBeam_eq (r := r') (by simp)]; rfl
  refine ⟨_, h, ?_⟩
  rw [ended]
  refine ⟨rfl, by rw [State.engine_endTurn, State.engine_setRun_same], fun k hk => ?_, fun k => ?_⟩
  · rw [State.engine_endTurn, State.engine_setRun_other _ _ hk]
  · rw [State.endTurn_teams, State.setRun_teams]
    split
    · cases Tbl.look s.teams k <;> simp
    · rfl

theorem nops : Claim.Nops := by
  refine fun f s => ⟨fun gid sub hI => ⟨does_nothing hI ?_, does_jump (f := f) (latchesAside_holdLatch s (ctx (.nopSkip f) f s gid sub)) ?_⟩,
    fun q r hI => ⟨⟨_, ?_, onlyRun_idle hI.2 _ _⟩, beamDoes_jump (len := f.len.bytes) ?_⟩⟩
  · rw [exec_nop, execNop, issueBoth_group hI]
  · rw [exec_nopSkip, execNopSkip, issueBoth_group hI]; rfl
  · rw [exec_nop, execNop, issueBoth_beam hI]; rfl
  · rw [exec_nopSkip, execNopSkip, issueBoth_beam hI]; rfl

end Sys2Proof.Proofs
end

section
/-!
PROOF. Words with nothing active (R24, R25, R307): the meaning of a predicated word leaves the state as it finds it.
-/

namespace Sys2Proof.Proofs

open Sys2Proof.Machine Sys2Proof.Claim

/-! ### The shapes of words -/

/-- A meaning has no effect where `idle` holds of its group and sub-group. -/
def NoEffect (f : Fields) (idle : Group → Nat → Prop) (grp : Ctx → State → Except Stop State) : Prop :=
  ∀ c s, c.f = f → idle (c.g s) c.sub → grp c s = .ok s

/-- No active real lane, and references that R47 admits. -/
def IdleLanes (f : Fields) (refs : Group → Prop) (g : Group) (sub : Nat) : Prop := refs g ∧ g.activeReal sub f = 0

/-- UNI with a predicate that does not hold. -/
def IdleUni (f : Fields) (refs : Group → Prop) (g : Group) (sub : Nat) : Prop := refs g ∧ g.uniOn sub f = false

theorem idleByLane_of {i : Instr} {f : Fields} {refs : Group → Prop} {grp : Ctx → State → Except Stop State}
    {beam : Ctx → Nat → Run → State → Except Stop State} (h : ∀ s, exec i s = issueBoth i f false grp beam s)
    (hg : NoEffect f (IdleLanes f refs) grp) : IdleByLane i f refs := fun s gid sub hI hR ha =>
  does_nothing hI (by rw [h, issueBoth_group hI, hg (ctx i f s gid sub) (holdLatch s (ctx i f s gid sub)) rfl ⟨hR, ha⟩])

theorem idleUnderUni_of {i : Instr} {f : Fields} {refs : Group → Prop} {grp : Ctx → State → Except Stop State}
    {beam : Ctx → Nat → Run → State → Except Stop State} (h : ∀ s, exec i s = issueBoth i f false grp beam s)
    (hg : NoEffect f (IdleUni f refs) grp) : IdleUnderUni i f refs := fun s gid sub hI hR ha =>
  does_nothing hI (by rw [h, issueBoth_group hI, hg (ctx i f s gid sub) (holdLatch s (ctx i f s gid sub)) rfl ⟨hR, ha⟩])

/-- A word that is idle in both its forms. -/
def IdleBoth (i : Instr) (f : Fields) (refs : Group → Prop) : Prop :=
  (f.uni = false → IdleByLane i f refs) ∧ (f.uni = true → IdleUnderUni i f fun _ => True)

theorem idleBoth_of {i : Instr} {f : Fields} {refs : Group → Prop} {uni lane : Ctx → State → Except Stop State}
    {beam : Ctx → Nat → Run → State → Except Stop State}
    (h : ∀ s, exec i s = issueBoth i f false (fun c s => if f.uni then uni c s else lane c s) beam s)
    (hu : NoEffect f (IdleUni f fun _ => True) uni) (hl : NoEffect f (IdleLanes f refs) lane) : IdleBoth i f refs := by
  refine ⟨fun e => idleByLane_of h fun c s hc hi => ?_, fun e => idleUnderUni_of h fun c s hc hi => ?_⟩
  · rw [e, if_neg Bool.false_ne_true, hl c s hc hi]
  · rw [e, if_pos rfl, hu c s hc hi]

/-- R47 asks of a source only its operand and count. -/
theorem refsOk_congr {g : Group} {us vs : List Use} {ds : List (Opd × Nat)}
    (h : us.map (fun u => (u.o, u.n)) = vs.map fun u => (u.o, u.n)) (hR : RefsOk g us ds) : RefsOk g vs ds := by
  refine ⟨fun v hv => ?_, hR.2⟩
  obtain ⟨u, hu, e⟩ := List.mem_map.1 (h ▸ List.mem_map_of_mem (f := fun u : Use => (u.o, u.n)) hv)
  have := hR.1 u hu
  rwa [show u.o = v.o from congrArg Prod.fst e, show u.n = v.n from congrArg Prod.snd e] at this

theorem uniBody_noEffect (f : Fields) (fn : Ctx → State → (Opd → W64) → W64 × BitVec 5) (refs : Group → Prop) :
    NoEffect f (IdleUni f refs) fun c s => uniBody c (fn c s) s := fun _ _ hc hi => uniBody_off (hc ▸ hi.2)

theorem laneBody_noEffect (f : Fields) (uses : List Use) {vs : List Use} (t : Tag) (fn : Ctx → State → Group → Nat → W32 × BitVec 5)
    (h : vs.map (fun u => (u.o, u.n)) = uses.map fun u => (u.o, u.n)) :
    NoEffect f (IdleLanes f fun g => RefsOk g vs [(f.d, 1)]) fun c s => laneBody c uses t (fn c s) s := fun c s hc hi => by
  obtain rfl := hc; exact laneBody_idle (refsOk_congr h hi.1) hi.2

theorem cmpLanes_noEffect (f : Fields) (fn : Group → Nat → Bool × BitVec 5) :
    NoEffect f (IdleLanes f fun g => RefsOk g (usesABC f) []) fun c s => cmpLanes c fn s := fun c s hc hi => by
  obtain rfl := hc
  unfold cmpLanes
  simp only [checkRefs_ok hi.1, hi.2, bind, Except.bind, pure, Except.pure, if_true]

theorem cmpUni_noEffect (f : Fields) (fn : (Opd → W64) → Bool × BitVec 5) (refs : Group → Prop) :
    NoEffect f (IdleUni f refs) fun c s => cmpUni c fn s := fun c s hc hi => by
  obtain rfl := hc
  unfold cmpUni
  simp only [hi.2, Bool.not_false, if_true, pure, Except.pure]

/-- A pair destination passes R47. -/
theorem useRange_of_pairDst {g : Group} {o : Opd} {d : Nat} (h : g.pairDst o = some d) : (g.useRange o 2).isSome = true := by
  unfold Group.pairDst at h
  split at h
  · split at h
    · next n even => simp only [Bool.and_eq_true] at even; simp only [Group.useRange, even.2, if_true]; rfl
    · cases h
  · cases h

/-- An affine operation with no active lane is as idle as the ordinary operation. -/
theorem reckoned_noEffect {f : Fields} {rk : Bool} {plan : Group → Option AffPlan} {ordinary : Ctx → State → Except Stop State}
    {ds : List (Opd × Nat)} (h : NoEffect f (IdleLanes f fun g => RefsOk g (usesABC f) ds) ordinary) :
    NoEffect f (IdleLanes f fun g => RefsOk g (usesABC f) ds) fun c s => reckoned c rk plan (ordinary c) s := fun c s hc hi => by
  have ord := h c s hc hi
  obtain rfl := hc
  unfold reckoned
  dsimp only
  split
  · next pl d _ hd =>
    have pair : RefsOk (c.g s) (usesABC c.f) [(c.f.d, 2)] :=
      ⟨hi.1.1, fun x hx => by rw [List.mem_singleton.1 hx]; exact useRange_of_pairDst hd⟩
    simp only [checkRefs_ok pair, hi.2, bind, Except.bind, pure, Except.pure, if_true]
  · exact ord

/-- Under UNI no affine operation is made. -/
theorem reckoned_uni {c : Ctx} {rk : Bool} {plan : Group → Option AffPlan} {ordinary : State → Except Stop State} {s : State}
    (h : c.f.uni = true) : reckoned c rk plan ordinary s = ordinary s := by
  unfold reckoned
  simp only [h, Bool.not_true, Bool.and_false, Bool.false_eq_true, if_false]

/-- A floating word of the shape of `aluReckon` or `aluFloat`. -/
theorem idle_float {i : Instr} {f : Fields} {rk : Bool} {plan : Group → Option AffPlan} {t : Tag}
    {fn : FFmt → RM → Nat → Nat → Nat → Nat × BitVec 5}
    (h : ∀ s, exec i s = issueGroup i f (fun c s => reckoned c rk plan (floatBody c t fn) s) s) :
    IdleBoth i f fun g => RefsOk g (usesABC f) [(f.d, 1)] := by
  refine ⟨fun e => idleByLane_of h (reckoned_noEffect fun c s hc hi => ?_), fun e => idleUnderUni_of h fun c s hc hi => ?_⟩
  · obtain rfl := hc
    rw [floatBody, if_neg (by rw [e]; exact Bool.false_ne_true)]
    exact laneBody_idle hi.1 hi.2
  · obtain rfl := hc
    rw [reckoned_uni e, floatBody, if_pos e]
    exact uniBody_off hi.2

theorem idle_alu {i : Instr} {f : Fields} {lane : (Opd → W32) → W32 × BitVec 5} {uni : (Opd → W64) → W64 × BitVec 5}
    (h : ∀ s, exec i s = alu i f lane uni s) : IdleBoth i f fun g => RefsOk g (usesABC f) [(f.d, 1)] :=
  idleBoth_of h (uniBody_noEffect f (fun _ _ => uni) _) (laneBody_noEffect f (usesABC f) f.fmt (fun _ _ g l => lane fun o => g.src f o l) rfl)

/-! ### Class A and predicate words -/

theorem integerOps_shape {o : (Fields → Instr) × (Nat → Int → Int → Int → Int)} (ho : o ∈ integerOps) (f : Fields) :
    ∃ fn, ∀ s, exec (o.1 f) s = aluInt (o.1 f) f fn s := by
  simp only [integerOps, List.mem_cons, List.not_mem_nil, or_false] at ho
  rcases ho with rfl | rfl | rfl | rfl | rfl | rfl | rfl | rfl | rfl <;> (constructor; intro s; delta exec; dsimp only; rfl)

theorem bitOps_shape {o : (Fields → Instr) × (Fields → (n : Nat) → BitVec n → BitVec n → BitVec n → BitVec n)} (ho : o ∈ bitOps)
    (f : Fields) : ∃ fn, ∀ s, exec (o.1 f) s = aluBits (o.1 f) f fn s := by
  simp only [bitOps, List.mem_cons, List.not_mem_nil, or_false] at ho
  rcases ho with rfl | rfl | rfl | rfl | rfl | rfl | rfl | rfl | rfl | rfl | rfl | rfl <;> (constructor; intro s; delta exec; dsimp only; rfl)

theorem exec_movi (f : Fields) (s : State) : exec (.movi f) s = execMovi f s := rfl
theorem exec_fcls (f : Fields) (s : State) : exec (.fcls f) s = execFcls f s := rfl

/-- A floating word: one that R66 lists, one that it does not, or FCLS. -/
theorem floatOps_shape {o : (Fields → Instr) × Option Tag × (FFmt → RM → Nat → Nat → Nat → Nat × BitVec 5)} (ho : o ∈ floatOps)
    (f : Fields) : (∃ plan fn, ∀ s, exec (o.1 f) s = aluReckon (o.1 f) f plan fn s) ∨ (∃ fn, ∀ s, exec (o.1 f) s = aluFloat (o.1 f) f fn s)
      ∨ o.1 = .fcls := by
  simp only [floatOps, List.mem_cons, List.not_mem_nil, or_false] at ho
  rcases ho with rfl | rfl | rfl | rfl | rfl | rfl | rfl | rfl | rfl | rfl | rfl | rfl | rfl | rfl | rfl
  iterate 7 refine .inl ?_; constructor; constructor; intro s; delta exec; dsimp only; rfl
  iterate 7 refine .inr (.inl ?_); constructor; intro s; delta exec; dsimp only; rfl
  exact .inr (.inr rfl)

theorem compareOps_shape {o : (Fields → Instr) × (Int → Int → Bool)} (ho : o ∈ compareOps) (f : Fields) :
    ∃ cond, ∀ s, exec (o.1 f) s = icmp cond (o.1 f) f s := by
  simp only [compareOps, List.mem_cons, List.not_mem_nil, or_false] at ho
  rcases ho with rfl | rfl | rfl | rfl | rfl | rfl <;> (constructor; intro s; delta exec; dsimp only; rfl)

theorem floatCompareOps_shape {o : (Fields → Instr) × Cond} (ho : o ∈ floatCompareOps) (f : Fields) :
    ∃ cond, ∀ s, exec (o.1 f) s = fcmp cond (o.1 f) f s := by
  simp only [floatCompareOps, List.mem_cons, List.not_mem_nil, or_false] at ho
  rcases ho with rfl | rfl | rfl | rfl | rfl | rfl | rfl <;> (constructor; intro s; delta exec; dsimp only; rfl)

/-- The references that R47 admits of a word with sources `uses` and destinations `ds`. -/
abbrev refs (uses : List Use) (ds : List (Opd × Nat)) (g : Group) : Prop := RefsOk g uses ds

theorem idle_integer {o : (Fields → Instr) × (Nat → Int → Int → Int → Int)} (ho : o ∈ integerOps) (f : Fields) :
    IdleBoth (o.1 f) f (refs (usesABC f) [(f.d, 1)]) := by
  obtain ⟨fn, h⟩ := integerOps_shape ho f
  exact idle_alu h

theorem idle_bits {o : (Fields → Instr) × (Fields → (n : Nat) → BitVec n → BitVec n → BitVec n → BitVec n)} (ho : o ∈ bitOps)
    (f : Fields) : IdleBoth (o.1 f) f (refs (usesABC f) [(f.d, 1)]) := by
  obtain ⟨fn, h⟩ := bitOps_shape ho f
  exact idle_alu h

theorem idle_movi (f : Fields) : IdleBoth (.movi f) f (refs (usesABC f) [(f.d, 1)]) := idle_alu (exec_movi f)

theorem idle_floatOps {o : (Fields → Instr) × Option Tag × (FFmt → RM → Nat → Nat → Nat → Nat × BitVec 5)} (ho : o ∈ floatOps)
    (f : Fields) : IdleBoth (o.1 f) f (refs (usesABC f) [(f.d, 1)]) := by
  have plain : ∀ (c : Ctx) (t : Tag) fn (s : State), reckoned c false (fun _ => none) (floatBody c t fn) s = floatBody c t fn s :=
    fun _ _ _ _ => Laws.reckoned_ordinary (.inl rfl)
  rcases floatOps_shape ho f with ⟨plan, fn, h⟩ | ⟨fn, h⟩ | h
  · exact idle_float h
  · refine idle_float (rk := false) (plan := fun _ => none) (t := f.fmt) (fn := fn) fun s => ?_
    simp only [plain]; exact h s
  · rw [h]
    refine idle_float (rk := false) (plan := fun _ => none) (t := .n32) (fn := fun F _ x _ _ => (2 ^ F.cls x, 0)) fun s => ?_
    simp only [plain]; exact exec_fcls f s

theorem idle_compareOps {o : (Fields → Instr) × (Int → Int → Bool)} (ho : o ∈ compareOps) (f : Fields) :
    IdleBoth (o.1 f) f (refs (usesABC f) []) := by
  obtain ⟨cond, h⟩ := compareOps_shape ho f
  simp only [icmp] at h
  exact idleBoth_of h (cmpUni_noEffect f _ _) (cmpLanes_noEffect f _)

theorem idle_floatCompareOps {o : (Fields → Instr) × Cond} (ho : o ∈ floatCompareOps) (f : Fields) :
    IdleBoth (o.1 f) f (refs (usesABC f) []) := by
  obtain ⟨cond, h⟩ := floatCompareOps_shape ho f
  simp only [fcmp, issueGroup] at h
  exact idleBoth_of h (cmpUni_noEffect f _ _) (cmpLanes_noEffect f _)

theorem exec_sel (f : Fields) (s : State) : exec (.sel f) s = execSel f s := rfl
theorem exec_cvt (f : Fields) (s : State) : exec (.cvt f) s = execCvt f s := rfl
theorem exec_mov (f : Fields) (s : State) : exec (.mov f) s = execMov f s := rfl

theorem idle_sel (f : Fields) : IdleBoth (.sel f) f (refs [useA f none, useB f none] [(f.d, 1)]) := by
  have h := exec_sel f
  simp only [execSel] at h
  refine idleBoth_of h (fun _ _ hc hi => uniBody_off (hc ▸ hi.2)) fun c s hc hi => ?_
  obtain rfl := hc
  exact laneBody_idle (refsOk_congr (us := [useA c.f none, useB c.f none]) rfl hi.1) hi.2

theorem idle_cvt (f : Fields) : IdleBoth (.cvt f) f (refs [useA f none, useB f none] [(f.d, 1)]) := by
  have h := exec_cvt f
  simp only [execCvt, issueGroup] at h
  refine idleBoth_of h (fun _ _ hc hi => uniBody_off (hc ▸ hi.2)) fun c s hc hi => ?_
  obtain rfl := hc
  exact laneBody_idle (refsOk_congr (us := [useA c.f none, useB c.f none]) rfl hi.1) hi.2

theorem idle_mov {f : Fields} (h : ¬ ((∃ n, f.d = .t n) ∨ ∃ n, f.d = .a n)) : IdleBoth (.mov f) f (refs (usesABC f) [(f.d, 1)]) := by
  have hx := exec_mov f
  simp only [execMov] at hx
  refine ⟨fun e => idleByLane_of hx fun c s hc hi => ?_, fun e => idleUnderUni_of hx fun c s hc hi => ?_⟩
  · split
    · next n hd => exact absurd (.inl ⟨n, hd⟩) h
    · next n hd => exact absurd (.inr ⟨n, hd⟩) h
    · rw [e, if_neg Bool.false_ne_true]
      exact reckoned_noEffect (laneBody_noEffect f (usesABC f) f.fmt (fun _ _ g l => (g.src f f.a l, 0)) rfl) c s hc hi
  · split
    · next n hd => exact absurd (.inl ⟨n, hd⟩) h
    · next n hd => exact absurd (.inr ⟨n, hd⟩) h
    · rw [e, if_pos rfl]
      exact uniBody_off (hc ▸ hi.2)

/-! ### Exchanges, reductions, packed words -/

theorem exec_pack (f : Fields) (s : State) : exec (.pack f) s = execPack f s := rfl
theorem exec_unpk (f : Fields) (s : State) : exec (.unpk f) s = execUnpk f s := rfl

theorem idle_pack (f : Fields) : IdleByLane (.pack f) f (refs [{ o := f.a, n := f.fmt.elems }] [(f.d, 1)]) := by
  have hx := exec_pack f
  simp only [execPack, issueGroup] at hx
  refine idleByLane_of hx fun c s hc hi => ?_
  obtain rfl := hc
  exact laneBody_idle (refsOk_congr (us := [{ o := c.f.a, n := c.f.fmt.elems }]) rfl hi.1) hi.2

theorem idle_unpk (f : Fields) : IdleByLane (.unpk f) f (refs [{ o := f.a }] [(f.d, f.fmt.elems)]) := by
  have hx := exec_unpk f
  simp only [execUnpk, issueGroup] at hx
  refine idleByLane_of hx fun c s hc hi => ?_
  obtain rfl := hc
  have ok : RefsOk (c.g s) [useA c.f (some c.f.fmt)] [(c.f.d, c.f.fmt.elems)] := refsOk_congr (us := [{ o := c.f.a }]) rfl hi.1
  simp only [checkRefs_ok ok, hi.2, bind, Except.bind, pure, Except.pure, if_true]

theorem idle_exchange {o : (Fields → Instr) × (Nat → Nat → Nat)} (ho : o ∈ exchangeOps) (f : Fields) :
    IdleByLane (o.1 f) f (refs [useA f none, useB f none] [(f.d, 1)]) := by
  have hx := exec_exchange ho f
  simp only [exchange, issueGroup] at hx
  refine idleByLane_of hx fun c s hc hi => ?_
  obtain rfl := hc
  exact laneBody_idle (refsOk_congr (us := [useA c.f none, useB c.f none]) rfl hi.1) hi.2

/-- A reduction: one value for all lanes, or a prefix for each. -/
theorem reduceOps_shape {o : (Fields → Instr) × Bool × RedOp} (ho : o ∈ reduceOps) (f : Fields) :
    (∀ s, exec (o.1 f) s = gred (o.1 f) f o.2.2 s) ∨ ∀ s, exec (o.1 f) s = gscan (o.1 f) f o.2.2 s := by
  simp only [reduceOps, List.mem_cons, List.not_mem_nil, or_false] at ho
  rcases ho with rfl | rfl | rfl | rfl | rfl | rfl
  iterate 3 left; intro s; delta exec; dsimp only; rfl
  iterate 3 right; intro s; delta exec; dsimp only; rfl

theorem idle_reduce {o : (Fields → Instr) × Bool × RedOp} (ho : o ∈ reduceOps) (f : Fields) :
    IdleByLane (o.1 f) f (refs [{ o := f.a }] [(f.d, 1)]) := by
  rcases reduceOps_shape ho f with hx | hx
  · simp only [gred, issueGroup] at hx
    refine idleByLane_of hx fun c s hc hi => ?_
    obtain rfl := hc
    have ok : RefsOk (c.g s) [useA c.f (tagOf c.f)] [(c.f.d, 1)] := refsOk_congr (us := [{ o := c.f.a }]) rfl hi.1
    simp only [checkRefs_ok ok, hi.2, bind, Except.bind, pure, Except.pure, if_true]
  · simp only [gscan, issueGroup] at hx
    refine idleByLane_of hx fun c s hc hi => ?_
    obtain rfl := hc
    have ok : RefsOk (c.g s) [useA c.f (tagOf c.f)] [(c.f.d, 1)] := refsOk_congr (us := [{ o := c.f.a }]) rfl hi.1
    simp only [checkRefs_ok ok, hi.2, bind, Except.bind, pure, Except.pure, if_true]

/-! ### Memory words -/

theorem exec_ldv (f : Fields) (s : State) : exec (.ldv f) s = issueGroup (.ldv f) f (fun c s => laneLoad c 4 s) s := rfl
theorem exec_ldp (f : Fields) (s : State) : exec (.ldp f) s = issueGroup (.ldp f) f (fun c s => laneLoad c 8 s) s := rfl
theorem exec_ldvLate (f : Fields) (s : State) : exec (.ldvLate f) s = execLdvLate f s := rfl
theorem exec_stv (f : Fields) (s : State) : exec (.stv f) s = issueGroup (.stv f) f (fun c s => laneStore c 4 s) s := rfl
theorem exec_stp (f : Fields) (s : State) : exec (.stp f) s = issueGroup (.stp f) f (fun c s => laneStore c 8 s) s := rfl

theorem laneLoad_noEffect (f : Fields) (n : Nat) :
    NoEffect f (IdleLanes f (refs (memUses f) [(f.d, n / 4)])) fun c s => laneLoad c n s := fun c s hc hi => by
  obtain rfl := hc
  unfold laneLoad
  simp only [checkRefs_ok hi.1, hi.2, bind, Except.bind, pure, Except.pure, if_true]

theorem laneStore_noEffect (f : Fields) (n : Nat) :
    NoEffect f (IdleLanes f (refs (memUses f ++ [{ o := f.b, n := n / 4 }]) [])) fun c s => laneStore c n s := fun c s hc hi => by
  obtain rfl := hc
  have ok : RefsOk (c.g s) (memUses c.f ++ [dataUse c.f (n / 4)]) [] := refsOk_congr (by simp [dataUse]) hi.1
  unfold laneStore
  simp only [checkRefs_ok ok, hi.2, bind, Except.bind, pure, Except.pure, if_true]

theorem idle_ldvLate (f : Fields) : IdleByLane (.ldvLate f) f fun g => RefsOk g (memUses f)
    [(f.d, if (busyScals g [f.pol]).isEmpty = true ∧ polLate (policy g f) = true then 2 else 1)] := by
  have hx := exec_ldvLate f
  simp only [execLdvLate, issueGroup] at hx
  refine idleByLane_of hx fun c s hc hi => ?_
  obtain rfl := hc
  have ok := hi.1
  simp only [← Bool.and_eq_true] at ok
  simp only [checkRefs_ok ok, hi.2, bind, Except.bind, pure, Except.pure, if_true]

/-- The references of an ATOM. -/
def atomRefs (f : Fields) (o : AtomOp) : Group → Prop :=
  refs (memUses f ++ if o = .cas then [useB f none, useC f none] else [useB f none]) [(f.d, 1)]

theorem atomOps_shape {o : (Fields → Instr) × AtomOp × Nat} (ho : o ∈ atomOps) (f : Fields) (s : State) :
    exec (o.1 f) s = atom (o.1 f) f o.2.1 s := by
  simp only [atomOps, List.mem_cons, List.not_mem_nil, or_false] at ho
  rcases ho with rfl | rfl | rfl | rfl | rfl | rfl | rfl | rfl | rfl | rfl | rfl | rfl | rfl <;> (delta exec; dsimp only; rfl)

theorem idle_atom {o : (Fields → Instr) × AtomOp × Nat} (ho : o ∈ atomOps) (f : Fields) :
    (f.uni = false → IdleByLane (o.1 f) f (atomRefs f o.2.1)) ∧ (f.uni = true → IdleUnderUni (o.1 f) f (atomRefs f o.2.1)) := by
  have hx := atomOps_shape ho f
  simp only [atom, issueGroup] at hx
  have ok : ∀ (g : Group), atomRefs f o.2.1 g → RefsOk g (memUses f ++ if (o.2.1 == .cas) = true then [useB f (tagOf f), useC f (tagOf f)]
      else [useB f (tagOf f)]) [(f.d, 1)] := fun g => refsOk_congr (by by_cases h : o.2.1 = .cas <;> simp [h, useB, useC])
  refine ⟨fun e => idleByLane_of hx fun c s hc hi => ?_, fun e => idleUnderUni_of hx fun c s hc hi => ?_⟩ <;> obtain rfl := hc
  · simp only [checkRefs_ok (ok _ hi.1), hi.2, e, bind, Except.bind, pure, Except.pure, if_true, Bool.false_eq_true, if_false]
  · simp only [checkRefs_ok (ok _ hi.1), hi.2, e, bind, Except.bind, pure, Except.pure, if_true, Bool.not_false]

/-! ### All of them -/

theorem idleWords : Claim.IdleWords := by
  intro f refs_ one whole word lanes compares atomRefs_
  have idleLanes : ∀ i ∈ lanes, IdleBoth i f one := fun i hi => by
    simp only [lanes, List.mem_append, List.mem_singleton, List.mem_map] at hi
    rcases hi with ((rfl | ⟨o, ho, rfl⟩) | ⟨o, ho, rfl⟩) | ⟨o, ho, rfl⟩
    · exact idle_movi f
    · exact idle_integer ho f
    · exact idle_bits ho f
    · exact idle_floatOps ho f
  have idleCompares : ∀ i ∈ compares, IdleBoth i f (refs (usesABC f) []) := fun i hi => by
    simp only [compares, List.mem_append, List.mem_map] at hi
    rcases hi with ⟨o, ho, rfl⟩ | ⟨o, ho, rfl⟩
    · exact idle_compareOps ho f
    · exact idle_floatCompareOps ho f
  refine ⟨fun e => ⟨fun i hi => (idleLanes i hi).1 e, fun i hi => (idleCompares i hi).1 e, fun h => (idle_mov h).1 e, (idle_sel f).1 e,
      (idle_cvt f).1 e, fun o ho => (idle_atom ho f).1 e⟩, fun e => ⟨fun i hi => ?_, fun h => (idle_mov h).2 e,
      fun o ho => (idle_atom ho f).2 e⟩, idle_pack f, idle_unpk f, fun o ho => idle_exchange ho f, fun o ho => idle_reduce ho f,
    idleByLane_of (exec_ldv f) (laneLoad_noEffect f 4), idleByLane_of (exec_ldp f) (laneLoad_noEffect f 8), idle_ldvLate f,
    idleByLane_of (exec_stv f) (laneStore_noEffect f 4), idleByLane_of (exec_stp f) (laneStore_noEffect f 8)⟩
  simp only [List.mem_append, List.mem_cons, List.not_mem_nil, or_false] at hi
  rcases hi with (hi | hi) | rfl | rfl
  · exact (idleLanes i hi).2 e
  · exact (idleCompares i hi).2 e
  · exact (idle_sel f).2 e
  · exact (idle_cvt f).2 e

/-- Settles O11: NOP and NOP.skip move the PC alone, and a word with nothing active leaves the state as it finds it. -/
theorem nopsAndIdleWords : Obligations.NopsAndIdleWords := ⟨nopWords, nops, idleWords⟩

end Sys2Proof.Proofs
end

section
/-!
PROOF. Tables: what is listed and what is found, and sorting by insertion.
-/

namespace Sys2Proof.Proofs

open Sys2Proof.Machine

theorem mem_of_look {α : Type} {t : List (Nat × α)} {k : Nat} {x : α} (h : Tbl.look t k = some x) : (k, x) ∈ t := by
  induction t with
  | nil => cases h
  | cons c t ih =>
    obtain ⟨j, y⟩ := c
    by_cases hj : j = k
    · rw [Tbl.look, if_pos hj] at h
      cases hj; cases h; exact List.mem_cons_self ..
    · rw [Tbl.look, if_neg hj] at h
      exact List.mem_cons_of_mem _ (ih h)

theorem look_of_mem {α : Type} {t : List (Nat × α)} (sorted : Tbl.sorted t = true) {k : Nat} {x : α} (h : (k, x) ∈ t) :
    Tbl.look t k = some x := by
  cases found : Tbl.look t k with
  | none =>
    have absent : ∀ {u : List (Nat × α)}, Tbl.look u k = none → (k, x) ∉ u := by
      intro u
      induction u with
      | nil => simp
      | cons c u ih =>
        obtain ⟨j, y⟩ := c
        by_cases hj : j = k <;> simp only [Tbl.look, hj, if_true, if_false, List.mem_cons, Prod.mk.injEq, not_or, reduceCtorEq, IsEmpty.forall_iff]
        exact fun hu => ⟨fun e => hj e.1.symm, ih hu⟩
    exact absurd h (absent found)
  | some y => exact congrArg some (congrArg Prod.snd (eq_of_sorted sorted (mem_of_look found) h rfl))

theorem mem_iff_look {α : Type} {t : List (Nat × α)} (sorted : Tbl.sorted t = true) (c : Nat × α) :
    c ∈ t ↔ Tbl.look t c.1 = some c.2 := ⟨look_of_mem sorted, mem_of_look⟩

/-- The entries of a table changed by key and content. -/
theorem look_mapKeyed {α β : Type} (f : Nat → α → β) (t : List (Nat × α)) (k : Nat) :
    Tbl.look (t.map fun c => (c.1, f c.1 c.2)) k = (Tbl.look t k).map (f k) := by
  induction t with
  | nil => rfl
  | cons c t ih =>
    obtain ⟨j, x⟩ := c
    by_cases h : j = k
    · subst h; simp [Tbl.look]
    · simp [Tbl.look, h, ih]

theorem sorted_mapKeyed {α β : Type} (f : Nat → α → β) {t : List (Nat × α)} (h : Tbl.sorted t = true) :
    Tbl.sorted (t.map fun c => (c.1, f c.1 c.2)) = true := by
  rw [Tbl.sorted_iff] at h ⊢
  rwa [List.map_map]

theorem sorted_filter {α : Type} (p : Nat × α → Bool) {t : List (Nat × α)} (h : Tbl.sorted t = true) : Tbl.sorted (t.filter p) = true :=
  Tbl.sorted_of_sublist List.filter_sublist h

theorem look_filter {α : Type} (p : Nat × α → Bool) {t : List (Nat × α)} (h : Tbl.sorted t = true) (k : Nat) :
    Tbl.look (t.filter p) k = (Tbl.look t k).filter fun x => p (k, x) := by
  refine Option.ext fun x => ?_
  rw [← mem_iff_look (sorted_filter p h) (k, x), List.mem_filter, mem_iff_look h, Option.filter_eq_some_iff]

/-- Setting several keys to one value. -/
theorem look_foldl_set {α : Type} (v : α) (ls : List Nat) (t : List (Nat × α)) (k : Nat) :
    Tbl.look (ls.foldl (fun t l => Tbl.set t l v) t) k = if k ∈ ls then some v else Tbl.look t k := by
  induction ls generalizing t with
  | nil => simp
  | cons l ls ih =>
    rw [List.foldl_cons, ih]
    by_cases hk : k = l
    · subst hk; simp
    · simp [hk, Tbl.look_set_other]

theorem insertBy_eq (x : Nat) (l : List Nat) : insertBy (fun a b => decide (a ≤ b)) x l = l.orderedInsert (· ≤ ·) x := by
  induction l with
  | nil => rfl
  | cons y l ih => simp only [insertBy, List.orderedInsert_cons, decide_eq_true_eq, ih]

theorem sortBy_eq (l : List Nat) : sortBy (fun a b => decide (a ≤ b)) l = l.insertionSort (· ≤ ·) := by
  induction l with
  | nil => rfl
  | cons x l ih => rw [List.insertionSort_cons, ← ih, ← insertBy_eq]; rfl

/-- Distinct numbers in ascending order. -/
theorem sortBy_dedup (l : List Nat) : (sortBy (fun a b => decide (a ≤ b)) l.dedup).Pairwise (· < ·)
    ∧ ∀ x, x ∈ sortBy (fun a b => decide (a ≤ b)) l.dedup ↔ x ∈ l := by
  have perm := List.perm_insertionSort (· ≤ ·) l.dedup
  rw [sortBy_eq]
  refine ⟨?_, fun x => by rw [perm.mem_iff, List.mem_dedup]⟩
  have le := List.pairwise_insertionSort (· ≤ ·) l.dedup
  have ne : (l.dedup.insertionSort (· ≤ ·)).Nodup := perm.nodup_iff.2 (List.nodup_dedup l)
  exact (le.and ne).imp fun h => lt_of_le_of_ne h.1 h.2

end Sys2Proof.Proofs
end

section
/-!
PROOF. What a divergent branch leaves (R30): its targets in ascending order, each with a free split entry or parked.
-/

namespace Sys2Proof.Proofs

open Sys2Proof.Machine Sys2Proof.Claim

/-- The split entry of the lanes for target `p`. -/
def entryFor (lanes : Nat → List Nat) (x : Nat) (jpc : W64) (p : Nat) : Sub := ⟨mof (lanes p), BitVec.ofNat 64 p, jpc, x⟩

/-- One target placed: in the lowest free split entry, or its lanes parked (R30). -/
def placeTarget (lanes : Nat → List Nat) (x : Nat) (jpc : W64) (g : Group) (p : Nat) : Group :=
  match (List.range 8).find? fun e => (Tbl.look g.subs e).isNone with
  | some e => g.setSub e (entryFor lanes x jpc p)
  | none => { g with parked := (lanes p).foldl (fun t l => Tbl.set t l ⟨BitVec.ofNat 64 p, x⟩) g.parked }

theorem placeTarget_cases (lanes : Nat → List Nat) (x : Nat) (jpc : W64) (g : Group) (p : Nat) :
    (∃ e < 8, Tbl.look g.subs e = none ∧ (∀ d < e, (Tbl.look g.subs d).isSome = true)
      ∧ placeTarget lanes x jpc g p = g.setSub e (entryFor lanes x jpc p))
    ∨ (∀ e < 8, (Tbl.look g.subs e).isSome = true) ∧ placeTarget lanes x jpc g p =
        { g with parked := (lanes p).foldl (fun t l => Tbl.set t l ⟨BitVec.ofNat 64 p, x⟩) g.parked } := by
  cases free : (List.range 8).find? fun e => (Tbl.look g.subs e).isNone with
  | none =>
    refine .inr ⟨fun e he => ?_, by rw [placeTarget, free]⟩
    have := List.find?_eq_none.1 free e (List.mem_range.2 he)
    rwa [Option.isNone_iff_eq_none, ← ne_eq, Option.ne_none_iff_isSome] at this
  | some e =>
    obtain ⟨none_, he, below⟩ := List.find?_range_eq_some.1 free
    rw [Option.isNone_iff_eq_none] at none_
    refine .inl ⟨e, List.mem_range.1 he, none_, fun d hd => ?_, by rw [placeTarget, free]⟩
    have := below d hd
    rwa [Bool.not_eq_true', Option.isNone_eq_false_iff] at this

/-- The targets `done` have been placed in group `g`, giving `h`. -/
structure Placed (lanes : Nat → List Nat) (x : Nat) (jpc : W64) (done : List Nat) (g h : Group) : Prop where
  frame : h = { g with subs := h.subs, parked := h.parked }
  kept : ∀ k, (Tbl.look g.subs k).isSome = true → Tbl.look h.subs k = Tbl.look g.subs k
  entry : ∀ e < 8, Tbl.look g.subs e = none → ∀ y, Tbl.look h.subs e = some y → ∃ p ∈ done, y = entryFor lanes x jpc p
  target : ∀ p ∈ done, (∃ e < 8, Tbl.look g.subs e = none ∧ Tbl.look h.subs e = some (entryFor lanes x jpc p))
    ∨ (∀ l ∈ lanes p, Tbl.look h.parked l = some ⟨BitVec.ofNat 64 p, x⟩) ∧ ∀ e < 8, (Tbl.look h.subs e).isSome = true
  parked : ∀ l, (∀ p ∈ done, l ∉ lanes p) → Tbl.look h.parked l = Tbl.look g.parked l
  order : ∀ e < 8, ∀ d < e, Tbl.look g.subs e = none → Tbl.look g.subs d = none → ∀ y, Tbl.look h.subs e = some y →
    ∃ z, Tbl.look h.subs d = some z ∧ z.pc.toNat < y.pc.toNat

theorem Placed.refl (lanes : Nat → List Nat) (x : Nat) (jpc : W64) (g : Group) : Placed lanes x jpc [] g g where
  frame := rfl
  kept _ _ := rfl
  entry _ _ none_ _ some_ := by rw [none_] at some_; cases some_
  target _ h := by cases h
  parked _ _ := rfl
  order _ _ _ _ none_ _ _ some_ := by rw [none_] at some_; cases some_

/-- One more target, above those placed, whose lanes go nowhere else. -/
theorem Placed.step {lanes : Nat → List Nat} {x : Nat} {jpc : W64} {done : List Nat} {g h : Group} {p : Nat}
    (placed : Placed lanes x jpc done g h) (hp : p < 2 ^ 64) (above : ∀ q ∈ done, q < p)
    (apart : ∀ q ∈ done, ∀ l ∈ lanes q, l ∉ lanes p) : Placed lanes x jpc (done ++ [p]) g (placeTarget lanes x jpc h p) := by
  have mem : ∀ {q}, q ∈ done ++ [p] ↔ q ∈ done ∨ q = p := by simp
  rcases placeTarget_cases lanes x jpc h p with ⟨e, he, free, below, eq⟩ | ⟨full, eq⟩
  · have gfree : Tbl.look g.subs e = none := by
      by_contra some_
      rw [placed.kept e (Option.ne_none_iff_isSome.1 some_)] at free
      exact some_ free
    have subs : ∀ k, Tbl.look (h.setSub e (entryFor lanes x jpc p)).subs k =
        if k = e then some (entryFor lanes x jpc p) else Tbl.look h.subs k := fun k => by
      split
      · next hk => rw [hk]; exact Tbl.look_set_same ..
      · next hk => exact Tbl.look_set_other _ _ hk
    rw [eq]
    refine ⟨?_, fun k hk => ?_, fun k hk none_ y hy => ?_, fun q hq => ?_, fun l hl => ?_, fun k hk d hd kfree dfree y hy => ?_⟩
    · exact congrArg (fun z : Group => z.setSub e (entryFor lanes x jpc p)) placed.frame
    · have : k ≠ e := by rintro rfl; rw [gfree] at hk; cases hk
      rw [subs, if_neg this, placed.kept k hk]
    · rw [subs] at hy
      split at hy
      · exact ⟨p, mem.2 (.inr rfl), (Option.some.inj hy).symm⟩
      · obtain ⟨q, hq, rfl⟩ := placed.entry k hk none_ y hy
        exact ⟨q, mem.2 (.inl hq), rfl⟩
    · rcases mem.1 hq with hq | rfl
      · rcases placed.target q hq with ⟨k, hk, kfree, here⟩ | ⟨parked, full⟩
        · have : k ≠ e := by rintro rfl; rw [free] at here; cases here
          exact .inl ⟨k, hk, kfree, by rw [subs, if_neg this, here]⟩
        · have := full e he
          rw [free] at this; cases this
      · exact .inl ⟨e, he, gfree, by rw [subs, if_pos rfl]⟩
    · exact placed.parked l fun q hq => hl q (mem.2 (.inl hq))
    · rw [subs] at hy
      have dne : k = e → d ≠ e := fun hk' hd' => by omega
      split at hy
      · next hk' =>
        subst hk'
        obtain ⟨z, hz⟩ := Option.isSome_iff_exists.1 (below d hd)
        obtain ⟨q, hq, rfl⟩ := placed.entry d (by omega) dfree z hz
        refine ⟨_, by rw [subs, if_neg (dne rfl), hz], ?_⟩
        cases hy
        have := above q hq
        simp only [entryFor, BitVec.toNat_ofNat]
        omega
      · obtain ⟨z, hz, lt⟩ := placed.order k hk d hd kfree dfree y hy
        have : d ≠ e := by rintro rfl; rw [free] at hz; cases hz
        exact ⟨z, by rw [subs, if_neg this, hz], lt⟩
  · rw [eq]
    have look : ∀ l, Tbl.look ((lanes p).foldl (fun t l => Tbl.set t l ⟨BitVec.ofNat 64 p, x⟩) h.parked) l =
        if l ∈ lanes p then some ⟨BitVec.ofNat 64 p, x⟩ else Tbl.look h.parked l := look_foldl_set _ _ _
    refine ⟨?_, placed.kept, fun k hk none_ y hy => ?_, fun q hq => ?_, fun l hl => ?_, placed.order⟩
    · conv_lhs => rw [placed.frame]
    · obtain ⟨q, hq, rfl⟩ := placed.entry k hk none_ y hy
      exact ⟨q, mem.2 (.inl hq), rfl⟩
    · rcases mem.1 hq with hq | rfl
      · rcases placed.target q hq with here | ⟨parked, full⟩
        · exact .inl here
        · exact .inr ⟨fun l hl => by rw [look, if_neg (apart q hq l hl), parked l hl], full⟩
      · exact .inr ⟨fun l hl => by rw [look, if_pos hl], full⟩
    · rw [look, if_neg (hl p (mem.2 (.inr rfl))), placed.parked l fun q hq => hl q (mem.2 (.inl hq))]

theorem Placed.foldl {lanes : Nat → List Nat} {x : Nat} {jpc : W64} {g : Group} (apart : ∀ p q, p ≠ q → ∀ l ∈ lanes p, l ∉ lanes q)
    (ps : List Nat) (bound : ∀ p ∈ ps, p < 2 ^ 64) (rising : ps.Pairwise (· < ·)) : ∀ (done : List Nat) (h : Group),
    Placed lanes x jpc done g h → (∀ q ∈ done, ∀ p ∈ ps, q < p) →
    Placed lanes x jpc (done ++ ps) g (ps.foldl (placeTarget lanes x jpc) h) := by
  induction ps with
  | nil => intro done h placed _; rwa [List.append_nil]
  | cons p ps ih =>
    intro done h placed above
    obtain ⟨first, rest⟩ := List.pairwise_cons.1 rising
    have here : ∀ q ∈ done, q < p := fun q hq => above q hq p (List.mem_cons_self ..)
    rw [List.foldl_cons, List.append_cons]
    refine ih (fun q hq => bound q (List.mem_cons_of_mem _ hq)) rest _ _
      (placed.step (bound p (List.mem_cons_self ..)) here fun q hq => apart q p (Nat.ne_of_lt (here q hq))) fun q hq r hr => ?_
    rcases List.mem_append.1 hq with hq | hq
    · exact above q hq r (List.mem_cons_of_mem _ hr)
    · rw [List.mem_singleton.1 hq]; exact first r hr

/-- The lanes of a list that go to `p`. -/
def lanesTo (ls : List Nat) (next : Nat → W64) (p : Nat) : List Nat := ls.filter fun l => (next l).toNat == p

theorem mem_lanesTo {ls : List Nat} {next : Nat → W64} {p l : Nat} : l ∈ lanesTo ls next p ↔ l ∈ ls ∧ (next l).toNat = p := by
  simp [lanesTo]

/-- The targets of a divergent branch, ascending. -/
def targets (ls : List Nat) (next : Nat → W64) : List Nat := sortBy (fun a b => decide (a ≤ b)) (ls.map fun l => (next l).toNat).dedup

theorem targets_rising (ls : List Nat) (next : Nat → W64) : (targets ls next).Pairwise (· < ·) := (sortBy_dedup _).1

theorem mem_targets {ls : List Nat} {next : Nat → W64} {p : Nat} : p ∈ targets ls next ↔ ∃ l ∈ ls, (next l).toNat = p := by
  rw [targets, (sortBy_dedup _).2, List.mem_map]

/-- The group whose sub-group `x` keeps the lanes for `low`. -/
def keepLow (g : Group) (x : Nat) (ls : List Nat) (low : Nat) : Group :=
  g.setSub x { g.sub x with mask := mof ls, pc := BitVec.ofNat 64 low }

theorem diverge_eq (g : Group) (x : Nat) (ls : List Nat) (next : Nat → W64) (jpc : W64) :
    g.diverge x (ls.map fun l => (l, next l)) jpc = match targets ls next with
      | [] => g
      | [p] => g.subPc x (BitVec.ofNat 64 p)
      | low :: ps => ps.foldl (placeTarget (lanesTo ls next) x jpc) (keepLow g x (lanesTo ls next low) low) := by
  have pcs : (ls.map fun l => (l, next l)).map (fun c => c.2.toNat) = ls.map fun l => (next l).toNat := by
    rw [List.map_map]; rfl
  have here : ∀ p, ((ls.map fun l => (l, next l)).filter fun c => c.2.toNat == p).map (·.1) = lanesTo ls next p := fun p => by
    rw [List.filter_map, List.map_map]; exact List.map_id _
  rw [Group.diverge]
  simp only [pcs, here, targets]
  rfl

theorem look_of_lane {g : Group} {x l : Nat} (h : mhas (g.sub x).mask l = true) : (Tbl.look g.subs x).isSome = true := by
  by_contra none_
  rw [Bool.not_eq_true, Option.isSome_eq_false_iff, Option.isNone_iff_eq_none] at none_
  rw [Group.sub, Tbl.get, none_] at h
  simp [mhas] at h

theorem sub_of_look {g : Group} {x : Nat} {y : Sub} (h : Tbl.look g.subs x = some y) : g.sub x = y := by
  rw [Group.sub, Tbl.get, h]; rfl

theorem sub_of_none {g : Group} {x : Nat} (h : Tbl.look g.subs x = none) : g.sub x = {} := by
  rw [Group.sub, Tbl.get, h]; rfl

theorem sub_congr {g h : Group} {x : Nat} (e : Tbl.look h.subs x = Tbl.look g.subs x) : h.sub x = g.sub x := by
  rw [Group.sub, Tbl.get, e]; rfl

@[simp] theorem sub_setSub_same (g : Group) (x : Nat) (y : Sub) : (g.setSub x y).sub x = y := Tbl.get_set_same ..

theorem look_setSub_other (g : Group) {x k : Nat} (y : Sub) (h : k ≠ x) : Tbl.look (g.setSub x y).subs k = Tbl.look g.subs k :=
  Tbl.look_set_other _ _ h

theorem lane_default (l : Nat) : ¬ mhas ({} : Sub).mask l = true := by simp [mhas]

/-- All lanes go to one PC: the sub-group moves there as it is. -/
theorem diverged_one {g h : Group} {x : Nat} {next : Nat → W64} {pc jpc : W64} (one : ∀ l ∈ mlanes (g.sub x).mask, next l = pc)
    (hh : h = g ∧ mlanes (g.sub x).mask = [] ∨ h = g.subPc x pc ∧ (Tbl.look g.subs x).isSome = true) :
    Diverged g h x (mlanes (g.sub x).mask) next jpc := by
  have other : ∀ k, k ≠ x → Tbl.look h.subs k = Tbl.look g.subs k := fun k hk => by
    rcases hh with ⟨rfl, -⟩ | ⟨rfl, -⟩
    · rfl
    · exact look_setSub_other _ _ hk
  have same : (h.sub x).mask = (g.sub x).mask ∧ (h.sub x).jpc = (g.sub x).jpc ∧ (h.sub x).parent = (g.sub x).parent := by
    rcases hh with ⟨rfl, -⟩ | ⟨rfl, -⟩
    · exact ⟨rfl, rfl, rfl⟩
    · rw [Group.subPc, sub_setSub_same]; exact ⟨rfl, rfl, rfl⟩
  have low : ∀ l ∈ mlanes (g.sub x).mask, ∀ m ∈ mlanes (g.sub x).mask, (next l).toNat ≤ (next m).toNat := fun l hl m hm => by
    rw [one l hl, one m hm]
  have free : ∀ e, Tbl.look g.subs e = none → Tbl.look h.subs e = none := fun e none_ => by
    rcases hh with ⟨rfl, -⟩ | ⟨rfl, some_⟩
    · exact none_
    · have : e ≠ x := by rintro rfl; rw [none_] at some_; cases some_
      rw [other e this, none_]
  refine ⟨?_, same.2.1, same.2.2, fun l hl _ => ⟨?_, ?_⟩, fun l hl hn => absurd (low l hl) hn, fun l hlt hl => ?_,
    fun e _ none_ l _ hl => ?_, fun e _ d _ none_ _ some_ => ?_, fun k hk _ => other k hk, fun l _ => ?_⟩
  · rcases hh with ⟨rfl, -⟩ | ⟨rfl, -⟩ <;> rfl
  · rw [same.1]; exact ((mem_mlanes _ _).1 hl).2
  · rcases hh with ⟨rfl, none_⟩ | ⟨rfl, -⟩
    · rw [none_] at hl; cases hl
    · rw [Group.subPc, sub_setSub_same, one l hl]
  · rw [same.1] at hl
    have := (mem_mlanes _ _).2 ⟨hlt, hl⟩
    exact ⟨this, low l this⟩
  · rw [sub_of_none (free e none_)] at hl
    exact absurd hl (lane_default l)
  · rw [free e none_] at some_; cases some_
  · rcases hh with ⟨rfl, -⟩ | ⟨rfl, -⟩ <;> rfl

/-- Several targets: the lanes for the lowest stay, the others are placed (R30). -/
theorem diverged_several {g h : Group} {x low : Nat} {ps : List Nat} {next : Nat → W64} {jpc : W64}
    (split : targets (mlanes (g.sub x).mask) next = low :: ps) (live : (Tbl.look g.subs x).isSome = true)
    (placed : Placed (lanesTo (mlanes (g.sub x).mask) next) x jpc ps (keepLow g x (lanesTo (mlanes (g.sub x).mask) next low) low) h) :
    Diverged g h x (mlanes (g.sub x).mask) next jpc := by
  set ls := mlanes (g.sub x).mask with hls
  set k0 := keepLow g x (lanesTo ls next low) low
  obtain ⟨above, -⟩ := List.pairwise_cons.1 (split ▸ targets_rising ls next)
  have mem : ∀ {p}, p ∈ low :: ps ↔ ∃ l ∈ ls, (next l).toNat = p := fun {p} => by rw [← split]; exact mem_targets
  have least : ∀ {l}, l ∈ ls → (next l).toNat = low ∨ (next l).toNat ∈ ps ∧ low < (next l).toNat := fun {l} hl => by
    rcases List.mem_cons.1 (mem.2 ⟨l, hl, rfl⟩) with e | e
    · exact .inl e
    · exact .inr ⟨e, above _ e⟩
  have isLow : ∀ {l}, l ∈ ls → ((next l).toNat = low ↔ ∀ m ∈ ls, (next l).toNat ≤ (next m).toNat) := fun {l} hl => by
    refine ⟨fun e m hm => ?_, fun all => ?_⟩
    · rcases least hm with h | ⟨-, h⟩ <;> omega
    · obtain ⟨m, hm, em⟩ := mem.1 (List.mem_cons_self ..)
      have := all m hm
      rcases least hl with h | ⟨-, h⟩ <;> omega
  have pcOf : ∀ {l p}, (next l).toNat = p → BitVec.ofNat 64 p = next l := fun {l p} e => by rw [← e, BitVec.ofNat_toNat, BitVec.setWidth_eq]
  have has : ∀ {l p}, l < 256 → (mhas (mof (lanesTo ls next p)) l = true ↔ l ∈ ls ∧ (next l).toNat = p) := fun {l p} hl => by
    rw [mhas_mof, ← mem_lanesTo]; simp [hl]
  have inls : ∀ {l}, l ∈ ls → l < 256 := fun {l} hl => ((mem_mlanes _ _).1 hl).1
  have self : Tbl.look h.subs x = some { g.sub x with mask := mof (lanesTo ls next low), pc := BitVec.ofNat 64 low } := by
    have := Tbl.look_set_same g.subs x { g.sub x with mask := mof (lanesTo ls next low), pc := BitVec.ofNat 64 low }
    rw [placed.kept x (this ▸ rfl)]; exact this
  have ne : ∀ {e}, Tbl.look g.subs e = none → e ≠ x := fun {e} none_ hx => by rw [← hx, none_] at live; cases live
  have free : ∀ {e}, e ≠ x → Tbl.look k0.subs e = Tbl.look g.subs e := fun {e} he => look_setSub_other _ _ he
  have entry : ∀ {e}, e < 8 → Tbl.look g.subs e = none → ∀ y, Tbl.look h.subs e = some y →
      ∃ p ∈ ps, y = entryFor (lanesTo ls next) x jpc p := fun he none_ => placed.entry _ he ((free (ne none_)).trans none_)
  refine ⟨?_, ?_, ?_, fun l hl hlow => ?_, fun l hl hn => ?_, fun l hlt hl => ?_, fun e he none_ l hlt hl => ?_,
    fun e he d hd enone dnone some_ => ?_, fun k hk some_ => ?_, fun l hl => placed.parked l fun p _ hp => hl (mem_lanesTo.1 hp).1⟩
  · exact placed.frame
  · rw [sub_of_look self]
  · rw [sub_of_look self]
  · rw [sub_of_look self]
    have e := (isLow hl).2 hlow
    exact ⟨(has (inls hl)).2 ⟨hl, e⟩, pcOf e⟩
  · rcases least hl with e | ⟨e, -⟩
    · exact absurd ((isLow hl).1 e) hn
    · rcases placed.target _ e with ⟨k, hk, kfree, here⟩ | ⟨parked, full⟩
      · have : k ≠ x := by
          rintro rfl
          have := Tbl.look_set_same g.subs k { g.sub k with mask := mof (lanesTo ls next low), pc := BitVec.ofNat 64 low }
          exact absurd (kfree.symm.trans this) (by simp)
        refine .inl ⟨k, hk, (free this).symm.trans kfree, ?_⟩
        rw [sub_of_look here]
        exact ⟨(has (inls hl)).2 ⟨hl, rfl⟩, pcOf rfl, rfl, rfl⟩
      · exact .inr ⟨by rw [parked l (mem_lanesTo.2 ⟨hl, rfl⟩), pcOf rfl], full⟩
  · rw [sub_of_look self] at hl
    obtain ⟨hl, e⟩ := (has hlt).1 hl
    exact ⟨hl, (isLow hl).1 e⟩
  · cases found : Tbl.look h.subs e with
    | none => rw [sub_of_none found] at hl; exact absurd hl (lane_default l)
    | some y =>
      obtain ⟨p, -, rfl⟩ := entry he none_ y found
      rw [sub_of_look found] at hl ⊢
      obtain ⟨hl, e⟩ := (has hlt).1 hl
      exact ⟨hl, (pcOf e).symm⟩
  · obtain ⟨y, hy⟩ := Option.isSome_iff_exists.1 some_
    obtain ⟨z, hz, lt⟩ := placed.order e he d hd ((free (ne enone)).trans enone) ((free (ne dnone)).trans dnone) y hy
    rw [sub_of_look hy, sub_of_look hz, hz]
    exact ⟨rfl, lt⟩
  · rw [placed.kept k (by rw [free hk]; exact some_), free hk]

/-- A divergent branch leaves its lanes as R30 says. -/
theorem diverged (g : Group) (x : Nat) (next : Nat → W64) (jpc : W64) :
    Diverged g (g.diverge x ((mlanes (g.sub x).mask).map fun l => (l, next l)) jpc) x (mlanes (g.sub x).mask) next jpc := by
  rw [diverge_eq]
  have live : ∀ {p}, p ∈ targets (mlanes (g.sub x).mask) next → (Tbl.look g.subs x).isSome = true := fun hp => by
    obtain ⟨l, hl, -⟩ := mem_targets.1 hp
    exact look_of_lane ((mem_mlanes _ _).1 hl).2
  have rising := targets_rising (mlanes (g.sub x).mask) next
  cases split : targets (mlanes (g.sub x).mask) next with
  | nil =>
    have none_ : mlanes (g.sub x).mask = [] := List.eq_nil_iff_forall_not_mem.2 fun l hl => by
      have := (mem_targets (next := next)).2 ⟨l, hl, rfl⟩
      rw [split] at this; cases this
    exact diverged_one (pc := 0) (by rw [none_]; simp) (.inl ⟨rfl, none_⟩)
  | cons low ps =>
    have isLive := live (split ▸ List.mem_cons_self ..)
    cases ps with
    | nil =>
      refine diverged_one (fun l hl => ?_) (.inr ⟨rfl, isLive⟩)
      have := (mem_targets (next := next)).2 ⟨l, hl, rfl⟩
      rw [split, List.mem_singleton] at this
      rw [← this, BitVec.ofNat_toNat, BitVec.setWidth_eq]
    | cons p ps =>
      refine diverged_several split isLive (Placed.foldl (fun p q hpq l hp hq => ?_) _ (fun q hq => ?_) ?_ [] _ (Placed.refl ..) (by simp))
      · exact hpq ((mem_lanesTo.1 hp).2.symm.trans (mem_lanesTo.1 hq).2)
      · obtain ⟨l, -, rfl⟩ := mem_targets.1 (split ▸ List.mem_cons_of_mem _ hq)
        exact (next l).isLt
      · exact (List.pairwise_cons.1 (split ▸ rising)).2

end Sys2Proof.Proofs
end

section
/-!
PROOF. Branches by lane (R30, R342, R426).
-/

namespace Sys2Proof.Proofs

open Sys2Proof.Machine Sys2Proof.Claim

/-- A hold latch of one rod written: no register shows it. -/
theorem latchesAside_setLatch (s : State) (n rod : Nat) (es : List LatchE) : LatchesAside s (s.setCore n ((s.core n).setLatch rod es)) := by
  refine ⟨rfl, fun k => ?_⟩
  by_cases h : k = n
  · subst h; rw [State.core_setCore_same]; rfl
  · rw [State.core_setCore_other _ _ h]

theorem latchesAside_endTurn {s t : State} (h : LatchesAside s t) : LatchesAside (endTurn s) (endTurn t) := by
  obtain ⟨shape, cores⟩ := h
  exact ⟨by rw [shape]; rfl, cores⟩

/-- A word that traps with the state as it was takes the exception there; its latch entries lapse unless it has not issued. -/
theorem traps_of {i : Instr} {f : Fields} {s : State} {gid sub : Nat} {j : Bool} {x : Trap}
    (run : exec i s = .next (settleGroup (ctx i f s gid sub) j s (.error (.trap x)))) : Traps i f s gid sub s x := by
  refine ⟨_, run, ?_⟩
  rw [settleGroup_trap, trapAt, trapIssue]
  refine latchesAside_endTurn ?_
  split
  · exact LatchesAside.refl _
  · exact latchesAside_setLatch ..

theorem exec_bra (f : Fields) (s : State) : exec (.bra f) s = execBra f s := rfl
theorem exec_brx (f : Fields) (s : State) : exec (.brx f) s = execBrx f s := rfl
theorem exec_ret (f : Fields) (s : State) : exec (.ret f) s = execRet f s := rfl

/-- The turn and the masks of a group whose registers alone have changed. -/
theorem winOnly_group {s s1 : State} {gid : Nat} (h : WinOnly s s1 gid) : (s1.group gid).subs = (s.group gid).subs
    ∧ (s1.group gid).p = (s.group gid).p ∧ (s1.group gid).wskipNow = (s.group gid).wskipNow ∧ (s1.group gid).sleep = (s.group gid).sleep := by
  obtain ⟨-, -, -, -, same⟩ := h
  rw [Group.Same] at same
  refine ⟨?_, ?_, ?_, ?_⟩ <;> rw [same]

theorem activeReal_congr {g h : Group} (hs : h.subs = g.subs) (hp : h.p = g.p) (x : Nat) (f : Fields) :
    h.activeReal x f = g.activeReal x f := by
  simp only [Group.activeReal, Group.pred, Group.sub, hs, hp]

/-- A meaning that ends in a divergent branch, after the settling of its sources or without any. -/
theorem splits_of {i : Instr} {f : Fields} {s s1 u : State} {gid sub : Nat} {t : Nat → W64} {join : W64} (hw : WinOnly s s1 gid)
    (hu : LatchesAside s1 u) (run : exec i s = .next (settleGroup (ctx i f s gid sub) true s (.ok (u.setGroup gid
      ((s1.group gid).diverge sub (lanePcs (ctx i f s gid sub) (s1.group gid) t) join))))) :
    ∃ v h, exec i s = .next v ∧ TurnOf s1 v gid (turnOver h sub)
      ∧ Diverged (s1.group gid) h sub (mlanes ((s.group gid).sub sub).mask)
          (fun l => if mhas ((s.group gid).activeReal sub f) l then t l else nextPc f s gid sub) join := by
  obtain ⟨subs, preds, skip, sleep⟩ := winOnly_group hw
  have masks : (s1.group gid).sub sub = (s.group gid).sub sub := by rw [Group.sub, Group.sub, subs]
  have split := diverged (s1.group gid) sub
    (fun l => if mhas ((s.group gid).activeReal sub f) l then t l else nextPc f s gid sub) join
  have pcs : lanePcs (ctx i f s gid sub) (s1.group gid) t = (mlanes ((s1.group gid).sub sub).mask).map
      fun l => (l, if mhas ((s.group gid).activeReal sub f) l then t l else nextPc f s gid sub) := by
    rw [lanePcs, activeReal_congr subs preds]; rfl
  rw [pcs] at run
  rw [← masks]
  obtain ⟨frame, -⟩ := id split
  exact ⟨_, _, run, settle_turnOf (c := ctx i f s gid sub) true hu (by rw [frame, skip]) (by rw [frame, sleep]), split⟩

/-- The join PC of a branch: a count of words (R340). -/
theorem join_eq {n : Nat} (pc : W64) (j : BitVec n) : (if j = 0 then 0 else pc + (j.signExtend 64 <<< 2) : W64) =
    if j.toInt = 0 then 0 else pc + BitVec.ofInt 64 (4 * j.toInt) := by
  have zero : j = 0 ↔ j.toInt = 0 := ⟨fun e => by rw [e]; simp, fun e => BitVec.eq_of_toInt_eq (by rw [e]; simp)⟩
  have scale : j.signExtend 64 <<< 2 = BitVec.ofInt 64 (4 * j.toInt) := by
    rw [BitVec.shiftLeft_eq_mul_twoPow, mul_comm (4 : Int), BitVec.ofInt_mul]
    rfl
  simp only [zero, scale]

theorem low2_eq_zero (t : W64) : (t.extractLsb' 0 2 != 0) = false ↔ t.toNat % 4 = 0 := by
  rw [bne_eq_false_iff_eq]
  refine ⟨fun h => ?_, fun h => BitVec.eq_of_toNat_eq ?_⟩
  · have := congrArg BitVec.toNat h
    simpa using this
  · simpa using h

theorem guardPcs_ok {act : Mask} {t : Nat → W64} (h : ∀ l ∈ mlanes act, (t l).toNat % 4 = 0) : guardPcs act t = .ok () := by
  have : (mlanes act).find? (fun l => (t l).extractLsb' 0 2 != 0) = none := List.find?_eq_none.2 fun l hl => by
    rw [(low2_eq_zero _).2 (h l hl)]; simp
  rw [guardPcs, this]

theorem guardPcs_trap {act : Mask} {t : Nat → W64} {l : Nat} (hl : l ∈ mlanes act) (bad : (t l).toNat % 4 ≠ 0)
    (first : ∀ m ∈ mlanes act, m < l → (t m).toNat % 4 = 0) :
    guardPcs act t = .error (.trap { cause := 0x05, tval := t l }) := by
  obtain ⟨hlt, has⟩ := (mem_mlanes _ _).1 hl
  have : (mlanes act).find? (fun l => (t l).extractLsb' 0 2 != 0) = some l := by
    rw [mlanes, List.find?_filter, List.find?_range_eq_some]
    refine ⟨?_, List.mem_range.2 hlt, fun m hm => ?_⟩
    · have : ((t l).extractLsb' 0 2 != 0) = true := by rw [← Bool.not_eq_false]; exact mt (low2_eq_zero _).1 bad
      simp only [this, and_true, decide_eq_true_eq]; exact has
    · by_cases hm' : act.getLsbD m = true
      · rw [(low2_eq_zero _).2 (first m ((mem_mlanes _ _).2 ⟨by omega, hm'⟩) hm)]; simp
      · simp [hm']
  rw [guardPcs, this]; rfl

/-- The end of a branch by lane: its targets are checked, and the lanes part. `u` is the state after the settling of sources. -/
def branchTo (c : Ctx) (act : Mask) (u : State) (t : Nat → W64) (join : W64) : Except Stop State := do
  guardPcs act t
  return u.setGroup c.gid ((c.g u).diverge c.sub (lanePcs c (c.g u) t) join)

/-- A word that checks its targets and then splits (R342, R426). -/
theorem aligned_of {i : Instr} {f : Fields} {s s1 u : State} {gid sub : Nat} {t : Nat → W64} {join : W64} (hw : WinOnly s s1 gid)
    (hu : LatchesAside s1 u) (hg : u.group gid = s1.group gid) (run : exec i s = .next (settleGroup (ctx i f s gid sub) true s
      (branchTo (ctx i f s gid sub) ((s.group gid).activeReal sub f) u t join))) :
    let act := (s.group gid).activeReal sub f
    ((∀ l ∈ mlanes act, (t l).toNat % 4 = 0) → ∃ v h, exec i s = .next v ∧ TurnOf s1 v gid (turnOver h sub)
      ∧ Diverged (s1.group gid) h sub (mlanes ((s.group gid).sub sub).mask)
          (fun l => if mhas act l then t l else nextPc f s gid sub) join)
    ∧ ∀ l ∈ mlanes act, (t l).toNat % 4 ≠ 0 → (∀ m ∈ mlanes act, m < l → (t m).toNat % 4 = 0) →
        Traps i f s gid sub s { cause := 0x05, tval := t l } := by
  intro act
  refine ⟨fun ok => splits_of hw hu ?_, fun l hl bad first => traps_of (j := true) ?_⟩
  · rw [run, branchTo, guardPcs_ok ok, ← hg]; rfl
  · rw [run, branchTo, guardPcs_trap hl bad first]; rfl

theorem ctx_g (i : Instr) (f : Fields) (s u : State) (gid sub : Nat) : (ctx i f s gid sub).g u = u.group gid := rfl

/-- The target of BRX in a lane (R342). -/
def brxTarget (g : Group) (f : Fields) (l : Nat) : W64 := (match f.b with | .s n => g.scal n.val | _ => 0) + brxOffset g f l

theorem brx_run {f : Fields} {s : State} {gid sub : Nat} (hI : Issuing s gid sub) (uni : f.uni = false)
    (hR : RefsOk (s.group gid) [useA f none] []) {u : State}
    (hs : if (s.group gid).activeReal sub f = 0 then u = holdLatch s (ctx (.brx f) f s gid sub)
      else Readable (ctx (.brx f) f s gid sub) [useA f none, useB f none] s u) :
    exec (.brx f) s = .next (settleGroup (ctx (.brx f) f s gid sub) true s (branchTo (ctx (.brx f) f s gid sub)
      ((s.group gid).activeReal sub f) u (brxTarget (u.group gid) f) (joinBrx (ctx (.brx f) f s gid sub)))) := by
  rw [exec_brx, execBrx, issueBoth_group hI]
  simp only [uni, Bool.false_eq_true, if_false, ctx_g_holdLatch, ctx_g, checkRefs_ok hR]
  split at hs
  · next idle => subst hs; simp only [idle, if_true]; rfl
  · next busy => rw [Readable] at hs; simp only [busy, if_false, hs]; rfl

theorem ret_run {f : Fields} {s : State} {gid sub : Nat} {n : Fin 64} (hI : Issuing s gid sub) (ha : f.a = .v n)
    (hR : RefsOk (s.group gid) [{ o := f.a, n := 2, bt := f.btA }] []) {u : State}
    (hs : if (s.group gid).activeReal sub f = 0 then u = holdLatch s (ctx (.ret f) f s gid sub)
      else Readable (ctx (.ret f) f s gid sub) [{ o := f.a, n := 2, bt := f.btA }] s u) :
    exec (.ret f) s = .next (settleGroup (ctx (.ret f) f s gid sub) true s (branchTo (ctx (.ret f) f s gid sub)
      ((s.group gid).activeReal sub f) u (fun l => (u.group gid).lane (n.val + 1) l ++ (u.group gid).lane n.val l) 0)) := by
  rw [ha] at hR
  rw [exec_ret, execRet, issueBoth_group hI]
  simp only [ha, ctx_g_holdLatch, ctx_g, checkRefs_ok hR] at hs ⊢
  split at hs
  · next idle => subst hs; simp only [idle, if_true]; rfl
  · next busy => rw [Readable] at hs; simp only [busy, if_false, hs]; rfl

theorem brxTarget_eq {g : Group} {f : Fields} {base : W64} {offset : Nat → W64}
    (hb : f.b = .zero ∧ base = 0 ∨ ∃ n, f.b = .s n ∧ base = g.scal n.val)
    (ho : (∃ n, f.a = .v n ∧ ∀ l, offset l = (g.lane n.val l).zeroExtend 64) ∨ (∃ n, f.a = .s n ∧ ∀ l, offset l = g.scal n.val)
      ∨ f.a = .imm ∧ ∀ l, offset l = f.imm.zeroExtend 64) : brxTarget g f = fun l => base + offset l := by
  funext l
  have low : (match f.b with | .s n => g.scal n.val | _ => 0) = base := by
    rcases hb with ⟨e, rfl⟩ | ⟨n, e, rfl⟩ <;> rw [e]
  have off : brxOffset g f l = offset l := by
    rcases ho with ⟨n, e, h⟩ | ⟨n, e, h⟩ | ⟨e, h⟩ <;> rw [brxOffset, e, h]
  rw [brxTarget, low, off]

/-- Without an active lane every lane goes to the next word, whatever the targets would be. -/
theorem splits_idle {i : Instr} {f : Fields} {s : State} {gid sub : Nat} {t : Nat → W64} {join : W64}
    (idle : (s.group gid).activeReal sub f = 0) (run : exec i s = .next (settleGroup (ctx i f s gid sub) true s
      (branchTo (ctx i f s gid sub) ((s.group gid).activeReal sub f) (holdLatch s (ctx i f s gid sub)) t join))) :
    ∃ v h, exec i s = .next v ∧ TurnOf s v gid (turnOver h sub)
      ∧ Diverged (s.group gid) h sub (mlanes ((s.group gid).sub sub).mask)
          (fun l => if mhas ((s.group gid).activeReal sub f) l then 0 else nextPc f s gid sub) join := by
  obtain ⟨splits, -⟩ := aligned_of (WinOnly.refl s gid) (latchesAside_holdLatch s (ctx i f s gid sub)) rfl run
  have none_ : ∀ l, mhas ((s.group gid).activeReal sub f) l = false := fun l => by simp [idle, mhas]
  simp only [none_] at splits ⊢
  exact splits fun l hl => by rw [mlanes_eq_nil.2 idle] at hl; cases hl

theorem divergentBranches : Claim.DivergentBranches := by
  intro f s s1 gid sub hI uni g act ls pc splits aligned joined
  have joinBrx_eq : joinBrx (ctx (.brx f) f s gid sub) = joined (f.x ++ f.c.code : BitVec 10).toInt := join_eq ..
  refine ⟨?_, ?_, fun some_ hR hs base offset hb ho => ?_, fun n ha some_ hR hs => ?_⟩
  · rintro rfl
    refine splits_of (WinOnly.refl s1 gid) (latchesAside_holdLatch s1 (ctx (.bra f) f s1 gid sub)) ?_
    rw [exec_bra, execBra, issueBoth_group hI]
    simp only [uni, Bool.false_eq_true, if_false, ctx_g_holdLatch, ctx_g]
    rw [show joined _ = joinBra (ctx (.bra f) f s1 gid sub) from (join_eq ..).symm]
  · rintro rfl idle
    refine ⟨fun hR => ?_, fun n ha hR => ?_⟩
    · rw [← joinBrx_eq]
      exact splits_idle idle (brx_run hI uni hR ((if_pos idle).mpr rfl))
    · exact splits_idle idle (ret_run hI ha hR ((if_pos idle).mpr rfl))
  · have run := brx_run hI uni hR ((if_neg some_).mpr hs)
    rw [brxTarget_eq hb ho, joinBrx_eq] at run
    exact aligned_of (readable_frame hs) (LatchesAside.refl _) rfl run
  · exact aligned_of (readable_frame hs) (LatchesAside.refl _) rfl (ret_run hI ha hR ((if_neg some_).mpr hs))

end Sys2Proof.Proofs
end

section
/-!
PROOF. The start of a turn (R32): entries at their parent's PC are folded into it, and parked lanes at their owner's rejoin it.
-/

namespace Sys2Proof.Proofs

open Sys2Proof.Machine Sys2Proof.Claim

/-! ### Children and parked lanes that pass to another sub-group -/

/-- An entry `e` after the children of `k` have passed to `x`. -/
def reparent (k x e : Nat) (y : Sub) : Sub := if e ≠ 15 ∧ y.parent = k then { y with parent := x } else y

/-- A parked lane after those of `k` have passed to `x`. -/
def reown (k x : Nat) (p : Park) : Park := if p.owner = k then { p with owner := x } else p

theorem inherit_eq (g : Group) (k x : Nat) : g.inherit k x =
    { g with subs := g.subs.map fun c => (c.1, reparent k x c.1 c.2), parked := g.parked.map fun c => (c.1, reown k x c.2) } := by
  have entries : ∀ c : Nat × Sub, (if c.1 != 15 && c.2.parent == k then (c.1, { c.2 with parent := x }) else c) =
      (c.1, reparent k x c.1 c.2) := fun c => by
    simp only [reparent, Bool.and_eq_true, bne_iff_ne, beq_iff_eq]; split <;> rfl
  have lanes : ∀ c : Nat × Park, (if c.2.owner == k then (c.1, { c.2 with owner := x }) else c) = (c.1, reown k x c.2) := fun c => by
    simp only [reown, beq_iff_eq]; split <;> rfl
  simp only [Group.inherit, ← entries, ← lanes]

theorem look_inherit (g : Group) (k x e : Nat) : Tbl.look (g.inherit k x).subs e = (Tbl.look g.subs e).map (reparent k x e) := by
  rw [inherit_eq]; exact look_mapKeyed (reparent k x) g.subs e

theorem look_inherit_parked (g : Group) (k x l : Nat) : Tbl.look (g.inherit k x).parked l = (Tbl.look g.parked l).map (reown k x) := by
  rw [inherit_eq]; exact look_map (reown k x) g.parked l

theorem sorted_inherit {g : Group} (k x : Nat) (hs : Tbl.sorted g.subs = true) (hp : Tbl.sorted g.parked = true) :
    Tbl.sorted (g.inherit k x).subs = true ∧ Tbl.sorted (g.inherit k x).parked = true := by
  rw [inherit_eq]; exact ⟨sorted_mapKeyed (reparent k x) hs, sorted_mapKeyed (fun _ => reown k x) hp⟩

theorem reparent_rest (k x e : Nat) (y : Sub) : (reparent k x e y).mask = y.mask ∧ (reparent k x e y).pc = y.pc := by
  rw [reparent]; split <;> exact ⟨rfl, rfl⟩

theorem reown_pc (k x : Nat) (p : Park) : (reown k x p).pc = p.pc := by rw [reown]; split <;> rfl

/-! ### One fusion -/

/-- Entry `k`, which is `y`, folded into its parent. -/
def folded (g : Group) (k : Nat) (y : Sub) : Group :=
  ((({ g with subs := Tbl.del g.subs k, sleep := Tbl.del g.sleep k, woken := g.woken.filter (· != k) } : Group).setSub y.parent
    { g.sub y.parent with mask := (g.sub y.parent).mask ||| y.mask }).rekey k y.parent).inherit k y.parent

/-- The PC of an entry's parent differs from its own: it does not qualify for a fusion. -/
def Apart (g : Group) : Prop := ∀ k y, Tbl.look g.subs k = some y → k ≠ 15 → y.pc ≠ (g.sub y.parent).pc

theorem fuseOne_cases {g : Group} (sorted : Tbl.sorted g.subs = true) :
    g.fuseOne = none ∧ Apart g ∨ ∃ k y, Tbl.look g.subs k = some y ∧ k ≠ 15 ∧ y.pc = (g.sub y.parent).pc ∧ g.fuseOne = some (folded g k y) := by
  cases found : g.subs.find? fun c => c.1 != 15 && decide (c.2.pc = (g.sub c.2.parent).pc) with
  | none =>
    refine .inl ⟨by rw [Group.fuseOne]; simp only [found], fun k y hy hk => ?_⟩
    have := List.find?_eq_none.1 found (k, y) (mem_of_look hy)
    simp only [Bool.and_eq_true, bne_iff_ne, decide_eq_true_eq, not_and] at this
    exact this hk
  | some c =>
    have here := List.find?_some found
    simp only [Bool.and_eq_true, bne_iff_ne, decide_eq_true_eq] at here
    exact .inr ⟨c.1, c.2, look_of_mem sorted (List.mem_of_find?_eq_some found), here.1, here.2, by
      rw [Group.fuseOne]; simp only [found]; rfl⟩

theorem look_folded {g : Group} {k : Nat} {y : Sub} (hk : y.parent ≠ k) (e : Nat) : Tbl.look (folded g k y).subs e =
    if e = k then none else ((if e = y.parent then some { g.sub y.parent with mask := (g.sub y.parent).mask ||| y.mask }
      else Tbl.look g.subs e).map (reparent k y.parent e)) := by
  rw [folded, look_inherit]
  have raw : ∀ e, Tbl.look (Tbl.set (Tbl.del g.subs k) y.parent { g.sub y.parent with mask := (g.sub y.parent).mask ||| y.mask }) e =
      if e = y.parent then some { g.sub y.parent with mask := (g.sub y.parent).mask ||| y.mask } else Tbl.look (Tbl.del g.subs k) e :=
    fun e => by
      split
      · next h => rw [h, Tbl.look_set_same]
      · next h => rw [Tbl.look_set_other _ _ h]
  refine (congrArg _ (raw e)).trans ?_
  by_cases he : e = k
  · subst he
    rw [if_neg (Ne.symm hk), Tbl.look_del_same, if_pos rfl]; rfl
  · rw [if_neg he, Tbl.look_del_other _ he]

theorem look_folded_parked (g : Group) (k : Nat) (y : Sub) (l : Nat) :
    Tbl.look (folded g k y).parked l = (Tbl.look g.parked l).map (reown k y.parent) := look_inherit_parked ..

/-- The form of a group's split table (R29): entries under live parents, parked lanes under live owners. -/
structure Tree (rank : Nat → Nat) (g : Group) : Prop where
  sortedSubs : Tbl.sorted g.subs = true
  sortedParked : Tbl.sorted g.parked = true
  keys : ∀ k, (Tbl.look g.subs k).isSome = true → k < 8 ∨ k = 15
  owners : ∀ l p, Tbl.look g.parked l = some p → l < 256 ∧ (Tbl.look g.subs p.owner).isSome = true
  parents : ∀ k y, Tbl.look g.subs k = some y → k ≠ 15 → (Tbl.look g.subs y.parent).isSome = true ∧ rank y.parent < rank k

/-- What fusion keeps: every lane in a mask with its PC, every parked lane with its PC. -/
structure Fused (g h : Group) : Prop where
  frame : h = { g with
    subs := h.subs, parked := h.parked, handler := h.handler, frozen := h.frozen, wskipNow := h.wskipNow, sleep := h.sleep
    woken := h.woken }
  lanes : ∀ k y, Tbl.look g.subs k = some y → ∀ l, mhas y.mask l = true →
    ∃ j z, Tbl.look h.subs j = some z ∧ mhas z.mask l = true ∧ z.pc = y.pc
  back : ∀ j z, Tbl.look h.subs j = some z → ∀ l, mhas z.mask l = true → ∃ k y, Tbl.look g.subs k = some y ∧ mhas y.mask l = true
  parked : ∀ l, (Tbl.look h.parked l).map (·.pc) = (Tbl.look g.parked l).map (·.pc)

theorem Fused.refl (g : Group) : Fused g g := ⟨rfl, fun k y hy _ hl => ⟨k, y, hy, hl, rfl⟩, fun k y hy _ hl => ⟨k, y, hy, hl⟩, fun _ => rfl⟩

theorem Fused.trans {a b c : Group} (h : Fused a b) (k : Fused b c) : Fused a c where
  frame := by rw [k.frame, h.frame]
  lanes e y hy l hl := by
    obtain ⟨j, z, hz, hlz, hpc⟩ := h.lanes e y hy l hl
    obtain ⟨i, w, hw, hlw, hpc'⟩ := k.lanes j z hz l hlz
    exact ⟨i, w, hw, hlw, hpc'.trans hpc⟩
  back e y hy l hl := by
    obtain ⟨j, z, hz, hlz⟩ := k.back e y hy l hl
    exact h.back j z hz l hlz
  parked l := (k.parked l).trans (h.parked l)

section
variable {rank : Nat → Nat} {g : Group} {k : Nat} {y : Sub}

/-- After a fusion the same entries are live but one, and nothing of them but a mask and their parents differs. -/
theorem isSome_folded (tree : Tree rank g) (hy : Tbl.look g.subs k = some y) (hk : k ≠ 15) (e : Nat) :
    (Tbl.look (folded g k y).subs e).isSome = true ↔ e ≠ k ∧ (Tbl.look g.subs e).isSome = true := by
  obtain ⟨live, lower⟩ := tree.parents k y hy hk
  have ne : y.parent ≠ k := fun h => by rw [h] at lower; exact Nat.lt_irrefl _ lower
  rw [look_folded ne]
  by_cases he : e = k
  · simp [he]
  · by_cases hp : e = y.parent
    · subst hp; simp [he, live]
    · simp [he, hp]

theorem tree_folded (tree : Tree rank g) (hy : Tbl.look g.subs k = some y) (hk : k ≠ 15) : Tree rank (folded g k y) := by
  have live := isSome_folded tree hy hk
  obtain ⟨parentLive, lower⟩ := tree.parents k y hy hk
  have ne : y.parent ≠ k := fun h => by rw [h] at lower; exact Nat.lt_irrefl _ lower
  obtain ⟨sorted, sortedParked⟩ := sorted_inherit (g := (({ g with
    subs := Tbl.del g.subs k, sleep := Tbl.del g.sleep k, woken := g.woken.filter (· != k) } : Group).setSub y.parent
    { g.sub y.parent with mask := (g.sub y.parent).mask ||| y.mask }).rekey k y.parent) k y.parent
    (Tbl.sorted_set _ _ (Tbl.sorted_del _ tree.sortedSubs)) tree.sortedParked
  refine ⟨sorted, sortedParked, fun e he => tree.keys e ((live e).1 he).2, fun l p hp => ?_, fun e z hz he => ?_⟩
  · rw [look_folded_parked, Option.map_eq_some_iff] at hp
    obtain ⟨q, hq, rfl⟩ := hp
    obtain ⟨hl, owner⟩ := tree.owners l q hq
    refine ⟨hl, (live _).2 ?_⟩
    rw [reown]
    split
    · exact ⟨ne, parentLive⟩
    · next h => exact ⟨h, owner⟩
  · rw [look_folded ne] at hz
    split at hz
    · cases hz
    · next hek =>
      rw [Option.map_eq_some_iff] at hz
      obtain ⟨w, hw, rfl⟩ := hz
      have old : ∃ v, Tbl.look g.subs e = some v ∧ v.parent = w.parent := by
        split at hw
        · next hp =>
          obtain ⟨v, hv⟩ := Option.isSome_iff_exists.1 parentLive
          subst hp
          rw [sub_of_look hv] at hw
          exact ⟨v, hv, by rw [← Option.some.inj hw]⟩
        · exact ⟨w, hw, rfl⟩
      obtain ⟨v, hv, same⟩ := old
      obtain ⟨vlive, vlower⟩ := tree.parents e v hv he
      rw [same] at vlive vlower
      rw [reparent]
      split
      · next h => exact ⟨(live _).2 ⟨ne, parentLive⟩, lower.trans (h.2 ▸ vlower)⟩
      · next h => exact ⟨(live _).2 ⟨fun e' => h ⟨he, e'⟩, vlive⟩, vlower⟩

theorem fused_folded (tree : Tree rank g) (hy : Tbl.look g.subs k = some y) (hk : k ≠ 15) (hpc : y.pc = (g.sub y.parent).pc) :
    Fused g (folded g k y) := by
  obtain ⟨parentLive, lower⟩ := tree.parents k y hy hk
  have ne : y.parent ≠ k := fun h => by rw [h] at lower; exact Nat.lt_irrefl _ lower
  obtain ⟨par, hpar⟩ := Option.isSome_iff_exists.1 parentLive
  have psub := sub_of_look hpar
  have found : ∀ e, Tbl.look (folded g k y).subs e = _ := look_folded ne
  have atParent : ∃ z, Tbl.look (folded g k y).subs y.parent = some z ∧ z.mask = par.mask ||| y.mask ∧ z.pc = par.pc := by
    refine ⟨_, by rw [found, if_neg ne, if_pos rfl, psub]; rfl, ?_⟩
    obtain ⟨mask, pc⟩ := reparent_rest k y.parent y.parent { par with mask := par.mask ||| y.mask }
    exact ⟨mask, pc⟩
  obtain ⟨z, hz, zmask, zpc⟩ := atParent
  refine ⟨rfl, fun e w hw l hl => ?_, fun e w hw l hl => ?_, fun l => ?_⟩
  · by_cases hek : e = k
    · subst hek
      rw [hy] at hw; cases hw
      exact ⟨_, z, hz, by rw [zmask, mhas_or, hl, Bool.or_true], by rw [zpc, hpc, psub]⟩
    · by_cases hep : e = y.parent
      · subst hep
        rw [hpar] at hw; cases hw
        exact ⟨_, z, hz, by rw [zmask, mhas_or, hl, Bool.true_or], zpc⟩
      · obtain ⟨mask, pc⟩ := reparent_rest k y.parent e w
        exact ⟨e, _, by rw [found, if_neg hek, if_neg hep, hw]; rfl, by rw [mask, hl], pc⟩
  · by_cases hep : e = y.parent
    · subst hep
      rw [hz] at hw; cases hw
      rw [zmask, mhas_or, Bool.or_eq_true] at hl
      rcases hl with hl | hl
      · exact ⟨_, par, hpar, hl⟩
      · exact ⟨k, y, hy, hl⟩
    · rw [found] at hw
      split at hw
      · cases hw
      · rw [Option.map_eq_some_iff] at hw
        obtain ⟨v, hv, rfl⟩ := hw
        rw [(reparent_rest ..).1] at hl
        exact ⟨e, v, hv, hl⟩
  · rw [look_folded_parked, Option.map_map]
    exact congrArg (fun f => Option.map f _) (funext fun p => reown_pc ..)

end

/-! ### All fusions -/

/-- How many split entries are live; there are at most eight (R29). -/
def liveEntries (g : Group) : Finset Nat := (Finset.range 8).filter fun e => (Tbl.look g.subs e).isSome = true

theorem fuse_done {rank : Nat → Nat} (n : Nat) : ∀ g : Group, Tree rank g → (liveEntries g).card ≤ n →
    Tree rank (g.fuse n) ∧ Fused g (g.fuse n) ∧ Apart (g.fuse n) := by
  have below : ∀ {g : Group} {k : Nat} {y : Sub}, Tree rank g → Tbl.look g.subs k = some y → k ≠ 15 → k ∈ liveEntries g := by
    intro g k y tree hy hk
    have some_ : (Tbl.look g.subs k).isSome = true := by rw [hy]; rfl
    rcases tree.keys k some_ with h | h
    · exact Finset.mem_filter.2 ⟨Finset.mem_range.2 h, some_⟩
    · exact absurd h hk
  induction n with
  | zero =>
    intro g tree few
    refine ⟨tree, .refl g, fun k y hy hk => ?_⟩
    have := Finset.card_pos.2 ⟨k, below tree hy hk⟩
    omega
  | succ n ih =>
    intro g tree few
    rcases fuseOne_cases tree.sortedSubs with ⟨none_, apart⟩ | ⟨k, y, hy, hk, hpc, some_⟩
    · rw [Group.fuse, none_]; exact ⟨tree, .refl g, apart⟩
    · rw [Group.fuse, some_]
      have fewer : (liveEntries (folded g k y)).card < (liveEntries g).card := by
        refine Finset.card_lt_card ⟨fun e he => ?_, fun all => ?_⟩
        · obtain ⟨hr, hs⟩ := Finset.mem_filter.1 he
          exact Finset.mem_filter.2 ⟨hr, ((isSome_folded tree hy hk e).1 hs).2⟩
        · obtain ⟨-, hs⟩ := Finset.mem_filter.1 (all (below tree hy hk))
          exact ((isSome_folded tree hy hk k).1 hs).1 rfl
      obtain ⟨tree', fused, apart⟩ := ih _ (tree_folded tree hy hk) (by omega)
      exact ⟨tree', (fused_folded tree hy hk hpc).trans fused, apart⟩

/-! ### Parked lanes that rejoin -/

/-- One parked lane back in its owner's mask. -/
def rejoin (g : Group) (c : Nat × Park) : Group :=
  g.setSub c.2.owner { g.sub c.2.owner with mask := (g.sub c.2.owner).mask ||| msingle c.1 }

/-- Group `h` is `g` with the parked lanes `bs` in their owners' masks too. -/
structure Rejoined (bs : List (Nat × Park)) (g h : Group) : Prop where
  frame : h = { g with subs := h.subs }
  sorted : Tbl.sorted g.subs = true → Tbl.sorted h.subs = true
  live : ∀ k y, Tbl.look g.subs k = some y → ∃ m, Tbl.look h.subs k = some { y with mask := m }
    ∧ ∀ l < 256, mhas m l = true ↔ mhas y.mask l = true ∨ ∃ c ∈ bs, c.1 = l ∧ c.2.owner = k
  none_ : ∀ k, Tbl.look g.subs k = none → Tbl.look h.subs k = none

theorem rejoined_foldl (bs : List (Nat × Park)) : ∀ g : Group, (∀ c ∈ bs, (Tbl.look g.subs c.2.owner).isSome = true) →
    Rejoined bs g (bs.foldl rejoin g) := by
  induction bs with
  | nil => exact fun g _ => ⟨rfl, id, fun k y hy => ⟨y.mask, hy, by simp⟩, fun _ => id⟩
  | cons b bs ih =>
    intro g owners
    obtain ⟨o, ho⟩ := Option.isSome_iff_exists.1 (owners b (List.mem_cons_self ..))
    have at_ : rejoin g b = g.setSub b.2.owner { o with mask := o.mask ||| msingle b.1 } := by rw [rejoin, sub_of_look ho]
    have other : ∀ k, k ≠ b.2.owner → Tbl.look (rejoin g b).subs k = Tbl.look g.subs k := fun k hk => by
      rw [at_, look_setSub_other _ _ hk]
    have self : Tbl.look (rejoin g b).subs b.2.owner = some { o with mask := o.mask ||| msingle b.1 } := by
      rw [at_]; exact Tbl.look_set_same ..
    have rest := ih (rejoin g b) fun c hc => by
      by_cases h : c.2.owner = b.2.owner
      · rw [h, self]; rfl
      · rw [other _ h]; exact owners c (List.mem_cons_of_mem _ hc)
    rw [List.foldl_cons]
    refine ⟨?_, fun h => rest.sorted (Tbl.sorted_set _ _ h), fun k y hy => ?_, fun k hk => rest.none_ k ?_⟩
    · rw [rest.frame]; rfl
    · by_cases hk : k = b.2.owner
      · subst hk
        rw [ho] at hy; cases hy
        obtain ⟨m, hm, has⟩ := rest.live _ _ self
        refine ⟨m, hm, fun l hl => ?_⟩
        rw [has l hl, mhas_or, mhas_msingle]
        simp [hl, or_assoc]
      · obtain ⟨m, hm, has⟩ := rest.live k y ((other k hk).trans hy)
        refine ⟨m, hm, fun l hl => ?_⟩
        rw [has l hl]
        simp [Ne.symm hk]
    · have : k ≠ b.2.owner := by rintro rfl; rw [ho] at hk; cases hk
      rw [other k this, hk]

/-- A parked lane that rejoins its owner at the start of a turn. -/
def comesBack (g : Group) (c : Nat × Park) : Bool := decide (c.2.pc = (g.sub c.2.owner).pc)

theorem unpark_eq {g : Group} (sorted : Tbl.sorted g.parked = true) : g.unpark =
    { (g.parked.filter (comesBack g)).foldl rejoin g with parked := g.parked.filter fun c => !comesBack g c } := by
  have stays : g.parked.filter (fun c => !((g.parked.filter (comesBack g)).any fun d => d.1 == c.1)) =
      g.parked.filter fun c => !comesBack g c := by
    refine List.filter_congr fun c hc => congrArg _ ?_
    rw [Bool.eq_iff_iff, List.any_eq_true]
    refine ⟨fun ⟨d, hd, e⟩ => ?_, fun h => ⟨c, List.mem_filter.2 ⟨hc, h⟩, beq_self_eq_true _⟩⟩
    obtain ⟨hd, back⟩ := List.mem_filter.1 hd
    rwa [eq_of_sorted sorted hd hc (beq_iff_eq.1 e)] at back
  have parkedSame : ∀ (bs : List (Nat × Park)) (g : Group), (bs.foldl rejoin g).parked = g.parked := fun bs => by
    induction bs with
    | nil => exact fun _ => rfl
    | cons b bs ih => exact fun g => ih (rejoin g b)
  have unfolded : g.unpark = { (g.parked.filter (comesBack g)).foldl rejoin g with
      parked := ((g.parked.filter (comesBack g)).foldl rejoin g).parked.filter
        fun c => !((g.parked.filter (comesBack g)).any fun d => d.1 == c.1) } := rfl
  rw [unfolded, parkedSame, stays]

/-- What the start of a turn leaves of a split table of R29's form, where no entry is left to fold (R32). -/
theorem unpark_done {rank : Nat → Nat} {g : Group} (tree : Tree rank g) (apart : Apart g) :
    Tbl.sorted g.unpark.subs = true ∧ Apart g.unpark ∧ Rejoined (g.parked.filter (comesBack g)) g { g.unpark with parked := g.parked }
      ∧ (∀ c, c ∈ g.unpark.parked ↔ c ∈ g.parked ∧ c.2.pc ≠ (g.unpark.sub c.2.owner).pc) ∧ g.unpark = { g with subs := g.unpark.subs, parked := g.unpark.parked } := by
  have owners : ∀ c ∈ g.parked, (Tbl.look g.subs c.2.owner).isSome = true := fun c hc =>
    (tree.owners c.1 c.2 (look_of_mem tree.sortedParked hc)).2
  have re := rejoined_foldl (g.parked.filter (comesBack g)) g fun c hc => owners c (List.mem_of_mem_filter hc)
  have eq := unpark_eq tree.sortedParked
  have subs : g.unpark.subs = ((g.parked.filter (comesBack g)).foldl rejoin g).subs := by rw [eq]
  have pcs : ∀ k, (Tbl.look g.subs k).isSome = true → (g.unpark.sub k).pc = (g.sub k).pc := fun k some_ => by
    obtain ⟨y, hy⟩ := Option.isSome_iff_exists.1 some_
    obtain ⟨m, hm, -⟩ := re.live k y hy
    rw [← subs] at hm
    rw [sub_of_look hm, sub_of_look hy]
  refine ⟨subs ▸ re.sorted tree.sortedSubs, fun k z hz hk => ?_, ⟨?_, fun _ => ?_, ?_, ?_⟩, fun c => ?_, ?_⟩
  · cases hy : Tbl.look g.subs k with
    | none =>
      have := re.none_ k hy
      rw [← subs, hz] at this; cases this
    | some y =>
      obtain ⟨m, hm, -⟩ := re.live k y hy
      rw [← subs, hz] at hm; cases hm
      rw [pcs _ (tree.parents k y hy hk).1]
      exact apart k y hy hk
  · rw [eq]
    conv_lhs => rw [re.frame]
  · exact subs ▸ re.sorted tree.sortedSubs
  · exact subs ▸ re.live
  · exact subs ▸ re.none_
  · have : g.unpark.parked = g.parked.filter fun c => !comesBack g c := by rw [eq]
    rw [this, List.mem_filter]
    refine and_congr_right fun hc => ?_
    rw [pcs _ (owners c hc)]
    simp [comesBack]
  · rw [eq]
    conv_lhs => rw [re.frame]

theorem startTurn_done {rank : Nat → Nat} {g : Group} (tree : Tree rank g) : ∃ k : Group, Tree rank k ∧ Fused g k ∧ Apart k
    ∧ g.startTurn = k.unpark := by
  obtain ⟨tree', fused, apart⟩ := fuse_done 8 g tree ((Finset.card_filter_le _ _).trans (by simp))
  exact ⟨_, tree', fused, apart, rfl⟩

/-- Where the lanes of a split table are after the parked ones at their owners' PC have rejoined. -/
theorem unpark_lanes {rank : Nat → Nat} {g : Group} (tree : Tree rank g)
    (re : Rejoined (g.parked.filter (comesBack g)) g { g.unpark with parked := g.parked })
    (parked : ∀ c, c ∈ g.unpark.parked ↔ c ∈ g.parked ∧ c.2.pc ≠ (g.unpark.sub c.2.owner).pc) :
    (∀ k y, Tbl.look g.subs k = some y → ∀ l < 256, mhas y.mask l = true →
      ∃ z, Tbl.look g.unpark.subs k = some z ∧ mhas z.mask l = true ∧ z.pc = y.pc)
    ∧ (∀ l p, Tbl.look g.parked l = some p → (l, p) ∈ g.unpark.parked
      ∨ ∃ z, Tbl.look g.unpark.subs p.owner = some z ∧ mhas z.mask l = true ∧ z.pc = p.pc)
    ∧ ∀ k z, Tbl.look g.unpark.subs k = some z → ∀ l < 256, mhas z.mask l = true →
      (∃ y, Tbl.look g.subs k = some y ∧ mhas y.mask l = true) ∨ (Tbl.look g.parked l).isSome = true := by
  refine ⟨fun k y hy l hl has => ?_, fun l p hp => ?_, fun k z hz l hl has => ?_⟩
  · obtain ⟨m, hm, mask⟩ := re.live k y hy
    exact ⟨_, hm, (mask l hl).2 (.inl has), rfl⟩
  · obtain ⟨hl, owner⟩ := tree.owners l p hp
    obtain ⟨y, hy⟩ := Option.isSome_iff_exists.1 owner
    obtain ⟨m, hm, mask⟩ := re.live _ _ hy
    have here := mem_of_look hp
    by_cases back : p.pc = y.pc
    · have : (l, p) ∈ g.parked.filter (comesBack g) := List.mem_filter.2 ⟨here, by simp [comesBack, sub_of_look hy, back]⟩
      exact .inr ⟨_, hm, (mask l hl).2 (.inr ⟨_, this, rfl, rfl⟩), back.symm⟩
    · refine .inl ((parked (l, p)).2 ⟨here, ?_⟩)
      rwa [sub_of_look (g := g.unpark) hm]
  · cases hy : Tbl.look g.subs k with
    | none =>
      have := re.none_ k hy
      rw [show Tbl.look g.unpark.subs k = none from this] at hz; cases hz
    | some y =>
      obtain ⟨m, hm, mask⟩ := re.live k y hy
      rw [show Tbl.look g.unpark.subs k = _ from hm] at hz; cases hz
      rcases (mask l hl).1 has with has | ⟨c, hc, rfl, -⟩
      · exact .inl ⟨y, rfl, has⟩
      · exact .inr (by rw [look_of_mem tree.sortedParked (List.mem_of_mem_filter hc)]; rfl)

theorem fusion : Claim.Fusion := by
  intro g sortedSubs sortedParked keys owners ⟨rank, parents⟩ h
  have tree : Tree rank g := by
    refine ⟨sortedSubs, sortedParked, fun k some_ => ?_, fun l p hp => owners _ (mem_of_look hp), fun k y hy => parents _ (mem_of_look hy)⟩
    obtain ⟨y, hy⟩ := Option.isSome_iff_exists.1 some_
    exact keys _ (mem_of_look hy)
  obtain ⟨k, tk, fused, apartk, eq⟩ := startTurn_done tree
  obtain ⟨sorted, apart, re, parked, frame⟩ := unpark_done tk apartk
  obtain ⟨stay, back, only⟩ := unpark_lanes tk re parked
  rw [← show h = k.unpark from eq] at sorted apart parked frame stay back only
  have pcOf : ∀ {l p}, Tbl.look k.parked l = some p → ∃ q, Tbl.look g.parked l = some q ∧ q.pc = p.pc := fun {l p} hp => by
    have := fused.parked l
    rw [hp, eq_comm, Option.map_some, Option.map_eq_some_iff] at this
    exact this
  have toK : ∀ {l q}, Tbl.look g.parked l = some q → ∃ p, Tbl.look k.parked l = some p ∧ p.pc = q.pc := fun {l q} hq => by
    have := fused.parked l
    rw [hq, Option.map_some, Option.map_eq_some_iff] at this
    exact this
  have sortedParkedH : Tbl.sorted h.parked = true := by
    rw [show h = k.unpark from eq, unpark_eq tk.sortedParked]
    exact sorted_filter _ tk.sortedParked
  have subLane : ∀ c ∈ g.subs, ∀ l < 256, mhas c.2.mask l = true → ∃ d ∈ h.subs, mhas d.2.mask l = true ∧ d.2.pc = c.2.pc := by
    intro c hc l hl has
    obtain ⟨j, y, hy, hasy, pcy⟩ := fused.lanes c.1 c.2 (look_of_mem sortedSubs hc) l has
    obtain ⟨z, hz, hasz, pcz⟩ := stay j y hy l hl hasy
    exact ⟨_, mem_of_look hz, hasz, pcz.trans pcy⟩
  have parkedLane : ∀ c ∈ g.parked, (∃ p, Tbl.look h.parked c.1 = some p ∧ p.pc = c.2.pc)
      ∨ ∃ d ∈ h.subs, mhas d.2.mask c.1 = true ∧ d.2.pc = c.2.pc := by
    intro c hc
    obtain ⟨p, hp, pc⟩ := toK (look_of_mem sortedParked hc)
    rcases back c.1 p hp with here | ⟨z, hz, has, pcz⟩
    · exact .inl ⟨p, look_of_mem sortedParkedH here, pc⟩
    · exact .inr ⟨_, mem_of_look hz, has, pcz.trans pc⟩
  refine ⟨fun c hc => apart c.1 c.2 (look_of_mem sorted hc), fun c hc => ?_, fun l hl => ⟨?_, ?_⟩, subLane, parkedLane, ?_⟩
  · obtain ⟨hk, ne⟩ := (parked c).1 hc
    obtain ⟨q, hq, pc⟩ := pcOf (look_of_mem tk.sortedParked hk)
    refine ⟨ne, ?_⟩
    rw [Tbl.get, hq]
    show some q = some ⟨c.2.pc, q.owner⟩
    rw [← pc]
  · rintro (⟨c, hc, has⟩ | some_)
    · obtain ⟨d, hd, hasd, -⟩ := subLane c hc l hl has
      exact .inl ⟨d, hd, hasd⟩
    · obtain ⟨q, hq⟩ := Option.isSome_iff_exists.1 some_
      rcases parkedLane _ (mem_of_look hq) with ⟨p, hp, -⟩ | ⟨d, hd, has, -⟩
      · exact .inr (by rw [hp]; rfl)
      · exact .inl ⟨d, hd, has⟩
  · rintro (⟨c, hc, has⟩ | some_)
    · rcases only c.1 c.2 (look_of_mem sorted hc) l hl has with ⟨y, hy, has⟩ | some_
      · obtain ⟨j, z, hz, has⟩ := fused.back c.1 y hy l has
        exact .inl ⟨_, mem_of_look hz, has⟩
      · obtain ⟨p, hp⟩ := Option.isSome_iff_exists.1 some_
        obtain ⟨q, hq, -⟩ := pcOf hp
        exact .inr (by rw [hq]; rfl)
    · obtain ⟨p, hp⟩ := Option.isSome_iff_exists.1 some_
      obtain ⟨hk, -⟩ := (parked (l, p)).1 (mem_of_look hp)
      obtain ⟨q, hq, -⟩ := pcOf (look_of_mem tk.sortedParked hk)
      exact .inr (by rw [hq]; rfl)
  · obtain ⟨handler, frozen, skip, sleep, woken⟩ : h.handler = k.handler ∧ h.frozen = k.frozen ∧ h.wskipNow = k.wskipNow
        ∧ h.sleep = k.sleep ∧ h.woken = k.woken := by rw [frame]; exact ⟨rfl, rfl, rfl, rfl, rfl⟩
    rw [handler, frozen, skip, sleep, woken]
    exact frame.trans (by rw [fused.frame])

/-- Settles O13: a divergent branch places its targets in ascending order, and fusion and unparking move lanes between
masks of one PC. -/
theorem divergenceAndFusion : Obligations.DivergenceAndFusion := ⟨divergentBranches, fusion⟩

end Sys2Proof.Proofs
end

section
/-!
PROOF. Exits (R33, R34, R370): the end of a team discards parked copies, and what waited behind one retires (R280, R216). The
clause on the last group does not say that the team's copies are of its own groups.
-/

namespace Sys2Proof.Proofs

open Sys2Proof.Machine Sys2Proof.Claim

/-- A copy of no bytes by engine 0, of group 2. -/
def strayCopy (tid : Nat) (st : CpySt) : Copy :=
  { gid := 2, tid := tid, part := 0, core := 0, engine := 0, seq := 0, sk := .virt, dk := .virt, src := 0, dst := 0, left := 0
    since := 0, promise := 0, pol := 0, st := st }

/-- Group 1 of team 1 is at its last EXIT. A parked copy that names team 1 and group 2, of team 2, stands before a completed
copy of group 2, which counts one copy. -/
def lastExit : State :=
  { groups := [(1, { ident := { tid := 1 }, subs := [(15, { mask := 1 })] }), (2, { ident := { tid := 2 }, csr := { cp := 1 } })]
    teams := [(1, { gids := [1] }), (2, { gids := [2] })]
    copies := [(0, strayCopy 1 (.parked 0 0 true)), (1, strayCopy 2 .done)]
    issue := some ⟨.group 1 15, []⟩ }

theorem lastExit_counts : (lastExit.group 2).csr.cp = 1 := rfl

theorem exec_exit (f : Fields) (s : State) : exec (.exit f) s = execExit f s := rfl

/-- The exit retires the completed copy of group 2. -/
theorem lastExit_retires {t : State} (h : exec (.exit plainWord) lastExit = .next t) : (t.group 2).csr.cp = 0 := by
  rw [exec_exit] at h
  have : ∃ u, execExit plainWord lastExit = .next u ∧ (u.group 2).csr.cp = 0 := ⟨_, rfl, by decide⟩
  obtain ⟨u, hu, hcp⟩ := this
  rw [h] at hu; cases hu
  exact hcp

theorem lastExit_nothingSwept : NothingSwept lastExit := by
  refine ⟨by simp [lastExit], ?_, ?_, by simp [lastExit], by simp [lastExit]⟩
  · simp [lastExit]
  · simp [lastExit]

/-- Refutes O14: in `lastExit` the end of team 1 discards a parked copy of group 2, whose completed copy then retires, so that
another group than the exiting one changes. -/
theorem not_exits : ¬ Obligations.Exits := by
  intro h
  obtain ⟨-, -, -, -, last⟩ := h plainWord lastExit 1 15 ⟨⟨[], rfl⟩, rfl⟩
  obtain ⟨t, run, -, -, others, -⟩ := last (by decide) rfl (by decide) rfl (by decide) lastExit_nothingSwept rfl
  have kept := congrArg (fun g : Group => g.csr.cp) (others 2 (by decide))
  simp only [lastExit_retires run, lastExit_counts] at kept
  cases kept

end Sys2Proof.Proofs
end

section
/-!
PROOF. Where nothing is to be swept away, the sweep before a step of the module leaves the state as it is.
-/

namespace Sys2Proof.Proofs

open Sys2Proof.Machine Sys2Proof.Claim

theorem look_isSome_of_mem {α : Type} {t : List (Nat × α)} {c : Nat × α} (h : c ∈ t) : (Tbl.look t c.1).isSome = true := by
  induction t with
  | nil => cases h
  | cons d t ih =>
    rw [Tbl.look]
    split
    · rfl
    · next ne =>
      rcases List.mem_cons.1 h with rfl | h
      · exact absurd rfl ne
      · exact ih h

theorem launch_alive {s : State} (h : ∀ l ∈ s.launches, l.2.killed = none) (lid : Nat) : (s.launch lid).killed = none := by
  rw [State.launch, Tbl.get]
  cases found : Tbl.look s.launches lid with
  | none => rfl
  | some l => exact h _ (mem_of_look found)

theorem team_of_mem {s : State} {x : Nat × Team} (h : x ∈ s.teams) : (x.1, s.team x.1) ∈ s.teams := by
  cases found : Tbl.look s.teams x.1 with
  | none =>
    have := look_isSome_of_mem h
    rw [found] at this; cases this
  | some t => rw [State.team, Tbl.get, found]; exact mem_of_look found

theorem filter_nil {α : Type} {p : α → Bool} {l : List α} (h : ∀ x ∈ l, p x = false) : l.filter p = [] :=
  List.filter_eq_nil_iff.2 fun x hx => by rw [h x hx]; exact Bool.false_ne_true

/-- Folding a step that leaves the state alone. -/
theorem foldl_fixed {α β : Type} {f : β → α → β} {l : List α} {s : β} (h : ∀ x ∈ l, f s x = s) : l.foldl f s = s := by
  induction l with
  | nil => rfl
  | cons x l ih =>
    rw [List.foldl_cons, h x (List.mem_cons_self ..)]
    exact ih fun y hy => h y (List.mem_cons_of_mem _ hy)

theorem sweepKilled_fixed {s : State} (h : NothingSwept s) : sweepKilled s = s := by
  obtain ⟨alive, -⟩ := h
  have dead : ∀ lid, (s.launch lid).killed.isSome = false := fun lid => by rw [launch_alive alive lid]; rfl
  rw [sweepKilled]
  simp only [filter_nil (l := s.launches) (p := fun c => c.2.killed.isSome) fun l hl => by rw [alive l hl]; rfl, List.foldl_nil, dead,
    Bool.false_and, List.filter_false]

theorem serveMrel_fixed {s : State} (h : NothingSwept s) : serveMrel s = s := by
  obtain ⟨-, -, -, -, waits⟩ := h
  rw [serveMrel, filter_nil fun w hw => ?_]
  · rfl
  · rw [beq_eq_false_iff_ne.2 (waits w hw), Bool.false_and]

theorem saveIdle_fixed {s : State} (h : NothingSwept s) {x : Nat × Team} (hx : x ∈ s.teams) : saveIdle s x.1 = s := by
  obtain ⟨-, teams, -⟩ := h
  obtain ⟨-, idle⟩ := teams _ (team_of_mem hx)
  rw [saveIdle]
  split
  · next c =>
    simp only [Bool.and_eq_true, List.isEmpty_iff, Bool.not_eq_true'] at c
    obtain ⟨⟨⟨⟨empty, -⟩, -⟩, saved⟩, -⟩ := c
    rw [idle empty] at saved; cases saved
  · rfl

theorem landResults_fixed {s : State} (h : NothingSwept s) : landResults s = s := by
  obtain ⟨-, -, due, -⟩ := h
  rw [landResults, filter_nil fun g hg => ?_]
  · rfl
  · rw [Bool.not_eq_false', List.isEmpty_iff, Group.dueProds]
    refine filter_nil fun ⟨k, p⟩ hp => ?_
    have later := due g hg (k, p) hp
    cases e : p.due with
    | none => simp only [e]
    | some t =>
      simp only [e, Option.all_some, decide_eq_true_eq] at later
      simpa only [e, decide_eq_false_iff_not, Nat.not_le] using later

theorem sweep_fixed {s : State} (h : NothingSwept s) : sweep s = s := by
  have saves : (s.teams.filter fun c => c.2.gids.isEmpty && !c.2.ended).foldl (fun s c => saveIdle s c.1) s = s :=
    foldl_fixed fun x hx => saveIdle_fixed h (List.mem_of_mem_filter hx)
  have ends : s.teams.filter (fun c => c.2.ended && !c.2.reclaimed) = [] := filter_nil fun x hx => by
    obtain ⟨-, teams, -⟩ := h
    rw [(teams x hx).1, Bool.false_and]
  have recs : s.cores.filter (fun c => c.2.recs.any fun r => r.2.engine && !r.2.stage2) = [] := filter_nil fun c hc => by
    obtain ⟨-, -, -, recs, -⟩ := h
    refine List.any_eq_false.2 fun r hr e => ?_
    rw [Bool.and_eq_true, Bool.not_eq_true'] at e
    rw [recs c hc r hr e.1] at e; cases e.2
  rw [sweep, sweepKilled_fixed h, serveMrel_fixed h]
  simp only [ends, List.foldl_nil, saves, landResults_fixed h, recs]

end Sys2Proof.Proofs
end

section
/-!
PROOF. A group's turn (R26, R32, R35, R273 to R276): which position takes it, and what PREEMPT's delivery and a save leave.
-/

namespace Sys2Proof.Proofs

open Sys2Proof.Machine Sys2Proof.Claim

/-! ### The start of a turn leaves the registers alone -/

/-- The fields that fusion and unparking may change are those of a split table and a turn. -/
def TurnRecords (g h : Group) : Prop := h = { g with
  subs := h.subs, parked := h.parked, handler := h.handler, frozen := h.frozen, wskipNow := h.wskipNow, sleep := h.sleep
  woken := h.woken }

theorem TurnRecords.trans {a b c : Group} (h : TurnRecords a b) (k : TurnRecords b c) : TurnRecords a c := by
  unfold TurnRecords at *
  rw [k, h]

theorem fuseOne_records {g h : Group} (e : g.fuseOne = some h) : TurnRecords g h := by
  rw [Group.fuseOne] at e
  split at e
  · cases e
  · cases e; rfl

theorem fuse_records (n : Nat) : ∀ g : Group, TurnRecords g (g.fuse n) := by
  induction n with
  | zero => exact fun _ => rfl
  | succ n ih =>
    intro g
    rw [Group.fuse]
    split
    · rfl
    · next h e => exact (fuseOne_records e).trans (ih h)

theorem unpark_records (g : Group) : TurnRecords g g.unpark := by
  have rejoins : ∀ (bs : List (Nat × Park)) (g : Group), TurnRecords g (bs.foldl rejoin g) := fun bs => by
    induction bs with
    | nil => exact fun _ => rfl
    | cons b bs ih => exact fun g => TurnRecords.trans (b := rejoin g b) rfl (ih _)
  exact (rejoins (g.parked.filter (comesBack g)) g).trans rfl

theorem startTurn_records (g : Group) : TurnRecords g g.startTurn := (fuse_records 8 g).trans (unpark_records _)

/-! ### What a step of a turn leaves alone -/

/-- Groups, cores, waits, gates, launches and the turn apart, nothing differs: no memory does. -/
theorem memoriesSame_of_shape {s t : State} (h : t = { s with
    groups := t.groups, cores := t.cores, waiters := t.waiters, engines := t.engines, copies := t.copies, launches := t.launches
    issue := t.issue }) : MemoriesSame s t := by
  rw [h]; exact ⟨rfl, rfl, rfl, fun _ => rfl⟩

/-- A core's rods stand where they stood. -/
def RodsKept (s t : State) : Prop := ∀ n, (t.core n).rodPos = (s.core n).rodPos

theorem rodsKept_of_latch {s t : State} (h : ∀ n, { t.core n with latch := [] } = { s.core n with latch := [] }) : RodsKept s t :=
  fun n => (congrArg Core.rodPos (h n) : ({ t.core n with latch := [] } : Core).rodPos = ({ s.core n with latch := [] } : Core).rodPos)

theorem rodsKept_setGroup (s : State) (gid : Nat) (g : Group) : RodsKept s (s.setGroup gid g) :=
  rodsKept_of_latch (State.setGroup_core s gid g)

/-- A save that has begun (R275, R276). -/
theorem beginSave_done (s : State) (gid : Nat) (keep : W64) (forced : Bool) :
    let t := beginSave s gid keep forced
    MemoriesSame s t ∧ OthersKept s t gid ∧ t.issue = s.issue ∧ RodsKept s t
      ∧ t.group gid = { s.group gid with saving := some ⟨keep, forced⟩, csr := { (s.group gid).csr with pend := false }, wrote := [] } := by
  refine ⟨memoriesSame_of_shape ?_, fun k hk => ?_, ?_, rodsKept_setGroup _ _ _, ?_⟩
  · rw [beginSave, openGates, State.setGroup_shape]
  · exact State.group_setGroup_other _ _ hk
  · rw [beginSave, openGates, State.setGroup_shape]
  · exact State.group_setGroup_same ..

/-- The sub-group that takes a PREEMPT, of a group after the start of its turn (R273). -/
def taker (h : Group) : Nat := (h.order.find? h.isSub).getD 15

theorem taker_served (h : Group) (now : Nat) : taker { h with hang := .no, pre := .served now } = taker h := rfl

theorem sub_served (h : Group) (now x : Nat) : ({ h with hang := .no, pre := .served now } : Group).sub x = h.sub x := rfl

/-- A group whose PREEMPT is about to enter the handler. -/
def served (h : Group) (now : Nat) : Group :=
  { h with hang := .no, pre := .served now, sleep := Tbl.del h.sleep (taker h), woken := h.woken.filter (· != taker h) }

/-- The wait for a coalescer record is withdrawn (R273). -/
def leaveRec (s : State) (g : Group) : State :=
  match g.hang with
  | .no | .full => s
  | .member r | .stage2 r =>
    let c := s.core g.ident.core
    s.setCore g.ident.core { c with recs := Tbl.upd c.recs r fun x => { x with slots := x.slots.filter (· != g.ident.slot) } }

theorem leaveRec_rest (s : State) (g : Group) : leaveRec s g = { s with cores := (leaveRec s g).cores } ∧ RodsKept s (leaveRec s g) := by
  have record : ∀ r, let c := s.core g.ident.core
      let t := s.setCore g.ident.core { c with recs := Tbl.upd c.recs r fun x => { x with slots := x.slots.filter (· != g.ident.slot) } }
      t = { s with cores := t.cores } ∧ RodsKept s t := fun r => by
    refine ⟨rfl, fun n => ?_⟩
    by_cases h : n = g.ident.core
    · subst h; rw [State.core_setCore_same]
    · rw [State.core_setCore_other _ _ h]
  unfold leaveRec
  cases g.hang with
  | no => exact ⟨rfl, fun _ => rfl⟩
  | full => exact ⟨rfl, fun _ => rfl⟩
  | member r => exact record r
  | stage2 r => exact record r

theorem pc_subPc (g : Group) (x : Nat) (pc : W64) : ((g.subPc x pc).sub x).pc = pc := congrArg Sub.pc (sub_setSub_same ..)

/-- The CSRs at a handler's entry (R268). -/
def handlerCsrs (c : Csrs) (word tepc tval : W64) (held : Bool) : Csrs :=
  { c with tcause := word, tepc := tepc, tval := tval, m := true, pend := held }

/-- A group that enters its handler with CSRs `c`, the lanes `frozen` frozen, and a record of the entry (R268). -/
def entered (g : Group) (sub : Nat) (c : Csrs) (frozen : Mask) (e : HEntry) : Group :=
  let h := { g with
    csr := c, handler := some sub, frozen := frozen, lastSub := some sub, wskipNow := g.wskipNow.filter (· != sub)
    entries := e :: g.entries }
  h.subPc sub h.csr.hbase

theorem entered_fields (g : Group) (sub : Nat) (c : Csrs) (m : Mask) (e : HEntry) : let h := entered g sub c m e
    h.csr = c ∧ h.pre = g.pre ∧ h.handler = some sub ∧ (h.sub sub).pc = c.hbase ∧ h.hang = g.hang
    ∧ h.win = g.win ∧ h.tags = g.tags ∧ h.vst = g.vst ∧ h.s = g.s ∧ h.p = g.p ∧ h.slots = g.slots :=
  ⟨rfl, rfl, rfl, pc_subPc .., rfl, rfl, rfl, rfl, rfl, rfl, rfl⟩

/-- The lanes that the handler's entry freezes. -/
def frozenBy (g : Group) (sub : Nat) : Mask := (g.subs.filter (·.1 != sub)).foldl (fun m (_, y) => m ||| y.mask) 0

/-- The record of a handler's entry. -/
def entryOf (g : Group) (sub : Nat) (x : Trap) : HEntry :=
  { led := none, cause := x.cause, page := page64 x.tval.toNat, skip := x.cause == Cause.preempt && g.wskipNow.contains sub }

theorem enterHandler_eq (s : State) (gid sub : Nat) (tepc : W64) (x : Trap) : enterHandler s gid sub tepc x none =
    let g := match x.memue with | some m => (s.group gid).dropMemue m | none => s.group gid
    let held := match g.pre with | .asked _ => true | _ => false
    s.setGroup gid (entered g sub (handlerCsrs g.csr x.word tepc x.tval held) (frozenBy g sub) (entryOf g sub x)) := rfl

/-- A PREEMPT's entry, its delivery on record. -/
theorem enterHandler_served {s : State} {gid sub : Nat} {tepc : W64} {x : Trap} {g : Group} {now : Nat} (hg : s.group gid = g)
    (hm : x.memue = none) (hp : g.pre = .served now) : enterHandler s gid sub tepc x none =
      s.setGroup gid (entered g sub (handlerCsrs g.csr x.word tepc x.tval false) (frozenBy g sub) (entryOf g sub x)) := by
  rw [enterHandler_eq, hm, hg]
  dsimp only
  rw [hp]
/-- The state in which a PREEMPT's trap is taken: the group's turn has started, and it waits for nothing. -/
def unheld (s : State) (gid : Nat) (g h : Group) : State :=
  let s := foldWaits (s.setGroup gid (served h s.m.ftime)) g gid
  { s with waiters := s.waiters.filter fun w => !(w.gid == gid && w.sub == taker h) }

theorem unheld_done (s : State) (gid : Nat) (g h : Group) : (unheld s gid g h).group gid = { served h s.m.ftime with wrote := [] }
    ∧ OthersKept s (unheld s gid g h) gid ∧ RodsKept s (unheld s gid g h) :=
  ⟨State.group_setGroup_same .., fun _ hk => State.group_setGroup_other _ _ hk, rodsKept_setGroup _ _ _⟩

/-- The trap of a PREEMPT (R273). -/
def preemptTrap (budget : Nat) : Trap := { cause := Cause.preempt, tval := BitVec.ofNat 64 budget }

theorem preemptTrap_word (budget : Nat) : (preemptTrap budget).word = 0x18 := by
  simp [Trap.word, preemptTrap, Cause.preempt]

theorem deliverPreempt_taken (s : State) (gid : Nat) (g : Group) : deliverPreempt s gid g =
    enterHandler (unheld (leaveRec s g) gid g g.startTurn) gid (taker g.startTurn) (g.startTurn.sub (taker g.startTurn)).pc
      (preemptTrap g.startTurn.csr.budget) none := by
  unfold deliverPreempt leaveRec
  generalize g.startTurn = h
  cases g.hang <;> rfl

/-- A PREEMPT that a group takes changes nothing of another group, nor where a rod stands. -/
theorem deliverPreempt_done (s : State) (gid : Nat) : PreemptTaken s (deliverPreempt s gid (s.group gid)) gid
    ∧ RodsKept s (deliverPreempt s gid (s.group gid)) := by
  obtain ⟨leaves, rods⟩ := leaveRec_rest s (s.group gid)
  have records := startTurn_records (s.group gid)
  rw [deliverPreempt_taken]
  dsimp only [PreemptTaken]
  revert records
  generalize (s.group gid).startTurn = h
  intro records
  rw [TurnRecords] at records
  obtain ⟨csr, win, tags, vst, scal, pred, slots⟩ : h.csr = (s.group gid).csr ∧ h.win = (s.group gid).win ∧ h.tags = (s.group gid).tags
      ∧ h.vst = (s.group gid).vst ∧ h.s = (s.group gid).s ∧ h.p = (s.group gid).p ∧ h.slots = (s.group gid).slots := by
    rw [records]; exact ⟨rfl, rfl, rfl, rfl, rfl, rfl, rfl⟩
  obtain ⟨here, others, rodsU⟩ := unheld_done (leaveRec s (s.group gid)) gid (s.group gid) h
  rw [enterHandler_served here rfl rfl, preemptTrap_word]
  set u := unheld (leaveRec s (s.group gid)) gid (s.group gid) h
  obtain ⟨fcsr, fpre, fhandler, fpc, fhang, fwin, ftags, fvst, fs, fp, fslots⟩ := entered_fields
    { served h (leaveRec s (s.group gid)).m.ftime with wrote := [] } (taker h)
    (handlerCsrs h.csr 0x18 (h.sub (taker h)).pc (preemptTrap h.csr.budget).tval false)
    (frozenBy { served h (leaveRec s (s.group gid)).m.ftime with wrote := [] } (taker h))
    (entryOf { served h (leaveRec s (s.group gid)).m.ftime with wrote := [] } (taker h) (preemptTrap h.csr.budget))
  have now : (leaveRec s (s.group gid)).m.ftime = s.m.ftime := by rw [leaves]
  refine ⟨⟨?_, ?_, ?_, ?_, ?_, ?_, ?_, ?_, ?_, ?_, ?_, fun k hk => ?_⟩, fun n => ?_⟩
  case refine_12 =>
    rw [State.group_setGroup_other _ _ hk, others k hk, leaves]; rfl
  case refine_13 => exact (rodsKept_setGroup u gid _ n).trans ((rodsU n).trans (rods n))
  all_goals rw [State.group_setGroup_same]
  · exact fcsr.trans (by rw [csr]; rfl)
  · exact fpre.trans (by rw [now]; rfl)
  · exact fhandler
  · exact fpc.trans (by rw [csr]; rfl)
  · exact fhang
  · exact fwin.trans win
  · exact ftags.trans tags
  · exact fvst.trans vst
  · exact fs.trans scal
  · exact fp.trans pred
  · exact fslots.trans slots

end Sys2Proof.Proofs
end

section
/-!
PROOF. Turns, PREEMPT and slice ends (R26, R35, R249, R272 to R276).
-/

namespace Sys2Proof.Proofs

open Sys2Proof.Machine Sys2Proof.Claim

theorem exec_groupTurn (core rod : Nat) (s : State) : exec (.groupTurn core rod) s = execGroupTurn core rod s := rfl
theorem exec_preemptDelivery (gid : Nat) (s : State) : exec (.preemptDelivery gid) s = execPreemptDelivery gid s := rfl
theorem exec_preemptGraceExpiry (gid : Nat) (s : State) : exec (.preemptGraceExpiry gid) s = execPreemptGraceExpiry gid s := rfl
theorem exec_forcedSave (gid : Nat) (s : State) : exec (.forcedSave gid) s = execForcedSave gid s := rfl
theorem exec_spatialPreemption (p id : Nat) (cores : List Nat) (s : State) :
    exec (.spatialPreemption p id cores) s = execSpatialPreemption p id cores s := rfl

theorem look_group {s : State} {gid : Nat} (h : (Tbl.look s.groups gid).isSome = true) : Tbl.look s.groups gid = some (s.group gid) := by
  obtain ⟨g, hg⟩ := Option.isSome_iff_exists.1 h
  rw [State.group, Tbl.get, hg]; rfl

/-! ### What a turn finds -/

/-- A PREEMPT waits for delivery at this turn (R273). -/
def Due (g : Group) : Prop := (∃ t, g.pre = .asked t) ∧ g.csr.m = false ∧ g.saving = none

/-- Grace or budget is over (R274, R276). -/
def Late (g : Group) (now : Nat) : Prop := g.saving = none ∧ ∃ t, g.pre = .asked t ∧ g.csr.m = true ∧ t + 20000 ≤ now
  ∨ g.pre = .served t ∧ t + g.csr.budget ≤ now

/-- The group waits for a coalescer record (R266). -/
def Stuck (s : State) (g : Group) : Prop := g.hang ≠ .no ∧ (g.hang = .full → 32 ≤ (s.core g.ident.core).recs.length)

theorem overdue_iff (g : Group) (now : Nat) : g.overdue now = true ↔ Late g now := by
  rw [Group.overdue, Late, Bool.and_eq_true, Option.isNone_iff_eq_none]
  refine and_congr_right fun _ => ?_
  cases g.pre <;> simp

def isAsked (g : Group) : Bool := match g.pre with | .asked _ => !g.csr.m && g.saving.isNone | _ => false

theorem isAsked_iff (g : Group) : isAsked g = true ↔ Due g := by
  rw [isAsked, Due]
  cases g.pre <;> simp

def isStuck (s : State) (g : Group) : Bool :=
  match g.hang with | .no => false | .full => decide (32 ≤ (s.core g.ident.core).recs.length) | _ => true

theorem isStuck_iff (s : State) (g : Group) : isStuck s g = true ↔ Stuck s g := by
  rw [isStuck, Stuck]
  cases g.hang <;> simp

/-- The sub-groups that a turn of `h` tries. -/
def tried (s : State) (gid : Nat) (g h : Group) : State :=
  let s := foldWaits (s.setGroup gid { h with hang := .no }) g gid
  match candidates { h with hang := .no } with
  | [] => s
  | x :: rest => { s with issue := some ⟨.group gid x, rest⟩ }

theorem turn_eq {s : State} {gid : Nat} {g : Group} (h : Tbl.look s.groups gid = some g) : turn s gid =
    if g.overdue s.m.ftime then beginSave s gid (BitVec.allOnes 64) true
    else if isAsked g then deliverPreempt s gid g
    else if g.saving.isSome || isStuck s g then s
    else tried s gid g g.startTurn := by
  rw [turn, h]
  rfl

theorem waiters_shape {s v : State} (h : v = { s with groups := v.groups, cores := v.cores }) (ws : List Waiter) :
    ({ v with waiters := ws } : State) = { s with groups := v.groups, cores := v.cores, waiters := ws } := by rw [h]

/-- A turn that tries sub-groups: fusion and unparking are done, the waits of folded sub-groups have passed on. -/
theorem tried_done (s : State) (gid : Nat) (g h : Group) : let t := tried s gid g h
    t.group gid = { h with hang := .no, wrote := [] } ∧ OthersKept s t gid ∧ MemoriesSame s t ∧ RodsKept s t
      ∧ (s.issue = none → t.issue = match candidates { h with hang := .no } with | [] => none | x :: rest => some ⟨.group gid x, rest⟩) := by
  set u := foldWaits (s.setGroup gid { h with hang := .no }) g gid
  have same : u.group gid = { h with hang := .no, wrote := [] } := State.group_setGroup_same ..
  have others : OthersKept s u gid := fun _ hk => State.group_setGroup_other _ _ hk
  have shape : u = { s with groups := u.groups, cores := u.cores, waiters := u.waiters } :=
    waiters_shape (State.setGroup_shape ..) _
  have memories : MemoriesSame s u := memoriesSame_of_shape (by rw [shape])
  have rods : RodsKept s u := rodsKept_setGroup _ _ _
  have issue : u.issue = s.issue := by rw [shape]
  cases c : candidates { h with hang := .no } with
  | nil =>
    rw [show tried s gid g h = u by rw [tried, c]]
    exact ⟨same, others, memories, rods, fun e => issue.trans e⟩
  | cons x rest =>
    rw [show tried s gid g h = { u with issue := some ⟨.group gid x, rest⟩ } by rw [tried, c]]
    exact ⟨same, others, memories, rods, fun _ => rfl⟩

/-! ### Which position takes the turn -/

theorem findSome?_range {α : Type} {f : Nat → Option α} {n i : Nat} (hi : i < n) {v : α} (here : f i = some v) (before : ∀ j < i, f j = none) :
    (List.range n).findSome? f = some v := by
  refine List.findSome?_eq_some_iff.2 ⟨List.range i, i, (List.range n).drop (i + 1), ?_, here, fun j hj => before j (List.mem_range.1 hj)⟩
  have split := (List.take_append_drop i (List.range n)).symm
  rwa [List.take_range, Nat.min_eq_left hi.le, List.drop_eq_getElem_cons (by simpa using hi), List.getElem_range] at split

theorem nextPos_some {s : State} {core rod p : Nat} (h : TurnAt s core rod p) :
    nextPos (s.core core) rod = some (p, Tbl.get {} (s.core core).binds (16 * p + rod)) := by
  obtain ⟨i, hi, rfl, bound, before⟩ := h
  rw [nextPos, List.findSome?_map]
  exact findSome?_range hi (if_pos bound) fun j hj => if_neg (before j hj)

theorem nextPos_none {c : Core} {rod : Nat} (h : ∀ p < 8, (Tbl.get {} c.binds (16 * p + rod)).state ≠ 1) : nextPos c rod = none := by
  rw [nextPos, List.findSome?_map]
  exact List.findSome?_eq_none_iff.2 fun i _ => if_neg (h _ (Nat.mod_lt _ (by decide)))

/-- The rod stands at the position after the one that takes its turn. -/
def stepped (s : State) (core rod p : Nat) : State :=
  s.setCore core { s.core core with rodPos := Tbl.put 0 (s.core core).rodPos rod ((p + 1) % 8) }

theorem groupTurn_eq {s : State} {core rod p : Nat} (hr : rod < 16) (h : NothingSwept s) (ht : TurnAt s core rod p) :
    exec (.groupTurn core rod) s = .next (turn (stepped s core rod p) (Tbl.get {} (s.core core).binds (16 * p + rod)).gid) := by
  rw [exec_groupTurn, execGroupTurn, sweep_fixed h]
  simp only [if_neg (Nat.not_le.2 hr), nextPos_some ht]
  rfl

theorem stepped_rodPos {s t : State} {core rod p : Nat} (h : RodsKept (stepped s core rod p) t) :
    Tbl.get 0 (t.core core).rodPos rod = (p + 1) % 8 := by
  rw [h core, stepped, State.core_setCore_same]
  exact Tbl.get_put_same ..

/-! ### The steps -/

theorem not_overdue_of_due {g : Group} {now : Nat} (h : Due g) : ¬ g.overdue now = true := by
  obtain ⟨⟨t, asked⟩, mask, -⟩ := h
  rw [overdue_iff]
  rintro ⟨-, u, ⟨-, m, -⟩ | ⟨served, -⟩⟩
  · rw [mask] at m; cases m
  · rw [asked] at served; cases served

section
variable {s : State} {core rod p gid : Nat}

/-- A rod's turn, in a state with nothing to sweep away (R26). -/
theorem groupTurn_done (hr : rod < 16) (swept : NothingSwept s) (idle : s.issue = none) (ht : TurnAt s core rod p)
    (hgid : gid = (Tbl.get {} (s.core core).binds (16 * p + rod)).gid) (live : (Tbl.look s.groups gid).isSome = true) :
    let g := s.group gid
    let moved := fun (t : State) => Tbl.get 0 (t.core core).rodPos rod = (p + 1) % 8
    (Due g → ∃ t, exec (.groupTurn core rod) s = .next t ∧ moved t ∧ PreemptTaken s t gid)
    ∧ (Late g s.m.ftime → ∃ t, exec (.groupTurn core rod) s = .next t ∧ moved t ∧ MemoriesSame s t ∧ OthersKept s t gid ∧ t.issue = none
      ∧ t.group gid = { g with saving := some ⟨BitVec.allOnes 64, true⟩, csr := { g.csr with pend := false }, wrote := [] })
    ∧ (¬ Due g → ¬ Late g s.m.ftime → g.saving ≠ none ∨ Stuck s g →
        ∃ t, exec (.groupTurn core rod) s = .next t ∧ moved t ∧ t = { s with cores := t.cores })
    ∧ (¬ Due g → ¬ Late g s.m.ftime → g.saving = none → ¬ Stuck s g → ∃ t, exec (.groupTurn core rod) s = .next t ∧ moved t
        ∧ t.group gid = { g.startTurn with hang := .no, wrote := [] } ∧ OthersKept s t gid ∧ MemoriesSame s t
        ∧ t.issue = match candidates { g.startTurn with hang := .no } with | [] => none | x :: rest => some ⟨.group gid x, rest⟩) := by
  intro g moved
  set u := stepped s core rod p
  have run : exec (.groupTurn core rod) s = .next (turn u gid) := hgid ▸ groupTurn_eq hr swept ht
  have look : Tbl.look u.groups gid = some g := look_group live
  have stuckSame : isStuck u g = true ↔ Stuck s g := by
    have recs : (u.core g.ident.core).recs = (s.core g.ident.core).recs := by
      by_cases h : g.ident.core = core
      · rw [h, show u = stepped s core rod p from rfl, stepped, State.core_setCore_same]
      · rw [show u = stepped s core rod p from rfl, stepped, State.core_setCore_other _ _ h]
    rw [isStuck_iff, Stuck, Stuck, recs]
  have eq := turn_eq look
  refine ⟨fun due => ?_, fun late => ?_, fun due late stuck => ?_, fun due late saving stuck => ?_⟩
  · rw [if_neg (not_overdue_of_due due), if_pos ((isAsked_iff g).2 due)] at eq
    obtain ⟨taken, rods⟩ := deliverPreempt_done u gid
    exact ⟨_, run, eq ▸ stepped_rodPos rods, eq ▸ taken⟩
  · rw [if_pos ((overdue_iff g u.m.ftime).2 late)] at eq
    obtain ⟨memories, others, issue, rods, group⟩ := beginSave_done u gid (BitVec.allOnes 64) true
    rw [← eq] at memories others issue rods group
    exact ⟨_, run, stepped_rodPos rods, memories, others, issue.trans idle, group⟩
  · have stays : (g.saving.isSome || isStuck u g) = true := by
      rw [Bool.or_eq_true, Option.isSome_iff_ne_none, stuckSame]; exact stuck
    rw [if_neg (mt (overdue_iff g u.m.ftime).1 late), if_neg (mt (isAsked_iff g).1 due), if_pos stays] at eq
    exact ⟨_, run, by rw [eq]; exact stepped_rodPos fun _ => rfl, by rw [eq]; rfl⟩
  · have goes : ¬ (g.saving.isSome || isStuck u g) = true := by
      rw [Bool.or_eq_true, Option.isSome_iff_ne_none, stuckSame]; exact fun h => h.elim (· saving) stuck
    rw [if_neg (mt (overdue_iff g u.m.ftime).1 late), if_neg (mt (isAsked_iff g).1 due), if_neg goes] at eq
    obtain ⟨group, others, memories, rods, issue⟩ := tried_done u gid g g.startTurn
    rw [← eq] at group others memories rods issue
    exact ⟨_, run, stepped_rodPos rods, group, others, memories, issue idle⟩

end

/-- PREEMPT's delivery, the end of grace and the end of a budget, as steps of their own (R273, R274, R276). -/
theorem preempt_steps {s : State} {gid : Nat} (live : (Tbl.look s.groups gid).isSome = true) :
    let g := s.group gid
    let saves := fun (i : Instr) => ∃ t, exec i s = .next t ∧ MemoriesSame s t ∧ OthersKept s t gid
      ∧ t.group gid = { g with saving := some ⟨BitVec.allOnes 64, true⟩, csr := { g.csr with pend := false }, wrote := [] }
    (∀ t0, g.pre = .asked t0 →
      (g.csr.m = false → g.saving = none → ∃ t, exec (.preemptDelivery gid) s = .next t ∧ PreemptTaken s t gid)
      ∧ (g.csr.m = true → exec (.preemptDelivery gid) s = .next s)
      ∧ (g.csr.m = true → g.saving = none → t0 + 20000 ≤ s.m.ftime → saves (.preemptGraceExpiry gid))
      ∧ (s.m.ftime < t0 + 20000 ∨ g.csr.m = false → exec (.preemptGraceExpiry gid) s = .next s))
    ∧ ∀ t0, g.pre = .served t0 →
      (g.saving = none → t0 + g.csr.budget ≤ s.m.ftime → saves (.forcedSave gid))
      ∧ (s.m.ftime < t0 + g.csr.budget ∨ g.saving ≠ none → exec (.forcedSave gid) s = .next s) := by
  intro g saves
  have look := look_group live
  have save : ∀ i, exec i s = .next (beginSave s gid (BitVec.allOnes 64) true) → saves i := fun i run => by
    obtain ⟨memories, others, -, -, group⟩ := beginSave_done s gid (BitVec.allOnes 64) true
    exact ⟨_, run, memories, others, group⟩
  refine ⟨fun t0 asked => ⟨fun m saving => ?_, fun m => ?_, fun m saving late => save _ ?_, fun early => ?_⟩,
    fun t0 served => ⟨fun saving late => save _ ?_, fun early => ?_⟩⟩
  · refine ⟨_, ?_, (deliverPreempt_done s gid).1⟩
    simp only [exec_preemptDelivery, execPreemptDelivery, look, show (s.group gid).pre = _ from asked, show (s.group gid).csr.m = _ from m,
      show (s.group gid).saving = _ from saving]
    rfl
  · simp only [exec_preemptDelivery, execPreemptDelivery, look, show (s.group gid).pre = _ from asked, show (s.group gid).csr.m = _ from m]
    rfl
  · simp only [exec_preemptGraceExpiry, execPreemptGraceExpiry, look, show (s.group gid).pre = _ from asked,
      show (s.group gid).csr.m = _ from m, show (s.group gid).saving = _ from saving, late]
    rfl
  · simp only [exec_preemptGraceExpiry, execPreemptGraceExpiry, look, show (s.group gid).pre = _ from asked]
    rw [if_neg]
    simp only [Bool.and_eq_true, decide_eq_true_eq]
    rintro ⟨⟨m, -⟩, late⟩
    rcases early with early | early
    · omega
    · rw [show g.csr.m = true from m] at early; cases early
  · simp only [exec_forcedSave, execForcedSave, look, show (s.group gid).pre = _ from served, show (s.group gid).saving = _ from saving]
    exact congrArg _ (if_pos (by simpa using late))
  · simp only [exec_forcedSave, execForcedSave, look, show (s.group gid).pre = _ from served]
    rw [if_neg]
    simp only [Bool.and_eq_true, Option.isNone_iff_eq_none, decide_eq_true_eq]
    rintro ⟨saving, late⟩
    rcases early with early | early
    · exact absurd late (Nat.not_le.2 early)
    · exact early saving

/-! ### Slice ends -/

/-- A group with a PREEMPT requested of it (R273, R274). -/
def requested (g : Group) (now : Nat) : Group := { g with pre := .asked now, csr := { g.csr with pend := g.csr.m }, wrote := [] }

/-- Groups and cores apart, nothing differs. -/
def OnlySlots (s t : State) : Prop := t = { s with groups := t.groups, cores := t.cores }

theorem OnlySlots.trans {a b c : State} (h : OnlySlots a b) (k : OnlySlots b c) : OnlySlots a c := by
  unfold OnlySlots at *
  rw [k, h]

theorem OnlySlots.m {s t : State} (h : OnlySlots s t) : t.m = s.m := by rw [OnlySlots] at h; rw [h]

theorem askPreempt_shape (s : State) (k : Nat) : OnlySlots s (askPreempt s k) := by
  unfold askPreempt
  split
  · rfl
  · split
    · rfl
    · exact State.setGroup_shape ..

theorem askPreempt_other (s : State) {k j : Nat} (h : j ≠ k) : (askPreempt s k).group j = s.group j := by
  unfold askPreempt
  split
  · rfl
  · split
    · rfl
    · exact State.group_setGroup_other _ _ h

theorem askPreempt_again {s : State} {k : Nat} (live : (Tbl.look s.groups k).isSome = true) (h : (s.group k).pre ≠ .no) : askPreempt s k = s := by
  rw [askPreempt, look_group live]
  dsimp only
  rw [bne_iff_ne.2 h, Bool.true_or, if_pos rfl]

theorem askPreempt_first {s : State} {k : Nat} (live : (Tbl.look s.groups k).isSome = true) (hp : (s.group k).pre = .no)
    (hs : (s.group k).saving = none) : (askPreempt s k).group k = requested (s.group k) s.m.ftime := by
  rw [askPreempt, look_group live]
  dsimp only
  rw [if_neg (by rw [hp, hs]; decide), State.group_setGroup_same]
  rfl

theorem look_askPreempt {s : State} {k j : Nat} (live : (Tbl.look s.groups j).isSome = true) :
    (Tbl.look (askPreempt s k).groups j).isSome = true := by
  unfold askPreempt
  split
  · exact live
  · split
    · exact live
    · by_cases h : j = k
      · subst h; simp
      · rw [State.setGroup_groups, Tbl.look_set_other _ _ h]; exact live

theorem askAll_shape (ks : List Nat) : ∀ s : State, OnlySlots s (ks.foldl askPreempt s) := by
  induction ks with
  | nil => exact fun _ => rfl
  | cons k ks ih => exact fun s => (askPreempt_shape s k).trans (ih _)

/-- A group with a request stays as it is while others are asked. -/
theorem askAll_kept (ks : List Nat) : ∀ {s : State} {gid : Nat}, (Tbl.look s.groups gid).isSome = true → (s.group gid).pre ≠ .no →
    (ks.foldl askPreempt s).group gid = s.group gid := by
  induction ks with
  | nil => exact fun _ _ => rfl
  | cons k ks ih =>
    intro s gid live asked
    have same : (askPreempt s k).group gid = s.group gid := by
      by_cases h : gid = k
      · subst h; rw [askPreempt_again live asked]
      · exact askPreempt_other s h
    rw [List.foldl_cons, ih (look_askPreempt live) (by rw [same]; exact asked), same]

theorem askAll_group (ks : List Nat) : ∀ {s : State} {gid : Nat}, gid ∈ ks → (Tbl.look s.groups gid).isSome = true →
    (s.group gid).pre = .no → (s.group gid).saving = none → (ks.foldl askPreempt s).group gid = requested (s.group gid) s.m.ftime := by
  induction ks with
  | nil => intro s gid h; cases h
  | cons k ks ih =>
    intro s gid mem live pre saving
    rw [List.foldl_cons]
    by_cases h : gid = k
    · subst h
      rw [askAll_kept ks (look_askPreempt live), askPreempt_first live pre saving]
      rw [askPreempt_first live pre saving]; exact Pre.noConfusion
    · have same := askPreempt_other s h
      rw [ih ((List.mem_cons.1 mem).resolve_left h) (look_askPreempt live) (by rw [same]; exact pre) (by rw [same]; exact saving), same,
        (askPreempt_shape s k).m]

/-- The groups of a launch that a request on all its cores vacates (R272). -/
theorem vacate_done {s : State} {lid : Nat} {cores : List Nat} (all : ∀ c, c ∈ cores ↔ c ∈ coresOf s lid) : MemoriesSame s (vacate s lid cores)
    ∧ ∀ x ∈ s.teams, x.2.lid = lid → ∀ gid ∈ x.2.gids, (Tbl.look s.groups gid).isSome = true → (s.group gid).pre = .no →
        (s.group gid).saving = none → (vacate s lid cores).group gid = requested (s.group gid) s.m.ftime := by
  set mine := s.teams.filter fun c => c.2.lid == lid && !c.2.gids.isEmpty
  set hit := (mine.filter fun c => cores.contains c.2.core).map fun c => c.2.index - c.2.member
  set gids := (mine.filter fun c => hit.contains (c.2.index - c.2.member)).flatMap fun c => c.2.gids
  have groups : ∀ k, (vacate s lid cores).group k = (gids.foldl askPreempt s).group k := fun k => by
    unfold vacate; dsimp only; split <;> rfl
  have shape := askAll_shape gids s
  refine ⟨?_, fun x hx lid_ gid hg live pre saving => ?_⟩
  · refine memoriesSame_of_shape ?_
    unfold vacate
    dsimp only
    split
    · rw [State.setLaunch, shape]
    · rw [shape]
  · rw [groups]
    refine askAll_group gids ?_ live pre saving
    have here : x ∈ mine := List.mem_filter.2 ⟨hx, by simp [lid_, List.ne_nil_of_mem hg]⟩
    have core : cores.contains x.2.core = true := by
      rw [List.contains_iff_mem, all, coresOf, List.mem_dedup]
      exact List.mem_map_of_mem (f := fun c : Nat × Team => c.2.core) here
    have spread : hit.contains (x.2.index - x.2.member) = true := by
      rw [List.contains_iff_mem]
      exact List.mem_map_of_mem (f := fun c : Nat × Team => c.2.index - c.2.member) (List.mem_filter.2 ⟨here, core⟩)
    exact List.mem_flatMap.2 ⟨x, List.mem_filter.2 ⟨here, spread⟩, hg⟩

theorem spatialPreemption_eq {s : State} {p id lid : Nat} {cores : List Nat} (swept : NothingSwept s) (found : findLaunch s p id = some lid)
    (all : ∀ c, c ∈ cores ↔ c ∈ coresOf s lid) :
    exec (.spatialPreemption p id cores) s = .next (if sliceEnds s lid then vacate s lid cores else s) := by
  have same : (coresOf s lid).all cores.contains = true ∧ cores.all (coresOf s lid).contains = true := by
    simp only [List.all_eq_true, List.contains_iff_mem]
    exact ⟨fun c => (all c).2, fun c => (all c).1⟩
  rw [exec_spatialPreemption, execSpatialPreemption, sweep_fixed swept]
  simp only [found, same.1, same.2, Bool.and_true]

/-- Settles O50: a turn by what it finds, PREEMPT's delivery by what the handler's entry writes, a slice end by the requests
to every group of the launch. -/
theorem turnsAndPreemption : Obligations.TurnsAndPreemption := by
  intro s
  refine ⟨fun core rod hr swept idle => ⟨fun none_ => ?_, fun p ht => ?_⟩,
    fun gid live => preempt_steps live, fun p id lid cores swept found all => ⟨fun stays => ?_, fun ends => ?_⟩⟩
  · rw [exec_groupTurn, execGroupTurn, sweep_fixed swept]
    simp only [if_neg (Nat.not_le.2 hr), nextPos_none none_]
  · intro gid g due late stuck moved live
    obtain ⟨taken, saved, waits, goes⟩ := groupTurn_done hr swept idle ht rfl live
    refine ⟨taken, saved, waits, fun notDue notLate saving notStuck => ?_⟩
    intro h all tries
    obtain ⟨t, run, rod_, group, others, memories, issue⟩ := goes notDue notLate saving notStuck
    exact ⟨t, run, rod_, group, others, memories, issue⟩
  · rw [spatialPreemption_eq swept found all, stays]; rfl
  · obtain ⟨memories, groups⟩ := vacate_done all
    refine ⟨_, by rw [spatialPreemption_eq swept found all, ends]; rfl, memories, fun x hx lid_ gid hg live pre saving => ?_⟩
    rw [groups x hx lid_ gid hg live pre saving]
    exact ⟨rfl, rfl⟩

end Sys2Proof.Proofs
end

section
/-!
PROOF. Translations that the TLB holds (R263), and what stores of the management core leave alone (R244, R293).
-/

namespace Sys2Proof.Proofs

open Sys2Proof.Machine Sys2Proof.Claim

/-! ### What a translation or a store to memory may change -/

/-- Memory, the domain's memory and what translation records apart, nothing differs. -/
def MemoryOnly (s t : State) : Prop :=
  t = { s with mem := t.mem, domainMem := t.domainMem, free := t.free, tlb := t.tlb, rootPages := t.rootPages }

theorem MemoryOnly.refl (s : State) : MemoryOnly s s := rfl

theorem MemoryOnly.trans {a b c : State} (h : MemoryOnly a b) (k : MemoryOnly b c) : MemoryOnly a c := by
  unfold MemoryOnly at *
  rw [k, h]

theorem MemoryOnly.fields {s t : State} (h : MemoryOnly s t) : t.launches = s.launches ∧ t.parts = s.parts ∧ t.reverse = s.reverse
    ∧ t.nextId = s.nextId ∧ t.m = s.m ∧ t.teams = s.teams ∧ t.hostMem = s.hostMem ∧ t.badLinks = s.badLinks := by
  rw [MemoryOnly] at h
  refine ⟨?_, ?_, ?_, ?_, ?_, ?_, ?_, ?_⟩ <;> rw [h]

theorem markPage_shape (s : State) (n : Nat) : markPage s n = { s with mem := (markPage s n).mem } := by
  unfold markPage
  split
  · rfl
  · dsimp only
    split <;> rfl

/-- Marks of pages, one after another. -/
def markAll (s : State) (ns : List Nat) : State := ns.foldl markPage s

theorem markAll_shape (ns : List Nat) : ∀ s : State, markAll s ns = { s with mem := (markAll s ns).mem } := by
  induction ns with
  | nil => exact fun _ => rfl
  | cons n ns ih =>
    intro s
    have step : markAll s (n :: ns) = markAll (markPage s n) ns := rfl
    rw [step, ih, markPage_shape]

/-- The pages that a write touches. -/
def pagesOf (a n : Nat) : List Nat := (List.range ((a + n + 65535) / 65536 - a / 65536)).map (a / 65536 + ·)

theorem markDirty_eq (s : State) (a n : Nat) : markDirty s a n = markAll s (pagesOf a n) := by
  rw [markAll, pagesOf, List.foldl_map]; rfl

theorem markDirty_shape (s : State) (a n : Nat) : markDirty s a n = { s with mem := (markDirty s a n).mem } := by
  rw [markDirty_eq]; exact markAll_shape _ s

/-- Two states mark the same bits (R293). -/
def SameMarks (s u : State) : Prop := u.reverse = s.reverse ∧ ∀ k, (u.part k).e = (s.part k).e ∧ (u.part k).rounds = (s.part k).rounds

theorem markPage_congr {s u : State} (h : SameMarks s u) (hm : u.mem = s.mem) (n : Nat) : (markPage u n).mem = (markPage s n).mem := by
  obtain ⟨rev, parts⟩ := h
  unfold markPage
  rw [rev]
  cases Tbl.look s.reverse n with
  | none => exact hm
  | some c =>
    obtain ⟨e, rounds⟩ := parts c.1
    simp only [Part.bitmap, e, rounds, hm]
    split
    · rfl
    · exact hm

theorem markAll_congr (ns : List Nat) : ∀ {s u : State}, SameMarks s u → u.mem = s.mem → (markAll u ns).mem = (markAll s ns).mem := by
  induction ns with
  | nil => exact fun _ hm => hm
  | cons n ns ih =>
    intro s u h hm
    have step : ∀ v, markAll v (n :: ns) = markAll (markPage v n) ns := fun _ => rfl
    rw [step, step]
    refine ih ?_ (markPage_congr h hm n)
    rw [markPage_shape u, markPage_shape s]
    exact h

theorem markAll_idle (ns : List Nat) : ∀ {s : State}, (∀ p, (s.part p).e.state ≠ 3 ∧ (s.part p).e.state ≠ 4) → (markAll s ns).mem = s.mem := by
  induction ns with
  | nil => exact fun _ => rfl
  | cons n ns ih =>
    intro s h
    have same : markPage s n = s := by
      unfold markPage
      split
      · rfl
      · next p k _ => simp [h p]
    rw [show markAll s (n :: ns) = markAll (markPage s n) ns from rfl, same, ih h]

/-! ### Translations -/

theorem cleared_done {s t : State} {mem : Mem} {roots : List (Nat × Nat)}
    (h : t = { ({ s with mem := mem, rootPages := roots } : State) with mem := t.mem }) : MemoryOnly s t ∧ t.tlb = s.tlb := by
  rw [h]; exact ⟨rfl, rfl⟩

/-- One ROOT page cleared and recorded (R192). -/
def clearRoot (e : TlbE) (s : State) (n : Nat) : State :=
  let a := e.final + (65536 * n - e.ia)
  markDirty { s with mem := s.mem.clear a 65536, rootPages := s.rootPages ++ [(e.part, n)] } a 65536

theorem clearRoot_done (e : TlbE) (s : State) (n : Nat) : MemoryOnly s (clearRoot e s n) ∧ (clearRoot e s n).tlb = s.tlb :=
  cleared_done (markDirty_shape ..)

theorem newRoots_done (s : State) (e : TlbE) : MemoryOnly s (newRoots s e) ∧ (newRoots s e).tlb = s.tlb := by
  have each : ∀ (ns : List Nat) (s : State), MemoryOnly s (ns.foldl (clearRoot e) s) ∧ (ns.foldl (clearRoot e) s).tlb = s.tlb := fun ns => by
    induction ns with
    | nil => exact fun s => ⟨rfl, rfl⟩
    | cons n ns ih =>
      intro s
      obtain ⟨here, tlb⟩ := clearRoot_done e s n
      obtain ⟨rest, tlb'⟩ := ih (clearRoot e s n)
      exact ⟨here.trans rest, tlb'.trans tlb⟩
  exact each _ s

theorem tlbEntry_done {s t : State} {p va : Nat} {e : TlbE} (h : tlbEntry s p va = .ok (t, e)) : MemoryOnly s t ∧ (t = s →
    s.tlb.find? (fun e => e.part == p && decide (e.va ≤ va) && decide (va < e.va + e.size)) = some e) := by
  unfold tlbEntry at h
  split at h
  · next found => cases h; exact ⟨rfl, fun _ => found⟩
  · split at h
    · next e' _ =>
      cases h
      obtain ⟨only, tlb⟩ := newRoots_done { s with tlb := s.tlb ++ [e] } e
      refine ⟨MemoryOnly.trans (b := { s with tlb := s.tlb ++ [e] }) rfl only, fun same => ?_⟩
      have := congrArg (fun v : State => v.tlb.length) same
      simp [tlb] at this
    · cases h

theorem translate_ok {s t : State} {p va : Nat} {w f : Bool} {e : TlbE} : Machine.translate s p va w f = .ok (t, e) ↔
    tlbEntry s p va = .ok (t, e) ∧ ((w && !e.w1) || (f && !e.x1)) = false ∧ ((w && !e.w2) || (f && !e.x2)) = false
      ∧ (e.remote && !imported t p (e.final + (va - e.va))) = false := by
  unfold Machine.translate
  cases h : tlbEntry s p va with
  | error x => simp [throw, throwThe, MonadExceptOf.throw]
  | ok c =>
    obtain ⟨u, d⟩ := c
    simp only [throw, throwThe, MonadExceptOf.throw, bind, Except.bind, pure, Except.pure]
    by_cases c1 : ((w && !d.w1) || (f && !d.x1)) = true
    · rw [if_pos c1]
      exact ⟨fun h => (by cases h), fun ⟨h, c, _⟩ => by cases h; rw [c1] at c; cases c⟩
    · rw [if_neg c1]
      by_cases c2 : ((w && !d.w2) || (f && !d.x2)) = true
      · rw [if_pos c2]
        exact ⟨fun h => (by cases h), fun ⟨h, _, c, _⟩ => by cases h; rw [c2] at c; cases c⟩
      · rw [if_neg c2]
        by_cases c3 : (d.remote && !imported u p (d.final + (va - d.va))) = true
        · rw [if_pos c3]
          exact ⟨fun h => (by cases h), fun ⟨h, _, _, c⟩ => by cases h; rw [c3] at c; cases c⟩
        · rw [if_neg c3]
          refine ⟨fun h => ?_, fun ⟨h, _⟩ => by cases h; rfl⟩
          cases h
          exact ⟨rfl, Bool.eq_false_iff.2 c1, Bool.eq_false_iff.2 c2, Bool.eq_false_iff.2 c3⟩

/-- A translation that leaves the state as it is holds in every state with the same TLB and registers. -/
theorem translate_congr {s u : State} {p va : Nat} {w f : Bool} {e : TlbE} (tlb : u.tlb = s.tlb) (m : u.m = s.m)
    (h : Machine.translate s p va w f = .ok (s, e)) : Machine.translate u p va w f = .ok (u, e) := by
  obtain ⟨entry, c1, c2, c3⟩ := translate_ok.1 h
  have hit := (tlbEntry_done entry).2 rfl
  refine translate_ok.2 ⟨?_, c1, c2, ?_⟩
  · rw [tlbEntry, tlb, hit]
  · rw [imported, m]; exact c3

theorem translate_only {s t : State} {p va : Nat} {w f : Bool} {e : TlbE} (h : Machine.translate s p va w f = .ok (t, e)) :
    MemoryOnly s t := (tlbEntry_done (translate_ok.1 h).1).1

/-! ### Stores where a translation leads -/

/-- A place that a translation can give. -/
def Mapped (p : Place) : Prop := (∃ a root ro, p = .pa a root ro) ∨ ∃ a, p = .dom a

theorem mapped_place (e : TlbE) (va : Nat) : Mapped (e.place va) := by
  rw [TlbE.place]
  split
  · exact .inr ⟨_, rfl⟩
  · exact .inl ⟨_, _, _, rfl⟩

theorem applyStore_pa (s : State) (a : Nat) (root ro : Bool) (bs : List Byte) :
    (applyStore s (.pa a root ro) bs).1 = markDirty { s with mem := s.mem.store a bs } a bs.length := rfl

theorem applyStore_done {s : State} {p : Place} (hp : Mapped p) (bs : List Byte) :
    MemoryOnly s (applyStore s p bs).1 ∧ (applyStore s p bs).1.tlb = s.tlb := by
  rcases hp with ⟨a, root, ro, rfl⟩ | ⟨a, rfl⟩
  · rw [applyStore_pa]
    exact cleared_done (roots := s.rootPages) (markDirty_shape ..)
  · exact ⟨rfl, rfl⟩

/-- A store to device memory, as its home marks it (R293). -/
theorem writtenHome_store {s u t : State} (marks : SameMarks s u) (hm : u.mem = s.mem) {a : Nat} {root ro : Bool} {bs : List Byte}
    (ht : t.mem = (applyStore u (.pa a root ro) bs).1.mem) : WrittenHome s t a bs := by
  rw [applyStore_pa, markDirty_eq, hm] at ht
  have same : (markAll { u with mem := s.mem.store a bs } (pagesOf a bs.length)).mem =
      (markAll { s with mem := s.mem.store a bs } (pagesOf a bs.length)).mem := markAll_congr _ marks rfl
  refine ⟨s.mem.store a bs, ⟨Mem.bytes_store_same .., fun x hx => Mem.read_store_other bs hx⟩, ?_, fun idle => ?_⟩
  · rw [ht, same, markDirty_eq]
  · rw [ht, same]; exact markAll_idle (s := { s with mem := s.mem.store a bs }) _ idle

/-- The memories and teams of two states are the same. -/
def SameStores (v t : State) : Prop := t.mem = v.mem ∧ t.hostMem = v.hostMem ∧ t.domainMem = v.domainMem ∧ t.teams = v.teams

theorem placeWritten_store {s u t : State} {p : Place} {bs : List Byte} (hp : Mapped p) (marks : SameMarks s u) (same : SameStores s u)
    (ht : SameStores (applyStore u p bs).1 t) : PlaceWritten s t p bs := by
  obtain ⟨mem, host, dom, teams⟩ := same
  obtain ⟨tmem, thost, tdom, tteams⟩ := ht
  have only := (applyStore_done (s := u) hp bs).1
  obtain ⟨-, -, -, -, -, teamsOnly, hostOnly, -⟩ := only.fields
  have sp : ∀ k, (t.team k).sp = (s.team k).sp := fun k => by rw [State.team, State.team, tteams, teamsOnly, teams]
  rcases hp with ⟨a, root, ro, rfl⟩ | ⟨a, rfl⟩
  · refine ⟨writtenHome_store marks mem tmem, ?_, ?_, sp⟩
    · rw [tdom, applyStore_pa, markDirty_shape]; exact dom
    · rw [thost, hostOnly, host]
  · refine ⟨tmem.trans mem, ?_, thost.trans host, sp⟩
    show Written s.domainMem t.domainMem a bs
    rw [tdom, show (applyStore u (.dom a) bs).1.domainMem = u.domainMem.store a bs from rfl, dom]
    exact ⟨Mem.bytes_store_same .., fun x hx => Mem.read_store_other bs hx⟩

theorem storedAt_store {s u t : State} {p : Place} {bs : List Byte} (hp : Mapped p) (marks : SameMarks s u) (hm : u.mem = s.mem)
    (ht : SameStores (applyStore u p bs).1 t) : StoredAt s t p bs := by
  obtain ⟨tmem, -, tdom, -⟩ := ht
  rcases hp with ⟨a, root, ro, rfl⟩ | ⟨a, rfl⟩
  · exact writtenHome_store marks hm tmem
  · show t.domainMem.bytes a bs.length = bs
    rw [tdom]; exact Mem.bytes_store_same ..

end Sys2Proof.Proofs
end

section
/-!
PROOF. Completion words and the history of a partition (R244, R245, R247).
-/

namespace Sys2Proof.Proofs

open Sys2Proof.Machine Sys2Proof.Claim

/-- A launch after the completion of `id` has resolved its wait for it (R247). -/
def waitResolved (p id status tick : Nat) (l : Launch) : Launch :=
  if l.part == p && l.waits.contains id then
    if status = 0 then { l with waits := l.waits.filter (· != id), ready := max l.ready tick } else { l with refused := true }
  else l

theorem resolveWaits_eq (s : State) (p id status tick : Nat) :
    resolveWaits s p id status tick = { s with launches := s.launches.map fun c => (c.1, waitResolved p id status tick c.2) } := by
  rw [resolveWaits]
  congr 2
  funext ⟨k, l⟩
  dsimp only [waitResolved]
  split <;> rfl

/-- The fields of a partition that the writing of completion words leaves alone. -/
def WordsOnly (x y : Part) : Prop := y = { x with history := y.history, words := y.words, lostWords := y.lostWords }

theorem WordsOnly.trans {x y z : Part} (h : WordsOnly x y) (k : WordsOnly y z) : WordsOnly x z := by
  unfold WordsOnly at *
  rw [k, h]

/-- Words and history set in one partition of a state that otherwise has the partitions of another. -/
theorem setPart_words {s u : State} (parts : ∀ k, WordsOnly (s.part k) (u.part k)) (p : Nat) (history : List (Nat × Nat × Nat))
    (words : List (Nat × W64 × Nat)) (lost : Nat) (k : Nat) : WordsOnly (s.part k)
      ((u.setPart p { u.part p with history := history, words := words, lostWords := lost }).part k) := by
  refine (parts k).trans ?_
  by_cases hk : k = p
  · subst hk; rw [State.part_setPart_same]; rfl
  · rw [State.part_setPart_other _ _ hk]; rfl

/-- The waits on the launch that a completion word names are resolved. -/
def ResolvedAt (s t : State) (p : Nat) (w : W64) : Prop := ∃ tick,
  t.launches = s.launches.map fun c => (c.1, waitResolved p (w.extractLsb' 0 32).toNat (w.extractLsb' 32 8).toNat tick c.2)

/-- What the completion of an ID may change beside memory: the history, the words that wait, and waits on the ID. -/
structure Entered (s t : State) (p : Nat) (w : W64) : Prop where
  parts : ∀ k, WordsOnly (s.part k) (t.part k)
  launches : t.launches = s.launches ∨ ResolvedAt s t p w

/-- A completion word's history, in a state whose partitions and launches are those of another but for the words. -/
theorem entered_of {s u : State} (parts : ∀ k, WordsOnly (s.part k) (u.part k)) (launches : u.launches = s.launches) (p : Nat) (w : W64)
    (hist tick : Nat) : Entered s (enterHistory u p w hist tick) p w ∧ (hist ≠ 0 → ResolvedAt s (enterHistory u p w hist tick) p w)
      ∧ SameStores u (enterHistory u p w hist tick) := by
  unfold enterHistory
  split
  · next h => exact ⟨⟨parts, .inl launches⟩, fun k => absurd h k, rfl, rfl, rfl, rfl⟩
  · dsimp only
    rw [resolveWaits_eq]
    have resolved : ResolvedAt s { u.setPart p { u.part p with
        history := ((u.part p).history ++ [((w.extractLsb' 0 32).toNat, (w.extractLsb' 32 8).toNat, tick)]).drop
          (((u.part p).history ++ [((w.extractLsb' 0 32).toNat, (w.extractLsb' 32 8).toNat, tick)]).length - 4096) } with
        launches := u.launches.map fun c => (c.1, waitResolved p (w.extractLsb' 0 32).toNat (w.extractLsb' 32 8).toNat tick c.2) } p w :=
      ⟨tick, by rw [launches]⟩
    exact ⟨⟨setPart_words parts p _ _ _, .inr resolved⟩, fun _ => resolved, rfl, rfl, rfl, rfl⟩

theorem loseWord_done {s u : State} (parts : ∀ k, WordsOnly (s.part k) (u.part k)) (launches : u.launches = s.launches) (p : Nat) (w : W64)
    (hist : Nat) : Entered s (loseWord u p w hist) p w ∧ (hist ≠ 0 → ResolvedAt s (loseWord u p w hist) p w) := by
  obtain ⟨entered, resolved, -⟩ := entered_of (s := s) (u := u.setPart p { u.part p with lostWords := (u.part p).lostWords + 1 })
    (setPart_words parts p _ _ _) launches p w hist u.m.ftime
  exact ⟨entered, resolved⟩

theorem mgmtWait_shape (s : State) (p what : Nat) (t : Trap) : mgmtWait s p what t = { s with cores := (mgmtWait s p what t).cores } := by
  unfold mgmtWait
  dsimp only
  split <;> rfl

theorem MemoryOnly.words {s t : State} (h : MemoryOnly s t) (k : Nat) : WordsOnly (s.part k) (t.part k) := by
  obtain ⟨-, parts, -⟩ := h.fields
  rw [State.part, State.part, parts]; rfl

/-- A completion word where its address can be translated (R245). -/
theorem storeWord_mapped {s u : State} {p va hist : Nat} {w : W64} {d : TlbE} (nz : va ≠ 0) (al : va % 8 = 0)
    (hd : Machine.translate s p va true false = .ok (u, d)) : Entered s (storeWord s p va w hist) p w
      ∧ (hist ≠ 0 → ResolvedAt s (storeWord s p va w hist) p w)
      ∧ ((d.place va).isRoot = false → outOfReach u (d.place va) 8 = false →
        SameStores (applyStore u (d.place va) (bytesOfNat 8 w.toNat)).1 (storeWord s p va w hist)) := by
  have only := translate_only hd
  have launches := only.fields.1
  have aligned : ¬ (decide (va = 0) || va % 8 != 0) = true := by simp [nz, al]
  rw [storeWord, if_neg aligned, hd]
  dsimp only
  split
  · next c =>
    obtain ⟨entered, resolved⟩ := loseWord_done (fun k => only.words k) launches p w hist
    refine ⟨entered, resolved, fun root reach => ?_⟩
    rw [root, reach] at c; cases c
  · have stored := (applyStore_done (s := u) (mapped_place d va) (bytesOfNat 8 w.toNat)).1
    obtain ⟨entered, resolved, same⟩ := entered_of (fun k => (only.words k).trans (stored.words k)) (stored.fields.1.trans launches) p w hist
      (applyStore u (d.place va) (bytesOfNat 8 w.toNat)).2
    exact ⟨entered, resolved, fun _ _ => same⟩

theorem storeWord_entered (s : State) (p va : Nat) (w : W64) (hist : Nat) : Entered s (storeWord s p va w hist) p w := by
  by_cases aligned : (decide (va = 0) || va % 8 != 0) = true
  · rw [storeWord, if_pos aligned]
    exact (loseWord_done (fun _ => rfl) rfl p w hist).1
  · cases found : Machine.translate s p va true false with
    | ok c =>
      simp only [Bool.or_eq_true, decide_eq_true_eq, bne_iff_ne, ne_eq, not_or, Decidable.not_not] at aligned
      exact (storeWord_mapped aligned.1 aligned.2 found).1
    | error t =>
      rw [storeWord, if_neg aligned, found]
      dsimp only
      split
      · have shape := mgmtWait_shape s p 16 t
        generalize mgmtWait s p 16 t = u at shape
        rw [shape]
        exact ⟨setPart_words (u := { s with cores := u.cores }) (fun _ => rfl) p _ _ _, .inl rfl⟩
      · exact (loseWord_done (fun _ => rfl) rfl p w hist).1

end Sys2Proof.Proofs
end

section
/-!
PROOF. LAUNCH_CONSUME: the record at a queue's head is queued, kept or refused (R242 to R245).
-/

namespace Sys2Proof.Proofs

open Sys2Proof.Machine Sys2Proof.Claim

/-! ### Completion words and launches that wait -/

theorem doneWord_id (id status reason : Nat) : ((doneWord id status reason).extractLsb' 0 32).toNat = id % 2 ^ 32 := by
  rw [doneWord, BitVec.extractLsb'_toNat, BitVec.toNat_ofNat, Nat.shiftRight_zero]
  omega

theorem doneWord_status (id reason : Nat) {status : Nat} (h : status < 256) :
    ((doneWord id status reason).extractLsb' 32 8).toNat = status := by
  rw [doneWord, BitVec.extractLsb'_toNat, BitVec.toNat_ofNat, Nat.shiftRight_eq_div_pow]
  omega

theorem bytesOfNat_mod (n w : Nat) : bytesOfNat n (w % 256 ^ n) = bytesOfNat n w := by
  induction n generalizing w with
  | zero => rfl
  | succ n ih =>
    rw [bytesOfNat, bytesOfNat]
    congr 1
    · refine BitVec.eq_of_toNat_eq ?_
      rw [BitVec.toNat_ofNat, BitVec.toNat_ofNat, Nat.mod_mod_of_dvd _ (dvd_pow_self 256 n.succ_ne_zero)]
    · rw [pow_succ', Nat.mod_mul_right_div_self, ih]

theorem bytesOfNat_doneWord (id status reason : Nat) :
    bytesOfNat 8 (doneWord id status reason).toNat = bytesOfNat 8 (id % 2 ^ 32 + status * 2 ^ 32 + reason * 2 ^ 40) := by
  rw [doneWord, BitVec.toNat_ofNat]; exact bytesOfNat_mod 8 _

/-- A refused or killed launch leaves the others as they are, but that those that wait on it are refused (R247). -/
theorem waitResolved_failed {p id status tick : Nat} (failed : status ≠ 0) (l : Launch) : waitResolved p id status tick l = l
    ∧ ¬ (l.part = p ∧ id ∈ l.waits)
    ∨ waitResolved p id status tick l = { l with refused := true } ∧ l.part = p ∧ id ∈ l.waits := by
  rw [waitResolved]
  by_cases waits : l.part = p ∧ id ∈ l.waits
  · rw [if_pos (by simp [waits]), if_neg failed]
    exact .inr ⟨rfl, waits⟩
  · rw [if_neg (by simpa using waits)]
    exact .inl ⟨rfl, waits⟩

/-- A completed launch no longer keeps another waiting (R247). -/
theorem waitResolved_completed (p id tick : Nat) {l : Launch} (h : l.part = p) : id ∉ (waitResolved p id 0 tick l).waits := by
  rw [waitResolved]
  split
  · simp
  · next c => simpa [h] using c

theorem ResolvedAt.look {s t : State} {p : Nat} {w : W64} (h : ResolvedAt s t p w) : ∃ tick, ∀ k, Tbl.look t.launches k =
    (Tbl.look s.launches k).map (waitResolved p (w.extractLsb' 0 32).toNat (w.extractLsb' 32 8).toNat tick) := by
  obtain ⟨tick, h⟩ := h
  exact ⟨tick, fun k => by rw [h, look_map]⟩

theorem Entered.look_none {s t : State} {p : Nat} {w : W64} (h : Entered s t p w) {k : Nat} (absent : Tbl.look s.launches k = none) :
    Tbl.look t.launches k = none := by
  rcases h.launches with same | resolved
  · rw [same, absent]
  · obtain ⟨tick, look⟩ := resolved.look
    rw [look, absent, Option.map_none]

theorem Entered.look_some {s t : State} {p id status reason : Nat} (h : Entered s t p (doneWord id status reason)) (hid : id < 2 ^ 32)
    (failed : status ≠ 0) (hst : status < 256) {k : Nat} {l : Launch} (found : Tbl.look s.launches k = some l) :
    ∃ z, Tbl.look t.launches k = some z ∧ (z = l ∨ z = { l with refused := true } ∧ l.part = p ∧ id ∈ l.waits) := by
  rcases h.launches with same | resolved
  · exact ⟨l, by rw [same, found], .inl rfl⟩
  · obtain ⟨tick, look⟩ := resolved.look
    rw [doneWord_id, doneWord_status _ _ hst, Nat.mod_eq_of_lt hid] at look
    refine ⟨_, by rw [look, found]; rfl, ?_⟩
    exact (waitResolved_failed failed l).imp And.left fun h => h

/-! ### A control block (R242) -/

/-- The fields of a control block do not describe a queue (R242). -/
def BadBlock (cb : List Byte) : Prop :=
  let n := fun (o k : Nat) => natOfBytes ((cb.drop o).take k)
  n 4 4 ≠ 0 ∨ n 0x18 40 ≠ 0 ∨ n 0x10 8 % 128 ≠ 0 ∨ n 0xC 4 = 0 ∨ 4096 < n 0xC 4 ∨ n 0xC 4 &&& (n 0xC 4 - 1) ≠ 0
    ∨ n 0xC 4 < (n 0 4 + 2 ^ 32 - n 8 4) % 2 ^ 32

def blockHead (cb : List Byte) : Nat := natOfBytes ((cb.drop 8).take 4)

def blockRecord (cb : List Byte) : Nat :=
  natOfBytes ((cb.drop 0x10).take 8) + 128 * (blockHead cb % natOfBytes ((cb.drop 0xC).take 4))

theorem blockOf_bad {cb : List Byte} (h : BadBlock cb) : blockOf cb = .bad := by
  rw [blockOf]
  refine if_pos ?_
  simpa [BadBlock, or_assoc] using h

theorem blockOf_good {cb : List Byte} (h : ¬ BadBlock cb) : blockOf cb =
    if natOfBytes ((cb.drop 0).take 4) = blockHead cb then .empty else .record (blockHead cb) (blockRecord cb) := by
  rw [blockOf]
  refine if_neg ?_
  simpa [BadBlock, or_assoc] using h

/-! ### Consuming a record -/

theorem exec_launchConsume (p q : Nat) (s : State) : exec (.launchConsume p q) s = execLaunchConsume p q s := rfl

/-- A queue that LAUNCH_CONSUME looks at, with its control block (R241, R242). -/
structure QueueRead (s : State) (p q va : Nat) (cb : List Byte) : Prop where
  state : (s.part p).e.state = 1 ∨ (s.part p).e.state = 3
  ready : (s.part p).ready = true
  index : q < (s.part p).e.queues
  fault : (s.part p).qfault.getLsbD q = false
  ctl : (s.part p).e.ctl[q]? = some va
  block : readPrivate s p va 64 = .ok (s, cb)

theorem QueueRead.looked {s : State} {p q va : Nat} {cb : List Byte} (h : QueueRead s p q va cb) :
    (!((s.part p).e.state == 1 || (s.part p).e.state == 3) || !(s.part p).ready || decide ((s.part p).e.queues ≤ q)
      || (s.part p).qfault.getLsbD q) = false := by
  rcases h.state with e | e <;> simp [e, h.ready, h.fault, h.index]

/-- What LAUNCH_CONSUME does with the block that it has read (R242). -/
theorem launchConsume_cases {s : State} {p q va : Nat} {cb : List Byte} (h : QueueRead s p q va cb) : let t := exec (.launchConsume p q) s
    (blockOf cb = .bad → t = .next (faultQueue s p q)) ∧ (blockOf cb = .empty → t = .next s)
    ∧ ∀ {head a b}, blockOf cb = .record head a → headRecord s p q a = .ok (s, b) → t = .next (consume s p q false (nextHead p q va head) b) := by
  rw [exec_launchConsume, execLaunchConsume]
  simp only [h.looked, h.ctl, h.block, Bool.false_eq_true, if_false]
  refine ⟨fun block => ?_, fun block => ?_, fun block read => ?_⟩
  · simp only [block]
  · simp only [block]
  · simp only [block, read]

theorem launchConsume_bad {s : State} {p q va : Nat} {cb : List Byte} (h : QueueRead s p q va cb) (bad : BadBlock cb) :
    exec (.launchConsume p q) s = .next (faultQueue s p q) := by
  obtain ⟨faulted, -⟩ := launchConsume_cases h
  exact faulted (blockOf_bad bad)

theorem launchConsume_empty {s : State} {p q va : Nat} {cb : List Byte} (h : QueueRead s p q va cb) (good : ¬ BadBlock cb)
    (empty : natOfBytes ((cb.drop 0).take 4) = blockHead cb) : exec (.launchConsume p q) s = .next s := by
  obtain ⟨-, unread, -⟩ := launchConsume_cases h
  exact unread ((blockOf_good good).trans (if_pos empty))

/-- The record is the one kept, or the one that is read now (R242). -/
theorem launchConsume_record {s : State} {p q va : Nat} {cb b : List Byte} (h : QueueRead s p q va cb) (good : ¬ BadBlock cb)
    (waiting : natOfBytes ((cb.drop 0).take 4) ≠ blockHead cb) (record : Tbl.look (s.part p).taken q = some b
      ∨ Tbl.look (s.part p).taken q = none ∧ readPrivate s p (blockRecord cb) 128 = .ok (s, b)) :
    exec (.launchConsume p q) s = .next (consume s p q false (nextHead p q va (blockHead cb)) b) := by
  have read : headRecord s p q (blockRecord cb) = .ok (s, b) := by
    rw [headRecord]
    rcases record with kept | ⟨unkept, now⟩
    · rw [kept]
    · rw [unkept]; exact now
  obtain ⟨-, -, consumed⟩ := launchConsume_cases h
  exact consumed ((blockOf_good good).trans (if_neg waiting)) read

theorem part_withMem (s : State) (m : Mem) (p : Nat) : ({ s with mem := m } : State).part p = s.part p := rfl

theorem setStatus_done (s : State) (p : Nat) (x : Part) : (setStatus s p x).launches = s.launches ∧ (setStatus s p x).part p = x := by
  have set : (s.setPart p x).part p = x := State.part_setPart_same ..
  rw [setStatus]
  split
  · exact ⟨rfl, set⟩
  · exact ⟨rfl, by rw [part_withMem, set]⟩

theorem faultQueue_done (s : State) (p q : Nat) : (faultQueue s p q).launches = s.launches
    ∧ ((faultQueue s p q).part p).qfault = (s.part p).qfault ||| BitVec.ofNat 16 (2 ^ q) := by
  obtain ⟨launches, part⟩ := setStatus_done s p { s.part p with qfault := (s.part p).qfault ||| BitVec.ofNat 16 (2 ^ q) }
  exact ⟨launches, congrArg Part.qfault part⟩

/-! ### HEAD + 1 -/

/-- The state once the record at a queue's head is done with, before HEAD is stored. -/
def forgotten (p q : Nat) (s : State) : State := if (Tbl.look (s.part p).taken q).isSome then keepRecord s p q none else s

/-- The kept records of a partition apart, nothing of a partition differs. -/
def TakenOnly (x y : Part) : Prop := ({ y with taken := [] } : Part) = { x with taken := [] }

theorem TakenOnly.e {x y : Part} (h : TakenOnly x y) : y.e = x.e := by
  unfold TakenOnly at h; exact (congrArg Part.e h :)

theorem TakenOnly.rounds {x y : Part} (h : TakenOnly x y) : y.rounds = x.rounds := by
  unfold TakenOnly at h; exact (congrArg Part.rounds h :)

theorem keepRecord_shape (s : State) (p q : Nat) (b : Option (List Byte)) :
    keepRecord s p q b = { s with parts := (keepRecord s p q b).parts } := rfl

theorem keepRecord_taken (s : State) (p q : Nat) (b : Option (List Byte)) (k : Nat) : TakenOnly (s.part k) ((keepRecord s p q b).part k) := by
  unfold keepRecord
  by_cases hk : k = p
  · subst hk; rw [State.part_setPart_same]; rfl
  · rw [State.part_setPart_other _ _ hk]; rfl

theorem keepRecord_some (s : State) (p q : Nat) (b : List Byte) : Tbl.look ((keepRecord s p q (some b)).part p).taken q = some b := by
  unfold keepRecord
  rw [State.part_setPart_same]; exact Tbl.look_set_same ..

theorem keepRecord_none (s : State) (p q : Nat) : Tbl.look ((keepRecord s p q none).part p).taken q = none := by
  unfold keepRecord
  rw [State.part_setPart_same]; exact Tbl.look_del_same ..

theorem forgotten_done (p q : Nat) (s : State) : forgotten p q s = { s with parts := (forgotten p q s).parts }
    ∧ (∀ k, TakenOnly (s.part k) ((forgotten p q s).part k)) ∧ Tbl.look ((forgotten p q s).part p).taken q = none := by
  rw [forgotten]
  split
  · exact ⟨keepRecord_shape .., keepRecord_taken s p q none, keepRecord_none ..⟩
  · next h => exact ⟨rfl, fun _ => rfl, by simpa using h⟩

/-- The state once HEAD + 1 is stored at `a` (R242). -/
structure Headed (p q : Nat) (a : Place) (bs : List Byte) (s u : State) : Prop where
  stored : ∀ t, SameStores u t → PlaceWritten s t a bs
  launches : u.launches = s.launches
  nextId : u.nextId = s.nextId
  reverse : u.reverse = s.reverse
  tlb : u.tlb = s.tlb
  m : u.m = s.m
  links : u.badLinks = s.badLinks
  taken : ∀ k, TakenOnly (s.part k) (u.part k)
  forgot : Tbl.look (u.part p).taken q = none

theorem nextHead_done {s : State} {p q va head : Nat} {e : TlbE} (he : Machine.translate s p (va + 8) false false = .ok (s, e))
    (notRoot : (e.place (va + 8)).isRoot = false) :
    Headed p q (e.place (va + 8)) (bytesOfNat 4 ((head + 1) % 2 ^ 32)) s (nextHead p q va head s) := by
  obtain ⟨shape, taken, forgot⟩ := forgotten_done p q s
  have stored : nextHead p q va head s =
      (applyStore (forgotten p q s) (e.place (va + 8)) (bytesOfNat 4 ((head + 1) % 2 ^ 32))).1 := by
    show mgmtStore (forgotten p q s) p (va + 8) (bytesOfNat 4 ((head + 1) % 2 ^ 32)) = _
    rw [mgmtStore, translate_congr (by rw [shape]) (by rw [shape]) he]
    dsimp only
    rw [if_neg (by rw [notRoot]; exact Bool.false_ne_true)]
  rw [stored]
  obtain ⟨only, tlb⟩ := applyStore_done (s := forgotten p q s) (mapped_place e (va + 8)) (bytesOfNat 4 ((head + 1) % 2 ^ 32))
  obtain ⟨launches, parts, reverse, nextId, m, -, -, links⟩ := only.fields
  have part : ∀ k, (applyStore (forgotten p q s) (e.place (va + 8)) (bytesOfNat 4 ((head + 1) % 2 ^ 32))).1.part k =
      (forgotten p q s).part k := fun k => by rw [State.part, State.part, parts]
  have marks : SameMarks s (forgotten p q s) :=
    ⟨by rw [shape], fun k => ⟨(taken k).e, (taken k).rounds⟩⟩
  refine ⟨fun t => placeWritten_store (mapped_place ..) marks ?_, launches.trans ?_, nextId.trans ?_, reverse.trans ?_, tlb.trans ?_,
    m.trans ?_, links.trans ?_, fun k => by rw [part]; exact taken k, by rw [part]; exact forgot⟩
  · rw [shape]; exact ⟨rfl, rfl, rfl, rfl⟩
  all_goals rw [shape]

end Sys2Proof.Proofs
end

section
/-!
PROOF. What becomes of a launch record (R245), and the end of a launch (R247, R248).
-/

namespace Sys2Proof.Proofs

open Sys2Proof.Machine Sys2Proof.Claim

/-! ### A record kept -/

theorem consume_wait {s : State} {p q : Nat} {head : State → State} {b : List Byte} {c : Trap}
    (h : validate s p (LaunchRec.ofBytes b) b = .wait c) : consume s p q false head b = mgmtWait (keepRecord s p q (some b)) p q c := by
  rw [consume, h]
  rfl

theorem consume_wait_done (s : State) (p q : Nat) (b : List Byte) (c : Trap) : let t := mgmtWait (keepRecord s p q (some b)) p q c
    t.launches = s.launches ∧ MemoriesSame s t ∧ Tbl.look (t.part p).taken q = some b := by
  have kept := keepRecord_some s p q b
  have shape := keepRecord_shape s p q (some b)
  generalize keepRecord s p q (some b) = u at kept shape
  dsimp only
  rw [mgmtWait_shape]
  refine ⟨?_, ⟨?_, ?_, ?_, fun k => ?_⟩, kept⟩ <;> rw [shape]
  rfl

/-! ### A record queued -/

theorem consume_accept {s : State} {p q : Nat} {head : State → State} {b : List Byte} {rs : List Range}
    (h : validate s p (LaunchRec.ofBytes b) b = .accept rs) :
    consume s p q false head b = addLaunch (head s) p q false (LaunchRec.ofBytes b) rs := by
  rw [consume, h]

theorem addLaunch_done (s : State) (p q : Nat) (r : LaunchRec) (rs : List Range) : ∃ l,
    addLaunch s p q false r rs = { s with nextId := s.nextId + 1, launches := Tbl.set s.launches s.nextId l }
      ∧ l.part = p ∧ l.queue = q ∧ l.priv = false ∧ l.ranges = rs
      ∧ l.r = { r with lcores := if r.lcores = 0 then (partCores s p).length else r.lcores }
      ∧ l.toStart = (List.range r.teams).map (fun t => (t, false)) ∧ l.live = [] ∧ l.killed = none :=
  ⟨_, rfl, rfl, rfl, rfl, rfl, rfl, rfl, rfl, rfl⟩

theorem Headed.cores {p q : Nat} {a : Place} {bs : List Byte} {s u : State} (h : Headed p q a bs s u) (k : Nat) : partCores u k = partCores s k := by
  rw [partCores, partCores, (h.taken k).e]

/-! ### A record refused -/

theorem consume_refuse {s : State} {p q code : Nat} {head : State → State} {b : List Byte}
    (h : validate s p (LaunchRec.ofBytes b) b = .refuse code) :
    consume s p q false head b = refuseRecord s p head (LaunchRec.ofBytes b) code := by
  rw [consume, h]

theorem ofBytes_id_lt (b : List Byte) : (LaunchRec.ofBytes b).id < 2 ^ 32 := by
  have lt : (LaunchRec.ofBytes b).id < 256 ^ ((b.drop 0x44).take 4).length := natOfBytes_lt _
  exact lt.trans_le ((Nat.pow_le_pow_right (by omega) (List.length_take_le ..)).trans (by norm_num))

theorem outOfReach_congr {s u : State} (links : u.badLinks = s.badLinks) (m : u.m = s.m) {a : Place} (n : Nat) (h : Mapped a) :
    outOfReach u a n = outOfReach s a n := by
  rcases h with ⟨a, root, ro, rfl⟩ | ⟨a, rfl⟩
  · rfl
  · unfold outOfReach badAt goneAway
    rw [links, m]

/-- The waits on a launch that fails are refused (R247). -/
theorem ResolvedAt.refused {s t : State} {p id status reason : Nat} (h : ResolvedAt s t p (doneWord id status reason)) (hid : id < 2 ^ 32)
    (failed : status ≠ 0) (hst : status < 256) {k : Nat} {l : Launch} (found : Tbl.look s.launches k = some l) (part : l.part = p)
    (waits : id ∈ l.waits) : ∃ z, Tbl.look t.launches k = some z ∧ z.refused = true := by
  obtain ⟨tick, look⟩ := h.look
  rw [doneWord_id, doneWord_status _ _ hst, Nat.mod_eq_of_lt hid] at look
  refine ⟨_, by rw [look, found]; rfl, ?_⟩
  rcases waitResolved_failed (p := p) (id := id) (tick := tick) failed l with ⟨-, apart⟩ | ⟨eq, -⟩
  · exact absurd ⟨part, waits⟩ apart
  · rw [eq]

/-- The waits on a launch that completes are satisfied (R247). -/
theorem ResolvedAt.satisfied {s t : State} {p id reason : Nat} (h : ResolvedAt s t p (doneWord id 0 reason)) (hid : id < 2 ^ 32)
    {k : Nat} {l : Launch} (found : Tbl.look s.launches k = some l) (part : l.part = p) :
    ∃ z, Tbl.look t.launches k = some z ∧ id ∉ z.waits := by
  obtain ⟨tick, look⟩ := h.look
  rw [doneWord_id, doneWord_status _ _ (by omega), Nat.mod_eq_of_lt hid] at look
  exact ⟨_, by rw [look, found]; rfl, waitResolved_completed p id tick part⟩

theorem SameStores.refl (s : State) : SameStores s s := ⟨rfl, rfl, rfl, rfl⟩

theorem SameMarks.refl (s : State) : SameMarks s s := ⟨rfl, fun _ => ⟨rfl, rfl⟩⟩

/-- What a refusal leaves, whatever becomes of its completion word (R245). -/
theorem refuseRecord_done {s : State} {p q code : Nat} {a : Place} {bs : List Byte} {head : State → State} {r : LaunchRec} (hid : r.id < 2 ^ 32)
    (h : Headed p q a bs s (head s)) : let t := refuseRecord s p head r code
    Tbl.look (t.part p).taken q = none
    ∧ (∀ k, Tbl.look s.launches k = none → Tbl.look t.launches k = none)
    ∧ ∀ k l, Tbl.look s.launches k = some l →
        ∃ z, Tbl.look t.launches k = some z ∧ (z = l ∨ z = { l with refused := true } ∧ l.part = p ∧ r.id ∈ l.waits) := by
  have entered : Entered (head s) (refuseRecord s p head r code) p (doneWord r.id 1 code) := storeWord_entered ..
  refine ⟨?_, fun k absent => entered.look_none (by rw [h.launches]; exact absent), fun k l found => ?_⟩
  · have words := entered.parts p
    unfold WordsOnly at words
    rw [words]; exact h.forgot
  · exact entered.look_some hid one_ne_zero (by omega) (by rw [h.launches]; exact found)

/-- A refusal whose completion word has a place (R244, R245). -/
theorem refuseRecord_stored {s : State} {p q code : Nat} {a : Place} {bs : List Byte} {head : State → State} {r : LaunchRec} {d : TlbE}
    (hid : r.id < 2 ^ 32) (h : Headed p q a bs s (head s)) (nz : r.done ≠ 0) (al : r.done.toNat % 8 = 0)
    (hd : Machine.translate s p r.done.toNat true false = .ok (s, d)) : let t := refuseRecord s p head r code
    (code ≠ 8 → ∀ k l, Tbl.look s.launches k = some l → l.part = p → r.id ∈ l.waits → (t.launch k).refused = true)
    ∧ ((d.place r.done.toNat).isRoot = false → outOfReach s (d.place r.done.toNat) 8 = false →
        StoredAt (head s) t (d.place r.done.toNat) (bytesOfNat 8 (r.id % 2 ^ 32 + 2 ^ 32 + code * 2 ^ 40))) := by
  have place := mapped_place d r.done.toNat
  obtain ⟨-, resolved, stored⟩ := storeWord_mapped (hist := if code = 8 && r.id != 0 then 0 else 1) (w := doneWord r.id 1 code)
    (fun z => nz (BitVec.eq_of_toNat_eq z)) al (translate_congr h.tlb h.m hd)
  refine ⟨fun ne k l found part waits => ?_, fun root reach => ?_⟩
  · obtain ⟨z, look, refused⟩ := (resolved (by simp [ne])).refused hid one_ne_zero (by omega) (by rw [h.launches]; exact found) part waits
    have launch : (refuseRecord s p head r code).launch k = z := by rw [State.launch, Tbl.get, refuseRecord, look]; rfl
    exact (congrArg Launch.refused launch).trans refused
  · have same := stored root (by rw [outOfReach_congr h.links h.m 8 place]; exact reach)
    rw [bytesOfNat_doneWord, one_mul] at same
    exact storedAt_store place (SameMarks.refl _) rfl same

end Sys2Proof.Proofs
end

section
/-!
PROOF. The end of a launch (R247, R248), and `Claim.Launches`.
-/

namespace Sys2Proof.Proofs

open Sys2Proof.Machine Sys2Proof.Claim

theorem exec_launchCompletion (lid : Nat) (s : State) : exec (.launchCompletion lid) s = execLaunchCompletion lid s := rfl

/-- The state of a launch that is over, before its completion word is stored (R175, R248). -/
def concluded (s : State) (lid : Nat) : State :=
  dropTeams { s with
    copies1 := s.copies1.filter fun c => !(c.replica && c.lid == lid)
    launches := Tbl.del s.launches lid } lid

theorem finishLaunch_eq (s : State) (lid status reason : Nat) : finishLaunch s lid status reason =
    storeWord (concluded s lid) (s.launch lid).part (s.launch lid).r.done.toNat (doneWord (s.launch lid).r.id status reason) 2 := rfl

theorem concluded_shape (s : State) (lid : Nat) : concluded s lid = { s with
    copies1 := (concluded s lid).copies1, launches := Tbl.del s.launches lid, teams := (concluded s lid).teams } := rfl

theorem concluded_part (s : State) (lid k : Nat) : (concluded s lid).part k = s.part k := rfl

section

variable {s : State} {lid : Nat} {l : Launch}

theorem completion_killed (swept : sweep s = s) (found : Tbl.look s.launches lid = some l) {cause : Nat} (killed : l.killed = some cause) :
    exec (.launchCompletion lid) s = .next (if launchOver s lid then finishLaunch s lid 2 cause else s) := by
  rw [exec_launchCompletion, execLaunchCompletion]
  simp only [swept, found, killed]

theorem completion_alive (swept : sweep s = s) (found : Tbl.look s.launches lid = some l) (alive : l.killed = none) :
    exec (.launchCompletion lid) s = .next (if l.refused then finishLaunch s lid 1 0xD
      else if l.toStart.isEmpty && l.live.isEmpty && launchQuiet s lid l then finishLaunch s lid 0 0 else s) := by
  rw [exec_launchCompletion, execLaunchCompletion]
  simp only [swept, found, alive]

/-- The end of a launch, as its completion word and the launches that wait on it show it (R244, R247, R248). -/
theorem finishLaunch_done (found : Tbl.look s.launches lid = some l) (nz : l.r.done ≠ 0) (al : l.r.done.toNat % 8 = 0)
    {status : Nat} (hst : status < 256) (reason : Nat) : let t := finishLaunch s lid status reason
    Tbl.look t.launches lid = none
    ∧ WordAt s t l.part l.r.done.toNat (doneWord l.r.id status reason)
    ∧ ∀ k y, k ≠ lid → Tbl.look s.launches k = some y → y.part = l.part → l.r.id ∈ y.waits → l.r.id < 2 ^ 32 →
        (∃ d, Machine.translate s l.part l.r.done.toNat true false = .ok (s, d)) → ∃ z, Tbl.look t.launches k = some z
          ∧ if status = 0 then l.r.id ∉ z.waits else z.refused = true := by
  have this : s.launch lid = l := by rw [State.launch, Tbl.get, found]; rfl
  have nz' : l.r.done.toNat ≠ 0 := fun z => nz (BitVec.eq_of_toNat_eq z)
  have shape := concluded_shape s lid
  rw [finishLaunch_eq, this]
  have mapped : ∀ {d : TlbE}, Machine.translate s l.part l.r.done.toNat true false = .ok (s, d) →
      Machine.translate (concluded s lid) l.part l.r.done.toNat true false = .ok (concluded s lid, d) := fun hd =>
    translate_congr (by rw [shape]) (by rw [shape]) hd
  refine ⟨?_, ⟨nz', al, fun d hd root reach => ?_⟩, fun k y ne look part waits hid ⟨d, hd⟩ => ?_⟩
  · refine (storeWord_entered ..).look_none ?_
    rw [shape]; exact Tbl.look_del_same ..
  · have place := mapped_place d l.r.done.toNat
    obtain ⟨-, -, stored⟩ := storeWord_mapped (hist := 2) (w := doneWord l.r.id status reason) nz' al (mapped hd)
    have marks : SameMarks s (concluded s lid) := ⟨by rw [shape], fun k => by rw [concluded_part]; exact ⟨rfl, rfl⟩⟩
    refine storedAt_store place marks (by rw [shape]) (stored root ?_)
    rw [outOfReach_congr (s := s) (by rw [shape]) (by rw [shape]) 8 place]; exact reach
  · obtain ⟨-, resolved, -⟩ := storeWord_mapped (hist := 2) (w := doneWord l.r.id status reason) nz' al (mapped hd)
    have kept : Tbl.look (concluded s lid).launches k = some y := by rw [shape]; exact (Tbl.look_del_other _ ne).trans look
    by_cases completed : status = 0
    · subst completed
      obtain ⟨z, look, satisfied⟩ := (resolved (by omega)).satisfied hid kept part
      exact ⟨z, look, by rw [if_pos rfl]; exact satisfied⟩
    · obtain ⟨z, look, refused⟩ := (resolved (by omega)).refused hid completed hst kept part waits
      exact ⟨z, look, by rw [if_neg completed]; exact refused⟩

end

theorem launches : Claim.Launches := by
  intro s
  refine ⟨fun p q va cb => ?_, fun lid l found swept => ?_⟩
  · intro x state ready index fault ctl block n bad
    have read : QueueRead s p q va cb := ⟨state, ready, index, fault, ctl, block⟩
    refine ⟨fun empty good => launchConsume_empty read good empty, fun h => ?_, fun b e waiting good record he notRoot => ?_⟩
    · obtain ⟨same, faulted⟩ := faultQueue_done s p q
      exact ⟨_, launchConsume_bad read h, same, faulted⟩
    · intro r
      have step := launchConsume_record read good waiting record
      have head := nextHead_done (q := q) (head := blockHead cb) he notRoot
      refine ⟨fun c verdict => ?_, fun rs verdict => ?_, fun code verdict => ?_⟩
      · rw [consume_wait verdict] at step
        exact ⟨_, step, consume_wait_done s p q b c⟩
      · rw [consume_accept verdict] at step
        obtain ⟨l, eq, part, queue, priv, ranges, record, starts, live, killed⟩ :=
          addLaunch_done (nextHead p q va (blockHead cb) s) p q (LaunchRec.ofBytes b) rs
        rw [eq] at step
        rw [head.cores] at record
        refine ⟨_, l, step, head.forgot, head.stored _ (SameStores.refl _), ?_, part, queue, priv, ranges, record, starts, live, killed⟩
        rw [head.launches, head.nextId]
      · rw [consume_refuse verdict] at step
        obtain ⟨forgot, absent, others⟩ := refuseRecord_done (code := code) (ofBytes_id_lt b) head
        refine ⟨_, step, forgot, absent, others, fun nz al d hd => ?_⟩
        obtain ⟨refused, stored⟩ := refuseRecord_stored (code := code) (ofBytes_id_lt b) head nz al hd
        exact ⟨refused, _, head.stored _ (SameStores.refl _), head.reverse, head.taken, stored⟩
  · intro ends nz al
    have ended : ∀ status reason, status < 256 → exec (.launchCompletion lid) s = .next (finishLaunch s lid status reason) → ends status reason :=
      fun status reason hst step => ⟨_, step, finishLaunch_done found nz al hst reason⟩
    refine ⟨fun alive kept started live quiet => ended 0 0 (by omega) ?_, fun alive refused => ended 1 0xD (by omega) ?_,
      fun cause _ killed all => ended 2 cause (by omega) ?_, ?_⟩
    · rw [completion_alive swept found alive, kept, started, live, quiet]; rfl
    · rw [completion_alive swept found alive, if_pos refused]
    · rw [completion_killed swept found killed, if_pos all]
    · rintro (⟨alive, kept, busy⟩ | ⟨killed, open_⟩)
      · rw [completion_alive swept found alive, kept, if_neg Bool.false_ne_true, if_neg]
        simp only [Bool.and_eq_true, List.isEmpty_iff, not_and, Bool.not_eq_true]
        intro ⟨started, gone⟩
        rcases busy with h | h | h
        · exact absurd started h
        · exact absurd gone h
        · exact h
      · obtain ⟨cause, killed⟩ := Option.ne_none_iff_exists'.1 killed
        rw [completion_killed swept found killed, open_]; rfl

end Sys2Proof.Proofs
end

section
/-!
PROOF. Staging the groups of a fresh team in their slots (R251 to R253).
-/

namespace Sys2Proof.Proofs

open Sys2Proof.Machine Sys2Proof.Claim

/-! ### The slots of R252 are distinct -/

theorem nextSlot_free {used : List Nat} {k : Nat} (h : nextSlot used = some k) : k ∉ used := by
  have scan : ∀ (ns : List Nat) (b : Option Nat) (load : Nat → Nat), (∀ n ∈ ns, n ∉ used) → (∀ n, b = some n → n ∉ used) →
      ns.foldl (fun b n => match b with | some k => if load n < load k then some n else b | none => some n) b = some k → k ∉ used := fun ns => by
    induction ns with
    | nil => exact fun b _ _ hb h => hb k h
    | cons n ns ih =>
      intro b load hn hb h
      have free := hn n (List.mem_cons_self ..)
      refine ih _ load (fun m hm => hn m (List.mem_cons_of_mem _ hm)) (fun m hm => ?_) h
      cases b with
      | none => cases hm; exact free
      | some j =>
        dsimp only at hm
        split at hm
        · cases hm; exact free
        · exact hb m hm
  exact scan _ none _ (fun n hn => by simpa using (List.mem_filter.1 hn).2) (fun n hn => by cases hn) h

theorem pickSlots_distinct (n : Nat) : ∀ used, (pickSlots n used).Nodup ∧ ∀ k ∈ pickSlots n used, k ∉ used := by
  induction n with
  | zero => exact fun _ => ⟨List.nodup_nil, fun k hk => by cases hk⟩
  | succ n ih =>
    intro used
    rw [pickSlots]
    cases found : nextSlot used with
    | none => exact ⟨List.nodup_nil, fun k hk => by cases hk⟩
    | some k =>
      obtain ⟨nodup, apart⟩ := ih (used ++ [k])
      refine ⟨List.nodup_cons.2 ⟨fun hk => apart k hk (by simp), nodup⟩, fun j hj => ?_⟩
      rcases List.mem_cons.1 hj with rfl | hj
      · exact nextSlot_free found
      · exact fun hu => apart j hj (by simp [hu])

/-! ### A fresh group -/

/-- Who a fresh group is (R251). -/
def identAt (l : Launch) (lid tid t core i slot : Nat) : Ident :=
  { lid := lid, tid := tid, part := l.part, index := i, core := core, slot := slot, team := t, lcores := l.r.lcores
    spread := l.r.spread, nreal := realLanes l.r i, w := l.r.w, k := l.r.k }

/-- The bind record of a staged group (R251). -/
def bindAt (l : Launch) (t : Nat) (lref : BitVec 8) (pl : TeamPlace) (i base gid : Nat) : Bind :=
  { team := t, lref := lref, group := i, wbase := base, spbase := pl.spBase, rst := false, state := 2, gid := gid, w := l.r.w }

theorem freshGroup_scal (i : Ident) (r : LaunchRec) : let g := freshGroup i r
    g.scal 0 = r.args ∧ g.scal 1 = BitVec.ofNat 64 i.team ∧ g.scal 2 = BitVec.ofNat 64 i.index ∧ g.scal 3 = BitVec.ofNat 64 r.teams
      ∧ ∀ k, 4 ≤ k → g.scal k = 0 := by
  refine ⟨?_, ?_, ?_, Tbl.get_put_same .., fun k hk => ?_⟩
  · exact (Tbl.get_put_other _ _ _ (by omega)).trans ((Tbl.get_put_other _ _ _ (by omega)).trans
      ((Tbl.get_put_other _ _ _ (by omega)).trans (Tbl.get_put_same ..)))
  · exact (Tbl.get_put_other _ _ _ (by omega)).trans ((Tbl.get_put_other _ _ _ (by omega)).trans (Tbl.get_put_same ..))
  · exact (Tbl.get_put_other _ _ _ (by omega)).trans (Tbl.get_put_same ..)
  · exact (Tbl.get_put_other _ _ _ (by omega)).trans ((Tbl.get_put_other _ _ _ (by omega)).trans
      ((Tbl.get_put_other _ _ _ (by omega)).trans (Tbl.get_put_other _ _ _ (by omega))))

/-! ### Staging -/

section

variable (lid tid t : Nat) (lref : BitVec 8) (pl : TeamPlace)

/-- Groups, slot tables and the team's list of groups apart, nothing differs. -/
structure StageFrame (u v : State) : Prop where
  shape : v = { u with nextId := v.nextId, groups := v.groups, cores := v.cores, teams := v.teams }
  team : v.team tid = { u.team tid with gids := (v.team tid).gids }

variable {tid}

theorem StageFrame.refl (u : State) : StageFrame tid u u := ⟨rfl, rfl⟩

theorem StageFrame.trans {u v w : State} (h : StageFrame tid u v) (k : StageFrame tid v w) : StageFrame tid u w where
  shape := by rw [k.shape, h.shape]
  team := by rw [k.team, h.team]

theorem StageFrame.launch {u v : State} (h : StageFrame tid u v) (k : Nat) : v.launch k = u.launch k := by
  rw [h.shape]; rfl

/-- The group and the record that staging puts in a slot. -/
def StagedAt (u v : State) (gid : Nat) (x : (Nat × Option Saved) × Nat × Nat) : Prop :=
  Tbl.look v.groups gid = some (freshGroup (identAt (u.launch lid) lid tid t pl.core x.1.1 x.2.1) (u.launch lid).r)
    ∧ Tbl.look (v.core pl.core).binds x.2.1 = some (bindAt (u.launch lid) t lref pl x.1.1 x.2.2 gid)

theorem bindGroup_fresh (u : State) (i slot base : Nat) : let v := bindGroup lid tid t lref pl false u ((i, none), slot, base)
    StageFrame tid u v ∧ v.nextId = u.nextId + 1 ∧ StagedAt lid (tid := tid) t lref pl u v u.nextId ((i, none), slot, base)
      ∧ (∀ k, k ≠ u.nextId → Tbl.look v.groups k = Tbl.look u.groups k)
      ∧ ∀ k, k ≠ slot → Tbl.look (v.core pl.core).binds k = Tbl.look (u.core pl.core).binds k := by
  have core : (bindGroup lid tid t lref pl false u ((i, none), slot, base)).core pl.core =
      { u.core pl.core with binds := Tbl.set (u.core pl.core).binds slot (bindAt (u.launch lid) t lref pl i base u.nextId) } :=
    (State.core_setTeam_of ..).trans (State.core_setCore_same ..)
  have team : (bindGroup lid tid t lref pl false u ((i, none), slot, base)).team tid =
      { u.team tid with gids := (u.team tid).gids ++ [u.nextId] } := State.team_setTeam_same ..
  refine ⟨⟨rfl, ?_⟩, rfl, ⟨Tbl.look_set_same .., ?_⟩, fun k hk => Tbl.look_set_other _ _ hk, fun k hk => ?_⟩
  · rw [team]
  · rw [core]; exact Tbl.look_set_same ..
  · rw [core]; exact Tbl.look_set_other _ _ hk

/-- All groups of a fresh team are staged, each in its slot. -/
theorem bindGroups_done (u : State) (xs : List ((Nat × Option Saved) × Nat × Nat)) (fresh : ∀ x ∈ xs, x.1.2 = none)
    (distinct : (xs.map (·.2.1)).Nodup) : let v := xs.foldl (bindGroup lid tid t lref pl false) u
    StageFrame tid u v ∧ v.nextId = u.nextId + xs.length
      ∧ ∀ j x, xs[j]? = some x → StagedAt lid (tid := tid) t lref pl u v (u.nextId + j) x := by
  induction xs using List.reverseRecOn with
  | nil => exact ⟨StageFrame.refl u, rfl, fun j x h => by simp at h⟩
  | append_singleton xs x ih =>
    rw [List.map_append, List.nodup_append] at distinct
    obtain ⟨distinct, -, apart⟩ := distinct
    obtain ⟨frame, next, staged⟩ := ih (fun y hy => fresh y (by simp [hy])) distinct
    obtain ⟨⟨i, c⟩, slot, base⟩ := x
    obtain rfl : c = none := fresh _ (List.mem_append_right _ (List.mem_singleton_self _))
    rw [List.foldl_append, List.foldl_cons, List.foldl_nil]
    generalize xs.foldl (bindGroup lid tid t lref pl false) u = v at frame next staged
    obtain ⟨frame', next', staged', groups, binds⟩ := bindGroup_fresh lid (tid := tid) t lref pl v i slot base
    refine ⟨frame.trans frame', by rw [next', next, List.length_append]; rfl, fun j y hy => ?_⟩
    by_cases old : j < xs.length
    · rw [List.getElem?_append_left old] at hy
      obtain ⟨group, bind⟩ := staged j y hy
      refine ⟨(groups _ (by omega)).trans group, (binds _ ?_).trans bind⟩
      exact apart _ (List.mem_map_of_mem (List.mem_of_getElem? hy)) _ (by simp)
    · rw [List.getElem?_append_right (by omega)] at hy
      obtain ⟨at_, rfl⟩ : j - xs.length = 0 ∧ _ = y := by simpa [List.getElem?_singleton] using hy
      obtain rfl : j = xs.length := by omega
      rw [← next]
      unfold StagedAt at staged' ⊢
      rwa [frame.launch] at staged'

end

end Sys2Proof.Proofs
end

section
/-!
PROOF. The binding of a team (R250 to R253), and `Obligations.LaunchesAndBinding`.
-/

namespace Sys2Proof.Proofs

open Sys2Proof.Machine Sys2Proof.Claim

theorem exec_teamBind (lid first : Nat) (places : List TeamPlace) (s : State) :
    exec (.teamBind lid first places) s = execTeamBind lid first places s := rfl

theorem exec_trellisTimeRow (core : Nat) (s : State) : exec (.trellisTimeRow core) s = execTrellisTimeRow core s := rfl

section

variable {s : State} {lid first t0 : Nat} {pl : TeamPlace}

/-- A team as it is bound, without groups (R252, R253). -/
def teamAt (l : Launch) (lid t : Nat) (pl : TeamPlace) : Team :=
  { lid := lid, part := l.part, index := t, core := pl.core, member := t % l.r.spread, spread := l.r.spread
    spBase := 256 * pl.spBase, spSize := 256 * l.r.scratch, gids := [], saved := false }

/-- The state in which the first group of a fresh team is staged. -/
def teamEntered (s : State) (lid t : Nat) (pl : TeamPlace) : State :=
  ({ s with nextId := s.nextId + 1 } : State).setTeam s.nextId (teamAt (s.launch lid) lid t pl)

/-- All groups of a fresh team staged. -/
def teamStaged (s : State) (lid t : Nat) (pl : TeamPlace) (lref : BitVec 8) : State :=
  ((groupsToBind s lid t false).zip pl.slots).foldl (bindGroup lid s.nextId t lref pl false) (teamEntered s lid t pl)

/-- The launch whose team `t` has been bound as `tid` (R251). -/
def launchBound (s u : State) (lid t : Nat) (lref : BitVec 8) : Launch :=
  { u.launch lid with
    toStart := (s.launch lid).toStart.filter fun x => x.1 != t, live := (s.launch lid).live ++ [s.nextId], lref := some lref
    since := some ((s.launch lid).since.getD u.m.ftime) }

theorem groupsToBind_fresh (s : State) (lid t : Nat) : groupsToBind s lid t false = (List.range (s.launch lid).r.groups).map fun i => (i, none) := rfl

theorem splitFor_same (h : (s.core pl.core).bnds = launchBnds s lid) : splitFor s lid pl.core = some s := by
  rw [splitFor]
  exact if_pos (by rw [h]; exact beq_self_eq_true _)

theorem fuseFor_same (h : ∀ c ∈ pl.core :: clusterCores s (s.launch lid).part (pl.core / 24), (s.core c).fused = s.flag lid 1) :
    fuseFor s lid pl.core = some s := by
  rw [fuseFor]
  exact if_pos (List.all_eq_true.2 fun c hc => beq_iff_eq.2 (h c hc))

theorem bindTeam_fresh {lref : BitVec 8} (bnds : (s.core pl.core).bnds = launchBnds s lid)
    (fused : ∀ c ∈ pl.core :: clusterCores s (s.launch lid).part (pl.core / 24), (s.core c).fused = s.flag lid 1)
    (ref : launchRef s lid = some lref) (place : placeOk s lid (s.launch lid).r.groups pl = true) :
    bindTeam lid s t0 false pl = some ((teamStaged s lid t0 pl lref).setLaunch lid (launchBound s (teamStaged s lid t0 pl lref) lid t0 lref)) := by
  have count : (groupsToBind s lid t0 false).length = (s.launch lid).r.groups := by rw [groupsToBind_fresh]; simp
  rw [bindTeam, splitFor_same bnds]
  simp only [Option.bind_eq_bind, Option.bind_some, fuseFor_same fused, count, place, ref]
  rfl

/-- A window that does not fit is refused (R252). -/
theorem teamBind_refused (swept : NothingSwept s)
    (members : ((s.launch lid).toStart.filter fun x => x.1 / (s.launch lid).r.spread == first / (s.launch lid).r.spread) = [(t0, false)])
    (ready : bindable s lid first [(t0, false)] [pl] = true)
    (fits : windowsOk s pl.core (s.launch lid).r.w (64 * (launchBnds s lid).1.toNat) (pl.slots.map (·.2)) = false) :
    exec (.teamBind lid first [pl]) s = .next { s with m := { s.m with refusedBinds := s.m.refusedBinds + 1 } } := by
  have sorted : sortBy (fun (a b : Nat × Bool) => decide (a.1 ≤ b.1)) [(t0, false)] = [(t0, false)] := rfl
  rw [exec_teamBind, execTeamBind]
  simp only [sweep_fixed swept, members, sorted, ready, List.all_cons, List.all_nil, Bool.and_true, fits]
  rfl

/-- A team of its own spread is staged, and its groups start (R252). -/
theorem teamBind_bound (swept : NothingSwept s)
    (members : ((s.launch lid).toStart.filter fun x => x.1 / (s.launch lid).r.spread == first / (s.launch lid).r.spread) = [(t0, false)])
    (ready : bindable s lid first [(t0, false)] [pl] = true)
    (fits : windowsOk s pl.core (s.launch lid).r.w (64 * (launchBnds s lid).1.toNat) (pl.slots.map (·.2)) = true)
    {u : State} (bound : bindTeam lid s t0 false pl = some u) : exec (.teamBind lid first [pl]) s = .next (startStaged u pl.core) := by
  have sorted : sortBy (fun (a b : Nat × Bool) => decide (a.1 ≤ b.1)) [(t0, false)] = [(t0, false)] := rfl
  rw [exec_teamBind, execTeamBind]
  simp only [sweep_fixed swept, members, sorted, ready, List.all_cons, List.all_nil, Bool.and_true, fits, List.zip_cons_cons,
    List.zip_nil_left, List.foldl_cons, List.foldl_nil, Option.bind_some, bound]
  rfl

/-- The records of a slot table start (R252). -/
theorem startStaged_done (u : State) (core : Nat) : startStaged u core = { u with cores := (startStaged u core).cores }
    ∧ ∀ slot b, Tbl.look (u.core core).binds slot = some b → b.state = 2 →
      Tbl.get {} ((startStaged u core).core core).binds slot = { b with state := 1 } := by
  refine ⟨rfl, fun slot b found staged => ?_⟩
  have table : ((startStaged u core).core core).binds =
      (u.core core).binds.map fun c => (c.1, if c.2.state = 2 then { c.2 with state := 1 } else c.2) :=
    congrArg Core.binds (State.core_setCore_same ..)
  rw [Tbl.get, table, look_map (fun b : Bind => if b.state = 2 then { b with state := 1 } else b), found]
  exact if_pos staged

/-- The team, its groups and their records, once bound (R252, R253). -/
theorem teamStaged_done {lref : BitVec 8} (place : placeOk s lid (s.launch lid).r.groups pl = true) :
    StageFrame s.nextId (teamEntered s lid t0 pl) (teamStaged s lid t0 pl lref)
    ∧ ∀ i < (s.launch lid).r.groups, ∀ slot base, pl.slots[i]? = some (slot, base) →
      StagedAt lid (tid := s.nextId) t0 lref pl s (teamStaged s lid t0 pl lref) (s.nextId + 1 + i) ((i, none), slot, base) := by
  rw [placeOk] at place
  simp only [Bool.and_eq_true, beq_iff_eq] at place
  obtain ⟨⟨⟨count, picked⟩, -⟩, -⟩ := place
  have slots : ((groupsToBind s lid t0 false).zip pl.slots).map (·.2.1) = pl.slots.map (·.1) := by
    have seconds : ((groupsToBind s lid t0 false).zip pl.slots).map Prod.snd = pl.slots := by
      refine List.map_snd_zip (Nat.le_of_eq ?_)
      rw [groupsToBind_fresh, List.length_map, List.length_range, ← count, List.length_map]
    calc ((groupsToBind s lid t0 false).zip pl.slots).map (·.2.1)
      _ = (((groupsToBind s lid t0 false).zip pl.slots).map Prod.snd).map (·.1) := by rw [List.map_map]; rfl
      _ = pl.slots.map (·.1) := by rw [seconds]
  have fresh : ∀ x ∈ (groupsToBind s lid t0 false).zip pl.slots, x.1.2 = none := fun x hx => by
    obtain ⟨i, -, h⟩ := List.mem_map.1 (List.of_mem_zip hx).1
    rw [← h]
  have distinct : (((groupsToBind s lid t0 false).zip pl.slots).map (·.2.1)).Nodup := by
    rw [slots, picked]
    exact (pickSlots_distinct ..).1
  obtain ⟨frame, -, staged⟩ := bindGroups_done lid (tid := s.nextId) t0 lref pl (teamEntered s lid t0 pl) _ fresh distinct
  refine ⟨frame, fun i hi slot base hs => staged i _ ?_⟩
  rw [List.getElem?_zip_eq_some]
  exact ⟨by simp [groupsToBind_fresh, hi], hs⟩

end

theorem teamBinding : Claim.TeamBinding := by
  intro s
  refine ⟨fun lid first t0 pl swept => ?_, fun core => ⟨fun off => ?_, fun on => ?_⟩⟩
  · intro l r tid members ready lim
    refine ⟨teamBind_refused swept members ready, fun fits bnds fused ref place => ?_⟩
    obtain ⟨lref, ref⟩ := Option.isSome_iff_exists.1 ref
    have step := teamBind_bound swept members ready fits (bindTeam_fresh bnds fused ref place)
    obtain ⟨frame, staged⟩ := teamStaged_done (t0 := t0) (lref := lref) place
    generalize teamStaged s lid t0 pl lref = u at step frame staged
    obtain ⟨shape, started⟩ := startStaged_done (u.setLaunch lid (launchBound s u lid t0 lref)) pl.core
    generalize startStaged (u.setLaunch lid (launchBound s u lid t0 lref)) pl.core = t at step shape started
    have launch : t.launch lid = launchBound s u lid t0 lref := by rw [shape]; exact State.launch_setLaunch_same ..
    have team : t.team tid = { teamAt l lid t0 pl with gids := (u.team tid).gids } := by
      rw [shape]
      refine frame.team.trans ?_
      rw [teamEntered, State.team_setTeam_same]
    refine ⟨t, step, ?_, ?_, ?_, ?_, fun i hi slot base hs => ?_⟩
    · rw [shape]; show u.mem = s.mem; rw [frame.shape]; rfl
    · rw [launch]; rfl
    · rw [launch]; rfl
    · rw [team]; exact ⟨rfl, rfl, rfl, rfl, rfl, rfl, rfl⟩
    · obtain ⟨group, bind⟩ := staged i hi slot base hs
      have look : Tbl.look t.groups (tid + 1 + i) = some (freshGroup (identAt l lid tid t0 pl.core i slot) r) := by rw [shape]; exact group
      have here : t.group (tid + 1 + i) = freshGroup (identAt l lid tid t0 pl.core i slot) r := by rw [State.group, Tbl.get, look]; rfl
      obtain ⟨args, team, index, teams, rest⟩ := freshGroup_scal (identAt l lid tid t0 pl.core i slot) r
      refine ⟨by rw [look]; rfl, ?_⟩
      rw [started slot _ bind rfl, ref, here]
      exact ⟨rfl, rfl, rfl, rfl, rfl, rfl, rfl, rfl, args, team, index, teams, rest, rfl, rfl, rfl, rfl, rfl, rfl, rfl, rfl, rfl, rfl⟩
  · rw [exec_trellisTimeRow, execTrellisTimeRow, if_neg off]
  · rw [exec_trellisTimeRow, execTrellisTimeRow, if_pos on]

/-- Settles O52: LAUNCH_CONSUME by the verdict on the record at the head, LAUNCH_COMPLETION by what its completion word's store
leaves, and TEAM_BIND by staging the groups one after another in distinct slots. -/
theorem launchesAndBinding : Obligations.LaunchesAndBinding := ⟨launches, teamBinding⟩

end Sys2Proof.Proofs
end

section
/-!
PROOF. Floating words (R362, R371, R372, R376 to R382): each is the ordinary operation of its entry unless R65 makes it an
affine one.
-/

namespace Sys2Proof.Proofs

open Sys2Proof.Machine Sys2Proof.Claim

/-- No source of a word is named by the even register of a pending pair. -/
def NonePending (f : Fields) (g : Group) : Prop := ∀ x ∈ [f.a, f.b, f.c], g.pendOf x = none

theorem NonePending.sources {f : Fields} {g : Group} (h : NonePending f g) :
    g.pendOf f.a = none ∧ g.pendOf f.b = none ∧ g.pendOf f.c = none :=
  ⟨h _ (by simp), h _ (by simp), h _ (by simp)⟩

theorem planAdd_none {f : Fields} {g : Group} (sub : Bool) (h : NonePending f g) : planAdd g sub f = none := by
  obtain ⟨a, b, -⟩ := h.sources
  simp only [planAdd, a, b]

theorem planMul_none {f : Fields} {g : Group} (h : NonePending f g) : planMul g f = none := by
  obtain ⟨a, b, -⟩ := h.sources
  simp only [planMul, a, b]

theorem planFma_none {f : Fields} {g : Group} (mp mc : Bool) (h : NonePending f g) : planFma g mp mc f = none := by
  obtain ⟨a, b, c⟩ := h.sources
  simp only [planFma, a, b, c]

/-- `i` runs `fn` on each element under tag `t`, or else, with RK = 1, FMT 3 and a pending source, an affine operation. -/
def FloatWord (i : Instr) (f : Fields) (t : Tag) (fn : FFmt → RM → Nat → Nat → Nat → Nat × BitVec 5) : Prop :=
  ∃ plan : Group → Option AffPlan, (∀ g, NonePending f g → plan g = none)
    ∧ ∀ s, exec i s = issueGroup i f (fun c s => reckoned c (f.rk && f.fmt == .f32) plan (floatBody c t fn) s) s

/-- A word that R66 does not list has no plan. -/
theorem floatWord_plain {i : Instr} {f : Fields} {t : Tag} {fn : FFmt → RM → Nat → Nat → Nat → Nat × BitVec 5}
    (h : ∀ s, exec i s = issueGroup i f (fun c s => floatBody c t fn s) s) : FloatWord i f t fn := by
  refine ⟨fun _ => none, fun _ _ => rfl, fun s => ?_⟩
  have plain : ∀ (c : Ctx) (s : State), reckoned c (f.rk && f.fmt == .f32) (fun _ => none) (floatBody c t fn) s = floatBody c t fn s :=
    fun _ _ => Laws.reckoned_ordinary (.inr rfl)
  simp only [plain, h]

/-- Each word of the table runs the result of its entry. -/
theorem floatOps_word {o : (Fields → Instr) × Option Tag × (FFmt → RM → Nat → Nat → Nat → Nat × BitVec 5)} (ho : o ∈ floatOps)
    (f : Fields) : FloatWord (o.1 f) f (o.2.1.getD f.fmt) o.2.2 := by
  simp only [floatOps, List.mem_cons, List.not_mem_nil, or_false] at ho
  rcases ho with rfl | rfl | rfl | rfl | rfl | rfl | rfl | rfl | rfl | rfl | rfl | rfl | rfl | rfl | rfl
  · exact ⟨_, fun _ => planAdd_none false, fun _ => rfl⟩
  · exact ⟨_, fun _ => planAdd_none true, fun _ => rfl⟩
  · exact ⟨_, fun _ => planMul_none, fun _ => rfl⟩
  · exact ⟨_, fun _ => planFma_none false false, fun _ => rfl⟩
  · exact ⟨_, fun _ => planFma_none false true, fun _ => rfl⟩
  · exact ⟨_, fun _ => planFma_none true false, fun _ => rfl⟩
  · exact ⟨_, fun _ => planFma_none true true, fun _ => rfl⟩
  all_goals exact floatWord_plain fun _ => rfl

/-- The rounding of a lane is the one at the issue: what settling changes holds no FMODE. -/
theorem floatWord_lanes {i : Instr} {f : Fields} {t : Tag} {fn : FFmt → RM → Nat → Nat → Nat → Nat × BitVec 5}
    (h : FloatWord i f t fn) (uni : f.uni = false) :
    LaneWordIf (fun g => f.rk = false ∨ f.fmt ≠ .f32 ∨ NonePending f g) i f (usesABC f) t fun g l =>
      floatLane f (effRm g.csr.fmode f.rm) fn (g.src f f.a l) (g.src f f.b l) (g.src f f.c l) := by
  obtain ⟨plan, none_, run⟩ := h
  refine laneWordIf (fun g k l => floatLane f (effRm g.csr.fmode f.rm) fn (k.src f f.a l) (k.src f f.b l) (k.src f f.c l))
    (fun g k same l => ?_) fun s gid sub hI ordinary => ?_
  · obtain ⟨-, -, -, -, -, csr, -⟩ := same.fields
    rw [csr]
  · rw [run, issueGroup_group hI, Laws.reckoned_ordinary, floatBody, if_neg (by rw [uni]; exact Bool.false_ne_true)]
    · rfl
    · rcases ordinary with rk | fmt | pend
      · exact .inl (by rw [rk]; rfl)
      · exact .inl (by simp [fmt])
      · exact .inr (none_ _ pend)

theorem floatWord_uni {i : Instr} {f : Fields} {t : Tag} {fn : FFmt → RM → Nat → Nat → Nat → Nat × BitVec 5}
    (h : FloatWord i f t fn) (uni : f.uni = true) : UniWord i f [f.a, f.b, f.c] fun g _ rd =>
      let low := fun x => (rd x).toNat % 2 ^ 32
      let r := fn .f32 (effRm g.csr.fmode f.rm) (low f.a) (low f.b) (low f.c)
      (BitVec.ofNat 64 r.1, r.2) := by
  obtain ⟨plan, -, run⟩ := h
  refine uniWord fun s gid sub hI => ?_
  rw [run, issueGroup_group hI, reckoned_uni uni, floatBody, if_pos uni]
  rfl

/-- Settles O5: every word of the table is a floating word with the result of its entry, by lane and under UNI. -/
theorem floatArithmetic : Obligations.FloatArithmetic := fun _ ho f =>
  ⟨floatWord_lanes (floatOps_word ho f), floatWord_uni (floatOps_word ho f)⟩

end Sys2Proof.Proofs
end

section
/-!
PROOF. Control registers and the words that read one scalar value of the machine (R58, R73, R257, R354, R355, R438, R440).
-/

namespace Sys2Proof.Proofs

open Sys2Proof.Machine Sys2Proof.Claim

/-! ### Completion with a given effect -/

theorem latchesAside_setGroup {u v : State} (h : LatchesAside u v) (gid : Nat) (g : Group) :
    LatchesAside (u.setGroup gid g) (v.setGroup gid g) := by
  obtain ⟨shape, cores⟩ := h
  refine ⟨?_, fun n => by rw [State.setGroup_core, State.setGroup_core, cores]⟩
  calc v.setGroup gid g
    _ = { v with groups := (v.setGroup gid g).groups, cores := (v.setGroup gid g).cores } := State.setGroup_shape ..
    _ = { u with groups := (u.setGroup gid g).groups, cores := (v.setGroup gid g).cores } := by
      rw [State.setGroup_groups, State.setGroup_groups, shape]
    _ = { u.setGroup gid g with cores := (v.setGroup gid g).cores } := by rw [State.setGroup_shape u]

theorem latchesAside_setTeam {u v : State} (h : LatchesAside u v) (tid : Nat) (x : Team) :
    LatchesAside (u.setTeam tid x) (v.setTeam tid x) := by
  obtain ⟨shape, cores⟩ := h
  exact ⟨by rw [shape]; rfl, cores⟩

/-- A meaning that leaves `v`, the effect `u` but for the latches, completes with that effect; it touches neither the WSKIPs nor
the sleeps of its group. -/
theorem does_of {i : Instr} {f : Fields} {s u v : State} {gid sub : Nat} (hv : LatchesAside u v)
    (live : (Tbl.look u.groups gid).isSome = true) (skips : (u.group gid).wskipNow = (s.group gid).wskipNow)
    (sleeps : (u.group gid).sleep = (s.group gid).sleep)
    (run : exec i s = .next (settleGroup (ctx i f s gid sub) false s (.ok v))) : Does i s gid sub (nextPc f s gid sub) u := by
  obtain ⟨shape, cores⟩ := hv
  have groups : v.groups = u.groups := by rw [shape]
  have look : Tbl.look v.groups gid = some (u.group gid) := by rw [groups]; exact look_group live
  have ended : settleGroup (ctx i f s gid sub) false s (.ok v) = endTurn (v.setGroup gid
      { issuedAt (u.group gid) sub (nextPc f s gid sub) with wrote := (u.group gid).wrote }) := by
    rw [settleGroup_ok, retire_eq look]
    simp only [show (ctx i f s gid sub).g s = s.group gid from rfl, ← skips, ← sleeps, skip_used, sleep_used]
    rfl
  refine ⟨_, run, ?_⟩
  rw [ended]
  refine ⟨?_, fun n => ?_, fun k hk => ?_, ?_⟩
  · rw [State.setGroup_shape, shape]; rfl
  · rw [State.core_endTurn, State.setGroup_core, cores]
  · rw [State.group_endTurn, State.group_setGroup_other _ _ hk, State.group, groups]; rfl
  · rw [State.group_endTurn, State.group_setGroup_same]; rfl

/-- A meaning that leaves its group as `g`. -/
theorem does_setGroup {i : Instr} {f : Fields} {s : State} {gid sub : Nat} {g : Group} (skips : g.wskipNow = (s.group gid).wskipNow)
    (sleeps : g.sleep = (s.group gid).sleep)
    (run : exec i s = .next (settleGroup (ctx i f s gid sub) false s (.ok ((holdLatch s (ctx i f s gid sub)).setGroup gid g)))) :
    Does i s gid sub (nextPc f s gid sub) (s.setGroup gid g) :=
  does_of (latchesAside_setGroup (latchesAside_holdLatch ..) gid g) (by simp) (by simpa using skips) (by simpa using sleeps) run

theorem putS_turn (g : Group) (d : Opd) (x : W64) : (g.putS d x).wskipNow = g.wskipNow ∧ (g.putS d x).sleep = g.sleep := by
  unfold Group.putS
  split <;> exact ⟨rfl, rfl⟩

/-- A meaning that writes one value to its scalar destination. -/
theorem does_withS {i : Instr} {f : Fields} {s : State} {gid sub : Nat} {x : W64}
    (run : exec i s = .next (settleGroup (ctx i f s gid sub) false s
      (.ok ((holdLatch s (ctx i f s gid sub)).setGroup gid ((s.group gid).putS f.d x))))) :
    Does i s gid sub (nextPc f s gid sub) (withS s gid f.d x) :=
  does_setGroup (putS_turn ..).1 (putS_turn ..).2 run

/-! ### The values of CSRs -/

theorem tmask_eq (c : Csrs) : c.tmask = BitVec.ofNat 64
    ((if c.m then 2 ^ 0 else 0) + (if c.pend then 2 ^ 1 else 0) + (if c.wskip then 2 ^ 2 else 0)) := by
  unfold Csrs.tmask
  cases c.m <;> cases c.pend <;> cases c.wskip <;> rfl

theorem ecnt_eq (c : Csrs) : c.ecnt = BitVec.ofNat 64
    (c.cp % 256 * 2 ^ 0 + c.rd % 256 * 2 ^ 8 + c.mp % 256 * 2 ^ 16 + c.ar % 256 * 2 ^ 24 + c.th % 256 * 2 ^ 32) := by
  rw [Csrs.ecnt, pow_zero, Nat.mul_one]

/-- CSRR reads what the table says (R58). -/
theorem csrRead_eq {c : Nat × (State → Group → W64)} (hc : c ∈ csrReads) (s : State) (g : Group) : csrRead s g c.1 = c.2 s g := by
  rw [csrReads, List.mem_append] at hc
  rcases hc with hc | hc
  · simp only [List.mem_cons, List.not_mem_nil, or_false] at hc
    rcases hc with rfl | rfl | rfl | rfl | rfl | rfl | rfl | rfl | rfl | rfl | rfl | rfl | rfl | rfl
    iterate 3 rfl
    · exact ecnt_eq g.csr
    iterate 7 rfl
    · exact tmask_eq g.csr
    iterate 2 rfl
  · obtain ⟨i, hi, rfl⟩ := List.mem_map.1 hc
    have hi : i < 8 := List.mem_range.1 hi
    interval_cases i <;> rfl

theorem extract_low (n : Nat) (x : W64) : x.extractLsb' 0 n = BitVec.ofNat n x.toNat := by
  rw [BitVec.extractLsb', Nat.shiftRight_zero]

/-- An address with its two low bits cleared. -/
theorem clear_low2 (x : W64) : x &&& ~~~3 = BitVec.ofNat 64 (x.toNat - x.toNat % 2 ^ 2) := by
  have three : ∀ i < 64, (3 : W64).getLsbD i = decide (i < 2) := by decide
  have low : x.toNat - x.toNat % 2 ^ 2 = x.toNat / 2 ^ 2 * 2 ^ 2 := by omega
  apply BitVec.eq_of_getLsbD_eq
  intro i hi
  rw [BitVec.getLsbD_and, BitVec.getLsbD_not, three i hi, BitVec.getLsbD_ofNat, low, Nat.testBit_mul_two_pow, Nat.testBit_div_two_pow]
  by_cases h : i < 2
  · simp [h]
  · simp [h, hi, Nat.not_lt.1 h, BitVec.getLsbD]

theorem watchBits_eq (x : W64) : x &&& watchBits =
    bitsOf 64 fun b => x.getLsbD b && (decide (b < 52) || decide (56 ≤ b ∧ b ≤ 59) || decide (61 ≤ b)) := by
  have mask : ∀ b < 64, watchBits.getLsbD b = (decide (b < 52) || decide (56 ≤ b ∧ b ≤ 59) || decide (61 ≤ b)) := by decide
  exact (Laws.bitsOf_eq fun b hb => by rw [BitVec.getLsbD_and, mask b hb]).symm

theorem aview_eq (x : W64) : x.extractLsb' 0 16 &&& 0xFF3F = bitsOf 16 fun i => x.getLsbD i && decide (i ≠ 6) && decide (i ≠ 7) := by
  have mask : ∀ i < 16, (0xFF3F : BitVec 16).getLsbD i = (decide (i ≠ 6) && decide (i ≠ 7)) := by decide
  refine (Laws.bitsOf_eq fun i hi => ?_).symm
  rw [BitVec.getLsbD_and, BitVec.getLsbD_extractLsb', mask i hi, Nat.zero_add, decide_eq_true hi, Bool.true_and, Bool.and_assoc]

/-- CSRW leaves what the table says (R355). -/
theorem csrWrite_eq {c : Nat × (Csrs → W64 → Csrs)} (hc : c ∈ csrWrites) (r : Csrs) (x : W64) : csrWrite r c.1 x = c.2 r x := by
  rw [csrWrites, List.mem_append] at hc
  rcases hc with hc | hc
  · simp only [List.mem_cons, List.not_mem_nil, or_false] at hc
    rcases hc with rfl | rfl | rfl | rfl | rfl | rfl | rfl
    · simp only [csrWrite, extract_low]
    · simp only [csrWrite, extract_low]
    · simp only [csrWrite, aview_eq]
    · rfl
    · simp only [csrWrite, clear_low2]
    · simp only [csrWrite, clear_low2]
    · rfl
  · obtain ⟨i, hi, rfl⟩ := List.mem_map.1 hc
    have hi : i < 8 := List.mem_range.1 hi
    simp only [← watchBits_eq]
    interval_cases i <;> rfl

/-- Only watchpoints have numbers from 0x10 on, and no number of the table is TSF's. -/
theorem csrWrites_number {c : Nat × (Csrs → W64 → Csrs)} (hc : c ∈ csrWrites) : c.1 ≠ 0x001 := by
  have : ∀ n ∈ csrWrites.map (·.1), n ≠ 0x001 := by decide
  exact this _ (List.mem_map_of_mem hc)

/-! ### CSRR and CSRW -/

theorem exec_csrr (f : Fields) (s : State) : exec (.csrr f) s = execCsrr f s := rfl
theorem exec_csrw (f : Fields) (s : State) : exec (.csrw f) s = execCsrw f s := rfl

/-- What CSRW leaves once its source is there (R355). -/
def csrWritten (s : State) (g : Group) (gid n : Nat) (x : W64) : State :=
  if n = 0x001 then s.setTeam g.ident.tid { s.team g.ident.tid with tsf := x.extractLsb' 0 5 }
  else s.setGroup gid { g with csr := csrWrite g.csr n x }

/-- A watchpoint over a range too large is refused (R278), and nothing else. -/
theorem guardI_watch (c : Ctx) (n : Nat) (x : W64) :
    guardI c (!(0x10 ≤ n && n ≤ 0x17 && decide (14 ≤ (x.extractLsb' 56 4).toNat))) =
      if 0x10 ≤ n ∧ n ≤ 0x17 ∧ 14 ≤ x.toNat / 2 ^ 56 % 16 then illop c else .ok () := by
  have size : (x.extractLsb' 56 4).toNat = x.toNat / 2 ^ 56 % 16 := by
    rw [BitVec.extractLsb'_toNat, Nat.shiftRight_eq_div_pow]
  rw [guardI, size]
  by_cases large : 0x10 ≤ n ∧ n ≤ 0x17 ∧ 14 ≤ x.toNat / 2 ^ 56 % 16
  · rw [if_pos large, if_neg (by simpa [and_assoc] using large)]
  · rw [if_neg large, if_pos (by simp; omega)]

/-- CSRW with its source there. -/
theorem csrw_run {f : Fields} {s : State} {gid sub : Nat} (hI : Issuing s gid sub) (hs : Delivered (s.group gid) [f.a]) :
    let g := s.group gid
    let c := ctx (.csrw f) f s gid sub
    let n := f.c.code.toNat
    let x := g.srcU sub f f.a
    exec (.csrw f) s = .next (settleGroup c false s
      (if 0x10 ≤ n ∧ n ≤ 0x17 ∧ 14 ≤ x.toNat / 2 ^ 56 % 16 then illop c else .ok (csrWritten (holdLatch s c) g gid n x))) := by
  intro g c n x
  have meaning : exec (.csrw f) s = .next (settleGroup c false s ((scalReady g [f.a]).bind fun _ =>
      (guardI c (!(0x10 ≤ n && n ≤ 0x17 && decide (14 ≤ (x.extractLsb' 56 4).toNat)))).bind fun _ =>
        if n = 0x001 then .ok ((holdLatch s c).setTeam g.ident.tid { s.team g.ident.tid with tsf := x.extractLsb' 0 5 })
        else .ok ((holdLatch s c).setGroup gid { g with csr := csrWrite g.csr n x }))) := by
    rw [exec_csrw, execCsrw, issueGroup_group hI]; rfl
  rw [meaning, scalReady_ok hs, guardI_watch]
  split
  · rfl
  · simp only [csrWritten, Except.bind]
    split <;> rfl

theorem controlRegisters : Claim.ControlRegisters := by
  intro f s gid sub hI g x
  refine ⟨fun c hc hn => does_withS ?_, fun hs => ⟨fun c hc hn small => ?_, fun hn => ?_, fun i hi hn large => ?_⟩⟩
  · rw [exec_csrr, execCsrr, issueGroup_group hI]
    simp only [ctx_g_holdLatch, ctx_g, hn, ← csrRead_eq hc]
    cases c; rfl
  · have accepted : ¬ (0x10 ≤ f.c.code.toNat ∧ f.c.code.toNat ≤ 0x17 ∧ 14 ≤ x.toNat / 2 ^ 56 % 16) := fun ⟨from_, _, large⟩ =>
      absurd (small (hn ▸ from_)) (Nat.not_lt.2 large)
    refine does_setGroup rfl rfl ?_
    rw [csrw_run hI hs, if_neg accepted, csrWritten,
      if_neg (by rw [hn]; exact csrWrites_number hc), hn, csrWrite_eq hc]
  · refine does_of (latchesAside_setTeam (latchesAside_holdLatch s (ctx (.csrw f) f s gid sub)) _ _) hI.2 rfl rfl ?_
    rw [csrw_run hI hs, if_neg (by omega), csrWritten, if_pos hn, extract_low]
    rfl
  · refine traps_of (j := false) ?_
    rw [csrw_run hI hs, if_pos ⟨by omega, by omega, large⟩]
    rfl

/-! ### TICK, VDHOP, RKQ -/

theorem exec_tick (f : Fields) (s : State) : exec (.tick f) s = execTick f s := rfl
theorem exec_vdhop (f : Fields) (s : State) : exec (.vdhop f) s = execVdhop f s := rfl
theorem exec_rkq (f : Fields) (s : State) : exec (.rkq f) s = execRkq f s := rfl

theorem vdie_eq (s : State) (p v : Nat) : vdie s p v = if v < 16 then ((s.part p).e.dies[v]?).filter (· < 16) else none := by
  rw [vdie]
  cases (s.part p).e.dies[v]? <;> by_cases h : v < 16 <;> simp [h, Option.filter]

/-- The ring distance of two dies, or 0xFF, as a value (R440). -/
theorem hopCount_eq (u v : Option Nat) :
    BitVec.ofNat 64 (match u, v with | some a, some b => min (max a b - min a b) (16 - (max a b - min a b)) | _, _ => 0xFF) =
      match u, v with
      | some a, some b => BitVec.ofNat 64 (min (max a b - min a b) (16 - (max a b - min a b)))
      | _, _ => 0xFF := by
  cases u <;> cases v <;> rfl

/-- Bits counted from bit `k` on. -/
theorem bits_sum (p : Nat → Bool) (k : Nat) (l : List Nat) (n : Nat) :
    (l.filter p).foldl (fun n j => n + 2 ^ j) n * 2 ^ k = n * 2 ^ k + (l.map fun j => if p j then 2 ^ (k + j) else 0).sum := by
  induction l generalizing n with
  | nil => simp
  | cons j l ih =>
    by_cases h : p j
    · rw [List.filter_cons_of_pos h, List.foldl_cons, ih, List.map_cons, List.sum_cons, if_pos h, Nat.add_mul, pow_add]
      ring
    · rw [List.filter_cons_of_neg h, ih, List.map_cons, List.sum_cons, if_neg h, Nat.zero_add]

theorem rkqValue_eq (g : Group) (det : Bool) (k : Nat) :
    let bits := fun (p : Slot → Bool) (at_ : Nat) => ((List.range 8).map fun j => if p (g.slot j) then 2 ^ (at_ + j) else 0).sum
    rkqValue g det k = BitVec.ofNat 64 (bits (·.busy) 0 + (if det then 0 else bits (·.arr) 8 + bits (·.fail) 16)
      + (if k < g.ident.k then (g.slot k).holders % 64 * 2 ^ 24 else 0)) := by
  intro bits
  have shifted : ∀ (p : Slot → Bool) (a : Nat),
      ((List.range 8).filter fun j => p (g.slot j)).foldl (fun n j => n + 2 ^ j) 0 * 2 ^ a = bits p a := fun p a => by
    rw [bits_sum (fun j => p (g.slot j)), Nat.zero_mul, Nat.zero_add]
  have busy := shifted (·.busy) 0
  rw [pow_zero, Nat.mul_one] at busy
  have holders : (if k < g.ident.k then (g.slot k).holders else 0) % 64 * 2 ^ 24 =
      if k < g.ident.k then (g.slot k).holders % 64 * 2 ^ 24 else 0 := by split <;> rfl
  rw [rkqValue]
  simp only [shifted, busy, holders]
  congr 1
  rw [Nat.add_comm (bits (·.fail) 16)]
  ring

/-- A beam core whose meaning writes one scalar of its pass. -/
theorem beamDoes_setScal {i : Instr} {f : Fields} {s : State} {q : Nat} {r : Run} {n : Nat} {x : W64}
    (run : exec i s = .next (settleBeam q f.len.bytes false s (.ok (s.setRun q (r.setScal n x))))) :
    BeamDoes i s q r { r.setScal n x with pc := r.pc + BitVec.ofNat 64 f.len.bytes } := by
  refine ⟨_, run, ?_⟩
  rw [settleBeam_ok]
  exact onlyRun_done r.pass.tid 0 (State.orTsf_zero ..).symm f.len.bytes

theorem scalarReads : Claim.ScalarReads := by
  refine fun f s => ⟨fun gid sub hI => ?_, fun q r n hI hd => beamDoes_setScal ?_⟩
  · intro g u v die bits det k
    refine ⟨does_withS ?_, fun hs => does_withS ?_, does_withS ?_⟩
    · rw [exec_tick, execTick, issueBoth_group hI]; rfl
    · rw [exec_vdhop, execVdhop, issueGroup_group hI]
      have hs : Delivered (s.group gid) [f.a, f.b] := hs
      simp only [ctx_g_holdLatch, ctx_g, scalReady_ok hs, bind, Except.bind, pure, Except.pure, vdie_eq]
      exact congrArg (fun x => Host.Outcome.next (settleGroup (ctx (.vdhop f) f s gid sub) false s (.ok
        ((holdLatch s (ctx (.vdhop f) f s gid sub)).setGroup gid ((s.group gid).putS f.d x))))) (hopCount_eq (die u) (die v))
    · rw [exec_rkq, execRkq, issueGroup_group hI, ← rkqValue_eq]; rfl
  · rw [exec_tick, execTick, issueBoth_beam hI, hd]

/-- Settles O18: a CSR by its entry of the table, read and written, and the words that write one value to a scalar. -/
theorem scalarState : Obligations.ScalarState := ⟨controlRegisters, scalarReads⟩

end Sys2Proof.Proofs
end

section
/-!
PROOF. One pair settled, and several one after the other (R54, R68, R69).
-/

namespace Sys2Proof.Proofs

open Sys2Proof.Machine Sys2Proof.Claim

/-! ### One pair -/

/-- The granules of a vector register. -/
theorem mem_granules {n x : Nat} : x ∈ Group.granules (1024 * n) 1024 ↔ x / 8 = n := by
  simp only [Group.granules, List.mem_map, List.mem_range]
  refine ⟨fun ⟨i, hi, e⟩ => by omega, fun h => ⟨x - 8 * n, by omega, by omega⟩⟩

theorem regsOf_vector (n : Nat) : regsOf (1024 * n) 1024 = [n] := by
  have : (1024 * n + 1024 - 1) / 1024 - 1024 * n / 1024 + 1 = 1 := by omega
  simp only [regsOf, this]
  simp

theorem settled_win (g : Group) (p k : Nat) : (g.settled p k).win =
    g.win.putLanes (1024 * p) (List.range 256) fun l => (g.settleLane p k l).1 := by
  unfold Group.settled
  simp only [Group.dropHolder, Group.setSlot, Group.win_setTags, Group.win_noteWrite, Group.win_setSt]

/-- A settled lane holds `rne(a × σ + b)` (R69). -/
theorem settled_lane (g : Group) (p k : Nat) {l : Nat} (hl : l < 256) :
    (g.settled p k).lane p l = BitVec.ofNat 32 (g.settleLane p k l).1 := by
  rw [Group.lane, settled_win, Mem.num_putLanes, if_pos (List.mem_range.2 hl)]
  exact BitVec.eq_of_toNat_eq (by simp)

theorem settled_num (g : Group) (p k : Nat) {a : Nat} (h : a + 4 ≤ 1024 * p ∨ 1024 * p + 1024 ≤ a) :
    (g.settled p k).win.num a 4 = g.win.num a 4 := by
  rw [settled_win]
  exact Mem.num_putLanes_other _ _ _ _ _ fun l hl => by have := List.mem_range.1 hl; omega

theorem settled_read (g : Group) (p k : Nat) {a : Nat} (h : a < 1024 * p ∨ 1024 * p + 1024 ≤ a) :
    (g.settled p k).win.read a = g.win.read a := by
  rw [settled_win]
  exact Mem.read_putLanes _ _ _ _ _ fun l hl => by have := List.mem_range.1 hl; omega

theorem settled_st (g : Group) (p k r : Nat) : (g.settled p k).st r = if r = p ∨ r = p + 1 then .full else g.st r := by
  have st : (g.settled p k).st r = ((g.setSt p .full).setSt (p + 1) .full).st r := by unfold Group.settled; rfl
  rw [st]
  by_cases odd : r = p + 1
  · rw [odd, Group.st_setSt_same, if_pos (.inr rfl)]
  · rw [Group.st_setSt_other _ _ odd]
    by_cases even : r = p
    · rw [even, Group.st_setSt_same, if_pos (.inl rfl)]
    · rw [Group.st_setSt_other _ _ even, if_neg (by omega)]

theorem settled_tags (g : Group) (p k : Nat) : (g.settled p k).tags =
    (Group.granules (1024 * p) 1024).foldl (fun ts x => Tbl.put .raw ts x .f32)
      ((Group.granules (1024 * (p + 1)) 1024).foldl (fun ts x => Tbl.put .raw ts x .raw) g.tags) := by
  unfold Group.settled
  simp only [Group.dropHolder, Group.setSlot, Group.setTags, Group.noteWrite, Group.setSt]

theorem settled_tagAt (g : Group) (p k x : Nat) :
    (g.settled p k).tagAt x = if x / 8 = p then .f32 else if x / 8 = p + 1 then .raw else g.tagAt x := by
  rw [Group.tagAt, settled_tags, Group.get_foldl_put, Group.get_foldl_put]
  simp only [mem_granules, Group.tagAt]

/-- The slot of a settled pair loses a holder and is freed with its last (R70). -/
theorem settled_slot_same (g : Group) (p k : Nat) : (g.settled p k).slot k =
    { g.slot k with holders := (g.slot k).holders - 1, busy := (g.slot k).busy && decide (1 < (g.slot k).holders) } := by
  unfold Group.settled
  exact Tbl.get_put_same ..

theorem settled_slot_other (g : Group) (p : Nat) {k j : Nat} (h : j ≠ k) : (g.settled p k).slot j = g.slot j := by
  unfold Group.settled
  exact Tbl.get_put_other _ _ _ h

/-- A slot on which a pair can settle: its σ has arrived, and no failure of it traps (R69). -/
def Able (x : Slot) : Prop := x.arr = true ∧ ¬ (x.fail = true ∧ x.tf = true)

theorem settleTrap_able {g : Group} {p k : Nat} (hp : g.st p = .pend k) (able : Able (g.slot k)) (bt : Bool) :
    settleTrap g p bt = .ok () := by
  obtain ⟨arr, quiet⟩ := able
  simp only [settleTrap, hp, arr, Bool.not_true, Bool.false_and, Bool.false_eq_true, if_false, Bool.true_and, Bool.and_eq_true, quiet]

/-- A σ that has not arrived traps PENDRD only for a source that does not wait (R54). -/
theorem settleTrap_late {g : Group} {p k : Nat} (hp : g.st p = .pend k) (arr : (g.slot k).arr = false) (bt : Bool) :
    settleTrap g p bt = if bt = true then trapN Cause.pendrd p else .ok () := by
  cases bt <;> simp [settleTrap, hp, arr]

/-- A failure that traps (R69). -/
theorem settleTrap_failed {g : Group} {p k : Nat} (hp : g.st p = .pend k) (arr : (g.slot k).arr = true) (fail : (g.slot k).fail = true)
    (tf : (g.slot k).tf = true) (bt : Bool) :
    settleTrap g p bt = trapN (if (g.slot k).cause then Cause.memue else Cause.arrtmo) k := by
  simp [settleTrap, hp, arr, fail, tf]

/-- The flags that a settle raises (R59, R69). -/
def settleFlags (g : Group) (p k : Nat) : BitVec 5 :=
  orFlags ((List.range 256).map fun l => (g.settleLane p k l).2) ||| flagIf ((g.slot k).anv || (g.slot k).fail) Flag.nv

theorem settlePair_able {s : State} {gid p k : Nat} (hp : (s.group gid).st p = .pend k) (able : Able ((s.group gid).slot k))
    (bt : Bool) : settlePair gid p bt s = .ok ((s.setGroup gid ((s.group gid).settled p k)).orTsf (s.group gid).ident.tid
      (settleFlags (s.group gid) p k)) := by
  unfold settlePair
  simp only [settleTrap_able hp able, hp, able.1, Bool.not_true, Bool.false_eq_true, if_false, Except.bind]
  rfl

/-- A source that waits for its σ waits for the settle (R54). -/
theorem settlePair_waits {s : State} {gid p k : Nat} (hp : (s.group gid).st p = .pend k) (arr : ((s.group gid).slot k).arr = false) :
    settlePair gid p false s = .error .wait := by
  unfold settlePair
  simp only [settleTrap_late hp arr, hp, arr, Bool.not_false, Bool.false_eq_true, if_false, if_true, Except.bind]

/-- What settles the pair `p` of `g` on slot `k` leaves: every register, tag and byte outside the pair, and the slots but for the
count of `k`. -/
structure PairSettled (g m : Group) (p k : Nat) : Prop where
  lane : ∀ l < 256, m.lane p l = BitVec.ofNat 32 (g.settleLane p k l).1
  num : ∀ a, a + 4 ≤ 1024 * p ∨ 1024 * p + 1024 ≤ a → m.win.num a 4 = g.win.num a 4
  read : ∀ a, a < 1024 * p ∨ 1024 * p + 1024 ≤ a → m.win.read a = g.win.read a
  st : ∀ r, m.st r = if r = p ∨ r = p + 1 then .full else g.st r
  tagAt : ∀ x, m.tagAt x = if x / 8 = p then .f32 else if x / 8 = p + 1 then .raw else g.tagAt x
  own : m.slot k =
    { g.slot k with holders := (g.slot k).holders - 1, busy := (g.slot k).busy && decide (1 < (g.slot k).holders) }
  others : ∀ j, j ≠ k → m.slot j = g.slot j
  u : m.u = g.u

theorem pairSettled_settled (g : Group) (p k : Nat) : PairSettled g (g.settled p k) p k where
  lane := fun _ => settled_lane g p k
  num := fun _ => settled_num g p k
  read := fun _ => settled_read g p k
  st := settled_st g p k
  tagAt := settled_tagAt g p k
  own := settled_slot_same g p k
  others := fun _ => settled_slot_other g p
  u := by rw [Group.u, (Group.same_settled g p k).fields.1, Group.u]

/-- It says nothing of the records of a step and a turn. -/
theorem PairSettled.recorded {g m : Group} {p k : Nat} (h : PairSettled g m p k) : PairSettled g { m with wrote := [] } p k :=
  { h with }

theorem PairSettled.issued {g m : Group} {p k : Nat} (h : PairSettled g m p k) (sub : Nat) (pc : W64) :
    PairSettled g (issuedAt m sub pc) p k := { h with }

/-- No slot's arrival or failure changes. -/
theorem PairSettled.slot {g m : Group} {p k : Nat} (h : PairSettled g m p k) (j : Nat) :
    (m.slot j).arr = (g.slot j).arr ∧ (Able (g.slot j) → Able (m.slot j)) := by
  by_cases hj : j = k
  · subst hj; rw [h.own]; exact ⟨rfl, id⟩
  · rw [h.others j hj]; exact ⟨rfl, id⟩

/-- What another pair settles from stays, if this one lies below U. -/
theorem PairSettled.settleLane {g m : Group} {p q k j l : Nat} (h : PairSettled g m p k) (hp : p % 2 = 0) (hq : q % 2 = 0)
    (hne : q ≠ p) (below : 1024 * p + 2048 ≤ g.u) (hl : l < 256) : m.settleLane q j l = g.settleLane q j l := by
  have a : m.lane (q + 1) l = g.lane (q + 1) l := congrArg (BitVec.ofNat 32) (h.num _ (by omega))
  have b : m.lane q l = g.lane q l := congrArg (BitVec.ofNat 32) (h.num _ (by omega))
  have σ : m.sigma j l = g.sigma j l := by rw [Group.sigma, h.u]; exact h.num _ (by omega)
  rw [Group.settleLane, a, b, σ, Group.settleLane]

/-! ### Several pairs -/

/-- Group `h` is `g` with the pairs at the even registers `ps` settled, each on its slot as `g` has it. -/
structure PairsSettled (g h : Group) (ps : List Nat) : Prop where
  lanes : ∀ p ∈ ps, ∀ k, g.st p = .pend k → (∀ q ∈ ps, 1024 * q + 2048 ≤ g.u) →
    ∀ l < 256, h.lane p l = BitVec.ofNat 32 (g.settleLane p k l).1
  st : ∀ r, h.st r = if Group.even r ∈ ps then .full else g.st r
  tagAt : ∀ x, h.tagAt x = if Group.even (x / 8) ∈ ps then (if x / 8 % 2 = 0 then .f32 else .raw) else g.tagAt x
  read : ∀ a, (∀ p ∈ ps, a < 1024 * p ∨ 1024 * p + 1024 ≤ a) → h.win.read a = g.win.read a
  slot : ∀ j, (h.slot j).arr = (g.slot j).arr ∧ (Able (g.slot j) → Able (h.slot j))

theorem PairsSettled.issued {g m : Group} {ps : List Nat} (h : PairsSettled g m ps) (sub : Nat) (pc : W64) :
    PairsSettled g (issuedAt m sub pc) ps := { h with }

theorem PairsSettled.nil (g : Group) : PairsSettled g g [] where
  lanes := fun _ h => absurd h List.not_mem_nil
  st := fun _ => (if_neg List.not_mem_nil).symm
  tagAt := fun _ => (if_neg List.not_mem_nil).symm
  read := fun _ _ => rfl
  slot := fun _ => ⟨rfl, id⟩

/-- The registers of a pair. -/
theorem even_mem_cons {p r : Nat} {ps : List Nat} (hp : p % 2 = 0) (hr : Group.even r ∉ ps) :
    Group.even r ∈ p :: ps ↔ r = p ∨ r = p + 1 := by
  rw [List.mem_cons, or_iff_left hr, Group.even]
  omega

theorem PairsSettled.cons {g m h : Group} {p k : Nat} {ps : List Nat} (first : PairSettled g m p k) (hp : p % 2 = 0)
    (hpk : g.st p = .pend k) (new : p ∉ ps) (hps : ∀ q ∈ ps, q % 2 = 0) (rest : PairsSettled m h ps) : PairsSettled g h (p :: ps) where
  lanes := fun q hq j hj below l hl => by
    rcases List.mem_cons.1 hq with rfl | hq
    · obtain rfl : k = j := by rw [hpk] at hj; cases hj; rfl
      rw [← first.lane l hl]
      refine congrArg (BitVec.ofNat 32) (congrArg natOfBytes (Mem.bytes_congr fun i hi => rest.read _ fun r hr => ?_))
      have := hps r hr
      have : r ≠ q := fun e => new (e ▸ hr)
      omega
    · have hne : q ≠ p := fun e => new (e ▸ hq)
      have := hps q hq
      have still : m.st q = .pend j := by rw [first.st, if_neg (by omega)]; exact hj
      rw [rest.lanes q hq j still (fun r hr => first.u ▸ below r (List.mem_cons_of_mem _ hr)) l hl,
        first.settleLane hp (hps q hq) hne (below p (List.mem_cons_self ..)) hl]
  st := fun r => by
    rw [rest.st, first.st]
    by_cases hr : Group.even r ∈ ps
    · rw [if_pos hr, if_pos (List.mem_cons_of_mem _ hr)]
    · rw [if_neg hr]
      exact if_congr (even_mem_cons hp hr).symm rfl rfl
  tagAt := fun x => by
    rw [rest.tagAt, first.tagAt]
    by_cases hr : Group.even (x / 8) ∈ ps
    · rw [if_pos hr, if_pos (List.mem_cons_of_mem _ hr)]
    · rw [if_neg hr]
      simp only [even_mem_cons hp hr]
      by_cases low : x / 8 = p
      · rw [if_pos low, if_pos (by omega), if_pos (by omega)]
      · by_cases high : x / 8 = p + 1
        · rw [if_neg low, if_pos high, if_pos (by omega), if_neg (by omega)]
        · rw [if_neg low, if_neg high, if_neg (by omega)]
  read := fun a ha => (rest.read a fun q hq => ha q (List.mem_cons_of_mem _ hq)).trans (first.read a (ha p (List.mem_cons_self ..)))
  slot := fun j => ⟨(rest.slot j).1.trans (first.slot j).1, fun hj => (rest.slot j).2 ((first.slot j).2 hj)⟩

/-- Pairs that can all settle do, in any order. -/
theorem settleAll_able {gid : Nat} (ps : List Nat) : ∀ s : State, ps.Nodup → (∀ p ∈ ps, p % 2 = 0) →
    (∀ p ∈ ps, ∃ k, (s.group gid).st p = .pend k ∧ Able ((s.group gid).slot k)) →
    ∃ t, settleAll gid (ps.map fun p => (p, false)) s = .ok t ∧ PairsSettled (s.group gid) (t.group gid) ps := by
  induction ps with
  | nil => exact fun s _ _ _ => ⟨s, rfl, .nil _⟩
  | cons p ps ih =>
    intro s nodup even able
    obtain ⟨new, nodup⟩ := List.nodup_cons.1 nodup
    obtain ⟨k, hk, hable⟩ := able p (List.mem_cons_self ..)
    have evens : ∀ q ∈ ps, q % 2 = 0 := fun q hq => even q (List.mem_cons_of_mem _ hq)
    have hp := even p (List.mem_cons_self ..)
    set u := (s.setGroup gid ((s.group gid).settled p k)).orTsf (s.group gid).ident.tid (settleFlags (s.group gid) p k) with hu
    have first : PairSettled (s.group gid) (u.group gid) p k := by
      rw [hu, State.group_orTsf, State.group_setGroup_same]; exact (pairSettled_settled _ p k).recorded
    obtain ⟨t, run, rest⟩ := ih u nodup evens fun q hq => by
      obtain ⟨j, hj, hq_able⟩ := able q (List.mem_cons_of_mem _ hq)
      have hne : q ≠ p := fun e => new (e ▸ hq)
      have := evens q hq
      exact ⟨j, by rw [first.st, if_neg (by omega)]; exact hj, (first.slot j).2 hq_able⟩
    refine ⟨t, ?_, .cons first hp hk new evens rest⟩
    rw [List.map_cons, settleAll, settlePair_able hk hable]
    exact run

theorem settleAll_append (gid : Nat) (ps qs : List (Nat × Bool)) : ∀ s, settleAll gid (ps ++ qs) s =
    (settleAll gid ps s).bind (settleAll gid qs) := by
  induction ps with
  | nil => exact fun _ => rfl
  | cons p ps ih =>
    intro s
    rw [List.cons_append, settleAll, settleAll]
    cases settlePair gid p.1 p.2 s with
    | error e => rfl
    | ok t => exact ih t

/-- The first pair that cannot settle holds up the rest: those before it settle in vain. -/
theorem settleAll_waits {s : State} {gid p k : Nat} {ps qs : List Nat} (nodup : (p :: ps).Nodup) (even : ∀ q ∈ p :: ps, q % 2 = 0)
    (able : ∀ q ∈ ps, ∃ j, (s.group gid).st q = .pend j ∧ Able ((s.group gid).slot j)) (hp : (s.group gid).st p = .pend k)
    (arr : ((s.group gid).slot k).arr = false) :
    settleAll gid ((ps ++ p :: qs).map fun p => (p, false)) s = .error .wait := by
  obtain ⟨new, nodup⟩ := List.nodup_cons.1 nodup
  obtain ⟨t, run, done⟩ := settleAll_able ps s nodup (fun q hq => even q (List.mem_cons_of_mem _ hq)) able
  have still : (t.group gid).st p = .pend k := by
    have self : Group.even p = p := by rw [Group.even, even p (List.mem_cons_self ..)]; rfl
    rw [done.st, self, if_neg new, hp]
  rw [List.map_append, settleAll_append, run, List.map_cons]
  show (settlePair gid p false t).bind _ = _
  rw [settlePair_waits still ((done.slot k).1.trans arr)]
  rfl

/-! ### A settled pair in its own terms -/

/-- Pair `p` has taken its value on slot `k` (R69): vd is F under FP32, vd + 1 is F under RAW. -/
def TookValue (g h : Group) (p k : Nat) : Prop :=
  (∀ l < 256, h.lane p l = BitVec.ofNat 32 (g.settleLane p k l).1) ∧ h.st p = .full ∧ h.st (p + 1) = .full
  ∧ (∀ x ∈ Group.granules (1024 * p) 1024, h.tagAt x = .f32) ∧ ∀ x ∈ Group.granules (1024 * (p + 1)) 1024, h.tagAt x = .raw

theorem PairSettled.tookValue {g m : Group} {p k : Nat} (h : PairSettled g m p k) : TookValue g m p k := by
  refine ⟨h.lane, ?_, ?_, fun x hx => ?_, fun x hx => ?_⟩
  · rw [h.st, if_pos (.inl rfl)]
  · rw [h.st, if_pos (.inr rfl)]
  · rw [h.tagAt, if_pos (mem_granules.1 hx)]
  · have := mem_granules.1 hx
    rw [h.tagAt, if_neg (by omega), if_pos this]

theorem PairsSettled.tookValue {g h : Group} {ps : List Nat} (done : PairsSettled g h ps) {p k : Nat} (hp : p ∈ ps) (even : p % 2 = 0)
    (hpk : g.st p = .pend k) (below : ∀ q ∈ ps, 1024 * q + 2048 ≤ g.u) : TookValue g h p k := by
  have low : Group.even p ∈ ps := by rwa [Group.even, even]
  have high : Group.even (p + 1) ∈ ps := by rwa [Group.even, show (p + 1) % 2 = 1 by omega]
  refine ⟨done.lanes p hp k hpk below, ?_, ?_, fun x hx => ?_, fun x hx => ?_⟩
  · rw [done.st, if_pos low]
  · rw [done.st, if_pos high]
  · rw [done.tagAt, mem_granules.1 hx, if_pos low, if_pos even]
  · rw [done.tagAt, mem_granules.1 hx, if_pos high, if_neg (by omega)]

end Sys2Proof.Proofs
end

section
/-!
PROOF. RKST and RKST.all (R54, R69, R72).
-/

namespace Sys2Proof.Proofs

open Sys2Proof.Machine Sys2Proof.Claim

/-! ### One vector register as a source -/

section

variable {c : Ctx} {s : State} {n : Fin 64} {bt : Bool}

/-- The one source of RKST. -/
abbrev regUse (n : Fin 64) (bt : Bool) : Use := { o := .v n, bt := bt }

theorem rangeOf_regUse {g : Group} (ok : RefsOk g [regUse n bt] []) : g.rangeOf (regUse n bt) = (1024 * n.val, 1024) := by
  have := ok.1 _ (List.mem_singleton_self _)
  simp only [Group.useRange] at this
  split at this
  · next h => simp only [Group.rangeOf, Group.useRange, h, if_true, Nat.mul_one]
  · cases this

theorem emptyUses_regUse {g : Group} (ok : RefsOk g [regUse n bt] []) :
    g.emptyUses [regUse n bt] = if g.st n.val = .empty then [regUse n bt] else [] := by
  simp only [Group.emptyUses, List.filter_cons, List.filter_nil, rangeOf_regUse ok, Group.anyE, regsOf_vector, List.any_cons,
    List.any_nil, Bool.or_false, beq_iff_eq]

/-- With no MEMUE held the register traps only where it is E and is not waited for (R52). -/
theorem sourceTraps_regUse {g : Group} (ok : RefsOk g [regUse n bt] []) (quiet : g.memues = []) :
    sourceTraps g [regUse n bt] = if g.st n.val = .empty ∧ bt = true then trapN Cause.emptyrd n.val else .ok () := by
  have scal : scalTraps g [Opd.v n] = .ok () := by rw [scalTraps, quiet]; rfl
  have tags : checkTags g [regUse n bt] = .ok () := by
    have : g.tagTrap (regUse n bt) = none := by simp [Group.tagTrap]
    rw [checkTags, List.filterMap_cons_none this]; rfl
  simp only [sourceTraps, emptyUses_regUse ok, Group.heldOn, quiet, List.find?_nil, List.map_cons, List.map_nil, scal, tags, bind,
    Except.bind]
  by_cases empty : g.st n.val = .empty
  · cases bt <;> simp [empty, code_v, pure, Except.pure]
  · simp [empty, pure, Except.pure]

theorem sourceWaits_regUse {g : Group} (ok : RefsOk g [regUse n bt] []) :
    sourceWaits g [regUse n bt] = if g.st n.val = .empty ∧ bt = false then .error .wait else .ok () := by
  simp only [sourceWaits, emptyUses_regUse ok, busyScals, List.map_cons, List.map_nil, List.filterMap_cons, List.filterMap_nil, bind,
    Except.bind, guardW]
  by_cases empty : g.st n.val = .empty
  · cases bt <;> simp [empty]
  · simp [empty]

theorem settles_regUse {g : Group} (ok : RefsOk g [regUse n bt] []) (even : n.val % 2 = 0) :
    g.settles [regUse n bt] = match g.st n.val with | .pend _ => [(n.val, bt)] | _ => [] := by
  have self : Group.even n.val = n.val := by rw [Group.even, even]; rfl
  simp only [Group.settles, rangeOf_regUse ok, regsOf_vector, Group.pairsIn, List.flatMap_cons, List.flatMap_nil, List.map_cons,
    List.map_nil, self, List.append_nil]
  cases h : g.st n.val <;> simp [h]

theorem ready_full (ok : RefsOk (c.g s) [regUse n bt] []) (quiet : (c.g s).memues = []) (even : n.val % 2 = 0)
    (full : (c.g s).st n.val = .full) : ready c [regUse n bt] s = .ok s := by
  simp only [ready, sourceTraps_regUse ok quiet, sourceWaits_regUse ok, settles_regUse ok even, full, reduceCtorEq, false_and, if_false,
    settleTraps, settleAll, bind, Except.bind]

theorem ready_empty (ok : RefsOk (c.g s) [regUse n bt] []) (quiet : (c.g s).memues = []) (even : n.val % 2 = 0)
    (empty : (c.g s).st n.val = .empty) :
    ready c [regUse n bt] s = if bt = true then trapN Cause.emptyrd n.val else .error .wait := by
  simp only [ready, sourceTraps_regUse ok quiet, sourceWaits_regUse ok, settles_regUse ok even, empty, true_and, settleTraps]
  cases bt <;> rfl

/-- A pending pair settles, or traps, or waits for its σ (R54, R69). -/
theorem ready_pend {k : Nat} (ok : RefsOk (c.g s) [regUse n bt] []) (quiet : (c.g s).memues = []) (even : n.val % 2 = 0)
    (pend : (c.g s).st n.val = .pend k) : ready c [regUse n bt] s =
      (settleTrap (c.g s) n.val bt).bind fun _ => settlePair c.gid n.val bt s := by
  simp only [ready, sourceTraps_regUse ok quiet, sourceWaits_regUse ok, settles_regUse ok even, pend, reduceCtorEq, false_and, if_false,
    settleTraps, settleAll, bind, Except.bind]
  cases settleTrap (c.g s) n.val bt with
  | error e => rfl
  | ok u => cases settlePair c.gid n.val bt s <;> rfl

end

/-! ### The words -/

/-- A word that changes only its group's window and flags, to leave `v`, completes with that effect. -/
theorem window_word {i : Instr} {f : Fields} {s v : State} {gid sub : Nat} (hI : Issuing s gid sub) (hw : WinOnly s v gid)
    (run : exec i s = .next (settleGroup (ctx i f s gid sub) false s (.ok v))) :
    ∃ t, exec i s = .next t ∧ OnlyGroups s t ∧ OthersKept s t gid ∧ t.teams = v.teams
      ∧ t.group gid = issuedAt (v.group gid) sub (nextPc f s gid sub)
      ∧ WindowIssued (s.group gid) (t.group gid) sub (nextPc f s gid sub) := by
  obtain ⟨-, -, skips, sleeps⟩ := winOnly_group hw
  obtain ⟨shape, cores, others, live, same⟩ := hw
  obtain ⟨t, step, tshape, tcores, tothers, tgroup⟩ := does_of (LatchesAside.refl v) (live hI.2) skips sleeps run
  refine ⟨t, step, ⟨?_, fun n => (tcores n).trans (cores n)⟩, fun k hk => (tothers k hk).trans (others k hk), by rw [tshape], tgroup, ?_⟩
  · rw [tshape, shape]
  · rw [Group.Same] at same
    rw [tgroup, WindowIssued, same]
    rfl

/-- What a word that waits, or traps, leaves. -/
theorem waits_of {i : Instr} {f : Fields} {s : State} {gid sub : Nat}
    (run : exec i s = .next (settleGroup (ctx i f s gid sub) false s (.error .wait))) : Waits i s s :=
  ⟨_, run, LatchesAside.refl _⟩

theorem exec_rkst (f : Fields) (s : State) : exec (.rkst f) s = execRkst f s := rfl
theorem exec_rkstAll (f : Fields) (s : State) : exec (.rkstAll f) s = execRkstAll f s := rfl

theorem rkst_run {f : Fields} {s : State} {gid sub : Nat} {n : Fin 64} (hI : Issuing s gid sub) (ha : f.a = .v n)
    (ok : RefsOk (s.group gid) [regUse n f.btA] []) : exec (.rkst f) s = .next (settleGroup (ctx (.rkst f) f s gid sub) false s
      (ready (ctx (.rkst f) f s gid sub) [regUse n f.btA] (holdLatch s (ctx (.rkst f) f s gid sub)))) := by
  rw [exec_rkst, execRkst, issueGroup_group hI]
  simp only [ha, ctx_g_holdLatch, ctx_g, checkRefs_ok ok, bind, Except.bind]

theorem rkstAll_run {f : Fields} {s : State} {gid sub : Nat} (hI : Issuing s gid sub) :
    exec (.rkstAll f) s = .next (settleGroup (ctx (.rkstAll f) f s gid sub) false s
      (settleAll gid (((s.group gid).pairsIn (List.range 64)).map fun p => (p, false))
        (holdLatch s (ctx (.rkstAll f) f s gid sub)))) := by
  rw [exec_rkstAll, execRkstAll, issueGroup_group hI]
  rfl

/-- RKST of a pair that can settle (R69, R72). -/
theorem rkst_settles {f : Fields} {s : State} {gid sub k : Nat} {n : Fin 64} (hI : Issuing s gid sub) (ha : f.a = .v n)
    (even : n.val % 2 = 0) (ok : RefsOk (s.group gid) [regUse n f.btA] []) (quiet : (s.group gid).memues = [])
    (pend : (s.group gid).st n.val = .pend k) (able : Able ((s.group gid).slot k)) :
    ∃ t, exec (.rkst f) s = .next t ∧ OnlyGroups s t ∧ OthersKept s t gid ∧ PairSettled (s.group gid) (t.group gid) n.val k
      ∧ Raised s t (s.group gid).ident.tid (settleFlags (s.group gid) n.val k)
      ∧ WindowIssued (s.group gid) (t.group gid) sub (nextPc f s gid sub) := by
  set c := ctx (.rkst f) f s gid sub
  set v := ((holdLatch s c).setGroup gid ((s.group gid).settled n.val k)).orTsf (s.group gid).ident.tid
    (settleFlags (s.group gid) n.val k) with hv
  have settled : ready c [regUse n f.btA] (holdLatch s c) = .ok v := by
    rw [ready_pend (c := c) (s := holdLatch s c) ok quiet even pend, settleTrap_able (g := c.g (holdLatch s c)) pend able]
    exact settlePair_able (s := holdLatch s c) pend able _
  have group : v.group gid = { (s.group gid).settled n.val k with wrote := [] } := by
    rw [hv, State.group_orTsf, State.group_setGroup_same]
  obtain ⟨t, step, only, others, teams, tgroup, win⟩ := window_word hI (readable_frame settled)
    (by rw [rkst_run hI ha ok, settled])
  refine ⟨t, step, only, others, ?_, fun j => ?_, win⟩
  · rw [tgroup, group]; exact (pairSettled_settled _ _ _).recorded.issued _ _
  · rw [teams, hv, State.look_orTsf, State.setGroup_teams, holdLatch_teams]

/-! ### RKST.all -/

theorem mem_pairs {g : Group} {p : Nat} : p ∈ g.pairsIn (List.range 64) ↔ p < 64 ∧ p % 2 = 0 ∧ ∃ k, g.st p = .pend k := by
  have evens : p ∈ ((List.range 64).map Group.even).dedup ↔ p < 64 ∧ p % 2 = 0 := by
    simp only [List.mem_dedup, List.mem_map, List.mem_range, Group.even]
    exact ⟨fun ⟨r, _, e⟩ => by omega, fun h => ⟨p, h.1, by omega⟩⟩
  rw [Group.pairsIn, List.mem_filter, evens, and_assoc]
  cases g.st p <;> simp

theorem pairs_rising (g : Group) : (g.pairsIn (List.range 64)).Pairwise (· < ·) := by
  have evens : (((List.range 64).map Group.even).dedup).Pairwise (· < ·) := by decide
  exact evens.filter _

/-- RKST.all with every pair able (R72). -/
theorem rkstAll_settles {f : Fields} {s : State} {gid sub : Nat} (hI : Issuing s gid sub)
    (able : ∀ p ∈ (s.group gid).pairsIn (List.range 64), ∃ k, (s.group gid).st p = .pend k ∧ Able ((s.group gid).slot k)) :
    ∃ t, exec (.rkstAll f) s = .next t ∧ OthersKept s t gid
      ∧ PairsSettled (s.group gid) (t.group gid) ((s.group gid).pairsIn (List.range 64))
      ∧ WindowIssued (s.group gid) (t.group gid) sub (nextPc f s gid sub) := by
  set c := ctx (.rkstAll f) f s gid sub
  obtain ⟨v, run, done⟩ := settleAll_able _ (holdLatch s c) (pairs_rising (s.group gid)).nodup (fun p hp => (mem_pairs.1 hp).2.1) able
  obtain ⟨t, step, -, others, -, tgroup, win⟩ := window_word hI ((winOnly_holdLatch s c gid).trans (settleAll_frame run))
    (by rw [rkstAll_run hI, run])
  exact ⟨t, step, others, by rw [tgroup]; exact done.issued _ _, win⟩

/-- RKST.all waits at the first pair whose σ has not arrived. -/
theorem rkstAll_waits {f : Fields} {s : State} {gid sub p k : Nat} (hI : Issuing s gid sub) (hp : p < 64) (even : p % 2 = 0)
    (pend : (s.group gid).st p = .pend k) (arr : ((s.group gid).slot k).arr = false)
    (before : ∀ r < p, r % 2 = 0 → ∀ j, (s.group gid).st r = .pend j → Able ((s.group gid).slot j)) : Waits (.rkstAll f) s s := by
  obtain ⟨ps, qs, split⟩ := List.append_of_mem (mem_pairs.2 ⟨hp, even, k, pend⟩)
  have rising := pairs_rising (s.group gid)
  have evens : ∀ q ∈ (s.group gid).pairsIn (List.range 64), q % 2 = 0 := fun q hq => (mem_pairs.1 hq).2.1
  have pended : ∀ q ∈ ps, ∃ j, (s.group gid).st q = .pend j := fun q hq =>
    (mem_pairs.1 (split ▸ List.mem_append_left _ hq)).2.2
  rw [split] at rising evens
  obtain ⟨first, -, lower⟩ := List.pairwise_append.1 rising
  have low : ∀ q ∈ ps, q < p := fun q hq => lower q hq p (List.mem_cons_self ..)
  refine waits_of (f := f) (gid := gid) (sub := sub) ?_
  rw [rkstAll_run hI, split]
  rw [settleAll_waits (s := holdLatch s (ctx (.rkstAll f) f s gid sub)) (k := k)
    (List.nodup_cons.2 ⟨fun h => absurd (low p h) (lt_irrefl p), first.nodup⟩) ?_ ?_ pend arr]
  · intro q hq
    rcases List.mem_cons.1 hq with rfl | hq
    · exact even
    · exact evens q (List.mem_append_left _ hq)
  · intro q hq
    obtain ⟨j, hj⟩ := pended q hq
    exact ⟨j, hj, before q (low q hq) (evens q (List.mem_append_left _ hq)) j hj⟩

/-- Settles O46: RKST by the state of its register, RKST.all by the pairs that `g` holds. -/
theorem settling : Obligations.Settling := by
  intro f s gid sub hI g next lane settles able
  refine ⟨fun n ha even ok quiet => ?_, fun none_ => ?_, fun p k hp even pend arr before => rkstAll_waits hI hp even pend arr before,
    fun all => ?_⟩
  · rw [ha] at ok
    have run := rkst_run hI ha ok
    set c := ctx (.rkst f) f s gid sub
    refine ⟨fun full => does_nothing hI ?_, fun empty bt => waits_of (f := f) (gid := gid) (sub := sub) ?_,
      fun empty bt => traps_of (j := false) ?_, fun k pend => ?_⟩
    · rw [run, ready_full (c := c) (s := holdLatch s c) ok quiet even full]
    · rw [run, ready_empty (c := c) (s := holdLatch s c) ok quiet even empty, if_neg (by rw [bt]; exact Bool.false_ne_true)]
    · rw [run, ready_empty (c := c) (s := holdLatch s c) ok quiet even empty, if_pos bt]; rfl
    · rw [ready_pend (c := c) (s := holdLatch s c) ok quiet even pend] at run
      have trap : ∀ e, settleTrap g n.val f.btA = .error e → exec (.rkst f) s = .next (settleGroup c false s (.error e)) := fun e he => by
        rw [run, show settleTrap (c.g (holdLatch s c)) n.val f.btA = .error e from he]; rfl
      intro x
      refine ⟨fun arr bt => waits_of (f := f) (gid := gid) (sub := sub) ?_, fun arr bt => traps_of (j := false) (trap _ ?_),
        fun arr fail tf => traps_of (j := false) (trap _ ?_), fun ready => ?_⟩
      · rw [run, settleTrap_late (g := c.g (holdLatch s c)) pend arr, bt]
        exact congrArg (fun r => Host.Outcome.next (settleGroup c false s r)) (settlePair_waits (s := holdLatch s c) pend arr)
      · rw [settleTrap_late pend arr, if_pos bt]; rfl
      · rw [settleTrap_failed pend arr fail tf]; rfl
      · obtain ⟨t, step, only, others, done, raised, win⟩ := rkst_settles hI ha even ok quiet pend ready
        exact ⟨t, step, only, others, done.tookValue, raised, done.own, done.others,
          fun r low high => by rw [done.st, if_neg (by omega)], fun a => done.read a, win⟩
  · have empty : g.pairsIn (List.range 64) = [] := List.eq_nil_iff_forall_not_mem.2 fun p hp => by
      obtain ⟨hp, -, k, hk⟩ := mem_pairs.1 hp
      exact none_ p hp k hk
    exact does_nothing hI (by rw [rkstAll_run hI, empty]; rfl)
  · have pairs : ∀ p ∈ g.pairsIn (List.range 64), ∃ k, g.st p = .pend k ∧ able k ∧ 1024 * p + 2048 ≤ g.u := fun p hp => by
      obtain ⟨hp, even, k, hk⟩ := mem_pairs.1 hp
      obtain ⟨-, ok, below⟩ := all p hp k hk
      exact ⟨k, hk, ok, by rwa [even] at below⟩
    obtain ⟨t, step, others, done, win⟩ := rkstAll_settles hI fun p hp => by
      obtain ⟨k, hk, ok, -⟩ := pairs p hp; exact ⟨k, hk, ok⟩
    refine ⟨t, step, others, fun r hr k => ?_, fun p hp k even pend => ?_, fun a outside => done.read a fun p hp => ?_, win⟩
    · rw [done.st]
      split
      · exact nofun
      · next out =>
        intro pend
        obtain ⟨low, -⟩ := all r hr k pend
        exact out (mem_pairs.2 ⟨by rw [Group.even]; omega, by rw [Group.even]; omega, k, low⟩)
    · exact done.tookValue (mem_pairs.2 ⟨hp, even, k, pend⟩) even pend fun q hq => by obtain ⟨-, -, -, below⟩ := pairs q hq; exact below
    · obtain ⟨hp, even, k, pend⟩ := mem_pairs.1 hp
      exact outside p hp k even pend

end Sys2Proof.Proofs
end

section
/-!
PROOF. Deliveries to a window (R51, R53): what one delivery writes, and what the last one of a producer leaves.
-/

namespace Sys2Proof.Proofs

open Sys2Proof.Machine Sys2Proof.Claim

/-! ### One delivery -/

theorem foldl_write_zipIdx (bs : List Byte) (a : Nat) : ∀ (j : Nat) (m : Mem),
    (bs.zipIdx j).foldl (fun (m : Mem) (c : Byte × Nat) => m.write (a + c.2) c.1) m = m.store (a + j) bs := by
  induction bs with
  | nil => exact fun _ _ => rfl
  | cons b bs ih => exact fun j m => ih (j + 1) (m.write (a + j) b)

theorem look_overEarlier (g : Group) (id : Nat) (f : Prod → Prod) (k : Nat) :
    Tbl.look (g.overEarlier id f) k = (Tbl.look g.prods k).map fun p => if k < id then f p else p := by
  have keyed : g.overEarlier id f = g.prods.map fun c => (c.1, if c.1 < id then f c.2 else c.2) :=
    List.map_congr_left fun c _ => by dsimp only; split <;> rfl
  rw [keyed, look_mapKeyed fun k p => if k < id then f p else p]

variable {g : Group} {id : Nat} {p : Prod}

/-- Bytes that nothing later has overwritten land whole. -/
theorem win_deliver (look : Tbl.look g.prods id = some p) (clean : p.skip = []) (a : Nat) (bs : List Byte) :
    (g.deliver id a bs).win = g.win.store a bs := by
  unfold Group.deliver
  simp only [look, clean, List.any_nil, Bool.not_false, List.filter_true]
  exact foldl_write_zipIdx bs a 0 g.win

theorem look_deliver (look : Tbl.look g.prods id = some p) (a : Nat) (bs : List Byte) :
    Tbl.look (g.deliver id a bs).prods id = some p := by
  unfold Group.deliver
  simp only [look, look_overEarlier, Option.map_some, lt_irrefl, if_false]

/-- The one producer of a group stays as it is. -/
theorem prods_deliver (alone : g.prods = [(id, p)]) (a : Nat) (bs : List Byte) : (g.deliver id a bs).prods = [(id, p)] := by
  have look : Tbl.look g.prods id = some p := by rw [alone]; exact if_pos rfl
  unfold Group.deliver
  rw [look]
  simp only [Group.overEarlier, alone, List.map_cons, List.map_nil, lt_irrefl, if_false]

/-- The registers and tags that a delivery leaves. -/
theorem marks_deliver (g : Group) (id a : Nat) (bs : List Byte) :
    (g.deliver id a bs).tags = g.tags ∧ (g.deliver id a bs).vst = g.vst := by
  unfold Group.deliver
  split <;> exact ⟨rfl, rfl⟩

/-- An element's value as it is delivered: bytes from 4 on go to the next register (R400). -/
def deliverElem (g : Group) (id off : Nat) (bs : List Byte) : Group :=
  (g.deliver id off (bs.take 4)).deliver id (off + 1024) (bs.drop 4)

theorem st_deliverElem (g : Group) (id off : Nat) (bs : List Byte) (r : Nat) : (deliverElem g id off bs).st r = g.st r := by
  rw [Group.st, Group.st, deliverElem, (marks_deliver ..).2, (marks_deliver ..).2]

theorem win_deliverElem (look : Tbl.look g.prods id = some p) (clean : p.skip = []) (off : Nat) (bs : List Byte) :
    (deliverElem g id off bs).win = (g.win.store off (bs.take 4)).store (off + 1024) (bs.drop 4) := by
  rw [deliverElem, win_deliver (look_deliver look ..) clean, win_deliver look clean]

theorem win_deliverElem_word (look : Tbl.look g.prods id = some p) (clean : p.skip = []) (off : Nat) {bs : List Byte}
    (h : bs.length = 4) : (deliverElem g id off bs).win = g.win.store off bs := by
  rw [win_deliverElem look clean, List.take_of_length_le (by omega), List.drop_of_length_le (by omega)]
  rfl

theorem bytes_deliverElem_pair (look : Tbl.look g.prods id = some p) (clean : p.skip = []) (off : Nat) {bs : List Byte}
    (h : bs.length = 8) : (deliverElem g id off bs).win.bytes off 4 = bs.take 4
      ∧ (deliverElem g id off bs).win.bytes (off + 1024) 4 = bs.drop 4 := by
  have low : (bs.take 4).length = 4 := by rw [List.length_take]; omega
  have high : (bs.drop 4).length = 4 := by rw [List.length_drop]; omega
  have first := Mem.bytes_store_same g.win off (bs.take 4)
  have second := Mem.bytes_store_same (g.win.store off (bs.take 4)) (off + 1024) (bs.drop 4)
  rw [low] at first
  rw [high] at second
  rw [win_deliverElem look clean]
  exact ⟨(Mem.bytes_congr fun i hi => Mem.read_store_other _ (by omega)).trans first, second⟩

/-! ### The end of a producer -/

/-- A register owed nothing more is F (R51). -/
def fillReg (owed : Nat → Bool) (g : Group) (r : Nat) : Group :=
  if owed r then g else match g.st r with | .empty => g.setSt r .full | _ => g

theorem fillReg_rest (owed : Nat → Bool) (g : Group) (r : Nat) : fillReg owed g r = { g with vst := (fillReg owed g r).vst } := by
  unfold fillReg
  split
  · rfl
  · split <;> rfl

theorem fillRegs_rest (owed : Nat → Bool) (rs : List Nat) : ∀ g : Group,
    rs.foldl (fillReg owed) g = { g with vst := (rs.foldl (fillReg owed) g).vst } := by
  induction rs with
  | nil => exact fun _ => rfl
  | cons r rs ih =>
    intro g
    have rest := fillReg_rest owed g r
    rw [List.foldl_cons, ih]
    generalize rs.foldl (fillReg owed) (fillReg owed g r) = m
    rw [rest]

theorem st_fillReg (owed : Nat → Bool) (g : Group) (r j : Nat) :
    (fillReg owed g r).st j = if j = r ∧ owed r = false ∧ g.st r = .empty then .full else g.st j := by
  unfold fillReg
  by_cases ho : owed r = true
  · rw [if_pos ho, if_neg (by simp [ho])]
  · rw [if_neg ho]
    have ho : owed r = false := by simpa using ho
    cases he : g.st r with
    | empty =>
      by_cases hj : j = r
      · rw [hj, if_pos ⟨rfl, ho, rfl⟩]; exact Group.st_setSt_same ..
      · rw [if_neg (fun h => hj h.1)]; exact Group.st_setSt_other _ _ hj
    | full => rw [if_neg (by simp)]
    | pend k => rw [if_neg (by simp)]

theorem st_fillRegs (rs : List Nat) : ∀ (g : Group) {r : Nat}, r ∈ rs → g.st r = .empty →
    (rs.foldl (fillReg fun _ => false) g).st r = .full := by
  have kept : ∀ (rs : List Nat) (g : Group) (r : Nat), g.st r = .full → (rs.foldl (fillReg fun _ => false) g).st r = .full := by
    intro rs
    induction rs with
    | nil => exact fun _ _ h => h
    | cons q rs ih =>
      intro g r h
      rw [List.foldl_cons]
      refine ih _ r ?_
      rw [st_fillReg]
      split
      · rfl
      · exact h
  induction rs with
  | nil => exact fun _ _ h => absurd h List.not_mem_nil
  | cons q rs ih =>
    intro g r hr he
    rw [List.foldl_cons]
    by_cases hq : r = q
    · refine kept rs _ r ?_
      rw [st_fillReg, if_pos ⟨hq, rfl, hq ▸ he⟩]
    · refine ih _ ((List.mem_cons.1 hr).resolve_left hq) ?_
      rw [st_fillReg, if_neg (fun h => hq h.1), he]

theorem rest_of_rest {g m n : Group} (hm : m = { g with tags := m.tags, prods := m.prods }) (hn : n = { m with vst := n.vst }) :
    n = { g with tags := n.tags, vst := n.vst, prods := n.prods } := by
  rw [hn, hm]

/-- Whatever lands, the window and what no producer owes stay. -/
theorem land_rest (g : Group) (id : Nat) :
    g.land id = { g with tags := (g.land id).tags, vst := (g.land id).vst, prods := (g.land id).prods } := by
  unfold Group.land
  split
  · rfl
  · dsimp only
    exact rest_of_rest rfl (fillRegs_rest _ _ _)

/-- The landing of the one producer of a group: every granule takes its tag, every register owed becomes F. -/
theorem land_alone (alone : g.prods = [(id, p)]) (clean : p.skipTags = []) : (g.land id).prods = []
    ∧ (∀ k ∈ Group.granules p.start p.len, (g.land id).tagAt k = p.tag)
    ∧ ∀ r ∈ regsOf p.start p.len, g.st r = .empty → (g.land id).st r = .full := by
  have look : Tbl.look g.prods id = some p := by rw [alone]; exact if_pos rfl
  have landed : g.land id = (regsOf p.start p.len).foldl (fillReg fun _ => false)
      { g with tags := (Group.granules p.start p.len).foldl (fun ts k => Tbl.put .raw ts k p.tag) g.tags, prods := [] } := by
    unfold Group.land
    rw [look]
    simp only [clean, List.any_nil, Bool.not_false, List.filter_true, Group.overEarlier, alone, List.map_cons, List.map_nil,
      lt_irrefl, if_false, Tbl.del, if_true]
    rfl
  rw [landed]
  refine ⟨by rw [fillRegs_rest], fun k hk => ?_, fun r hr he => st_fillRegs _ _ hr he⟩
  rw [fillRegs_rest]
  exact (Group.get_foldl_put ..).trans (if_pos hk)

end Sys2Proof.Proofs
end

section
/-!
PROOF. The end of an access (R51, R213, R238, R402) and the store to a place (R208): what neither touches.
-/

namespace Sys2Proof.Proofs

open Sys2Proof.Machine Sys2Proof.Claim

/-! ### Memories and groups that stay -/

theorem MemoriesSame.trans {a b c : State} (h : MemoriesSame a b) (k : MemoriesSame b c) : MemoriesSame a c := by
  obtain ⟨mem, host, dom, sp⟩ := h
  obtain ⟨mem', host', dom', sp'⟩ := k
  exact ⟨mem'.trans mem, host'.trans host, dom'.trans dom, fun n => (sp' n).trans (sp n)⟩

theorem memoriesSame_setGroup (s : State) (gid : Nat) (g : Group) : MemoriesSame s (s.setGroup gid g) :=
  memoriesSame_of_shape (by rw [State.setGroup_shape])

theorem memoriesSame_orTsf (s : State) (tid : Nat) (fl : BitVec 5) : MemoriesSame s (s.orTsf tid fl) := by
  refine ⟨State.orTsf_mem .., State.orTsf_hostMem .., State.orTsf_domainMem .., fun k => ?_⟩
  rw [State.team, State.team, Tbl.get, Tbl.get, State.look_orTsf]
  split
  · cases Tbl.look s.teams k <;> rfl
  · rfl

/-- The window, scalars and CSRs of a group stay. -/
def Kept (g h : Group) : Prop := h.win = g.win ∧ h.s = g.s ∧ h.sbusy = g.sbusy ∧ h.csr = g.csr

theorem kept_memues (g : Group) (ms : List Memue) : Kept g { g with memues := ms } := ⟨rfl, rfl, rfl, rfl⟩

theorem kept_land (g : Group) (id : Nat) : Kept g (g.land id) := by
  rw [land_rest]; exact ⟨rfl, rfl, rfl, rfl⟩

/-! ### settleAccess -/

/-- An access that has no element open: its flags have reached TSF (R238). -/
def flagsRaised (s : State) (id : Nat) (a : Access) : State := (s.setAccess id { a with flags := 0 }).orTsf a.tid a.flags

theorem flagsRaised_groups (s : State) (id : Nat) (a : Access) : (flagsRaised s id a).groups = s.groups := State.orTsf_groups ..

/-- The states that the end of an access may leave: with its flags raised, and with its group as `Kept` allows. -/
def Ended (s : State) (id : Nat) (a : Access) (t : State) : Prop :=
  t = flagsRaised s id a ∨ ∃ g h, Tbl.look s.groups a.gid = some g ∧ Kept g h ∧ t = (flagsRaised s id a).setGroup a.gid h

theorem settleAccess_cases {s : State} {id : Nat} {a : Access} (look : Tbl.look s.accesses id = some a) :
    settleAccess id s = s ∨ Ended s id a (settleAccess id s) := by
  have held : ∀ g ms, Tbl.look s.groups a.gid = some g →
      Ended s id a ((flagsRaised s id a).setGroup a.gid { g with memues := ms }) := fun g ms hg => .inr ⟨g, _, hg, kept_memues g ms, rfl⟩
  have landed : ∀ g, Tbl.look s.groups a.gid = some g → Ended s id a (match a.dest with
      | .win => (flagsRaised s id a).setGroup a.gid (g.land id)
      | _ => flagsRaised s id a) := by
    intro g hg
    split
    · exact .inr ⟨g, _, hg, kept_land g id, rfl⟩
    · exact .inl rfl
  unfold settleAccess
  rw [look]
  dsimp only
  rw [← flagsRaised, flagsRaised_groups]
  split
  · exact .inl rfl
  · refine .inr ?_
    split
    · exact .inl rfl
    · split
      · next g hg _ =>
        split
        · exact landed g hg
        · exact held g _ hg
      · next g _ hg _ =>
        split
        · exact landed g hg
        · exact held g _ hg
      · next g _ hg _ =>
        split
        · exact held g _ hg
        · exact .inl rfl
      · next g hg _ =>
        split
        · exact held g _ hg
        · exact .inl rfl
      · exact .inl rfl

/-- What the end of an access leaves as it was. -/
structure Closes (id : Nat) (s t : State) : Prop where
  memories : MemoriesSame s t
  access : ∀ a, Tbl.look s.accesses id = some a → ∃ b, Tbl.look t.accesses id = some b ∧ b.elems = a.elems ∧ b.tw = a.tw
  groups : ∀ k, Kept (s.group k) (t.group k)

theorem closes_flagsRaised {s : State} {id : Nat} {a : Access} (look : Tbl.look s.accesses id = some a) :
    Closes id s (flagsRaised s id a) where
  memories := MemoriesSame.trans (b := s.setAccess id { a with flags := 0 }) ⟨rfl, rfl, rfl, fun _ => rfl⟩ (memoriesSame_orTsf ..)
  access b hb := by
    obtain rfl : a = b := Option.some.inj (look.symm.trans hb)
    refine ⟨{ a with flags := 0 }, ?_, rfl, rfl⟩
    rw [flagsRaised, State.orTsf_accesses]
    exact Tbl.look_set_same ..
  groups k := by
    rw [State.group, State.group, flagsRaised_groups]; exact ⟨rfl, rfl, rfl, rfl⟩

theorem closes_settleAccess {s : State} {id : Nat} {a : Access} (look : Tbl.look s.accesses id = some a) :
    Closes id s (settleAccess id s) := by
  obtain ⟨memories, access, groups⟩ := closes_flagsRaised look
  rcases settleAccess_cases look with same | raised | ⟨g, h, hg, kept, changed⟩
  · rw [same]
    exact ⟨⟨rfl, rfl, rfl, fun _ => rfl⟩, fun a ha => ⟨a, ha, rfl, rfl⟩, fun _ => ⟨rfl, rfl, rfl, rfl⟩⟩
  · rw [raised]
    exact ⟨memories, access, groups⟩
  · rw [changed]
    refine ⟨MemoriesSame.trans memories (memoriesSame_setGroup ..), fun b hb => ?_, fun k => ?_⟩
    · rw [State.setGroup_accesses]; exact access b hb
    · by_cases hk : k = a.gid
      · subst hk
        rw [State.group_setGroup_same, State.group, Tbl.get, hg]
        exact kept
      · rw [State.group_setGroup_other _ _ hk]; exact groups k

/-- With its last element done, an access that fills window registers lands them (R51). -/
theorem settleAccess_lands {s : State} {id : Nat} {a : Access} {g : Group} {op : AtomOp} (look : Tbl.look s.accesses id = some a)
    (hg : Tbl.look s.groups a.gid = some g) (kind : a.kind = .atom op true) (dest : a.dest = .win) (all : ∀ x ∈ a.elems, x.st = .done) :
    settleAccess id s = (flagsRaised s id a).setGroup a.gid (g.land id) := by
  have none_open : a.elems.any Elem.open' = false := List.any_eq_false.2 fun x hx => by simp [Elem.open', all x hx]
  have finished : a.finished = true := List.all_eq_true.2 fun x hx => by rw [all x hx]; rfl
  have none_failed : a.elems.any (fun e => e.st == .failed) = false := List.any_eq_false.2 fun x hx => by simp [all x hx]
  unfold settleAccess
  rw [look]
  dsimp only
  rw [← flagsRaised, flagsRaised_groups, hg, kind, dest, finished, none_open, none_failed]
  rfl

/-! ### raiseWh -/

theorem raiseWh_rest (s : State) (gid tid tw : Nat) : MemoriesSame s (raiseWh s gid tid tw) ∧ (raiseWh s gid tid tw).accesses = s.accesses := by
  unfold raiseWh
  split
  · exact ⟨memoriesSame_setGroup .., State.setGroup_accesses ..⟩
  · dsimp only
    split
    · exact ⟨⟨rfl, rfl, rfl, fun _ => rfl⟩, rfl⟩
    · exact ⟨⟨rfl, rfl, rfl, fun _ => rfl⟩, rfl⟩

theorem wh_raiseWh {s : State} {gid : Nat} (listed : Tbl.look s.groups gid ≠ none) (tid tw : Nat) :
    ((raiseWh s gid tid tw).group gid).csr.wh = max (s.group gid).csr.wh tw := by
  obtain ⟨g, hg⟩ := Option.ne_none_iff_exists'.1 listed
  have here : s.group gid = g := by rw [State.group, Tbl.get, hg]; rfl
  unfold raiseWh
  rw [hg, here]
  dsimp only
  rw [State.group_setGroup_same]

/-! ### Stores at a place -/

theorem applyStore_rest (s : State) (p : Place) (bs : List Byte) : (applyStore s p bs).1.groups = s.groups
    ∧ (applyStore s p bs).1.accesses = s.accesses := by
  cases p with
  | pa a root ro => rw [applyStore_pa, markDirty_shape]; exact ⟨rfl, rfl⟩
  | dom => exact ⟨rfl, rfl⟩
  | sp => exact ⟨rfl, rfl⟩
  | host => exact ⟨rfl, rfl⟩

/-- A store is performed no earlier than the present tick (R213). -/
theorem applyStore_tw (s : State) (p : Place) (bs : List Byte) : s.m.ftime ≤ (applyStore s p bs).2 := by
  have latest : ∀ (ls : List Nat) (t : Nat), t ≤ ls.foldl (fun t l => max t (leaseEnd s l)) t := by
    intro ls
    induction ls with
    | nil => exact fun t => le_refl t
    | cons l ls ih => exact fun t => (le_max_left ..).trans (ih _)
  cases p with
  | pa a root ro =>
    unfold applyStore
    dsimp only
    split
    · exact le_refl _
    · exact latest _ _
  | dom => exact Nat.le_add_right ..
  | sp => exact le_refl _
  | host => exact le_refl _

theorem written_store (m : Mem) (a : Nat) (bs : List Byte) : Written m (m.store a bs) a bs :=
  ⟨Mem.bytes_store_same .., fun _ hx => Mem.read_store_other bs hx⟩

theorem team_spStore (s : State) (n off : Nat) (bs : List Byte) (k : Nat) :
    ((spStore s n off bs).team k).sp = if k = n then (s.team k).sp.store off bs else (s.team k).sp := by
  unfold spStore
  split
  · next h => rw [h, State.team_setTeam_same]
  · next h => rw [State.team_setTeam_other _ _ h]

/-- A store at any place writes its bytes there, and nothing else in any memory. -/
theorem placeWritten_apply {s u t : State} (marks : SameMarks s u) (same : MemoriesSame s u) {p : Place} {bs : List Byte}
    (ht : MemoriesSame (applyStore u p bs).1 t) : PlaceWritten s t p bs := by
  obtain ⟨mem, host, dom, sp⟩ := same
  obtain ⟨tmem, thost, tdom, tsp⟩ := ht
  cases p with
  | pa a root ro =>
    refine ⟨writtenHome_store marks mem tmem, ?_, ?_, fun k => ?_⟩
    · rw [tdom, applyStore_pa, markDirty_shape]; exact dom
    · rw [thost, applyStore_pa, markDirty_shape]; exact host
    · refine (tsp k).trans ?_
      rw [applyStore_pa, markDirty_shape]; exact sp k
  | dom a =>
    refine ⟨tmem.trans mem, ?_, thost.trans host, fun k => (tsp k).trans (sp k)⟩
    show Written s.domainMem t.domainMem a bs
    rw [tdom, ← dom]
    exact written_store ..
  | sp n off =>
    refine ⟨tmem.trans mem, tdom.trans dom, thost.trans host, fun k => ?_⟩
    have here := (tsp k).trans (team_spStore u n off bs k)
    rw [sp k] at here
    show if k = n then Written (s.team k).sp (t.team k).sp off bs else (t.team k).sp = (s.team k).sp
    rw [here]
    split
    · exact written_store ..
    · rfl
  | host a =>
    refine ⟨tmem.trans mem, tdom.trans dom, ?_, fun k => (tsp k).trans (sp k)⟩
    show Written s.hostMem t.hostMem a bs
    rw [thost, ← host]
    exact written_store ..

theorem dropOwnCopy_shape (s : State) (part core : Nat) (p : Place) :
    dropOwnCopy s part core p = { s with copies1 := (dropOwnCopy s part core p).copies1 } := by
  cases p <;> rfl

end Sys2Proof.Proofs
end

section
/-!
PROOF. Elements performed at their one place, and old values that land (R208 to R210, R237, R238, R400).
-/

namespace Sys2Proof.Proofs

open Sys2Proof.Machine Sys2Proof.Claim

theorem exec_storePerformed (id i : Nat) (s : State) : exec (.storePerformed id i) s = .next (performStore id i s) := rfl
theorem exec_atomAtReducer (id i : Nat) (s : State) : exec (.atomAtReducer id i) s = .next (performAtom id i s) := rfl
theorem exec_atomReturnDelivery (id i : Nat) (s : State) : exec (.atomReturnDelivery id i) s = .next (landAtom id i s) := rfl
theorem exec_loadDelivery (id i : Nat) (evicted : Bool) (s : State) :
    exec (.loadDelivery id i evicted) s = .next (performLoad id i evicted s) := rfl

/-! ### Elements that may be performed -/

theorem elemReady_of {s : State} {id i : Nat} {a : Access} {e : Elem} (ready : ElementReady s id i a e) :
    elemReady s id i = some (a, e) := by
  obtain ⟨look, elem, issued, free, -⟩ := ready
  unfold elemReady
  simp only [look, elem, free, Elem.open', issued, beq_self_eq_true, Bool.not_false, Bool.and_self, if_true]

theorem goneAway_of {s : State} {id i : Nat} {a : Access} {e : Elem} (ready : ElementReady s id i a e) : goneAway s e.place = false := by
  obtain ⟨-, -, -, -, near⟩ := ready
  unfold goneAway
  split
  · next d hd => simpa using near d hd
  · rfl

/-! ### Stores and ATOMs -/

/-- Bytes stored at a place for an access, which becomes `b tw` with the tick of the store; WH rises, and the access may end. -/
def stored (s : State) (id : Nat) (a : Access) (p : Place) (bs : List Byte) (b : Nat → Access) : State :=
  let x := applyStore (dropOwnCopy s (s.team a.tid).part a.core p) p bs
  settleAccess id (raiseWh (x.1.setAccess id (b x.2)) a.gid a.tid x.2)

theorem stored_done (s : State) (id : Nat) (a : Access) (p : Place) (bs : List Byte) (b : Nat → Access) :
    PlaceWritten s (stored s id a p bs b) p bs ∧ ∃ tw c, s.m.ftime ≤ tw ∧ Tbl.look (stored s id a p bs b).accesses id = some c
      ∧ c.elems = (b tw).elems ∧ c.tw = (b tw).tw
      ∧ (Tbl.look s.groups a.gid ≠ none → ((stored s id a p bs b).group a.gid).csr.wh = max (s.group a.gid).csr.wh tw) := by
  unfold stored
  dsimp only
  rw [dropOwnCopy_shape]
  generalize (dropOwnCopy s (s.team a.tid).part a.core p).copies1 = cs
  have later := applyStore_tw { s with copies1 := cs } p bs
  obtain ⟨groups, accesses⟩ := applyStore_rest { s with copies1 := cs } p bs
  have written : ∀ t, MemoriesSame (applyStore { s with copies1 := cs } p bs).1 t → PlaceWritten s t p bs := fun _ =>
    placeWritten_apply (s := s) (u := { s with copies1 := cs }) ⟨rfl, fun _ => ⟨rfl, rfl⟩⟩ ⟨rfl, rfl, rfl, fun _ => rfl⟩
  generalize applyStore { s with copies1 := cs } p bs = x at later groups accesses written
  obtain ⟨u, tw⟩ := x
  obtain ⟨raised, kept⟩ := raiseWh_rest (u.setAccess id (b tw)) a.gid a.tid tw
  have look : Tbl.look (raiseWh (u.setAccess id (b tw)) a.gid a.tid tw).accesses id = some (b tw) := by
    rw [kept]; exact Tbl.look_set_same ..
  obtain ⟨memories, access, closed⟩ := closes_settleAccess look
  obtain ⟨c, hc, elems, ctw⟩ := access _ look
  refine ⟨written _ ?_, tw, c, later, hc, elems, ctw, fun listed => ?_⟩
  · exact MemoriesSame.trans (MemoriesSame.trans (b := u.setAccess id (b tw)) ⟨rfl, rfl, rfl, fun _ => rfl⟩ raised) memories
  · obtain ⟨-, -, -, csr⟩ := closed a.gid
    have same : (u.setAccess id (b tw)).groups = s.groups := groups
    rw [csr, wh_raiseWh (by rw [same]; exact listed), State.group, State.group, same]

theorem performStore_eq {s : State} {id i : Nat} {a : Access} {e : Elem} (ready : ElementReady s id i a e) (kind : a.kind = .store) :
    performStore id i s = stored s id a e.place (bytesOfNat e.size e.data)
      fun tw => { setElem a i { e with st := .done } with tw := max a.tw tw } := by
  unfold performStore
  simp only [elemReady_of ready, goneAway_of ready, kind, bne_self_eq_false, Bool.false_eq_true, if_false]
  rfl

theorem performAtom_eq {s : State} {id i : Nat} {a : Access} {e : Elem} {op : AtomOp} {ret : Bool} (ready : ElementReady s id i a e)
    (kind : a.kind = .atom op ret) : performAtom id i s =
      let x := op.apply (natOfBytes (peek s e.place 4)) e.data e.cmp.toNat
      stored s id a e.place (bytesOfNat 4 x.1) fun tw => { setElem a i { e with
        st := if ret then .applied tw (BitVec.ofNat 32 (natOfBytes (peek s e.place 4))) else .done } with
        tw := max a.tw tw, flags := a.flags ||| x.2 } := by
  unfold performAtom
  simp only [elemReady_of ready, goneAway_of ready, kind, Bool.false_eq_true, if_false]
  rfl

theorem performed_store {s : State} {id i : Nat} {a : Access} {e : Elem} (ready : ElementReady s id i a e) (kind : a.kind = .store) :
    ∃ t b, exec (.storePerformed id i) s = .next t ∧ PlaceWritten s t e.place (bytesOfNat e.size e.data)
      ∧ Tbl.look t.accesses id = some b ∧ b.elems = a.elems.set i { e with st := .done } ∧ s.m.ftime ≤ b.tw ∧ a.tw ≤ b.tw
      ∧ (Tbl.look s.groups a.gid ≠ none → (s.group a.gid).csr.wh ≤ (t.group a.gid).csr.wh ∧ s.m.ftime ≤ (t.group a.gid).csr.wh) := by
  obtain ⟨written, tw, b, later, look, elems, btw, wh⟩ := stored_done s id a e.place (bytesOfNat e.size e.data)
    fun tw => { setElem a i { e with st := .done } with tw := max a.tw tw }
  rw [exec_storePerformed, performStore_eq ready kind]
  refine ⟨_, b, rfl, written, look, elems, ?_, ?_, fun listed => ?_⟩
  · rw [btw]; exact later.trans (le_max_right ..)
  · rw [btw]; exact le_max_left ..
  · rw [wh listed]; exact ⟨le_max_left .., later.trans (le_max_right ..)⟩

theorem performed_atom {s : State} {id i : Nat} {a : Access} {e : Elem} {op : AtomOp} {ret : Bool} (ready : ElementReady s id i a e)
    (kind : a.kind = .atom op ret) : ∃ t b, exec (.atomAtReducer id i) s = .next t
      ∧ PlaceWritten s t e.place (bytesOfNat 4 (op.apply (natOfBytes (peek s e.place 4)) e.data e.cmp.toNat).1)
      ∧ Tbl.look t.accesses id = some b ∧ s.m.ftime ≤ b.tw
      ∧ (ret = false → b.elems = a.elems.set i { e with st := .done })
      ∧ (ret = true → ∃ tw, b.elems = a.elems.set i { e with st := .applied tw (BitVec.ofNat 32 (natOfBytes (peek s e.place 4))) }) := by
  rw [exec_atomAtReducer, performAtom_eq ready kind]
  dsimp only
  generalize op.apply (natOfBytes (peek s e.place 4)) e.data e.cmp.toNat = x
  obtain ⟨written, tw, b, later, look, elems, btw, -⟩ := stored_done s id a e.place (bytesOfNat 4 x.1)
    fun tw => { setElem a i { e with
      st := if ret then .applied tw (BitVec.ofNat 32 (natOfBytes (peek s e.place 4))) else .done } with
      tw := max a.tw tw, flags := a.flags ||| x.2 }
  refine ⟨_, b, rfl, written, look, ?_, fun hr => ?_, fun hr => ⟨tw, ?_⟩⟩
  · rw [btw]; exact later.trans (le_max_right ..)
  · rw [elems, hr]; rfl
  · rw [elems, hr]; rfl

/-! ### What an ATOM computes (R237) -/

theorem toSigned32 (x : W32) : toSigned 32 x.toNat = x.toInt := by
  unfold toSigned
  rw [BitVec.toInt_eq_toNat_cond]
  have := x.isLt
  simp only [Nat.mod_eq_of_lt this]

/-- An operation without flags gives the word that its row names. -/
theorem apply_eq {o : AtomOp} {x d c y : W32} {n : Nat} (h : o.apply x.toNat d.toNat c.toNat = (n, 0)) (hn : n = y.toNat) :
    o.apply x.toNat d.toNat c.toNat = (y.toNat, 0) := by
  rw [h, hn]

theorem toNat_bitsOf {x : W32} {p : Nat → Bool} (h : ∀ k < 32, p k = x.getLsbD k) : x.toNat = (bitsOf 32 p).toNat := by
  rw [Laws.bitsOf_eq h]

theorem atomResults_hold : ∀ o ∈ atomResults, ∀ x d c : W32, o.1.apply x.toNat d.toNat c.toNat = ((o.2 x d c).toNat, 0) := by
  simp only [atomResults, List.forall_mem_cons]
  refine ⟨fun x d _ => ?add, fun x d _ => ?smax, fun x d _ => ?smin, fun x d _ => ?nmax, fun x d _ => ?nmin, fun x d _ => ?and,
    fun x d _ => ?or, fun x d _ => ?xor, fun _ _ _ => rfl, fun x d c => ?cas, fun _ h => absurd h List.not_mem_nil⟩
  case add => exact apply_eq rfl (BitVec.toNat_add x d).symm
  case smax => exact apply_eq rfl (by rw [toSigned32, toSigned32, apply_ite BitVec.toNat])
  case smin => exact apply_eq rfl (by rw [toSigned32, toSigned32, apply_ite BitVec.toNat])
  case nmax => exact apply_eq rfl (by split <;> omega)
  case nmin => exact apply_eq rfl (by split <;> omega)
  case and => exact apply_eq rfl ((BitVec.toNat_and x d).symm.trans (toNat_bitsOf fun _ _ => BitVec.getLsbD_and.symm))
  case or => exact apply_eq rfl ((BitVec.toNat_or x d).symm.trans (toNat_bitsOf fun _ _ => BitVec.getLsbD_or.symm))
  case xor => exact apply_eq rfl ((BitVec.toNat_xor x d).symm.trans (toNat_bitsOf fun _ _ => by simp))
  case cas => exact apply_eq rfl (by simp only [BitVec.toNat_inj, apply_ite BitVec.toNat])

/-! ### Loads without a lease, and values delivered -/

/-- An access whose element's value has been delivered; it may end with it. -/
def delivered (s : State) (id : Nat) (a : Access) (i : Nat) (e : Elem) (bs : List Byte) : State :=
  settleAccess id (deliverTo (s.setAccess id (setElem a i { e with st := .done })) id a e bs)

theorem deliverTo_win {s : State} {a : Access} {g : Group} (hg : Tbl.look s.groups a.gid = some g) (dest : a.dest = .win) (id : Nat)
    (e : Elem) (bs : List Byte) : deliverTo s id a e bs = s.setGroup a.gid (deliverElem g id e.off bs) := by
  unfold deliverTo
  rw [hg, dest]
  rfl

theorem deliverTo_scal {s : State} {a : Access} {g : Group} {n id : Nat} (hg : Tbl.look s.groups a.gid = some g) (dest : a.dest = .scal n)
    (owed : (n, id) ∈ g.sbusy) (e : Elem) (bs : List Byte) :
    deliverTo s id a e bs = s.setGroup a.gid (g.setScal n (extendLoad a.signed bs)) := by
  unfold deliverTo
  rw [hg, dest]
  exact if_pos (List.contains_iff_mem.2 owed)

theorem deliverTo_rest (s : State) (id : Nat) (a : Access) (e : Elem) (bs : List Byte) : MemoriesSame s (deliverTo s id a e bs)
    ∧ (deliverTo s id a e bs).accesses = s.accesses := by
  unfold deliverTo
  split
  · exact ⟨memoriesSame_setGroup .., State.setGroup_accesses ..⟩
  · split
    · exact ⟨memoriesSame_setGroup .., State.setGroup_accesses ..⟩
    · exact ⟨⟨rfl, rfl, rfl, fun _ => rfl⟩, rfl⟩
  · exact ⟨⟨rfl, rfl, rfl, fun _ => rfl⟩, rfl⟩

/-- What a delivery leaves: the memories; the element done; and its bytes in the window or the value in the scalar. -/
structure ValueDelivered (s : State) (id : Nat) (a : Access) (i : Nat) (e : Elem) (bs : List Byte) (t : State) : Prop where
  memories : MemoriesSame s t
  access : ∃ b, Tbl.look t.accesses id = some b ∧ b.elems = a.elems.set i { e with st := .done }
  win : ∀ g, Tbl.look s.groups a.gid = some g → a.dest = .win → (t.group a.gid).win = (deliverElem g id e.off bs).win
  scal : ∀ g n, Tbl.look s.groups a.gid = some g → a.dest = .scal n → (n, id) ∈ g.sbusy →
    (t.group a.gid).scal n = extendLoad a.signed bs ∧ ∀ c ∈ (t.group a.gid).sbusy, c.1 ≠ n

theorem delivered_done (s : State) (id : Nat) (a : Access) (i : Nat) (e : Elem) (bs : List Byte) :
    ValueDelivered s id a i e bs (delivered s id a i e bs) := by
  have before : MemoriesSame s (s.setAccess id (setElem a i { e with st := .done })) := ⟨rfl, rfl, rfl, fun _ => rfl⟩
  have listed : (s.setAccess id (setElem a i { e with st := .done })).groups = s.groups := rfl
  have set : Tbl.look (s.setAccess id (setElem a i { e with st := .done })).accesses id = some (setElem a i { e with st := .done }) :=
    Tbl.look_set_same ..
  unfold delivered
  generalize s.setAccess id (setElem a i { e with st := .done }) = u at before listed set ⊢
  obtain ⟨same, accesses⟩ := deliverTo_rest u id a e bs
  obtain ⟨memories, access, groups⟩ := closes_settleAccess (s := deliverTo u id a e bs) (by rw [accesses]; exact set)
  obtain ⟨b, hb, elems, -⟩ := access _ (by rw [accesses]; exact set)
  obtain ⟨win, scals, busy, -⟩ := groups a.gid
  refine ⟨MemoriesSame.trans (MemoriesSame.trans before same) memories, ⟨b, hb, elems⟩, fun g hg dest => ?_, fun g n hg dest owed => ?_⟩
  · rw [win, deliverTo_win (by rw [listed]; exact hg) dest, State.group_setGroup_same]
  · rw [Group.scal, scals, busy, deliverTo_scal (by rw [listed]; exact hg) dest owed, State.group_setGroup_same]
    exact ⟨Tbl.get_put_same .., fun c hc => by simpa using (List.mem_filter.1 hc).2⟩

/-- No lease serves a load: its page is ROOT, or its policy takes none (R192, R209). -/
def Unleased (a : Access) (p : Place) : Prop := ∀ x root ro, p = .pa x root ro → root = true ∨ polLease a.pol = 0

theorem loadAt_unleased {a : Access} {p : Place} (free : Unleased a p) (s : State) (part lid core n : Nat) (evicted : Bool) :
    ∃ cs, loadAt s part lid core a.pol p n evicted = ({ s with copies1 := cs }, peek s p n) := by
  cases p with
  | pa x root ro =>
    have none : (if root then 0 else polLease a.pol) = 0 := by
      rcases free x root ro rfl with h | h <;> simp [h]
    unfold loadAt
    dsimp only
    simp only [none, if_true]
    exact ⟨_, rfl⟩
  | dom => exact ⟨s.copies1, rfl⟩
  | sp => exact ⟨s.copies1, rfl⟩
  | host => exact ⟨s.copies1, rfl⟩

theorem copyFor_unleased {a : Access} {e : Elem} (free : Unleased a e.place) (s : State) : copyFor s a e = none := by
  unfold copyFor copyAt
  split
  · next x root ro hp => exact if_pos (by simpa using free x root ro hp)
  · rfl

theorem performLoad_eq {s : State} {id i : Nat} {a : Access} {e : Elem} (ready : ElementReady s id i a e) (kind : a.kind = .load)
    (free : Unleased a e.place) :
    ∃ cs, performLoad id i false s = delivered { s with copies1 := cs } id a i e (peek s e.place e.size) := by
  have alone : performLoad id i false s = performElem id i false s := by
    obtain ⟨look, elem, -⟩ := ready
    unfold performLoad
    simp only [look, elem, Option.bind_some, copyFor_unleased free s, Option.isSome_none, Bool.and_false, Bool.false_eq_true, if_false]
  obtain ⟨cs, read⟩ := loadAt_unleased free s (s.team a.tid).part (s.team a.tid).lid a.core e.size false
  refine ⟨cs, ?_⟩
  rw [alone]
  unfold performElem
  simp only [elemReady_of ready, goneAway_of ready, kind, AccKind.storeLike, Bool.false_eq_true, if_false, read]
  rfl

theorem length_peek (s : State) (p : Place) (n : Nat) : (peek s p n).length = n := by
  cases p <;> exact Mem.bytes_length ..

theorem performed_load {s : State} {id i : Nat} {a : Access} {e : Elem} (ready : ElementReady s id i a e) (kind : a.kind = .load)
    (free : Unleased a e.place) : ∃ t, exec (.loadDelivery id i false) s = .next t ∧ ValueDelivered s id a i e (peek s e.place e.size) t := by
  obtain ⟨cs, eq⟩ := performLoad_eq ready kind free
  obtain ⟨memories, access, win, scal⟩ := delivered_done { s with copies1 := cs } id a i e (peek s e.place e.size)
  exact ⟨_, (exec_loadDelivery ..).trans (congrArg _ eq), memories, access, win, scal⟩

theorem performing : Claim.Performing := by
  intro s id i a e ready
  refine ⟨performed_store ready, fun op ret => performed_atom ready, fun kind free => ?_, atomResults_hold⟩
  obtain ⟨t, run, memories, ⟨b, look, elems⟩, win, scal⟩ := performed_load ready kind free
  refine ⟨t, b, run, memories, look, elems, fun p dest size listed producer clean => ?_, fun p dest size listed producer clean => ?_,
    fun n dest listed owed => ?_⟩
  · rw [win _ (look_group listed) dest, size, win_deliverElem_word producer clean _ (length_peek ..)]
    have read := Mem.bytes_store_same (s.group a.gid).win e.off (peek s e.place 4)
    rw [length_peek] at read
    exact read
  · rw [win _ (look_group listed) dest, size]
    exact bytes_deliverElem_pair producer clean _ (length_peek ..)
  · have value := scal _ n (look_group listed) dest owed
    unfold extendLoad at value
    rw [length_peek] at value
    exact value

/-! ### Old values that land -/

theorem landAtom_eq {s : State} {id i : Nat} {a : Access} {e : Elem} {tw : Nat} {old : W32} (look : Tbl.look s.accesses id = some a)
    (elem : a.elems[i]? = some e) (st : e.st = .applied tw old) : landAtom id i s = delivered s id a i e (bytesOfNat 4 old.toNat) := by
  unfold landAtom
  simp only [look, elem, st]
  rfl

theorem all_done {a : Access} {i : Nat} {e : Elem} (others : ∀ j x, j ≠ i → a.elems[j]? = some x → x.st = .done) :
    ∀ x ∈ (setElem a i { e with st := .done }).elems, x.st = .done := by
  intro x hx
  obtain ⟨j, hj⟩ := List.mem_iff_getElem?.1 hx
  rw [setElem, List.getElem?_set] at hj
  split at hj
  · split at hj
    · cases hj; rfl
    · cases hj
  · next h => exact others j x (fun k => h k.symm) hj

/-- The last old value of an ATOM lands its destination. -/
theorem delivered_lands {s : State} {id i : Nat} {a : Access} {e : Elem} {op : AtomOp} {g : Group} {bs : List Byte}
    (hg : Tbl.look s.groups a.gid = some g) (kind : a.kind = .atom op true) (dest : a.dest = .win)
    (others : ∀ j x, j ≠ i → a.elems[j]? = some x → x.st = .done) : (delivered s id a i e bs).group a.gid =
      { ({ deliverElem g id e.off bs with wrote := [] } : Group).land id with wrote := [] } := by
  unfold delivered
  rw [deliverTo_win (s := s.setAccess id (setElem a i { e with st := .done })) hg dest]
  rw [settleAccess_lands (a := setElem a i { e with st := .done }) ?look ?group kind dest (all_done others)]
  case look => rw [State.setGroup_accesses]; exact Tbl.look_set_same ..
  case group => rw [State.setGroup_groups]; exact Tbl.look_set_same ..
  exact State.group_setGroup_same ..

theorem landing : Claim.Landing := by
  intro s id i a e tw old p op look elem st kind dest listed alone skip tags _
  have producer : Tbl.look (s.group a.gid).prods id = some p := by rw [alone]; exact if_pos rfl
  obtain ⟨memories, -, win, -⟩ := delivered_done s id a i e (bytesOfNat 4 old.toNat)
  have four := length_bytesOfNat 4 old.toNat
  have window := (win _ (look_group listed) dest).trans (win_deliverElem_word producer skip e.off four)
  refine ⟨_, (exec_atomReturnDelivery ..).trans (congrArg _ (landAtom_eq look elem st)), memories, ?_, fun x hx => ?_, fun others => ?_⟩
  · have read := Mem.bytes_store_same (s.group a.gid).win e.off (bytesOfNat 4 old.toNat)
    rw [four] at read
    rw [window]; exact read
  · rw [window]; exact Mem.read_store_other _ (by rw [four]; exact hx)
  · rw [delivered_lands (look_group listed) kind dest others]
    have one : (deliverElem (s.group a.gid) id e.off (bytesOfNat 4 old.toNat)).prods = [(id, p)] := prods_deliver (prods_deliver alone ..) ..
    obtain ⟨gone, granules, regs⟩ := land_alone
      (g := { deliverElem (s.group a.gid) id e.off (bytesOfNat 4 old.toNat) with wrote := [] }) one tags
    exact ⟨gone, granules, fun r hr he => regs r hr ((st_deliverElem ..).trans he)⟩

/-- Settles O27: an element performed at its one place changes only that place, and the last one lands the access (R208 to R210, R51). -/
theorem accessCompletion : Obligations.AccessCompletion := ⟨performing, landing⟩

end Sys2Proof.Proofs
end

section
/-!
PROOF. Affine operations (R65 to R67): a pending pair among the sources of a word with RK = 1 gives the destination pair the
coefficients of its row.
-/

namespace Sys2Proof.Proofs

open Sys2Proof.Machine Sys2Proof.Claim

/-! ### The pair that an affine operation writes -/

theorem ofNat_num_putLanes (m : Mem) (base : Nat) (v : Nat → Nat) {l : Nat} (hl : l < 256) :
    BitVec.ofNat 32 ((m.putLanes base (List.range 256) v).num (base + 4 * l) 4) = BitVec.ofNat 32 (v l) := by
  rw [Mem.num_putLanes, if_pos (List.mem_range.2 hl)]
  exact BitVec.eq_of_toNat_eq (by simp)

theorem lane_writePair {g h : Group} {d k : Nat} {o : Bool} {rs : Nat → Nat × Nat × BitVec 5}
    (e : h.win = (g.writePair d k o rs).win) {l : Nat} (hl : l < 256) :
    h.lane (d + 1) l = BitVec.ofNat 32 (rs l).1 ∧ h.lane d l = BitVec.ofNat 32 (rs l).2.1 := by
  rw [Group.lane, Group.lane, e, Laws.writePair_win]
  refine ⟨?_, ofNat_num_putLanes _ _ _ hl⟩
  rw [Mem.num_putLanes_other _ _ _ _ _ fun j hj => by have := List.mem_range.1 hj; omega]
  exact ofNat_num_putLanes _ _ _ hl

theorem read_writePair (g : Group) {d a : Nat} (k : Nat) (o : Bool) (rs : Nat → Nat × Nat × BitVec 5)
    (outside : a < 1024 * d ∨ 1024 * d + 2048 ≤ a) : (g.writePair d k o rs).win.read a = g.win.read a := by
  rw [Laws.writePair_win]
  rw [Mem.read_putLanes _ _ _ _ _ fun l hl => by have := List.mem_range.1 hl; omega]
  exact Mem.read_putLanes _ _ _ _ _ fun l hl => by have := List.mem_range.1 hl; omega

/-! ### An affine operation completes -/

theorem laneFrame_holdLatch {c : Ctx} {s t : State} {gid sub : Nat} {pc : W64} {fl : BitVec 5}
    (h : LaneFrame (holdLatch s c) t gid sub pc fl) : LaneFrame s t gid sub pc fl := by
  obtain ⟨⟨shape, cores⟩, others, raised, issued⟩ := h
  exact ⟨⟨shape, fun n => (cores n).trans (holdLatch_core s c n)⟩, others, raised, issued⟩

/-- Coefficients and flags by lane that a plan makes of the pending pair's. -/
def planLane (g : Group) (f : Fields) (pl : AffPlan) (l : Nat) : Nat × Nat × BitVec 5 :=
  pl.row.lane (effRm g.csr.fmode f.rm) (g.lane (pl.p + 1) l).toNat (g.lane pl.p l).toNat (g.lane (pl.p2 + 1) l).toNat
    (g.lane pl.p2 l).toNat (g.src f pl.x l).toNat (g.src f pl.y l).toNat

theorem affineLanes_in {c : Ctx} {g : Group} {pl : AffPlan} {act : Mask} {l : Nat} (h : l ∈ laneSet g act) :
    affineLanes c pl.row g pl.p pl.p2 pl.x pl.y act l = planLane g c.f pl l := by
  unfold affineLanes; exact if_pos (List.contains_iff_mem.2 h)

theorem affineLanes_out {c : Ctx} {g : Group} {pl : AffPlan} {act : Mask} {l : Nat} (h : l ∉ laneSet g act) :
    affineLanes c pl.row g pl.p pl.p2 pl.x pl.y act l = ((g.lane (pl.p + 1) l).toNat, (g.lane pl.p l).toNat, 0) := by
  unfold affineLanes; exact if_neg (mt List.contains_iff_mem.1 h)

/-- Every active lane is computed, so that its flags are the row's. -/
theorem affineFlags_eq {c : Ctx} {g : Group} {pl : AffPlan} {act : Mask} :
    orFlags (((List.range 256).filter (mhas act)).map fun l => (affineLanes c pl.row g pl.p pl.p2 pl.x pl.y act l).2.2)
      = laneFlags act (List.range 256) fun l => (planLane g c.f pl l).2.2 := by
  refine congrArg orFlags (List.map_congr_left fun l hl => ?_)
  obtain ⟨lt, active⟩ := List.mem_filter.1 hl
  rw [affineLanes_in (List.mem_append_left _ ((mem_mlanes act l).2 ⟨List.mem_range.1 lt, active⟩))]

/-- The end of a word whose meaning is the affine operation of a plan. -/
theorem affineDone_of_plan {i : Instr} {f : Fields} {s : State} {gid sub d : Nat} {pl : AffPlan} :
    let c := ctx i f s gid sub
    AffineDone s (settleGroup c false s (.ok (affine c pl.row d pl.p pl.k pl.p2 pl.x pl.y ((s.group gid).activeReal sub f)
      (holdLatch s c)))) f gid sub pl.p pl.k d (planLane (s.group gid) f pl) := by
  intro c
  let g := s.group gid
  let act := g.activeReal sub f
  let rs := affineLanes c pl.row g pl.p pl.p2 pl.x pl.y act
  let h := g.writePair d pl.k (d != pl.p && d != pl.p2) rs
  obtain ⟨frame, grp⟩ := retire_frame (c := c) (s := s) (s2 := holdLatch s c) (g := h)
    (laneFlags act (List.range 256) fun l => (planLane g f pl l).2.2) (winOnly_holdLatch s c gid) (Laws.same_writePair ..)
  obtain ⟨low, high, tags⟩ := Laws.writePair_st g d pl.k (d != pl.p && d != pl.p2) rs
  rw [settleGroup_ok, affine, affineFlags_eq]
  refine ⟨laneFrame_holdLatch frame, fun l hl hin => ?_, fun l hl hout => ?_, ?_, ?_, ?_, fun a outside => ?_⟩
  · have := lane_writePair (h := doneGroup c h) (rs := rs) rfl hl
    rw [show rs l = _ from affineLanes_in hin] at this
    exact grp ▸ this
  · have := lane_writePair (h := doneGroup c h) (rs := rs) rfl hl
    rw [show rs l = _ from affineLanes_out hout, BitVec.ofNat_toNat, BitVec.ofNat_toNat, BitVec.setWidth_eq, BitVec.setWidth_eq] at this
    exact grp ▸ this
  · exact (congrArg (Group.st · d) grp).trans low
  · exact (congrArg (Group.st · (d + 1)) grp).trans high
  · exact fun x hx => (congrArg (Group.tagAt · x) grp).trans (tags x hx)
  · exact (congrArg (fun h : Group => h.win.read a) grp).trans (read_writePair g pl.k _ rs outside)

/-! ### Which words take which plan -/

/-- A word whose meaning in lanes, with RK = 1, is the affine operation of a plan where `plan` gives one. -/
def Reckons (i : Instr) (f : Fields) (plan : Group → Option AffPlan) : Prop :=
  ∃ ordinary : Ctx → State → Except Stop State, ∀ s gid sub, Issuing s gid sub → exec i s =
    .next (settleGroup (ctx i f s gid sub) false s
      (reckoned (ctx i f s gid sub) true plan (ordinary (ctx i f s gid sub)) (holdLatch s (ctx i f s gid sub))))

theorem reckons_float {i : Instr} {f : Fields} {plan : Group → Option AffPlan} {fn : FFmt → RM → Nat → Nat → Nat → Nat × BitVec 5}
    (run : ∀ s, exec i s = aluReckon i f plan fn s) (rk : f.rk = true) (fmt : f.fmt = .f32) : Reckons i f plan :=
  ⟨fun c => floatBody c f.fmt fn, fun s gid sub hI => by rw [run, aluReckon, issueGroup_group hI, rk, fmt]; rfl⟩

theorem reckons_mov {f : Fields} {n : Fin 64} (rk : f.rk = true) (uni : f.uni = false) (dst : f.d = .v n) :
    Reckons (.mov f) f fun g => planMov g f :=
  ⟨fun c => laneBody c (usesABC f) f.fmt fun g l => (g.src f f.a l, 0), fun s gid sub hI => by
    rw [exec_mov, execMov, issueBoth_group hI, dst, rk, uni]; rfl⟩

/-- Sources none of which is the odd half of a pending pair, and a plan for them. -/
def Planned (g : Group) (f : Fields) (plan : Group → Option AffPlan) (pl : AffPlan) : Prop :=
  plan g = some pl ∧ ∀ x ∈ [f.a, f.b, f.c], g.oddPend x = false

theorem Reckons.done {i : Instr} {f : Fields} {plan : Group → Option AffPlan} (word : Reckons i f plan) {s : State}
    {gid sub d : Nat} {pl : AffPlan} (hI : Issuing s gid sub) (uni : f.uni = false) (dst : (s.group gid).pairDst f.d = some d)
    (refs : RefsOk (s.group gid) (usesABC f) [(f.d, 2)]) (avail : available (s.group gid) (usesABC f) = .ok ())
    (active : (s.group gid).activeReal sub f ≠ 0) (planned : Planned (s.group gid) f plan pl) :
    ∃ t, exec i s = .next t ∧ AffineDone s t f gid sub pl.p pl.k d (planLane (s.group gid) f pl) := by
  obtain ⟨ordinary, run⟩ := word
  obtain ⟨hplan, odd⟩ := planned
  have oa := odd f.a (by simp)
  have ob := odd f.b (by simp)
  have oc := odd f.c (by simp)
  refine ⟨_, run s gid sub hI, ?_⟩
  have meaning : reckoned (ctx i f s gid sub) true plan (ordinary (ctx i f s gid sub)) (holdLatch s (ctx i f s gid sub))
      = .ok (affine (ctx i f s gid sub) pl.row d pl.p pl.k pl.p2 pl.x pl.y ((s.group gid).activeReal sub f)
          (holdLatch s (ctx i f s gid sub))) := by
    unfold reckoned
    simp only [show Ctx.g (ctx i f s gid sub) (holdLatch s (ctx i f s gid sub)) = s.group gid from rfl, oa, ob, oc, uni, hplan, dst,
      Bool.or_self, Bool.not_false, Bool.and_self, if_true, checkRefs_ok refs, avail, active, if_false, bind, Except.bind, pure, Except.pure]
  rw [meaning]
  exact affineDone_of_plan

/-! ### The rows of R66 -/

theorem oddPend_of_pendOf {g : Group} {o : Opd} {x : Nat × Nat} (h : g.pendOf o = some x) : g.oddPend o = false := by
  unfold Group.pendOf at h
  unfold Group.oddPend
  repeat' split at h
  all_goals simp_all

/-- A plan whose row, whatever the coefficients and the known values, computes `row` of the pending pair `p` on slot `k`, with
the known sources `x` and `y`. -/
def Computes (pl : AffPlan) (row : RM → Nat → Nat → Nat → Nat → Nat × Nat × BitVec 5) (p k : Nat) (x y : Opd) : Prop :=
  pl.p = p ∧ pl.k = k ∧ ∀ rm a b a2 b2 (v : Opd → Nat), pl.row.lane rm a b a2 b2 (v pl.x) (v pl.y) = row rm a b (v x) (v y)

/-- Field `j` is the one pending source of a word, its even register named; the others hold no pending form. -/
def OnePending (g : Group) (f : Fields) (j p k : Nat) : Prop :=
  [f.a, f.b, f.c][j]?.bind g.pendOf = some (p, k)
  ∧ ∀ i < 3, i ≠ j → ∀ x, [f.a, f.b, f.c][i]? = some x → g.pendOf x = none ∧ g.oddPend x = false

theorem OnePending.odd {g : Group} {f : Fields} {j p k : Nat} (h : OnePending g f j p k) :
    ∀ x ∈ [f.a, f.b, f.c], g.oddPend x = false := by
  intro x hx
  obtain ⟨i, hi⟩ := List.mem_iff_getElem?.1 hx
  by_cases e : i = j
  · exact oddPend_of_pendOf (x := (p, k)) (by have := h.1; rw [← e, hi] at this; exact this)
  · exact (h.2 i (List.getElem?_eq_some_iff.1 hi).1 e x hi).2

theorem OnePending.of_a {g : Group} {f : Fields} {p k : Nat} (h : OnePending g f 0 p k) :
    g.pendOf f.a = some (p, k) ∧ g.pendOf f.b = none ∧ g.pendOf f.c = none :=
  ⟨h.1, (h.2 1 (by decide) (by decide) _ rfl).1, (h.2 2 (by decide) (by decide) _ rfl).1⟩

theorem OnePending.of_b {g : Group} {f : Fields} {p k : Nat} (h : OnePending g f 1 p k) :
    g.pendOf f.b = some (p, k) ∧ g.pendOf f.a = none ∧ g.pendOf f.c = none :=
  ⟨h.1, (h.2 0 (by decide) (by decide) _ rfl).1, (h.2 2 (by decide) (by decide) _ rfl).1⟩

theorem OnePending.of_c {g : Group} {f : Fields} {p k : Nat} (h : OnePending g f 2 p k) :
    g.pendOf f.c = some (p, k) ∧ g.pendOf f.a = none ∧ g.pendOf f.b = none :=
  ⟨h.1, (h.2 0 (by decide) (by decide) _ rfl).1, (h.2 1 (by decide) (by decide) _ rfl).1⟩

/-- `plan` takes the pending source in field `j` as `row` asks. -/
def TakesRow (f : Fields) (plan : Group → Option AffPlan) (j : Nat) (row : RM → Nat → Nat → Nat → Nat → Nat × Nat × BitVec 5) : Prop :=
  let rest := [f.a, f.b, f.c].eraseIdx j
  ∀ g p k, OnePending g f j p k → ∃ pl, plan g = some pl ∧ Computes pl row p k (rest[0]?.getD .zero) (rest[1]?.getD .zero)

theorem planAdd_takes_a (f : Fields) (sub : Bool) : TakesRow f (fun g => planAdd g sub f) 0 fun rm a b x y =>
    (if sub then Row.subK else .addK).lane rm a b 0 0 x y := by
  intro g p k h
  obtain ⟨a, b, -⟩ := h.of_a
  exact ⟨_, by simp only [planAdd, a, b]; rfl, rfl, rfl, by cases sub <;> exact fun _ _ _ _ _ _ => rfl⟩

theorem planAdd_takes_b (f : Fields) (sub : Bool) : TakesRow f (fun g => planAdd g sub f) 1 fun rm a b x y =>
    (if sub then Row.ksub else .addK).lane rm a b 0 0 x y := by
  intro g p k h
  obtain ⟨b, a, -⟩ := h.of_b
  exact ⟨_, by simp only [planAdd, a, b]; rfl, rfl, rfl, by cases sub <;> exact fun _ _ _ _ _ _ => rfl⟩

theorem planMul_takes_a (f : Fields) : TakesRow f (fun g => planMul g f) 0 fun rm a b x y => Row.mulK.lane rm a b 0 0 x y := by
  intro g p k h
  obtain ⟨a, b, -⟩ := h.of_a
  exact ⟨_, by simp only [planMul, a, b]; rfl, rfl, rfl, fun _ _ _ _ _ _ => rfl⟩

theorem planMul_takes_b (f : Fields) : TakesRow f (fun g => planMul g f) 1 fun rm a b x y => Row.mulK.lane rm a b 0 0 x y := by
  intro g p k h
  obtain ⟨b, a, -⟩ := h.of_b
  exact ⟨_, by simp only [planMul, a, b]; rfl, rfl, rfl, fun _ _ _ _ _ _ => rfl⟩

theorem planFma_takes_a (f : Fields) (mp mc : Bool) : TakesRow f (fun g => planFma g mp mc f) 0 fun rm a b x y =>
    (Row.fmaK mp mc).lane rm a b 0 0 x y := by
  intro g p k h
  obtain ⟨a, b, c⟩ := h.of_a
  exact ⟨_, by simp only [planFma, a, b, c]; rfl, rfl, rfl, fun _ _ _ _ _ _ => rfl⟩

theorem planFma_takes_b (f : Fields) (mp mc : Bool) : TakesRow f (fun g => planFma g mp mc f) 1 fun rm a b x y =>
    (Row.fmaK mp mc).lane rm a b 0 0 x y := by
  intro g p k h
  obtain ⟨b, a, c⟩ := h.of_b
  exact ⟨_, by simp only [planFma, a, b, c]; rfl, rfl, rfl, fun _ _ _ _ _ _ => rfl⟩

theorem planFma_takes_c (f : Fields) (mp mc : Bool) : TakesRow f (fun g => planFma g mp mc f) 2 fun rm a b x y =>
    (Row.fmaP mp mc).lane rm a b 0 0 x y := by
  intro g p k h
  obtain ⟨c, a, b⟩ := h.of_c
  exact ⟨_, by simp only [planFma, a, b, c]; rfl, rfl, rfl, fun _ _ _ _ _ _ => rfl⟩

theorem planMov_takes_a (f : Fields) : TakesRow f (fun g => planMov g f) 0 fun rm a b x y => Row.copy.lane rm a b 0 0 x y := by
  intro g p k h
  obtain ⟨a, -⟩ := h.of_a
  exact ⟨_, by simp only [planMov, a]; rfl, rfl, rfl, fun _ _ _ _ _ _ => rfl⟩

/-- Each entry of the table is a word that takes its row. -/
theorem affineOps_word {o : (Fields → Instr) × Nat × (RM → Nat → Nat → Nat → Nat → Nat × Nat × BitVec 5)} (ho : o ∈ affineOps)
    {f : Fields} {n : Fin 64} (rk : f.rk = true) (uni : f.uni = false) (dst : f.d = .v n) (fmt : f.fmt = .f32 ∨ o.1 f = .mov f) :
    ∃ plan, Reckons (o.1 f) f plan ∧ TakesRow f plan o.2.1 o.2.2 := by
  have float {i : Instr} {plan : Group → Option AffPlan} {fn : FFmt → RM → Nat → Nat → Nat → Nat × BitVec 5}
      (run : ∀ s, exec i s = aluReckon i f plan fn s) (e : f.fmt = .f32 ∨ i = .mov f) (other : i ≠ .mov f) : Reckons i f plan :=
    reckons_float run rk (e.resolve_right other)
  simp only [affineOps, List.mem_cons, List.not_mem_nil, or_false] at ho
  rcases ho with rfl | rfl | rfl | rfl | rfl | rfl | rfl | rfl | rfl | rfl | rfl | rfl | rfl | rfl | rfl | rfl | rfl | rfl | rfl
  · exact ⟨_, float (fun _ => rfl) fmt nofun, planAdd_takes_a f false⟩
  · exact ⟨_, float (fun _ => rfl) fmt nofun, planAdd_takes_b f false⟩
  · exact ⟨_, float (fun _ => rfl) fmt nofun, planAdd_takes_a f true⟩
  · exact ⟨_, float (fun _ => rfl) fmt nofun, planAdd_takes_b f true⟩
  · exact ⟨_, float (fun _ => rfl) fmt nofun, planMul_takes_a f⟩
  · exact ⟨_, float (fun _ => rfl) fmt nofun, planMul_takes_b f⟩
  · exact ⟨_, float (fun _ => rfl) fmt nofun, planFma_takes_a f false false⟩
  · exact ⟨_, float (fun _ => rfl) fmt nofun, planFma_takes_b f false false⟩
  · exact ⟨_, float (fun _ => rfl) fmt nofun, planFma_takes_c f false false⟩
  · exact ⟨_, float (fun _ => rfl) fmt nofun, planFma_takes_a f false true⟩
  · exact ⟨_, float (fun _ => rfl) fmt nofun, planFma_takes_b f false true⟩
  · exact ⟨_, float (fun _ => rfl) fmt nofun, planFma_takes_c f false true⟩
  · exact ⟨_, float (fun _ => rfl) fmt nofun, planFma_takes_a f true false⟩
  · exact ⟨_, float (fun _ => rfl) fmt nofun, planFma_takes_b f true false⟩
  · exact ⟨_, float (fun _ => rfl) fmt nofun, planFma_takes_c f true false⟩
  · exact ⟨_, float (fun _ => rfl) fmt nofun, planFma_takes_a f true true⟩
  · exact ⟨_, float (fun _ => rfl) fmt nofun, planFma_takes_b f true true⟩
  · exact ⟨_, float (fun _ => rfl) fmt nofun, planFma_takes_c f true true⟩
  · exact ⟨_, reckons_mov rk uni dst, planMov_takes_a f⟩

theorem planAdd_both {g : Group} {f : Fields} {p q k : Nat} (sub : Bool) (a : g.pendOf f.a = some (p, k)) (b : g.pendOf f.b = some (q, k)) :
    planAdd g sub f = some { row := if sub then .subP else .addP, p := p, k := k, p2 := q } := by
  simp only [planAdd, a, b, if_true]

theorem pairDst_vector {g : Group} {o : Opd} {d : Nat} (h : g.pairDst o = some d) : ∃ n, o = .v n := by
  unfold Group.pairDst at h
  split at h
  · exact ⟨_, rfl⟩
  · cases h

/-- Settles O6: each word of R66 is the affine operation of its plan, whose row is its entry's. -/
theorem affineOperations : Obligations.AffineOperations := by
  intro f s gid sub p k d hI rk uni g rm fields dst refs avail active
  obtain ⟨n, hd⟩ := pairDst_vector dst
  constructor
  · intro o ho fmt pending others rest known
    obtain ⟨plan, word, takes⟩ := affineOps_word ho rk uni hd fmt
    have one : OnePending g f o.2.1 p k := ⟨pending, others⟩
    obtain ⟨pl, hplan, rfl, rfl, row⟩ := takes g p k one
    obtain ⟨t, ht, done⟩ := word.done hI uni dst refs avail active ⟨hplan, one.odd⟩
    have lanes : planLane g f pl = fun l => o.2.2 rm (g.lane (pl.p + 1) l).toNat (g.lane pl.p l).toNat (known 0 l) (known 1 l) :=
      funext fun l => row rm _ _ _ _ fun x => (g.src f x l).toNat
    exact ⟨t, ht, lanes ▸ done⟩
  · intro q fmt pa pb oc both
    have odd : ∀ x ∈ [f.a, f.b, f.c], g.oddPend x = false := by
      simp [oddPend_of_pendOf pa, oddPend_of_pendOf pb, oc]
    have plus : Reckons (.fadd f) f fun g => planAdd g false f := reckons_float (fun _ => rfl) rk fmt
    have minus : Reckons (.fsub f) f fun g => planAdd g true f := reckons_float (fun _ => rfl) rk fmt
    obtain ⟨t, ht, tdone⟩ := plus.done hI uni dst refs avail active ⟨planAdd_both false pa pb, odd⟩
    obtain ⟨u, hu, udone⟩ := minus.done hI uni dst refs avail active ⟨planAdd_both true pa pb, odd⟩
    simp only [Bool.false_eq_true, if_false, if_true] at tdone udone
    exact ⟨⟨t, ht, tdone⟩, u, hu, udone⟩

end Sys2Proof.Proofs
end

section
/-!
PROOF. The issue checks of the layer words (R107, R405): the first that fails traps.
-/

namespace Sys2Proof.Proofs

open Sys2Proof.Machine Sys2Proof.Claim

/-- Checks in their order, each with the cause and TVAL of its trap. -/
def runChecks : List (Bool × Nat × Nat) → Except Stop Unit
  | [] => .ok ()
  | (ok, cause, tval) :: cs => (guardN ok cause tval).bind fun _ => runChecks cs

theorem runChecks_fails {cs : List (Bool × Nat × Nat)} {k cause tval : Nat} (fails : cs[k]? = some (false, cause, tval))
    (passed : ∀ j < k, ∀ x, cs[j]? = some x → x.1 = true) : runChecks cs = trapN cause tval := by
  induction cs generalizing k with
  | nil => cases fails
  | cons c cs ih =>
    cases k with
    | zero => cases fails; rfl
    | succ k =>
      have ok := passed 0 (Nat.zero_lt_succ k) c rfl
      obtain ⟨ok', cause', tval'⟩ := c
      obtain rfl := ok
      exact ih fails fun j hj => passed (j + 1) (Nat.succ_lt_succ hj)

theorem runChecks_pass {cs : List (Bool × Nat × Nat)} (pass : ∀ c ∈ cs, c.1 = true) : runChecks cs = .ok () := by
  induction cs with
  | nil => rfl
  | cons c cs ih =>
    obtain ⟨ok, cause, tval⟩ := c
    obtain rfl := pass _ (List.mem_cons_self ..)
    exact ih fun c hc => pass c (List.mem_cons_of_mem _ hc)

/-- Checks 4 to 8 of R107, for an input of `size` bytes an element. -/
def inputChecks (s : State) (g : Group) (f : Fields) (trans : Bool) (size : Nat) : List (Bool × Nat × Nat) :=
  let b := s.bind (bindIndex f)
  let start := startOf g f
  let va := inputOf g f
  let count := if trans then b.dout else b.din
  [(start % 256 == 0, 0x05, start), (decide (start < if trans then b.din else b.dout), 0x0A, 4),
    (!trans || decide (b.dout ≤ 32768), 0x0A, 5), (va % 64 == 0, 0x05, va), ((spad s g.ident.tid va (size * count)).isOk, 0x0A, 6)]

/-- The first three checks of R107. -/
def layerGuards (s : State) (g : Group) (f : Fields) : List (Bool × Nat × Nat) :=
  let b := s.bind (bindIndex f)
  [(b.state == 2, 0x0A, 1), (b.grant.getLsbD g.ident.part, 0x0A, 2),
    ((diesOf b.dies).all fun k => (s.part g.ident.part).e.dies.contains k, 0x0A, 3)]

/-- What R405 checks of the binding instead. -/
def probeGuards (s : State) (f : Fields) : List (Bool × Nat × Nat) :=
  let b := s.bind (bindIndex f)
  [(b.state == 2 || b.state == 1, 0x0A, 1), ((diesOf b.dies).all fun k => s.m.dieok.getLsbD k, 0x0A, 3)]

theorem delivered_one {g : Group} {os : List Opd} (h : Delivered g os) {o : Opd} (ho : o ∈ os) : Delivered g [o] :=
  fun n hn => h n (List.mem_singleton.1 hn ▸ ho)

theorem runChecks_cons (ok : Bool) (cause tval : Nat) (cs : List (Bool × Nat × Nat)) :
    runChecks ((ok, cause, tval) :: cs) = (guardN ok cause tval).bind fun _ => runChecks cs := rfl

theorem except_bind_congr {ε α β : Type} {x y : Except ε α} {f g : α → Except ε β} (h : x = y) (k : ∀ a, f a = g a) :
    x.bind f = y.bind g := h ▸ congrArg _ (funext k)

theorem except_ok_bind {ε α β : Type} (x : α) (f : α → Except ε β) : (Except.ok x >>= f) = f x := rfl

theorem except_bind_assoc {ε α β γ : Type} (x : Except ε α) (f : α → Except ε β) (g : β → Except ε γ) :
    (x.bind f).bind g = x.bind fun a => (f a).bind g := by cases x <;> rfl

section
variable {c : Ctx} {s : State} {trans : Bool} (size : Nat) (delivered : Delivered (c.g s) [c.f.a, c.f.b])
include delivered

/-- `layerChecks` runs its checks in order; where they pass, the input lies where the last one found it. -/
theorem layerChecks_eq : layerChecks c s trans size = (runChecks (inputChecks s (c.g s) c.f trans size)).bind fun _ =>
    match spad s (c.g s).ident.tid (inputOf (c.g s) c.f)
        (size * if trans then (s.bind (bindIndex c.f)).dout else (s.bind (bindIndex c.f)).din) with
    | .ok (t, off) => .ok ⟨bindIndex c.f, s.bind (bindIndex c.f), startOf (c.g s) c.f, trans, t, off⟩
    | .error _ => trapN Cause.prot 6 := by
  have ra := scalReady_ok (delivered_one delivered (o := c.f.a) (by simp))
  have rb := scalReady_ok (delivered_one delivered (o := c.f.b) (by simp))
  unfold layerChecks inputChecks
  simp only [ra, rb, runChecks_cons, except_ok_bind, except_bind_assoc]
  refine except_bind_congr rfl fun _ => ?_
  refine except_bind_congr rfl fun _ => ?_
  refine except_bind_congr rfl fun _ => ?_
  refine except_bind_congr rfl fun _ => ?_
  change (match spad s (c.g s).ident.tid (inputOf (c.g s) c.f)
        (size * if trans then (s.bind (bindIndex c.f)).dout else (s.bind (bindIndex c.f)).din) with
      | .ok (t, off) => Except.ok (⟨bindIndex c.f, s.bind (bindIndex c.f), startOf (c.g s) c.f, trans, t, off⟩ : LayerUse)
      | .error _ => trapN Cause.prot 6) = _
  cases spad s (c.g s).ident.tid (inputOf (c.g s) c.f)
    (size * if trans then (s.bind (bindIndex c.f)).dout else (s.bind (bindIndex c.f)).din) <;> rfl
end

theorem runChecks_append (as bs : List (Bool × Nat × Nat)) : runChecks (as ++ bs) = (runChecks as).bind fun _ => runChecks bs := by
  induction as with
  | nil => rfl
  | cons a as ih => obtain ⟨ok, cause, tval⟩ := a; simp only [List.cons_append, runChecks_cons, ih, except_bind_assoc]

/-- The layer instruction of a direction, and the probe. -/
def layerWord (trans : Bool) (f : Fields) : Instr := if trans then .layrt f else .layr f
def probeWord (trans : Bool) (f : Fields) : Instr := if trans then .lprbt f else .lprb f

theorem exec_layerWord {s : State} {gid sub : Nat} (trans : Bool) (f : Fields) (hI : Issuing s gid sub) :
    let c := ctx (layerWord trans f) f s gid sub
    exec (layerWord trans f) s = .next (settleGroup c false s (layer c trans (holdLatch s c))) := by
  cases trans
  · exact (show _ = issueGroup (.layr f) f (fun c s => layer c false s) s from rfl).trans (issueGroup_group hI)
  · exact (show _ = issueGroup (.layrt f) f (fun c s => layer c true s) s from rfl).trans (issueGroup_group hI)

theorem exec_probeWord {s : State} {gid sub : Nat} (trans : Bool) (f : Fields) (hI : Issuing s gid sub) :
    let c := ctx (probeWord trans f) f s gid sub
    exec (probeWord trans f) s = .next (settleGroup c false s (probe c trans (holdLatch s c))) := by
  cases trans
  · exact (show _ = issueGroup (.lprb f) f (fun c s => probe c false s) s from rfl).trans (issueGroup_group hI)
  · exact (show _ = issueGroup (.lprbt f) f (fun c s => probe c true s) s from rfl).trans (issueGroup_group hI)

section
variable {c : Ctx} {s : State} {trans : Bool}

theorem layer_checks (refs : RefsOk (c.g s) [] [(c.f.d, 2)]) : ∃ rest, layer c trans s =
    (runChecks (layerGuards s (c.g s) c.f)).bind fun _ => (layerChecks c s trans 2).bind rest := by
  unfold layer layerGuards
  simp only [checkRefs_ok refs, except_ok_bind, runChecks_cons, except_bind_assoc]
  exact ⟨_, rfl⟩

theorem probe_checks (refs : RefsOk (c.g s) [] [(c.f.d, 1)]) (priv : (s.launch (c.g s).ident.lid).priv = true) :
    ∃ rest, probe c trans s = (runChecks (probeGuards s c.f)).bind fun _ => (layerChecks c s trans 1).bind rest := by
  have priv : guardPriv c s = .ok () := by unfold guardPriv; rw [priv]; rfl
  unfold probe probeGuards
  simp only [checkRefs_ok refs, priv, except_ok_bind, runChecks_cons, except_bind_assoc]
  exact ⟨_, rfl⟩

theorem probe_unprivileged (refs : RefsOk (c.g s) [] [(c.f.d, 1)]) (priv : (s.launch (c.g s).ident.lid).priv = false)
    {o : Nat} {n x} (word : c.i.word? = some (o, n, x)) : probe c trans s = trapN 0x03 o := by
  have priv : guardPriv c s = trapN 0x03 o := by unfold guardPriv; rw [priv, word]; rfl
  unfold probe
  simp only [checkRefs_ok refs, priv, except_ok_bind]
  rfl
end

/-- A meaning that runs guards, then the checks of the input, traps with the first that fails. -/
theorem checks_trap {c : Ctx} {s : State} {trans : Bool} {size cause tval : Nat} {guards : List (Bool × Nat × Nat)}
    {m : Except Stop State} (delivered : Delivered (c.g s) [c.f.a, c.f.b])
    (runs : ∃ rest, m = (runChecks guards).bind fun _ => (layerChecks c s trans size).bind rest)
    (fails : runChecks (guards ++ inputChecks s (c.g s) c.f trans size) = trapN cause tval) :
    m = .error (.trap { cause := cause, tval := BitVec.ofNat 64 tval }) := by
  obtain ⟨rest, rfl⟩ := runs
  rw [runChecks_append] at fails
  cases guarded : runChecks guards with
  | error e => rw [guarded] at fails; rw [Except.error.inj fails]; rfl
  | ok _ =>
    rw [guarded] at fails
    show (layerChecks c s trans size).bind rest = _
    rw [layerChecks_eq size delivered, show runChecks _ = trapN cause tval from fails]
    rfl

section
variable {f : Fields} {s : State} {gid sub cause tval : Nat} {trans : Bool} (hI : Issuing s gid sub)
include hI

theorem layerWord_traps (delivered : Delivered (s.group gid) [f.a, f.b]) (refs : RefsOk (s.group gid) [] [(f.d, 2)])
    (fails : runChecks (layerGuards s (s.group gid) f ++ inputChecks s (s.group gid) f trans 2) = trapN cause tval) :
    Traps (layerWord trans f) f s gid sub s { cause := cause, tval := BitVec.ofNat 64 tval } := by
  refine traps_of (j := false) ?_
  let c := ctx (layerWord trans f) f s gid sub
  rw [exec_layerWord trans f hI, checks_trap (c := c) (s := holdLatch s c) delivered (layer_checks refs) fails]

theorem probeWord_traps (delivered : Delivered (s.group gid) [f.a, f.b]) (refs : RefsOk (s.group gid) [] [(f.d, 1)])
    (priv : (s.launch (s.group gid).ident.lid).priv = true)
    (fails : runChecks (probeGuards s f ++ inputChecks s (s.group gid) f trans 1) = trapN cause tval) :
    Traps (probeWord trans f) f s gid sub s { cause := cause, tval := BitVec.ofNat 64 tval } := by
  refine traps_of (j := false) ?_
  let c := ctx (probeWord trans f) f s gid sub
  rw [exec_probeWord trans f hI, checks_trap (c := c) (s := holdLatch s c) delivered (probe_checks refs priv) fails]

theorem probeWord_traps_priv (refs : RefsOk (s.group gid) [] [(f.d, 1)]) (priv : (s.launch (s.group gid).ident.lid).priv = false)
    {o : Nat} {n x} (word : (probeWord trans f).word? = some (o, n, x)) :
    Traps (probeWord trans f) f s gid sub s { cause := 0x03, tval := BitVec.ofNat 64 o } := by
  refine traps_of (j := false) ?_
  let c := ctx (probeWord trans f) f s gid sub
  rw [exec_probeWord trans f hI, probe_unprivileged (c := c) (s := holdLatch s c) refs priv word]
  rfl
end

theorem layerWords_checked : Claim.LayerChecks := by
  intro f s gid sub trans d hI hd delivered room g b start va count shared checks probes first
  exact ⟨fun k cause tval refs _ fails => layerWord_traps hI delivered refs (runChecks_fails fails.1 fails.2),
    fun k cause tval refs priv fails => probeWord_traps hI delivered refs priv (runChecks_fails fails.1 fails.2),
    fun refs priv o n x word => probeWord_traps_priv hI refs priv word⟩

end Sys2Proof.Proofs
end

section
/-!
PROOF. The issue of the layer words (R62, R63, R108 to R115, R394, R405, R406).
-/

namespace Sys2Proof.Proofs

open Sys2Proof.Machine Sys2Proof.Claim

/-! ### A pair that a producer seeds (R62) -/

/-- The window of `seedPair`: the words of both registers, lane by lane. -/
def putPairs (m : Mem) (d : Nat) (ls : List Nat) (a0 b0 : Nat → Nat) : Mem :=
  ls.foldl (fun m l => (m.putNum (1024 * d + 4 * l) 4 (b0 l)).putNum (1024 * (d + 1) + 4 * l) 4 (a0 l)) m

/-- Words that a fold over lanes writes, each step its own lane's. -/
theorem num_foldl_lane {step : Mem → Nat → Mem} {at_ v : Nat → Nat} (own : ∀ m k, (step m k).num (at_ k) 4 = v k % 256 ^ 4)
    (other : ∀ m k l, k < 256 → l < 256 → l ≠ k → (step m k).num (at_ l) 4 = m.num (at_ l) 4) (ls : List Nat)
    (small : ∀ l ∈ ls, l < 256) : ∀ (m : Mem) {l : Nat}, l < 256 →
    (ls.foldl step m).num (at_ l) 4 = if l ∈ ls then v l % 256 ^ 4 else m.num (at_ l) 4 := by
  induction ls with
  | nil => intro m l _; simp
  | cons k ks ih =>
    intro m l hl
    rw [List.foldl_cons, ih (fun l h => small l (List.mem_cons_of_mem _ h)) _ hl]
    by_cases h : l ∈ ks
    · simp [h]
    · by_cases e : l = k
      · subst e; simp [h, own]
      · rw [if_neg h, if_neg (by simp [h, e]), other _ _ _ (small k (List.mem_cons_self ..)) hl e]

theorem num_putPairs_low (d : Nat) (a0 b0 : Nat → Nat) (ls : List Nat) (small : ∀ l ∈ ls, l < 256) (m : Mem) {l : Nat} (hl : l < 256) :
    (putPairs m d ls a0 b0).num (1024 * d + 4 * l) 4 = if l ∈ ls then b0 l % 256 ^ 4 else m.num (1024 * d + 4 * l) 4 :=
  num_foldl_lane (at_ := fun l => 1024 * d + 4 * l) (fun _ _ => by rw [Mem.num_putNum_other (by omega), Mem.num_putNum_same])
    (fun _ _ _ _ _ _ => by rw [Mem.num_putNum_other (by omega), Mem.num_putNum_other (by omega)]) ls small m hl

theorem num_putPairs_high (d : Nat) (a0 b0 : Nat → Nat) (ls : List Nat) (small : ∀ l ∈ ls, l < 256) (m : Mem) {l : Nat} (hl : l < 256) :
    (putPairs m d ls a0 b0).num (1024 * (d + 1) + 4 * l) 4 = if l ∈ ls then a0 l % 256 ^ 4 else m.num (1024 * (d + 1) + 4 * l) 4 :=
  num_foldl_lane (at_ := fun l => 1024 * (d + 1) + 4 * l) (fun _ _ => by rw [Mem.num_putNum_same])
    (fun _ _ _ _ _ _ => by rw [Mem.num_putNum_other (by omega), Mem.num_putNum_other (by omega)]) ls small m hl

theorem read_putPairs (d : Nat) (a0 b0 : Nat → Nat) (ls : List Nat) (small : ∀ l ∈ ls, l < 256) {a : Nat}
    (outside : a < 1024 * d ∨ 1024 * d + 2048 ≤ a) : ∀ m : Mem, (putPairs m d ls a0 b0).read a = m.read a := by
  induction ls with
  | nil => exact fun _ => rfl
  | cons k ks ih =>
    intro m
    have hk := small k (List.mem_cons_self ..)
    rw [putPairs, List.foldl_cons]
    refine (ih (fun l h => small l (List.mem_cons_of_mem _ h)) _).trans ?_
    rw [Mem.putNum, Mem.putNum, Mem.read_store_other _ (by rw [length_bytesOfNat]; omega),
      Mem.read_store_other _ (by rw [length_bytesOfNat]; omega)]

/-- The slot that a producer has taken (R62). -/
def takenSlot (x : Slot) (tf cause : Bool) : Slot :=
  { busy := true, arr := false, fail := false, anv := false, tf := tf, cause := cause, holders := 1, epoch := x.epoch + 1 }

theorem epoch_discardPair (g : Group) (r k : Nat) : ((g.discardPair r).slot k).epoch = (g.slot k).epoch := by
  unfold Group.discardPair
  split
  · next j _ =>
    by_cases h : k = j
    · subst h
      simp only [Group.dropHolder, Group.slot, Group.setSlot, Group.setTags, Group.setSt, Tbl.get_put_same]
    · simp only [Group.dropHolder, Group.slot, Group.setSlot, Group.setTags, Group.setSt, Tbl.get_put_other _ _ _ h]
  · rfl

theorem epoch_discard (g : Group) (a n k : Nat) : ((g.discard a n).slot k).epoch = (g.slot k).epoch := by
  unfold Group.discard
  induction g.pairsIn (regsOf a n) generalizing g with
  | nil => rfl
  | cons r rs ih => exact (ih _).trans (epoch_discardPair g r k)

/-- A group whose pair `d` has become P on slot `k`, the slot being `x` and the window `m`. -/
def pended (g : Group) (d k : Nat) (x : Slot) (m : Mem) : Group :=
  (({ (g.setSlot k x).noteWrite (1024 * d) 2048 [(1024 * d, 2048)] with win := m }.setTags (1024 * d) 2048 .f32).setSt d
    (.pend k)).setSt (d + 1) (.pend k)

theorem seedPair_eq (g : Group) (d k : Nat) (tf cause : Bool) (a0 b0 : Nat → W32) : seedPair g d k tf cause a0 b0 =
    pended (g.discard (1024 * d) 2048) d k (takenSlot (g.slot k) tf cause)
      (putPairs g.win d (List.range 256) (fun l => (a0 l).toNat) fun l => (b0 l).toNat) := by
  unfold seedPair takenSlot
  simp only [epoch_discard]
  rw [← Group.win_discard g (1024 * d) 2048]
  rfl

section
variable (g : Group) (d k : Nat) (x : Slot) (m : Mem)

theorem pended_st : (pended g d k x m).st d = .pend k ∧ (pended g d k x m).st (d + 1) = .pend k :=
  ⟨by rw [pended, Group.st_setSt_other _ _ (by omega), Group.st_setSt_same], by rw [pended, Group.st_setSt_same]⟩

theorem pended_st_other {r : Nat} (low : r ≠ d) (high : r ≠ d + 1) : (pended g d k x m).st r = g.st r := by
  rw [pended, Group.st_setSt_other _ _ high, Group.st_setSt_other _ _ low]; rfl

theorem pended_tagAt {y : Nat} (hy : y ∈ Group.granules (1024 * d) 2048) : (pended g d k x m).tagAt y = .f32 :=
  (Group.tagAt_setTags _ (1024 * d) 2048 .f32 y).trans (if_pos hy)

theorem pended_win : (pended g d k x m).win = m := rfl

theorem pended_slot : (pended g d k x m).slot k = x := Tbl.get_put_same (α := Slot) ..

theorem pended_slot_other {j : Nat} (h : j ≠ k) : (pended g d k x m).slot j = g.slot j := Tbl.get_put_other (α := Slot) _ _ _ h
end

/-- A lane's two words in a window where a pair has been seeded. -/
theorem lane_putPairs {h : Group} {m : Mem} {d : Nat} {a0 b0 : Nat → W32}
    (win : h.win = putPairs m d (List.range 256) (fun l => (a0 l).toNat) fun l => (b0 l).toNat) {l : Nat} (hl : l < 256) :
    h.lane (d + 1) l = a0 l ∧ h.lane d l = b0 l := by
  have small : ∀ l ∈ List.range 256, l < 256 := fun l h => List.mem_range.1 h
  have word (x : W32) : BitVec.ofNat 32 (x.toNat % 256 ^ 4) = x := BitVec.eq_of_toNat_eq (by simp [Nat.mod_eq_of_lt x.isLt])
  rw [Group.lane, Group.lane, win, num_putPairs_low _ _ _ _ small _ hl, num_putPairs_high _ _ _ _ small _ hl,
    if_pos (List.mem_range.2 hl), if_pos (List.mem_range.2 hl), word, word]
  exact ⟨rfl, rfl⟩

/-- The registers, register states and slots of two groups agree. -/
def SameRegisters (g k : Group) : Prop := g.win = k.win ∧ g.vst = k.vst ∧ g.slots = k.slots

/-- A group whose window is that of a seeded pair has had the pair seeded. -/
theorem pairSeeded_of {g g1 h : Group} {d k : Nat} {tf cause : Bool} {a0 b0 a1 b1 : Nat → W32} {sub : Nat} {pc : W64}
    (issued : WindowIssued g h sub pc) (alike : SameRegisters g g1) (win : h.win = (seedPair g1 d k tf cause a1 b1).win)
    (tags : h.tags = (seedPair g1 d k tf cause a1 b1).tags) (vst : h.vst = (seedPair g1 d k tf cause a1 b1).vst)
    (slots : h.slots = (seedPair g1 d k tf cause a1 b1).slots) (values : ∀ l < 256, a1 l = a0 l ∧ b1 l = b0 l) :
    PairSeeded g h d k a0 b0 sub pc ∧ h.slot k = takenSlot (g.slot k) tf cause := by
  obtain ⟨win0, vst0, slots0⟩ := alike
  have st0 (r : Nat) : g.st r = g1.st r := by rw [Group.st, vst0]; rfl
  have slot0 (j : Nat) : g.slot j = g1.slot j := by rw [Group.slot, slots0]; rfl
  rw [seedPair_eq] at win tags vst slots
  have st (r : Nat) : h.st r = (pended (g1.discard (1024 * d) 2048) d k (takenSlot (g1.slot k) tf cause) g1.win).st r := by
    rw [Group.st, vst]; rfl
  have slot (j : Nat) : h.slot j = (pended (g1.discard (1024 * d) 2048) d k (takenSlot (g1.slot k) tf cause) g1.win).slot j := by
    rw [Group.slot, slots]; rfl
  rw [pended_win] at win
  obtain ⟨low, high⟩ := pended_st (g1.discard (1024 * d) 2048) d k (takenSlot (g1.slot k) tf cause) g1.win
  refine ⟨⟨fun l hl => ?_, (st d).trans low, (st _).trans high, fun x hx => ?_, fun a outside => ?_,
    fun clear => ?_, issued⟩, (slot k).trans ((pended_slot ..).trans (by rw [slot0]))⟩
  · obtain ⟨ea, eb⟩ := values l hl
    rw [← ea, ← eb]
    exact lane_putPairs win hl
  · rw [Group.tagAt, tags]; exact pended_tagAt _ d k _ _ hx
  · rw [win, win0]; exact read_putPairs d _ _ _ (fun l h => List.mem_range.1 h) outside g1.win
  · have clear : g1.anyP (1024 * d) 2048 = false := by
      unfold Group.anyP Group.pairsIn at clear ⊢
      simpa only [st0] using clear
    refine ⟨fun r h1 h2 => ?_, fun j hj => ?_⟩
    · rw [st, pended_st_other _ _ _ _ _ h1 h2, Group.discard_none clear, st0]
    · rw [slot, pended_slot_other _ _ _ _ _ hj, Group.discard_none clear, slot0]

/-- A group with one array operation more. -/
def counted (g : Group) : Group := { g with csr := { g.csr with ar := g.csr.ar + 1 } }

/-! ### A group changed, and nothing else but hold latches and the next number -/

/-- `v` is `s` with its group as `h`, the next number being `n`. -/
structure Regrouped (s v : State) (gid n : Nat) (h : Group) : Prop where
  shape : v = { s with groups := v.groups, cores := v.cores, nextId := n }
  cores : ∀ n, { v.core n with latch := [] } = { s.core n with latch := [] }
  others : OthersKept s v gid
  live : Tbl.look v.groups gid = some h

namespace Regrouped

variable {s v : State} {gid n : Nat} {h : Group}

theorem refl (live : Tbl.look s.groups gid = some h) : Regrouped s s gid s.nextId h where
  shape := rfl
  cores _ := rfl
  others _ _ := rfl
  live := live

theorem unlatch {c : Ctx} (r : Regrouped (holdLatch s c) v gid n h) : Regrouped s v gid n h where
  shape := r.shape
  cores n := (r.cores n).trans (holdLatch_core s c n)
  others := r.others
  live := r.live

theorem group (r : Regrouped s v gid n h) : v.group gid = h := by simp [State.group, Tbl.get, r.live]

theorem setGroup (r : Regrouped s v gid n h) (k : Group) : Regrouped s (v.setGroup gid k) gid n { k with wrote := [] } where
  shape := by rw [State.setGroup_shape, r.shape]
  cores n := (State.setGroup_core ..).trans (r.cores n)
  others j hj := (State.group_setGroup_other _ _ hj).trans (r.others j hj)
  live := by simp

theorem fresh (r : Regrouped s v gid n h) : Regrouped s v.fresh.2 gid (n + 1) h where
  shape := by rw [State.fresh, r.shape]
  cores := r.cores
  others := r.others
  live := r.live

theorem mem (r : Regrouped s v gid n h) : v.mem = s.mem := by rw [r.shape]

theorem arrops (r : Regrouped s v gid n h) : v.arrops = s.arrops := by rw [r.shape]

theorem flag (r : Regrouped s v gid n h) (l k : Nat) : v.flag l k = s.flag l k := by rw [r.shape]; rfl

theorem countAr (r : Regrouped s v gid n h) : Regrouped s (countAr v gid) gid n { counted h with wrote := [] } := by
  have e : Machine.countAr v gid = v.setGroup gid (counted h) := by rw [← r.group]; rfl
  rw [e]
  exact r.setGroup _

theorem numbered (r : Regrouped s v gid n h) : Regrouped s (nextSeq v gid).2.fresh.2 gid (n + 1) { nextSeqOf h with wrote := [] } := by
  have e : (nextSeq v gid).2 = v.setGroup gid (nextSeqOf h) := by rw [← r.group]; rfl
  rw [e]
  exact (r.setGroup _).fresh

end Regrouped

/-! ### The seeding of a layer word -/

theorem topEntry_congr {s v : State} (mem : v.mem = s.mem) (b : BindE) (trans : Bool) (i : Nat) : topEntry v b trans i = topEntry s b trans i := by
  unfold topEntry; rw [mem]

namespace Regrouped

variable {s v : State} {gid n : Nat} {h : Group}

/-- A layer word with a free slot takes the lowest and seeds its pair (R62). -/
theorem seedLayer_slot (r : Regrouped s v gid n h) {c : Ctx} (hc : c.gid = gid) {u : LayerUse} {id k : Nat}
    (free : freeSlot h = some k) :
    Regrouped s (seedLayer c v u id).1 gid n { seedPair h c.f.d.code.toNat k c.f.x62 false
        (fun l => ((((List.range 256).map fun l => topEntry s u.b u.trans (u.start + l)).map (·.1))[l]?).getD 0)
        (fun l => ((((List.range 256).map fun l => topEntry s u.b u.trans (u.start + l)).map (·.2))[l]?).getD 0) with wrote := [] }
    ∧ (seedLayer c v u id).2 = .slot k ((h.slot k).epoch + 1) := by
  have free : freeSlot (c.g v) = some k := by rw [Ctx.g, hc, r.group, free]
  have top : (fun l => topEntry v u.b u.trans (u.start + l)) = fun l => topEntry s u.b u.trans (u.start + l) :=
    funext fun l => topEntry_congr r.mem ..
  unfold seedLayer
  simp only [free, top]
  simp only [Ctx.g, hc, r.group]
  exact ⟨r.setGroup _, trivial⟩

/-- Without one it issues in direct mode (R63). -/
theorem seedLayer_direct (r : Regrouped s v gid n h) {c : Ctx} (hc : c.gid = gid) {u : LayerUse} {id : Nat} (full : freeSlot h = none) :
    let top := (List.range 256).map fun l => topEntry s u.b u.trans (u.start + l)
    let d := c.f.d.code.toNat
    Regrouped s (seedLayer c v u id).1 gid n
      { (h.writeV (d + 1) ((top.map (·.1)).zipIdx.map fun (x, l) => (l, x)) .raw).markE id (1024 * d) 1024 .f32 with wrote := [] }
    ∧ (seedLayer c v u id).2 = .direct d (top.map (·.1)) (top.map (·.2)) := by
  have full : freeSlot (c.g v) = none := by rw [Ctx.g, hc, r.group, full]
  have top : (fun l => topEntry v u.b u.trans (u.start + l)) = fun l => topEntry s u.b u.trans (u.start + l) :=
    funext fun l => topEntry_congr r.mem ..
  unfold seedLayer
  simp only [full, top]
  simp only [Ctx.g, hc, r.group]
  exact ⟨r.setGroup _, trivial⟩

end Regrouped

/-! ### The operation in flight -/

/-- What a layer word names, once its checks have passed. -/
def layerUse (s : State) (g : Group) (f : Fields) (trans : Bool) (t off : Nat) : LayerUse :=
  ⟨bindIndex f, s.bind (bindIndex f), startOf g f, trans, t, off⟩

/-- The words of an input and what the quantiser makes of them; nothing of one that is not finite. -/
def inputWords (u : LayerUse) (s : State) : List Nat := (List.range u.count).map fun i => spNum s u.tid (u.off + 2 * i) 2

def layerCodes (u : LayerUse) (s : State) : Int × List Int := (quantise (inputWords u s)).getD (0, [])

/-- The operation of a layer word outside replay and capture: its sums are known where the input is zero or not finite. -/
def layerOp (c : Ctx) (s : State) (u : LayerUse) (dest : ArrDest) : ArrOp :=
  { u.op c s (c.g s).seq dest (layerCodes u s).1 (layerCodes u s).2 (c.f.x61 || s.flag (c.g s).ident.lid 3) with
    invalid := (quantise (inputWords u s)).isNone
    sums := if (layerCodes u s).2.all (· == 0) then some (List.replicate 256 0) else none }

/-- An operation in flight under the next number. -/
def withOp (s v : State) (o : ArrOp) : State := { v with arrops := Tbl.set s.arrops s.nextId o }

theorem Regrouped.op {s v : State} {n : Nat} {h : Group} {c : Ctx} (r : Regrouped s v c.gid n h) (ident : h.ident = (c.g s).ident) (u : LayerUse)
    (seq : Nat) (dest : ArrDest) (k : Int) (xs : List Int) (shadow : Bool) : u.op c v seq dest k xs shadow = u.op c s seq dest k xs shadow := by
  have hid : (c.g v).ident = (c.g s).ident := by rw [← ident, Ctx.g, r.group]
  have hm : v.m = s.m := by rw [r.shape]
  unfold LayerUse.op LayerUse.exps LayerUse.tiles useExps useTiles mapWord firstDeadline
  simp only [hid, r.mem, hm]

theorem reserveRecord_off {c : Ctx} {s v : State} {n : Nat} {h : Group} (r : Regrouped s v c.gid n h) (mode : h.cap.mode = 0) :
    reserveRecord c v = (v, none) := by
  unfold reserveRecord
  rw [show c.g v = h from r.group]
  exact if_pos (by rw [mode]; rfl)

/-- The operation as the state after the issue gives it is the one the state before gives. -/
theorem layerOp_eq {c : Ctx} {s v : State} {n : Nat} {h : Group} (r : Regrouped s v c.gid n h) (ident : h.ident = (c.g s).ident) (u : LayerUse)
    (dest : ArrDest) :
    let q := quantise (inputWords u s)
    let o := { u.op c v (c.g s).seq dest (q.getD (0, [])).1 (q.getD (0, [])).2 (c.f.x61 || v.flag (c.g s).ident.lid 3) with
      invalid := q.isNone, record := none }
    (if q.isNone || (q.getD (0, [])).2.all (· == 0) then { o with sums := some (List.replicate 256 0) } else o) = layerOp c s u dest := by
  intro q o
  have zero : (q.isNone || (q.getD (0, [])).2.all (· == 0)) = (layerCodes u s).2.all (· == 0) := by
    unfold layerCodes
    show (q.isNone || (q.getD (0, [])).2.all (· == 0)) = (q.getD (0, [])).2.all (· == 0)
    cases q <;> rfl
  rw [zero]
  simp only [o, r.op ident, r.flag]
  unfold layerOp layerCodes
  split <;> rfl

theorem layer_run {c : Ctx} {s : State} {trans : Bool} {t off : Nat}
    (delivered : Delivered (c.g s) [c.f.a, c.f.b]) (refs : RefsOk (c.g s) [] [(c.f.d, 2)]) 
    (guards : ∀ x ∈ layerGuards s (c.g s) c.f, x.1 = true) (checks : ∀ x ∈ inputChecks s (c.g s) c.f trans 2, x.1 = true)
    (found : spad s (c.g s).ident.tid (inputOf (c.g s) c.f)
        (2 * if trans then (s.bind (bindIndex c.f)).dout else (s.bind (bindIndex c.f)).din) = .ok (t, off))
    (free : (c.g s).anyE (1024 * c.f.d.code.toNat) 2048 = false) (room : (c.g s).csr.ar < 255)
    (older : inputPending s c.gid (layerUse s (c.g s) c.f trans t off) (2 * (layerUse s (c.g s) c.f trans t off).count) = false)
    (mode : (c.g s).cap.mode = 0) {h : Group} {dest : ArrDest}
    (seeds : let x := seedLayer c (nextSeq s c.gid).2.fresh.2 (layerUse s (c.g s) c.f trans t off) s.nextId
      Regrouped s x.1 c.gid (s.nextId + 1) h ∧ x.2 = dest) (ident : h.ident = (c.g s).ident) (capped : h.cap = (c.g s).cap) :
    ∃ v, Regrouped s v c.gid (s.nextId + 1) { counted h with wrote := [] }
      ∧ layer c trans s = .ok (withOp s v (layerOp c s (layerUse s (c.g s) c.f trans t off) dest)) := by
  have u : layerChecks c s trans 2 = .ok (layerUse s (c.g s) c.f trans t off) := by
    rw [layerChecks_eq 2 delivered, runChecks_pass checks, found]; rfl
  simp only [layerGuards, List.forall_mem_cons] at guards
  obtain ⟨g1, g2, g3, -⟩ := guards
  have number : (nextSeq s c.gid).2.fresh.1 = s.nextId := by simp [nextSeq, State.fresh]
  obtain ⟨r, rfl⟩ := seeds
  have rc := r.countAr
  refine ⟨_, rc, ?_⟩
  have reserve := reserveRecord_off rc (show h.cap.mode = 0 by rw [capped, mode])
  unfold layer
  simp only [checkRefs_ok refs, except_ok_bind, u, show (s.bind (bindIndex c.f)).published = true from g1, g2, g3, guardN, guardW,
    if_true, free, room, older, mode, Bool.not_false, decide_true, show ¬ (0 = 2) by decide, if_false, number, reserve]
  rw [withOp, ← layerOp_eq rc ident, ← rc.arrops]
  rfl

/-! ### The end of the turn -/

/-- A word that leaves its group as `h` and an operation in flight. -/
theorem arrIssued_of {i : Instr} {f : Fields} {s v : State} {gid sub : Nat} {h : Group} {o : ArrOp} (r : Regrouped s v gid (s.nextId + 1) h)
    (skips : h.wskipNow = (s.group gid).wskipNow) (sleeps : h.sleep = (s.group gid).sleep)
    (run : exec i s = .next (settleGroup (ctx i f s gid sub) false s (.ok (withOp s v o)))) :
    ∃ t, exec i s = .next t ∧ ArrIssued s t gid o ∧ t.group gid = issuedAt h sub (nextPc f s gid sub) := by
  have group : (withOp s v o).group gid = h := r.group
  obtain ⟨t, step, shape, cores, others, turned⟩ := does_of (u := withOp s v o) (LatchesAside.refl _)
    (by rw [show (withOp s v o).groups = v.groups from rfl, r.live]; rfl) (by rw [group, skips]) (by rw [group, sleeps]) run
  refine ⟨t, step, ⟨?_, fun n => (cores n).trans (r.cores n), fun k hk => (others k hk).trans (r.others k hk)⟩, turned.trans (by rw [group])⟩
  rw [shape, withOp, r.shape]

theorem windowIssued_counted {g h : Group} (same : g.Same h) (sub : Nat) (pc : W64) :
    WindowIssued (counted g) (issuedAt { counted h with wrote := [] } sub pc) sub pc := by
  rw [Group.Same] at same
  rw [WindowIssued, same]
  rfl

/-! ### Where the checks pass -/

/-- The checks of the input hold in a range, its words in an allocation. -/
theorem inputChecks_pass {s : State} {g : Group} {f : Fields} {trans : Bool} {size : Nat} {x : Nat × Nat}
    (start : startOf g f % 256 = 0)
    (inside : startOf g f < if trans then (s.bind (bindIndex f)).din else (s.bind (bindIndex f)).dout)
    (narrow : trans = true → (s.bind (bindIndex f)).dout ≤ 32768) (line : inputOf g f % 64 = 0)
    (found : spad s g.ident.tid (inputOf g f) (size * if trans then (s.bind (bindIndex f)).dout else (s.bind (bindIndex f)).din) = .ok x) :
    ∀ c ∈ inputChecks s g f trans size, c.1 = true := by
  simp only [inputChecks, List.forall_mem_cons, found]
  refine ⟨by simp [start], decide_eq_true inside, ?_, by simp [line], rfl, by simp⟩
  cases trans
  · rfl
  · simpa using narrow rfl

theorem inputPending_none {s : State} {gid n : Nat} {u : LayerUse} (none_ : NoOlderStore s gid u.tid u.off n) :
    inputPending s gid u n = false := by
  unfold inputPending
  rw [List.any_eq_false]
  intro c hc
  simp only [Bool.and_eq_true, beq_iff_eq, List.any_eq_true, not_and, not_exists]
  intro mine e he op
  rw [none_ c hc mine.1 mine.2 e he op]
  exact Bool.false_ne_true

theorem freeSlot_some {g : Group} {k : Nat} (lt : k < g.ident.k) (free : (g.slot k).busy = false) (lower : ∀ j < k, (g.slot j).busy = true) :
    freeSlot g = some k := by
  rw [freeSlot, List.find?_range_eq_some]
  exact ⟨by simp [free], List.mem_range.2 lt, fun j hj => by simp [lower j hj]⟩

theorem freeSlot_none {g : Group} (full : ∀ k < g.ident.k, (g.slot k).busy = true) : freeSlot g = none := by
  rw [freeSlot, List.find?_eq_none]
  exact fun k hk => by simp [full k (List.mem_range.1 hk)]

/-! ### One vector register as a destination -/

theorem discardPair_none {g : Group} {r : Nat} (clear : ∀ k, g.st r ≠ .pend k) : g.discardPair r = g := by
  unfold Group.discardPair
  split
  · next k h => exact absurd h (clear k)
  · rfl

theorem discard_vector (g : Group) (n : Nat) : g.discard (1024 * n) 1024 = g.discardPair (Group.even n) := by
  unfold Group.discard Group.pairsIn
  rw [regsOf_vector, List.map_singleton, (List.nodup_singleton _).dedup]
  cases h : g.st (Group.even n) with
  | pend k => rw [List.filter_cons, h]; rfl
  | empty => rw [List.filter_cons, h, discardPair_none (by simp [h])]; rfl
  | full => rw [List.filter_cons, h, discardPair_none (by simp [h])]; rfl

theorem markE_vector (g : Group) (id n : Nat) (t : Tag) : g.markE id (1024 * n) 1024 t =
    { (g.discardPair (Group.even n)).setSt n .empty with
      prods := Tbl.set (g.discardPair (Group.even n)).prods id { start := 1024 * n, len := 1024, tag := t } } := by
  unfold Group.markE
  rw [regsOf_vector, discard_vector]
  rfl

theorem markE_same (g : Group) (id n : Nat) (t : Tag) : g.Same (g.markE id (1024 * n) 1024 t) := by
  rw [markE_vector]
  exact (Group.same_discardPair g (Group.even n)).trans rfl

theorem win_markE (g : Group) (id n : Nat) (t : Tag) : (g.markE id (1024 * n) 1024 t).win = g.win := by
  rw [markE_vector]; exact Group.win_discardPair ..

theorem st_markE (g : Group) (id n : Nat) (t : Tag) : (g.markE id (1024 * n) 1024 t).st n = .empty := by
  rw [markE_vector]; exact Group.st_setSt_same (g.discardPair (Group.even n)) n .empty

theorem look_markE (g : Group) (id n : Nat) (t : Tag) :
    Tbl.look (g.markE id (1024 * n) 1024 t).prods id = some ⟨1024 * n, 1024, t, [], [], none⟩ := by
  rw [markE_vector]; exact Tbl.look_set_same ..

/-! ### Direct mode (R63) -/

/-- The two registers of a direct-mode pair: vd + 1 holds the gains, vd waits for the result. -/
def directPair (g : Group) (id d : Nat) (a0 : List W32) : Group :=
  (g.writeV (d + 1) (a0.zipIdx.map fun (x, l) => (l, x)) .raw).markE id (1024 * d) 1024 .f32

theorem zipIdx_range {α : Type} (n : Nat) (f : Nat → α) :
    ((List.range n).map f).zipIdx.map (fun (x, l) => (l, x)) = (List.range n).map fun l => (l, f l) := by
  apply List.ext_getElem?
  intro i
  simp only [List.getElem?_map, List.getElem?_zipIdx]
  by_cases h : i < n <;> simp [h]

/-- A pair has no pending form left once a write has met it (R54). -/
theorem st_discardPair (g : Group) (d k : Nat) : (g.discardPair d).st d ≠ .pend k := by
  unfold Group.discardPair
  split
  · next j _ =>
    have : ((((g.setSt d .full).setSt (d + 1) .full).setTags (1024 * d) 2048 .raw).dropHolder j).st d = .full := by
      show ((g.setSt d .full).setSt (d + 1) .full).st d = _
      rw [Group.st_setSt_other _ _ (by omega), Group.st_setSt_same]
    rw [this]; nofun
  · next h => exact h k

/-- The pair's other register, once a write has met the pair: F where the pair was pending. -/
theorem st_discardPair_high (g : Group) (d : Nat) (h : g.st (d + 1) = .full ∨ ∃ k, g.st d = .pend k) : (g.discardPair d).st (d + 1) = .full := by
  unfold Group.discardPair
  split
  · next j _ =>
    show ((g.setSt d .full).setSt (d + 1) .full).st (d + 1) = _
    exact Group.st_setSt_same ..
  · next none_ => exact h.resolve_right fun ⟨k, e⟩ => none_ k e

section
variable (g : Group) (id : Nat) {d : Nat} (even : d % 2 = 0) (a0 : List W32)

theorem st_writeV_pair (r : Nat) (vals : List (Nat × W32)) (t : Tag) : (g.writeV r vals t).st = (g.discardPair (Group.even r)).st := by
  rw [← discard_vector]; rfl

include even

/-- After the write of vd + 1 no pending form is left in the pair, and vd alone waits for the result. -/
theorem directPair_eq : directPair g id d a0 =
    let w := g.writeV (d + 1) (a0.zipIdx.map fun (x, l) => (l, x)) .raw
    { w.setSt d .empty with prods := Tbl.set w.prods id { start := 1024 * d, len := 1024, tag := .f32 } } := by
  have high : Group.even (d + 1) = d := by unfold Group.even; omega
  have low : Group.even d = d := by unfold Group.even; omega
  unfold directPair
  rw [markE_vector, low, discardPair_none fun k => by rw [st_writeV_pair, high]; exact st_discardPair g d k]

theorem directPair_st : (directPair g id d a0).st d = .empty
    ∧ ((g.st (d + 1) = .full ∨ ∃ k, g.st d = .pend k) → (directPair g id d a0).st (d + 1) = .full) := by
  have high : Group.even (d + 1) = d := by unfold Group.even; omega
  rw [directPair_eq g id even a0]
  have written := st_writeV_pair g (d + 1) (a0.zipIdx.map fun (x, l) => (l, x)) .raw
  rw [high] at written
  generalize g.writeV _ _ _ = w at written ⊢
  refine ⟨Group.st_setSt_same w d .empty, fun h => (Group.st_setSt_other w .empty (show d + 1 ≠ d by omega)).trans ?_⟩
  rw [written]
  exact st_discardPair_high g d h

theorem directPair_tags {x : Nat} (hx : x ∈ Group.granules (1024 * (d + 1)) 1024) : (directPair g id d a0).tagAt x = .raw := by
  rw [directPair_eq g id even a0]
  have written := Group.tagAt_writeV g (d + 1) (a0.zipIdx.map fun (x, l) => (l, x)) .raw hx
  generalize g.writeV _ _ _ = w at written ⊢
  exact written
end

theorem directPair_same (g : Group) (id d : Nat) (a0 : List W32) : g.Same (directPair g id d a0) :=
  (Group.same_writeV g ..).trans (markE_same ..)

theorem directPair_lane (g : Group) (id d : Nat) (top : Nat → W32) {l : Nat} (hl : l < 256) :
    (directPair g id d ((List.range 256).map top)).lane (d + 1) l = top l := by
  rw [Group.lane, directPair, win_markE, zipIdx_range]
  exact (Group.lane_writeV g (d + 1) (List.range 256) top .raw l).trans (if_pos (List.mem_range.2 hl))

theorem directPair_read (g : Group) (id d : Nat) (top : Nat → W32) {a : Nat} (outside : a < 1024 * (d + 1) ∨ 1024 * (d + 1) + 1024 ≤ a) :
    (directPair g id d ((List.range 256).map top)).win.read a = g.win.read a := by
  rw [directPair, win_markE, zipIdx_range]
  refine Group.read_writeV g (d + 1) (List.range 256) top .raw a fun l hl => ?_
  have := List.mem_range.1 hl
  omega

theorem directPair_look (g : Group) (id d : Nat) (a0 : List W32) :
    Tbl.look (directPair g id d a0).prods id = some ⟨1024 * d, 1024, .f32, [], [], none⟩ := look_markE ..

end Sys2Proof.Proofs
end

section
/-!
PROOF. LAYR, LAYRT, LPRB and LPRBT that pass their checks (O38).
-/

namespace Sys2Proof.Proofs

open Sys2Proof.Machine Sys2Proof.Claim

/-! ### A layer word that passes its checks -/

/-- What R107 asks of the start and the input of a layer word. -/
def InRange (b : BindE) (start va : Nat) (trans : Bool) : Prop :=
  start % 256 = 0 ∧ (start < if trans then b.din else b.dout) ∧ (trans = true → b.dout ≤ 32768) ∧ va % 64 = 0

/-- A layer word whose checks pass and which waits for nothing, its input at `off` of the scratchpad of `t`. -/
structure LayerReady (s : State) (g : Group) (f : Fields) (gid : Nat) (trans : Bool) (t off : Nat) : Prop where
  delivered : Delivered g [f.a, f.b]
  refs : RefsOk g [] [(f.d, 2)]
  published : (s.bind (bindIndex f)).state = 2
  granted : (s.bind (bindIndex f)).grant.getLsbD g.ident.part = true
  dies : ∀ k ∈ diesOf (s.bind (bindIndex f)).dies, k ∈ (s.part g.ident.part).e.dies
  range : InRange (s.bind (bindIndex f)) (startOf g f) (inputOf g f) trans
  found : spad s g.ident.tid (inputOf g f) (2 * if trans then (s.bind (bindIndex f)).dout else (s.bind (bindIndex f)).din) = .ok (t, off)
  free : g.anyE (1024 * f.d.code.toNat) 2048 = false
  room : g.csr.ar < 255
  older : NoOlderStore s gid t off (2 * if trans then (s.bind (bindIndex f)).dout else (s.bind (bindIndex f)).din)
  mode : g.cap.mode = 0

theorem pended_same (g : Group) (d k : Nat) (x : Slot) (m : Mem) : g.Same (pended g d k x m) :=
  ((((Group.same_setSlot g k x).trans (Group.same_noteWrite ..)).trans (Group.same_win _ m)).trans (Group.same_setTags ..)).trans
    ((Group.same_setSt ..).trans (Group.same_setSt ..))

theorem seedPair_same (g : Group) (d k : Nat) (tf cause : Bool) (a0 b0 : Nat → W32) : g.Same (seedPair g d k tf cause a0 b0) := by
  rw [seedPair_eq]
  exact (Group.same_discard g (1024 * d) 2048).trans (pended_same ..)

theorem same_unwrote {g h : Group} (same : g.Same h) : g.Same { h with wrote := [] } := same.trans rfl

/-- A group whose turn ends on a seeded pair, with AR one higher. -/
theorem pairSeeded_counted {g g1 h : Group} {d k sub : Nat} {tf cause : Bool} {a0 b0 a1 b1 : Nat → W32} (pc : W64)
    (same : g.Same h) (alike : SameRegisters g g1) (seeded : h = seedPair g1 d k tf cause a1 b1)
    (values : ∀ l < 256, a1 l = a0 l ∧ b1 l = b0 l) :
    let u := issuedAt { counted { h with wrote := [] } with wrote := [] } sub pc
    PairSeeded (counted g) u d k a0 b0 sub pc ∧ u.slot k = takenSlot (g.slot k) tf cause :=
  have win : h.win = _ := congrArg Group.win seeded
  have tags : h.tags = _ := congrArg Group.tags seeded
  have vst : h.vst = _ := congrArg Group.vst seeded
  have slots : h.slots = _ := congrArg Group.slots seeded
  pairSeeded_of (g := counted g) (windowIssued_counted (same_unwrote same) sub pc) alike win tags vst slots values

/-- The group once an operation has taken its sequence value. -/
def sequenced (g : Group) : Group := { nextSeqOf g with wrote := [] }

theorem sequenced_same (g : Group) : (nextSeqOf g).Same (sequenced g) := rfl

section
variable {s : State} {gid sub : Nat} {f : Fields} {trans : Bool} {t off : Nat}

theorem LayerReady.guards (r : LayerReady s (s.group gid) f gid trans t off) : ∀ x ∈ layerGuards s (s.group gid) f, x.1 = true := by
  simp only [layerGuards, List.forall_mem_cons]
  exact ⟨by simp [r.published], r.granted, List.all_eq_true.2 fun k hk => by simpa using r.dies k hk, by simp⟩

/-- It leaves its group as its seeding does, with AR one higher, and its operation in flight. -/
theorem LayerReady.issued (r : LayerReady s (s.group gid) f gid trans t off) (hI : Issuing s gid sub) {h : Group} {dest : ArrDest}
    (seeds : let c := ctx (layerWord trans f) f s gid sub
      let v := holdLatch s c
      let x := seedLayer c (nextSeq v gid).2.fresh.2 (layerUse s (s.group gid) f trans t off) s.nextId
      Regrouped v x.1 gid (s.nextId + 1) h ∧ x.2 = dest) (same : (nextSeqOf (s.group gid)).Same h) :
    ∃ u, exec (layerWord trans f) s = .next u
      ∧ ArrIssued s u gid (layerOp (ctx (layerWord trans f) f s gid sub) s (layerUse s (s.group gid) f trans t off) dest)
      ∧ u.group gid = issuedAt { counted h with wrote := [] } sub (nextPc f s gid sub) := by
  obtain ⟨start, inside, narrow, line⟩ := r.range
  obtain ⟨v, regrouped, runs⟩ := layer_run (c := ctx (layerWord trans f) f s gid sub) (s := holdLatch s (ctx (layerWord trans f) f s gid sub))
    r.delivered r.refs r.guards (inputChecks_pass start inside narrow line r.found) r.found r.free r.room (inputPending_none r.older) r.mode seeds
    (by rw [same]; rfl) (by rw [same]; rfl)
  refine arrIssued_of regrouped.unlatch (by rw [same]; rfl) (by rw [same]; rfl) ?_
  rw [exec_layerWord trans f hI, runs]
  rfl

theorem numbered_of (hI : Issuing s gid sub) (c : Ctx) :
    Regrouped (holdLatch s c) (nextSeq (holdLatch s c) gid).2.fresh.2 gid (s.nextId + 1) (sequenced (s.group gid)) :=
  (Regrouped.refl (s := holdLatch s c) hI.look).numbered

/-- The lanes of a list made by `List.range`. -/
theorem getD_range {α : Type} (v : Nat → α) (z : α) {l : Nat} (hl : l < 256) : (((List.range 256).map v)[l]?).getD z = v l := by
  simp [hl]

/-- The Topiary gain and offset of a lane. -/
def topOf (s : State) (g : Group) (f : Fields) (trans : Bool) (l : Nat) : W32 × W32 :=
  topEntry s (s.bind (bindIndex f)) trans (startOf g f + l)

theorem topValue (s : State) (g : Group) (f : Fields) (trans : Bool) (part : W32 × W32 → W32) {l : Nat} (hl : l < 256) :
    ((((List.range 256).map (topOf s g f trans)).map part)[l]?).getD 0 = part (topOf s g f trans l) := by
  rw [List.map_map]
  exact getD_range _ 0 hl

/-- A layer word with a free slot seeds its pair on it (R62). -/
theorem seeds_slot (hI : Issuing s gid sub) {c : Ctx} (hc : c.gid = gid) {u : LayerUse}
    (hu : u = layerUse s (s.group gid) c.f trans t off) {k : Nat} (free : freeSlot (s.group gid) = some k) :
    ∃ h, h = seedPair (sequenced (s.group gid)) c.f.d.code.toNat k c.f.x62 false
        (fun l => ((((List.range 256).map (topOf s (s.group gid) c.f trans)).map (·.1))[l]?).getD 0)
        (fun l => ((((List.range 256).map (topOf s (s.group gid) c.f trans)).map (·.2))[l]?).getD 0)
      ∧ let x := seedLayer c (nextSeq (holdLatch s c) gid).2.fresh.2 u s.nextId
        Regrouped (holdLatch s c) x.1 gid (s.nextId + 1) { h with wrote := [] } ∧ x.2 = .slot k (((s.group gid).slot k).epoch + 1) := by
  subst hu
  exact ⟨_, rfl, (numbered_of hI c).seedLayer_slot hc free⟩

/-- Without one it issues in direct mode (R63). -/
theorem seeds_direct (hI : Issuing s gid sub) {c : Ctx} (hc : c.gid = gid) {u : LayerUse}
    (hu : u = layerUse s (s.group gid) c.f trans t off) (full : freeSlot (s.group gid) = none) :
    let top := (List.range 256).map (topOf s (s.group gid) c.f trans)
    ∃ h, h = directPair (sequenced (s.group gid)) s.nextId c.f.d.code.toNat (top.map (·.1))
      ∧ let x := seedLayer c (nextSeq (holdLatch s c) gid).2.fresh.2 u s.nextId
        Regrouped (holdLatch s c) x.1 gid (s.nextId + 1) { h with wrote := [] }
          ∧ x.2 = .direct c.f.d.code.toNat (top.map (·.1)) (top.map (·.2)) := by
  subst hu
  exact ⟨_, rfl, (numbered_of hI c).seedLayer_direct hc full⟩

theorem LayerReady.slot (r : LayerReady s (s.group gid) f gid trans t off) (hI : Issuing s gid sub) {k : Nat}
    (free : freeSlot (s.group gid) = some k) :
    ∃ u, exec (layerWord trans f) s = .next u
      ∧ ArrIssued s u gid (layerOp (ctx (layerWord trans f) f s gid sub) s (layerUse s (s.group gid) f trans t off)
          (.slot k (((s.group gid).slot k).epoch + 1)))
      ∧ PairSeeded (counted (nextSeqOf (s.group gid))) (u.group gid) f.d.code.toNat k (fun l => (topOf s (s.group gid) f trans l).1)
          (fun l => (topOf s (s.group gid) f trans l).2) sub (nextPc f s gid sub)
      ∧ (u.group gid).slot k = takenSlot ((s.group gid).slot k) f.x62 false := by
  obtain ⟨h, seeded, seeds⟩ := seeds_slot (t := t) (off := off) (trans := trans) hI (c := ctx (layerWord trans f) f s gid sub) rfl rfl free
  have same : (nextSeqOf (s.group gid)).Same h := seeded ▸ (sequenced_same _).trans (seedPair_same ..)
  obtain ⟨u, step, issued, group⟩ := r.issued hI seeds (same_unwrote same)
  refine ⟨u, step, issued, ?_⟩
  rw [group]
  exact pairSeeded_counted (g1 := sequenced (s.group gid)) _ same ⟨rfl, rfl, rfl⟩ seeded
    fun l hl => ⟨topValue s (s.group gid) f trans (·.1) hl, topValue s (s.group gid) f trans (·.2) hl⟩

theorem LayerReady.direct (r : LayerReady s (s.group gid) f gid trans t off) (hI : Issuing s gid sub) (even : f.d.code.toNat % 2 = 0)
    (full : freeSlot (s.group gid) = none) :
    let g := s.group gid
    let d := f.d.code.toNat
    let top := topOf s g f trans
    ∃ u, exec (layerWord trans f) s = .next u
      ∧ ArrIssued s u gid (layerOp (ctx (layerWord trans f) f s gid sub) s (layerUse s (s.group gid) f trans t off)
          (.direct d ((List.range 256).map fun l => (top l).1) ((List.range 256).map fun l => (top l).2)))
      ∧ (let h := u.group gid
        (∀ l < 256, h.lane (d + 1) l = (top l).1) ∧ (∀ x ∈ Group.granules (1024 * (d + 1)) 1024, h.tagAt x = .raw)
        ∧ h.st d = .empty ∧ Tbl.look h.prods s.nextId = some ⟨1024 * d, 1024, .f32, [], [], none⟩
        ∧ ((g.st (d + 1) = .full ∨ ∃ k, g.st d = .pend k) → h.st (d + 1) = .full)
        ∧ (∀ a, a < 1024 * (d + 1) ∨ 1024 * (d + 1) + 1024 ≤ a → h.win.read a = g.win.read a)
        ∧ WindowIssued (counted (nextSeqOf g)) h sub (nextPc f s gid sub)) := by
  intro g d top
  obtain ⟨h, direct, seeds⟩ := seeds_direct (t := t) (off := off) (trans := trans) hI (c := ctx (layerWord trans f) f s gid sub) rfl rfl full
  rw [List.map_map] at direct
  have same : (nextSeqOf (s.group gid)).Same h := direct ▸ (sequenced_same _).trans (directPair_same ..)
  obtain ⟨u, step, issued, group⟩ := r.issued hI seeds (same_unwrote same)
  rw [List.map_map, List.map_map] at issued
  refine ⟨u, step, issued, ?_⟩
  rw [group]
  refine ⟨fun l hl => ?_, fun x hx => ?_, ?_, ?_, fun owed => ?_, fun a outside => ?_,
    windowIssued_counted (same_unwrote same) sub _⟩
  · show h.lane (d + 1) l = _
    rw [direct]; exact directPair_lane _ _ d _ hl
  · show h.tagAt x = _
    rw [direct]; exact directPair_tags _ _ even _ hx
  · show h.st d = _
    rw [direct]; exact (directPair_st _ _ even _).1
  · show Tbl.look h.prods s.nextId = _
    rw [direct]; exact directPair_look ..
  · show h.st (d + 1) = _
    rw [direct]; exact (directPair_st _ _ even _).2 owed
  · show h.win.read a = _
    rw [direct]; exact directPair_read _ _ d _ outside

end

/-! ### A probe word that passes its checks -/

/-- LPRB or LPRBT whose checks pass and which waits for nothing, its input at `off` of the scratchpad of `t`. -/
structure ProbeReady (s : State) (g : Group) (f : Fields) (gid : Nat) (trans : Bool) (t off : Nat) : Prop where
  delivered : Delivered g [f.a, f.b]
  refs : RefsOk g [] [(f.d, 1)]
  priv : (s.launch g.ident.lid).priv = true
  state : (s.bind (bindIndex f)).state = 2 ∨ (s.bind (bindIndex f)).state = 1
  dies : ∀ k ∈ diesOf (s.bind (bindIndex f)).dies, s.m.dieok.getLsbD k = true
  range : InRange (s.bind (bindIndex f)) (startOf g f) (inputOf g f) trans
  found : spad s g.ident.tid (inputOf g f) (1 * if trans then (s.bind (bindIndex f)).dout else (s.bind (bindIndex f)).din) = .ok (t, off)
  room : g.csr.ar < 255
  older : NoOlderStore s gid t off (if trans then (s.bind (bindIndex f)).dout else (s.bind (bindIndex f)).din)

/-- The operation of a probe word: its bytes as codes, −128 as −127. -/
def probeOp (c : Ctx) (s : State) (u : LayerUse) (d : Nat) : ArrOp :=
  u.op c s 0 (.probe d) 0 ((spBytes s u.tid u.off u.count).map fun x => max (-127) (toSigned 8 x.toNat))
    (c.f.x61 || s.flag (c.g s).ident.lid 3)

/-- The group of a probe word: its register waits for the sums. -/
def probed (g : Group) (id d : Nat) : Group := { g.markE id (1024 * d) 1024 .i32 with wrote := [] }

section
variable {s : State} {gid sub : Nat} {f : Fields} {trans : Bool} {t off : Nat}

theorem ProbeReady.guards (r : ProbeReady s (s.group gid) f gid trans t off) : ∀ x ∈ probeGuards s f, x.1 = true := by
  simp only [probeGuards, List.forall_mem_cons]
  exact ⟨by simpa using r.state, List.all_eq_true.2 r.dies, by simp⟩

theorem probe_run {c : Ctx} (r : ProbeReady s (c.g s) c.f c.gid trans t off) (guards : ∀ x ∈ probeGuards s c.f, x.1 = true)
    (live : Tbl.look s.groups c.gid = some (c.g s)) :
    ∃ v h, h = probed (c.g s) s.nextId c.f.d.code.toNat ∧ Regrouped s v c.gid (s.nextId + 1) { counted h with wrote := [] }
      ∧ probe c trans s = .ok (withOp s v (probeOp c s (layerUse s (c.g s) c.f trans t off) c.f.d.code.toNat)) := by
  obtain ⟨start, inside, narrow, line⟩ := r.range
  have u : layerChecks c s trans 1 = .ok (layerUse s (c.g s) c.f trans t off) := by
    rw [layerChecks_eq 1 r.delivered, runChecks_pass (inputChecks_pass start inside narrow line r.found), r.found]; rfl
  have priv : guardPriv c s = .ok () := by unfold guardPriv; rw [r.priv]; rfl
  have older : inputPending s c.gid (layerUse s (c.g s) c.f trans t off) (layerUse s (c.g s) c.f trans t off).count = false :=
    inputPending_none r.older
  simp only [probeGuards, List.forall_mem_cons] at guards
  obtain ⟨g1, g2, -⟩ := guards
  have marked := (Regrouped.refl live).fresh.setGroup ((c.g s).markE s.nextId (1024 * c.f.d.code.toNat) 1024 .i32)
  have ident : (probed (c.g s) s.nextId c.f.d.code.toNat).ident = (c.g s).ident := (same_unwrote (markE_same ..)).fields.1
  refine ⟨_, _, rfl, marked.countAr, ?_⟩
  unfold probe
  simp only [checkRefs_ok r.refs, except_ok_bind, priv, u, guardN, guardW, if_true, r.room, older, Bool.not_false, decide_true,
    show ((s.bind (bindIndex c.f)).published || (s.bind (bindIndex c.f)).loading) = true from g1,
    show (diesOf (s.bind (bindIndex c.f)).dies).all (dieReady s) = true from g2]
  rw [withOp, probeOp, ← marked.op (c := c) ident, ← marked.flag, ← marked.arrops]
  rfl

/-- It leaves its register E with its operation in flight and AR one higher. -/
theorem ProbeReady.issued (r : ProbeReady s (s.group gid) f gid trans t off) (hI : Issuing s gid sub) :
    ∃ u, exec (probeWord trans f) s = .next u
      ∧ ArrIssued s u gid (probeOp (ctx (probeWord trans f) f s gid sub) s (layerUse s (s.group gid) f trans t off) f.d.code.toNat)
      ∧ (u.group gid).st f.d.code.toNat = .empty ∧ (u.group gid).win = (s.group gid).win
      ∧ Tbl.look (u.group gid).prods s.nextId = some ⟨1024 * f.d.code.toNat, 1024, .i32, [], [], none⟩
      ∧ WindowIssued (counted (s.group gid)) (u.group gid) sub (nextPc f s gid sub) := by
  obtain ⟨v, h, marks, regrouped, runs⟩ := probe_run (c := ctx (probeWord trans f) f s gid sub)
    (s := holdLatch s (ctx (probeWord trans f) f s gid sub))
    ⟨r.delivered, r.refs, r.priv, r.state, r.dies, r.range, r.found, r.room, r.older⟩ r.guards hI.look
  change h = probed (s.group gid) s.nextId f.d.code.toNat at marks
  have same : (s.group gid).Same h := marks ▸ same_unwrote (markE_same ..)
  obtain ⟨u, step, issued, group⟩ := arrIssued_of (i := probeWord trans f) (f := f) (sub := sub) regrouped.unlatch
    (by rw [same]; rfl) (by rw [same]; rfl) (by rw [exec_probeWord trans f hI, runs]; rfl)
  refine ⟨u, step, issued, ?_⟩
  rw [group]
  refine ⟨?_, ?_, ?_, windowIssued_counted same sub _⟩
  · show h.st f.d.code.toNat = _
    rw [marks]; exact st_markE _ s.nextId _ .i32
  · show h.win = _
    rw [marks]; exact win_markE _ s.nextId _ .i32
  · show Tbl.look h.prods s.nextId = _
    rw [marks]; exact look_markE _ s.nextId _ .i32

end

theorem layerWords_issued : Claim.LayerIssue := by
  intro f s gid sub trans d hI hd delivered room g part n b start va count shadow exps tiles top op inRange counted next
  have code : f.d.code.toNat = d.val := by rw [hd, code_v]
  constructor
  · intro t off refs even free mode published granted dies range found older words q o i
    have ready : LayerReady s (s.group gid) f gid trans t off :=
      ⟨delivered, refs, published, granted, dies, range, found, by rw [code]; exact free, room, older, mode⟩
    constructor
    · intro k lt open_ lower
      have slot := ready.slot hI (freeSlot_some lt open_ lower)
      rw [code] at slot
      cases trans <;> exact slot
    · intro full
      have direct := ready.direct hI (by rw [code]; exact even) (freeSlot_none full)
      rw [code] at direct
      cases trans <;> exact direct
  · intro t off refs priv state dies range found older
    have ready : ProbeReady s (s.group gid) f gid trans t off :=
      ⟨delivered, refs, priv, state, dies, range, by rw [Nat.one_mul]; exact found, room, older⟩
    have issued := ready.issued hI
    rw [code] at issued
    cases trans <;> exact issued

/-- Settles O38: the checks of the layer words one after another, then the words that pass them all. -/
theorem layerWords : Obligations.LayerWords := ⟨layerWords_checked, layerWords_issued⟩

end Sys2Proof.Proofs
end

section
/-!
PROOF. The landing of an array operation (R104, R114, R216): what its retirement leaves.
-/

namespace Sys2Proof.Proofs

open Sys2Proof.Machine Sys2Proof.Claim

/-! ### Retirement of the one operation of an owner (R216) -/

theorem retireTbl_none {α : Type} {mine done : α → Bool} {t : Tbl α} (other : ∀ c ∈ t, mine c.2 = false) (b : Bool) :
    retireTbl mine done t b = (t, 0) := by
  induction t with
  | nil => rfl
  | cons c t ih =>
    obtain ⟨k, y⟩ := c
    have hy : mine y = false := other (k, y) (List.mem_cons_self ..)
    rw [retireTbl, hy, ih fun c hc => other c (List.mem_cons_of_mem _ hc)]
    rfl

/-- Where one operation of the owner is listed and it is done, it leaves the table. -/
theorem retireTbl_one {α : Type} {mine done : α → Bool} {id : Nat} {x : α} {t : Tbl α} (sorted : Tbl.sorted t = true)
    (only : ∀ c ∈ t, mine c.2 = true → c.1 = id) (look : Tbl.look t id = some x) (own : mine x = true) (ended : done x = true) :
    retireTbl mine done t true = (Tbl.del t id, 1) := by
  induction t with
  | nil => cases look
  | cons c t ih =>
    obtain ⟨k, y⟩ := c
    have later : ∀ c ∈ t, k < c.1 := fun c hc => by
      have := (Tbl.sorted_iff _).1 sorted
      rw [List.map_cons, List.pairwise_cons] at this
      exact this.1 _ (List.mem_map_of_mem hc)
    have rest : Tbl.sorted t = true := Tbl.sorted_of_sublist (List.sublist_cons_self ..) sorted
    by_cases hk : k = id
    · subst hk
      obtain rfl : y = x := by simpa [Tbl.look] using look
      have absent : Tbl.look t k = none := by
        cases found : Tbl.look t k with
        | none => rfl
        | some z => exact absurd (later _ (mem_of_look found)) (lt_irrefl k)
      rw [retireTbl, own, ended, retireTbl_none fun c hc => by
        by_contra h
        exact absurd (only c (List.mem_cons_of_mem _ hc) (by simpa using h)) (Nat.ne_of_gt (later c hc))]
      simp only [Tbl.del, if_true, Tbl.del_absent absent, Bool.and_self]
    · have hy : mine y = false := by
        by_contra h
        exact hk (only (k, y) (List.mem_cons_self ..) (by simpa using h))
      have look : Tbl.look t id = some x := by simpa [Tbl.look, hk] using look
      rw [retireTbl, hy, ih rest (fun c hc => only c (List.mem_cons_of_mem _ hc)) look]
      simp only [Tbl.del, if_neg hk, Bool.false_eq_true, if_false]

/-! ### The end of an array operation -/

theorem freeBinding_shape (s : State) (n : Nat) :
    freeBinding s n = { s with binds := (freeBinding s n).binds, oldTiles := (freeBinding s n).oldTiles } := by
  unfold freeBinding
  dsimp only
  split <;> rfl

/-- A retiring binding that no operation uses becomes FREE (R104). -/
theorem bind_freeBinding {s : State} {n : Nat} (retiring : (s.bind n).state = 3) (unused : ∀ c ∈ s.arrops, c.2.bind ≠ n) :
    (freeBinding s n).bind n = {} := by
  have quiet : inFlight { s with oldTiles := s.oldTiles.filter fun (k, g, _) => k != n || inFlight s n (some g) } n none = false :=
    List.any_eq_false.2 fun c hc => by simp [unused c hc]
  unfold freeBinding
  dsimp only
  rw [quiet, if_pos (by rw [Bool.not_false, Bool.and_true]; exact beq_iff_eq.2 retiring)]
  exact Tbl.get_put_same (α := BindE) {} s.binds n {}

/-- A group whose last landing has been counted. -/
def retiredOne (h : Group) : Group := { h with wrote := [], csr := { h.csr with ar := h.csr.ar - 1 } }

/-- An operation marked as landed, its group being `h`, its flags `fl` raised. -/
def markedLanded (s : State) (id : Nat) (o : ArrOp) (h : Group) (fl : BitVec 5) : State :=
  ((s.setGroup o.gid h).orTsf o.tid fl).setArr id { o with landed := true }

/-- An operation that has landed and retired (R216). -/
def retiredLanded (s : State) (id : Nat) (o : ArrOp) (h : Group) (fl : BitVec 5) : State :=
  { markedLanded s id o h fl with arrops := Tbl.del (markedLanded s id o h fl).arrops id }.setGroup o.gid (retiredOne h)

theorem arrops_markedLanded (s : State) (id : Nat) (o : ArrOp) (h : Group) (fl : BitVec 5) :
    (markedLanded s id o h fl).arrops = Tbl.set s.arrops id { o with landed := true } := by
  show Tbl.set ((s.setGroup o.gid h).orTsf o.tid fl).arrops id _ = _
  rw [State.orTsf_arrops, State.setGroup_arrops]

theorem look_markedLanded (s : State) (id : Nat) (o : ArrOp) (h : Group) (fl : BitVec 5) (k : Nat) :
    Tbl.look (markedLanded s id o h fl).groups k = Tbl.look (s.setGroup o.gid h).groups k := by
  show Tbl.look ((s.setGroup o.gid h).orTsf o.tid fl).groups k = _
  rw [State.orTsf_groups]

/-- What the landing of an operation leaves: its group as `h` with AR one lower, its flags raised, its binding free if it was
the last to use it. -/
structure Landed (s : State) (id : Nat) (o : ArrOp) (h : Group) (fl : BitVec 5) (t : State) : Prop where
  memories : MemoriesSame s t
  gone : Tbl.look t.arrops id = none
  raised : Raised s t o.tid fl
  others : OthersKept s t o.gid
  group : t.group o.gid = retiredOne h
  freed : (s.bind o.bind).state = 3 → (∀ c ∈ s.arrops, c.1 ≠ id → c.2.bind ≠ o.bind) → t.bind o.bind = {}

section
variable {s : State} {id : Nat} {o : ArrOp} (sorted : Tbl.sorted s.arrops = true) (only : ∀ c ∈ s.arrops, c.2.gid = o.gid → c.1 = id)
include sorted only

/-- The one operation of its group in flight retires with its landing. -/
theorem retireArrops_landed (h : Group) (fl : BitVec 5) : retireArrops (markedLanded s id o h fl) o.gid = retiredLanded s id o h fl := by
  have arrops := arrops_markedLanded s id o h fl
  have live := look_markedLanded s id o h fl o.gid
  have retired := retireTbl_one (mine := fun y : ArrOp => y.gid == o.gid) (done := fun y => y.landed) (id := id)
    (t := (markedLanded s id o h fl).arrops) (x := { o with landed := true }) (by rw [arrops]; exact Tbl.sorted_set _ _ sorted)
    (fun c hc mine => by
      rw [arrops] at hc
      rcases (Tbl.mem_ins ..).1 hc with rfl | hc
      · rfl
      · exact only c (Tbl.mem_del hc).1 (by simpa using mine)) (by rw [arrops]; exact Tbl.look_set_same ..) (by simp) rfl
  unfold retireArrops
  rw [retired, retiredLanded]
  generalize markedLanded s id o h fl = u at live ⊢
  rw [State.setGroup_groups, Tbl.look_set_same] at live
  unfold countDown
  dsimp only
  rw [live]
  rfl
omit sorted only

theorem memoriesSame_retiredLanded (s : State) (id : Nat) (o : ArrOp) (h : Group) (fl : BitVec 5) :
    MemoriesSame s (retiredLanded s id o h fl) := by
  have marked : MemoriesSame s { markedLanded s id o h fl with arrops := Tbl.del (markedLanded s id o h fl).arrops id } :=
    MemoriesSame.trans (memoriesSame_setGroup s o.gid h) (memoriesSame_orTsf (s.setGroup o.gid h) o.tid fl)
  exact MemoriesSame.trans marked (memoriesSame_setGroup ..)

theorem arrops_retiredLanded (s : State) (id : Nat) (o : ArrOp) (h : Group) (fl : BitVec 5) :
    (retiredLanded s id o h fl).arrops = Tbl.del (Tbl.set s.arrops id { o with landed := true }) id := by
  rw [retiredLanded, State.setGroup_arrops]
  show Tbl.del (markedLanded s id o h fl).arrops id = _
  rw [arrops_markedLanded]

theorem raised_retiredLanded (s : State) (id : Nat) (o : ArrOp) (h : Group) (fl : BitVec 5) : Raised s (retiredLanded s id o h fl) o.tid fl := by
  intro k
  rw [retiredLanded, State.setGroup_teams]
  show Tbl.look ((s.setGroup o.gid h).orTsf o.tid fl).teams k = _
  rw [State.look_orTsf, State.setGroup_teams]

theorem othersKept_retiredLanded (s : State) (id : Nat) (o : ArrOp) (h : Group) (fl : BitVec 5) :
    OthersKept s (retiredLanded s id o h fl) o.gid := by
  intro k hk
  refine (State.group_setGroup_other _ _ hk).trans ?_
  show (Tbl.look (markedLanded s id o h fl).groups k).getD {} = _
  rw [look_markedLanded]
  exact State.group_setGroup_other s h hk

theorem binds_retiredLanded (s : State) (id : Nat) (o : ArrOp) (h : Group) (fl : BitVec 5) : (retiredLanded s id o h fl).binds = s.binds := by
  rw [retiredLanded, State.setGroup_binds]
  show ((s.setGroup o.gid h).orTsf o.tid fl).binds = _
  rw [State.orTsf_binds, State.setGroup_binds]

include sorted only

/-- With its record written and its stores complete, an operation lands. -/
theorem landArr_landed {g : Group} {land : Group → Group × BitVec 5} (unrecorded : o.record = none) (complete : o.tw ≤ s.m.ftime)
    (wanted : o.cancelled = false) (live : Tbl.look s.groups o.gid = some g) : Landed s id o (land g).1 (land g).2 (landArr id o land s) := by
  have lands : landArr id o land s = freeBinding (retiredLanded s id o (land g).1 (land g).2) o.bind := by
    rw [← retireArrops_landed sorted only]
    unfold landArr putRecord
    rw [unrecorded]
    dsimp only
    rw [if_neg (Nat.not_lt.2 complete), live]
    dsimp only
    rw [if_neg (by rw [wanted]; exact Bool.false_ne_true)]
    rfl
  have arrops := arrops_retiredLanded s id o (land g).1 (land g).2
  have binds := binds_retiredLanded s id o (land g).1 (land g).2
  have shape := freeBinding_shape (retiredLanded s id o (land g).1 (land g).2) o.bind
  rw [lands]
  refine ⟨?_, ?_, ?_, ?_, ?_, fun retiring unused => bind_freeBinding ?_ fun c hc => ?_⟩
  · rw [shape]; exact memoriesSame_retiredLanded s id o (land g).1 (land g).2
  · rw [shape]
    show Tbl.look (retiredLanded s id o (land g).1 (land g).2).arrops id = _
    rw [arrops, Tbl.look_del_same]
  · rw [shape]; exact raised_retiredLanded s id o (land g).1 (land g).2
  · rw [shape]; exact othersKept_retiredLanded s id o (land g).1 (land g).2
  · rw [shape]; exact State.group_setGroup_same ..
  · rw [State.bind, binds]; exact retiring
  · rw [arrops] at hc
    obtain ⟨hc, ne⟩ := Tbl.mem_del hc
    exact unused c (((Tbl.mem_ins ..).1 hc).elim (fun e => absurd (congrArg Prod.fst e) ne) fun hc => (Tbl.mem_del hc).1) ne
end

end Sys2Proof.Proofs
end

section
/-!
PROOF. Layer results that land (R63, R64, R75, R104, R110, R112, R114, R406).
-/

namespace Sys2Proof.Proofs

open Sys2Proof.Machine Sys2Proof.Claim

/-! ### A register's 256 words -/

/-- The words of 256 lanes, from a base. -/
def put256 (m : Mem) (base : Nat) (v : Nat → Nat) : Mem := m.putLanes base (List.range 256) v

theorem num_put256 (m : Mem) (base : Nat) (v : Nat → Nat) {l : Nat} (hl : l < 256) : (put256 m base v).num (base + 4 * l) 4 = v l % 2 ^ 32 := by
  rw [put256, Mem.num_putLanes, if_pos (List.mem_range.2 hl), show 256 ^ 4 = 2 ^ 32 from rfl]

theorem read_put256 (m : Mem) (base : Nat) (v : Nat → Nat) {a : Nat} (outside : a < base ∨ base + 1024 ≤ a) :
    (put256 m base v).read a = m.read a := by
  refine Mem.read_putLanes base v (List.range 256) m a fun l hl => ?_
  have := List.mem_range.1 hl
  omega

/-! ### A slot's arrival (R64, R75) -/

theorem landSlot_stale {g : Group} {k : Nat} {epoch : BitVec 32} (stale : ¬ ((g.slot k).busy = true ∧ (g.slot k).epoch = epoch)) (fail inv : Bool)
    (sig : Nat → Nat) : landSlot k epoch fail inv sig g = g := by
  unfold landSlot
  refine if_pos ?_
  cases busy : (g.slot k).busy with
  | false => rfl
  | true => simpa using fun e => stale ⟨busy, e⟩

/-- A group whose window is `m` and whose slot `k` is `x`. -/
def arrivedAt (g : Group) (m : Mem) (k : Nat) (x : Slot) : Group := { g with win := m }.setSlot k x

theorem arrivedAt_win (g : Group) (m : Mem) (k : Nat) (x : Slot) : (arrivedAt g m k x).win = m := rfl

theorem landSlot_fresh {g : Group} {k : Nat} {epoch : BitVec 32} (busy : (g.slot k).busy = true) (same : (g.slot k).epoch = epoch)
    (fail inv : Bool) (sig : Nat → Nat) : landSlot k epoch fail inv sig g =
      arrivedAt g (put256 g.win (g.u + 1024 * k) sig) k
        { g.slot k with arr := true, fail := (g.slot k).fail || fail, anv := (g.slot k).anv || inv } := by
  unfold landSlot
  refine (if_neg (by simp [busy, same])).trans ?_
  rfl

theorem landSlot_csr (g : Group) (k : Nat) (epoch : BitVec 32) (fail inv : Bool) (sig : Nat → Nat) :
    (landSlot k epoch fail inv sig g).csr = g.csr := by
  unfold landSlot
  dsimp only
  split <;> rfl

/-- What an arrival that is not stale leaves: its buffer's words and its slot, nothing else of the window's state. -/
structure SlotArrived (g h : Group) (k : Nat) (fail inv : Bool) (sig : Nat → Nat) : Prop where
  words : ∀ l < 256, h.win.num (g.u + 1024 * k + 4 * l) 4 = sig l % 2 ^ 32
  outside : ∀ a, a < g.u + 1024 * k ∨ g.u + 1024 * k + 1024 ≤ a → h.win.read a = g.win.read a
  slot : h.slot k = { g.slot k with arr := true, fail := (g.slot k).fail || fail, anv := (g.slot k).anv || inv }
  others : ∀ j, j ≠ k → h.slot j = g.slot j
  vst : h.vst = g.vst
  tags : h.tags = g.tags

theorem slotArrived {g : Group} {k : Nat} {epoch : BitVec 32} (busy : (g.slot k).busy = true) (same : (g.slot k).epoch = epoch)
    (fail inv : Bool) (sig : Nat → Nat) : SlotArrived g (landSlot k epoch fail inv sig g) k fail inv sig := by
  rw [landSlot_fresh busy same]
  refine ⟨fun l hl => ?_, fun a outside => ?_, Tbl.get_put_same (α := Slot) .., fun j hj => Tbl.get_put_other (α := Slot) _ _ _ hj, rfl, rfl⟩
  · rw [arrivedAt_win, num_put256 _ _ _ hl]
  · rw [arrivedAt_win, read_put256 _ _ _ outside]

/-! ### A result that lands in a vector register (R63, R406) -/

/-- The deliveries of a register's words. -/
def deliverWords (g : Group) (id d : Nat) (v : Nat → Nat) (ls : List Nat) : Group :=
  ls.foldl (fun g l => g.deliver id (1024 * d + 4 * l) (bytesOfNat 4 (v l))) g

theorem csr_deliver (g : Group) (id a : Nat) (bs : List Byte) : (g.deliver id a bs).csr = g.csr := by
  unfold Group.deliver
  split <;> rfl

theorem deliverWords_rest (id d : Nat) (v : Nat → Nat) (ls : List Nat) : ∀ g : Group,
    (deliverWords g id d v ls).csr = g.csr ∧ (deliverWords g id d v ls).vst = g.vst := by
  induction ls with
  | nil => exact fun _ => ⟨rfl, rfl⟩
  | cons l ls ih =>
    intro g
    obtain ⟨csr, vst⟩ := ih (g.deliver id (1024 * d + 4 * l) (bytesOfNat 4 (v l)))
    exact ⟨csr.trans (csr_deliver ..), vst.trans (marks_deliver ..).2⟩

theorem deliverWords_win {id : Nat} {p : Prod} (clean : p.skip = []) (d : Nat) (v : Nat → Nat) (ls : List Nat) : ∀ {g : Group},
    g.prods = [(id, p)] → (deliverWords g id d v ls).prods = [(id, p)] ∧ (deliverWords g id d v ls).win = g.win.putLanes (1024 * d) ls v := by
  induction ls with
  | nil => exact fun alone => ⟨alone, rfl⟩
  | cons l ls ih =>
    intro g alone
    have look : Tbl.look g.prods id = some p := by rw [alone]; exact if_pos rfl
    obtain ⟨prods, win⟩ := ih (prods_deliver alone (1024 * d + 4 * l) (bytesOfNat 4 (v l)))
    exact ⟨prods, win.trans (by rw [win_deliver look clean]; rfl)⟩

/-- The landing of a register's words, each delivered whole. -/
def landWords (g : Group) (id d : Nat) (v : Nat → Nat) : Group := (deliverWords g id d v (List.range 256)).land id

/-- What the landing of a register's words leaves. -/
structure WordsLanded (g h : Group) (d : Nat) (t : Tag) (v : Nat → Nat) : Prop where
  lanes : ∀ l < 256, h.lane d l = BitVec.ofNat 32 (v l)
  st : h.st d = .full
  tags : ∀ x ∈ Group.granules (1024 * d) 1024, h.tagAt x = t
  outside : ∀ a, a < 1024 * d ∨ 1024 * d + 1024 ≤ a → h.win.read a = g.win.read a
  csr : h.csr = g.csr

theorem wordsLanded {g : Group} {id d : Nat} {t : Tag} (alone : g.prods = [(id, ⟨1024 * d, 1024, t, [], [], none⟩)]) (owed : g.st d = .empty)
    (v : Nat → Nat) : WordsLanded g (landWords g id d v) d t v := by
  obtain ⟨prods, win⟩ := deliverWords_win rfl d v (List.range 256) alone
  obtain ⟨csr, vst⟩ := deliverWords_rest id d v (List.range 256) g
  rw [← put256] at win
  unfold landWords
  generalize deliverWords g id d v (List.range 256) = u at prods win csr vst
  obtain ⟨-, tags, filled⟩ := land_alone prods rfl
  have rest := land_rest u id
  have landed : (u.land id).win = put256 g.win (1024 * d) v := by rw [rest]; exact win
  refine ⟨fun l hl => ?_, filled d (by rw [regsOf_vector]; exact List.mem_singleton_self d) (by rw [Group.st, vst]; exact owed), tags,
    fun a outside => ?_, by rw [rest]; exact csr⟩
  · rw [Group.lane, landed, num_put256 _ _ _ hl]
    exact BitVec.eq_of_toNat_eq (by simp)
  · rw [landed, read_put256 _ _ _ outside]

theorem WordsLanded.retired {g h : Group} {d : Nat} {t : Tag} {v : Nat → Nat} (r : WordsLanded g h d t v) :
    (∀ l < 256, (retiredOne h).lane d l = BitVec.ofNat 32 (v l)) ∧ (retiredOne h).st d = .full
      ∧ (∀ x ∈ Group.granules (1024 * d) 1024, (retiredOne h).tagAt x = t)
      ∧ ∀ a, a < 1024 * d ∨ 1024 * d + 1024 ≤ a → (retiredOne h).win.read a = g.win.read a := ⟨r.lanes, r.st, r.tags, r.outside⟩

/-! ### The three landings -/

theorem layerResults_land : Claim.LayerLanding := by
  intro s id o fresh listed known unrecorded complete wanted live sorted only g sum sig lands
  have landed := fun land => landArr_landed (id := id) (land := land) sorted only unrecorded complete wanted (look_group live)
  have lands_of : ∀ {i : Instr} {fl : BitVec 5} {ok : Group → Prop} (land : Group → Group × BitVec 5),
      exec i s = .next (landArr id o land s) → (land g).1.csr = g.csr → (land g).2 = fl → ok (retiredOne (land g).1) → lands i fl ok := by
    rintro i _ ok land step csr rfl holds
    obtain ⟨memories, gone, raised, others, group, freed⟩ := landed land
    exact ⟨_, step, memories, gone, raised, others, by rw [group, retiredOne, csr], by rw [group]; exact holds, freed⟩
  clear_value lands
  refine ⟨fun k ep dest => ?_, fun d a0 b0 dest alone owed => ?_, fun d dest alone owed => ?_⟩
  · have step : exec (.arrival id) s = .next (landArr id o (fun g => (landSlot k ep o.failed o.invalid o.sigma g, 0)) s) := by
      show execArrival id s = _
      unfold execArrival
      simp only [fresh, listed, dest, known, if_true]
    constructor
    · rintro ⟨busy, same⟩
      obtain ⟨words, outside, slot, others, vst, tags⟩ := slotArrived busy same o.failed o.invalid o.sigma
      exact lands_of _ step (landSlot_csr g ..) rfl ⟨words, outside, slot, others, vst, tags⟩
    · intro stale
      refine lands_of _ step (landSlot_csr g ..) rfl ?_
      rw [landSlot_stale stale]
      exact ⟨rfl, rfl, rfl, rfl⟩
  · intro v
    have step : exec (.directModeDelivery id) s = .next (landArr id o (fun g =>
        (landWords g id d fun l => (v l).1,
          orFlags ((List.range 256).map fun l => (v l).2) ||| if o.failed || o.invalid then Flag.nv else 0)) s) := by
      show execDirectModeDelivery id s = _
      unfold execDirectModeDelivery
      simp only [listed, dest, known, if_true, List.foldl_map, List.map_map]
      rfl
    have words := wordsLanded alone owed fun l => (v l).1
    refine lands_of _ step words.csr rfl ?_
    dsimp only
    exact words.retired
  · have step : exec (.lprbResultLanding id) s = .next (landArr id o (fun g =>
        (landWords g id d fun l => if o.failed then 0x80000000 else (BitVec.ofInt 32 (sum l)).toNat, 0)) s) := by
      show execLprbResultLanding id s = _
      unfold execLprbResultLanding
      simp only [listed, dest, known, if_true]
      rfl
    have words := wordsLanded alone owed fun l => if o.failed then 0x80000000 else (BitVec.ofInt 32 (sum l)).toNat
    obtain ⟨lanes, rest⟩ := words.retired
    refine lands_of _ step words.csr rfl ?_
    dsimp only
    refine ⟨fun l hl => (lanes l hl).trans ?_, rest⟩
    split
    · rfl
    · rw [BitVec.ofNat_toNat, BitVec.setWidth_eq]

end Sys2Proof.Proofs
end

section
/-!
PROOF. The arrival of a late load (R64, R75, R76, R171, R220, R302, R401; O40).
-/

namespace Sys2Proof.Proofs

open Sys2Proof.Machine Sys2Proof.Claim

/-! ### The words of a late load -/

/-- A load by a core changes nothing but copies and leases (R171). -/
theorem loadAt_shape (s : State) (part lid core : Nat) (pol : W32) (p : Place) (n : Nat) (evicted : Bool) :
    ∃ cs ls, (loadAt s part lid core pol p n evicted).1 = { s with copies1 := cs, leases := ls } := by
  unfold loadAt
  split
  · next x root readOnly =>
    dsimp only
    generalize (if root = true then 0 else polLease pol) = cls
    by_cases free : cls = 0
    · simp only [free, if_true]
      exact ⟨_, s.leases, rfl⟩
    · simp only [free, if_false]
      split
      · exact ⟨_, s.leases, rfl⟩
      · exact ⟨_, _, rfl⟩
  · exact ⟨s.copies1, s.leases, rfl⟩

theorem lateWords_shape (a : Access) (es : List Elem) : ∀ s : State, ∃ cs ls, (lateWords a es s).1 = { s with copies1 := cs, leases := ls } := by
  induction es with
  | nil => exact fun s => ⟨s.copies1, s.leases, rfl⟩
  | cons e es ih =>
    intro s
    obtain ⟨cs, ls, first⟩ := loadAt_shape s (s.team a.tid).part (s.team a.tid).lid a.core a.pol e.place e.size false
    obtain ⟨cs', ls', rest⟩ := ih (loadAt s (s.team a.tid).part (s.team a.tid).lid a.core a.pol e.place e.size false).1
    exact ⟨cs', ls', rest.trans (by rw [first])⟩

/-- Without a lease each word is the one at its place. -/
theorem lateWords_unleased {a : Access} (free : polLease a.pol = 0) (es : List Elem) : ∀ s : State,
    (lateWords a es s).2 = es.map fun e => (e.lane, natOfBytes (peek s e.place e.size)) := by
  induction es with
  | nil => exact fun _ => rfl
  | cons e es ih =>
    intro s
    obtain ⟨cs, read⟩ := loadAt_unleased (a := a) (p := e.place) (fun _ _ _ _ => .inr free) s (s.team a.tid).part (s.team a.tid).lid a.core
      e.size false
    have rest := ih { s with copies1 := cs }
    rw [lateWords, read]
    exact congrArg _ rest

/-- The word that a late load reads at an element's place. -/
def lateWord (s : State) (a : Access) (e : Elem) : Nat :=
  natOfBytes (if polLease a.pol = 0 then peek s e.place e.size
    else (loadAt s (s.team a.tid).part (s.team a.tid).lid a.core a.pol e.place e.size false).2)

theorem lateWords_eq {s : State} {a : Access} (plain : polLease a.pol = 0 ∨ a.elems.length = 1) :
    (lateWords a a.elems s).2 = a.elems.map fun e => (e.lane, lateWord s a e) := by
  by_cases free : polLease a.pol = 0
  · rw [lateWords_unleased free]
    exact List.map_congr_left fun e _ => by rw [lateWord, if_pos free]
  · obtain ⟨e, he⟩ := List.length_eq_one_iff.1 (plain.resolve_left free)
    rw [he, List.map_singleton, lateWord, if_neg free]
    rfl

/-- The word of a lane among those of distinct lanes. -/
theorem find_lane {es : List Elem} (distinct : (es.map (·.lane)).Nodup) (w : Elem → Nat) {e : Elem} (he : e ∈ es) :
    (es.map fun e => (e.lane, w e)).find? (fun x => x.1 == e.lane) = some (e.lane, w e) := by
  induction es with
  | nil => cases he
  | cons x xs ih =>
    rw [List.map_cons, List.nodup_cons] at distinct
    obtain ⟨first, rest⟩ := distinct
    rw [List.map_cons, List.find?_cons]
    rcases List.mem_cons.1 he with rfl | he
    · simp
    · have ne : x.lane ≠ e.lane := fun h => first (h ▸ List.mem_map_of_mem he)
      simp only [beq_eq_false_iff_ne.2 ne]
      exact ih rest he

theorem find_lane_none {es : List Elem} (w : Elem → Nat) {l : Nat} (none_ : ∀ e ∈ es, e.lane ≠ l) :
    (es.map fun e => (e.lane, w e)).find? (fun x => x.1 == l) = none := by
  rw [List.find?_eq_none]
  intro x hx
  obtain ⟨e, he, rfl⟩ := List.mem_map.1 hx
  simpa using none_ e he

/-! ### The arrival -/

/-- The word of a lane at an arrival: NaN where it fails, +0.0 where nothing was read. -/
def arrivedWord (bad : Bool) (ws : List (Nat × Nat)) (l : Nat) : Nat :=
  if bad then 0x7FC00000 else match ws.find? (·.1 == l) with | some (_, w) => w | none => 0

/-- The state once a late load's words have landed as group `h`. -/
def arrived (s : State) (id gid : Nat) (cs : List LineCopy) (ls : Tbl Nat) (h : Group) : State :=
  { s with copies1 := cs, leases := ls, accesses := Tbl.del s.accesses id }.setGroup gid h

theorem arriveLoad_arrives {s : State} {id k : Nat} {a : Access} {epoch : BitVec 32} {g : Group} (done : ∀ e ∈ a.elems, e.st = .done)
    (live : Tbl.look s.groups a.gid = some g) :
    let bad := a.elems.any fun e => goneAway s e.place
    ∃ cs ls, arriveLoad id a k epoch s =
      arrived s id a.gid cs ls (landSlot k epoch bad false (arrivedWord bad (lateWords a a.elems s).2) g) := by
  intro bad
  have finished : a.finished = true := List.all_eq_true.2 fun x hx => by rw [done x hx]; rfl
  have fails : (a.elems.any fun e => e.st == .failed || goneAway s e.place) = bad := by
    refine Bool.eq_iff_iff.2 ?_
    simp only [bad, List.any_eq_true, Bool.or_eq_true, beq_iff_eq]
    exact exists_congr fun e => and_congr_right fun he => by rw [done e he]; exact or_iff_right nofun
  unfold arriveLoad
  rw [finished, fails]
  dsimp only
  cases bad
  · obtain ⟨cs, ls, shape⟩ := lateWords_shape a a.elems s
    refine ⟨cs, ls, ?_⟩
    simp only [Bool.not_true, Bool.false_eq_true, if_false]
    rw [shape]
    dsimp only
    rw [live]
    rfl
  · refine ⟨s.copies1, s.leases, ?_⟩
    simp only [Bool.not_true, Bool.false_eq_true, if_false, if_true]
    rw [live]
    rfl

theorem lateLoads_arrive : Claim.LateArrivals := by
  intro s id a k ep look kind done distinct live g read plain
  obtain ⟨cs, ls, arrives⟩ := arriveLoad_arrives (id := id) (k := k) (epoch := ep) done (look_group live)
  rw [lateWords_eq plain] at arrives
  have step : exec (.arrival id) s = .next (arriveLoad id a k ep s) := by
    show execArrival id s = _
    unfold execArrival
    simp only [look, kind]
  have group : ∀ h, (arrived s id a.gid cs ls h).group a.gid = { h with wrote := [] } := fun h => State.group_setGroup_same ..
  rw [arrives] at step
  refine ⟨_, step, memoriesSame_setGroup _ a.gid _, State.setGroup_accesses .., fun j hj => State.group_setGroup_other _ _ hj,
    fun gone busy same => ?_, fun near => ?_⟩
  · have bad : (a.elems.any fun e => goneAway s e.place) = true := List.any_eq_true.2 gone
    rw [group, bad]
    obtain ⟨words, -, slot, -⟩ := slotArrived busy same true false (arrivedWord true (a.elems.map fun e => (e.lane, lateWord s a e)))
    exact ⟨words, slot.trans (by rw [Bool.or_true, Bool.or_false])⟩
  · have bad : (a.elems.any fun e => goneAway s e.place) = false := List.any_eq_false.2 fun e he => by rw [near e he]; exact Bool.false_ne_true
    rw [group, bad]
    refine ⟨fun ⟨busy, same⟩ => ?_, fun stale => ?_⟩
    · obtain ⟨words, outside, slot, -, vst, -⟩ :=
        slotArrived busy same false false (arrivedWord false (a.elems.map fun e => (e.lane, lateWord s a e)))
      refine ⟨fun e he hl => (words e.lane hl).trans ?_, fun l hl none_ => (words l hl).trans ?_, outside,
        slot.trans (by rw [Bool.or_false, Bool.or_false]), vst, landSlot_csr ..⟩
      · rw [arrivedWord, find_lane distinct _ he]; rfl
      · rw [arrivedWord, find_lane_none _ none_]; rfl
    · rw [landSlot_stale stale]
      exact ⟨rfl, rfl, rfl, rfl⟩

/-- Settles O40: array operations land and retire, late loads arrive with what they read. -/
theorem arrivals : Obligations.Arrivals := ⟨layerResults_land, lateLoads_arrive⟩

end Sys2Proof.Proofs
end

section
/-!
PROOF. The context image (R358): its header byte for byte, and what its body spells.
-/

namespace Sys2Proof.Proofs

open Sys2Proof.Machine Sys2Proof.Claim

/-- The piece `j` of bytes put together from pieces. -/
theorem slice_piece {ps : List (List Byte)} {mid : List Byte} {j : Nat} (piece : ps[j]? = some mid) (rest : List Byte) :
    ((ps.flatten ++ rest).drop ((ps.take j).map List.length).sum).take mid.length = mid := by
  obtain ⟨hj, rfl⟩ := List.getElem?_eq_some_iff.1 piece
  have split_ : ps.flatten = (ps.take j).flatten ++ (ps[j] ++ (ps.drop (j + 1)).flatten) := by
    rw [← List.flatten_cons, ← List.drop_eq_getElem_cons hj, ← List.flatten_append, List.take_append_drop]
  rw [split_, ← List.length_flatten, List.append_assoc, List.drop_left, List.append_assoc, List.take_left]

theorem field_piece {ps : List (List Byte)} {j k w o : Nat} (piece : ps[j]? = some (bytesOfNat k w)) (rest : List Byte)
    (at_ : ((ps.take j).map List.length).sum = o) : natOfBytes (((ps.flatten ++ rest).drop o).take k) = w % 256 ^ k := by
  have slice := slice_piece piece rest
  rw [length_bytesOfNat, at_] at slice
  rw [slice, natOfBytes_bytesOfNat]

/-- A big-endian number is a little-endian one reversed. -/
theorem beNat_reverse (bs : List Byte) : Sha.beNat bs.reverse = natOfBytes bs := by
  unfold Sha.beNat
  rw [List.foldl_reverse]
  induction bs with
  | nil => rfl
  | cons b bs ih => rw [List.foldr_cons, ih, natOfBytes]; omega

/-- The pieces of the header of a group's context. -/
def headerPieces (c : Saved) (g : Group) (i : Nat) (body : List Byte) : List (List Byte) :=
  [bytesOfNat 4 1, bytesOfNat 1 1, bytesOfNat 1 g.ident.w, bytesOfNat 1 g.ident.k, bytesOfNat 1 i, bytesOfNat 4 c.launch, bytesOfNat 4 c.team,
    bytesOfNat 8 body.length, bytesOfNat 8 0, (bytesOfNat 48 (Sha.sha384 body)).reverse, bytesOfNat 16 0]

theorem imageHeader_group {c : Saved} {g : Group} {i : Nat} (group : c.g = some g) (index : c.group = some i) (body : List Byte) :
    imageHeader c body = (headerPieces c g i body).flatten := by
  unfold imageHeader headerPieces
  rw [group, index]
  simp only [List.flatten_cons, List.flatten_nil, List.append_nil, List.append_assoc]

/-- The header and the body of a group's image (R358). -/
structure ImageOf (c : Saved) (g : Group) (i : Nat) (image body : List Byte) : Prop where
  version : natOfBytes ((image.drop 0).take 4) = 1
  kind : natOfBytes ((image.drop 4).take 1) = 1
  w : natOfBytes ((image.drop 5).take 1) = g.ident.w % 256
  k : natOfBytes ((image.drop 6).take 1) = g.ident.k % 256
  index : natOfBytes ((image.drop 7).take 1) = i % 256
  launch : natOfBytes ((image.drop 8).take 4) = c.launch % 2 ^ 32
  team : natOfBytes ((image.drop 0xC).take 4) = c.team % 2 ^ 32
  length : natOfBytes ((image.drop 0x10).take 8) = body.length % 2 ^ 64
  zeros : natOfBytes ((image.drop 0x18).take 8) = 0
  digest : Sha.beNat ((image.drop 0x20).take 48) = Sha.sha384 body % 2 ^ 384
  tail : natOfBytes ((image.drop 0x50).take 16) = 0
  body : image.drop 96 = body

theorem imageOf {c : Saved} {g : Group} {i : Nat} (group : c.g = some g) (index : c.group = some i) (body : List Byte) :
    ImageOf c g i (imageHeader c body ++ body) body := by
  rw [imageHeader_group group index]
  have digest := slice_piece (ps := headerPieces c g i body) (j := 9) rfl body
  rw [List.length_reverse, length_bytesOfNat] at digest
  exact {
    version := field_piece (ps := headerPieces c g i body) (j := 0) (w := 1) rfl body rfl
    kind := field_piece (ps := headerPieces c g i body) (j := 1) (w := 1) rfl body (by simp [headerPieces])
    w := field_piece (j := 2) rfl body (by simp [headerPieces])
    k := field_piece (j := 3) rfl body (by simp [headerPieces])
    index := field_piece (j := 4) rfl body (by simp [headerPieces])
    launch := field_piece (j := 5) rfl body (by simp [headerPieces])
    team := field_piece (j := 6) rfl body (by simp [headerPieces])
    length := field_piece (j := 7) rfl body (by simp [headerPieces])
    zeros := (field_piece (ps := headerPieces c g i body) (j := 8) rfl body (by simp [headerPieces])).trans (Nat.zero_mod _)
    digest := by
      rw [show 0x20 = (((headerPieces c g i body).take 9).map List.length).sum by simp [headerPieces], digest, beNat_reverse,
        natOfBytes_bytesOfNat]
      rw [show 384 = 8 * 48 from rfl, pow_mul]; rfl
    tail := (field_piece (ps := headerPieces c g i body) (j := 10) rfl body (by simp [headerPieces])).trans (Nat.zero_mod _)
    body := List.drop_left' (by simp [headerPieces]) }

end Sys2Proof.Proofs
end

section
/-!
PROOF. What a save keeps of a group (R275, R282, R385) and where it leaves the module (R251, R281; O51).
-/

namespace Sys2Proof.Proofs

open Sys2Proof.Machine Sys2Proof.Claim

/-! ### The saved window (R275) -/

theorem read_clear (m : Mem) (a n x : Nat) : (m.clear a n).read x = if a ≤ x ∧ x < a + n then 0 else m.read x := by
  unfold Mem.read Tbl.get Mem.clear
  have look : Tbl.look (m.filter fun c => decide (c.1 < a) || decide (a + n ≤ c.1)) x =
      if a ≤ x ∧ x < a + n then none else Tbl.look m x := by
    induction m with
    | nil => simp
    | cons c m ih =>
      obtain ⟨k, b⟩ := c
      rw [List.filter_cons]
      by_cases hk : k = x
      · subst hk
        by_cases inside : a ≤ k ∧ k < a + n
        · rw [if_neg (by simp; omega), ih]
          simp only [if_pos inside]
        · rw [if_pos (by simp; omega), if_neg inside]
          simp [Tbl.look]
      · split
        · simp only [Tbl.look, if_neg hk]; exact ih
        · simp only [Tbl.look, if_neg hk]; exact ih
  rw [look]
  split <;> rfl

/-- One KiB of the window as it is saved. -/
def saveKib (keep : W64) (g : Group) (i : Nat) : Group :=
  if keepKib g keep i then g else { g.setTags (1024 * i) 1024 .raw with win := Mem.clear g.win (1024 * i) 1024 }

/-- A group with another window and other tags. -/
def Rewindowed (g h : Group) : Prop := h = { g with win := h.win, tags := h.tags }

theorem saveKib_rest (keep : W64) (g : Group) (i : Nat) : Rewindowed g (saveKib keep g i) := by
  unfold saveKib
  split <;> rfl

theorem Rewindowed.keepKib {g h : Group} (r : Rewindowed g h) (keep : W64) (i : Nat) : keepKib h keep i = Machine.keepKib g keep i := by
  unfold Machine.keepKib Group.st
  rw [r]

theorem saveKibs_done (keep : W64) (is : List Nat) : ∀ g : Group, Rewindowed g (is.foldl (saveKib keep) g) ∧ ∀ x,
    (is.foldl (saveKib keep) g).win.read x = if x / 1024 ∈ is ∧ keepKib g keep (x / 1024) = false then 0 else g.win.read x := by
  induction is with
  | nil => exact fun g => ⟨rfl, fun x => by simp⟩
  | cons i is ih =>
    intro g
    obtain ⟨rest, read⟩ := ih (saveKib keep g i)
    have first := saveKib_rest keep g i
    refine ⟨?_, fun x => (read x).trans ?_⟩
    · rw [List.foldl_cons]
      generalize is.foldl (saveKib keep) (saveKib keep g i) = h at rest
      rw [Rewindowed] at rest first ⊢
      rw [rest, first]
    · rw [first.keepKib]
      have here : (saveKib keep g i).win.read x = if x / 1024 = i ∧ keepKib g keep i = false then 0 else g.win.read x := by
        unfold saveKib
        cases kept : keepKib g keep i with
        | true => simp
        | false =>
          simp only [Bool.false_eq_true, if_false, and_true]
          refine (read_clear g.win (1024 * i) 1024 x).trans ?_
          exact if_congr (by omega) rfl rfl
      rw [here]
      by_cases hx : x / 1024 = i
      · subst hx; by_cases h : keepKib g keep (x / 1024) = false <;> simp [h]
      · simp [hx]

/-- The saved window: what is kept as it was, the rest zeros. -/
theorem savedWindow_done (g : Group) (keep : W64) : Rewindowed g (savedWindow g keep) ∧ ∀ i < g.ident.w,
    (keepKib g keep i = true → (savedWindow g keep).win.bytes (1024 * i) 1024 = g.win.bytes (1024 * i) 1024)
    ∧ (keepKib g keep i = false → ∀ a, 1024 * i ≤ a → a < 1024 * i + 1024 → (savedWindow g keep).win.read a = 0) := by
  obtain ⟨rest, read⟩ := saveKibs_done keep (List.range g.ident.w) g
  refine ⟨rest, fun i hi => ⟨fun kept => Mem.bytes_congr fun j hj => ?_, fun lost a low high => ?_⟩⟩
  · refine (read _).trans (if_neg ?_)
    rw [show (1024 * i + j) / 1024 = i by omega, kept]
    simp
  · refine (read a).trans (if_pos ?_)
    rw [show a / 1024 = i by omega]
    exact ⟨List.mem_range.2 hi, lost⟩

/-- What due results leave of a group: its identity, and that it is being saved. -/
theorem landDue_rest (g : Group) (now : Nat) : (g.landDue now).ident = g.ident ∧ (g.landDue now).saving = g.saving := by
  unfold Group.landDue
  induction g.dueProds now generalizing g with
  | nil => exact ⟨rfl, rfl⟩
  | cons c ps ih =>
    rw [List.foldl_cons]
    refine ⟨(ih _).1.trans ?_, (ih _).2.trans ?_⟩
    · show (g.land c.1).ident = _
      rw [land_rest]
    · show (g.land c.1).saving = _
      rw [land_rest]

/-! ### A team that a save leaves without resident groups (R161, R163, R236) -/

/-- What the end of a team's residency leaves as it was: groups, memory, bind records and what is in context storage; a body
that it adds on record is a team's. -/
structure TeamLeaves (s t : State) : Prop where
  groups : t.groups = s.groups
  mem : t.mem = s.mem
  binds : ∀ n, (t.core n).binds = (s.core n).binds
  contexts : ∀ c ∈ s.contexts, c ∈ t.contexts
  bodies : ∃ more, t.bodies = s.bodies ++ more ∧ ∀ x ∈ more, x.2.g = none

namespace TeamLeaves

variable {s t u : State}

theorem of_same (groups : t.groups = s.groups) (mem : t.mem = s.mem) (cores : ∀ n, (t.core n).binds = (s.core n).binds)
    (contexts : t.contexts = s.contexts) (bodies : t.bodies = s.bodies) : TeamLeaves s t :=
  ⟨groups, mem, cores, fun _ hc => by rw [contexts]; exact hc, [], by rw [bodies, List.append_nil],
    fun _ hx => absurd hx List.not_mem_nil⟩

theorem refl (s : State) : TeamLeaves s s := of_same rfl rfl (fun _ => rfl) rfl rfl

theorem trans (h : TeamLeaves s t) (k : TeamLeaves t u) : TeamLeaves s u := by
  obtain ⟨more, hb, hm⟩ := h.bodies
  obtain ⟨more', kb, km⟩ := k.bodies
  exact ⟨k.groups.trans h.groups, k.mem.trans h.mem, fun n => (k.binds n).trans (h.binds n), fun c hc => k.contexts c (h.contexts c hc),
    more ++ more', by rw [kb, hb, List.append_assoc], fun x hx => (List.mem_append.1 hx).elim (hm x) (km x)⟩

theorem dropQueues (s : State) (tid : Nat) : TeamLeaves s (dropQueues s tid) := by
  have each : ∀ (ts : Tbl Team) (s : State), TeamLeaves s (ts.foldl (fun s (t, _) =>
      let offs := queuesIn s tid t
      if t == tid || offs.isEmpty then s
      else s.setTeam t { s.team t with qobjs := ((s.team t).qobjs ++ offs).dedup }) s) := by
    intro ts
    induction ts with
    | nil => exact refl
    | cons c ts ih =>
      intro s
      rw [List.foldl_cons]
      refine trans ?_ (ih _)
      dsimp only
      split
      · exact refl s
      · exact of_same rfl rfl (fun _ => rfl) rfl rfl
  exact (each s.teams s).trans (of_same rfl rfl (fun _ => rfl) rfl rfl)

theorem freeResv (s : State) (tid : Nat) : TeamLeaves s (freeResv s tid) := by
  unfold Machine.freeResv
  split
  · exact refl s
  · exact of_same rfl rfl (fun _ => rfl) rfl rfl

theorem dropRoute (s : State) (core : Nat) : TeamLeaves s (dropRoute s core) := by
  unfold Machine.dropRoute
  split
  · exact refl s
  · refine of_same rfl rfl (fun n => ?_) rfl rfl
    by_cases h : n = core
    · subst h; rw [State.core_setCore_same]
    · rw [State.core_setCore_other _ _ h]

theorem keepContext (s : State) {c : Saved} (team : c.g = none) : TeamLeaves s (keepContext s c) :=
  ⟨rfl, rfl, fun _ => rfl, fun _ hc => List.mem_append_left _ hc, _, rfl, fun _ hx => by rw [List.mem_singleton.1 hx]; exact team⟩

theorem unlisted (s : State) (tid : Nat) : TeamLeaves s { s with teams := Tbl.del s.teams tid } := of_same rfl rfl (fun _ => rfl) rfl rfl

theorem saveTeam (s : State) (tid : Nat) : TeamLeaves s (saveTeam s tid) := by
  unfold Machine.saveTeam
  dsimp only
  refine trans ?_ (dropRoute _ _)
  have freed := (freeResv s tid).trans (dropQueues (Machine.freeResv s tid) tid)
  have saved := fun {c : Saved} (team : c.g = none) => (freed.trans (unlisted _ tid)).trans (keepContext _ team)
  split
  · exact (saved rfl).trans (of_same rfl rfl (fun _ => rfl) rfl rfl)
  · exact saved rfl

theorem leaveTeam (s : State) (tid : Nat) : TeamLeaves s (leaveTeam s tid) := by
  have opened : TeamLeaves s (openGates s tid) := of_same rfl rfl (fun _ => rfl) rfl rfl
  unfold Machine.leaveTeam saveIdle
  dsimp only
  split
  · exact opened.trans (saveTeam _ tid)
  · exact opened

end TeamLeaves

end Sys2Proof.Proofs
end

section
/-!
PROOF. A save that completes (R78, R275, R276, R281, R282, R358; O51).
-/

namespace Sys2Proof.Proofs

open Sys2Proof.Machine Sys2Proof.Claim

/-! ### A group that leaves its slot -/

theorem leaveSlot_shape (s : State) (gid : Nat) :
    leaveSlot s gid = { s with cores := (leaveSlot s gid).cores, waiters := (leaveSlot s gid).waiters, teams := (leaveSlot s gid).teams } := by
  unfold leaveSlot
  dsimp only
  split <;> rfl

/-- Its bind record is FREE (R251); only a killed group's is kept (R280). -/
theorem bind_leaveSlot {s : State} {gid : Nat} (alive : (s.launch (s.group gid).ident.lid).killed = none) :
    (Tbl.get {} ((leaveSlot s gid).core (s.group gid).ident.core).binds (s.group gid).ident.slot).state = 0 := by
  unfold leaveSlot
  dsimp only
  rw [alive]
  simp only [Option.isSome_none, Bool.false_eq_true, if_false]
  show (Tbl.get {} ((State.setCore _ _ _).core _).binds _).state = 0
  rw [State.core_setCore_same]
  dsimp only
  unfold Tbl.upd
  split
  · next absent => rw [Tbl.get, absent]; rfl
  · rw [Tbl.get, Tbl.look_set_same]; rfl

/-! ### The context of a group -/

/-- A group as its context holds it (R275, R282). -/
def asSaved (g : Group) (keep : W64) (now : Nat) : Group :=
  { savedWindow g keep with wrote := [], saving := none, hang := .no, csr := { g.csr with left := g.leftNow now } }

/-- What a context holds of a group: its registers and CSRs, LEFT as it stood, and the window's kept KiB, the others zero. -/
structure GroupHeld (g : Group) (keep : W64) (now : Nat) (h : Group) : Prop where
  ident : h.ident = g.ident
  scalars : h.s = g.s
  preds : h.p = g.p
  slots : h.slots = g.slots
  subs : h.subs = g.subs
  csr : h.csr = { g.csr with left := g.leftNow now }
  seq : h.seq = g.seq
  cap : h.cap = g.cap
  memues : h.memues = g.memues
  window : ∀ i < g.ident.w, (keepKib g keep i = true → h.win.bytes (1024 * i) 1024 = g.win.bytes (1024 * i) 1024)
    ∧ (keepKib g keep i = false → ∀ a, 1024 * i ≤ a → a < 1024 * i + 1024 → h.win.read a = 0)

theorem groupHeld (g : Group) (keep : W64) (now : Nat) : GroupHeld g keep now (asSaved g keep now) := by
  obtain ⟨rest, window⟩ := savedWindow_done g keep
  unfold asSaved
  generalize savedWindow g keep = h at rest window
  have field {α : Type} (p : Group → α) : p h = p { g with win := h.win, tags := h.tags } := congrArg p rest
  exact ⟨field Group.ident, field Group.s, field Group.p, field Group.slots, field Group.subs, rfl, field Group.seq, field Group.cap,
    field Group.memues, window⟩

theorem keepKib_iff (g : Group) (keep : W64) (i : Nat) :
    keepKib g keep i = true ↔ keep.getLsbD i = true ∨ g.ident.w - g.ident.k ≤ i ∨ g.st i ≠ .full := by
  unfold keepKib
  simp only [Bool.or_eq_true, decide_eq_true_eq, bne_iff_ne, ne_eq, or_assoc]

/-- The group that a save stores. -/
def groupSaved (s : State) (gid : Nat) : Group :=
  let g := (s.group gid).landDue s.m.ftime
  asSaved g (match g.saving with | some x => x.keep | none => BitVec.allOnes 64) s.m.ftime

theorem groupSaved_held {s : State} {gid : Nat} {x : Saving} (saving : (s.group gid).saving = some x) :
    GroupHeld ((s.group gid).landDue s.m.ftime) x.keep s.m.ftime (groupSaved s gid) := by
  unfold groupSaved
  dsimp only
  rw [(landDue_rest (s.group gid) s.m.ftime).2, saving]
  exact groupHeld ..

/-- Its copies as park records: one that still runs is stopped and parked (R276, R281). -/
def copiesSaved (s : State) (gid : Nat) : List Copy :=
  ((s.copies.filter fun (_, y) => y.gid == gid).map (·.2)).map fun y =>
    match y.st with
    | .running => { y with st := .parked Cause.preempt 0 true, saved := true }
    | _ => y

/-- The context of a group (R281). -/
def contextSaved (s : State) (gid : Nat) : Saved :=
  let g := (s.group gid).landDue s.m.ftime
  { part := g.ident.part, launch := (s.launch g.ident.lid).r.id, team := g.ident.team, group := some g.ident.index
    g := some (groupSaved s gid), copies := copiesSaved s gid }

/-- The state once a group has left its slot, its context stored. -/
def groupLeft (s : State) (gid : Nat) : State :=
  let s1 := leaveSlot s gid
  let s2 := keepContext { s1 with
    groups := Tbl.del s1.groups gid
    copies := s1.copies.filter fun (_, y) => y.gid != gid
    thops := s1.thops.filter fun (_, o) => o.gid != gid
    accesses := s1.accesses.filter fun (_, a) => a.gid != gid
    arrops := s1.arrops.filter fun (_, o) => o.gid != gid } (contextSaved s gid)
  let tid := ((s.group gid).landDue s.m.ftime).ident.tid
  s2.setTeam tid { s2.team tid with gids := (s2.team tid).gids.filter (· != gid) }

theorem saveGroup_leaves (s : State) (gid : Nat) : TeamLeaves (groupLeft s gid) (saveGroup s gid) := by
  have eq : saveGroup s gid = if (((groupLeft s gid).team ((s.group gid).landDue s.m.ftime).ident.tid).gids).isEmpty
      then leaveTeam (groupLeft s gid) ((s.group gid).landDue s.m.ftime).ident.tid else groupLeft s gid := by
    rw [groupLeft, State.team_setTeam_same]
    rfl
  rw [eq]
  split
  · exact TeamLeaves.leaveTeam ..
  · exact TeamLeaves.refl _

/-- What the group's leaving changes of groups, memory, bind records and contexts. -/
theorem groupLeft_done (s : State) (gid : Nat) : (groupLeft s gid).groups = Tbl.del s.groups gid ∧ (groupLeft s gid).mem = s.mem
    ∧ (groupLeft s gid).contexts = s.contexts ++ [(contextSaved s gid).written]
    ∧ (groupLeft s gid).bodies = s.bodies ++ [((contextSaved s gid).written.image.drop 96, (contextSaved s gid).written)]
    ∧ ∀ n, (groupLeft s gid).core n = (leaveSlot s gid).core n := by
  have shape := leaveSlot_shape s gid
  refine ⟨?_, ?_, ?_, ?_, fun _ => rfl⟩
  · show Tbl.del (leaveSlot s gid).groups gid = _
    rw [shape]
  · show (leaveSlot s gid).mem = _
    rw [shape]
  · show (leaveSlot s gid).contexts ++ _ = _
    rw [shape]
  · show (leaveSlot s gid).bodies ++ _ = _
    rw [shape]

/-! ### What the context's image spells -/

/-- A context that a group's image fits is a group's. -/
theorem headerFits_team {h : List Byte} {c : Saved} (team : c.g = none) (kind : natOfBytes ((h.drop 4).take 1) = 1) : headerFits h c = false := by
  unfold headerFits
  rw [team]
  dsimp only
  rw [kind]
  rfl

/-- A context on record last among those that fit is what its body spells. -/
theorem bodyContext_of {t : State} {c : Saved} {h body : List Byte} {before more : List (List Byte × Saved)}
    (bodies : t.bodies = before ++ [(body, c)] ++ more) (teams : ∀ x ∈ more, headerFits h x.2 = false) (fits : headerFits h c = true) :
    bodyContext t h body = some c := by
  have found : t.bodies.reverse.find? (fun x => x.1 == body && headerFits h x.2) = some (body, c) := by
    rw [bodies, List.reverse_append, List.reverse_append, List.reverse_singleton, List.find?_append, List.find?_eq_none.2, Option.none_or]
    · simp [fits]
    · intro x hx
      simp [teams x (List.mem_reverse.1 hx)]
  unfold bodyContext
  rw [found]

/-- The image of a group's context, as its save writes it (R358). -/
theorem imageOf_contextSaved (s : State) (gid : Nat) :
    let body := (Config.contextBody (contextSaved s gid)).take (contextSaved s gid).bound
    ImageOf (contextSaved s gid) (groupSaved s gid) ((s.group gid).landDue s.m.ftime).ident.index (contextSaved s gid).written.image body :=
  imageOf rfl rfl _

theorem headerFits_group {s : State} {gid : Nat} (ident : (groupSaved s gid).ident = ((s.group gid).landDue s.m.ftime).ident)
    (w : ((s.group gid).landDue s.m.ftime).ident.w < 256) (k : ((s.group gid).landDue s.m.ftime).ident.k < 256) :
    headerFits (contextSaved s gid).written.image (contextSaved s gid).written = true := by
  have image := imageOf_contextSaved s gid
  unfold headerFits
  show (natOfBytes _ == 1 && (groupSaved s gid).ident.w == natOfBytes _ && (groupSaved s gid).ident.k == natOfBytes _) = true
  rw [image.kind, image.w, image.k, ident, Nat.mod_eq_of_lt w, Nat.mod_eq_of_lt k]
  simp

/-- Settles O51: while a wait is open nothing happens; then the group leaves its slot, its context in storage under the image
that spells it. -/
theorem contextSaves : Obligations.ContextSaves := by
  intro s gid x live saving g
  have step : exec (.contextSaveComplete gid) s = .next (if saveReady s gid then saveGroup s gid else s) := by
    show execContextSaveComplete gid s = _
    unfold execContextSaveComplete
    simp only [look_group live, saving, Option.isSome_some, Bool.true_and]
  have same : g.ident = (s.group gid).ident := (landDue_rest (s.group gid) s.m.ftime).1
  refine ⟨fun waits => ?_, fun ready => ?_⟩
  · rw [step, waits]; rfl
  · rw [ready] at step
    have leaves := saveGroup_leaves s gid
    obtain ⟨groups, mem, contexts, bodies, cores⟩ := groupLeft_done s gid
    obtain ⟨more, added, teams⟩ := leaves.bodies
    have image := imageOf_contextSaved s gid
    have held := groupSaved_held saving
    have length : ((contextSaved s gid).written.image.drop 96).length ≤ 1024 * g.ident.w + 16384 := by
      rw [image.body, List.length_take]
      exact (min_le_left ..).trans (by rw [← held.ident]; exact le_refl _)
    refine ⟨saveGroup s gid, (contextSaved s gid).written, groupSaved s gid, step, ?_, fun k hk => ?_, leaves.mem.trans mem,
      leaves.contexts _ (by rw [contexts]; exact List.mem_append_right _ (List.mem_singleton_self _)), rfl, rfl, rfl, rfl, rfl,
      held.scalars, held.preds, held.slots, held.subs, held.csr, held.seq, held.cap, held.memues, fun alive => ?_, ?_, fun i hi => ?_⟩
    · rw [leaves.groups, groups, Tbl.look_del_same]
    · rw [State.group, leaves.groups, groups, Tbl.get, Tbl.look_del_other _ hk]; rfl
    · rw [leaves.binds, cores, same]
      exact bind_leaveSlot (by rw [← same]; exact alive)
    · refine ⟨image.version, image.kind, ?_, ?_, image.index, image.launch, image.team, ?_, image.zeros, image.tail, ?_, length, fun w k => ?_⟩
      · rw [← held.ident]; exact image.w
      · rw [← held.ident]; exact image.k
      · rw [image.body]; exact image.length
      · rw [image.body]; exact image.digest
      · exact bodyContext_of (added.trans (by rw [bodies])) (fun y hy => headerFits_team (teams y hy) image.kind)
          (headerFits_group held.ident w k)
    · intro kept
      obtain ⟨stays, zeros⟩ := held.window i hi
      have iff_ : keepKib g x.keep i = true ↔ kept := keepKib_iff g x.keep i
      exact ⟨fun h => stays (iff_.2 h), fun h => zeros (by simpa using mt iff_.1 h)⟩

end Sys2Proof.Proofs
end

section
/-!
PROOF. GRED and GSCAN (R98, R385): the pairwise tree over the active real lanes, whose vector result its tick holds back (R28).
-/

namespace Sys2Proof.Proofs

open Sys2Proof.Machine Sys2Proof.Claim

/-! ### A result that time holds back (R28, R385) -/

theorem deliver_same (g : Group) (id a : Nat) (bs : List Byte) : g.Same (g.deliver id a bs) ∧ (g.deliver id a bs).slots = g.slots := by
  unfold Group.deliver
  split <;> exact ⟨rfl, rfl⟩

theorem deliverWords_same (id d : Nat) (v : Nat → Nat) (ls : List Nat) : ∀ g : Group, g.Same (deliverWords g id d v ls)
    ∧ (deliverWords g id d v ls).tags = g.tags ∧ (deliverWords g id d v ls).slots = g.slots := by
  induction ls with
  | nil => exact fun _ => ⟨rfl, rfl, rfl⟩
  | cons l ls ih =>
    intro g
    obtain ⟨here, slots⟩ := deliver_same g id (1024 * d + 4 * l) (bytesOfNat 4 (v l))
    obtain ⟨rest, tags', slots'⟩ := ih (g.deliver id (1024 * d + 4 * l) (bytesOfNat 4 (v l)))
    exact ⟨here.trans rest, tags'.trans (marks_deliver ..).1, slots'.trans slots⟩

/-- Words delivered by a producer over whose range nothing has been written since: they land whole, and it owes what it owed. -/
theorem deliverWords_clean {id : Nat} {p : Prod} (clean : p.skip = []) (d : Nat) (v : Nat → Nat) (ls : List Nat) : ∀ {g : Group},
    Tbl.look g.prods id = some p → Tbl.look (deliverWords g id d v ls).prods id = some p
      ∧ (deliverWords g id d v ls).win = g.win.putLanes (1024 * d) ls v := by
  induction ls with
  | nil => exact fun look => ⟨look, rfl⟩
  | cons l ls ih =>
    intro g look
    obtain ⟨look', win⟩ := ih (look_deliver look (1024 * d + 4 * l) (bytesOfNat 4 (v l)))
    exact ⟨look', win.trans (by rw [win_deliver look clean]; rfl)⟩

/-- A group whose register `d` is E: the words of the result stand in its lanes, and the producer lands at its tick. -/
def slowGroup (g : Group) (id now d : Nat) (act : Mask) (ls : List Nat) (v : Nat → W32) (t : Tag) : Group :=
  let w := deliverWords (g.markE id (1024 * d) 1024 t) id d (fun l => (v l).toNat) ls
  { w with
    wrote := []
    prods := Tbl.upd w.prods id fun p => { p with due := some (now + 12 + ceilDiv ((mlanes act).map (· / 4)).dedup.length 2) } }

theorem slowWrite_eq (c : Ctx) (d : Nat) (act : Mask) (ls : List Nat) (v : Nat → W32) (t : Tag) (s : State) :
    slowWrite c d act (ls.map fun l => (l, v l)) t s =
      s.fresh.2.setGroup c.gid (slowGroup (c.g s) s.nextId s.m.ftime d act ls v t) := by
  unfold slowWrite slowGroup deliverWords
  dsimp only [State.fresh]
  rw [List.foldl_map]
  rfl

theorem slowGroup_same (g : Group) (id now d : Nat) (act : Mask) (ls : List Nat) (v : Nat → W32) (t : Tag) :
    g.Same (slowGroup g id now d act ls v t) :=
  (markE_same g id d t).trans ((deliverWords_same id d _ ls _).1.trans rfl)

theorem markE_clear {g : Group} {d : Nat} (clear : g.anyP (1024 * d) 1024 = false) (id : Nat) (t : Tag) :
    (∀ r, r ≠ d → (g.markE id (1024 * d) 1024 t).st r = g.st r) ∧ (g.markE id (1024 * d) 1024 t).slots = g.slots
      ∧ (g.markE id (1024 * d) 1024 t).tags = g.tags := by
  rw [markE_vector, ← discard_vector, Group.discard_none clear]
  exact ⟨fun r hr => Group.st_setSt_other g .empty hr, rfl, rfl⟩

theorem resultOwed_slowGroup (g : Group) (id now d : Nat) (act : Mask) (ls : List Nat) (v : Nat → W32) (t : Tag) :
    ResultOwed g (slowGroup g id now d act ls v t) id now d act ls v t := by
  let m := g.markE id (1024 * d) 1024 t
  let w := deliverWords m id d (fun l => (v l).toNat) ls
  obtain ⟨owed, win⟩ := deliverWords_clean (p := ⟨1024 * d, 1024, t, [], [], none⟩) rfl d (fun l => (v l).toNat) ls (look_markE g id d t)
  obtain ⟨-, tags, slots⟩ := deliverWords_same id d (fun l => (v l).toNat) ls m
  have vst : w.vst = m.vst := (deliverWords_rest id d (fun l => (v l).toNat) ls m).2
  rw [win_markE] at win
  have st : ∀ r, (slowGroup g id now d act ls v t).st r = m.st r := fun r => by
    show Tbl.get .full w.vst r = _
    rw [vst]; rfl
  refine ⟨fun l hl => ?_, fun a out => ?_, (st d).trans (st_markE g id d t), ?_, fun clear => ?_⟩
  · show BitVec.ofNat 32 (w.win.num (1024 * d + 4 * l) 4) = v l
    rw [win, Mem.num_putLanes, if_pos hl, show 256 ^ 4 = 2 ^ 32 from rfl, Nat.mod_eq_of_lt (v l).isLt, BitVec.ofNat_toNat, BitVec.setWidth_eq]
  · show w.win.read a = _
    rw [win, Mem.read_putLanes]
    intro l hl
    by_contra inside
    exact out ⟨l, hl, by omega, by omega⟩
  · show Tbl.look (Tbl.upd w.prods id _) id = _
    rw [Tbl.look_upd_same, owed]
    rfl
  · obtain ⟨others, slots', tags'⟩ := markE_clear clear id t
    exact ⟨fun r hr => (st r).trans (others r hr), slots.trans slots', tags.trans tags'⟩

/-! ### The end of the word -/

/-- `u` is `s` with one group as `g` but for its unrecorded writes, and with flags `fl` raised for its team. -/
structure GroupLeaves (s u : State) (gid : Nat) (g : Group) (fl : BitVec 5) : Prop where
  shape : u = { s with groups := u.groups, teams := u.teams, cores := u.cores }
  cores : ∀ n, { u.core n with latch := [] } = { s.core n with latch := [] }
  others : OthersKept s u gid
  raised : Raised s u (s.group gid).ident.tid fl
  live : ∃ w, Tbl.look u.groups gid = some { g with wrote := w }

theorem left_setGroup (s : State) (gid : Nat) (g : Group) (fl : BitVec 5) :
    GroupLeaves s ((s.setGroup gid g).orTsf (s.group gid).ident.tid fl) gid g fl where
  shape := by rw [State.orTsf_shape, State.setGroup_shape]
  cores n := by rw [State.core_orTsf, State.setGroup_core]
  others k hk := by rw [State.group_orTsf, State.group_setGroup_other _ _ hk]
  raised k := by rw [State.look_orTsf, State.setGroup_teams]
  live := ⟨[], by rw [State.orTsf_groups, State.setGroup_groups, Tbl.look_set_same]⟩

theorem left_orTsf {s : State} {gid : Nat} (live : (Tbl.look s.groups gid).isSome = true) (fl : BitVec 5) :
    GroupLeaves s (s.orTsf (s.group gid).ident.tid fl) gid (s.group gid) fl where
  shape := by rw [State.orTsf_shape]
  cores n := by rw [State.core_orTsf]
  others k _ := State.group_orTsf ..
  raised k := State.look_orTsf ..
  live := ⟨(s.group gid).wrote, by rw [State.orTsf_groups]; exact look_group live⟩

section
variable {i : Instr} {f : Fields} {s s1 : State} {gid sub : Nat} (ready : WinOnly s s1 gid)
include ready

/-- The end of a word that has read its sources and leaves its group as `g`. -/
theorem ends_left {u : State} {g : Group} {fl : BitVec 5} (left : GroupLeaves s1 u gid g fl) (skips : g.wskipNow = (s1.group gid).wskipNow)
    (sleeps : g.sleep = (s1.group gid).sleep) (run : exec i s = .next (settleGroup (ctx i f s gid sub) false s (.ok u))) :
    ∃ t, exec i s = .next t ∧ ScalarFrame s1 t gid fl ∧ t.group gid = doneGroup (ctx i f s gid sub) g := by
  obtain ⟨-, -, -, -, same⟩ := ready
  have skips : g.wskipNow = (s.group gid).wskipNow := by rw [skips, same]
  have sleeps : g.sleep = (s.group gid).sleep := by rw [sleeps, same]
  obtain ⟨shape, cores, others, raised, w, live⟩ := left
  have ended : settleGroup (ctx i f s gid sub) false s (.ok u) =
      endTurn (u.setGroup gid { doneGroup (ctx i f s gid sub) g with wrote := w }) := by
    rw [settleGroup_ok, retire_eq live]
    simp only [show (ctx i f s gid sub).g s = s.group gid from rfl, ← skips, ← sleeps, skip_used, sleep_used]
    rfl
  refine ⟨_, run, ?_⟩
  rw [ended]
  refine ⟨⟨⟨?_, fun n => ?_⟩, fun k hk => ?_, fun k => ?_⟩, ?_⟩
  · rw [State.setGroup_shape, shape]; rfl
  · rw [State.core_endTurn, State.setGroup_core, cores]
  · rw [State.group_endTurn, State.group_setGroup_other _ _ hk, others k hk]
  · rw [State.endTurn_teams, State.setGroup_teams, raised k]
  · rw [State.group_endTurn, State.group_setGroup_same]; rfl

/-- The end of a word that has started one operation, its group as `h` but for the turn's records. -/
theorem ends_started {h : Group} (fl : BitVec 5) (same : (s1.group gid).Same h)
    (run : exec i s = .next (settleGroup (ctx i f s gid sub) false s
      (.ok ((s1.fresh.2.setGroup gid h).orTsf (s1.group gid).ident.tid fl)))) :
    ∃ t, exec i s = .next t ∧ OneStarted s1 t gid sub (nextPc f s gid sub) fl ∧ t.group gid = doneGroup (ctx i f s gid sub) h := by
  obtain ⟨shape, cores, others, live, kept⟩ := ready
  have numbered : WinOnly { s with nextId := s1.nextId + 1 } s1.fresh.2 gid := ⟨by rw [State.fresh, shape], cores, others, live, kept⟩
  obtain ⟨⟨⟨shape', cores'⟩, others', raised, issued⟩, group⟩ := retire_frame (c := ctx i f s gid sub) fl numbered same
  exact ⟨_, run, ⟨shape', cores', others', raised, issued⟩, group⟩
end

theorem scalarIssued_setScal (c : Ctx) (g : Group) {d : Opd} {n : Fin 32} (hd : d = .s n) (x : W64) :
    ScalarIssued g (doneGroup c (g.setScal n.val x)) d x c.sub (c.pc + BitVec.ofNat 64 c.len) := by
  subst hd
  refine ⟨fun m hm => ?_, fun m hm => Group.scal_setScal_other g x (Ne.symm (hm n rfl)), rfl⟩
  cases hm
  exact Group.scal_setScal_same g n.val x

/-! ### GRED and GSCAN -/

theorem orFlags_replicate {n : Nat} (pos : n ≠ 0) (fl : BitVec 5) : orFlags (List.replicate n fl) = fl := by
  have more : ∀ (n : Nat) (a : BitVec 5), (List.replicate (n + 1) fl).foldl (· ||| ·) a = a ||| fl := by
    intro n
    induction n with
    | zero => exact fun _ => rfl
    | succ n ih =>
      intro a
      rw [List.replicate_succ, List.foldl_cons, ih, BitVec.or_assoc, BitVec.or_self]
  obtain ⟨n, rfl⟩ := Nat.exists_eq_succ_of_ne_zero pos
  exact (more n 0).trans BitVec.zero_or

/-- One flag value for all lanes is raised as it is, an active lane being there. -/
theorem laneFlags_const {g : Group} {act : Mask} (active : act ≠ 0) (fl : BitVec 5) : laneFlags act (laneSet g act) (fun _ => fl) = fl := by
  rw [laneFlags, List.map_const', orFlags_replicate]
  obtain ⟨l, hl⟩ := List.exists_mem_of_ne_nil _ (mt mlanes_eq_nil.1 active)
  refine Nat.ne_of_gt (List.length_pos_of_mem (a := l) (List.mem_filter.2 ⟨List.mem_append_left _ hl, ((mem_mlanes ..).1 hl).2⟩))

/-- The value of a scalar destination. -/
def redScalar (f : Fields) (r : Nat) : W64 := if f.fmt = .i32 then (BitVec.ofNat 32 r).signExtend 64 else (BitVec.ofNat 32 r).zeroExtend 64

/-- The value and flags of a lane: the tree over all active real lanes, or over those up to the lane. -/
def laneRed (o : Bool × RedOp) (f : Fields) (g : Group) (act : Mask) (l : Nat) : Nat × BitVec 5 :=
  (laneTree o.2 f g (if o.1 then (mlanes act).filter (· ≤ l) else mlanes act)).getD (0, 0)

/-- Each word of the table with its meaning. -/
theorem exec_reduce {o : (Fields → Instr) × Bool × RedOp} (ho : o ∈ reduceOps) (f : Fields) (s : State) :
    exec (o.1 f) s = if o.2.1 then gscan (o.1 f) f o.2.2 s else gred (o.1 f) f o.2.2 s := by
  simp only [reduceOps, List.mem_cons, List.not_mem_nil, or_false] at ho
  rcases ho with rfl | rfl | rfl | rfl | rfl | rfl <;> rfl

/-- What a reduction makes of the state in which its source has been read: its result in lanes. -/
def reduced (c : Ctx) (o : Bool × RedOp) (act : Mask) (s : State) : State :=
  match c.f.d with
  | .v n => slowWrite c n.val act ((laneSet (c.g s) act).map fun l => (l, BitVec.ofNat 32 (laneRed o c.f (c.g s) act l).1)) c.f.fmt s
  | _ => s

section
variable {i : Instr} {f : Fields} {s s1 : State} {gid sub : Nat} (issuing : Issuing s gid sub)
  (refs : RefsOk (s.group gid) [useA f (tagOf f)] [(f.d, 1)]) (active : (s.group gid).activeReal sub f ≠ 0)
  (readable : Readable (ctx i f s gid sub) [useA f (tagOf f)] s s1)
include issuing refs active readable

omit issuing in
/-- A word whose references pass, with an active lane and its source read, goes on from there. -/
theorem reads_then (k : State → Except Stop State) : let c := ctx i f s gid sub
    (checkRefs c (c.g (holdLatch s c)) [useA f (tagOf f)] [(f.d, 1)] >>= fun _ => if (c.g (holdLatch s c)).activeReal sub f = 0
      then .ok (holdLatch s c) else ready c [useA f (tagOf f)] (holdLatch s c) >>= k) = k s1 := by
  intro c
  have refs : RefsOk (c.g (holdLatch s c)) [useA f (tagOf f)] [(f.d, 1)] := refs
  have active : (c.g (holdLatch s c)).activeReal sub f ≠ 0 := active
  have readable : ready c [useA f (tagOf f)] (holdLatch s c) = .ok s1 := readable
  rw [checkRefs_ok refs, except_ok_bind, if_neg active, readable, except_ok_bind]

theorem gred_lanes {op : RedOp} (lanes : ∀ n, f.d ≠ .s n) :
    let act := (s.group gid).activeReal sub f
    gred i f op s = .next (settleGroup (ctx i f s gid sub) false s (.ok
      ((reduced (ctx i f s gid sub) (false, op) act s1).orTsf (s1.group gid).ident.tid
        (laneFlags act (laneSet (s1.group gid) act) fun l => (laneRed (false, op) f (s1.group gid) act l).2)))) := by
  intro act
  rw [show (fun l => (laneRed (false, op) f (s1.group gid) act l).2) = fun _ => (laneRed (false, op) f (s1.group gid) act 0).2 from rfl,
    laneFlags_const active, gred, issueGroup_group issuing]
  refine congrArg (fun x => Host.Outcome.next (settleGroup _ false s x)) ((reads_then refs active readable _).trans ?_)
  unfold reduced
  cases hd : f.d with
  | s n => exact absurd hd (lanes n)
  | _ => rfl

theorem gscan_lanes {op : RedOp} :
    let act := (s.group gid).activeReal sub f
    gscan i f op s = .next (settleGroup (ctx i f s gid sub) false s (.ok
      ((reduced (ctx i f s gid sub) (true, op) act s1).orTsf (s1.group gid).ident.tid
        (laneFlags act (laneSet (s1.group gid) act) fun l => (laneRed (true, op) f (s1.group gid) act l).2)))) := by
  intro act
  rw [gscan, issueGroup_group issuing]
  refine congrArg (fun x => Host.Outcome.next (settleGroup _ false s x)) ((reads_then refs active readable _).trans ?_)
  simp only [reduced, List.filter_map, List.map_map, Function.comp_def, laneFlags]
  cases hd : f.d <;> rfl

theorem gred_scalar {op : RedOp} {n : Fin 32} (scalar : f.d = .s n) :
    let act := (s.group gid).activeReal sub f
    let red := laneRed (false, op) f (s1.group gid) act 0
    gred i f op s = .next (settleGroup (ctx i f s gid sub) false s (.ok
      ((s1.setGroup gid ((s1.group gid).setScal n.val (redScalar f red.1))).orTsf (s1.group gid).ident.tid red.2))) := by
  intro act red
  rw [gred, issueGroup_group issuing]
  refine congrArg (fun x => Host.Outcome.next (settleGroup _ false s x)) ((reads_then refs active readable _).trans ?_)
  rw [scalar]
  rfl
end

theorem reduce_lanes {o : (Fields → Instr) × Bool × RedOp} (ho : o ∈ reduceOps) {f : Fields} {s s1 : State} {gid sub : Nat}
    (issuing : Issuing s gid sub) (refs : RefsOk (s.group gid) [useA f (tagOf f)] [(f.d, 1)])
    (active : (s.group gid).activeReal sub f ≠ 0) (readable : Readable (ctx (o.1 f) f s gid sub) [useA f (tagOf f)] s s1)
    (lanes : ∀ n, f.d ≠ .s n) :
    let act := (s.group gid).activeReal sub f
    exec (o.1 f) s = .next (settleGroup (ctx (o.1 f) f s gid sub) false s (.ok
      ((reduced (ctx (o.1 f) f s gid sub) o.2 act s1).orTsf (s1.group gid).ident.tid
        (laneFlags act (laneSet (s1.group gid) act) fun l => (laneRed o.2 f (s1.group gid) act l).2)))) := by
  obtain ⟨i, scan, op⟩ := o
  have step := exec_reduce ho f s
  cases scan
  · exact step.trans (gred_lanes issuing refs active readable lanes)
  · exact step.trans (gscan_lanes issuing refs active readable)

/-- Settles O10: the source read, the result is E in its register until its tick, or stands in its scalar. -/
theorem reductions : Obligations.Reductions := by
  intro o ho f uses
  refine ⟨fun lanes s gid sub s1 issuing refs => ?_, fun whole n s gid sub s1 scalar issuing refs => ?_⟩
  · intro act active readable g red fl
    have run := reduce_lanes ho issuing refs active readable lanes
    have ready := readable_frame readable
    refine ⟨fun d vector => ?_, fun none_ => ?_⟩
    · simp only [reduced, vector, slowWrite_eq] at run
      obtain ⟨t, step, started, group⟩ := ends_started ready fl (slowGroup_same ..) run
      refine ⟨t, step, started, ?_⟩
      rw [group, show s.m = s1.m by rw [ready.1]]
      exact resultOwed_slowGroup g s1.nextId s1.m.ftime d.val act (laneSet g act) (fun l => BitVec.ofNat 32 (red l).1) f.fmt
    · have kept : ∀ m, reduced (ctx (o.1 f) f s gid sub) o.2 m s1 = s1 := by
        intro m
        unfold reduced
        split
        · next n vector => exact absurd vector (none_ n)
        · rfl
      simp only [kept] at run
      obtain ⟨-, -, -, live, -⟩ := ready
      obtain ⟨t, step, ⟨only, others, raised⟩, group⟩ := ends_left (readable_frame readable) (left_orTsf (live issuing.2) fl) rfl rfl run
      refine ⟨t, step, ?_, only, others, raised, ?_⟩
      · rw [group]; exact ⟨rfl, rfl, rfl, rfl, rfl⟩
      · rw [group]; rfl
  · obtain ⟨i, scan, op⟩ := o
    obtain rfl : scan = false := whole
    intro act active readable g red
    have run := (exec_reduce ho f s).trans (gred_scalar issuing refs active readable scalar)
    obtain ⟨t, step, frame, group⟩ := ends_left (readable_frame readable) (left_setGroup s1 gid (g.setScal n.val (redScalar f red.1)) red.2) rfl rfl run
    refine ⟨t, step, frame, ?_⟩
    rw [group]
    exact scalarIssued_setScal (ctx (i f) f s gid sub) g scalar _

end Sys2Proof.Proofs
end

section
/-!
PROOF. RED's steps (R98, R184): stripes, the flag word, and the completion.
-/

namespace Sys2Proof.Proofs

open Sys2Proof.Machine Sys2Proof.Claim

/-! ### Integer sums (R98, R184) -/

theorem treeLevel_map {α β : Type} {f : β → β → β} {g : α → α → α} {e : α → β} (comb : ∀ x y, f (e x) (e y) = e (g x y)) (xs : List α) :
    treeLevel f (xs.map e) = (treeLevel g xs).map e := by
  induction xs using treeLevel.induct with
  | case1 a b l ih => simp only [List.map_cons, treeLevel, comb, ih]
  | case2 l short =>
    match l, short with
    | [], _ => rfl
    | [_], _ => rfl
    | a :: b :: l, short => exact absurd rfl (short a b l)

theorem treeGo_map {α β : Type} {f : β → β → β} {g : α → α → α} {e : α → β} (comb : ∀ x y, f (e x) (e y) = e (g x y)) (n : Nat) :
    ∀ xs : List α, treeGo f n (xs.map e) = (treeGo g n xs).map e := by
  induction n with
  | zero =>
    intro xs
    match xs with
    | [] => rfl
    | [_] => rfl
    | _ :: _ :: _ => rfl
  | succ n ih =>
    intro xs
    match xs with
    | [] => rfl
    | [_] => rfl
    | a :: b :: l => exact (congrArg (treeGo f n) (treeLevel_map comb (a :: b :: l))).trans (ih _)

/-- Addition modulo 2^32. -/
def addWord (x y : Nat) : Nat := (x + y) % 2 ^ 32

/-- A level of sums: as many words as pairs, with the same sum. -/
theorem treeLevel_addWord (xs : List Nat) : (treeLevel addWord xs).sum % 2 ^ 32 = xs.sum % 2 ^ 32
    ∧ (treeLevel addWord xs).length = (xs.length + 1) / 2 ∧ ((∀ x ∈ xs, x < 2 ^ 32) → ∀ x ∈ treeLevel addWord xs, x < 2 ^ 32) := by
  induction xs using treeLevel.induct with
  | case1 a b l ih =>
    obtain ⟨sum, length, words⟩ := ih
    rw [treeLevel]
    refine ⟨?_, ?_, fun h x hx => ?_⟩
    · simp only [List.sum_cons, addWord]; omega
    · simp only [List.length_cons, length]; omega
    · rcases List.mem_cons.1 hx with rfl | hx
      · exact Nat.mod_lt _ (by decide)
      · exact words (fun y hy => h y (by simp [hy])) x hx
  | case2 l short =>
    match l, short with
    | [], _ => exact ⟨rfl, rfl, id⟩
    | [_], _ => exact ⟨rfl, by simp [treeLevel], id⟩
    | a :: b :: l, short => exact absurd rfl (short a b l)

theorem treeGo_addWord (n : Nat) : ∀ xs : List Nat, xs ≠ [] → xs.length ≤ n → (∀ x ∈ xs, x < 2 ^ 32) →
    treeGo addWord n xs = some (xs.sum % 2 ^ 32) := by
  induction n with
  | zero => intro xs ne le; exact absurd (List.eq_nil_of_length_eq_zero (Nat.le_zero.1 le)) ne
  | succ n ih =>
    intro xs ne le words
    match xs with
    | [x] => rw [List.sum_singleton, Nat.mod_eq_of_lt (words x (List.mem_singleton_self x))]; rfl
    | a :: b :: l =>
      obtain ⟨sum, length, words'⟩ := treeLevel_addWord (a :: b :: l)
      rw [← sum]
      refine ih _ (List.ne_nil_of_length_pos ?_) ?_ (words' words) <;> simp only [length, List.length_cons] at le ⊢ <;> omega

/-- The pairwise tree of a RED over integers is their sum modulo 2^32. -/
theorem redElem_sum {xs : List Nat} (ne : xs ≠ []) (words : ∀ x ∈ xs, x < 2 ^ 32) : redElem 2 xs = (xs.sum % 2 ^ 32, 0) := by
  have comb : ∀ x y : Nat, withFlags (fun a b => ((a + b) % 2 ^ 32, 0)) (x, (0 : BitVec 5)) (y, 0) = (addWord x y, 0) := fun x y => by
    simp [withFlags, addWord]
  show (tree (withFlags fun a b => ((a + b) % 2 ^ 32, 0)) (xs.map fun x => (x, (0 : BitVec 5)))).getD (0, 0) = _
  rw [tree, treeGo_map (e := fun x => (x, (0 : BitVec 5))) comb, List.length_map, treeGo_addWord _ xs ne (le_refl _) words]
  rfl

/-! ### One store of an engine -/

theorem markWatch_shape (s : State) (agent modno : Nat) (p : Place) (n : Nat) :
    markWatch s agent modno p n = { s with parts := (markWatch s agent modno p n).parts } := by
  unfold markWatch
  split
  · split <;> rfl
  · rfl

/-- What an engine's store of `bs` at the place of its one piece does; the store's tick is no earlier than the present one. -/
theorem engStore_one (s : State) (agent a : Nat) (p : Place) (bs : List Byte) :
    MemoriesSame (applyStore s p bs).1 (engStore s agent [(a, p, bs.length)] bs).1
      ∧ s.m.ftime ≤ (engStore s agent [(a, p, bs.length)] bs).2 := by
  have one : engStore s agent [(a, p, bs.length)] bs =
      (markWatch (applyStore s p bs).1 agent 0 p bs.length, max 0 (applyStore s p bs).2) := by
    unfold engStore
    dsimp only [List.foldl_cons, List.foldl_nil]
    rw [List.take_length]
  rw [one]
  refine ⟨?_, (applyStore_tw s p bs).trans (le_max_right ..)⟩
  rw [markWatch_shape]
  exact ⟨rfl, rfl, rfl, fun _ => rfl⟩

/-- A RED whose store of `bs` at one place turns it into `z tw`, `tw` being the store's tick. -/
theorem redStore_done (s : State) (id a : Nat) (p : Place) (bs : List Byte) (z : Nat → Red) :
    let x := engStore s 3 [(a, p, bs.length)] bs
    let t := { x.1 with reds := Tbl.set x.1.reds id (z x.2) }
    PlaceWritten s t p bs ∧ Tbl.look t.reds id = some (z x.2) ∧ s.m.ftime ≤ x.2 := by
  obtain ⟨memories, later⟩ := engStore_one s 3 a p bs
  intro x t
  exact ⟨placeWritten_apply (s := s) (u := s) ⟨rfl, fun _ => ⟨rfl, rfl⟩⟩ ⟨rfl, rfl, rfl, fun _ => rfl⟩ memories, Tbl.look_set_same .., later⟩

/-! ### Stripes and the flag word (R184) -/

theorem exec_redStripe (id i : Nat) (s : State) : exec (.redStripe id i) s = execRedStripe id i s := rfl
theorem exec_redFlagStore (id : Nat) (s : State) : exec (.redFlagStore id) s = execRedFlagStore id s := rfl
theorem exec_redCompletion (id : Nat) (s : State) : exec (.redCompletion id) s = execRedCompletion id s := rfl

theorem length_flatMap_bytesOfNat {α : Type} (k : Nat) (v : α → Nat) (l : List α) :
    (l.flatMap fun x => bytesOfNat k (v x)).length = k * l.length := by
  rw [List.length_flatMap]
  simp [Nat.mul_comm]

/-- The bytes that a stripe writes: for each element the tree over the sources' rows. -/
theorem fst_compute (y : Red) (s : State) (a n : Nat) :
    let w := if y.op = 1 then 2 else 4
    let rows := (y.srcs.zip y.places).map fun x =>
      (cutPlaces x.2 (x.1 + w * ((a - y.dst) / 4)) (w * (n / 4))).flatMap fun c => peek s c.2.1 c.2.2
    (y.compute s a n).1 = (List.range (n / 4)).flatMap fun e =>
      bytesOfNat 4 (redElem y.op (rows.map fun bs => natOfBytes ((bs.drop (w * e)).take w))).1 := by
  intro w rows
  unfold Red.compute
  dsimp only
  rw [List.flatMap_map]

/-- A stripe not made before, whose places were found and can be reached, writes its bytes. -/
theorem redStripe_stores {s : State} {id i a n : Nat} {y : Red} (look : Tbl.look s.reds id = some y) (running : y.done = false)
    (checked : y.checked = true) (fresh : i ∉ y.stripes) (kept : i ∉ y.lost) (stripe : y.stripe i = some (a, n))
    (near : ∀ x ∈ y.pieces a n, goneAway s x.2.1 = false) :
    let x := engStore s 3 (cutPlaces y.dplaces a n) (y.compute s a n).1
    exec (.redStripe id i) s = .next { x.1 with reds := Tbl.set x.1.reds id { y with
      stripes := y.stripes ++ [i], flags := y.flags ||| (y.compute s a n).2, tw := max y.tw x.2 } } := by
  have free : (y.done || y.stripes.contains i || y.lost.contains i) = false := by simp [running, fresh, kept]
  have reach : (y.pieces a n).find? (fun x => goneAway s x.2.1) = none := List.find?_eq_none.2 fun x hx => by simp [near x hx]
  rw [exec_redStripe, execRedStripe, look]
  dsimp only
  rw [if_neg (by rw [free]; exact Bool.false_ne_true), stripe, if_pos checked]
  dsimp only
  rw [reach]

/-- The flag word is stored once every stripe has completed. -/
theorem redFlagStore_stores {s : State} {id a v : Nat} {y : Red} {l : List (Nat × Place × Nat)} (at_ : y.fplaces = l)
    (look : Tbl.look s.reds id = some y) (running : y.done = false)
    (flag : y.flag = some (a, v)) (owed : y.flagged = false) (swept : y.swept = true) (whole : y.lost = []) (complete : y.tw ≤ s.m.ftime)
    (near : ∀ x ∈ l, goneAway s x.2.1 = false) :
    let x := engStore s 3 l (bytesOfNat 8 v)
    exec (.redFlagStore id) s = .next { x.1 with reds := Tbl.set x.1.reds id { y with flagged := true, tw := max y.tw x.2 } } := by
  subst at_
  have due : y.flagDue s.m.ftime = true := by simp [Red.flagDue, flag, running, owed, swept, whole, complete]
  have reach : y.fplaces.any (fun x => goneAway s x.2.1) = false := List.any_eq_false.2 fun x hx => by simp [near x hx]
  rw [exec_redFlagStore, execRedFlagStore, look]
  dsimp only
  rw [flag]
  dsimp only
  rw [due, reach]
  rfl

/-! ### Nothing to sweep away, still -/

theorem recs_of_core {s : State} {P : CoRec → Prop} (all : ∀ c ∈ s.cores, ∀ r ∈ c.2.recs, P r.2) (n : Nat) :
    ∀ r ∈ (s.core n).recs, P r.2 := by
  intro r hr
  cases found : Tbl.look s.cores n with
  | none => rw [State.core, Tbl.get, found] at hr; cases hr
  | some x => rw [State.core, Tbl.get, found] at hr; exact all _ (mem_of_look found) r hr

/-- A group that is written, its producers as they were, leaves nothing to sweep away. -/
theorem nothingSwept_setGroup {s : State} {gid : Nat} {g k : Group} (quiet : NothingSwept s) (look : Tbl.look s.groups gid = some g)
    (prods : k.prods = g.prods) : NothingSwept (s.setGroup gid k) := by
  obtain ⟨alive, teams, due, recs, waits⟩ := quiet
  have groups : ∀ x ∈ (s.setGroup gid k).groups, ∀ p ∈ x.2.prods, p.2.due.all (fun t => decide (s.m.ftime < t)) = true := by
    intro x hx
    rw [State.setGroup_groups] at hx
    rcases (Tbl.mem_ins ..).1 hx with rfl | hx
    · rw [show ({ k with wrote := [] } : Group).prods = g.prods from prods]
      exact due _ (mem_of_look look)
    · exact due x (Tbl.mem_del hx).1
  have cores : ∀ c ∈ (s.setGroup gid k).cores, ∀ r ∈ c.2.recs, r.2.engine = true → r.2.stage2 = true := by
    unfold State.setGroup
    dsimp only
    split
    · exact recs
    · intro c hc
      rcases Tbl.mem_put hc with ⟨rfl, -⟩ | hc
      · exact recs_of_core (P := fun r => r.engine = true → r.stage2 = true) recs k.ident.core
      · exact recs c hc
  have shape := State.setGroup_shape s gid k
  generalize s.setGroup gid k = u at groups cores shape
  rw [shape]
  exact ⟨alive, teams, groups, cores, waits⟩

theorem nothingSwept_orTsf {s : State} (quiet : NothingSwept s) (tid : Nat) (fl : BitVec 5) : NothingSwept (s.orTsf tid fl) := by
  unfold State.orTsf
  split
  · exact quiet
  · split
    · exact quiet
    · next t look =>
      obtain ⟨alive, teams, due, recs, waits⟩ := quiet
      refine ⟨alive, fun x hx => ?_, due, recs, waits⟩
      rcases (Tbl.mem_ins ..).1 hx with rfl | hx
      · exact teams (tid, t) (mem_of_look look)
      · exact teams x (Tbl.mem_del hx).1

/-! ### The completion (R184, R213, R216) -/

/-- A group whose horizon has risen to `tw`. -/
def redRaised (g : Group) (tw : Nat) : Group := { g with csr := { g.csr with wh := max g.csr.wh tw } }

/-- The same with RD one lower. -/
def redRetired (g : Group) (tw : Nat) : Group :=
  { redRaised g tw with wrote := [], csr := { (redRaised g tw).csr with rd := (redRaised g tw).csr.rd - 1 } }

/-- A RED has raised its flags and its group's horizon. -/
def redCompleted (s : State) (y : Red) : State := (s.orTsf y.tid y.flags).setGroup y.gid (redRaised (s.group y.gid) y.tw)

/-- It is gone, with RD one lower. -/
def redEnded (s : State) (id : Nat) (y : Red) : State :=
  { redCompleted s y with reds := Tbl.del (Tbl.set s.reds id { y with done := true }) id }.setGroup y.gid
    (redRetired (s.group y.gid) y.tw)

theorem look_redCompleted (s : State) (y : Red) :
    Tbl.look (redCompleted s y).groups y.gid = some { redRaised (s.group y.gid) y.tw with wrote := [] } := by
  rw [redCompleted, State.setGroup_groups, Tbl.look_set_same]

section
variable {s : State} {id : Nat} {y : Red} (live : (Tbl.look s.groups y.gid).isSome = true)
include live

theorem raiseWh_redCompleted : raiseWh (s.orTsf y.tid y.flags) y.gid y.tid y.tw = redCompleted s y := by
  unfold raiseWh
  rw [State.orTsf_groups, look_group live]
  rfl

/-- The one RED of its group in flight retires with its completion. -/
theorem retireReds_ended (sorted : Tbl.sorted s.reds = true) (only : ∀ c ∈ s.reds, c.2.gid = y.gid → c.1 = id) :
    let u := raiseWh (s.orTsf y.tid y.flags) y.gid y.tid y.tw
    retireReds { u with reds := Tbl.set u.reds id { y with done := true } } y.gid = redEnded s id y := by
  intro u
  have raised : u = redCompleted s y := raiseWh_redCompleted live
  have reds : (redCompleted s y).reds = s.reds := by rw [redCompleted, State.setGroup_reds, State.orTsf_reds]
  have retired := retireTbl_one (mine := fun c : Red => c.gid == y.gid) (done := fun c => c.done) (id := id)
    (t := Tbl.set s.reds id { y with done := true }) (x := { y with done := true }) (Tbl.sorted_set _ _ sorted)
    (fun c hc mine => by
      rcases (Tbl.mem_ins ..).1 hc with rfl | hc
      · rfl
      · exact only c (Tbl.mem_del hc).1 (by simpa using mine)) (Tbl.look_set_same ..) (by simp) rfl
  have listed := look_redCompleted s y
  rw [raised, reds, redEnded]
  generalize redCompleted s y = v at listed
  unfold retireReds countDown
  dsimp only
  rw [retired, listed]
  rfl

theorem nothingSwept_redEnded (quiet : NothingSwept s) : NothingSwept (redEnded s id y) := by
  have raised : NothingSwept (redCompleted s y) := nothingSwept_setGroup (g := s.group y.gid) (nothingSwept_orTsf quiet y.tid y.flags)
    (by rw [State.orTsf_groups]; exact look_group live) rfl
  have reds : NothingSwept { redCompleted s y with reds := Tbl.del (Tbl.set s.reds id { y with done := true }) id } := raised
  exact nothingSwept_setGroup reds (look_redCompleted s y) rfl
end

theorem teams_redEnded (s : State) (id : Nat) (y : Red) : (redEnded s id y).teams = (s.orTsf y.tid y.flags).teams := by
  rw [redEnded, State.setGroup_teams]
  exact State.setGroup_teams ..

theorem memoriesSame_redEnded (s : State) (id : Nat) (y : Red) : MemoriesSame s (redEnded s id y) := by
  have raised : MemoriesSame s (redCompleted s y) := MemoriesSame.trans (memoriesSame_orTsf ..) (memoriesSame_setGroup ..)
  have reds : MemoriesSame s { redCompleted s y with reds := Tbl.del (Tbl.set s.reds id { y with done := true }) id } := raised
  exact MemoriesSame.trans reds (memoriesSame_setGroup ..)

/-- What the completion of a RED without a fault does (R184 step 6). -/
theorem redCompletion_ends {s : State} {id : Nat} {y : Red} (look : Tbl.look s.reds id = some y) (running : y.done = false)
    (swept : y.swept = true) (flagged : y.flag = none ∨ y.flagged = true) (sound : y.fault = none)
    (complete : y.tw ≤ s.m.ftime) (quiet : NothingSwept s) (only : ∀ c ∈ s.reds, c.2.gid = y.gid → c.1 = id)
    (sorted : Tbl.sorted s.reds = true) (live : (Tbl.look s.groups y.gid).isSome = true) :
    exec (.redCompletion id) s = .next (redEnded s id y) := by
  have due : (y.done || !y.swept || (y.flag.isSome && y.lost.isEmpty && !y.flagged) || decide (s.m.ftime < y.tw)) = false := by
    rcases flagged with none_ | stored
    · simp [running, swept, none_, complete]
    · simp [running, swept, stored, complete]
  rw [exec_redCompletion, execRedCompletion, look]
  dsimp only
  rw [if_neg (by rw [due]; exact Bool.false_ne_true)]
  split
  · next x failed => rw [sound] at failed; cases failed
  · rw [retireReds_ended live sorted only, sweep_fixed (nothingSwept_redEnded live quiet)]

/-- A stripe and the flag word are one store of the engine each; the completion retires the RED. -/
theorem reduceSteps : Claim.ReduceSteps := by
  intro s id y look running w
  refine ⟨fun i a n p rows checked fresh kept stripe near rows_eq cut pos whole => ?_, fun xs => redElem_sum,
    fun a v p flag owed swept whole complete at_ near => ?_,
    fun swept flagged whole sound complete quiet only sorted live => ?_⟩
  · have step := redStripe_stores look running checked fresh kept stripe near
    have bytes := fst_compute y s a n
    have length : (y.compute s a n).1.length = n := by
      rw [bytes, length_flatMap_bytesOfNat, List.length_range]; omega
    rw [cut] at step
    obtain ⟨written, listed, later⟩ := redStore_done s id a p (y.compute s a n).1 fun tw =>
      { y with stripes := y.stripes ++ [i], flags := y.flags ||| (y.compute s a n).2, tw := max y.tw tw }
    rw [length] at written listed later
    refine ⟨_, _, step, ?_, listed, rfl, later.trans (le_max_right ..), rfl⟩
    rw [rows_eq, ← bytes]
    exact written
  · have step := redFlagStore_stores at_ look running flag owed swept whole complete (by simpa using near)
    obtain ⟨written, listed, later⟩ := redStore_done s id a p (bytesOfNat 8 v) fun tw => { y with flagged := true, tw := max y.tw tw }
    rw [length_bytesOfNat] at written listed later
    exact ⟨_, _, step, written, listed, rfl, later.trans (le_max_right ..)⟩
  · refine ⟨_, redCompletion_ends look running swept flagged sound complete quiet only sorted live, ?_, memoriesSame_redEnded s id y,
      fun x hx => ?_, ?_⟩
    · rw [redEnded, State.setGroup_reds]; exact Tbl.look_del_same ..
    · rw [State.team, Tbl.get, teams_redEnded, State.look_orTsf, if_pos rfl, hx]; rfl
    · rw [Retired, redEnded, State.group_setGroup_same]; rfl

end Sys2Proof.Proofs
end

section
/-!
PROOF. A block that a word reads at its issue (R183, R210) does not depend on the hold latches.
-/

namespace Sys2Proof.Proofs

open Sys2Proof.Machine Sys2Proof.Claim

/-! ### Translations and other cores (R261) -/

/-- The state with another table of cores. -/
def withCores (s : State) (x : Tbl Core) : State := { s with cores := x }

theorem markPage_withCores (s : State) (x : Tbl Core) (n : Nat) : markPage (withCores s x) n = withCores (markPage s n) x := by
  unfold markPage
  rw [show (withCores s x).reverse = s.reverse from rfl]
  split
  · rfl
  · dsimp only
    rw [show ∀ p, (withCores s x).part p = s.part p from fun _ => rfl]
    split <;> rfl

theorem markAll_withCores (x : Tbl Core) (ns : List Nat) : ∀ s : State, markAll (withCores s x) ns = withCores (markAll s ns) x := by
  induction ns with
  | nil => exact fun _ => rfl
  | cons n ns ih => intro s; exact (congrArg (markAll · ns) (markPage_withCores s x n)).trans (ih _)

theorem clearRoot_withCores (e : TlbE) (s : State) (x : Tbl Core) (n : Nat) : clearRoot e (withCores s x) n = withCores (clearRoot e s n) x := by
  unfold clearRoot
  dsimp only
  rw [markDirty_eq, markDirty_eq]
  exact markAll_withCores x _ { s with mem := s.mem.clear (e.final + (65536 * n - e.ia)) 65536, rootPages := s.rootPages ++ [(e.part, n)] }

theorem newRoots_withCores (s : State) (x : Tbl Core) (e : TlbE) : newRoots (withCores s x) e = withCores (newRoots s e) x := by
  have each : ∀ (ns : List Nat) (s : State), ns.foldl (clearRoot e) (withCores s x) = withCores (ns.foldl (clearRoot e) s) x := fun ns => by
    induction ns with
    | nil => exact fun _ => rfl
    | cons n ns ih => intro s; exact (congrArg (ns.foldl (clearRoot e)) (clearRoot_withCores e s x n)).trans (ih _)
  exact each _ s

theorem tlbEntry_withCores {s t : State} {p va : Nat} {e : TlbE} (x : Tbl Core) (h : tlbEntry s p va = .ok (t, e)) :
    tlbEntry (withCores s x) p va = .ok (withCores t x, e) := by
  unfold tlbEntry at h ⊢
  rw [show (withCores s x).tlb = s.tlb from rfl, show walkPage (withCores s x) p va = walkPage s p va from rfl]
  split at h
  · cases h; rfl
  · split at h
    · next e' _ =>
      cases h
      exact congrArg (fun v => Except.ok (v, e)) (newRoots_withCores { s with tlb := s.tlb ++ [e] } x e)
    · cases h

/-- A translation reads no core. -/
theorem translate_withCores {s t : State} {p va : Nat} {w f : Bool} {e : TlbE} (x : Tbl Core)
    (h : Machine.translate s p va w f = .ok (t, e)) : Machine.translate (withCores s x) p va w f = .ok (withCores t x, e) := by
  obtain ⟨entry, c1, c2, c3⟩ := translate_ok.1 h
  exact translate_ok.2 ⟨tlbEntry_withCores x entry, c1, c2, c3⟩

/-- Nor do the group's stores that a range may meet. -/
theorem storePending_withCores {s : State} {gid va n : Nat} (x : Tbl Core) (clear : storePending s gid va n = false) :
    storePending (withCores s x) gid va n = false := by
  unfold storePending at clear ⊢
  rw [List.any_eq_false] at clear ⊢
  intro c hc
  have here := clear c hc
  dsimp only at here ⊢
  rw [show (withCores s x).group gid = s.group gid from rfl]
  split
  · exact Bool.false_ne_true
  · next v e found =>
    have back : Machine.translate s (s.group gid).ident.part c.1 false false = .ok (withCores v s.cores, e) :=
      translate_withCores (s := withCores s x) s.cores found
    rw [back] at here
    exact here

/-! ### Blocks read at issue (R183, R210) -/

/-- What a read at issue may change: memory that translations touch, the TLB, and the copies in the caches. -/
def ReadOnly (s t : State) : Prop :=
  t = { s with
    mem := t.mem, domainMem := t.domainMem, free := t.free, tlb := t.tlb, rootPages := t.rootPages
    copies1 := t.copies1, leases := t.leases }

/-- The cores of `x` are those of `s` but for the hold latches. -/
def SameCores (s : State) (x : Tbl Core) : Prop := ∀ n, { (withCores s x).core n with latch := [] } = { s.core n with latch := [] }

theorem SameCores.l1 {s : State} {x : Tbl Core} (same : SameCores s x) (n : Nat) :
    ((withCores s x).core n).fused = (s.core n).fused ∧ ((withCores s x).core n).bnd2 = (s.core n).bnd2 :=
  ⟨show ({ (withCores s x).core n with latch := [] } : Core).fused = _ by rw [same n],
    show ({ (withCores s x).core n with latch := [] } : Core).bnd2 = _ by rw [same n]⟩

theorem l1Core_withCores {s : State} {x : Tbl Core} (same : SameCores s x) (part core line : Nat) :
    l1Core (withCores s x) part core line = l1Core s part core line := by
  unfold l1Core
  rw [(same.l1 core).1]
  rfl

theorem putCopy_withCores {s : State} {x : Tbl Core} (same : SameCores s x) (live : List LineCopy) (c : LineCopy) :
    putCopy (withCores s x) live c = putCopy s live c := by
  unfold putCopy l1Lines
  rw [(same.l1 c.core).2]
  rfl

theorem copyAt_withCores {s : State} {x : Tbl Core} (same : SameCores s x) (part core : Nat) (pol : W32) (p : Place) :
    copyAt (withCores s x) part core pol p = copyAt s part core pol p := by
  unfold copyAt
  split
  · rw [l1Core_withCores same]; rfl
  · rfl

theorem missAt_withCores {s : State} {x : Tbl Core} (same : SameCores s x) (part core : Nat) (pol : W32) (p : Place) (n : Nat) :
    missAt (withCores s x) part core pol p n = missAt s part core pol p n := by
  unfold missAt
  split
  · simp only [copyAt_withCores same]; rfl
  · rfl

theorem loadAt_withCores {s : State} {x : Tbl Core} (same : SameCores s x) (part lid core : Nat) (pol : W32) (p : Place) (n : Nat) (ev : Bool) :
    loadAt (withCores s x) part lid core pol p n ev = (withCores (loadAt s part lid core pol p n ev).1 x, (loadAt s part lid core pol p n ev).2) := by
  unfold loadAt
  cases p with
  | pa a root ro =>
    dsimp only
    rw [l1Core_withCores same, show (withCores s x).copies1 = s.copies1 from rfl, show (withCores s x).m = s.m from rfl]
    generalize (if root = true then 0 else polLease pol) = cls
    by_cases free : cls = 0
    · simp only [free, if_true]
      rfl
    · simp only [free, if_false, putCopy_withCores same]
      split <;> rfl
  | dom a => rfl
  | sp t off => rfl
  | host a => rfl

/-! ### Folds of steps that may fail -/

/-- A fold of steps that may fail, followed by another whose steps keep a relation. -/
theorem foldl_bind_sim {ε σ τ ι : Type} {f : σ → ι → Except ε σ} {g : τ → ι → Except ε τ} {R : σ → τ → Prop}
    (step : ∀ a b i a', R a b → f a i = .ok a' → ∃ b', g b i = .ok b' ∧ R a' b') (l : List ι) : ∀ {a a' : σ} {b : τ}, R a b →
    l.foldl (fun (r : Except ε σ) i => r.bind (f · i)) (.ok a) = .ok a' →
    ∃ b', l.foldl (fun (r : Except ε τ) i => r.bind (g · i)) (.ok b) = .ok b' ∧ R a' b' := by
  have failed : ∀ (l : List ι) (e : ε), l.foldl (fun (r : Except ε σ) i => r.bind (f · i)) (.error e) = .error e := fun l e => by
    induction l with
    | nil => rfl
    | cons i l ih => exact ih
  induction l with
  | nil => intro a a' b r h; cases h; exact ⟨b, rfl, r⟩
  | cons i l ih =>
    intro a a' b r h
    rw [List.foldl_cons] at h ⊢
    change l.foldl _ (f a i) = _ at h
    change ∃ b', l.foldl _ (g b i) = _ ∧ _
    cases first : f a i with
    | error e => rw [first, failed] at h; cases h
    | ok c =>
      rw [first] at h
      obtain ⟨d, second, r'⟩ := step a b i c r first
      rw [second]
      exact ih r' h

/-! ### A block -/

/-- The lines of a piece, loaded one after another. -/
def readLines (i : Ident) (pol : W32) (root ro : Bool) (s : State) (ls : List (Nat × Nat)) : State × List Byte :=
  ls.foldl (fun r x => let (s, b) := loadAt r.1 i.part i.lid i.core pol (.pa x.1 root ro) x.2 false; (s, r.2 ++ b)) (s, [])

/-- One page of a block that is read at issue. -/
def readPiece (i : Ident) (pol : W32) (r : State × List Byte) (c : Nat × Nat) : Except Trap (State × List Byte) :=
  (Machine.translate r.1 i.part c.1 false false).bind fun (s, e) =>
    if e.remote && polScope pol != 4 then .error { cause := Cause.prot, tval := BitVec.ofNat 64 c.1 }
    else match missAt s i.part i.core pol (e.place c.1) c.2 with
    | some o => .error (memueAt (c.1 + o) false)
    | none => match e.place c.1 with
      | .pa p root ro => .ok ((readLines i pol root ro s (linePieces p c.2)).1, r.2 ++ (readLines i pol root ro s (linePieces p c.2)).2)
      | .dom p => .ok (s, r.2 ++ s.domainMem.bytes p c.2)
      | _ => .ok (s, r.2)

theorem groupRead_eq (s : State) (g : Group) (pol : W32) (va n : Nat) : groupRead s g pol va n =
    (pagePieces va n).foldl (fun r c => r.bind (readPiece g.ident pol · c)) (.ok (s, [])) := rfl

theorem ReadOnly.refl (s : State) : ReadOnly s s := rfl

theorem ReadOnly.trans {a b c : State} (h : ReadOnly a b) (k : ReadOnly b c) : ReadOnly a c := by
  unfold ReadOnly at *
  rw [k, h]

theorem MemoryOnly.readOnly {s t : State} (h : MemoryOnly s t) : ReadOnly s t := by
  unfold MemoryOnly at h
  rw [ReadOnly, h]

theorem loadAt_readOnly (s : State) (part lid core : Nat) (pol : W32) (p : Place) (n : Nat) (ev : Bool) :
    ReadOnly s (loadAt s part lid core pol p n ev).1 := by
  obtain ⟨cs, ls, shape⟩ := loadAt_shape s part lid core pol p n ev
  rw [shape]
  rfl

theorem SameCores.readOnly {s t : State} {x : Tbl Core} (same : SameCores s x) (h : ReadOnly s t) : SameCores t x := by
  rw [h]; exact same

theorem readLines_withCores (i : Ident) (pol : W32) (root ro : Bool) (x : Tbl Core) (ls : List (Nat × Nat)) : ∀ {s : State}, SameCores s x →
    ReadOnly s (readLines i pol root ro s ls).1
      ∧ readLines i pol root ro (withCores s x) ls = (withCores (readLines i pol root ro s ls).1 x, (readLines i pol root ro s ls).2) := by
  have each : ∀ {s : State} (bs : List Byte), SameCores s x → 
      let fold := fun (r : State × List Byte) => ls.foldl (fun r x =>
        let (s, b) := loadAt r.1 i.part i.lid i.core pol (.pa x.1 root ro) x.2 false; (s, r.2 ++ b)) r
      ReadOnly s (fold (s, bs)).1 ∧ fold (withCores s x, bs) = (withCores (fold (s, bs)).1 x, (fold (s, bs)).2) := by
    induction ls with
    | nil => exact fun _ _ => ⟨rfl, rfl⟩
    | cons l ls ih =>
      intro s bs same
      have here := loadAt_readOnly s i.part i.lid i.core pol (.pa l.1 root ro) l.2 false
      obtain ⟨rest, step⟩ := ih (bs ++ (loadAt s i.part i.lid i.core pol (.pa l.1 root ro) l.2 false).2) (same.readOnly here)
      refine ⟨here.trans rest, ?_⟩
      dsimp only [List.foldl_cons]
      rw [loadAt_withCores same]
      exact step
  exact fun {s} same => each (s := s) [] same

/-- A page of a block is read alike whatever the hold latches are. -/
theorem readPiece_withCores {i : Ident} {pol : W32} {s t : State} {x : Tbl Core} {bs cs : List Byte} {c : Nat × Nat} (same : SameCores s x)
    (h : readPiece i pol (s, bs) c = .ok (t, cs)) : ReadOnly s t ∧ readPiece i pol (withCores s x, bs) c = .ok (withCores t x, cs) := by
  unfold readPiece at h ⊢
  dsimp only at h ⊢
  cases found : Machine.translate s i.part c.1 false false with
  | error e => rw [found] at h; cases h
  | ok r =>
    obtain ⟨v, e⟩ := r
    have only := (translate_only found).readOnly
    rw [found] at h
    rw [translate_withCores x found]
    simp only [Except.bind] at h ⊢
    rw [missAt_withCores (same.readOnly only)]
    split at h
    · cases h
    · next near =>
      rw [if_neg near]
      split at h
      · cases h
      · split at h
        · next p root ro _ =>
          cases h
          obtain ⟨lines, step⟩ := readLines_withCores i pol root ro x (linePieces p c.2) (same.readOnly only)
          rw [step]
          exact ⟨only.trans lines, rfl⟩
        · cases h; exact ⟨only, rfl⟩
        · cases h; exact ⟨only, rfl⟩

theorem groupRead_withCores {s t : State} {x : Tbl Core} {g : Group} {pol : W32} {va n : Nat} {bs : List Byte} (same : SameCores s x)
    (h : groupRead s g pol va n = .ok (t, bs)) : ReadOnly s t ∧ groupRead (withCores s x) g pol va n = .ok (withCores t x, bs) := by
  rw [groupRead_eq] at h ⊢
  obtain ⟨r, step, only, rfl⟩ := foldl_bind_sim (R := fun (a b : State × List Byte) => ReadOnly s a.1 ∧ b = (withCores a.1 x, a.2))
    (f := readPiece g.ident pol) (g := readPiece g.ident pol) (fun a b c a' ⟨only, e⟩ ha => by
      obtain ⟨here, step⟩ := readPiece_withCores (same.readOnly only) ha
      exact ⟨_, by rw [e]; exact step, only.trans here, rfl⟩) _ (a := (s, [])) ⟨ReadOnly.refl s, rfl⟩ h
  exact ⟨only, step⟩

end Sys2Proof.Proofs
end

section
/-!
PROOF. The issue of a RED (R183, R424, R425).
-/

namespace Sys2Proof.Proofs

open Sys2Proof.Machine Sys2Proof.Claim

/-! ### Checks that pass -/

theorem guardPolicy_ok {c : Ctx} {g : Group} (uses : List Use) (ok : PolicyOk g c.f) : guardPolicy c g uses = .ok () := by
  obtain ⟨there, valid⟩ := ok
  unfold guardPolicy
  rw [scalTraps_ok there, busyScals_nil there, valid]
  rfl

theorem guardN_ok {b : Bool} (h : b = true) (cause tval : Nat) : guardN b cause tval = .ok () := if_pos h

theorem guardW_ok {b : Bool} (h : b = true) : guardW b = .ok () := if_pos h

/-- Outside deterministic launches a store of an engine has no owner to check (R256). -/
theorem detCheck_free {s : State} {g : Group} (free : s.flag g.ident.lid 0 = false) (kind : DetKind) (va n : Nat) :
    detCheck s g kind va n = .ok () := by
  unfold detCheck detOwn
  rw [free]
  rfl

/-- With every watchpoint off no access is watched (R278). -/
theorem watchCheck_off {g : Group} (off : ∀ x ∈ g.csr.watch, x.2.getLsbD 63 = false) (sub va n : Nat) (r w : Bool) :
    watchCheck g sub va n r w = .ok () := by
  have none_ : ∀ w, watchHit g va n w = none := by
    intro w
    unfold watchHit
    rw [List.filterMap_eq_nil_iff.2 fun x hx => ?_]
    · rfl
    · simp only [off x hx, Bool.false_and, Bool.false_eq_true, if_false]
  unfold watchCheck
  rw [none_, none_]
  cases r <;> cases w <;> simp

theorem guardAligns_ok {l : List (Nat × Nat)} (h : ∀ c ∈ l, c.1 % c.2 = 0) : guardAligns l = .ok () := by
  induction l with
  | nil => rfl
  | cons c l ih =>
    rw [guardAligns, guardN_ok (by simp [h c (List.mem_cons_self ..)])]
    exact ih fun d hd => h d (List.mem_cons_of_mem _ hd)

/-! ### The issue of a RED (R183, R424) -/

/-- The number of `k` bytes at offset `o` of a block. -/
def blockField (b : List Byte) (o k : Nat) : Nat := natOfBytes ((b.drop o).take k)

/-- The sources that a list names. -/
def redSources (b l : List Byte) : List Nat := (List.range (blockField b 1 1)).map fun i => natOfBytes ((l.drop (8 * i)).take 8)

/-- Bytes of a source element. -/
def redWidth (b : List Byte) : Nat := if blockField b 0 1 = 1 then 2 else 4

/-- A control block and source list that RED admits. -/
structure RedBlock (b l : List Byte) : Prop where
  op : blockField b 0 1 ≤ 3
  two : 2 ≤ blockField b 1 1
  most : blockField b 1 1 ≤ 16
  wants : blockField b 2 2 ≤ 1
  some_ : blockField b 4 4 ≠ 0
  rows : blockField b 4 4 % 32 = 0
  count : blockField b 4 4 ≤ 2 ^ 24
  zeros : ∀ x ∈ b.drop 0x28, x = 0
  list : blockField b 8 8 % 8 = 0
  flag : blockField b 0x18 8 % 8 = 0
  dst : blockField b 0x10 8 % 128 = 0
  srcs : ∀ a ∈ redSources b l, a % (32 * redWidth b) = 0
  apart : ∀ a ∈ redSources b l, ¬ (overlaps a (redWidth b * blockField b 4 4) (blockField b 0x10 8) (4 * blockField b 4 4) = true
    ∧ ¬ (a = blockField b 0x10 8 ∧ redWidth b = 4))
  flagApart : blockField b 2 2 = 1 → overlaps (blockField b 0x18 8) 8 (blockField b 0x10 8) (4 * blockField b 4 4) = false
    ∧ ∀ a ∈ redSources b l, overlaps (blockField b 0x18 8) 8 a (redWidth b * blockField b 4 4) = false

theorem redBadField_none {b l : List Byte} (ok : RedBlock b l) : redBadField b = none := by
  have zeros : (b.drop 0x28).any (· != 0) = false := List.any_eq_false.2 fun x hx => by simp [ok.zeros x hx]
  have := ok.op; have := ok.two; have := ok.most; have := ok.wants; have := ok.some_; have := ok.rows; have := ok.count
  unfold blockField at *
  unfold redBadField
  dsimp only
  rw [if_neg (by omega), if_neg (by simp only [Bool.or_eq_true, decide_eq_true_eq]; omega), if_neg (by omega),
    if_neg (by simp only [Bool.or_eq_true, decide_eq_true_eq, bne_iff_ne]; omega), zeros]
  rfl

/-- The control block's address. -/
def redAddr (g : Group) (f : Fields) : Nat := match f.a with | .s n => (g.scal n.val).toNat | _ => 0

/-- The reduction that a block and its list describe. -/
def redOf (g : Group) (f : Fields) (gid : Nat) (b l : List Byte) : Red :=
  { gid := gid, tid := g.ident.tid, part := g.ident.part, seq := g.seq, op := blockField b 0 1, srcs := redSources b l, count := blockField b 4 4
    dst := blockField b 0x10 8, flag := if blockField b 2 2 = 1 then some (blockField b 0x18 8, blockField b 0x20 8) else none, pol := policy g f }

/-- The reduction in flight under the next number, RD one higher and a sequence value taken. -/
def redIssued (s : State) (gid : Nat) (y : Red) : State :=
  let u := (nextSeq s gid).2
  { u with nextId := u.nextId + 1, reds := Tbl.set u.reds u.nextId y }.setGroup gid
    { u.group gid with csr := { (u.group gid).csr with rd := (u.group gid).csr.rd + 1 } }

/-- A RED that passes its checks: it reads its block in `s1`'s and its list in `s2`'s memory, no store of the group being on the way. -/
structure RedReads (s s1 s2 : State) (gid : Nat) (f : Fields) (b l : List Byte) : Prop where
  policy : PolicyOk (s.group gid) f
  there : Delivered (s.group gid) [f.a]
  line : redAddr (s.group gid) f % 64 = 0
  clear : storePending s gid (redAddr (s.group gid) f) 64 = false
  block : groupRead s (s.group gid) (Machine.policy (s.group gid) f) (redAddr (s.group gid) f) 64 = .ok (s1, b)
  clearList : storePending s1 gid (blockField b 8 8) (8 * blockField b 1 1) = false
  list : groupRead s1 (s.group gid) (Machine.policy (s.group gid) f) (blockField b 8 8) (8 * blockField b 1 1) = .ok (s2, l)
  free : s.flag (s.group gid).ident.lid 0 = false
  off : ∀ x ∈ (s.group gid).csr.watch, x.2.getLsbD 63 = false
  room : (s.group gid).csr.rd < 255

theorem sameCores_self (s : State) : SameCores s s.cores := fun _ => rfl

theorem RedReads.readOnly {s s1 s2 : State} {gid : Nat} {f : Fields} {b l : List Byte} (r : RedReads s s1 s2 gid f b l) : ReadOnly s s2 := by
  obtain ⟨first, -⟩ := groupRead_withCores (sameCores_self s) r.block
  exact first.trans (groupRead_withCores (sameCores_self s1) r.list).1

/-- It does so whatever the hold latches are. -/
theorem RedReads.relatch {s s1 s2 : State} {gid : Nat} {f : Fields} {b l : List Byte} (r : RedReads s s1 s2 gid f b l) {x : Tbl Core}
    (same : SameCores s x) : RedReads (withCores s x) (withCores s1 x) (withCores s2 x) gid f b l := by
  obtain ⟨first, block⟩ := groupRead_withCores same r.block
  obtain ⟨-, list⟩ := groupRead_withCores (same.readOnly first) r.list
  exact ⟨r.policy, r.there, r.line, storePending_withCores x r.clear, block, storePending_withCores x r.clearList, list, r.free, r.off, r.room⟩

theorem readBlock_ok {s t : State} {g : Group} {pol : W32} {va n : Nat} {bs : List Byte} (h : groupRead s g pol va n = .ok (t, bs)) :
    readBlock s g pol va n = .ok (t, bs) := by
  unfold readBlock
  rw [h]

theorem bind_ok {ε α β : Type} {x : Except ε α} {a : α} {k : α → Except ε β} (h : x = .ok a) : (x >>= k) = k a := by rw [h]; rfl

theorem ite_bind_ok {ε α β : Type} {p : Prop} [Decidable p] {x : Except ε α} {a : α} {k : α → Except ε β} (h : x = .ok a) :
    (if p then x >>= k else k a) = k a := by rw [bind_ok h, ite_self]

theorem redSrcLen_eq (b : List Byte) (count : Nat) : redSrcLen (blockField b 0 1) count = redWidth b * count := by
  unfold redSrcLen redWidth
  split <;> rfl

section
variable {b l : List Byte} (ok : RedBlock b l)
include ok

theorem RedBlock.aligns : guardAligns ([(blockField b 0x18 8, 8), (blockField b 0x10 8, 128)]
    ++ (redSources b l).map fun a => (a, if blockField b 0 1 = 1 then 64 else 128)) = .ok () := by
  refine guardAligns_ok fun c hc => ?_
  simp only [List.cons_append, List.nil_append, List.mem_cons, List.mem_map] at hc
  rcases hc with rfl | rfl | ⟨a, ha, rfl⟩
  · exact ok.flag
  · exact ok.dst
  · have multiple := ok.srcs a ha
    by_cases half : blockField b 0 1 = 1
    · simpa only [redWidth, half, if_true] using multiple
    · simpa only [redWidth, half, if_false] using multiple

/-- No source meets the destination, but for one that is the destination. -/
theorem RedBlock.noneMeets : ((redSources b l).any fun a =>
    overlaps a (redSrcLen (blockField b 0 1) (blockField b 4 4)) (blockField b 0x10 8) (4 * blockField b 4 4)
      && !(a == blockField b 0x10 8 && redSrcLen (blockField b 0 1) (blockField b 4 4) == 4 * blockField b 4 4)) = false := by
  rw [List.any_eq_false, redSrcLen_eq]
  intro a ha meets
  have apart := ok.apart a ha
  have some_ := ok.some_
  simp only [Bool.and_eq_true, Bool.not_eq_true', Bool.and_eq_false_iff, beq_eq_false_iff_ne] at meets
  refine apart ⟨meets.1, fun same => ?_⟩
  rw [same.2] at meets
  simp [same.1] at meets

/-- Nor does a flag word that is to be stored. -/
theorem RedBlock.flagMeets : (decide (blockField b 2 2 = 1) && (overlaps (blockField b 0x18 8) 8 (blockField b 0x10 8) (4 * blockField b 4 4)
    || (redSources b l).any fun a => overlaps (blockField b 0x18 8) 8 a (redSrcLen (blockField b 0 1) (blockField b 4 4)))) = false := by
  by_cases wants : blockField b 2 2 = 1
  · obtain ⟨dst, srcs⟩ := ok.flagApart wants
    rw [dst, List.any_eq_false.2 fun a ha => by rw [redSrcLen_eq, srcs a ha]; exact Bool.false_ne_true]
    simp
  · simp [wants]
end

theorem group_nextSeq (s : State) (gid : Nat) : (nextSeq s gid).2.group gid = { nextSeqOf (s.group gid) with wrote := [] } :=
  State.group_setGroup_same ..

theorem red_run {f : Fields} {s s1 s2 : State} {gid sub : Nat} {b l : List Byte} (issuing : Issuing s gid sub)
    (reads : RedReads (holdLatch s (ctx (.red f) f s gid sub)) s1 s2 gid f b l) (ok : RedBlock b l) :
    exec (.red f) s = .next (settleGroup (ctx (.red f) f s gid sub) false s (.ok (redIssued s2 gid (redOf (s.group gid) f gid b l)))) := by
  have only := reads.readOnly
  obtain ⟨policy_, there, line, clear, block, clearList, list, free, off, room⟩ := reads
  have group : s2.group gid = s.group gid := by rw [only]; rfl
  have free : s2.flag (s.group gid).ident.lid 0 = false := by rw [only]; exact free
  have described : redOf (s.group gid) f gid b l =
      { redOf ((nextSeq s2 gid).2.group gid) f gid b l with seq := (s2.group gid).seq } := by
    rw [group_nextSeq, group]; rfl
  show execRed f s = _
  rw [execRed, issueGroup_group issuing]
  refine congrArg (fun x => Host.Outcome.next (settleGroup _ false s x)) ?_
  refine (bind_ok (guardPolicy_ok _ policy_)).trans ?_
  refine (bind_ok (scalReady_ok there)).trans ?_
  refine (bind_ok (guardN_ok (beq_iff_eq.2 line) _ _)).trans ?_
  refine (bind_ok (guardW_ok ((Bool.not_eq_true' _).mpr clear))).trans ?_
  refine (bind_ok (readBlock_ok block)).trans ?_
  simp only [redBadField_none ok]
  refine (bind_ok (guardN_ok (beq_iff_eq.2 ok.list) _ _)).trans ?_
  refine (bind_ok (guardW_ok ((Bool.not_eq_true' _).mpr clearList))).trans ?_
  refine (bind_ok (readBlock_ok list)).trans ?_
  refine (bind_ok ok.aligns).trans ?_
  refine (bind_ok (guardN_ok ((Bool.not_eq_true' _).mpr ok.noneMeets) _ _)).trans ?_
  refine (bind_ok (guardN_ok ((Bool.not_eq_true' _).mpr ok.flagMeets) _ _)).trans ?_
  refine (bind_ok (detCheck_free free ..)).trans ?_
  refine (ite_bind_ok (detCheck_free free ..)).trans ?_
  refine (bind_ok (watchCheck_off off ..)).trans ?_
  refine (bind_ok (watchCheck_off off ..)).trans ?_
  refine (bind_ok (guardW_ok (decide_eq_true room))).trans ?_
  rw [described]
  rfl

/-! ### The end of the issue -/

theorem tbl_del_ins {α : Type} {t : List (Nat × α)} {k : Nat} (absent : Tbl.look t k = none) (v : α) : Tbl.del (Tbl.ins t k v) k = t := by
  induction t with
  | nil => simp [Tbl.ins, Tbl.del]
  | cons c t ih =>
    obtain ⟨j, y⟩ := c
    have ne : j ≠ k := fun e => by simp [Tbl.look, e] at absent
    have rest : Tbl.look t k = none := by simpa [Tbl.look, ne] using absent
    by_cases lt : k < j
    · simp [Tbl.ins, Tbl.del, lt, ne, Tbl.del_absent rest]
    · simp [Tbl.ins, Tbl.del, lt, ne, ih rest]

/-- The later of two entries for a key stands. -/
theorem tbl_set_set {α : Type} (t : List (Nat × α)) (k : Nat) (v w : α) : Tbl.set (Tbl.set t k v) k w = Tbl.set t k w := by
  rw [Tbl.set, Tbl.set, tbl_del_ins (Tbl.look_del_same t k)]
  rfl

/-- A state whose group alone has been written before takes the same group as one where it has not. -/
theorem latchesAside_rewritten {e v : State} {gid : Nat} {z g h : Group} (groups : v.groups = Tbl.set e.groups gid z)
    (aside : LatchesAside { e with groups := v.groups } v) (same : ({ h with wrote := [] } : Group) = { g with wrote := [] }) :
    LatchesAside (e.setGroup gid g) (v.setGroup gid h) := by
  obtain ⟨shape, cores⟩ := aside
  refine ⟨?_, fun n => by rw [State.setGroup_core, State.setGroup_core, cores]; rfl⟩
  rw [State.setGroup_shape v, State.setGroup_shape e, State.setGroup_groups, State.setGroup_groups, groups, tbl_set_set, same, shape]

/-- What the issue of a RED leaves, but for the hold latches. -/
def redEffect (s : State) (gid : Nat) (y : Red) : State :=
  { s with nextId := s.nextId + 1, reds := Tbl.set s.reds s.nextId y }.setGroup gid
    { nextSeqOf (s.group gid) with csr := { (s.group gid).csr with rd := (s.group gid).csr.rd + 1 } }

theorem latchesAside_redIssued {s : State} {x : Tbl Core} (same : SameCores s x) (gid : Nat) (y : Red) :
    LatchesAside (redEffect s gid y) (redIssued (withCores s x) gid y) := by
  have shape := State.setGroup_shape (withCores s x) gid (nextSeqOf (s.group gid))
  have cores := State.setGroup_core (withCores s x) gid (nextSeqOf (s.group gid))
  refine latchesAside_rewritten (z := { nextSeqOf (s.group gid) with wrote := [] }) ?_ ⟨?_, fun n => (cores n).trans (same n)⟩ ?_
  · exact State.setGroup_groups ..
  · change (nextSeq (withCores s x) gid).2 = { withCores s x with
      groups := (nextSeq (withCores s x) gid).2.groups, cores := (nextSeq (withCores s x) gid).2.cores } at shape
    generalize (nextSeq (withCores s x) gid).2 = u at shape ⊢
    rw [shape]
    rfl
  · rw [group_nextSeq]; rfl

/-- The block and list are read alike after the hold latch, every check passes, and the reduction starts. -/
theorem reduceIssue : Claim.ReduceIssue := by
  intro f s s1 s2 gid sub b l issuing policy_ there g part va n count list dst flag srcs w meets pol line block clear op two most wants
    some_ rows le zeros list8 clearList read flag8 dst128 apart flagApart free off room
  have ok : RedBlock b l := ⟨op, two, most, wants, some_, rows, le, zeros, list8, flag8, dst128, fun a ha => (apart a ha).1,
    fun a ha => (apart a ha).2, flagApart⟩
  have reads : RedReads s s1 s2 gid f b l := ⟨policy_, there, line, clear, block, clearList, read, free, off, room⟩
  have only := reads.readOnly
  have same : SameCores s (holdLatch s (ctx (.red f) f s gid sub)).cores := holdLatch_core s _
  have run := red_run issuing (reads.relatch same) ok
  have effect := latchesAside_redIssued (same.readOnly only) gid (redOf (s.group gid) f gid b l)
  have group : s2.group gid = s.group gid := by rw [only]; rfl
  have done := does_of effect (by simp [redEffect]) (by simp [redEffect, group]) (by simp [redEffect, group]) run
  unfold redEffect at done
  rw [group] at done
  rw [show s2.nextId = s.nextId by rw [only], show s2.reds = s.reds by rw [only]] at done
  exact done

/-- Settles O30: the issue reads block and list and starts the reduction, and each of its steps stores or completes as R184 says. -/
theorem reductionsInMemory : Obligations.ReductionsInMemory := ⟨reduceIssue, reduceSteps⟩

end Sys2Proof.Proofs
end

section
/-!
PROOF. The quantiser of the layer instructions (R108).
-/

namespace Sys2Proof.Proofs

open Sys2Proof.Machine

/-! ### Magnitudes of BF16 (R80) -/

/-- The significand of a finite BF16 word without its sign. -/
def bf16Sig (y : Nat) : Nat := if y < 128 then y else y % 128 + 128

/-- The exponent of its last place, counted from 2^−134. -/
def bf16Exp (y : Nat) : Nat := max 1 (y / 128)

/-- The larger of two words without signs is the larger in magnitude. -/
theorem bf16_magnitude_mono : Monotone fun y => bf16Sig y * 2 ^ bf16Exp y := by
  refine monotone_nat_of_le_succ fun y => ?_
  rcases lt_trichotomy y 127 with small | rfl | large
  · have h : bf16Exp (y + 1) = bf16Exp y := by unfold bf16Exp; omega
    have hs : bf16Sig y ≤ bf16Sig (y + 1) := by unfold bf16Sig; split <;> split <;> omega
    rw [h]
    exact Nat.mul_le_mul_right _ hs
  · decide
  · by_cases wraps : y % 128 = 127
    · have h : bf16Exp (y + 1) = bf16Exp y + 1 := by unfold bf16Exp; omega
      have hs : bf16Sig y ≤ bf16Sig (y + 1) * 2 := by unfold bf16Sig; split <;> split <;> omega
      rw [h, pow_succ', ← mul_assoc]
      exact Nat.mul_le_mul_right _ hs
    · have h : bf16Exp (y + 1) = bf16Exp y := by unfold bf16Exp; omega
      have hs : bf16Sig y ≤ bf16Sig (y + 1) := by unfold bf16Sig; split <;> split <;> omega
      rw [h]
      exact Nat.mul_le_mul_right _ hs

/-- The reading of R80 with the numbers of BF16. -/
theorem bf16_read (x : Nat) : FFmt.bf16.read x =
    let neg := x / 32768 % 2 == 1
    let sgn := fun (m : Nat) => if neg then -(m : Int) else (m : Int)
    if x / 128 % 256 = 255 then (if x % 128 = 0 then .inf neg else .nan (decide (x % 128 < 64)))
    else if x / 128 % 256 = 0 then (if x % 128 = 0 then .zero neg else .fin (sgn (x % 128)) (1 - 127 - 7))
    else .fin (sgn (x % 128 + 128)) ((x / 128 % 256 : Nat) - 127 - 7) := rfl

theorem bf16_read_zero {x : Nat} (zero : x % 2 ^ 15 = 0) : ∃ neg, FFmt.bf16.read x = .zero neg := by
  have ex : x / 128 % 256 = 0 := by omega
  have fr : x % 128 = 0 := by omega
  exact ⟨x / 32768 % 2 == 1, by simp [bf16_read, ex, fr]⟩

/-- A finite BF16 word that is not zero, by its significand and exponent. -/
theorem bf16_read_fin {x : Nat} (nonzero : x % 2 ^ 15 ≠ 0) (finite : x % 2 ^ 15 < 0x7F80) : ∃ m,
    FFmt.bf16.read x = .fin m ((bf16Exp (x % 2 ^ 15) : Int) - 134) ∧ m.natAbs = bf16Sig (x % 2 ^ 15) := by
  have signed : ∀ (n : Bool) (k : Nat), (if n then -(k : Int) else k).natAbs = k := fun n k => by cases n <;> simp
  have notMax : x / 128 % 256 ≠ 255 := by omega
  by_cases sub : x / 128 % 256 = 0
  · have fr : x % 128 ≠ 0 := by omega
    have sig : bf16Sig (x % 2 ^ 15) = x % 128 := by unfold bf16Sig; split <;> omega
    have exp : bf16Exp (x % 2 ^ 15) = 1 := by unfold bf16Exp; omega
    refine ⟨_, ?_, (signed (x / 32768 % 2 == 1) (x % 128)).trans sig.symm⟩
    simp only [bf16_read, if_neg notMax, if_pos sub, if_neg fr, exp]
    rfl
  · have sig : bf16Sig (x % 2 ^ 15) = x % 128 + 128 := by unfold bf16Sig; split <;> omega
    have exp : (bf16Exp (x % 2 ^ 15) : Int) - 134 = (x / 128 % 256 : Nat) - 127 - 7 := by unfold bf16Exp; omega
    refine ⟨_, ?_, (signed (x / 32768 % 2 == 1) (x % 128 + 128)).trans sig.symm⟩
    simp only [bf16_read, if_neg notMax, if_neg sub, exp]

/-! ### The scale -/

/-- |m| × 2^e ≤ 127 × 2^k, both exponents counted from where they cannot be negative. -/
theorem fits_iff (a q k : Nat) :
    a * 2 ^ (((q : Int) - 134) - ((k : Int) - 140)).toNat ≤ 127 * 2 ^ (((k : Int) - 140) - ((q : Int) - 134)).toNat
      ↔ a * 2 ^ (q + 6) ≤ 127 * 2 ^ k := by
  rcases Nat.le_total k (q + 6) with low | high
  · have h1 : (((q : Int) - 134) - ((k : Int) - 140)).toNat = q + 6 - k := by omega
    have h2 : (((k : Int) - 140) - ((q : Int) - 134)).toNat = 0 := by omega
    rw [h1, h2, ← Nat.sub_add_cancel low, pow_add, ← mul_assoc, Nat.mul_le_mul_right_iff (by positivity)]
    simp
  · have h1 : (((q : Int) - 134) - ((k : Int) - 140)).toNat = 0 := by omega
    have h2 : (((k : Int) - 140) - ((q : Int) - 134)).toNat = k - (q + 6) := by omega
    rw [h1, h2, ← Nat.sub_add_cancel high, pow_add 2 (k - (q + 6)), ← mul_assoc, Nat.mul_le_mul_right_iff (by positivity)]
    simp

/-- The scale that the leading bit of the largest magnitude gives is the least that fits (R108). -/
theorem leading_bit_scale {a : Nat} (pos : a ≠ 0) (q : Nat) :
    let k := a.log2 + q + if 64 * a ≤ 127 * 2 ^ a.log2 then 0 else 1
    a * 2 ^ (q + 6) ≤ 127 * 2 ^ k ∧ ∀ j, j + 1 = k → ¬ a * 2 ^ (q + 6) ≤ 127 * 2 ^ j := by
  have low : 2 ^ a.log2 ≤ a := Nat.log2_self_le pos
  have high : a < 2 * 2 ^ a.log2 := by rw [← pow_succ']; exact Nat.lt_log2_self
  have scaled : ∀ x y : Nat, x * 2 ^ (q + 6) ≤ 127 * 2 ^ (y + q) ↔ 64 * x ≤ 127 * 2 ^ y := fun x y => by
    rw [pow_add 2 y, pow_add 2 q, show x * (2 ^ q * 2 ^ 6) = 64 * x * 2 ^ q by ring, ← mul_assoc]
    exact Nat.mul_le_mul_right_iff (by positivity)
  by_cases fits : 64 * a ≤ 127 * 2 ^ a.log2
  · simp only [if_pos fits, add_zero, scaled]
    refine ⟨fits, fun j next within => ?_⟩
    have doubled : 2 * a * 2 ^ (q + 6) ≤ 127 * 2 ^ (a.log2 + q) := by
      rw [← next, pow_succ' 2 j, mul_assoc 2 a, mul_left_comm 127 2]
      exact Nat.mul_le_mul_left 2 within
    rw [scaled] at doubled
    omega
  · simp only [if_neg fits, show a.log2 + q + 1 = a.log2 + 1 + q by omega, scaled]
    rw [pow_succ']
    refine ⟨by omega, fun j next within => fits ((scaled a a.log2).1 ?_)⟩
    rwa [show a.log2 + q = j by omega]

/-- What fits the scale rounds to a code of 127 at most (R108). -/
theorem roundInt_within {m e : Int} (fits : m.natAbs * 2 ^ e.toNat ≤ 127 * 2 ^ (-e).toNat) :
    -127 ≤ (roundInt .rne m e).1 ∧ (roundInt .rne m e).1 ≤ 127 := by
  suffices h : (roundAt .rne (decide (m < 0)) m.natAbs e 0).1 ≤ 127 by
    simp only [roundInt]
    split <;> omega
  unfold roundAt
  split
  case isTrue whole =>
    have : (-e).toNat = 0 := by omega
    simpa [this] using fits
  case isFalse part =>
    have h0 : e.toNat = 0 := by omega
    rw [h0, pow_zero, mul_one] at fits
    simp only [zero_sub]
    generalize (-e).toNat = d at fits ⊢
    have bound : m.natAbs / 2 ^ d ≤ 127 := Nat.div_le_of_le_mul (by rwa [mul_comm])
    have split := Nat.div_add_mod m.natAbs (2 ^ d)
    by_cases top : m.natAbs / 2 ^ d = 127
    · have none : m.natAbs % 2 ^ d = 0 := by rw [top] at split; omega
      have below : compare 0 (2 ^ d) = .lt := compare_lt_iff_lt.2 (by positivity)
      simp [top, none, roundUp, below]
    · split <;> omega

/-! ### The largest magnitude -/

/-- The largest encoding without its sign that a list holds; 0 of an empty list. -/
def topMagnitude (xs : List Nat) : Nat := (xs.map (· % 2 ^ 15)).foldl max 0

theorem foldl_max_le_iff (l : List Nat) (a n : Nat) : l.foldl max a ≤ n ↔ a ≤ n ∧ ∀ x ∈ l, x ≤ n := by
  induction l generalizing a with
  | nil => simp
  | cons x l ih => simp [ih, and_assoc]

theorem topMagnitude_le_iff (xs : List Nat) (n : Nat) : topMagnitude xs ≤ n ↔ ∀ x ∈ xs, x % 2 ^ 15 ≤ n := by
  simp [topMagnitude, foldl_max_le_iff]

theorem le_topMagnitude {xs : List Nat} {x : Nat} (mem : x ∈ xs) : x % 2 ^ 15 ≤ topMagnitude xs :=
  (topMagnitude_le_iff xs _).1 le_rfl x mem

/-- Where some element is not zero, the largest magnitude is an element's. -/
theorem topMagnitude_mem {xs : List Nat} (nonzero : topMagnitude xs ≠ 0) : ∃ x ∈ xs, x % 2 ^ 15 = topMagnitude xs := by
  by_contra none
  push Not at none
  have below : topMagnitude xs ≤ topMagnitude xs - 1 := (topMagnitude_le_iff xs _).2 fun x mem => by
    have := le_topMagnitude mem
    have := none x mem
    omega
  omega

/-! ### The quantiser -/

/-- The code of an element at scale k, without the clamp. -/
def codeAt (k : Int) (x : Nat) : Int := match FFmt.bf16.read x with | .fin m e => (roundInt .rne m (e - k)).1 | _ => 0

theorem quantise_of_infinite {xs : List Nat} (infinite : ∃ x ∈ xs, 0x7F80 ≤ x % 2 ^ 15) : quantise xs = none := by
  obtain ⟨x, mem, large⟩ := infinite
  exact if_pos (large.trans (le_topMagnitude mem))

theorem quantise_of_zeros {xs : List Nat} (zeros : ∀ x ∈ xs, x % 2 ^ 15 = 0) : quantise xs = some (0, xs.map fun _ => 0) := by
  have top : topMagnitude xs = 0 := Nat.le_zero.1 ((topMagnitude_le_iff xs 0).2 fun x mem => (zeros x mem).le)
  have finite : ¬ 0x7F80 ≤ topMagnitude xs := by omega
  refine (if_neg finite).trans ?_
  change (match FFmt.bf16.read (topMagnitude xs) with | .fin m e => _ | _ => _) = _
  rw [top]
  rfl

/-- Every element is at most 127 × 2^k (R108). -/
def Fits (xs : List Nat) (k : Int) : Prop :=
  ∀ x ∈ xs, ∀ m e, FFmt.bf16.read x = .fin m e → m.natAbs * 2 ^ (e - k).toNat ≤ 127 * 2 ^ (k - e).toNat

/-- All elements fit a scale that the largest magnitude fits. -/
theorem fits_iff_top {xs : List Nat} (finite : ∀ x ∈ xs, x % 2 ^ 15 < 0x7F80) (nonzero : topMagnitude xs ≠ 0) (k : Nat) :
    Fits xs ((k : Int) - 140) ↔ bf16Sig (topMagnitude xs) * 2 ^ (bf16Exp (topMagnitude xs) + 6) ≤ 127 * 2 ^ k := by
  constructor
  · intro fits
    obtain ⟨x, mem, top⟩ := topMagnitude_mem nonzero
    obtain ⟨m, read, sig⟩ := bf16_read_fin (top ▸ nonzero) (finite x mem)
    have := fits x mem m _ read
    rwa [fits_iff, sig, top] at this
  · intro fits x mem m e read
    by_cases zero : x % 2 ^ 15 = 0
    · obtain ⟨neg, isZero⟩ := bf16_read_zero zero
      simp [isZero] at read
    · obtain ⟨m', read', sig⟩ := bf16_read_fin zero (finite x mem)
      obtain ⟨rfl, rfl⟩ := FV.fin.inj (read'.symm.trans read)
      rw [fits_iff, sig]
      refine le_trans ?_ fits
      simp only [pow_add, ← mul_assoc]
      exact Nat.mul_le_mul_right _ (bf16_magnitude_mono (le_topMagnitude mem))

/-- The clamp never changes a code at a scale that fits (R108). -/
theorem clamped_codeAt {xs : List Nat} {k : Int} (fits : Fits xs k) {x : Nat} (mem : x ∈ xs) :
    (match FFmt.bf16.read x with | .fin m e => max (-127) (min 127 (roundInt .rne m (e - k)).1) | _ => 0) = codeAt k x := by
  unfold codeAt
  split
  next m e read =>
    obtain ⟨low, high⟩ := roundInt_within (m := m) (e := e - k) (by rw [neg_sub]; exact fits x mem m e read)
    rw [min_eq_right high, max_eq_right low]
  next => rfl

/-- The quantiser by the largest magnitude. -/
theorem quantise_of_top {xs : List Nat} (finite : topMagnitude xs < 0x7F80) {m e : Int}
    (read : FFmt.bf16.read (topMagnitude xs) = .fin m e) :
    let k : Int := m.natAbs.log2 + e - if 64 * m.natAbs ≤ 127 * 2 ^ m.natAbs.log2 then 6 else 5
    quantise xs = some (k, xs.map fun x => match FFmt.bf16.read x with
      | .fin m e => max (-127) (min 127 (roundInt .rne m (e - k)).1) | _ => 0) := by
  refine (if_neg (show ¬ 0x7F80 ≤ topMagnitude xs by omega)).trans ?_
  change (match FFmt.bf16.read (topMagnitude xs) with | .fin m e => _ | _ => _) = _
  generalize FFmt.bf16.read (topMagnitude xs) = top at read ⊢
  subst read
  rfl

/-- A finite input with an element that is not zero has the least scale that fits, and its codes are exact (R108). -/
theorem quantise_of_finite {xs : List Nat} (finite : ∀ x ∈ xs, x % 2 ^ 15 < 0x7F80) (nonzero : ∃ x ∈ xs, x % 2 ^ 15 ≠ 0) :
    ∃ k, Fits xs k ∧ ¬ Fits xs (k - 1) ∧ quantise xs = some (k, xs.map (codeAt k)) := by
  obtain ⟨z, zmem, znonzero⟩ := nonzero
  have top0 : topMagnitude xs ≠ 0 := fun h => znonzero (by have := le_topMagnitude zmem; omega)
  obtain ⟨x, mem, top⟩ := topMagnitude_mem top0
  have topFinite : topMagnitude xs < 0x7F80 := top ▸ finite x mem
  have topLow : topMagnitude xs % 2 ^ 15 = topMagnitude xs := by omega
  obtain ⟨m, read, sig⟩ := bf16_read_fin (topLow.symm ▸ top0) (topLow.symm ▸ topFinite)
  rw [topLow] at read sig
  have pos : bf16Sig (topMagnitude xs) ≠ 0 := by unfold bf16Sig; split <;> omega
  have exp1 : 1 ≤ bf16Exp (topMagnitude xs) := le_max_left ..
  obtain ⟨fits, least⟩ := leading_bit_scale pos (bf16Exp (topMagnitude xs))
  have fitsTop := fits_iff_top finite top0
  obtain ⟨k, hk⟩ : ∃ k, (bf16Sig (topMagnitude xs)).log2 + bf16Exp (topMagnitude xs)
      + (if 64 * bf16Sig (topMagnitude xs) ≤ 127 * 2 ^ (bf16Sig (topMagnitude xs)).log2 then 0 else 1) = k := ⟨_, rfl⟩
  rw [hk] at fits least
  refine ⟨(k : Int) - 140, (fitsTop k).2 fits, fun below => ?_, ?_⟩
  · refine least (k - 1) (by omega) ((fitsTop (k - 1)).1 ?_)
    rwa [show ((k - 1 : Nat) : Int) - 140 = (k : Int) - 140 - 1 by omega]
  · have scale : ((m.natAbs.log2 : Int) + ((bf16Exp (topMagnitude xs) : Int) - 134)
        - if 64 * m.natAbs ≤ 127 * 2 ^ m.natAbs.log2 then 6 else 5) = (k : Int) - 140 := by
      rw [sig, ← hk]
      split <;> push_cast <;> ring
    refine (quantise_of_top topFinite read).trans ?_
    simp only [scale]
    exact congrArg (fun l => some (_, l)) (List.map_congr_left fun x mem => clamped_codeAt ((fitsTop k).2 fits) mem)

/-- Settles O39: an infinite input, an input of zeros, and the leading bit of the largest magnitude. -/
theorem quantiser : Obligations.Quantiser :=
  fun _ _ => ⟨quantise_of_infinite, quantise_of_zeros, quantise_of_finite⟩

end Sys2Proof.Proofs
end

section
/-!
PROOF. ABND.load reads its block before it checks it (R328, R329): the translation of the block's address can clear ROOT pages
(R192) that hold the candidate's exponents.
-/

namespace Sys2Proof.Proofs

open Sys2Proof.Machine Sys2Proof.Claim

/-! ### The checks of ABND.load -/

/-- The address of the candidate block. -/
def blockAddr (g : Group) (f : Fields) : Nat := match f.a with | .s k => (g.scal k.val).toNat | _ => 0

theorem guardPriv_ok {c : Ctx} {s : State} (priv : (s.launch (c.g s).ident.lid).priv = true) : guardPriv c s = .ok () := by
  unfold guardPriv
  rw [priv]
  rfl

theorem storePending_quiet {s : State} (quiet : s.accesses = []) (gid va n : Nat) : storePending s gid va n = false := by
  unfold storePending
  rw [quiet, List.any_eq_false]
  intro c _
  dsimp only
  split <;> simp

/-- A candidate that does not keep R101 to R103, as memory stands once the block has been read, gets code 2. -/
theorem abndLoad_unfit {f : Fields} {s v : State} {gid sub : Nat} {bs : List Byte} (issuing : Issuing s gid sub)
    (priv : (s.launch (s.group gid).ident.lid).priv = true) (there : Delivered (s.group gid) [f.a])
    (line : blockAddr (s.group gid) f % 128 = 0) (clear : storePending s gid (blockAddr (s.group gid) f) 128 = false)
    (read : groupRead s (s.group gid) (policy (s.group gid) f) (blockAddr (s.group gid) f) 128 = .ok (v, bs))
    (free : (s.bind (bindIndex f)).state = 0) (unfit : candidateOk v bs = false) :
    Does (.abndLoad f) s gid sub (nextPc f s gid sub) (withS v gid f.d 2) := by
  let c := ctx (.abndLoad f) f s gid sub
  have same : SameCores s (holdLatch s c).cores := holdLatch_core s c
  obtain ⟨only, latched⟩ := groupRead_withCores same read
  have group : v.group gid = s.group gid := by rw [only]; rfl
  have unbound : ((withCores v (holdLatch s c).cores).bind (bindIndex f)).free = true := by
    rw [show (withCores v (holdLatch s c).cores).bind (bindIndex f) = s.bind (bindIndex f) by rw [only]; rfl]
    exact beq_iff_eq.2 free
  have run : exec (.abndLoad f) s = .next (settleGroup c false s
      (.ok ((withCores v (holdLatch s c).cores).setGroup gid ((s.group gid).putS f.d 2)))) := by
    show execAbndLoad f s = _
    rw [execAbndLoad, issueGroup_group issuing]
    refine congrArg (fun x => Host.Outcome.next (settleGroup _ false s x)) ?_
    refine (bind_ok (guardPriv_ok priv)).trans ?_
    refine (bind_ok (scalReady_ok there)).trans ?_
    refine (bind_ok (guardN_ok (beq_iff_eq.2 line) _ _)).trans ?_
    refine (bind_ok (guardW_ok ((Bool.not_eq_true' _).mpr (storePending_withCores _ clear)))).trans ?_
    refine (bind_ok (readBlock_ok latched)).trans ?_
    dsimp only
    rw [unbound, show candidateOk (withCores v (holdLatch s c).cores) bs = false from unfit, ← group]
    rfl
  refine does_of (latchesAside_setGroup ⟨rfl, same.readOnly only⟩ gid _) (by simp) ?_ ?_ (by rw [group]; exact run)
  · rw [State.group_setGroup_same, group]; exact (putS_turn ..).1
  · rw [State.group_setGroup_same, group]; exact (putS_turn ..).2

/-! ### A read that reaches a new ROOT page (R192, R260) -/

/-- A page that both stages map on this module, with the leaves that the walks find. -/
theorem walkPage_of {s : State} {part va r1 r2 self ia : Nat} {a : Leaf1} {b : Leaf2} (low : va < 2 ^ 52) (root1 : (s.part part).e.root1 = r1)
    (root2 : (s.part part).e.root2 = r2) (modno : s.m.modno = self) (stage1 : walk1 s.mem self r2 va 4 r1 = .ok a) (inter : a.ia + (va - a.base) = ia)
    (stage2 : walk2 s.mem self ia 4 r2 = some b) (here : b.remote = false) :
    let size := min a.size b.size
    walkPage s part va =
      .ok ⟨part, va - va % size, size, ia - ia % size, b.final + (ia - ia % size - b.base), false, a.w, b.w, a.x, b.x, a.root, a.ns⟩ := by
  subst inter
  unfold walkPage
  rw [if_neg (Nat.not_le.2 low)]
  simp only [root1, root2, modno, stage1, bind, Except.bind, pure, Except.pure, stage2, here, Bool.and_false, Bool.false_eq_true, if_false]

/-- Where nothing is listed in the reverse table, no page is marked. -/
theorem markAll_unlisted {s : State} (none_ : s.reverse = []) (ns : List Nat) : markAll s ns = s := by
  induction ns with
  | nil => rfl
  | cons n ns ih =>
    have here : markPage s n = s := by unfold markPage; rw [none_]; rfl
    exact (congrArg (markAll · ns) here).trans ih

theorem clearRoot_unlisted {s : State} (none_ : s.reverse = []) (e : TlbE) (n : Nat) : clearRoot e s n =
    { s with mem := s.mem.clear (e.final + (65536 * n - e.ia)) 65536, rootPages := s.rootPages ++ [(e.part, n)] } := by
  unfold clearRoot
  rw [markDirty_eq]
  exact markAll_unlisted (by exact none_) _

/-- A translation that reaches one new ROOT page clears it. -/
theorem newRoots_one {s : State} {e : TlbE} {k first part page : Nat} {old : List (Nat × Nat)} (root : e.root = true) (size : e.size / 65536 = k)
    (ia : e.ia / 65536 = first) (owner : e.part = part) (recorded : s.rootPages = old)
    (fresh : (((List.range k).map (first + ·)).filter fun n => !old.contains (part, n)) = [page]) : newRoots s e = clearRoot e s page := by
  subst size ia owner recorded
  unfold newRoots
  rw [if_pos root]
  have one := congrArg (List.foldl (clearRoot e) s) fresh
  rw [List.foldl_cons, List.foldl_nil] at one
  exact one

/-- A page that the TLB does not hold yet. -/
theorem tlbEntry_miss {s : State} {part va : Nat} {e : TlbE} (empty : s.tlb = []) (walk : walkPage s part va = .ok e) :
    tlbEntry s part va = .ok (newRoots { s with tlb := [e] } e, e) := by
  unfold tlbEntry
  rw [empty, List.find?_nil, walk]
  rfl

/-- A block inside one line of a ROOT page, read where its address leads. -/
theorem groupRead_rootPage {s v : State} {g : Group} {pol : W32} {va n a : Nat} {e : TlbE} {ro : Bool}
    (translated : Machine.translate s g.ident.part va false false = .ok (v, e)) (here : e.remote = false) (place : e.place va = .pa a true ro)
    (piece : pagePieces va n = [(va, n)]) (line : linePieces a n = [(a, n)]) (readable : v.badLines = []) (uncached : v.copies1 = []) :
    groupRead s g pol va n = .ok (v, v.mem.bytes a n) := by
  have good : missAt v g.ident.part g.ident.core pol (.pa a true ro) n = none := by
    unfold missAt
    simp [line, badAt, readable]
  have load : readLines g.ident pol true ro v [(a, n)] = (v, v.mem.bytes a n) := by
    have same : ({ v with copies1 := [] } : State) = v := by rw [← uncached]
    simp [readLines, loadAt, uncached, same]
  rw [groupRead_eq, piece, List.foldl_cons, List.foldl_nil]
  show readPiece g.ident pol (s, []) (va, n) = _
  unfold readPiece
  dsimp only
  rw [translated]
  simp only [Except.bind, here, Bool.false_and, Bool.false_eq_true, if_false, place, good, line, load, List.nil_append]

/-! ### Bytes of a memory -/

/-- Of entries that agree for a key, whichever comes first is read. -/
theorem read_of_mem {m : Mem} {a : Nat} {b : Byte} (listed : (a, b) ∈ m) (only : ∀ c ∈ m, c.1 = a → c.2 = b) : m.read a = b := by
  cases found : Tbl.look m a with
  | none =>
    have absent : Tbl.del m a = m := Tbl.del_absent found
    rw [← absent] at listed
    exact absurd rfl (Tbl.mem_del listed).2
  | some x => rw [Mem.read, Tbl.get, found]; exact only _ (mem_of_look found) rfl

theorem bytes_replicate {m : Mem} {a n : Nat} {b : Byte} (all : ∀ i < n, m.read (a + i) = b) : m.bytes a n = List.replicate n b := by
  induction n generalizing a with
  | zero => rfl
  | succ n ih =>
    rw [Mem.bytes, List.replicate_succ, ih fun i hi => by rw [Nat.add_assoc, Nat.add_comm 1]; exact all (i + 1) (by omega)]
    rw [show m.read a = b from all 0 (by omega)]

/-- Entries above the bytes read do not show. -/
theorem num_append_above {m k : Mem} {a n : Nat} (above : ∀ c ∈ k, a + n ≤ c.1) : Mem.num (m ++ k) a n = Mem.num m a n := by
  have look : ∀ i < n, Tbl.look (m ++ k) (a + i) = Tbl.look m (a + i) := fun i hi => by
    have absent : Tbl.look k (a + i) = none := look_unlisted fun c hc => by have := above c hc; omega
    induction m with
    | nil => exact absent
    | cons c m ih => obtain ⟨j, x⟩ := c; simp only [List.cons_append, Tbl.look, ih]
  exact congrArg natOfBytes (Mem.bytes_congr fun i hi => by rw [Mem.read, Mem.read, Tbl.get, Tbl.get, look i hi])

/-! ### A candidate whose exponents lie in a ROOT page -/

/-- A candidate block at 0, of shape 512 × 512, on die 0: both exponent arrays at 0x30000, the map, of one word 0, at 0. -/
def candidateEntries : Mem := [(0x21, 2), (0x25, 2), (0x42, 3), (0x4A, 3), (0x5C, 1)]

/-- One table for both stages. Entry 0 is the table itself; stage 2 maps by entry 1 the 32 MiB at 2^25 onto 0, by entry 2 the table
onto its place; stage 1 maps by entry 3 the 32 MiB at 3 × 2^25, ROOT pages, onto 2^25. -/
def tableEntries : Mem := [(0x20000, 1), (0x20002, 2), (0x20008, 3), (0x20010, 3), (0x20012, 2), (0x20018, 0x13), (0x2001B, 2)]

/-- Ones at `n` addresses from `a`. -/
@[irreducible] def onesAt (a n : Nat) : Mem := (List.range n).map fun i => (a + i, 1)

/-- Of `n` pages of partition 0 from `first`, all but number `k`. -/
@[irreducible] def pagesBut (k first n : Nat) : List (Nat × Nat) := ((List.range n).filter (· != k)).map fun i => (0, first + i)

theorem mem_onesAt {a n : Nat} {c : Nat × Byte} : c ∈ onesAt a n ↔ ∃ i < n, (a + i, 1) = c := by
  simp only [onesAt, List.mem_map, List.mem_range]

theorem mem_pagesBut {k first n p : Nat} : (0, p) ∈ pagesBut k first n ↔ ∃ i < n, i ≠ k ∧ first + i = p := by
  simp only [pagesBut, List.mem_map, List.mem_filter, List.mem_range, bne_iff_ne, Prod.mk.injEq, true_and, and_assoc]

/-- Group 3, of a launch with privilege, is about to load the candidate. Of the ROOT pages only the exponents' has not been reached. -/
def unreached : State :=
  { groups := [(3, { subs := [(15, { mask := 1 })], s := [(0, 0x6000000)] })]
    launches := [(0, { priv := true })]
    parts := [(0, { e := { ({} : Part).e with root1 := 0x20000, root2 := 0x20000 } })]
    mem := candidateEntries ++ tableEntries ++ onesAt 0x30000 512
    rootPages := pagesBut 3 512 512
    issue := some ⟨.group 3 15, []⟩ }

def loadWord : Fields := { plainWord with a := .s 0, d := .s 1 }

/-- The translation of the block's address. -/
def rootEntry32M : TlbE := ⟨0, 0x6000000, 0x2000000, 0x2000000, 0, false, false, false, false, false, true, 0⟩

/-- The state once the block has been read: the exponents have gone. -/
def reached : State :=
  { unreached with
    mem := candidateEntries ++ tableEntries
    tlb := [rootEntry32M]
    rootPages := pagesBut 3 512 512 ++ [(0, 515)] }

def candidateBytes : List Byte := reached.mem.bytes 0 128

theorem num_unreached {a n : Nat} (below : a + n ≤ 0x30000) : unreached.mem.num a n = Mem.num (candidateEntries ++ tableEntries) a n :=
  num_append_above fun c hc => by
    obtain ⟨i, -, rfl⟩ := mem_onesAt.1 hc
    exact below.trans (Nat.le_add_right ..)

theorem table_unreached : unreached.mem.num 0x20000 8 = 0x20001 ∧ unreached.mem.num 0x20008 8 = 3 ∧ unreached.mem.num 0x20010 8 = 0x20003
    ∧ unreached.mem.num 0x20018 8 = 0x2000013 := by
  simp only [num_unreached (a := 0x20000) (n := 8) (by decide), num_unreached (a := 0x20008) (n := 8) (by decide),
    num_unreached (a := 0x20010) (n := 8) (by decide), num_unreached (a := 0x20018) (n := 8) (by decide)]
  decide

theorem walk2_unreached : walk2 unreached.mem 0 0x20000 4 0x20000 = some ⟨0x20000, 0x10000, 0x20000, false, false, false⟩
    ∧ walk2 unreached.mem 0 0x2000000 4 0x20000 = some ⟨0x2000000, 0x2000000, 0, false, false, false⟩ := by
  obtain ⟨self, block, table, -⟩ := table_unreached
  constructor <;> simp [walk2, self, block, table, bitN, bitsN]

/-- Entry 0 of the stage-1 table leads to the table again, at the two upper levels; entry 3 is its leaf. -/
theorem walk1_unreached :
    walk1 unreached.mem 0 0x20000 0x6000000 4 0x20000 = .ok ⟨0x6000000, 0x2000000, 0x2000000, false, false, true, 0⟩ := by
  obtain ⟨self, -, -, root⟩ := table_unreached
  obtain ⟨table, -⟩ := walk2_unreached
  have upper : walk1 unreached.mem 0 0x20000 0x6000000 4 0x20000 = walk1 unreached.mem 0 0x20000 0x6000000 3 0x20000 := by
    rw [walk1, table]
    simp [self, bitN, bitsN]
  have lower : walk1 unreached.mem 0 0x20000 0x6000000 3 0x20000 = walk1 unreached.mem 0 0x20000 0x6000000 2 0x20000 := by
    rw [walk1, table]
    simp [self, bitN, bitsN]
  rw [upper, lower, walk1, table]
  simp [root, bitN, bitsN]

theorem walk_unreached : walkPage unreached 0 0x6000000 = .ok rootEntry32M := by
  obtain ⟨-, block⟩ := walk2_unreached
  refine (walkPage_of (r1 := 0x20000) (r2 := 0x20000) (self := 0) (by decide) rfl rfl rfl walk1_unreached (by decide) block rfl).trans ?_
  decide

/-- Page `k` is the one that has not been reached. -/
theorem filter_pagesBut {k first n : Nat} (inside : k < n) :
    (((List.range n).map (first + ·)).filter fun p => !(pagesBut k first n).contains (0, p)) = [first + k] := by
  have one : ∀ i ∈ List.range n, ((fun p => !(pagesBut k first n).contains (0, p)) ∘ (first + ·)) i = (i == k) := fun i mem => by
    have small := List.mem_range.1 mem
    rw [Function.comp, Bool.not_eq_eq_eq_not, Bool.eq_iff_iff, List.contains_iff_mem, mem_pagesBut]
    simp only [Nat.add_left_cancel_iff, exists_eq_right_right, Bool.not_eq_true', beq_eq_false_iff_ne]
    omega
  have first : (List.range n).filter (· == k) = [k] := by
    rw [List.filter_beq, List.count_eq_one_of_mem List.nodup_range (List.mem_range.2 inside)]
    rfl
  rw [List.filter_map, List.filter_congr one, first]
  rfl

theorem mem_unreached : unreached.mem = candidateEntries ++ tableEntries ++ onesAt 0x30000 512 := rfl

/-- Clearing that page takes the exponents away. -/
theorem cleared_unreached : Mem.clear unreached.mem 0x30000 65536 = candidateEntries ++ tableEntries := by
  have gone : ((onesAt 0x30000 512).filter fun c => decide (c.1 < 0x30000) || decide (0x30000 + 65536 ≤ c.1)) = [] := by
    rw [List.filter_eq_nil_iff]
    intro c hc
    obtain ⟨i, hi, rfl⟩ := mem_onesAt.1 hc
    simp only [Bool.or_eq_true, decide_eq_true_eq]
    omega
  rw [mem_unreached, Mem.clear, List.filter_append, gone, List.append_nil]
  decide

/-- The translation of the block's address clears the page of the exponents. -/
theorem newRoots_unreached : newRoots { unreached with tlb := [rootEntry32M] } rootEntry32M = reached := by
  rw [newRoots_one (s := { unreached with tlb := [rootEntry32M] }) rfl (by decide) (by decide) rfl rfl (filter_pagesBut (k := 3) (by decide))]
  refine (clearRoot_unlisted rfl rootEntry32M 515).trans ?_
  have place : rootEntry32M.final + (65536 * 515 - rootEntry32M.ia) = 0x30000 := by decide
  dsimp only
  rw [place, cleared_unreached]
  rfl

theorem translate_unreached : Machine.translate unreached 0 0x6000000 false false = .ok (reached, rootEntry32M) := by
  have entry := tlbEntry_miss rfl walk_unreached
  rw [newRoots_unreached] at entry
  exact translate_ok.2 ⟨entry, rfl, rfl, rfl⟩

/-- The block is read where its address leads. -/
theorem groupRead_unreached (pol : W32) : groupRead unreached (unreached.group 3) pol 0x6000000 128 = .ok (reached, candidateBytes) :=
  groupRead_rootPage translate_unreached rfl (ro := true) (by decide) (by decide) (by decide) rfl rfl

theorem exponents_unreached : unreached.mem.bytes 0x30000 512 = List.replicate 512 1 := by
  have below : ∀ c ∈ candidateEntries ++ tableEntries, c.1 < 0x30000 := by decide
  refine bytes_replicate fun i hi => read_of_mem (List.mem_append_right _ (mem_onesAt.2 ⟨i, hi, rfl⟩)) fun c hc key => ?_
  rcases List.mem_append.1 hc with low | ones
  · have := below c low
    omega
  · obtain ⟨j, -, rfl⟩ := mem_onesAt.1 ones
    rfl

/-- The binding that the block describes. -/
def candidate : BindE := { din := 512, dout := 512, dies := 1, colE := 0x30000, rowE := 0x30000 }

theorem ofBytes_candidate : BindE.ofBytes candidateBytes = candidate := by decide

theorem tilesOf_unreached : mapWords unreached candidate = [0] ∧ tilesOf unreached candidate = [⟨0, 0, 0⟩] := by
  have word : mapWord unreached candidate 0 0 = 0 := (num_unreached (a := 0) (n := 4) (by decide)).trans (by decide)
  have words : mapWords unreached candidate = [mapWord unreached candidate 0 0] := rfl
  rw [tilesOf, words, word]
  exact ⟨rfl, by decide⟩

/-- As memory stands before, the candidate keeps R101 to R103. -/
theorem candidateOk_unreached : candidateOk unreached candidateBytes = true := by
  have exponents : colExps unreached candidate ++ rowExps unreached candidate = List.replicate 1024 1 := by
    have col : colExps unreached candidate = List.replicate 512 1 := by
      rw [colExps, show candidate.colE = 0x30000 from rfl, show candidate.dout = 512 from rfl, exponents_unreached, List.map_replicate]
      rfl
    have row : rowExps unreached candidate = List.replicate 512 1 := col
    rw [col, row, List.replicate_append_replicate]
  obtain ⟨words, tiles⟩ := tilesOf_unreached
  unfold candidateOk
  dsimp only
  rw [ofBytes_candidate, exponents, words, tiles]
  simp only [Bool.and_eq_true]
  have inRange : ((List.replicate 1024 1).all fun x => decide (1 ≤ x) && decide (x ≤ 254)) = true :=
    List.all_eq_true.2 fun x mem => by rw [List.eq_of_mem_replicate mem]; rfl
  exact ⟨⟨⟨⟨⟨⟨⟨by decide, by decide⟩, by decide⟩, by decide⟩, by decide⟩, inRange⟩, by decide⟩, by decide⟩

/-- Once the block has been read, its exponents are 0. -/
theorem candidateOk_reached : candidateOk reached candidateBytes = false := by
  have zero : reached.mem.read 0x30000 = 0 := by decide
  have first : (0 : Nat) ∈ colExps reached candidate :=
    List.mem_map.2 ⟨0, by rw [show candidate.dout = 511 + 1 from rfl, Mem.bytes, show candidate.colE = 0x30000 from rfl, zero]; simp, rfl⟩
  have bad : ((colExps reached candidate ++ rowExps reached candidate).all fun x => decide (1 ≤ x) && decide (x ≤ 254)) = false :=
    List.all_eq_false.2 ⟨0, List.mem_append_left _ first, by decide⟩
  unfold candidateOk
  dsimp only
  rw [ofBytes_candidate, bad]
  simp only [Bool.and_false, Bool.false_and]

theorem issuing_unreached : Issuing unreached 3 15 := ⟨⟨[], rfl⟩, rfl⟩

theorem blockAddr_unreached : blockAddr (unreached.group 3) loadWord = 0x6000000 := by decide

/-- The code that a word leaves in its scalar. -/
theorem scal_code (u : State) (gid sub : Nat) (n : Fin 32) (x : W64) (pc : W64) :
    (issuedAt ((withS u gid (.s n) x).group gid) sub pc).scal n = x := by
  rw [scal_issuedAt, State.group_setGroup_same]
  exact Group.scal_setScal_same ..

/-- The clause of `BindingWords` on a candidate that keeps R101 to R103 fails. -/
theorem not_bindingWords : ¬ Claim.BindingWords := by
  intro h
  obtain ⟨-, privileged, -⟩ := h loadWord unreached 3 15 issuing_unreached
  obtain ⟨load, -⟩ := privileged rfl
  have there : Delivered (unreached.group 3) [loadWord.a] := by unfold Delivered; decide
  have line : blockAddr (unreached.group 3) loadWord % 128 = 0 := by rw [blockAddr_unreached]
  have read : groupRead unreached (unreached.group 3) (policy (unreached.group 3) loadWord) (blockAddr (unreached.group 3) loadWord) 128
      = .ok (reached, candidateBytes) := by rw [blockAddr_unreached]; exact groupRead_unreached _
  have clear : storePending unreached 3 (blockAddr (unreached.group 3) loadWord) 128 = false := storePending_quiet rfl ..
  obtain ⟨-, -, -, answers⟩ := load candidateBytes there line clear reached read
  have ok : candidateOk unreached candidateBytes = true := candidateOk_unreached
  have nodup : (tilesOf unreached (BindE.ofBytes candidateBytes)).Nodup := by
    rw [ofBytes_candidate, tilesOf_unreached.2]
    exact List.nodup_singleton _
  obtain ⟨t, run, -, -, -, zero⟩ := answers rfl ok nodup
  obtain ⟨u, run', -, -, -, two⟩ := abndLoad_unfit issuing_unreached rfl there line clear read rfl candidateOk_reached
  cases run.symm.trans run'
  have code := congrArg (fun g : Group => g.scal 1) (zero.symm.trans two)
  have differ : (0 : W64) = 2 := (scal_code _ 3 15 1 0 _).symm.trans (code.trans (scal_code _ 3 15 1 2 _))
  exact absurd differ (by decide)

/-- Refutes O42: the read of the block by ABND.load can clear the ROOT page that holds the candidate's exponents, and the word
checks what then stands there (`not_bindingWords`). -/
theorem not_bindingsAndCapture : ¬ Obligations.BindingsAndCapture := fun h => not_bindingWords h.1

end Sys2Proof.Proofs
end

section
/-!
PROOF. The Laurel links and seats (R119, R120, R131): the slot tables, the request that a slot carries, and what filling the
seats of plots leaves alone.
-/

namespace Sys2Proof.Proofs

open Sys2Proof.Machine Sys2Proof.Claim

/-! ### Slot tables (R119) -/

theorem exec_linkSlotTableWrite (port : Nat) (response : Bool) (slot : Nat) (owner : BitVec 8) (s : State) :
    exec (.linkSlotTableWrite port response slot owner) s = execLinkSlotTableWrite port response slot owner s := rfl

theorem toNat_owner (v : BitVec 8) : (v &&& 0x1F).toNat = v.toNat % 32 := by
  rw [BitVec.toNat_and]
  exact Nat.and_two_pow_sub_one_eq_mod v.toNat 5

theorem slotOwner_put_same (t : Tbl (BitVec 8)) (k : Nat) (v : BitVec 8) : slotOwner (Tbl.put 31 t k v) k = v.toNat := by
  rw [slotOwner, Tbl.get_put_same]

theorem slotOwner_put_other (t : Tbl (BitVec 8)) {k j : Nat} (v : BitVec 8) (h : j ≠ k) : slotOwner (Tbl.put 31 t k v) j = slotOwner t j := by
  rw [slotOwner, slotOwner, Tbl.get_put_other _ _ _ h]

/-- A die with one entry of a slot table written. -/
def ownedSlot (x : Die) (response : Bool) (slot : Nat) (v : BitVec 8) : Die :=
  if response then { x with rspOwner := Tbl.put 31 x.rspOwner slot (v &&& 0x1F) } else { x with reqOwner := Tbl.put 31 x.reqOwner slot (v &&& 0x1F) }

/-- A slot table takes this owner (R119, R289). -/
def OwnerTaken (s : State) (v : BitVec 8) : Prop :=
  v.toNat % 32 < 24 ∧ (s.part (v.toNat % 32)).e.state ≠ 0 ∨ 30 ≤ v.toNat % 32

theorem tableWrite_taken {s : State} {port slot : Nat} {v : BitVec 8} (response : Bool) (hp : port < 16) (hk : slot < 256) (taken : OwnerTaken s v) :
    exec (.linkSlotTableWrite port response slot v) s = .next (s.setDie port (ownedSlot (s.die port) response slot v)) := by
  rw [exec_linkSlotTableWrite, execLinkSlotTableWrite]
  simp only [toNat_owner]
  rw [if_neg]
  · rfl
  · simp only [Bool.or_eq_true, Bool.and_eq_true, decide_eq_true_eq, beq_iff_eq]
    unfold OwnerTaken at taken
    omega

theorem tableWrite_refused {s : State} {port slot : Nat} {v : BitVec 8} (response : Bool) (refused : 16 ≤ port ∨ 256 ≤ slot ∨ ¬ OwnerTaken s v) :
    exec (.linkSlotTableWrite port response slot v) s = .next s := by
  rw [exec_linkSlotTableWrite, execLinkSlotTableWrite]
  simp only [toNat_owner]
  rw [if_pos]
  simp only [Bool.or_eq_true, Bool.and_eq_true, decide_eq_true_eq, beq_iff_eq]
  unfold OwnerTaken at refused
  omega

/-- The owners of one slot of a port alone can differ after a write. -/
theorem owners_ownedSlot (s : State) (port slot : Nat) (response : Bool) (v : BitVec 8) {p k : Nat} (other : p ≠ port ∨ k ≠ slot) :
    let t := s.setDie port (ownedSlot (s.die port) response slot v)
    slotOwner (t.die p).reqOwner k = slotOwner (s.die p).reqOwner k ∧ slotOwner (t.die p).rspOwner k = slotOwner (s.die p).rspOwner k := by
  intro t
  by_cases h : p = port
  · subst h
    have hk : k ≠ slot := other.resolve_left fun h => h rfl
    rw [show t.die p = ownedSlot (s.die p) response slot v from State.die_setDie_same ..]
    cases response
    · exact ⟨slotOwner_put_other _ _ hk, rfl⟩
    · exact ⟨rfl, slotOwner_put_other _ _ hk⟩
  · rw [show t.die p = s.die p from State.die_setDie_other _ _ h]
    exact ⟨rfl, rfl⟩

/-- The slot written has its new owner, and the other table stays. -/
theorem owner_ownedSlot (x : Die) (response : Bool) (slot : Nat) (v : BitVec 8) :
    let y := ownedSlot x response slot v
    slotOwner (if response then y.rspOwner else y.reqOwner) slot = v.toNat % 32
      ∧ if response then y.reqOwner = x.reqOwner else y.rspOwner = x.rspOwner := by
  cases response <;> exact ⟨(slotOwner_put_same ..).trans (toNat_owner v), rfl⟩

/-! ### Seats (R120) -/

/-- Filling seats changes the dies alone, and of them neither the slot tables nor what probes have used. -/
structure SeatsOnly (s t : State) : Prop where
  shape : t = { s with dies := t.dies }
  lent : ∀ d, (t.die d).lent = (s.die d).lent

namespace SeatsOnly

theorem refl (s : State) : SeatsOnly s s := ⟨rfl, fun _ => rfl⟩

theorem trans {s t u : State} (h : SeatsOnly s t) (k : SeatsOnly t u) : SeatsOnly s u :=
  ⟨by rw [k.shape, h.shape], fun d => (k.lent d).trans (h.lent d)⟩

theorem foldl {α : Type} {f : State → α → State} (hf : ∀ s x, SeatsOnly s (f s x)) (l : List α) (s : State) : SeatsOnly s (l.foldl f s) :=
  List.foldlRecOn (motive := SeatsOnly s) l f (.refl s) fun t ht x _ => ht.trans (hf t x)

end SeatsOnly

theorem seatsOnly_setDie (s : State) (d : Nat) {x : Die} (h : x.lent = (s.die d).lent) : SeatsOnly s (s.setDie d x) where
  shape := rfl
  lent k := by
    by_cases e : k = d
    · subst e; rw [State.die_setDie_same, h]
    · rw [State.die_setDie_other _ _ e]

theorem fillSeats_seatsOnly (d plot n : Nat) (s : State) : SeatsOnly s (fillSeats d plot n s) := by
  induction n generalizing s with
  | zero => exact .refl s
  | succ n ih =>
    unfold fillSeats
    dsimp only
    split
    · exact .refl s
    · split
      · exact .refl s
      · refine .trans ?_ (ih _)
        exact seatsOnly_setDie s d rfl

theorem fillPlots_seatsOnly (d : Nat) (plots : List Nat) (s : State) : SeatsOnly s (fillPlots d plots s) := by
  refine .trans ?_ (.foldl (fun s p => fillSeats_seatsOnly d p 3 s) _ _)
  exact seatsOnly_setDie s d rfl

/-! ### The request that a slot carries (R119, R131) -/

theorem exec_linkSlotStart (port slot : Nat) (s : State) : exec (.linkSlotStart port slot) s = execLinkSlotStart port slot s := rfl

/-- An attempt waits to be sent to a port. -/
def ToBeSent (port : Nat) (o : ArrOp) : Prop :=
  o.underway = true ∧ o.shadow = false ∧ Tbl.look o.sent port = none ∧ ∃ t ∈ o.tiles, t.die = port

theorem toSend_iff {port : Nat} {o : ArrOp} : o.toSend port = true ↔ ToBeSent port o := by
  unfold ArrOp.toSend ToBeSent
  simp only [Bool.and_eq_true, Bool.not_eq_true', Option.isNone_iff_eq_none, List.any_eq_true, beq_iff_eq, and_assoc]

/-- A slot of owner `v` at a port may carry an operation. -/
def Mine (s : State) (port v : Nat) (o : ArrOp) : Prop :=
  ToBeSent port o ∧ if o.dest = .epoch
    then v = 30 ∨ v = 31 ∨ v < 24 ∧ lentNow s (s.die port) v < 5 ∧ ∀ c ∈ s.arrops, c.2.owner = v → ¬ ToBeSent port c.2
    else o.owner = v

theorem mine_iff {s : State} {port v : Nat} {o : ArrOp} : (o.toSend port && mayCarry s port v o) = true ↔ Mine s port v o := by
  unfold Mine
  rw [Bool.and_eq_true, toSend_iff]
  refine and_congr_right fun _ => ?_
  unfold mayCarry
  cases dest : o.dest with
  | epoch =>
    simp only [if_true, Bool.or_eq_true, Bool.and_eq_true, beq_iff_eq, decide_eq_true_eq, Bool.not_eq_true', or_assoc, and_assoc,
      List.any_eq_false, not_and, toSend_iff]
  | slot k ep => simp
  | direct d a b => simp
  | probe d => simp

/-- In a sorted table the first entry that a slot may carry is the oldest (R119). -/
theorem find?_oldest {α : Type} {t : Tbl α} {p : Nat × α → Bool} {id : Nat} {x : α} (sorted : Tbl.sorted t = true) (look : Tbl.look t id = some x)
    (holds : p (id, x) = true) (older : ∀ c ∈ t, c.1 < id → p c = false) : t.find? p = some (id, x) := by
  induction t with
  | nil => cases look
  | cons c t ih =>
    obtain ⟨k, y⟩ := c
    by_cases hk : k = id
    · subst hk
      obtain rfl : y = x := by simpa [Tbl.look] using look
      rw [List.find?_cons, holds]
    · have rest : Tbl.look t id = some x := by simpa [Tbl.look, hk] using look
      have less : k < id := by
        have order := (Tbl.sorted_iff _).1 sorted
        rw [List.map_cons, List.pairwise_cons] at order
        exact order.1 _ (List.mem_map_of_mem (mem_of_look rest))
      rw [List.find?_cons, older (k, y) (List.mem_cons_self ..) less]
      exact ih (Tbl.sorted_of_sublist (List.sublist_cons_self ..) sorted) rest fun c hc => older c (List.mem_cons_of_mem _ hc)

theorem nextRequest_none {s : State} {port v : Nat} (none_ : ∀ c ∈ s.arrops, ¬ Mine s port v c.2) : nextRequest s port v = none :=
  List.find?_eq_none.2 fun c hc => by rw [mine_iff]; exact none_ c hc

theorem nextRequest_some {s : State} {port v id : Nat} {o : ArrOp} (sorted : Tbl.sorted s.arrops = true) (look : Tbl.look s.arrops id = some o)
    (mine : Mine s port v o) (older : ∀ c ∈ s.arrops, c.1 < id → ¬ Mine s port v c.2) : nextRequest s port v = some (id, o) :=
  find?_oldest sorted look (mine_iff.2 mine) fun c hc less => by
    rw [← Bool.not_eq_true, mine_iff]
    exact older c hc less

/-- A row request that a slot carries is for its die, waits to be sent, and travels in a slot of the provider or of no one. -/
theorem nextRow_some {s : State} {port v k : Nat} {q : RowReq} {bs : List Byte} (found : nextRow s port v = some (k, q, bs)) :
    (v = 30 ∨ v = 31) ∧ ∃ c ∈ s.rowReqs, c.1 = k ∧ c.2.die = port ∧ c.2.sent = false := by
  unfold nextRow at found
  split at found
  · cases found
  · next provider =>
    obtain ⟨⟨id, r⟩, mem, here⟩ := List.exists_of_findSome?_eq_some found
    dsimp only at here
    split at here
    · cases here
    · next waits =>
      simp only [Bool.or_eq_true, bne_iff_ne, not_or, Bool.not_eq_true, ne_eq, not_not] at waits
      split at here
      · cases here
        refine ⟨?_, _, mem, rfl, waits.1, waits.2⟩
        simp only [Bool.and_eq_true, bne_iff_ne] at provider
        omega
      · cases here

/-- A request that goes to its die (R113). -/
def sentRequest (s : State) (port id : Nat) (o : ArrOp) : State :=
  { s with
    nextId := s.nextId + 1
    arrops := Tbl.set s.arrops id { o with
      sent := Tbl.set o.sent port s.nextId, deadline := if o.sent = [] then s.m.ftime + 50000 else o.deadline } }

/-- The slot of a partition that a probe of an epoch uses is counted (R119). -/
def lentSlot (s : State) (port v : Nat) (o : ArrOp) : State := if o.dest = .epoch then lend s port v else s

theorem lentNow_congr {s t : State} {x y : Die} (ftime : t.m.ftime = s.m.ftime) (lent : y.lent = x.lent) (v : Nat) : lentNow t y v = lentNow s x v := by
  unfold lentNow
  rw [ftime, lent]

theorem lentNow_set (s : State) (x : Die) (v n : Nat) : lentNow s { x with lent := Tbl.set x.lent v (s.m.ftime / 2048, n) } v = n := by
  unfold lentNow
  rw [Tbl.look_set_same]
  exact if_pos rfl

theorem lentNow_lend (s : State) (port : Nat) {v : Nat} (part : v < 24) :
    lentNow (lend s port v) ((lend s port v).die port) v = lentNow s (s.die port) v + 1 := by
  unfold lend
  rw [if_pos part, State.die_setDie_same]
  exact lentNow_set s (s.die port) v _

theorem lend_shape (s : State) (port v : Nat) : lend s port v = { s with dies := (lend s port v).dies } := by
  unfold lend
  dsimp only
  split <;> rfl

/-- A request that is sent counts the slot, and the plots of the die fill their seats. -/
theorem sendRequest_done (s : State) (port v id : Nat) (o : ArrOp) :
    SeatsOnly (lentSlot (sentRequest s port id o) port v o) (sendRequest s port v id o) := by
  have e : sendRequest s port v id o = fillPlots port ((o.tiles.filter (·.die == port)).map (·.plot)).dedup
      (lentSlot (sentRequest s port id o) port v o) := by
    have first : (if o.sent.isEmpty = true then s.m.ftime + 50000 else o.deadline) = if o.sent = [] then s.m.ftime + 50000 else o.deadline := by
      simp only [List.isEmpty_iff]
    unfold sendRequest sentRequest
    rw [← first]
    unfold lentSlot
    cases dest : o.dest with
    | epoch =>
      rw [if_pos rfl]
      refine congrArg (fillPlots port _) ?_
      unfold lend
      dsimp only
      split <;> rfl
    | slot k ep => rfl
    | direct d a b => rfl
    | probe d => rfl
  rw [e]
  exact fillPlots_seatsOnly ..

/-- A carried request is sent, its slot counted; nothing else changes but in the dies. -/
theorem sendRequest_shape (s : State) (port v id : Nat) (o : ArrOp) :
    sendRequest s port v id o = { sentRequest s port id o with dies := (sendRequest s port v id o).dies } := by
  have counted : lentSlot (sentRequest s port id o) port v o = { sentRequest s port id o with dies := (lentSlot (sentRequest s port id o) port v o).dies } := by
    unfold lentSlot
    split
    · exact lend_shape ..
    · rfl
  have filled := (sendRequest_done s port v id o).shape
  rw [counted] at filled
  exact filled

/-- A probe's request in a partition's slot counts that slot (R119). -/
theorem sendRequest_lentNow (s : State) (port id : Nat) {v : Nat} {o : ArrOp} (probe : o.dest = .epoch) (part : v < 24) :
    lentNow (sendRequest s port v id o) ((sendRequest s port v id o).die port) v = lentNow s (s.die port) v + 1 := by
  have done := sendRequest_done s port v id o
  rw [lentSlot, if_pos probe] at done
  have time : (sendRequest s port v id o).m.ftime = (lend (sentRequest s port id o) port v).m.ftime := by rw [done.shape]
  calc lentNow (sendRequest s port v id o) ((sendRequest s port v id o).die port) v
      = lentNow (lend (sentRequest s port id o) port v) ((lend (sentRequest s port id o) port v).die port) v := lentNow_congr time (done.lent port) v
    _ = lentNow s (s.die port) v + 1 := lentNow_lend _ port part

theorem linkSlotStart_idle {s : State} {port slot : Nat} (idle : ∀ c ∈ s.arrops, ¬ Mine s port (slotOwner (s.die port).reqOwner slot) c.2)
    (row : nextRow s port (slotOwner (s.die port).reqOwner slot) = none) : exec (.linkSlotStart port slot) s = .next s := by
  rw [exec_linkSlotStart, execLinkSlotStart]
  simp only [nextRequest_none idle, row]

/-- The slot carries the oldest request that may travel in it, unless a row request is older. -/
theorem linkSlotStart_sends {s : State} {port slot id : Nat} {o : ArrOp} (sorted : Tbl.sorted s.arrops = true) (look : Tbl.look s.arrops id = some o)
    (mine : Mine s port (slotOwner (s.die port).reqOwner slot) o)
    (older : ∀ c ∈ s.arrops, c.1 < id → ¬ Mine s port (slotOwner (s.die port).reqOwner slot) c.2)
    (rows : slotOwner (s.die port).reqOwner slot = 30 ∨ slotOwner (s.die port).reqOwner slot = 31 →
      ∀ c ∈ s.rowReqs, c.2.die = port → c.2.sent = false → id ≤ c.1) :
    exec (.linkSlotStart port slot) s = .next (sendRequest s port (slotOwner (s.die port).reqOwner slot) id o) := by
  rw [exec_linkSlotStart, execLinkSlotStart]
  simp only [nextRequest_some sorted look mine older]
  cases row : nextRow s port (slotOwner (s.die port).reqOwner slot) with
  | none => rfl
  | some r =>
    obtain ⟨k, q, bs⟩ := r
    obtain ⟨provider, c, mem, rfl, here, waits⟩ := nextRow_some row
    simp only [if_pos (rows provider c mem here waits)]

end Sys2Proof.Proofs
end

section
/-!
PROOF. What becomes of an attempt on the arrays (R109, R110, R113, R115, R271): the products of its tiles, its failures, and the
ideal codes that a shadow operation takes.
-/

namespace Sys2Proof.Proofs

open Sys2Proof.Machine Sys2Proof.Claim

/-! ### A tile's product (R109, R110) -/

theorem exec_plotTileProduct (id tile : Nat) (s : State) : exec (.plotTileProduct id tile) s = execPlotTileProduct id tile s := rfl

theorem mem_dies_of_running {s : State} {d : Nat} {p : Product} (h : p ∈ (s.die d).running) : ∃ x, (d, x) ∈ s.dies ∧ p ∈ x.running := by
  unfold State.die Tbl.get at h
  cases listed : Tbl.look s.dies d with
  | none => rw [listed] at h; cases h
  | some x => rw [listed] at h; exact ⟨x, mem_of_look listed, h⟩

/-- Where every product of a tile whose time is over runs alive on one die, that die has the one which ends. -/
theorem ripeProduct_some {s : State} {id tile d : Nat} (ripe : ∃ p ∈ (s.die d).running, p.op = id ∧ p.tile = tile ∧ p.till ≤ s.m.ftime)
    (only : ∀ c ∈ s.dies, ∀ p ∈ c.2.running, p.op = id → p.tile = tile → p.till ≤ s.m.ftime → c.1 = d ∧ p.live = true) :
    ∃ p, ripeProduct s id tile = some (d, p) ∧ p.live = true := by
  obtain ⟨p, runs, hop, htile, htill⟩ := ripe
  obtain ⟨x, listed, runs⟩ := mem_dies_of_running runs
  unfold ripeProduct
  cases found : s.dies.findSome? fun (d, x) =>
      (x.running.find? fun p => p.op == id && p.tile == tile && decide (p.till ≤ s.m.ftime)).map fun p => (d, p) with
  | none =>
    have here := List.findSome?_eq_none_iff.1 found _ listed
    rw [Option.map_eq_none_iff, List.find?_eq_none] at here
    exact absurd (by simp [hop, htile, htill]) (here p runs)
  | some r =>
    obtain ⟨⟨c, y⟩, mem, here⟩ := List.exists_of_findSome?_eq_some found
    obtain ⟨q, ends, rfl⟩ := Option.map_eq_some_iff.1 here
    have ended := List.find?_some ends
    simp only [Bool.and_eq_true, beq_iff_eq, decide_eq_true_eq] at ended
    obtain ⟨⟨qop, qtile⟩, qtill⟩ := ended
    obtain ⟨rfl, live⟩ := only _ mem q (List.mem_of_find?_eq_some ends) qop qtile qtill
    exact ⟨q, rfl, live⟩

theorem replySlot_iff {x : Die} {o : ArrOp} :
    replySlot x o = true ↔ ∃ k < 256, slotOwner x.rspOwner k = o.owner ∨ slotOwner x.rspOwner k = 31 ∧ o.dest = .epoch := by
  unfold replySlot
  simp only [List.any_eq_true, List.mem_range, Bool.or_eq_true, Bool.and_eq_true, beq_iff_eq]
  cases o.dest <;> simp

/-- Codes lie in the range of the ADC (R109). -/
theorem freeCodes_range {s : State} {n : Nat} {c : Int} (h : c ∈ (freeCodes s n).2) : -2047 ≤ c ∧ c ≤ 2047 := by
  obtain ⟨i, -, rfl⟩ := List.mem_map.1 h
  omega

theorem freeCodes_length (s : State) (n : Nat) : (freeCodes s n).2.length = n := by
  rw [freeCodes, List.length_map, List.length_range]

theorem sumCodes_eq (o : ArrOp) : sumCodes o = if ∀ k < o.tiles.length, (Tbl.look o.codes k).isSome = true then
    some ((List.range 256).map fun l => o.codes.foldl (fun a c => a + (c.2[l]?).getD 0) 0) else none := by
  unfold sumCodes
  simp only [List.all_eq_true, List.mem_range]

/-- An operation with the codes of one tile, and its sums once they are all there. -/
def coded (o : ArrOp) (tile : Nat) (cs : List Int) : ArrOp :=
  { o with codes := Tbl.set o.codes tile cs, sums := sumCodes { o with codes := Tbl.set o.codes tile cs } }

/-- The state with a product's codes delivered and its seat free. -/
def productEnded (s : State) (id tile d : Nat) (p : Product) (o : ArrOp) : State :=
  (freeCodes (s.setDie d { s.die d with running := (s.die d).running.erase p }) 256).1.setArr id (coded o tile (freeCodes s 256).2)

theorem productEnded_shape (s : State) (id tile d : Nat) (p : Product) (o : ArrOp) :
    productEnded s id tile d p o = { s with
      dies := (productEnded s id tile d p o).dies, free := s.free + 256, arrops := Tbl.set s.arrops id (coded o tile (freeCodes s 256).2) } := rfl

theorem tileProduct_delivers {s : State} {id tile d : Nat} {p : Product} {o : ArrOp} (look : Tbl.look s.arrops id = some o) (underway : o.underway = true)
    (ripe : ripeProduct s id tile = some (d, p)) (live : p.live = true) (time : s.m.ftime < o.deadline) (reply : replySlot (s.die d) o = true) :
    exec (.plotTileProduct id tile) s = .next (fillPlots d [p.plot] (productEnded s id tile d p o)) := by
  have accepted : (p.live && o.underway && decide (s.m.ftime < o.deadline) && replySlot (s.die d) o) = true := by
    rw [live, underway, reply, decide_eq_true time]; rfl
  rw [exec_plotTileProduct, execPlotTileProduct]
  simp only [ripe, State.setDie_arrops, State.setDie_m, look]
  exact congrArg (fun u => Host.Outcome.next (fillPlots d [p.plot] u)) (if_pos accepted)

/-! ### A failed attempt (R113) -/

theorem exec_layrDeadlineExpiry (id : Nat) (s : State) : exec (.layrDeadlineExpiry id) s = execLayrDeadlineExpiry id s := rfl

theorem exec_arrayCrcFailure (id : Nat) (s : State) : exec (.arrayCrcFailure id) s = execArrayCrcFailure id s := rfl

theorem exec_plotFault (id : Nat) (s : State) : exec (.plotFault id) s = execPlotFault id s := rfl

theorem exec_shadowCompute (id : Nat) (s : State) : exec (.shadowCompute id) s = execShadowCompute id s := rfl

/-- An operation after a failed attempt: resent once, then failed. -/
def afterFailure (s : State) (o : ArrOp) : ArrOp :=
  if o.attempt = 1 then
    { o with attempt := 2, sent := [], codes := [], crc := false, deadline := if o.shadow then s.m.ftime + 12800000 else 0 }
  else { o with failed := true }

/-- What a failed attempt does: the operation goes on or fails, the dies of its tiles count it unless it is a shadow operation,
and the calibration counter counts that of an epoch's probe. -/
structure AttemptFailed (s t : State) (id : Nat) (o : ArrOp) : Prop where
  arrops : t.arrops = Tbl.set s.arrops id (afterFailure s o)
  groups : t.groups = s.groups
  faults : o.shadow = false → ∀ d, Tbl.get 0 t.m.arrayFaults d = Tbl.get 0 s.m.arrayFaults d + if ∃ x ∈ o.tiles, x.die = d then 1 else 0
  calib : t.m.calib = s.m.calib + if o.dest = .epoch then 1 else 0

/-- Counting once for every die of a list without repetitions. -/
theorem get_foldl_count {ds : List Nat} (nodup : ds.Nodup) (t : Tbl Nat) (d : Nat) :
    Tbl.get 0 (ds.foldl (fun t d => Tbl.put 0 t d (Tbl.get 0 t d + 1)) t) d = Tbl.get 0 t d + if d ∈ ds then 1 else 0 := by
  induction ds generalizing t with
  | nil => rfl
  | cons e ds ih =>
    obtain ⟨fresh, nodup⟩ := List.nodup_cons.1 nodup
    rw [List.foldl_cons, ih nodup]
    by_cases h : d = e
    · subst h
      rw [Tbl.get_put_same, if_neg fresh, if_pos (List.mem_cons_self ..)]
    · rw [Tbl.get_put_other _ _ _ h]
      simp only [List.mem_cons, h, false_or]

theorem countFaults_get (s : State) (o : ArrOp) (d : Nat) :
    Tbl.get 0 (countFaults s ((o.tiles.map (·.die)).dedup)).m.arrayFaults d
      = Tbl.get 0 s.m.arrayFaults d + if ∃ x ∈ o.tiles, x.die = d then 1 else 0 := by
  refine (get_foldl_count (List.nodup_dedup _) _ d).trans ?_
  simp only [List.mem_dedup, List.mem_map]

/-- The state whose counters count the failed attempt. -/
def failureCounted (s : State) (o : ArrOp) : State :=
  let u := if o.shadow then s else countFaults s ((o.tiles.map (·.die)).dedup)
  { u with m := { u.m with calib := u.m.calib + if o.dest = .epoch then 1 else 0 } }

theorem failAttempt_eq (s : State) (id : Nat) (o : ArrOp) :
    failAttempt s id o = (orphan (failureCounted s o) id).setArr id (afterFailure s o) := by
  unfold failAttempt failureCounted afterFailure firstDeadline
  cases o.shadow <;> cases o.dest <;> rfl

theorem failAttempt_failed (s : State) (id : Nat) (o : ArrOp) : AttemptFailed s (failAttempt s id o) id o := by
  rw [failAttempt_eq]
  unfold failureCounted
  cases shadow : o.shadow with
  | true => exact ⟨rfl, rfl, fun h => absurd (shadow.symm.trans h) nofun, rfl⟩
  | false => exact ⟨rfl, rfl, fun _ => countFaults_get s o, rfl⟩

/-- An attempt that fails behind a change of none of this fails all the same. -/
theorem AttemptFailed.of_kept {s u t : State} {id : Nat} {o : ArrOp} (h : AttemptFailed u t id o) (arrops : u.arrops = s.arrops)
    (groups : u.groups = s.groups) (m : u.m = { s.m with shardHead := u.m.shardHead }) : AttemptFailed s t id o where
  arrops := by rw [h.arrops, arrops, afterFailure, afterFailure, m]
  groups := h.groups.trans groups
  faults shadow d := by rw [h.faults shadow d, m]
  calib := by rw [h.calib, m]

/-! ### Missing leaves (R143) -/

/-- Asking for leaves writes the shard ring and the list of requests alone. -/
def AskedOnly (s t : State) : Prop :=
  t = { s with m := { s.m with shardHead := t.m.shardHead }, mem := t.mem, shards := t.shards }

theorem askShard_askedOnly (part : Option Nat) (s : State) (name : Nat) : AskedOnly s (askShard part s name) := by
  unfold askShard ringPut
  split
  · exact rfl
  · split <;> exact rfl

theorem askMissing_askedOnly (s : State) (root : Nat) : AskedOnly s (askMissing s root) :=
  List.foldlRecOn (motive := AskedOnly s) _ (askShard none) rfl fun t ht n _ => by
    have step := askShard_askedOnly none t n
    unfold AskedOnly at ht step ⊢
    rw [step, ht]

/-! ### The four ways to fail -/

theorem deadlineExpiry_fails {s : State} {id : Nat} {o : ArrOp} (look : Tbl.look s.arrops id = some o) (underway : o.underway = true)
    (started : o.deadline ≠ 0) (past : o.deadline ≤ s.m.ftime) : exec (.layrDeadlineExpiry id) s = .next (failAttempt s id o) := by
  rw [exec_layrDeadlineExpiry, execLayrDeadlineExpiry]
  simp only [look]
  rw [if_pos]
  simp only [underway, bne_iff_ne.2 started, past, decide_true, Bool.and_self]

theorem deadlineExpiry_early {s : State} {id : Nat} {o : ArrOp} (look : Tbl.look s.arrops id = some o) (early : s.m.ftime < o.deadline) :
    exec (.layrDeadlineExpiry id) s = .next s := by
  rw [exec_layrDeadlineExpiry, execLayrDeadlineExpiry]
  simp only [look]
  rw [if_neg]
  simp only [decide_eq_false (Nat.not_le.2 early), Bool.and_false, Bool.false_eq_true, not_false_eq_true]

/-- A failing packet or tile meets an attempt under way that has sent a packet. -/
theorem arrayFailure_meets {s : State} {id : Nat} {o : ArrOp} (fails : ArrOp → State) (look : Tbl.look s.arrops id = some o)
    (underway : o.underway = true) (arrays : o.shadow = false) (sent : o.sent ≠ []) : arrayFailure id s fails = fails o := by
  unfold arrayFailure
  simp only [look]
  rw [if_pos]
  simp only [underway, arrays, List.isEmpty_eq_false_iff.2 sent, Bool.not_false, Bool.and_self]

theorem shadowCompute_fails {s : State} {id : Nat} {o : ArrOp} (look : Tbl.look s.arrops id = some o) (underway : o.underway = true)
    (shadow : o.shadow = true) (cause : o.deadline ≤ s.m.ftime ∨ o.ideals s = none) :
    ∃ t, exec (.shadowCompute id) s = .next t ∧ AttemptFailed s t id o := by
  rw [exec_shadowCompute, execShadowCompute]
  simp only [look, underway, shadow, Bool.not_true, Bool.or_self, Bool.false_eq_true, if_false]
  by_cases past : o.deadline ≤ s.m.ftime
  · rw [if_pos past]
    exact ⟨_, rfl, failAttempt_failed s id o⟩
  · rw [if_neg past, cause.resolve_left past]
    have asked := askMissing_askedOnly s o.root
    obtain ⟨arrops, groups, m⟩ : (askMissing s o.root).arrops = s.arrops ∧ (askMissing s o.root).groups = s.groups
        ∧ (askMissing s o.root).m = { s.m with shardHead := (askMissing s o.root).m.shardHead } := by
      unfold AskedOnly at asked
      rw [asked]
      exact ⟨rfl, rfl, rfl⟩
    exact ⟨_, rfl, (failAttempt_failed _ id o).of_kept arrops groups m⟩

/-! ### Ideal codes (R109, R112, R115) -/

theorem sumOpt_map_some {α : Type} (f : α → Option Int) (g : α → Int) (l : List α) (known : ∀ x ∈ l, f x = some (g x)) :
    sumOpt (l.map f) = some (l.foldl (fun a x => a + g x) 0) := by
  suffices shifted : ∀ a, (l.map f).foldl (fun a x => a.bind fun a => x.map (a + ·)) (some a) = some (l.foldl (fun a x => a + g x) a) from
    shifted 0
  induction l with
  | nil => exact fun _ => rfl
  | cons x l ih =>
    intro a
    rw [List.map_cons, List.foldl_cons, List.foldl_cons, known x (List.mem_cons_self ..)]
    exact ih (fun y hy => known y (List.mem_cons_of_mem _ hy)) (a + g x)

theorem idealAt_some {s : State} {root din dout : Nat} (j : Nat) {trans : Bool} (x : List Int) {t r : Nat} (w : Nat → Int)
    (weights : ∀ i < 512, (if trans then weightAt s root din dout r (512 * t + i) else weightAt s root din dout (512 * t + i) r) = some (w (512 * t + i))) :
    idealAt s root din dout j trans x t r
      = some (idealCode j ((List.range 512).foldl (fun p i => p + (x[512 * t + i]?).getD 0 * w (512 * t + i)) 0)) := by
  unfold idealAt
  rw [sumOpt_map_some _ (fun i => (x[512 * t + i]?).getD 0 * w (512 * t + i)) _ fun i hi => ?_, Option.map_some]
  dsimp only
  rw [weights i (List.mem_range.1 hi), Option.map_some]

theorem ideals_some {s : State} {o : ArrOp} (w : Nat → Nat → Int)
    (weights : ∀ k < 512 * o.tiles.length, ∀ l < 256, (if o.trans then weightAt s o.root o.din o.dout (o.start + l) k
      else weightAt s o.root o.din o.dout k (o.start + l)) = some (w k l)) :
    o.ideals s = some ((List.range 256).map fun l => (List.range o.tiles.length).foldl (fun a t => a + idealCode o.j
      ((List.range 512).foldl (fun p i => p + (o.input[512 * t + i]?).getD 0 * w (512 * t + i) l) 0)) 0) := by
  have lane : ∀ l ∈ List.range 256,
      sumOpt ((List.range o.tiles.length).map fun t => idealAt s o.root o.din o.dout o.j o.trans o.input t (o.start + l))
        = some ((List.range o.tiles.length).foldl (fun a t => a + idealCode o.j
            ((List.range 512).foldl (fun p i => p + (o.input[512 * t + i]?).getD 0 * w (512 * t + i) l) 0)) 0) := fun l hl =>
    sumOpt_map_some _ _ _ fun t ht => idealAt_some o.j o.input (fun k => w k l) fun i hi =>
      weights _ (by have := List.mem_range.1 ht; omega) l (List.mem_range.1 hl)
  unfold ArrOp.ideals
  rw [List.map_congr_left lane]
  simp only [List.all_map, List.map_map, Function.comp_def, Option.isSome_some, Option.getD_some, List.all_eq_true, implies_true, if_true]

theorem shadowCompute_sums {s : State} {id : Nat} {o : ArrOp} {l : List Int} (look : Tbl.look s.arrops id = some o) (underway : o.underway = true)
    (shadow : o.shadow = true) (early : s.m.ftime < o.deadline) (ideals : o.ideals s = some l) :
    exec (.shadowCompute id) s = .next (s.setArr id { o with sums := some l }) := by
  rw [exec_shadowCompute, execShadowCompute]
  simp only [look, underway, shadow, Bool.not_true, Bool.or_self, Bool.false_eq_true, if_false, if_neg (Nat.not_le.2 early), ideals]

end Sys2Proof.Proofs
end

section
/-!
PROOF. The frozen array's own steps: `Obligations.ArraySteps`.
-/

namespace Sys2Proof.Proofs

open Sys2Proof.Machine Sys2Proof.Claim

/-! ### The clauses about slot tables -/

/-- One entry alone of one port's tables can have another owner after a write. -/
theorem tableWrite_confined (s : State) (port slot : Nat) (response : Bool) (v : BitVec 8) :
    ∃ t, exec (.linkSlotTableWrite port response slot v) s = .next t
      ∧ ∀ p k, (slotOwner (s.die p).reqOwner k, slotOwner (s.die p).rspOwner k) ≠ (slotOwner (t.die p).reqOwner k, slotOwner (t.die p).rspOwner k) →
          port < 16 ∧ slot < 256 ∧ p = port ∧ k = slot := by
  by_cases taken : port < 16 ∧ slot < 256 ∧ OwnerTaken s v
  · obtain ⟨hp, hk, taken⟩ := taken
    refine ⟨_, tableWrite_taken response hp hk taken, fun p k differ => ?_⟩
    by_contra other
    have here : p ≠ port ∨ k ≠ slot := by
      by_contra same
      simp only [not_or, not_not, ne_eq] at same
      exact other ⟨hp, hk, same⟩
    obtain ⟨req, rsp⟩ := owners_ownedSlot s port slot response v here
    exact differ (Prod.ext req.symm rsp.symm)
  · have refused : 16 ≤ port ∨ 256 ≤ slot ∨ ¬ OwnerTaken s v := by
      by_cases hp : port < 16
      · by_cases hk : slot < 256
        · exact .inr (.inr fun h => taken ⟨hp, hk, h⟩)
        · exact .inr (.inl (Nat.le_of_not_lt hk))
      · exact .inl (Nat.le_of_not_lt hp)
    exact ⟨s, tableWrite_refused response refused, fun p k differ => absurd rfl differ⟩

/-- An entry that is taken has its owner, and the other table of the port stays. -/
theorem tableWrite_owner {s : State} {port slot : Nat} (response : Bool) {v : BitVec 8} (hp : port < 16) (hk : slot < 256) (taken : OwnerTaken s v) :
    ∃ t, exec (.linkSlotTableWrite port response slot v) s = .next t
      ∧ slotOwner (if response then (t.die port).rspOwner else (t.die port).reqOwner) slot = v.toNat % 32
      ∧ (if response then (t.die port).reqOwner = (s.die port).reqOwner else (t.die port).rspOwner = (s.die port).rspOwner) := by
  refine ⟨_, tableWrite_taken response hp hk taken, ?_⟩
  rw [State.die_setDie_same]
  exact owner_ownedSlot (s.die port) response slot v

theorem not_ownerTaken {s : State} {v : BitVec 8}
    (refused : 24 ≤ v.toNat % 32 ∧ v.toNat % 32 < 30 ∨ v.toNat % 32 < 24 ∧ (s.part (v.toNat % 32)).e.state = 0) : ¬ OwnerTaken s v := by
  unfold OwnerTaken
  rintro (⟨small, free⟩ | large)
  · obtain ⟨reserved, -⟩ | ⟨-, zero⟩ := refused
    · omega
    · exact free zero
  · omega

/-! ### The clauses about attempts -/

theorem tileProduct_codes {s : State} {id tile d : Nat} {o : ArrOp} (look : Tbl.look s.arrops id = some o) (underway : o.underway = true)
    (ripe : ∃ p ∈ (s.die d).running, p.op = id ∧ p.tile = tile ∧ p.till ≤ s.m.ftime)
    (only : ∀ c ∈ s.dies, ∀ p ∈ c.2.running, p.op = id → p.tile = tile → p.till ≤ s.m.ftime → c.1 = d ∧ p.live = true)
    (time : s.m.ftime < o.deadline)
    (reply : ∃ k < 256, slotOwner (s.die d).rspOwner k = o.owner ∨ slotOwner (s.die d).rspOwner k = 31 ∧ o.dest = .epoch) :
    ∃ t, exec (.plotTileProduct id tile) s = .next t ∧ t.arrops = Tbl.set s.arrops id (coded o tile (freeCodes s 256).2)
      ∧ MemoriesSame s t ∧ t.groups = s.groups := by
  obtain ⟨p, ripe, live⟩ := ripeProduct_some ripe only
  refine ⟨_, tileProduct_delivers look underway ripe live time (replySlot_iff.2 reply), ?_⟩
  have filled := (fillPlots_seatsOnly d [p.plot] (productEnded s id tile d p o)).shape
  have ended := productEnded_shape s id tile d p o
  generalize productEnded s id tile d p o = u at filled ended ⊢
  generalize fillPlots d [p.plot] u = t at filled ⊢
  rw [filled, ended]
  exact ⟨rfl, ⟨rfl, rfl, rfl, fun _ => rfl⟩, rfl⟩

theorem linkSlotStart_sent {s : State} {port slot id : Nat} {o : ArrOp}
    (sends : exec (.linkSlotStart port slot) s = .next (sendRequest s port (slotOwner (s.die port).reqOwner slot) id o)) :
    let v := slotOwner (s.die port).reqOwner slot
    ∃ t, exec (.linkSlotStart port slot) s = .next t ∧ MemoriesSame s t ∧ t.groups = s.groups ∧ t.rowReqs = s.rowReqs
      ∧ t.arrops = Tbl.set s.arrops id { o with
          sent := Tbl.set o.sent port s.nextId, deadline := if o.sent = [] then s.m.ftime + 50000 else o.deadline }
      ∧ (o.dest = .epoch → v < 24 → lentNow t (t.die port) v = lentNow s (s.die port) v + 1) := by
  intro v
  have counted : o.dest = .epoch → v < 24 → _ := sendRequest_lentNow s port id
  have shape := sendRequest_shape s port v id o
  refine ⟨_, sends, ?_⟩
  generalize sendRequest s port v id o = t at counted shape
  refine ⟨?_, ?_, ?_, ?_, counted⟩
  · rw [shape]; exact ⟨rfl, rfl, rfl, fun _ => rfl⟩
  · rw [shape]; rfl
  · rw [shape]; rfl
  · rw [shape]; rfl

/-- Settles O41. -/
theorem arraySteps : Obligations.ArraySteps := by
  intro s sorted
  refine ⟨tableWrite_confined s, fun port slot response v hp hk => ⟨tableWrite_owner response hp hk,
    fun refused => tableWrite_refused response (.inr (.inr (not_ownerTaken refused)))⟩, fun port slot => ?_, fun id o look underway => ?_⟩
  · exact ⟨linkSlotStart_idle, fun id o look mine older rows => linkSlotStart_sent (linkSlotStart_sends sorted look mine older rows)⟩
  · intro resent fails
    have fails_of : ∀ {i : Instr} {t : State}, exec i s = .next t → AttemptFailed s t id o → fails i := fun done failed =>
      ⟨_, done, failed.arrops, failed.groups, failed.faults, failed.calib⟩
    refine ⟨?_, ?_, deadlineExpiry_early look, ?_, ?_, ?_⟩
    · intro tile d ripe only time reply
      obtain ⟨t, done, arrops, mems, groups⟩ := tileProduct_codes look underway ripe only time reply
      exact ⟨t, _, _, done, freeCodes_length s 256, fun c => freeCodes_range, arrops, rfl, mems, groups, sumCodes_eq _⟩
    · intro started past
      exact fails_of (deadlineExpiry_fails look underway started past) (failAttempt_failed s id o)
    · intro arrays sent
      have meets := fun f => arrayFailure_meets f look underway arrays sent
      refine ⟨fails_of (congrArg Host.Outcome.next (meets _)) (failAttempt_failed s id o), fun second => ?_, fun first => ?_⟩
      · exact fails_of (congrArg Host.Outcome.next ((meets _).trans (if_pos second))) (failAttempt_failed s id o)
      · exact congrArg Host.Outcome.next ((meets _).trans (if_neg (Bool.eq_false_iff.1 first)))
    · intro shadow cause
      obtain ⟨t, done, failed⟩ := shadowCompute_fails look underway shadow cause
      exact fails_of done failed
    · intro w shadow early weights
      exact shadowCompute_sums look underway shadow early (ideals_some w weights)

end Sys2Proof.Proofs
end
